-- ==== Sys2Proof/Word.lean ====
section
/-! DEFINITION. Words, the fields of an instruction (R36, R40) and the plain types that instructions, events and the
state share. -/

namespace Sys2Proof

abbrev Byte := BitVec 8
abbrev W16 := BitVec 16
abbrev W32 := BitVec 32
abbrev W64 := BitVec 64
abbrev W128 := BitVec 128
/-- One 64-byte line (R154), byte n at bits [8n+7:8n] (R4). -/
abbrev Line := BitVec 512
/-- One bit per byte of a line. -/
abbrev ByteMask := BitVec 64

/-- The fields of the first word (R36) that an instruction's meaning reads. `L` and `OP` are fixed by the
constructor. -/
structure Fields where
  sw : Bool
  pg : BitVec 3
  pn : Bool
  d : BitVec 7
  a : BitVec 7
  b : BitVec 7
  c : BitVec 7
  sub : BitVec 5
  md : BitVec 16
deriving DecidableEq, Repr

/-- The extension word of a 128-bit form (R40); `DK` is fixed by the opcode. -/
structure Ext where
  role : BitVec 4
  chan : BitVec 4
  body : BitVec 52
deriving DecidableEq, Repr

/-- Identity of a stream of channel packets (R294): source package, source die, handle, epoch. -/
structure StreamKey where
  pkg : Nat
  die : Nat
  handle : Nat
  epoch : Nat
deriving DecidableEq, Repr

/-- One lane's operation in a packet (R305, R379): the lane, its byte offset in the line, and its operands. -/
structure LaneOp where
  lane : Nat
  off : Nat
  a : W64
  b : W64
deriving DecidableEq, Repr

/-- One target of a multicast (R385): destination, FIRST and PREV. -/
structure ChainEnt where
  dst : Nat
  first : Bool
  prev : Nat
deriving DecidableEq, Repr

/-- A channel packet (R305, R379). A destination is package * 16 + die, or 65536 + pool node. `who` (the agent of each lane,
after the lane's byte offset in the line), `scope`, `plain`, `va`, `pc` and `launch` are what the home's Peephole checks and
records (R176, R179); a packet from another package has no launch of this one. -/
structure Packet where
  key : StreamKey
  seq : Nat
  prev : Nat
  first : Bool
  pkop : Nat
  var : Nat
  w64 : Bool
  pa : Nat
  kid : Nat
  cmps : Nat
  dst : Nat
  mask : ByteMask
  data : Line
  lanes : List LaneOp
  chain : List ChainEnt
  hop : Nat
  via : Nat
  err : Nat
  void : Bool
  who : List (Nat × Nat)
  fibs : List Nat
  scope : Nat
  plain : Bool
  va : W64
  pc : W64
  launch : Option Nat
deriving DecidableEq, Repr

/-- A front-end coordination message (R346, R350): kind 0 report, 1 begin, 2 refused, 3 abandon, 4 the LAUNCH_ID of an
ending trap. -/
structure Coord where
  kind : Nat
  launch : W64
  die : Nat
deriving DecidableEq, Repr

/-- What an acknowledgement carries (R379): nothing, the 64 bytes of a load, or old values of 4 or of 8 bytes. -/
inductive AckForm where
  | bare | line | words | dwords
deriving DecidableEq, Repr

/-- What travels between the channel engines, by unit kind (R380); `reserved` stands for a kind or a header that a
receiver discards. -/
inductive Msg where
  | req (p : Packet)
  | ack (k : StreamKey) (seq err : Nat) (form : AckForm) (data : Line) (vals : List W64)
  | nack (k : StreamKey) (seq : Nat)
  | resync (ks : List StreamKey)
  | resyncAns (ls : List (StreamKey × Option Nat))
  | release (k : StreamKey) (prev : Nat)
  | releaseAck (k : StreamKey)
  | hopAck (k : StreamKey) (seq target : Nat)
  | time (ns : W64)
  | coord (c : Coord)
  | fetch (ic addr key cmps home : Nat)
  | block (ic addr err : Nat) (v : BitVec 256)
  | rcAck (cum : Nat) (beyond : List Nat)
  | reserved
deriving DecidableEq, Repr

/-- A packet on a Rutis link (R383): its reliable-connection number, the incarnation of the connection it belongs to (log
entry 139), source and destination places. -/
structure WirePkt where
  rcseq : Nat
  conn : Nat
  src : Nat
  dst : Nat
  msg : Msg
deriving DecidableEq, Repr

/-- The engines that decode instructions (R49). -/
inductive EngineKind where
  | v | m | g
deriving DecidableEq, Repr

end Sys2Proof
end

