-- ==== Sys2Proof/Syntax.lean ====
section
/-! DEFINITION. The instructions (R49) and the hardware events of the operation table, one constructor per row of
spec/opcode_table.json. An encoded instruction carries its fields; an event carries the units and data it concerns. -/

namespace Sys2Proof

inductive Instr where
  /-- NOP (R50). -/
  | nop (f : Fields)
  /-- NOP_96 (R50). -/
  | nop96 (f : Fields) (imm : BitVec 32)
  /-- NOP_128 (R50). -/
  | nop128 (f : Fields) (ext : Ext)
  /-- ADD (R122). -/
  | add (f : Fields)
  /-- ADD_96 (R122). -/
  | add96 (f : Fields) (imm : BitVec 32)
  /-- SUB (R122). -/
  | sub (f : Fields)
  /-- SUB_96 (R122). -/
  | sub96 (f : Fields) (imm : BitVec 32)
  /-- MUL (R122). -/
  | mul (f : Fields)
  /-- MUL_96 (R122). -/
  | mul96 (f : Fields) (imm : BitVec 32)
  /-- MULH (R122). -/
  | mulh (f : Fields)
  /-- MULH_96 (R122). -/
  | mulh96 (f : Fields) (imm : BitVec 32)
  /-- MAD (R122). -/
  | mad (f : Fields)
  /-- MAD_96 (R122). -/
  | mad96 (f : Fields) (imm : BitVec 32)
  /-- MADW (R122). -/
  | madw (f : Fields)
  /-- MADW_96 (R122). -/
  | madw96 (f : Fields) (imm : BitVec 32)
  /-- DIV (R123). -/
  | div (f : Fields)
  /-- DIV_96 (R123). -/
  | div96 (f : Fields) (imm : BitVec 32)
  /-- REM (R123). -/
  | rem (f : Fields)
  /-- REM_96 (R123). -/
  | rem96 (f : Fields) (imm : BitVec 32)
  /-- MIN (R122). -/
  | min (f : Fields)
  /-- MIN_96 (R122). -/
  | min96 (f : Fields) (imm : BitVec 32)
  /-- MAX (R122). -/
  | max (f : Fields)
  /-- MAX_96 (R122). -/
  | max96 (f : Fields) (imm : BitVec 32)
  /-- ABS (R122). -/
  | abs (f : Fields)
  /-- AND (R124). -/
  | and (f : Fields)
  /-- AND_96 (R124). -/
  | and96 (f : Fields) (imm : BitVec 32)
  /-- OR (R124). -/
  | or (f : Fields)
  /-- OR_96 (R124). -/
  | or96 (f : Fields) (imm : BitVec 32)
  /-- XOR (R124). -/
  | xor (f : Fields)
  /-- XOR_96 (R124). -/
  | xor96 (f : Fields) (imm : BitVec 32)
  /-- ANDN (R124). -/
  | andn (f : Fields)
  /-- ANDN_96 (R124). -/
  | andn96 (f : Fields) (imm : BitVec 32)
  /-- SHL (R124). -/
  | shl (f : Fields)
  /-- SHL_96 (R124). -/
  | shl96 (f : Fields) (imm : BitVec 32)
  /-- SHR (R124). -/
  | shr (f : Fields)
  /-- SHR_96 (R124). -/
  | shr96 (f : Fields) (imm : BitVec 32)
  /-- SAR (R124). -/
  | sar (f : Fields)
  /-- SAR_96 (R124). -/
  | sar96 (f : Fields) (imm : BitVec 32)
  /-- ROT (R124). -/
  | rot (f : Fields)
  /-- ROT_96 (R124). -/
  | rot96 (f : Fields) (imm : BitVec 32)
  /-- CLZ (R124). -/
  | clz (f : Fields)
  /-- POPC (R124). -/
  | popc (f : Fields)
  /-- BREV (R124). -/
  | brev (f : Fields)
  /-- BFX (R124). -/
  | bfx (f : Fields)
  /-- BFX_96 (R124). -/
  | bfx96 (f : Fields) (imm : BitVec 32)
  /-- BFI (R124). -/
  | bfi (f : Fields)
  /-- BFI_96 (R124). -/
  | bfi96 (f : Fields) (imm : BitVec 32)
  /-- SEL (R125). -/
  | sel (f : Fields)
  /-- SEL_96 (R125). -/
  | sel96 (f : Fields) (imm : BitVec 32)
  /-- CMP (R125). -/
  | cmp (f : Fields)
  /-- CMP_96 (R125). -/
  | cmp96 (f : Fields) (imm : BitVec 32)
  /-- CMP64 (R126). -/
  | cmp64 (f : Fields)
  /-- CMP64_96 (R126). -/
  | cmp6496 (f : Fields) (imm : BitVec 32)
  /-- MOV (R125). -/
  | mov (f : Fields)
  /-- LI (R125). -/
  | li (f : Fields) (imm : BitVec 32)
  /-- ADD64 (R126). -/
  | add64 (f : Fields)
  /-- ADD64_96 (R126). -/
  | add6496 (f : Fields) (imm : BitVec 32)
  /-- SUB64 (R126). -/
  | sub64 (f : Fields)
  /-- SUB64_96 (R126). -/
  | sub6496 (f : Fields) (imm : BitVec 32)
  /-- LEA (R126). -/
  | lea (f : Fields)
  /-- LEA_96 (R126). -/
  | lea96 (f : Fields) (imm : BitVec 32)
  /-- SH64 (R126). -/
  | sh64 (f : Fields)
  /-- SH64_96 (R126). -/
  | sh6496 (f : Fields) (imm : BitVec 32)
  /-- PLOG (R127). -/
  | plog (f : Fields)
  /-- PMOV_RD (R127). -/
  | pmovRd (f : Fields)
  /-- PMOV_WR (R127). -/
  | pmovWr (f : Fields)
  /-- FADD (R131). -/
  | fadd (f : Fields)
  /-- FADD_96 (R131). -/
  | fadd96 (f : Fields) (imm : BitVec 32)
  /-- FSUB (R131). -/
  | fsub (f : Fields)
  /-- FSUB_96 (R131). -/
  | fsub96 (f : Fields) (imm : BitVec 32)
  /-- FMUL (R131). -/
  | fmul (f : Fields)
  /-- FMUL_96 (R131). -/
  | fmul96 (f : Fields) (imm : BitVec 32)
  /-- FFMA (R131). -/
  | ffma (f : Fields)
  /-- FFMA_96 (R131). -/
  | ffma96 (f : Fields) (imm : BitVec 32)
  /-- FMIN (R132). -/
  | fmin (f : Fields)
  /-- FMIN_96 (R132). -/
  | fmin96 (f : Fields) (imm : BitVec 32)
  /-- FMAX (R132). -/
  | fmax (f : Fields)
  /-- FMAX_96 (R132). -/
  | fmax96 (f : Fields) (imm : BitVec 32)
  /-- FCMP (R133). -/
  | fcmp (f : Fields)
  /-- FCMP_96 (R133). -/
  | fcmp96 (f : Fields) (imm : BitVec 32)
  /-- FCLASS (R134). -/
  | fclass (f : Fields)
  /-- FRCP (R136). -/
  | frcp (f : Fields)
  /-- FRSQ (R136). -/
  | frsq (f : Fields)
  /-- FSQRT (R136). -/
  | fsqrt (f : Fields)
  /-- FEXP2 (R136). -/
  | fexp2 (f : Fields)
  /-- FLOG2 (R136). -/
  | flog2 (f : Fields)
  /-- FSIN (R136). -/
  | fsin (f : Fields)
  /-- FCOS (R136). -/
  | fcos (f : Fields)
  /-- FTANH (R136). -/
  | ftanh (f : Fields)
  /-- FRND (R135). -/
  | frnd (f : Fields)
  /-- CVT (R140). -/
  | cvt (f : Fields)
  /-- F2I (R141). -/
  | f2i (f : Fields)
  /-- I2F (R141). -/
  | i2f (f : Fields)
  /-- PACK (R142). -/
  | pack (f : Fields)
  /-- UNPK (R143). -/
  | unpk (f : Fields)
  /-- UNPK_SCALED (R143). -/
  | unpkScaled (f : Fields)
  /-- QBLK (R144). -/
  | qblk (f : Fields)
  /-- FDOT2 (R138). -/
  | fdot2 (f : Fields)
  /-- FDOT2_96 (R138). -/
  | fdot296 (f : Fields) (imm : BitVec 32)
  /-- SHFL (R147). -/
  | shfl (f : Fields)
  /-- SHFL_96 (R147). -/
  | shfl96 (f : Fields) (imm : BitVec 32)
  /-- VOTE (R148). -/
  | vote (f : Fields)
  /-- REDUX (R149). -/
  | redux (f : Fields)
  /-- SCAN (R150). -/
  | scan (f : Fields)
  /-- MATCH (R151). -/
  | matchLanes (f : Fields)
  /-- BRA (R97). -/
  | bra (f : Fields) (imm : BitVec 32)
  /-- BRX (R97). -/
  | brx (f : Fields)
  /-- CALL (R97). -/
  | call (f : Fields) (imm : BitVec 32)
  /-- CALLX (R97). -/
  | callx (f : Fields)
  /-- RET (R97). -/
  | ret (f : Fields)
  /-- JOIN (R99). -/
  | join (f : Fields) (imm : BitVec 32)
  /-- WAIT (R100). -/
  | wait (f : Fields)
  /-- EXIT (R104). -/
  | exit (f : Fields)
  /-- YIELD (R108). -/
  | yield (f : Fields)
  /-- FIB_NEW (R102). -/
  | fibNew (f : Fields) (imm : BitVec 32)
  /-- IDEM (R109). -/
  | idem (f : Fields)
  /-- BAR (R110). -/
  | bar (f : Fields)
  /-- FORK_MATRIX (R113). -/
  | forkMatrix (f : Fields) (ext : Ext)
  /-- FORK_COPY (R113). -/
  | forkCopy (f : Fields) (ext : Ext)
  /-- RDV (R115). -/
  | rdv (f : Fields)
  /-- RDV_96 (R115). -/
  | rdv96 (f : Fields) (imm : BitVec 32)
  /-- TRAP (R193). -/
  | trap (f : Fields)
  /-- TRAP_96 (R193). -/
  | trap96 (f : Fields) (imm : BitVec 32)
  /-- BRK (R193). -/
  | brk (f : Fields)
  /-- LD (R157). -/
  | ld (f : Fields)
  /-- LD_96 (R157). -/
  | ld96 (f : Fields) (imm : BitVec 32)
  /-- LDP (R158). -/
  | ldp (f : Fields)
  /-- LDP_96 (R158). -/
  | ldp96 (f : Fields) (imm : BitVec 32)
  /-- ST (R157). -/
  | st (f : Fields)
  /-- ST_96 (R157). -/
  | st96 (f : Fields) (imm : BitVec 32)
  /-- STP (R158). -/
  | stp (f : Fields)
  /-- STP_96 (R158). -/
  | stp96 (f : Fields) (imm : BitVec 32)
  /-- ATOM (R161). -/
  | atom (f : Fields)
  /-- ATOM_96 (R161). -/
  | atom96 (f : Fields) (imm : BitVec 32)
  /-- CAS (R161). -/
  | cas (f : Fields)
  /-- CAS_96 (R161). -/
  | cas96 (f : Fields) (imm : BitVec 32)
  /-- RED (R161). -/
  | red (f : Fields)
  /-- RED_96 (R161). -/
  | red96 (f : Fields) (imm : BitVec 32)
  /-- FENCE (R171). -/
  | fence (f : Fields)
  /-- CACHE (R172). -/
  | cache (f : Fields)
  /-- CACHE_96 (R172). -/
  | cache96 (f : Fields) (imm : BitVec 32)
  /-- PREF (R173). -/
  | pref (f : Fields)
  /-- PREF_96 (R173). -/
  | pref96 (f : Fields) (imm : BitVec 32)
  /-- CSM_OPEN (R219). -/
  | csmOpen (f : Fields) (ext : Ext)
  /-- CSM_CLOSE (R223). -/
  | csmClose (f : Fields)
  /-- CSM_FLUSH (R223). -/
  | csmFlush (f : Fields)
  /-- CSM_DROP (R223). -/
  | csmDrop (f : Fields)
  /-- CSM_PUSH (R223). -/
  | csmPush (f : Fields)
  /-- LDL (R220). -/
  | ldl (f : Fields)
  /-- LDL_96 (R220). -/
  | ldl96 (f : Fields) (imm : BitVec 32)
  /-- STL (R220). -/
  | stl (f : Fields)
  /-- STL_96 (R220). -/
  | stl96 (f : Fields) (imm : BitVec 32)
  /-- ATOML (R222). -/
  | atoml (f : Fields)
  /-- ATOML_96 (R222). -/
  | atoml96 (f : Fields) (imm : BitVec 32)
  /-- CPY (R244). -/
  | cpy (f : Fields) (ext : Ext)
  /-- CPY_2D (R244). -/
  | cpy2d (f : Fields) (ext : Ext)
  /-- GATH (R244). -/
  | gath (f : Fields) (ext : Ext)
  /-- CPY_SEAL (R247). -/
  | cpySeal (f : Fields)
  /-- GLD (R252). -/
  | gld (f : Fields)
  /-- GLD_96 (R252). -/
  | gld96 (f : Fields) (imm : BitVec 32)
  /-- GMOV (R253). -/
  | gmov (f : Fields) (ext : Ext)
  /-- GGATHER (R253). -/
  | ggather (f : Fields) (ext : Ext)
  /-- GSCAT (R253). -/
  | gscat (f : Fields) (ext : Ext)
  /-- GSIG (R254). -/
  | gsig (f : Fields)
  /-- GSIG_96 (R254). -/
  | gsig96 (f : Fields) (imm : BitVec 32)
  /-- TFA (R269). -/
  | tfa (f : Fields) (ext : Ext)
  /-- TFB (R269). -/
  | tfb (f : Fields) (ext : Ext)
  /-- MMA (R274). -/
  | mma (f : Fields)
  /-- MMAZ (R274). -/
  | mmaz (f : Fields)
  /-- AZERO (R276). -/
  | azero (f : Fields)
  /-- AZERO_96 (R276). -/
  | azero96 (f : Fields) (imm : BitVec 32)
  /-- TREL (R277). -/
  | trel (f : Fields)
  /-- MSYNC (R277). -/
  | msync (f : Fields)
  /-- ASCALE (R276). -/
  | ascale (f : Fields)
  /-- ASCALE_96 (R276). -/
  | ascale96 (f : Fields) (imm : BitVec 32)
  /-- ACC_WIN (R281). -/
  | accWin (f : Fields)
  /-- ACC_WIN_96 (R281). -/
  | accWin96 (f : Fields) (imm : BitVec 32)
  /-- ACC_RD (R282). -/
  | accRd (f : Fields)
  /-- ACC_RD_96 (R282). -/
  | accRd96 (f : Fields) (imm : BitVec 32)
  /-- ACC_WR (R282). -/
  | accWr (f : Fields)
  /-- ACC_WR_96 (R282). -/
  | accWr96 (f : Fields) (imm : BitVec 32)
  /-- CHOPEN (R302). -/
  | chopen (f : Fields) (ext : Ext)
  /-- CHCLOSE (R302). -/
  | chclose (f : Fields)
  /-- CST (R297). -/
  | cst (f : Fields) (ext : Ext)
  /-- CLD (R297). -/
  | cld (f : Fields) (ext : Ext)
  /-- CATOM (R297). -/
  | catom (f : Fields) (ext : Ext)
  /-- CRED (R297). -/
  | cred (f : Fields) (ext : Ext)
  /-- CCPY (R300). -/
  | ccpy (f : Fields) (ext : Ext)
  /-- CMCAST (R301). -/
  | cmcast (f : Fields) (ext : Ext)
  /-- CHJOIN (R303). -/
  | chjoin (f : Fields)
  /-- CHDRAIN (R304). -/
  | chdrain (f : Fields)
  /-- CHSTAT (R304). -/
  | chstat (f : Fields)
  /-- CHRESET (R302). -/
  | chreset (f : Fields)
  /-- RALLOC (R323). -/
  | ralloc (f : Fields)
  /-- RALLOC_96 (R323). -/
  | ralloc96 (f : Fields) (imm : BitVec 32)
  /-- RALLOC_TRY (R323). -/
  | rallocTry (f : Fields)
  /-- RALLOC_TRY_96 (R323). -/
  | rallocTry96 (f : Fields) (imm : BitVec 32)
  /-- RCOMMIT (R325). -/
  | rcommit (f : Fields)
  /-- RABORT (R325). -/
  | rabort (f : Fields)
  /-- RGET (R328). -/
  | rget (f : Fields)
  /-- RDONE (R329). -/
  | rdone (f : Fields)
  /-- SGSTAT (R330). -/
  | sgstat (f : Fields)
  /-- SGSTAT_96 (R330). -/
  | sgstat96 (f : Fields) (imm : BitVec 32)
  /-- SRD (R192). -/
  | srd (f : Fields)
  /-- SWR (R192). -/
  | swr (f : Fields)
  /-- RFT (R194). -/
  | rft (f : Fields)
  /-- RACE_ANNOTATE (R195). -/
  | raceAnnotate (f : Fields)
  /-- RACE_ANNOTATE_96 (R195). -/
  | raceAnnotate96 (f : Fields) (imm : BitVec 32)
  /-- RACE_QUERY (R195). -/
  | raceQuery (f : Fields)
  /-- RACE_QUERY_96 (R195). -/
  | raceQuery96 (f : Fields) (imm : BitVec 32)
  /-- TLBI_VA (R196). -/
  | tlbiVa (f : Fields)
  /-- TLBI_ALL (R196). -/
  | tlbiAll (f : Fields)
  /-- REMOTE_FETCH_RESPONSE (R419). -/
  | remoteFetchResponse (n err : Nat) (block : BitVec 256)
  /-- BAND_PRECEDENCE_EXPIRY (R181). -/
  | bandPrecedenceExpiry (band : Nat)
  /-- FAIRNESS_ROTATION (R184). -/
  | fairnessRotation (band : Nat)
  /-- WATCHDOG_STARVATION (R185). -/
  | watchdogStarvation (band : Nat)
  /-- WATCHDOG_REJOIN (R185). -/
  | watchdogRejoin (band n : Nat)
  /-- BARRIER_TIMEOUT (R186). -/
  | barrierTimeout (rdv : Bool) (key : Nat)
  /-- RESULT_ARRIVAL (R46). -/
  | resultArrival (who key id : Nat)
  /-- LATE_FAULT (R197). -/
  | lateFault (k : Nat)
  /-- TAKE_TRAP (R198). -/
  | takeTrap (k : Nat)
  /-- BARRIER_COMPLETION (R111). -/
  | barrierCompletion (key : Nat)
  /-- RENDEZVOUS_COMPLETION (R115). -/
  | rendezvousCompletion (w k : Nat)
  /-- PAGE_FAULT_MAPPED (R204). -/
  | pageFaultMapped (die asid : Nat) (va : W64) (lg pteAddr : Nat) (pte : W64)
  /-- PAGE_FAULT_UNSERVICEABLE (R204). -/
  | pageFaultUnserviceable (die asid : Nat) (va : W64) (lg : Nat)
  /-- WORKGROUP_RETIREMENT (R105). -/
  | workgroupRetirement (w : Nat)
  /-- GANG_SUSPENSION (R206). -/
  | gangSuspension (gang : Nat) (move : Bool)
  /-- GANG_RESUMPTION (R207). -/
  | gangResumption (gang quad : Nat) (images privs : List Nat)
  /-- HALT (R210). -/
  | halt (src die off n : Nat) (v : W64)
  /-- RESUME (R210). -/
  | resume (src die off n : Nat) (v : W64)
  /-- STEP (R210). -/
  | step (src die off n : Nat) (v : W64)
  /-- OWNERSHIP_REQUEST (R164). -/
  | ownershipRequest (agent line : Nat)
  /-- EPOCH_UPDATE (R164). -/
  | epochUpdate (agent line : Nat)
  /-- WRITE_BACK (R164). -/
  | writeBack (agent line : Nat)
  /-- DRAIN (R165). -/
  | drain (core e line : Nat)
  /-- BACKGROUND_DRAIN (R166). -/
  | backgroundDrain (core : Nat)
  /-- RETRY (R169). -/
  | retry (line : Nat) (reqs : List Nat)
  /-- L1_FILL (R168). -/
  | l1Fill (core line : Nat)
  /-- L2_EVICTION (R164). -/
  | l2Eviction (line : Nat)
  /-- L2_FILL (R80). -/
  | l2Fill (line : Nat)
  /-- L2_SLICE_REMAP (R357). -/
  | l2SliceRemap (die : Nat)
  /-- CASEMENT_FILL_ANSWER (R229). -/
  | casementFillAnswer (gang sl k : Nat)
  /-- CASEMENT_NOTICE (R227). -/
  | casementNotice (quad : Nat)
  /-- CASEMENT_ACQUIRE (R228). -/
  | casementAcquire (gang : Nat)
  /-- HALO_PUSH (R234). -/
  | haloPush (gang : Nat)
  /-- CASEMENT_DRAIN (R230). -/
  | casementDrain (quad e line : Nat)
  /-- CASEMENT_BACKGROUND_WRITEBACK (R230). -/
  | casementBackgroundWriteback (gang : Nat)
  /-- COPY_COMMAND_PERFORM (R245). -/
  | copyCommandPerform (ce id : Nat)
  /-- COPY_SOURCE_AGING (R241). -/
  | copySourceAging (ce : Nat)
  /-- BATCH_COMPLETION (R247). -/
  | batchCompletion (fib batch : Nat)
  /-- COPY_TRANSFER_PERFORM (R253). -/
  | copyTransferPerform (c id : Nat)
  /-- TILE_FETCH_PERFORM (R270). -/
  | tileFetchPerform (quad : Nat)
  /-- MMA_PERFORM (R275). -/
  | mmaPerform (quad : Nat)
  /-- AZERO_PERFORM (R276). -/
  | azeroPerform (quad : Nat)
  /-- ASCALE_PERFORM (R276). -/
  | ascalePerform (quad : Nat)
  /-- TREL_PERFORM (R277). -/
  | trelPerform (quad : Nat)
  /-- PIN_LIMIT_EXPIRY (R273). -/
  | pinLimitExpiry (quad : Nat)
  /-- CHANNEL_REQUEST_ARRIVAL (R306). -/
  | channelRequestArrival (n : Nat)
  /-- CHANNEL_ACK_ARRIVAL (R308). -/
  | channelAckArrival (n : Nat)
  /-- SASH_NACK (R307). -/
  | sashNack (n : Nat)
  /-- NACK_RETRANSMIT (R307). -/
  | nackRetransmit (die handle seq : Nat)
  /-- STREAM_RELEASE (R294). -/
  | streamRelease (n : Nat)
  /-- STREAM_RELEASE_ACK (R294). -/
  | streamReleaseAck (n : Nat)
  /-- CCPY_LINE_HANDOVER (R300). -/
  | ccpyLineHandover (die job : Nat)
  /-- PATH_FAILURE (R312). -/
  | pathFailure (die peer : Nat)
  /-- RESYNC_REQUEST (R312). -/
  | resyncRequest (n : Nat)
  /-- RESYNC_ANSWER (R312). -/
  | resyncAnswer (n : Nat)
  /-- PATH_LOST_EXPIRY (R312). -/
  | pathLostExpiry (die peer : Nat)
  /-- CHAIN_HOP_ACK (R385). -/
  | chainHopAck (n : Nat)
  /-- CHAIN_TARGET_TIMEOUT (R385). -/
  | chainTargetTimeout (die handle seq : Nat) (reset : Bool)
  /-- COOP_REPORT (R346). -/
  | coopReport (n : Nat)
  /-- COOP_BEGIN (R346). -/
  | coopBegin (n : Nat)
  /-- COOP_REFUSED (R346). -/
  | coopRefused (n : Nat)
  /-- COOP_ABANDON (R346). -/
  | coopAbandon (n : Nat)
  /-- COOP_MESSAGE_TIMEOUT (R346). -/
  | coopMessageTimeout (n : Nat)
  /-- TRAP_LAUNCH_ID (R350). -/
  | trapLaunchId (n : Nat)
  /-- CIRCUIT_ESTABLISH (R376). -/
  | circuitEstablish (src die off n : Nat) (v : W64)
  /-- CIRCUIT_TEARDOWN (R376). -/
  | circuitTeardown (src die off n : Nat) (v : W64)
  /-- CIRCUIT_UP (R376). -/
  | circuitUp (c : Nat)
  /-- CIRCUIT_SETUP_TIMEOUT (R376). -/
  | circuitSetupTimeout (c : Nat)
  /-- TEARDOWN_COMPLETE (R376). -/
  | teardownComplete (c : Nat)
  /-- CIRCUIT_LOST (R378). -/
  | circuitLost (c : Nat)
  /-- RC_PACKET_ARRIVAL (R383). -/
  | rcPacketArrival (port : Nat)
  /-- RC_ACK (R383). -/
  | rcAck (port : Nat)
  /-- RC_RETRANSMIT_TIMEOUT (R383). -/
  | rcRetransmitTimeout (peer seq port : Nat)
  /-- RC_CONNECTION_FAILURE (R383). -/
  | rcConnectionFailure (peer : Nat)
  /-- FLIT_SEND (R388). -/
  | flitSend (port : Nat)
  /-- FLIT_RECEIVE (R389). -/
  | flitReceive (port lseq kslot ftype slot : Nat) (ok : Bool) (pkts : List WirePkt)
  /-- FLIT_NACK (R389). -/
  | flitNack (port lseq : Nat)
  /-- FLIT_ACK (R388). -/
  | flitAck (port lseq : Nat)
  /-- KEY_STARVATION_EXPIRY (R388). -/
  | keyStarvationExpiry (port : Nat)
  /-- PORT_ENABLE (R387). -/
  | portEnable (src die off n : Nat) (v : W64)
  /-- PORT_DISABLE (R387). -/
  | portDisable (src die off n : Nat) (v : W64)
  /-- PORT_UP (R387). -/
  | portUp (port : Nat)
  /-- SIGNAL_LOST (R387). -/
  | signalLost (port : Nat)
  /-- LINK_KEY_INSTALL (R388). -/
  | linkKeyInstall (port slot : Nat) (tx : Bool)
  /-- TIME_SYNCHRONISATION (R391). -/
  | timeSynchronisation (src port : Nat) (ns : W64)
  /-- QUEUE_ENABLE (R339). -/
  | queueEnable (src die off n : Nat) (v : W64)
  /-- QUEUE_DISABLE (R339). -/
  | queueDisable (src die off n : Nat) (v : W64)
  /-- DESTROY_DRAIN (R351). -/
  | destroyDrain (src die off n : Nat) (v : W64)
  /-- DESTROY_KILL (R351). -/
  | destroyKill (src die off n : Nat) (v : W64)
  /-- Q_WIDX (R340). -/
  | qWidx (src die off n : Nat) (v : W64)
  /-- PACKET_NOP (R341). -/
  | packetNop (die q : Nat)
  /-- PACKET_LAUNCH (R343). -/
  | packetLaunch (die q : Nat)
  /-- PACKET_WAITVALUE (R341). -/
  | packetWaitvalue (die q : Nat)
  /-- PACKET_SIGNAL (R341). -/
  | packetSignal (die q : Nat)
  /-- PACKET_GRAPH (R341). -/
  | packetGraph (die q : Nat)
  /-- PACKET_INVALID (R342). -/
  | packetInvalid (die q : Nat)
  /-- LAUNCH_DISPATCH_BEGIN (R346). -/
  | launchDispatchBegin (share : Nat)
  /-- FORMAT_REGION_TAKE (R79). -/
  | formatRegionTake (share : Nat)
  /-- GANG_PLACEMENT (R347). -/
  | gangPlacement (die kid : Nat) (images privs : List Nat)
  /-- SHARE_COMPLETION (R348). -/
  | shareCompletion (share : Nat)
  /-- WORKER_PARSE_TIMEOUT (R336). -/
  | workerParseTimeout (die : Nat)
  /-- HINGE_MISMATCH (R337). -/
  | hingeMismatch (die : Nat)
  /-- HINGE_RECOVERY_RESUME (R337). -/
  | hingeRecoveryResume (die : Nat)
  /-- GR_TRIG (R354). -/
  | grTrig (src die off n : Nat) (v : W64)
  /-- GRAPH_LOAD (R352). -/
  | graphLoad (src die off n : Nat) (v : W64)
  /-- LAUNCH_NODE (R353). -/
  | launchNode (die g : Nat)
  /-- COPY_NODE (R353). -/
  | copyNode (die g : Nat)
  /-- WAITVALUE_NODE (R353). -/
  | waitvalueNode (die g : Nat)
  /-- WAITVALUE_TIMEOUT (R353). -/
  | waitvalueTimeout (die g : Nat)
  /-- LOOP_NODE (R353). -/
  | loopNode (die g : Nat)
  /-- COND_NODE (R353). -/
  | condNode (die g : Nat)
  /-- SIGNAL_NODE (R353). -/
  | signalNode (die g : Nat)
  /-- ARM_NODE (R353). -/
  | armNode (die g : Nat)
  /-- RESET (R355). -/
  | reset (src die off n : Nat) (v : W64)
  /-- FE_FEAT_EN (R355). -/
  | feFeatEn (src die off n : Nat) (v : W64)
  /-- STAGE_TIMER_EXPIRY (R326). -/
  | stageTimerExpiry (share n : Nat)
  /-- NODE_GROUP_PLACEMENT (R327). -/
  | nodeGroupPlacement (die kid : Nat) (images privs : List Nat)
  /-- RALLOC_GRANT (R324). -/
  | rallocGrant (share : Nat)
  /-- RALLOC_STALL_EXPIRY (R323). -/
  | rallocStallExpiry (share band : Nat)
  /-- FRR_ENABLE (R78). -/
  | frrEnable (src die off n : Nat) (v : W64)
  /-- FRR_DISABLE (R78). -/
  | frrDisable (src die off n : Nat) (v : W64)
  /-- INVALIDATE_PAGE (R370). -/
  | invalidatePage (src die off n : Nat) (v : W64)
  /-- INVALIDATE_ASID (R370). -/
  | invalidateAsid (src die off n : Nat) (v : W64)
  /-- INVALIDATE_ALL (R370). -/
  | invalidateAll (src die off n : Nat) (v : W64)
  /-- INVALIDATION_COMPLETION (R370). -/
  | invalidationCompletion (n : Nat)
  /-- PAGE_WALK (R363). -/
  | pageWalk (die asid : Nat) (va : W64)
  /-- BIAS_TRACKING_ENABLE (R397). -/
  | biasTrackingEnable (src die off n : Nat) (v : W64)
  /-- BIAS_TRACKING_DISABLE (R397). -/
  | biasTrackingDisable (src die off n : Nat) (v : W64)
  /-- FLIP_TO_HOST (R400). -/
  | flipToHost (src die off n : Nat) (v : W64)
  /-- FLIP_TO_DEVICE (R401). -/
  | flipToDevice (src die off n : Nat) (v : W64)
  /-- BIAS_FLIP_COMPLETE (R398). -/
  | biasFlipComplete (die : Nat)
  /-- BIRSP (R401). -/
  | birsp (line : Nat)
  /-- BISNP_TIMEOUT (R404). -/
  | bisnpTimeout (line : Nat)
  /-- MEMRD (R402). -/
  | memrd (src die line : Nat)
  /-- MEMWR (R402). -/
  | memwr (src die line : Nat) (mask : ByteMask) (data : Line) (back : Bool)
  /-- DEVICE_REGISTER_WRITE (R28). -/
  | deviceRegisterWrite (src die off n : Nat) (v : W64)
  /-- BIND (R393). -/
  | bind (die port : Nat)
  /-- UNBIND (R393). -/
  | unbind (die : Nat)
  /-- FLR (R415). -/
  | flr (die : Nat)
  /-- DIE_RESET (R415). -/
  | dieReset (die : Nat)
  /-- LINK_HOT_RESET (R415). -/
  | linkHotReset (port : Nat)
  /-- COLD_RESET (R414). -/
  | coldReset
  /-- GET_VERSION (R408). -/
  | getVersion
  /-- GET_CAPABILITIES (R408). -/
  | getCapabilities
  /-- NEGOTIATE_ALGORITHMS (R408). -/
  | negotiateAlgorithms (offered : Bool)
  /-- GET_DIGESTS (R408). -/
  | getDigests
  /-- GET_CERTIFICATE (R408). -/
  | getCertificate (slot : Nat)
  /-- CHALLENGE (R408). -/
  | challenge (slot nonce : Nat)
  /-- GET_MEASUREMENTS (R409). -/
  | getMeasurements (index : Nat) (signed : Bool) (nonce : Nat)
  /-- KEY_EXCHANGE (R408). -/
  | keyExchange (id : Nat)
  /-- FINISH (R408). -/
  | finish (id : Nat)
  /-- END_SESSION (R408). -/
  | endSession (id : Nat)
  /-- KEY_LOAD (R411). -/
  | keyLoad (session die id material : Nat) (dflt : Bool)
  /-- DRIVER_KEY_REQUEST (R411). -/
  | driverKeyRequest (die id : Nat)
  /-- IDE_KM_KEY_PROG (R410). -/
  | ideKmKeyProg (session stream set : Nat)
  /-- K_SET_GO (R410). -/
  | kSetGo (session stream set : Nat)
  /-- IDE_INTEGRITY_FAILURE (R410). -/
  | ideIntegrityFailure (stream : Nat)
  /-- LOCK_INTERFACE (R406). -/
  | lockInterface (session die : Nat)
  /-- START_INTERFACE (R406). -/
  | startInterface (session die : Nat)
  /-- STOP_INTERFACE (R406). -/
  | stopInterface (session die : Nat)
  /-- GET_INTERFACE_REPORT (R406). -/
  | getInterfaceReport (session die : Nat)
  /-- SVN_RAISE (R412). -/
  | svnRaise
  /-- RECOVERY_VERIFY (R413). -/
  | recoveryVerify (image : Nat) (passes : Bool) (svn : Nat)
  /-- CLOCK_STEP (R417). -/
  | clockStep (mhz watts : Nat)
  /-- THERMAL_TRIP (R417). -/
  | thermalTrip
  /-- REGISTER_LINE_FILL (R95). -/
  | registerLineFill (band slice reg : Nat)
  /-- INSTRUCTION_CACHE_FILL (R419). -/
  | instructionCacheFill (ic pa key cmps : Nat)
deriving DecidableEq, Repr

end Sys2Proof
end

