-- ==== Sys2Proof/Machine/Codec.lean ====
section
/-! DEFINITION. Which constructor an opcode, a length code and a variant name (R49), and back. -/

namespace Sys2Proof.Machine

/-- The encoded form of an instruction: opcode, length code (R33), fields, imm32 and extension word (zero where the
form has none). Events have none. -/
structure Parts where
  op : Nat
  len : Nat
  f : Fields
  imm : BitVec 32
  ext : Ext
deriving DecidableEq, Repr

def noExt : Ext := ⟨0, 0, 0⟩

/-- The encoded parts of an instruction; none for an event. -/
def partsOf : Instr → Option Parts
  | .nop f => some ⟨0x00, 0, f, 0, noExt⟩
  | .nop96 f imm => some ⟨0x00, 1, f, imm, noExt⟩
  | .nop128 f ext => some ⟨0x00, 2, f, 0, ext⟩
  | .add f => some ⟨0x01, 0, f, 0, noExt⟩
  | .add96 f imm => some ⟨0x01, 1, f, imm, noExt⟩
  | .sub f => some ⟨0x02, 0, f, 0, noExt⟩
  | .sub96 f imm => some ⟨0x02, 1, f, imm, noExt⟩
  | .mul f => some ⟨0x03, 0, f, 0, noExt⟩
  | .mul96 f imm => some ⟨0x03, 1, f, imm, noExt⟩
  | .mulh f => some ⟨0x04, 0, f, 0, noExt⟩
  | .mulh96 f imm => some ⟨0x04, 1, f, imm, noExt⟩
  | .mad f => some ⟨0x05, 0, f, 0, noExt⟩
  | .mad96 f imm => some ⟨0x05, 1, f, imm, noExt⟩
  | .madw f => some ⟨0x06, 0, f, 0, noExt⟩
  | .madw96 f imm => some ⟨0x06, 1, f, imm, noExt⟩
  | .div f => some ⟨0x07, 0, f, 0, noExt⟩
  | .div96 f imm => some ⟨0x07, 1, f, imm, noExt⟩
  | .rem f => some ⟨0x08, 0, f, 0, noExt⟩
  | .rem96 f imm => some ⟨0x08, 1, f, imm, noExt⟩
  | .min f => some ⟨0x09, 0, f, 0, noExt⟩
  | .min96 f imm => some ⟨0x09, 1, f, imm, noExt⟩
  | .max f => some ⟨0x0A, 0, f, 0, noExt⟩
  | .max96 f imm => some ⟨0x0A, 1, f, imm, noExt⟩
  | .abs f => some ⟨0x0B, 0, f, 0, noExt⟩
  | .and f => some ⟨0x0C, 0, f, 0, noExt⟩
  | .and96 f imm => some ⟨0x0C, 1, f, imm, noExt⟩
  | .or f => some ⟨0x0D, 0, f, 0, noExt⟩
  | .or96 f imm => some ⟨0x0D, 1, f, imm, noExt⟩
  | .xor f => some ⟨0x0E, 0, f, 0, noExt⟩
  | .xor96 f imm => some ⟨0x0E, 1, f, imm, noExt⟩
  | .andn f => some ⟨0x0F, 0, f, 0, noExt⟩
  | .andn96 f imm => some ⟨0x0F, 1, f, imm, noExt⟩
  | .shl f => some ⟨0x10, 0, f, 0, noExt⟩
  | .shl96 f imm => some ⟨0x10, 1, f, imm, noExt⟩
  | .shr f => some ⟨0x11, 0, f, 0, noExt⟩
  | .shr96 f imm => some ⟨0x11, 1, f, imm, noExt⟩
  | .sar f => some ⟨0x12, 0, f, 0, noExt⟩
  | .sar96 f imm => some ⟨0x12, 1, f, imm, noExt⟩
  | .rot f => some ⟨0x13, 0, f, 0, noExt⟩
  | .rot96 f imm => some ⟨0x13, 1, f, imm, noExt⟩
  | .clz f => some ⟨0x14, 0, f, 0, noExt⟩
  | .popc f => some ⟨0x15, 0, f, 0, noExt⟩
  | .brev f => some ⟨0x16, 0, f, 0, noExt⟩
  | .bfx f => some ⟨0x17, 0, f, 0, noExt⟩
  | .bfx96 f imm => some ⟨0x17, 1, f, imm, noExt⟩
  | .bfi f => some ⟨0x18, 0, f, 0, noExt⟩
  | .bfi96 f imm => some ⟨0x18, 1, f, imm, noExt⟩
  | .sel f => some ⟨0x19, 0, f, 0, noExt⟩
  | .sel96 f imm => some ⟨0x19, 1, f, imm, noExt⟩
  | .cmp f => some ⟨0x1A, 0, f, 0, noExt⟩
  | .cmp96 f imm => some ⟨0x1A, 1, f, imm, noExt⟩
  | .cmp64 f => some ⟨0x22, 0, f, 0, noExt⟩
  | .cmp6496 f imm => some ⟨0x22, 1, f, imm, noExt⟩
  | .mov f => some ⟨0x1B, 0, f, 0, noExt⟩
  | .li f imm => some ⟨0x1B, 1, f, imm, noExt⟩
  | .add64 f => some ⟨0x1C, 0, f, 0, noExt⟩
  | .add6496 f imm => some ⟨0x1C, 1, f, imm, noExt⟩
  | .sub64 f => some ⟨0x1D, 0, f, 0, noExt⟩
  | .sub6496 f imm => some ⟨0x1D, 1, f, imm, noExt⟩
  | .lea f => some ⟨0x1E, 0, f, 0, noExt⟩
  | .lea96 f imm => some ⟨0x1E, 1, f, imm, noExt⟩
  | .sh64 f => some ⟨0x1F, 0, f, 0, noExt⟩
  | .sh6496 f imm => some ⟨0x1F, 1, f, imm, noExt⟩
  | .plog f => some ⟨0x20, 0, f, 0, noExt⟩
  | .pmovRd f => some ⟨0x21, 0, f, 0, noExt⟩
  | .pmovWr f => some ⟨0x21, 0, f, 0, noExt⟩
  | .fadd f => some ⟨0x30, 0, f, 0, noExt⟩
  | .fadd96 f imm => some ⟨0x30, 1, f, imm, noExt⟩
  | .fsub f => some ⟨0x31, 0, f, 0, noExt⟩
  | .fsub96 f imm => some ⟨0x31, 1, f, imm, noExt⟩
  | .fmul f => some ⟨0x32, 0, f, 0, noExt⟩
  | .fmul96 f imm => some ⟨0x32, 1, f, imm, noExt⟩
  | .ffma f => some ⟨0x33, 0, f, 0, noExt⟩
  | .ffma96 f imm => some ⟨0x33, 1, f, imm, noExt⟩
  | .fmin f => some ⟨0x34, 0, f, 0, noExt⟩
  | .fmin96 f imm => some ⟨0x34, 1, f, imm, noExt⟩
  | .fmax f => some ⟨0x35, 0, f, 0, noExt⟩
  | .fmax96 f imm => some ⟨0x35, 1, f, imm, noExt⟩
  | .fcmp f => some ⟨0x36, 0, f, 0, noExt⟩
  | .fcmp96 f imm => some ⟨0x36, 1, f, imm, noExt⟩
  | .fclass f => some ⟨0x37, 0, f, 0, noExt⟩
  | .frcp f => some ⟨0x38, 0, f, 0, noExt⟩
  | .frsq f => some ⟨0x39, 0, f, 0, noExt⟩
  | .fsqrt f => some ⟨0x3A, 0, f, 0, noExt⟩
  | .fexp2 f => some ⟨0x3B, 0, f, 0, noExt⟩
  | .flog2 f => some ⟨0x3C, 0, f, 0, noExt⟩
  | .fsin f => some ⟨0x3D, 0, f, 0, noExt⟩
  | .fcos f => some ⟨0x3E, 0, f, 0, noExt⟩
  | .ftanh f => some ⟨0x3F, 0, f, 0, noExt⟩
  | .frnd f => some ⟨0x40, 0, f, 0, noExt⟩
  | .cvt f => some ⟨0x41, 0, f, 0, noExt⟩
  | .f2i f => some ⟨0x42, 0, f, 0, noExt⟩
  | .i2f f => some ⟨0x43, 0, f, 0, noExt⟩
  | .pack f => some ⟨0x44, 0, f, 0, noExt⟩
  | .unpk f => some ⟨0x45, 0, f, 0, noExt⟩
  | .unpkScaled f => some ⟨0x45, 0, f, 0, noExt⟩
  | .qblk f => some ⟨0x46, 0, f, 0, noExt⟩
  | .fdot2 f => some ⟨0x47, 0, f, 0, noExt⟩
  | .fdot296 f imm => some ⟨0x47, 1, f, imm, noExt⟩
  | .shfl f => some ⟨0x50, 0, f, 0, noExt⟩
  | .shfl96 f imm => some ⟨0x50, 1, f, imm, noExt⟩
  | .vote f => some ⟨0x51, 0, f, 0, noExt⟩
  | .redux f => some ⟨0x52, 0, f, 0, noExt⟩
  | .scan f => some ⟨0x53, 0, f, 0, noExt⟩
  | .matchLanes f => some ⟨0x54, 0, f, 0, noExt⟩
  | .bra f imm => some ⟨0x60, 1, f, imm, noExt⟩
  | .brx f => some ⟨0x61, 0, f, 0, noExt⟩
  | .call f imm => some ⟨0x62, 1, f, imm, noExt⟩
  | .callx f => some ⟨0x63, 0, f, 0, noExt⟩
  | .ret f => some ⟨0x64, 0, f, 0, noExt⟩
  | .join f imm => some ⟨0x65, 1, f, imm, noExt⟩
  | .wait f => some ⟨0x66, 0, f, 0, noExt⟩
  | .exit f => some ⟨0x67, 0, f, 0, noExt⟩
  | .yield f => some ⟨0x68, 0, f, 0, noExt⟩
  | .fibNew f imm => some ⟨0x69, 1, f, imm, noExt⟩
  | .idem f => some ⟨0x6A, 0, f, 0, noExt⟩
  | .bar f => some ⟨0x6B, 0, f, 0, noExt⟩
  | .forkMatrix f ext => some ⟨0x6C, 2, f, 0, ext⟩
  | .forkCopy f ext => some ⟨0x6C, 2, f, 0, ext⟩
  | .rdv f => some ⟨0x6D, 0, f, 0, noExt⟩
  | .rdv96 f imm => some ⟨0x6D, 1, f, imm, noExt⟩
  | .trap f => some ⟨0x6E, 0, f, 0, noExt⟩
  | .trap96 f imm => some ⟨0x6E, 1, f, imm, noExt⟩
  | .brk f => some ⟨0x6F, 0, f, 0, noExt⟩
  | .ld f => some ⟨0x80, 0, f, 0, noExt⟩
  | .ld96 f imm => some ⟨0x80, 1, f, imm, noExt⟩
  | .ldp f => some ⟨0x82, 0, f, 0, noExt⟩
  | .ldp96 f imm => some ⟨0x82, 1, f, imm, noExt⟩
  | .st f => some ⟨0x81, 0, f, 0, noExt⟩
  | .st96 f imm => some ⟨0x81, 1, f, imm, noExt⟩
  | .stp f => some ⟨0x83, 0, f, 0, noExt⟩
  | .stp96 f imm => some ⟨0x83, 1, f, imm, noExt⟩
  | .atom f => some ⟨0x84, 0, f, 0, noExt⟩
  | .atom96 f imm => some ⟨0x84, 1, f, imm, noExt⟩
  | .cas f => some ⟨0x85, 0, f, 0, noExt⟩
  | .cas96 f imm => some ⟨0x85, 1, f, imm, noExt⟩
  | .red f => some ⟨0x86, 0, f, 0, noExt⟩
  | .red96 f imm => some ⟨0x86, 1, f, imm, noExt⟩
  | .fence f => some ⟨0x87, 0, f, 0, noExt⟩
  | .cache f => some ⟨0x88, 0, f, 0, noExt⟩
  | .cache96 f imm => some ⟨0x88, 1, f, imm, noExt⟩
  | .pref f => some ⟨0x8A, 0, f, 0, noExt⟩
  | .pref96 f imm => some ⟨0x8A, 1, f, imm, noExt⟩
  | .csmOpen f ext => some ⟨0x90, 2, f, 0, ext⟩
  | .csmClose f => some ⟨0x91, 0, f, 0, noExt⟩
  | .csmFlush f => some ⟨0x92, 0, f, 0, noExt⟩
  | .csmDrop f => some ⟨0x93, 0, f, 0, noExt⟩
  | .csmPush f => some ⟨0x97, 0, f, 0, noExt⟩
  | .ldl f => some ⟨0x94, 0, f, 0, noExt⟩
  | .ldl96 f imm => some ⟨0x94, 1, f, imm, noExt⟩
  | .stl f => some ⟨0x95, 0, f, 0, noExt⟩
  | .stl96 f imm => some ⟨0x95, 1, f, imm, noExt⟩
  | .atoml f => some ⟨0x96, 0, f, 0, noExt⟩
  | .atoml96 f imm => some ⟨0x96, 1, f, imm, noExt⟩
  | .cpy f ext => some ⟨0x98, 2, f, 0, ext⟩
  | .cpy2d f ext => some ⟨0x9A, 2, f, 0, ext⟩
  | .gath f ext => some ⟨0x9B, 2, f, 0, ext⟩
  | .cpySeal f => some ⟨0x99, 0, f, 0, noExt⟩
  | .gld f => some ⟨0xA0, 0, f, 0, noExt⟩
  | .gld96 f imm => some ⟨0xA0, 1, f, imm, noExt⟩
  | .gmov f ext => some ⟨0xA1, 2, f, 0, ext⟩
  | .ggather f ext => some ⟨0xA2, 2, f, 0, ext⟩
  | .gscat f ext => some ⟨0xA3, 2, f, 0, ext⟩
  | .gsig f => some ⟨0xA4, 0, f, 0, noExt⟩
  | .gsig96 f imm => some ⟨0xA4, 1, f, imm, noExt⟩
  | .tfa f ext => some ⟨0xA8, 2, f, 0, ext⟩
  | .tfb f ext => some ⟨0xA9, 2, f, 0, ext⟩
  | .mma f => some ⟨0xAA, 0, f, 0, noExt⟩
  | .mmaz f => some ⟨0xAB, 0, f, 0, noExt⟩
  | .azero f => some ⟨0xAC, 0, f, 0, noExt⟩
  | .azero96 f imm => some ⟨0xAC, 1, f, imm, noExt⟩
  | .trel f => some ⟨0xAD, 0, f, 0, noExt⟩
  | .msync f => some ⟨0xAE, 0, f, 0, noExt⟩
  | .ascale f => some ⟨0xAF, 0, f, 0, noExt⟩
  | .ascale96 f imm => some ⟨0xAF, 1, f, imm, noExt⟩
  | .accWin f => some ⟨0xB8, 0, f, 0, noExt⟩
  | .accWin96 f imm => some ⟨0xB8, 1, f, imm, noExt⟩
  | .accRd f => some ⟨0xB9, 0, f, 0, noExt⟩
  | .accRd96 f imm => some ⟨0xB9, 1, f, imm, noExt⟩
  | .accWr f => some ⟨0xBA, 0, f, 0, noExt⟩
  | .accWr96 f imm => some ⟨0xBA, 1, f, imm, noExt⟩
  | .chopen f ext => some ⟨0xC0, 2, f, 0, ext⟩
  | .chclose f => some ⟨0xC1, 0, f, 0, noExt⟩
  | .cst f ext => some ⟨0xC2, 2, f, 0, ext⟩
  | .cld f ext => some ⟨0xC3, 2, f, 0, ext⟩
  | .catom f ext => some ⟨0xC4, 2, f, 0, ext⟩
  | .cred f ext => some ⟨0xC5, 2, f, 0, ext⟩
  | .ccpy f ext => some ⟨0xC6, 2, f, 0, ext⟩
  | .cmcast f ext => some ⟨0xC7, 2, f, 0, ext⟩
  | .chjoin f => some ⟨0xC8, 0, f, 0, noExt⟩
  | .chdrain f => some ⟨0xC9, 0, f, 0, noExt⟩
  | .chstat f => some ⟨0xCA, 0, f, 0, noExt⟩
  | .chreset f => some ⟨0xCB, 0, f, 0, noExt⟩
  | .ralloc f => some ⟨0xD0, 0, f, 0, noExt⟩
  | .ralloc96 f imm => some ⟨0xD0, 1, f, imm, noExt⟩
  | .rallocTry f => some ⟨0xD0, 0, f, 0, noExt⟩
  | .rallocTry96 f imm => some ⟨0xD0, 1, f, imm, noExt⟩
  | .rcommit f => some ⟨0xD1, 0, f, 0, noExt⟩
  | .rabort f => some ⟨0xD2, 0, f, 0, noExt⟩
  | .rget f => some ⟨0xD3, 0, f, 0, noExt⟩
  | .rdone f => some ⟨0xD4, 0, f, 0, noExt⟩
  | .sgstat f => some ⟨0xD5, 0, f, 0, noExt⟩
  | .sgstat96 f imm => some ⟨0xD5, 1, f, imm, noExt⟩
  | .srd f => some ⟨0xE0, 0, f, 0, noExt⟩
  | .swr f => some ⟨0xE1, 0, f, 0, noExt⟩
  | .rft f => some ⟨0xE2, 0, f, 0, noExt⟩
  | .raceAnnotate f => some ⟨0xE3, 0, f, 0, noExt⟩
  | .raceAnnotate96 f imm => some ⟨0xE3, 1, f, imm, noExt⟩
  | .raceQuery f => some ⟨0xE3, 0, f, 0, noExt⟩
  | .raceQuery96 f imm => some ⟨0xE3, 1, f, imm, noExt⟩
  | .tlbiVa f => some ⟨0xE4, 0, f, 0, noExt⟩
  | .tlbiAll f => some ⟨0xE4, 0, f, 0, noExt⟩
  | .remoteFetchResponse _ _ _ => none
  | .bandPrecedenceExpiry _ => none
  | .fairnessRotation _ => none
  | .watchdogStarvation _ => none
  | .watchdogRejoin _ _ => none
  | .barrierTimeout _ _ => none
  | .resultArrival _ _ _ => none
  | .lateFault _ => none
  | .takeTrap _ => none
  | .barrierCompletion _ => none
  | .rendezvousCompletion _ _ => none
  | .pageFaultMapped _ _ _ _ _ _ => none
  | .pageFaultUnserviceable _ _ _ _ => none
  | .workgroupRetirement _ => none
  | .gangSuspension _ _ => none
  | .gangResumption _ _ _ _ => none
  | .halt _ _ _ _ _ => none
  | .resume _ _ _ _ _ => none
  | .step _ _ _ _ _ => none
  | .ownershipRequest _ _ => none
  | .epochUpdate _ _ => none
  | .writeBack _ _ => none
  | .drain _ _ _ => none
  | .backgroundDrain _ => none
  | .retry _ _ => none
  | .l1Fill _ _ => none
  | .l2Eviction _ => none
  | .l2Fill _ => none
  | .l2SliceRemap _ => none
  | .casementFillAnswer _ _ _ => none
  | .casementNotice _ => none
  | .casementAcquire _ => none
  | .haloPush _ => none
  | .casementDrain _ _ _ => none
  | .casementBackgroundWriteback _ => none
  | .copyCommandPerform _ _ => none
  | .copySourceAging _ => none
  | .batchCompletion _ _ => none
  | .copyTransferPerform _ _ => none
  | .tileFetchPerform _ => none
  | .mmaPerform _ => none
  | .azeroPerform _ => none
  | .ascalePerform _ => none
  | .trelPerform _ => none
  | .pinLimitExpiry _ => none
  | .channelRequestArrival _ => none
  | .channelAckArrival _ => none
  | .sashNack _ => none
  | .nackRetransmit _ _ _ => none
  | .streamRelease _ => none
  | .streamReleaseAck _ => none
  | .ccpyLineHandover _ _ => none
  | .pathFailure _ _ => none
  | .resyncRequest _ => none
  | .resyncAnswer _ => none
  | .pathLostExpiry _ _ => none
  | .chainHopAck _ => none
  | .chainTargetTimeout _ _ _ _ => none
  | .coopReport _ => none
  | .coopBegin _ => none
  | .coopRefused _ => none
  | .coopAbandon _ => none
  | .coopMessageTimeout _ => none
  | .trapLaunchId _ => none
  | .circuitEstablish _ _ _ _ _ => none
  | .circuitTeardown _ _ _ _ _ => none
  | .circuitUp _ => none
  | .circuitSetupTimeout _ => none
  | .teardownComplete _ => none
  | .circuitLost _ => none
  | .rcPacketArrival _ => none
  | .rcAck _ => none
  | .rcRetransmitTimeout _ _ _ => none
  | .rcConnectionFailure _ => none
  | .flitSend _ => none
  | .flitReceive _ _ _ _ _ _ _ => none
  | .flitNack _ _ => none
  | .flitAck _ _ => none
  | .keyStarvationExpiry _ => none
  | .portEnable _ _ _ _ _ => none
  | .portDisable _ _ _ _ _ => none
  | .portUp _ => none
  | .signalLost _ => none
  | .linkKeyInstall _ _ _ => none
  | .timeSynchronisation _ _ _ => none
  | .queueEnable _ _ _ _ _ => none
  | .queueDisable _ _ _ _ _ => none
  | .destroyDrain _ _ _ _ _ => none
  | .destroyKill _ _ _ _ _ => none
  | .qWidx _ _ _ _ _ => none
  | .packetNop _ _ => none
  | .packetLaunch _ _ => none
  | .packetWaitvalue _ _ => none
  | .packetSignal _ _ => none
  | .packetGraph _ _ => none
  | .packetInvalid _ _ => none
  | .launchDispatchBegin _ => none
  | .formatRegionTake _ => none
  | .gangPlacement _ _ _ _ => none
  | .shareCompletion _ => none
  | .workerParseTimeout _ => none
  | .hingeMismatch _ => none
  | .hingeRecoveryResume _ => none
  | .grTrig _ _ _ _ _ => none
  | .graphLoad _ _ _ _ _ => none
  | .launchNode _ _ => none
  | .copyNode _ _ => none
  | .waitvalueNode _ _ => none
  | .waitvalueTimeout _ _ => none
  | .loopNode _ _ => none
  | .condNode _ _ => none
  | .signalNode _ _ => none
  | .armNode _ _ => none
  | .reset _ _ _ _ _ => none
  | .feFeatEn _ _ _ _ _ => none
  | .stageTimerExpiry _ _ => none
  | .nodeGroupPlacement _ _ _ _ => none
  | .rallocGrant _ => none
  | .rallocStallExpiry _ _ => none
  | .frrEnable _ _ _ _ _ => none
  | .frrDisable _ _ _ _ _ => none
  | .invalidatePage _ _ _ _ _ => none
  | .invalidateAsid _ _ _ _ _ => none
  | .invalidateAll _ _ _ _ _ => none
  | .invalidationCompletion _ => none
  | .pageWalk _ _ _ => none
  | .biasTrackingEnable _ _ _ _ _ => none
  | .biasTrackingDisable _ _ _ _ _ => none
  | .flipToHost _ _ _ _ _ => none
  | .flipToDevice _ _ _ _ _ => none
  | .biasFlipComplete _ => none
  | .birsp _ => none
  | .bisnpTimeout _ => none
  | .memrd _ _ _ => none
  | .memwr _ _ _ _ _ _ => none
  | .deviceRegisterWrite _ _ _ _ _ => none
  | .bind _ _ => none
  | .unbind _ => none
  | .flr _ => none
  | .dieReset _ => none
  | .linkHotReset _ => none
  | .coldReset => none
  | .getVersion => none
  | .getCapabilities => none
  | .negotiateAlgorithms _ => none
  | .getDigests => none
  | .getCertificate _ => none
  | .challenge _ _ => none
  | .getMeasurements _ _ _ => none
  | .keyExchange _ => none
  | .finish _ => none
  | .endSession _ => none
  | .keyLoad _ _ _ _ _ => none
  | .driverKeyRequest _ _ => none
  | .ideKmKeyProg _ _ _ => none
  | .kSetGo _ _ _ => none
  | .ideIntegrityFailure _ => none
  | .lockInterface _ _ => none
  | .startInterface _ _ => none
  | .stopInterface _ _ => none
  | .getInterfaceReport _ _ => none
  | .svnRaise => none
  | .recoveryVerify _ _ _ => none
  | .clockStep _ _ => none
  | .thermalTrip => none
  | .registerLineFill _ _ _ => none
  | .instructionCacheFill _ _ _ _ => none

/-- The constructor of a 64-bit form. -/
def mk64 (op : Nat) (f : Fields) : Option Instr :=
  match op with
  | 0x00 => some (.nop f)
  | 0x01 => some (.add f)
  | 0x02 => some (.sub f)
  | 0x03 => some (.mul f)
  | 0x04 => some (.mulh f)
  | 0x05 => some (.mad f)
  | 0x06 => some (.madw f)
  | 0x07 => some (.div f)
  | 0x08 => some (.rem f)
  | 0x09 => some (.min f)
  | 0x0A => some (.max f)
  | 0x0B => some (.abs f)
  | 0x0C => some (.and f)
  | 0x0D => some (.or f)
  | 0x0E => some (.xor f)
  | 0x0F => some (.andn f)
  | 0x10 => some (.shl f)
  | 0x11 => some (.shr f)
  | 0x12 => some (.sar f)
  | 0x13 => some (.rot f)
  | 0x14 => some (.clz f)
  | 0x15 => some (.popc f)
  | 0x16 => some (.brev f)
  | 0x17 => some (.bfx f)
  | 0x18 => some (.bfi f)
  | 0x19 => some (.sel f)
  | 0x1A => some (.cmp f)
  | 0x1B => some (.mov f)
  | 0x1C => some (.add64 f)
  | 0x1D => some (.sub64 f)
  | 0x1E => some (.lea f)
  | 0x1F => some (.sh64 f)
  | 0x20 => some (.plog f)
  | 0x21 => if f.sub = 0 then some (.pmovRd f) else if f.sub = 1 then some (.pmovWr f) else none
  | 0x22 => some (.cmp64 f)
  | 0x30 => some (.fadd f)
  | 0x31 => some (.fsub f)
  | 0x32 => some (.fmul f)
  | 0x33 => some (.ffma f)
  | 0x34 => some (.fmin f)
  | 0x35 => some (.fmax f)
  | 0x36 => some (.fcmp f)
  | 0x37 => some (.fclass f)
  | 0x38 => some (.frcp f)
  | 0x39 => some (.frsq f)
  | 0x3A => some (.fsqrt f)
  | 0x3B => some (.fexp2 f)
  | 0x3C => some (.flog2 f)
  | 0x3D => some (.fsin f)
  | 0x3E => some (.fcos f)
  | 0x3F => some (.ftanh f)
  | 0x40 => some (.frnd f)
  | 0x41 => some (.cvt f)
  | 0x42 => some (.f2i f)
  | 0x43 => some (.i2f f)
  | 0x44 => some (.pack f)
  | 0x45 => if f.sub = 0 then some (.unpk f) else if f.sub = 1 then some (.unpkScaled f) else none
  | 0x46 => some (.qblk f)
  | 0x47 => some (.fdot2 f)
  | 0x50 => some (.shfl f)
  | 0x51 => some (.vote f)
  | 0x52 => some (.redux f)
  | 0x53 => some (.scan f)
  | 0x54 => some (.matchLanes f)
  | 0x61 => some (.brx f)
  | 0x63 => some (.callx f)
  | 0x64 => some (.ret f)
  | 0x66 => some (.wait f)
  | 0x67 => some (.exit f)
  | 0x68 => some (.yield f)
  | 0x6A => some (.idem f)
  | 0x6B => some (.bar f)
  | 0x6D => some (.rdv f)
  | 0x6E => some (.trap f)
  | 0x6F => some (.brk f)
  | 0x80 => some (.ld f)
  | 0x81 => some (.st f)
  | 0x82 => some (.ldp f)
  | 0x83 => some (.stp f)
  | 0x84 => some (.atom f)
  | 0x85 => some (.cas f)
  | 0x86 => some (.red f)
  | 0x87 => some (.fence f)
  | 0x88 => some (.cache f)
  | 0x8A => some (.pref f)
  | 0x91 => some (.csmClose f)
  | 0x92 => some (.csmFlush f)
  | 0x93 => some (.csmDrop f)
  | 0x94 => some (.ldl f)
  | 0x95 => some (.stl f)
  | 0x96 => some (.atoml f)
  | 0x97 => some (.csmPush f)
  | 0x99 => some (.cpySeal f)
  | 0xA0 => some (.gld f)
  | 0xA4 => some (.gsig f)
  | 0xAA => some (.mma f)
  | 0xAB => some (.mmaz f)
  | 0xAC => some (.azero f)
  | 0xAD => some (.trel f)
  | 0xAE => some (.msync f)
  | 0xAF => some (.ascale f)
  | 0xB8 => some (.accWin f)
  | 0xB9 => some (.accRd f)
  | 0xBA => some (.accWr f)
  | 0xC1 => some (.chclose f)
  | 0xC8 => some (.chjoin f)
  | 0xC9 => some (.chdrain f)
  | 0xCA => some (.chstat f)
  | 0xCB => some (.chreset f)
  | 0xD0 => if f.sub = 0 then some (.ralloc f) else if f.sub = 1 then some (.rallocTry f) else none
  | 0xD1 => some (.rcommit f)
  | 0xD2 => some (.rabort f)
  | 0xD3 => some (.rget f)
  | 0xD4 => some (.rdone f)
  | 0xD5 => some (.sgstat f)
  | 0xE0 => some (.srd f)
  | 0xE1 => some (.swr f)
  | 0xE2 => some (.rft f)
  | 0xE3 => if f.sub = 0 then some (.raceAnnotate f) else if f.sub = 1 then some (.raceQuery f) else none
  | 0xE4 => if f.sub = 0 then some (.tlbiVa f) else if f.sub = 1 then some (.tlbiAll f) else none
  | _ => none

/-- The constructor of a 96-bit form. -/
def mk96 (op : Nat) (f : Fields) (imm : BitVec 32) : Option Instr :=
  match op with
  | 0x00 => some (.nop96 f imm)
  | 0x01 => some (.add96 f imm)
  | 0x02 => some (.sub96 f imm)
  | 0x03 => some (.mul96 f imm)
  | 0x04 => some (.mulh96 f imm)
  | 0x05 => some (.mad96 f imm)
  | 0x06 => some (.madw96 f imm)
  | 0x07 => some (.div96 f imm)
  | 0x08 => some (.rem96 f imm)
  | 0x09 => some (.min96 f imm)
  | 0x0A => some (.max96 f imm)
  | 0x0C => some (.and96 f imm)
  | 0x0D => some (.or96 f imm)
  | 0x0E => some (.xor96 f imm)
  | 0x0F => some (.andn96 f imm)
  | 0x10 => some (.shl96 f imm)
  | 0x11 => some (.shr96 f imm)
  | 0x12 => some (.sar96 f imm)
  | 0x13 => some (.rot96 f imm)
  | 0x17 => some (.bfx96 f imm)
  | 0x18 => some (.bfi96 f imm)
  | 0x19 => some (.sel96 f imm)
  | 0x1A => some (.cmp96 f imm)
  | 0x1B => some (.li f imm)
  | 0x1C => some (.add6496 f imm)
  | 0x1D => some (.sub6496 f imm)
  | 0x1E => some (.lea96 f imm)
  | 0x1F => some (.sh6496 f imm)
  | 0x22 => some (.cmp6496 f imm)
  | 0x30 => some (.fadd96 f imm)
  | 0x31 => some (.fsub96 f imm)
  | 0x32 => some (.fmul96 f imm)
  | 0x33 => some (.ffma96 f imm)
  | 0x34 => some (.fmin96 f imm)
  | 0x35 => some (.fmax96 f imm)
  | 0x36 => some (.fcmp96 f imm)
  | 0x47 => some (.fdot296 f imm)
  | 0x50 => some (.shfl96 f imm)
  | 0x60 => some (.bra f imm)
  | 0x62 => some (.call f imm)
  | 0x65 => some (.join f imm)
  | 0x69 => some (.fibNew f imm)
  | 0x6D => some (.rdv96 f imm)
  | 0x6E => some (.trap96 f imm)
  | 0x80 => some (.ld96 f imm)
  | 0x81 => some (.st96 f imm)
  | 0x82 => some (.ldp96 f imm)
  | 0x83 => some (.stp96 f imm)
  | 0x84 => some (.atom96 f imm)
  | 0x85 => some (.cas96 f imm)
  | 0x86 => some (.red96 f imm)
  | 0x88 => some (.cache96 f imm)
  | 0x8A => some (.pref96 f imm)
  | 0x94 => some (.ldl96 f imm)
  | 0x95 => some (.stl96 f imm)
  | 0x96 => some (.atoml96 f imm)
  | 0xA0 => some (.gld96 f imm)
  | 0xA4 => some (.gsig96 f imm)
  | 0xAC => some (.azero96 f imm)
  | 0xAF => some (.ascale96 f imm)
  | 0xB8 => some (.accWin96 f imm)
  | 0xB9 => some (.accRd96 f imm)
  | 0xBA => some (.accWr96 f imm)
  | 0xD0 => if f.sub = 0 then some (.ralloc96 f imm) else if f.sub = 1 then some (.rallocTry96 f imm) else none
  | 0xD5 => some (.sgstat96 f imm)
  | 0xE3 => if f.sub = 0 then some (.raceAnnotate96 f imm) else if f.sub = 1 then some (.raceQuery96 f imm) else none
  | _ => none

/-- The constructor of a 128-bit form. -/
def mk128 (op : Nat) (f : Fields) (ext : Ext) : Option Instr :=
  match op with
  | 0x00 => some (.nop128 f ext)
  | 0x6C => if f.sub = 0 then some (.forkMatrix f ext) else if f.sub = 1 then some (.forkCopy f ext) else none
  | 0x90 => some (.csmOpen f ext)
  | 0x98 => some (.cpy f ext)
  | 0x9A => some (.cpy2d f ext)
  | 0x9B => some (.gath f ext)
  | 0xA1 => some (.gmov f ext)
  | 0xA2 => some (.ggather f ext)
  | 0xA3 => some (.gscat f ext)
  | 0xA8 => some (.tfa f ext)
  | 0xA9 => some (.tfb f ext)
  | 0xC0 => some (.chopen f ext)
  | 0xC2 => some (.cst f ext)
  | 0xC3 => some (.cld f ext)
  | 0xC4 => some (.catom f ext)
  | 0xC5 => some (.cred f ext)
  | 0xC6 => some (.ccpy f ext)
  | 0xC7 => some (.cmcast f ext)
  | _ => none

/-- The constructor of an opcode, a length code and a variant. -/
def mkInstr (p : Parts) : Option Instr :=
  match p.len with
  | 0 => mk64 p.op p.f
  | 1 => mk96 p.op p.f p.imm
  | 2 => mk128 p.op p.f p.ext
  | _ => none

end Sys2Proof.Machine
end

