-- ==== Sys2Proof/Machine/Forms.lean ====
section
/-! DEFINITION. What the spec allows in each field of each instruction: the opcode map (R49), operand kinds (R41,
R121, R156, R191, R217, R242, R251, R269, R274, R280, R295, R322), `MOD` bits (R38, R129), scopes (R14), formats and
extension words. The decoder checks against these tables. -/

namespace Sys2Proof.Machine

/-- The kinds of operand field (R41). `z` is a field that must be zero; `num n` holds a number below `n` (R121,
R274); `sr` a special register number. -/
inductive Kind where
  | z | x | xp | xq | p | j | ch | sr
  | num (n : Nat)
deriving DecidableEq, Repr

/-- How an instruction uses the register a field names: read, written, or only named (a batch token, R246). -/
inductive Use where
  | rd | wr | name
deriving DecidableEq, Repr

abbrev Opnd := Kind × Use

def none' : Opnd := (.z, .name)
def rX : Opnd := (.x, .rd)
def wX : Opnd := (.x, .wr)
def rXP : Opnd := (.xp, .rd)
def wXP : Opnd := (.xp, .wr)
def rXQ : Opnd := (.xq, .rd)
def wXQ : Opnd := (.xq, .wr)
def rP : Opnd := (.p, .rd)
def wP : Opnd := (.p, .wr)

/-- Classes of R43. -/
inductive Cls where
  | f | v | p
deriving DecidableEq, Repr

/-- MOD subfields of R38, as bits of the 16-bit field. -/
def mType : Nat := 0x001F
def mRnd : Nat := 0x0060
def mSat : Nat := 0x0080
def mScope : Nat := 0x0700
def mNA : Nat := 0x0800
def mAA : Nat := 0x1000
def mNB : Nat := 0x2000
def mAB : Nat := 0x4000
def mNC : Nat := 0x8000
def mACQ : Nat := 0x0800
def mREL : Nat := 0x1000
def mW64 : Nat := 0x2000
def mHINT : Nat := 0xC000

/-- What one instruction accepts. `scopes` and `fmts` apply where given; `immMax` bounds imm32. -/
structure Form where
  d : Opnd := none'
  a : Opnd := none'
  b : Opnd := none'
  c : Opnd := none'
  md : Nat := 0
  scopes : Option (List Nat) := none
  fmts : Option (List Nat) := none
  immMax : Nat := 0xFFFFFFFF
  role : Bool := false
  body : Nat := 0
deriving DecidableEq, Repr

/-- Operand sizes: LD numbers b, bs, h, hs, w, d, q from 0; ST numbers b, h, w, d, q (R156). -/
def ldKind (sub : Nat) : Kind := if sub = 5 then .xp else if sub = 6 then .xq else .x
def stKind (sub : Nat) : Kind := if sub = 3 then .xp else if sub = 4 then .xq else .x
def w64Kind (w : Bool) : Kind := if w then .xp else .x

def Fields.w64 (f : Fields) : Bool := f.md.getLsbD 13

/-- Engines on which an opcode is legal (R49). -/
def opEngines (op : Nat) : List EngineKind :=
  if op ≤ 0x05 ∨ (0x09 ≤ op ∧ op ≤ 0x22) ∨ op = 0x60 ∨ op = 0x61 ∨ op = 0x67 ∨ op = 0x6D ∨ op = 0x6E ∨ op = 0x6F
      ∨ op = 0xE0 ∨ op = 0xE1 then [.v, .m, .g]
  else if 0xA0 ≤ op ∧ op ≤ 0xA4 then [.g]
  else if 0xA8 ≤ op ∧ op ≤ 0xAF then [.m]
  else [.v]

/-- Reserved values of OP (R49). -/
def opReserved (op : Nat) : Bool :=
  decide (0x23 ≤ op ∧ op ≤ 0x2F) || decide (0x48 ≤ op ∧ op ≤ 0x4F) || decide (0x55 ≤ op ∧ op ≤ 0x5F)
  || decide (0x70 ≤ op ∧ op ≤ 0x7F) || decide (op = 0x89) || decide (0x8B ≤ op ∧ op ≤ 0x8F)
  || decide (0x9C ≤ op ∧ op ≤ 0x9F) || decide (0xA5 ≤ op ∧ op ≤ 0xA7) || decide (0xB0 ≤ op ∧ op ≤ 0xB7)
  || decide (0xBB ≤ op ∧ op ≤ 0xBF) || decide (0xCC ≤ op ∧ op ≤ 0xCF) || decide (0xD6 ≤ op ∧ op ≤ 0xDF)
  || decide (0xE5 ≤ op)

/-- Legal length codes of an opcode (R49). -/
def opLens (op : Nat) : List Nat :=
  if op = 0x00 then [0, 1, 2]
  else if op = 0x60 ∨ op = 0x62 ∨ op = 0x65 ∨ op = 0x69 then [1]
  else if op = 0x6C ∨ op = 0x90 ∨ op = 0x98 ∨ op = 0x9A ∨ op = 0x9B ∨ (0xA1 ≤ op ∧ op ≤ 0xA3) ∨ op = 0xA8
      ∨ op = 0xA9 ∨ op = 0xC0 ∨ (0xC2 ≤ op ∧ op ≤ 0xC7) then [2]
  else if (0x01 ≤ op ∧ op ≤ 0x0A) ∨ (0x0C ≤ op ∧ op ≤ 0x13) ∨ (0x17 ≤ op ∧ op ≤ 0x1F) ∨ op = 0x22
      ∨ (0x30 ≤ op ∧ op ≤ 0x36) ∨ op = 0x47 ∨ op = 0x50 ∨ op = 0x6D ∨ op = 0x6E
      ∨ (0x80 ≤ op ∧ op ≤ 0x86) ∨ op = 0x88 ∨ op = 0x8A ∨ (0x94 ≤ op ∧ op ≤ 0x96) ∨ op = 0xA0 ∨ op = 0xA4
      ∨ op = 0xAC ∨ op = 0xAF ∨ (0xB8 ≤ op ∧ op ≤ 0xBA) ∨ op = 0xD0 ∨ op = 0xD5 ∨ op = 0xE3 then [0, 1]
  else [0]

/-- The descriptor kind of a 128-bit opcode (R40). -/
def opDK (op : Nat) : Nat :=
  if op = 0x00 then 0
  else if op = 0xC0 ∨ (0xC2 ≤ op ∧ op ≤ 0xC5) then 1
  else if op = 0xC6 then 2
  else if op = 0xC7 then 3
  else if op = 0x90 then 4
  else if op = 0x6C then 5
  else if op = 0xA8 ∨ op = 0xA9 then 6
  else if op = 0x98 ∨ op = 0x9A ∨ op = 0x9B then 7
  else 8

/-- Assigned variants (R49); for SCAN also the operation number in MOD[63:59] (R150). -/
def subOk (op : Nat) (f : Fields) : Bool :=
  let s := f.sub.toNat
  let below (n : Nat) := decide (s < n)
  if op = 0x01 ∨ op = 0x02 ∨ op = 0x04 then below 3
  else if (0x06 ≤ op ∧ op ≤ 0x0A) ∨ op = 0x13 ∨ op = 0x17 then below 2
  else if op = 0x1A ∨ op = 0x22 then below 10
  else if op = 0x1F then below 3
  else if op = 0x20 then below 7
  else if op = 0x21 then below 2
  else if op = 0x36 then below 8
  else if op = 0x41 then true
  else if op = 0x42 ∨ op = 0x43 ∨ op = 0x45 then below 2
  else if op = 0x50 ∨ op = 0x51 then below 4
  else if op = 0x52 then below 11
  else if op = 0x53 then below 2 && decide (f.md.toNat / 0x800 < 11)
  else if op = 0x54 ∨ op = 0x6C then below 2
  else if op = 0x80 ∨ op = 0x82 ∨ op = 0x94 ∨ op = 0xC3 then below 7
  else if op = 0x81 ∨ op = 0x83 ∨ op = 0x95 ∨ op = 0xC2 then below 5
  else if op = 0x84 ∨ op = 0x96 ∨ op = 0xC4 then below 15
  else if op = 0x86 ∨ op = 0xC5 then below 15 && decide (s ≠ 8)
  else if op = 0x87 then below 4
  else if op = 0x88 ∨ op = 0x90 then below 3
  else if op = 0x8A ∨ op = 0xD0 ∨ op = 0xE3 ∨ op = 0xE4 then below 2
  else below 1

/-- The class of an opcode (R49). -/
def opCls (op : Nat) : Cls :=
  if op = 0x07 ∨ op = 0x08 ∨ (0x38 ≤ op ∧ op ≤ 0x3F) ∨ op = 0x46 ∨ (0x50 ≤ op ∧ op ≤ 0x54) ∨ op = 0x66 ∨ op = 0x69
      ∨ op = 0x6B ∨ op = 0x6D ∨ op = 0x80 ∨ op = 0x82 ∨ op = 0x84 ∨ op = 0x85 ∨ op = 0x87 ∨ op = 0x88
      ∨ (0x90 ≤ op ∧ op ≤ 0x94) ∨ op = 0x96 ∨ (0x98 ≤ op ∧ op ≤ 0x9B) ∨ op = 0xA0 ∨ op = 0xAE ∨ op = 0xB9
      ∨ op = 0xC3 ∨ op = 0xC4 ∨ op = 0xC9 ∨ op = 0xCA ∨ op = 0xD0 ∨ op = 0xD3 ∨ op = 0xD5 ∨ op = 0xE3 ∨ op = 0xE4
    then .v
  else if op = 0x67 ∨ op = 0x68 ∨ op = 0x6C ∨ op = 0x6E ∨ op = 0x6F ∨ op = 0x81 ∨ op = 0x83 ∨ op = 0x86 ∨ op = 0x8A
      ∨ op = 0x95 ∨ op = 0x97 ∨ (0xA1 ≤ op ∧ op ≤ 0xAD) ∨ op = 0xAF ∨ op = 0xB8 ∨ op = 0xBA ∨ (0xC0 ≤ op ∧ op ≤ 0xCB)
      ∨ op = 0xD1 ∨ op = 0xD2 ∨ op = 0xD4 ∨ op = 0xE1 then .p
  else .f

def scopesAll : Option (List Nat) := some [0, 1, 2, 3, 4, 5, 6]
def scope0 : Option (List Nat) := some [0]
def types012 : Option (List Nat) := some [0, 1, 2]
/-- Formats of PACK and of the plain UNPK (R142, R143). -/
def packFmts : Option (List Nat) := some [1, 2, 4, 5, 6, 7, 8, 9, 10, 11, 12, 13, 14, 15]

/-- W64 of an atomic, legal with variants 0 to 10 only (R161). -/
def atomW64 (sub : Nat) : Nat := if sub ≤ 10 then mW64 else 0

/-- REDUX and SCAN: the integer operations take no MOD subfield, the float ones type, rounding and saturate (R149). -/
def reduxMd (v : Nat) : Nat := if v ≤ 7 then 0 else mType + mRnd + mSat

def formInt (op : Nat) (imm : Bool) (sub : Nat) : Form :=
  let bx : Opnd := if imm then none' else rX
  let bp : Opnd := if imm then none' else rXP
  if op = 0x05 ∨ op = 0x18 then { d := wX, a := rX, b := bx, c := rX }
  else if op = 0x06 then { d := wXP, a := rX, b := bx, c := rXP }
  else if op = 0x19 then { d := wX, a := rX, b := bx, c := rP }
  else if op = 0x0B ∨ op = 0x14 ∨ op = 0x15 ∨ op = 0x16 then { d := wX, a := rX }
  else if op = 0x1A then { d := wP, a := rX, b := bx }
  else if op = 0x1B then (if imm then { d := wX } else { d := wX, a := rX })
  else if op = 0x1C ∨ op = 0x1D then { d := wXP, a := rXP, b := bp }
  else if op = 0x22 then { d := wP, a := rXP, b := bp }
  else if op = 0x1F then { d := wXP, a := rXP, b := bx }
  else if op = 0x1E then { d := wXP, a := rXP, b := rX, c := (.num 8, .name) }
  else if op = 0x20 then
    (if sub ≤ 3 then { d := wP, a := rP, b := rP } else if sub = 4 then { d := wP, a := rP } else { d := wP })
  else if op = 0x21 then (if sub = 0 then { d := wX } else { a := rX })
  else { d := wX, a := rX, b := bx }

def formFloat (op : Nat) (imm : Bool) (sub : Nat) : Form :=
  let bx : Opnd := if imm then none' else rX
  let mAB4 := mNA + mAA + mNB + mAB
  if op ≤ 0x32 then { d := wX, a := rX, b := bx, md := mType + mRnd + mSat + mAB4, fmts := types012 }
  else if op = 0x33 then { d := wX, a := rX, b := bx, c := rX, md := mType + mRnd + mSat + mAB4 + mNC, fmts := types012 }
  else if op ≤ 0x35 then { d := wX, a := rX, b := bx, md := mType + mAB4, fmts := types012 }
  else if op = 0x36 then { d := wP, a := rX, b := bx, md := mType + mAB4, fmts := some [0] }
  else if op = 0x37 then { d := wX, a := rX, md := mType, fmts := types012 }
  else if op = 0x38 ∨ op = 0x3A ∨ op = 0x40 then
    { d := wX, a := rX, md := mType + mRnd + mNA + mAA, fmts := types012 }
  else if op ≤ 0x3F then { d := wX, a := rX, md := mType + mNA + mAA, fmts := types012 }
  else if op = 0x41 then { d := wX, a := rX, md := mType + mRnd + mSat }
  else if op = 0x42 then { d := wX, a := rX, md := mType + mRnd, fmts := some (List.range 10) }
  else if op = 0x43 then { d := wX, a := rX, md := mType + mRnd + mSat, fmts := some (List.range 10) }
  else if op = 0x44 then
    { d := wX, a := rX, b := rX, c := rX, md := mType + mRnd + mSat + mNA + mAA, fmts := packFmts }
  else if op = 0x45 then
    (if sub = 0 then { d := wX, a := rX, b := rX, md := mType, fmts := packFmts }
     else { d := wX, a := rX, b := rX, c := rX, md := mType + mRnd + mSat, fmts := some ((List.range 16).map (16 + ·)) })
  else if op = 0x46 then
    { d := wX, a := rX, md := mType + mRnd, fmts := some ((List.range 10).map (0x16 + ·)) }
  else
    { d := wX, a := rX, b := bx, c := rX, md := mType + mRnd + mSat + mAB4 + mNC, fmts := some [1, 2] }

def formCross (op : Nat) (imm : Bool) (f : Fields) : Form :=
  let sub := f.sub.toNat
  if op = 0x50 then { d := wX, a := rX, b := if imm then none' else rX }
  else if op = 0x51 then { d := if sub = 2 then wX else wP, a := rP }
  else if op = 0x52 then
    { d := wX, a := rX, md := reduxMd sub, fmts := if sub ≤ 7 then none else some [0] }
  else if op = 0x53 then
    let v := f.md.toNat / 0x800
    { d := wX, a := rX, md := 0xF800 + reduxMd v, fmts := if v ≤ 7 then none else some [0] }
  else { d := wX, a := rX }

def formControl (op : Nat) (len sub : Nat) : Form :=
  if op = 0x61 ∨ op = 0x64 then { a := rXP }
  else if op = 0x62 then { d := wXP }
  else if op = 0x63 then { d := wXP, a := rXP }
  else if op = 0x65 then { d := (.j, .wr) }
  else if op = 0x66 then { a := (.j, .rd) }
  else if op = 0x69 then { d := wX, a := rX }
  else if op = 0x6B then { md := mScope, scopes := some [0, 1, 2, 3, 4, 5] }
  else if op = 0x6C then { a := rXP, c := rXQ, role := decide (sub = 1), body := if sub = 1 then 3 else 0 }
  else if op = 0x6D then (if len = 0 then { a := rX } else { immMax := 15 })
  else if op = 0x6E then (if len = 0 then { a := rX } else {})
  else {}

def formMem (op : Nat) (f : Fields) : Form :=
  let sub := f.sub.toNat
  let w := w64Kind (Fields.w64 f)
  if op = 0x80 then { d := (ldKind sub, .wr), a := rXP, md := mACQ + mHINT + mScope, scopes := scopesAll }
  else if op = 0x81 then { a := rXP, c := (stKind sub, .rd), md := mREL + mHINT + mScope, scopes := scopesAll }
  else if op = 0x82 then { d := (ldKind sub, .wr), a := rXP, md := mScope, scopes := scope0 }
  else if op = 0x83 then { a := rXP, c := (stKind sub, .rd), md := mScope, scopes := scope0 }
  else if op = 0x84 then
    { d := (w, .wr), a := rXP, c := (w, .rd), md := mACQ + mREL + atomW64 sub + mScope, scopes := scopesAll }
  else if op = 0x85 then
    { d := (w, .wr), a := rXP, b := (w, .rd), c := (w, .rd), md := mACQ + mREL + mW64 + mScope, scopes := scopesAll }
  else if op = 0x86 then { a := rXP, c := (w, .rd), md := mREL + atomW64 sub + mScope, scopes := scopesAll }
  else if op = 0x87 then { md := mScope, scopes := scopesAll }
  else if op = 0x88 then { a := rXP, b := rX, md := mScope, scopes := scopesAll }
  else { a := rXP, md := mScope, scopes := scope0 }

/-- The forms of the casement instructions (R217). A scope on one whose table row has 0 raises the subcode Scope (DEDUCED,
log entry 28). -/
def formCsm (op : Nat) (f : Fields) : Form :=
  let sub := f.sub.toNat
  let w := w64Kind (Fields.w64 f)
  if op = 0x90 then
    { a := rXP, md := mScope, scopes := scope0, role := decide (sub = 2),
      body := if sub = 2 then 2 ^ 43 - 1 else 2 ^ 33 - 1 }
  else if op = 0x94 then { d := (ldKind sub, .wr), a := rXP, md := mACQ + mScope, scopes := scopesAll }
  else if op = 0x95 then { a := rXP, c := (stKind sub, .rd), md := mREL + mScope, scopes := scopesAll }
  else if op = 0x96 then
    { d := (w, .wr), a := rXP, c := (w, .rd), md := mACQ + mREL + atomW64 sub + mScope, scopes := some [0, 1, 2] }
  else { a := rX, md := mScope, scopes := scope0 }

def formCopy (op : Nat) : Form :=
  let tok : Opnd := (.x, .name)
  if op = 0x98 then { d := tok, a := rXP, b := rXP, c := rX, md := mHINT, role := true }
  else if op = 0x9A then { d := tok, a := rXP, b := rXP, c := rXQ, md := mHINT, role := true }
  else if op = 0x9B then { d := tok, a := rXP, b := rXP, c := rXQ, md := mHINT, role := true, body := 0x1FF }
  else if op = 0x99 then { d := wX, md := mHINT }
  else if op = 0xA0 then { d := wX, a := rXP }
  else if op = 0xA1 then { a := rXP, b := rXP, c := rX, md := mHINT }
  else if op = 0xA4 then { a := rXP, c := rX }
  else { a := rXP, b := rXP, c := rXP, md := mHINT, body := 2 ^ 19 - 1 }

def formMatrix (op : Nat) (imm : Bool) : Form :=
  let bx : Opnd := if imm then none' else rX
  if op = 0xA8 ∨ op = 0xA9 then { a := rXP, b := rX, body := 2 ^ 14 - 1 }
  else if op = 0xAA ∨ op = 0xAB then { a := rX, b := (.num 4, .name), c := (.num 4, .name) }
  else if op = 0xAC ∨ op = 0xAF then { a := rX, b := bx }
  else if op = 0xAD then { a := (.num 8, .name) }
  else if op = 0xAE then { d := wX }
  else if op = 0xB8 then { a := rX, b := bx }
  else if op = 0xB9 then { d := wXQ, a := rX }
  else { a := rX, c := rXQ }

def formChan (op : Nat) (f : Fields) : Form :=
  let sub := f.sub.toNat
  let w := w64Kind (Fields.w64 f)
  let chA : Opnd := (.ch, .name)
  if op = 0xC0 then { md := mScope, scopes := scope0 }
  else if op = 0xC2 then
    { a := rXP, c := (stKind sub, .rd), md := mREL + mScope, scopes := scopesAll, body := 0xFFFFFFFF }
  else if op = 0xC3 then
    { d := (ldKind sub, .wr), a := rXP, md := mACQ + mScope, scopes := scopesAll, body := 0xFFFFFFFF }
  else if op = 0xC4 then
    { d := (w, .wr), a := rXP, c := (w, .rd), md := mACQ + mREL + atomW64 sub + mScope, scopes := scopesAll,
      body := 0xFFFFFFFF }
  else if op = 0xC5 then
    { a := rXP, c := (w, .rd), md := mREL + atomW64 sub + mScope, scopes := scopesAll, body := 0xFFFFFFFF }
  else if op = 0xC6 then { a := rXP, b := rXP, c := rX, md := mScope, scopes := scope0, role := true }
  else if op = 0xC7 then { a := rXP, b := rXP, c := rX, md := mScope, scopes := scope0, body := 2 ^ 35 - 1 }
  else if op = 0xC8 then { d := chA, a := chA, md := mScope, scopes := scope0 }
  else if op = 0xCA then { d := wXP, a := chA, md := mScope, scopes := scope0 }
  else { a := chA, md := mScope, scopes := scope0 }

def formStageSys (op : Nat) (imm : Bool) (sub : Nat) : Form :=
  let bx : Opnd := if imm then none' else rX
  if op = 0xD0 then { d := wXP, a := rX, b := bx, c := if sub = 1 then wP else none' }
  else if op = 0xD1 ∨ op = 0xD2 then { a := rXP, b := rX }
  else if op = 0xD3 then { d := wXQ }
  else if op = 0xD5 then { d := wXP, a := rX, b := bx }
  else if op = 0xE0 then { d := wX, b := (.sr, .name) }
  else if op = 0xE1 then { a := rX, b := (.sr, .name) }
  else if op = 0xE3 then (if sub = 0 then { a := rXP, b := rX } else { d := wXP, a := rXP })
  else if op = 0xE4 then { a := if sub = 0 then rXP else none', md := mScope, scopes := some [3, 4] }
  else {}

/-- The form of an instruction, by opcode, length code and fields. -/
def formOf (op len : Nat) (f : Fields) : Form :=
  let imm := decide (len = 1)
  let sub := f.sub.toNat
  if op = 0x00 then { immMax := 0 }
  else if op ≤ 0x22 then formInt op imm sub
  else if op ≤ 0x47 then formFloat op imm sub
  else if op ≤ 0x54 then formCross op imm f
  else if op ≤ 0x6F then formControl op len sub
  else if op ≤ 0x8A then formMem op f
  else if op ≤ 0x97 then formCsm op f
  else if op ≤ 0xA4 then formCopy op
  else if op ≤ 0xBA then formMatrix op imm
  else if op ≤ 0xCB then formChan op f
  else formStageSys op imm sub

/-- The special register numbers of R188 that are not reserved. -/
def srKnown (n : Nat) : Bool :=
  decide (n ≤ 0x18) || decide (0x20 ≤ n ∧ n ≤ 0x26) || decide (0x28 ≤ n ∧ n ≤ 0x2C) || decide (n = 0x30)
  || decide (0x40 ≤ n ∧ n ≤ 0x5F)

/-- The register numbers a field of kind `k` reaches from `n` (R41). -/
def kindRegs (k : Kind) (n : Nat) : List Nat :=
  match k with
  | .x => [n]
  | .xp => [n, n + 1]
  | .xq => [n, n + 1, n + 2, n + 3]
  | _ => []

def useRegs (u : Use) (o : Opnd) (n : Nat) : List Nat :=
  if o.2 = u ∧ n ≠ 0 then kindRegs o.1 n else []

def usePreds (u : Use) (o : Opnd) (n : Nat) : List Nat := if o.2 = u ∧ o.1 = .p then [n] else []

/-- The x, m or g registers an instruction reads or writes, x0 left out (R45, R46). -/
def Form.regs (fm : Form) (u : Use) (f : Fields) : List Nat :=
  useRegs u fm.d f.d.toNat ++ useRegs u fm.a f.a.toNat ++ useRegs u fm.b f.b.toNat ++ useRegs u fm.c f.c.toNat

/-- The predicates it reads or writes, the guard included among the reads. -/
def Form.preds (fm : Form) (u : Use) (f : Fields) : List Nat :=
  (if u = .rd then [f.pg.toNat] else [])
  ++ usePreds u fm.d f.d.toNat ++ usePreds u fm.a f.a.toNat ++ usePreds u fm.b f.b.toNat ++ usePreds u fm.c f.c.toNat

end Sys2Proof.Machine
end

