-- ==== Sys2Proof/Config.lean ====
section
/-! DEFINITION. What the spec leaves open, as constants with no body: nothing in Lean can evaluate one, so a
statement about a run holds for every value. Each is applied to the operands it depends on, or to the counter
`State.free`, and is named in the assumption log. -/

namespace Sys2Proof.Config

/-- Log entry 1. R136 bounds the error of FRSQ, FEXP2, FLOG2, FSIN, FCOS and FTANH below one ulp: the result is one
of the two representable values around the exact one. Which of the two is a function of the instruction (its
opcode), the type code and the operand element, the same for every unit of the device (R136). -/
opaque pickUpper (op type bits : Nat) : Bool

/-- Log entry 4. The interleave of lines onto a die's 40 L2 slices, which the spec does not give. Taken mod 40. -/
opaque slice (line : Nat) : Nat

/-- Log entry 5. What a line reads as under key material other than that it was written under: AES-XTS-256 with the
line's address as the tweak (R411), which is not computed here. Applied to the stored line, both key materials and the line's
number. -/
opaque scramble (stored : BitVec 512) (written read line : Nat) : BitVec 512

/-- Log entry 6. What a line reads as whose metadata names form 1 with scheme 0, which R367 does not describe. -/
opaque badForm (stored : BitVec 512) (line : Nat) : BitVec 512

/-- Log entry 7. Whether the front end finds a bank of a unit in error after one more corrected event in it (R32 and
R356 give no criterion). Applied to the unit, the bank and the event's count. -/
opaque bankInError (unit bank count : Nat) : Bool

/-- Log entry 16. R245 does not fix whether a destination byte that is also a source byte of the same CPY.2D, GATH,
GGATHER or GSCAT receives the byte as it stood before the command or as the command left it. Applied to the command's
number and the row or element. -/
opaque rereadSource (command element : Nat) : Bool

/-- Log entry 17. R290 does not say which of the two slots a Shape fault names: true for the B slot. -/
opaque shapeNamesB (a b : Nat) : Bool

/-- Log entry 130. Whether a PREF of an address that lies so many bytes, not 0, into its line is misaligned: PREF has no access
size (R156), and R173 does nothing for a misaligned one. -/
opaque prefMisaligned (offset : Nat) : Bool

/-- Log entry 49. Measurement block `index` of the firmware image with a number, or of the security version for block 5: a
SHA-256 digest (R409) of contents the spec does not give. -/
opaque digest (image index : Nat) : BitVec 256

/-- Log entry 49. Measurement block 1: the digest of the boot ROM, taken at manufacture (R409). -/
opaque bootRom : BitVec 256

/-- Log entry 49. The RSA-3072 identity key that the security processor derives from a fused secret (R408). -/
opaque identityKey (secret : Nat) : BitVec 3072

/-- Log entry 49. The digest of the certificate chain whose leaf holds an identity key (R408). -/
opaque chainDigest (key : BitVec 3072) : BitVec 256

/-- Log entry 49. The signature, with the key derived from a fused secret, of a response to a request with a nonce, of a
package that runs an image (R408, R409). -/
opaque signature (secret image request nonce : Nat) : BitVec 3072

/-- A value that nothing constrains, one for each value of `State.free`. -/
opaque freeWord (n : Nat) : BitVec 64

end Sys2Proof.Config
end

