-- ==== Sys2Proof/Machine/Maps.lean ====
section
/-! DEFINITION. Maps as lists of key and value in rising key order, and other plain helpers on lists and bits. A map
has one canonical form: keys strictly rising. -/

namespace Sys2Proof.Machine

abbrev Map (α : Type) := List (Nat × α)

variable {α : Type}

def Map.get : Map α → Nat → Option α
  | [], _ => none
  | (j, v) :: m, k => if j = k then some v else Map.get m k

def Map.getD (m : Map α) (k : Nat) (d : α) : α := (Map.get m k).getD d

def Map.put : Map α → Nat → α → Map α
  | [], k, v => [(k, v)]
  | (j, w) :: m, k, v =>
    if k < j then (k, v) :: (j, w) :: m
    else if k = j then (k, v) :: m
    else (j, w) :: Map.put m k v

def Map.del : Map α → Nat → Map α
  | [], _ => []
  | (j, w) :: m, k => if j = k then m else (j, w) :: Map.del m k

def Map.has (m : Map α) (k : Nat) : Bool := (Map.get m k).isSome

def Map.keys (m : Map α) : List Nat := m.map (·.1)

def Map.vals (m : Map α) : List α := m.map (·.2)

/-- Keys strictly rising, all above `lo`. -/
def Map.wfFrom (lo : Nat) : Map α → Bool
  | [] => true
  | (k, _) :: m => decide (lo ≤ k) && Map.wfFrom (k + 1) m

def Map.wf (m : Map α) : Bool := Map.wfFrom 0 m

/-- Changes the value at a key that is present. -/
def Map.upd (m : Map α) (k : Nat) (g : α → α) : Map α :=
  match Map.get m k with
  | some v => Map.put m k (g v)
  | none => m

def Map.mapVals (g : α → α) (m : Map α) : Map α := m.map fun p => (p.1, g p.2)

/-- Lowest set bit's place, below `n`; `n` where none is set. -/
def lowBit (mask : BitVec 32) : Nat := ((List.range 32).find? fun i => mask.getLsbD i).getD 32

/-- Places of the set bits, rising. -/
def bitList (mask : BitVec 32) : List Nat := (List.range 32).filter fun i => mask.getLsbD i

def bitMask (l : List Nat) : BitVec 32 := l.foldl (fun m i => m ||| (1#32 <<< i)) 0

/-- Bits hi down to lo of a natural number (R52 `Bits`). -/
def bitsN (v hi lo : Nat) : Nat := v / 2 ^ lo % 2 ^ (hi + 1 - lo)

/-- Replaces bits [lo + n - 1 : lo]. -/
def setBitsN (v lo n x : Nat) : Nat := v - v / 2 ^ lo % 2 ^ n * 2 ^ lo + x % 2 ^ n * 2 ^ lo

def listSet (l : List α) (i : Nat) (v : α) : List α := l.set i v

/-- Sign extension of the low n bits (R52 `SExt`). -/
def sext (v n : Nat) : Int := if v % 2 ^ n < 2 ^ (n - 1) then (v % 2 ^ n : Nat) else (v % 2 ^ n : Nat) - (2 ^ n : Nat)

/-- The low half and the high half of a 64-bit value. -/
def lo32 (v : BitVec 64) : BitVec 32 := v.extractLsb' 0 32
def hi32 (v : BitVec 64) : BitVec 32 := v.extractLsb' 32 32
def join64 (lo hi : BitVec 32) : BitVec 64 := hi ++ lo

/-- Adds a signed 32-bit displacement (R39). -/
def addDisp (a : BitVec 64) (imm : BitVec 32) : BitVec 64 := a + imm.signExtend 64

/-- The address after an instruction of length code `l` at `pc`, past a fill word (R34). -/
def seqPc (pc : BitVec 64) (l : Nat) : BitVec 64 :=
  let n := pc + BitVec.ofNat 64 (8 + 4 * l)
  if n.toNat % 32 = 28 then n + 4 else n

/-- Inserts into a list of natural numbers kept rising without repeats. -/
def insNat (k : Nat) : List Nat → List Nat
  | [] => [k]
  | j :: l => if k < j then k :: j :: l else if k = j then j :: l else j :: insNat k l

end Sys2Proof.Machine
end

