-- ==== Sys2Proof/Machine/Addr.lean ====
section
/-! DEFINITION. The physical address map (R27 to R30): what an address names and where its home is. -/

namespace Sys2Proof.Machine

/-- What a 52-bit physical address names (R27). HBM and vault give the home die. -/
inductive PaKind where
  | hbm (die : Nat)
  | vault (die : Nat)
  | dev (die : Nat) (off : Nat)
  | pool
  | peer (pkg : Nat) (off : Nat)
  | hole
deriving DecidableEq, Repr

def decodePa (pa : Nat) : PaKind :=
  if pa < 0x10000000000 then .hbm (pa / 0x1000000000)
  else if pa < 0x10800000000 then
    if (pa - 0x10000000000) % 0x80000000 < 0x50000000 then .vault ((pa - 0x10000000000) / 0x80000000) else .hole
  else if pa < 0x18000000000 then .hole
  else if pa < 0x18100000000 then .dev ((pa - 0x18000000000) / 0x10000000) ((pa - 0x18000000000) % 0x10000000)
  else if pa < 0x100000000000 then .hole
  else if pa < 0x8000000000000 then .pool
  else if pa < 0x10000000000000 then .peer (pa / 2 ^ 39 % 2 ^ 12) (pa % 2 ^ 39)
  else .hole

/-- The die of this package that homes an address of HBM or vault memory. -/
def memDie (pa : Nat) : Option Nat :=
  match decodePa pa with
  | .hbm d => some d
  | .vault d => some d
  | _ => none

def isVault (pa : Nat) : Bool :=
  match decodePa pa with
  | .vault _ => true
  | _ => false

/-- Base of the HBM and of the vault layer of a die. -/
def hbmBase (die : Nat) : Nat := die * 0x1000000000
def vaultBase (die : Nat) : Nat := 0x10000000000 + die * 0x80000000
def devBase (die : Nat) : Nat := 0x18000000000 + die * 0x10000000

/-- Whether [lo, hi) lies in one die's HBM, or in its vault layer. -/
def inDieMem (die lo hi : Nat) : Bool :=
  (decide (hbmBase die ≤ lo) && decide (hi ≤ hbmBase die + 0x1000000000))
  || (decide (vaultBase die ≤ lo) && decide (hi ≤ vaultBase die + 0x50000000))

/-- Memory of a die, at any address (R361). -/
def inTables (die pa : Nat) : Bool := decide (memDie pa = some die)

/-- The HBM bank group of an address (R357). -/
def bankGroup (pa : Nat) : Nat := pa % 0x1000000000 / 0x40000000

/-! ### Bytes of a line -/

/-- Bits of the bytes [off, off + n) of a line. -/
def byteMask (off n : Nat) : ByteMask := BitVec.ofNat 64 ((2 ^ n - 1) * 2 ^ off)

/-- Widens a byte mask to bits. -/
def wideMask (m : ByteMask) : Line :=
  (List.range 64).foldl (fun (l : Line) i => if m.getLsbD i then l ||| (255#512 <<< (8 * i)) else l) 0

/-- The bytes of `new` under the mask, the others of `old`. -/
def mergeLine (old new : Line) (m : ByteMask) : Line :=
  if m = BitVec.allOnes 64 then new
  else let w := wideMask m; (old &&& ~~~ w) ||| (new &&& w)

/-- n bytes at an offset, as a number. -/
def lineGet (l : Line) (off n : Nat) : Nat := l.toNat / 2 ^ (8 * off) % 2 ^ (8 * n)

/-- A line that holds `v` in the n bytes at an offset, zero elsewhere. -/
def lineAt (off n v : Nat) : Line := BitVec.ofNat 512 (v % 2 ^ (8 * n) * 2 ^ (8 * off))

/-- Words (4 bytes) of a line with a byte under the mask. -/
def wordsOf (m : ByteMask) : BitVec 16 :=
  (List.range 16).foldl (fun (w : BitVec 16) i => if m.extractLsb' (4 * i) 4 = 0 then w else w ||| (1#16 <<< i)) 0

/-- The bytes of the words in a mask. -/
def bytesOf (w : BitVec 16) : ByteMask :=
  (List.range 16).foldl (fun (m : ByteMask) i => if w.getLsbD i then m ||| (15#64 <<< (4 * i)) else m) 0

end Sys2Proof.Machine
end

