-- ==== Sys2Proof/Machine/Compress.lean ====
section
/-! DEFINITION. The compression schemes of the memory controllers (R367, R368). A payload is a number, byte 0 lowest. -/

namespace Sys2Proof.Machine

def lineWord (l : Line) (i : Nat) : Nat := l.toNat / 2 ^ (32 * i) % 2 ^ 32

def lineOfWords (f : Nat → Nat) : Line :=
  BitVec.ofNat 512 ((List.range 16).foldl (fun a i => a + f i % 2 ^ 32 * 2 ^ (32 * i)) 0)

/-- Plane b: bit i is bit b of word i. -/
def planeOf (l : Line) (b : Nat) : Nat :=
  (List.range 16).foldl (fun a i => a + lineWord l i / 2 ^ b % 2 * 2 ^ i) 0

/-- Appends values of `size` bytes after the first `pos` bytes. -/
def packFrom (pos size : Nat) : List Nat → Nat
  | [] => 0
  | v :: vs => v * 2 ^ (8 * pos) + packFrom (pos + size) size vs

/-- Scheme 1: payload and its length in bytes. -/
def packPlanes (l : Line) : Nat × Nat :=
  let ps := (List.range 32).map fun b => (b, planeOf l b)
  let nz := ps.filter fun p => p.2 ≠ 0
  (nz.foldl (fun a p => a + 2 ^ p.1) 0 + packFrom 4 2 (nz.map (·.2)), 4 + 2 * nz.length)

/-- Scheme 2. -/
def deltaOf (l : Line) (i : Nat) : Int := sext (lineWord l i + 2 ^ 32 - lineWord l 0) 32
def fitsS (v : Int) (k : Nat) : Bool :=
  if k = 0 then decide (v = 0) else decide (-(2 ^ (k - 1) : Int) ≤ v) && decide (v < (2 ^ (k - 1) : Int))
def packDelta (l : Line) : Nat × Nat :=
  let k := ((List.range 33).find? fun k => (List.range 15).all fun i => fitsS (deltaOf l (i + 1)) k).getD 32
  let fields := (List.range 15).foldl (fun a i => a + (deltaOf l (i + 1) % (2 ^ k : Nat)).toNat * 2 ^ (k * i)) 0
  (lineWord l 0 + k * 2 ^ 32 + fields * 2 ^ 40, 5 + (15 * k + 7) / 8)

/-- Scheme 3. -/
def packSparse (l : Line) : Nat × Nat :=
  let nz := (List.range 16).filter fun i => lineWord l i ≠ 0
  (nz.foldl (fun a i => a + 2 ^ i) 0 + packFrom 2 4 (nz.map (lineWord l)), 2 + 4 * nz.length)

def packLine (scheme : Nat) (l : Line) : Nat × Nat :=
  match scheme with
  | 1 => packPlanes l
  | 2 => packDelta l
  | _ => packSparse l

/-- Number of set bits of `mask` below place `i`. -/
def rankBelow (mask i : Nat) : Nat := ((List.range i).filter fun j => mask.testBit j).length

def unpackLine (scheme : Nat) (p : Nat) : Line :=
  match scheme with
  | 1 =>
    let plane (b : Nat) : Nat := if p.testBit b then p / 2 ^ (32 + 16 * rankBelow p b) % 2 ^ 16 else 0
    let planes := (List.range 32).map plane
    lineOfWords fun i => ((List.range 32).zip planes).foldl (fun a q => a + q.2 / 2 ^ i % 2 * 2 ^ q.1) 0
  | 2 =>
    let k := p / 2 ^ 32 % 256
    lineOfWords fun i =>
      if i = 0 then p % 2 ^ 32
      else (p % 2 ^ 32 + (sext (p / 2 ^ (40 + k * (i - 1))) k % (2 ^ 32 : Nat)).toNat) % 2 ^ 32
  | _ => lineOfWords fun i => if p.testBit i then p / 2 ^ (16 + 32 * rankBelow p i) % 2 ^ 32 else 0

/-- The scheme a CMPS value names (R367); 0 for none. -/
def schemeOf (cmps : Nat) : Nat := (cmps + 1) / 2

/-- The stored 64 bytes and the metadata of a line written under CMPS (R368). Form 0 writes no data, so its stored
bytes are those that stood there. -/
def encodeLine (cmps : Nat) (l old : Line) : Line × Nat :=
  if l = 0 then (old, 0)
  else if cmps = 0 ∨ cmps = 7 then (l, 2)
  else
    let sc := schemeOf cmps
    let p := packLine sc l
    if p.2 ≤ 32 then (mergeLine old (BitVec.ofNat 512 p.1) (byteMask 0 32), 1 + 4 * sc) else (l, 2)

/-- A stored line read by its metadata (R367, R368); none for form 3. -/
def decodeLine (line : Nat) (stored : Line) (md : Nat) : Option Line :=
  match md % 4 with
  | 0 => some 0
  | 1 => if md / 4 % 4 = 0 then some (Config.badForm stored line) else some (unpackLine (md / 4 % 4) (stored.toNat % 2 ^ 256))
  | 2 => some stored
  | _ => none

end Sys2Proof.Machine
end

