-- ==== Sys2Proof/Machine/Formats.lean ====
section
/-! DEFINITION. Number formats (R60 to R75): exact values, `Dec`, `DecS`, `Enc`, and the exact arithmetic on them.
A value is an infinity, a NaN (NaR decodes to it) or a real number given to the bit; nothing rounds but `enc`. -/

namespace Sys2Proof.Machine

/-- A decoded value (R52 `Dec`). `fin neg m e st` is the real of sign `neg` and magnitude `m * 2^e` when `st` is
false; when `st` is true it stands for an irrational magnitude strictly between `m * 2^e` and `(m+1) * 2^e`
(results of division, roots and the transcendentals before their one rounding). -/
inductive FVal where
  | nan
  | inf (neg : Bool)
  | fin (neg : Bool) (m : Nat) (e : Int) (st : Bool)
deriving DecidableEq, Repr

/-- The signed zero. -/
def FVal.zero (neg : Bool) : FVal := .fin neg 0 0 false

/-- Rounding directions of MOD[54:53] (R38). -/
inductive Rm where
  | rne | rz | rdn | rup
deriving DecidableEq, Repr

def rmOf : Nat → Rm
  | 0 => .rne
  | 1 => .rz
  | 2 => .rdn
  | _ => .rup

/-- Parameters of a binary float element format (R62): exponent width, fraction width, bias, whether it has an
infinity, the largest finite code, the canonical NaN code (none where the format has no NaN). -/
structure FloatFmt where
  ebits : Nat
  mbits : Nat
  bias : Nat
  hasInf : Bool
  maxCode : Nat
  nanCode : Option Nat
deriving DecidableEq, Repr

/-- The element formats of R60's Element column. -/
inductive Elem where
  | flt (f : FloatFmt)
  | f19
  | d8
  | int (signed : Bool) (bits : Nat)
deriving DecidableEq, Repr

def fmtF32 : FloatFmt := ⟨8, 23, 127, true, 0x7F7FFFFF, some 0x7FC00000⟩
def fmtF16 : FloatFmt := ⟨5, 10, 15, true, 0x7BFF, some 0x7E00⟩
def fmtBF16 : FloatFmt := ⟨8, 7, 127, true, 0x7F7F, some 0x7FC0⟩
/-- F19 without its container: 19 bits, placed at [31:13] (R61). -/
def fmtF19 : FloatFmt := ⟨8, 10, 127, true, 0x3FBFF, some 0x3FE00⟩
def fmtE4M3 : FloatFmt := ⟨4, 3, 7, false, 0x7E, some 0x7F⟩
def fmtE5M2 : FloatFmt := ⟨5, 2, 15, true, 0x7B, some 0x7E⟩
def fmtE3M2 : FloatFmt := ⟨3, 2, 3, false, 0x1F, none⟩
def fmtE2M3 : FloatFmt := ⟨2, 3, 1, false, 0x1F, none⟩
def fmtE2M1 : FloatFmt := ⟨2, 1, 1, false, 0x7, none⟩

/-- ElementFormat of a five-bit format code (R60, R69). -/
def elemOf (code : Nat) : Elem :=
  match code with
  | 0x00 => .flt fmtF32
  | 0x01 => .flt fmtF16
  | 0x02 => .flt fmtBF16
  | 0x03 => .f19
  | 0x04 => .flt fmtE4M3
  | 0x05 => .flt fmtE5M2
  | 0x06 => .flt fmtE3M2
  | 0x07 => .flt fmtE2M3
  | 0x08 => .flt fmtE2M1
  | 0x09 => .d8
  | 0x0A => .int true 8
  | 0x0B => .int false 8
  | 0x0C => .int true 4
  | 0x0D => .int false 4
  | 0x0E => .int true 2
  | 0x0F => .int true 16
  | 0x10 => .flt fmtE4M3
  | 0x11 => .flt fmtE5M2
  | 0x12 => .flt fmtE3M2
  | 0x13 => .flt fmtE2M3
  | 0x14 => .flt fmtE2M1
  | 0x15 => .int true 8
  | 0x16 => .flt fmtE4M3
  | 0x17 => .flt fmtE5M2
  | 0x18 => .flt fmtE2M1
  | 0x19 => .d8
  | 0x1A => .int true 8
  | 0x1B => .int true 4
  | 0x1C => .flt fmtE2M1
  | 0x1D => .int true 4
  | 0x1E => .flt fmtE3M2
  | _    => .flt fmtE2M3

/-- Width in memory of one element (R60 Bits). -/
def Elem.width : Elem → Nat
  | .flt f => 1 + f.ebits + f.mbits
  | .f19 => 32
  | .d8 => 8
  | .int _ b => b

def fmtBits (code : Nat) : Nat := (elemOf code).width

/-- MX codes (R67) and SX codes (R68). -/
def isMX (code : Nat) : Bool := decide (0x10 ≤ code) && decide (code ≤ 0x15)
def isSX (code : Nat) : Bool := decide (0x16 ≤ code) && decide (code ≤ 0x1F)
def isBlockFmt (code : Nat) : Bool := decide (0x10 ≤ code)
/-- Elements of one block: 16 for codes 0x1C and 0x1D, 32 otherwise (R60). -/
def blockElems (code : Nat) : Nat := if code = 0x1C ∨ code = 0x1D then 16 else 32
/-- Bytes of one block's elements (R61). -/
def blockBytes (code : Nat) : Nat := blockElems code * fmtBits code / 8

/-! ### Dec -/

/-- Value of a binary float code (R62). -/
def decFloat (f : FloatFmt) (bits : Nat) : FVal :=
  let neg := (bits / 2 ^ (f.ebits + f.mbits)) % 2 == 1
  let mag := bits % 2 ^ (f.ebits + f.mbits)
  let e := mag / 2 ^ f.mbits
  let fr := mag % 2 ^ f.mbits
  if mag ≤ f.maxCode then
    if e = 0 then .fin neg fr (1 - (f.bias : Int) - f.mbits) false
    else .fin neg (2 ^ f.mbits + fr) ((e : Int) - f.bias - f.mbits) false
  else if f.hasInf ∧ fr = 0 then .inf neg
  else .nan

/-- The positive D8 codes in ascending order of magnitude, from 0x00 (R64, R65). -/
def d8Order : List Nat :=
  [0x00, 0x01, 0x02, 0x04, 0x05, 0x08, 0x09, 0x0A, 0x0B, 0x10, 0x11, 0x12, 0x13, 0x14, 0x15, 0x16, 0x17] ++
  (List.range 16).map (0x20 + ·) ++ (List.range 64).map (0x40 + ·) ++ (List.range 16).map (0x30 + ·) ++
  [0x18, 0x19, 0x1A, 0x1B, 0x1C, 0x1D, 0x1E, 0x1F, 0x0C, 0x0D, 0x0E, 0x0F, 0x06, 0x07, 0x03]

/-- ExpList(z) of R64, indexed by x. -/
def d8Exp (z x : Nat) : Int :=
  match z, x with
  | 0, _ => 0
  | 1, 0 => -1
  | 1, _ => 1
  | 2, 0 => -3
  | 2, 1 => -2
  | 2, 2 => 2
  | 2, _ => 3
  | 3, 0 => -7
  | 3, 1 => -6
  | 3, 2 => -5
  | 3, 3 => -4
  | 3, 4 => 4
  | 3, 5 => 5
  | 3, 6 => 6
  | 3, _ => 7
  | 4, 0 => -9
  | 4, 1 => -8
  | 4, 2 => 8
  | 4, _ => 9
  | 5, 0 => -10
  | 5, _ => 10
  | _, _ => -11

/-- Bit length: 0 for 0, else the place of the top bit plus one. -/
def bitLen (n : Nat) : Nat := if n = 0 then 0 else Nat.log2 n + 1

/-- The exact positive value of magnitude code `m` (1 to 127) as a fraction (R64). -/
def d8Frac (m : Nat) : Nat × Nat :=
  let z := 7 - bitLen m
  let t := 6 - z
  let ew := Nat.min z t
  let fw := t - ew
  let x := (m % 2 ^ t) / 2 ^ fw
  let F := m % 2 ^ fw
  let num := 2 ^ fw + 9 * F
  match d8Exp z x with
  | .ofNat k => (num * 10 ^ k, 2 ^ fw)
  | .negSucc k => (num, 2 ^ fw * 10 ^ (k + 1))

/-! ### Rounding to a binary float format (R71, R72) -/

/-- Rounds a magnitude up or down: `odd` is the kept value's low bit, `cmp` its discarded part against half a unit
(0 exact, 1 below half, 2 the tie, 3 above half). -/
def roundUp (rm : Rm) (neg odd : Bool) (cmp : Nat) : Bool :=
  match rm with
  | .rne => decide (cmp = 3) || (decide (cmp = 2) && odd)
  | .rz => false
  | .rdn => neg && decide (0 < cmp)
  | .rup => !neg && decide (0 < cmp)

/-- The part of `m * 2^e` (with stickiness) discarded below the quantum `2^q`: the kept integer and the class of the
rest as `roundUp` takes it. -/
def keepAt (m : Nat) (e q : Int) (st : Bool) : Nat × Nat :=
  if q ≤ e then (m * 2 ^ (e - q).toNat, if st then 1 else 0)
  else
    let d := (q - e).toNat
    let n := m / 2 ^ d
    let r2 := 2 * (m % 2 ^ d) + (if st then 1 else 0)
    (n, if r2 = 0 then 0 else if r2 < 2 ^ d then 1 else if r2 = 2 ^ d then 2 else 3)

/-- The code, before the overflow rule, of magnitude `m * 2^e` rounded into `f` with an unbounded top exponent. -/
def floatCode (f : FloatFmt) (rm : Rm) (neg : Bool) (m : Nat) (e : Int) (st : Bool) : Nat :=
  let emin : Int := 1 - (f.bias : Int)
  let E : Int := e + (bitLen m : Int) - 1
  let q : Int := (if E < emin then emin else E) - f.mbits
  let (n, c) := keepAt m e q st
  let n' := if roundUp rm neg (n % 2 == 1) c then n + 1 else n
  (q - (emin - f.mbits)).toNat * 2 ^ f.mbits + n'

/-- R71's overflow table: whether a result beyond max takes the infinity. -/
def overflowInf (f : FloatFmt) (rm : Rm) (sat neg : Bool) : Bool :=
  f.hasInf && !sat &&
    match rm with
    | .rne => true
    | .rz => false
    | .rdn => neg
    | .rup => !neg

/-- Result of `Enc`: the element's bits, right-aligned, and the conversion flag (R71). -/
abbrev EncRes := Nat × Bool

def signBit (f : FloatFmt) (neg : Bool) : Nat := if neg then 2 ^ (f.ebits + f.mbits) else 0

/-- Enc into a binary float element (R71 to R73). -/
def encFloat (f : FloatFmt) (v : FVal) (rm : Rm) (sat : Bool) : EncRes :=
  match v with
  | .nan => match f.nanCode with
    | some c => (c, false)
    | none => (0, true)
  | .inf neg =>
    (signBit f neg + (if f.hasInf ∧ sat = false then f.maxCode + 1 else f.maxCode), false)
  | .fin neg m e st =>
    let c := if m = 0 ∧ st = false then 0 else floatCode f rm neg m e st
    let c' := if c ≤ f.maxCode then c
              else if overflowInf f rm sat neg then f.maxCode + 1 else f.maxCode
    (signBit f neg + c', false)

/-- The normative value of a D8 magnitude code: its exact value rounded to F32 by RNE (R66), as `m * 2^e`. -/
def d8Norm (c : Nat) : Nat × Int :=
  let (p, q) := d8Frac c
  -- at least 80 significant bits of p/q, then the one rounding to F32
  let code := floatCode fmtF32 .rne false (p * 2 ^ 120 / q) (-120) (p * 2 ^ 120 % q != 0)
  match decFloat fmtF32 code with
  | .fin _ m e _ => (m, e)
  | _ => (0, 0)

def decD8 (bits : Nat) : FVal :=
  let m := bits % 128
  let neg := (bits / 128) % 2 == 1
  if m = 0 then (if neg then .nan else .zero false)
  else let (p, e) := d8Norm m; .fin neg p e false

/-- Compares `m1 * 2^e1` with `m2 * 2^e2`. -/
def cmpDy (m1 : Nat) (e1 : Int) (m2 : Nat) (e2 : Int) : Ordering :=
  let e := if e1 ≤ e2 then e1 else e2
  compare (m1 * 2 ^ (e1 - e).toNat) (m2 * 2 ^ (e2 - e).toNat)

/-- The D8 codes around a magnitude: the greatest not above it and the least above it, from the ascending list. -/
def d8Around (m : Nat) (e : Int) : List Nat → Nat → Nat × Option Nat
  | [], lo => (lo, none)
  | c :: cs, lo =>
    let (p, q) := if c = 0 then (0, 0) else d8Norm c
    match cmpDy p q m e with
    | .gt => (lo, some c)
    | _ => d8Around m e cs c

/-- Enc into D8 (R71 to R73); W(f) is V(f). -/
def encD8 (v : FVal) (rm : Rm) : EncRes :=
  let put (neg : Bool) (c : Nat) : EncRes := (if c = 0 then 0 else if neg then 128 + c else c, false)
  match v with
  | .nan => (0x80, false)
  | .inf neg => put neg 0x03
  | .fin neg m e _ =>
    let (lo, hi) := d8Around m e d8Order 0
    let (pl, el) := if lo = 0 then (0, 0) else d8Norm lo
    if cmpDy pl el m e = .eq then put neg lo else
    match hi with
    | none => put neg lo
    | some h =>
      let (ph, eh) := d8Norm h
      let b := if el ≤ eh then el else eh
      let mid2 := pl * 2 ^ (el - b).toNat + ph * 2 ^ (eh - b).toNat
      match rm with
      | .rne =>
        match cmpDy (2 * m) e mid2 b with
        | .lt => put neg lo
        | .gt => put neg h
        | .eq => if lo % 2 = 0 then put neg lo else if h % 2 = 0 then put neg h else put neg lo
      | .rz => put neg lo
      | .rdn => put neg (if neg then h else lo)
      | .rup => put neg (if neg then lo else h)

/-- A finite value rounded to an integer in the given direction. -/
def roundInt (neg : Bool) (m : Nat) (e : Int) (st : Bool) (rm : Rm) : Int :=
  let (n, c) := keepAt m e 0 st
  let n' : Nat := if roundUp rm neg (n % 2 == 1) c then n + 1 else n
  if neg then -(n' : Int) else n'

def clampInt (lo hi v : Int) : Int := if v < lo then lo else if hi < v then hi else v

def intLo (signed : Bool) (b : Nat) : Int := if signed then -(2 ^ (b - 1) : Nat) else 0
def intHi (signed : Bool) (b : Nat) : Int := if signed then (2 ^ (b - 1) : Nat) - 1 else (2 ^ b : Nat) - 1

/-- The low `b` bits of an integer. -/
def intBits (b : Nat) (v : Int) : Nat := (v % (2 ^ b : Nat)).toNat

def encInt (signed : Bool) (b : Nat) (v : FVal) (rm : Rm) : EncRes :=
  match v with
  | .nan => (0, true)
  | .inf neg => (intBits b (if neg then intLo signed b else intHi signed b), false)
  | .fin neg m e st => (intBits b (clampInt (intLo signed b) (intHi signed b) (roundInt neg m e st rm)), false)

/-- Dec of an element (R62, R63, R66); F19 reads bits [31:13] of its container (R61). -/
def dec (el : Elem) (bits : Nat) : FVal :=
  match el with
  | .flt f => decFloat f (bits % 2 ^ (1 + f.ebits + f.mbits))
  | .f19 => decFloat fmtF19 (bits / 2 ^ 13 % 2 ^ 19)
  | .d8 => decD8 (bits % 256)
  | .int signed b =>
    let n := bits % 2 ^ b
    if signed ∧ 2 ^ (b - 1) ≤ n then .fin true (2 ^ b - n) 0 false else .fin false n 0 false

/-- Enc into an element format; F19 is written at [31:13] with zero below (R61). -/
def enc (el : Elem) (v : FVal) (rm : Rm) (sat : Bool) : EncRes :=
  match el with
  | .flt f => encFloat f v rm sat
  | .f19 => let (c, fl) := encFloat fmtF19 v rm sat; (c * 2 ^ 13, fl)
  | .d8 => encD8 v rm
  | .int signed b => encInt signed b v rm

def decF32 (bits : Nat) : FVal := decFloat fmtF32 (bits % 2 ^ 32)
def encF32 (v : FVal) (rm : Rm) (sat : Bool) : Nat := (encFloat fmtF32 v rm sat).1

/-! ### Exact operations -/

/-- Multiplies by a power of two (exact; infinities and NaN unchanged, R69). -/
def FVal.scale (v : FVal) (k : Int) : FVal :=
  match v with
  | .fin neg m e st => .fin neg m (e + k) st
  | _ => v

def FVal.neg : FVal → FVal
  | .nan => .nan
  | .inf n => .inf (!n)
  | .fin n m e st => .fin (!n) m e st

/-- DecS (R69): an element with its block's scale byte. -/
def decS (code bits scale : Nat) : FVal :=
  if isMX code ∧ scale % 256 = 0xFF then .nan
  else if isSX code ∧ scale % 256 = 0x80 then .zero false
  else
    let k : Int := if isMX code then (scale % 256 : Nat) - 127
                   else if isSX code then (if scale % 256 < 128 then (scale % 256 : Nat) else (scale % 256 : Nat) - 256)
                   else 0
    let v := dec (elemOf code) bits
    (if code = 0x15 then v.scale (-6) else v).scale k

/-- The exact product, with IEEE special cases (R131). -/
def FVal.mul (a b : FVal) : FVal :=
  match a, b with
  | .nan, _ => .nan
  | _, .nan => .nan
  | .inf n, .inf k => .inf (n != k)
  | .inf n, .fin k m _ _ => if m = 0 then .nan else .inf (n != k)
  | .fin k m _ _, .inf n => if m = 0 then .nan else .inf (n != k)
  | .fin n1 m1 e1 _, .fin n2 m2 e2 _ => .fin (n1 != n2) (m1 * m2) (e1 + e2) false

/-- What a sum has gathered: NaN seen, each infinity seen, the exact finite sum as `m * 2^e`, and whether every term
so far was -0, or every term +0. -/
structure Sum where
  bad : Bool
  pinf : Bool
  ninf : Bool
  m : Int
  e : Int
  allNegZero : Bool
  allPosZero : Bool
deriving DecidableEq, Repr

def Sum.empty : Sum := ⟨false, false, false, 0, 0, true, true⟩

def addDy (m1 : Int) (e1 : Int) (m2 : Int) (e2 : Int) : Int × Int :=
  let e := if e1 ≤ e2 then e1 else e2
  (m1 * (2 ^ (e1 - e).toNat : Nat) + m2 * (2 ^ (e2 - e).toNat : Nat), e)

def Sum.add (s : Sum) (v : FVal) : Sum :=
  match v with
  | .nan => { s with bad := true }
  | .inf neg => if neg then { s with ninf := true } else { s with pinf := true }
  | .fin neg m e _ =>
    if m = 0 then
      { s with allNegZero := s.allNegZero && neg, allPosZero := s.allPosZero && !neg }
    else
      let (m', e') := addDy s.m s.e (if neg then -(m : Int) else m) e
      { s with m := m', e := e', allNegZero := false, allPosZero := false }

/-- The exact sum as a value: NaN for a NaN term or opposite infinities; an exactly zero sum is the common zero when
all terms are that zero, else +0, or -0 under RDN (R131). -/
def Sum.value (s : Sum) (rm : Rm) : FVal :=
  if s.bad || (s.pinf && s.ninf) then .nan
  else if s.pinf then .inf false
  else if s.ninf then .inf true
  else if s.m = 0 then
    .zero (if s.allNegZero then true else if s.allPosZero then false else decide (rm = .rdn))
  else .fin (decide (s.m < 0)) s.m.natAbs s.e false

/-- The exact sum of a non-empty list of terms. -/
def sumVals (rm : Rm) (vs : List FVal) : FVal := (vs.foldl Sum.add Sum.empty).value rm

/-- Order of two values that are not NaN; the zeros compare equal. -/
def FVal.cmp (a b : FVal) : Ordering :=
  match a, b with
  | .inf n, .inf k => if n = k then .eq else if n then .lt else .gt
  | .inf n, _ => if n then .lt else .gt
  | _, .inf n => if n then .gt else .lt
  | .fin n1 m1 e1 _, .fin n2 m2 e2 _ =>
    if m1 = 0 ∧ m2 = 0 then .eq
    else if m1 = 0 then (if n2 then .gt else .lt)
    else if m2 = 0 then (if n1 then .lt else .gt)
    else match n1, n2 with
      | false, true => .gt
      | true, false => .lt
      | false, false => cmpDy m1 e1 m2 e2
      | true, true => cmpDy m2 e2 m1 e1
  | _, _ => .eq

/-! ### Shift-scaled blocks (R70) -/

/-- MaxFinite(g) as `m * 2^e` for an SX element format (R70). -/
def maxFinite (el : Elem) : Nat × Int :=
  match el with
  | .flt f => match decFloat f f.maxCode with
    | .fin _ m e _ => (m, e)
    | _ => (0, 0)
  | .f19 => (0x7FF, 117)
  | .d8 => d8Norm 0x03
  | .int signed b => ((intHi signed b).toNat, 0)

/-- Largest magnitude of the finite members, as `m * 2^e`; 0 where none is nonzero (R70: NaN is ignored, and "the
block's scale still comes from its finite values"). -/
def amax : List FVal → Nat × Int
  | [] => (0, 0)
  | v :: vs =>
    let (m, e) := amax vs
    match v with
    | .fin _ m' e' _ => if cmpDy m e m' e' = .lt then (m', e') else (m, e)
    | _ => (m, e)

/-- The least scale from `s` upward, within `n` steps, at which amax comes within MaxFinite(g); the last one tried
(127) where none does (R70). -/
def leastScale (el : Elem) (m : Nat) (e : Int) : Nat → Int → Int
  | 0, s => s
  | n + 1, s =>
    let (p, q) := maxFinite el
    if cmpDy m (e - s) p q = .gt then leastScale el m e n (s + 1) else s

/-- The scale of a block (R70): -128 for a zero block, else the least in [-127, 127] that brings amax within range. -/
def sxScale (el : Elem) (vs : List FVal) : Int :=
  let (m, e) := amax vs
  if m = 0 then -128 else leastScale el m e 254 (-127)

/-- One element of a block of scale `s`: bits and conversion flag (R70). -/
def sxElem (el : Elem) (s : Int) (rm : Rm) (v : FVal) : EncRes :=
  if s = -128 then (0, decide (v = .nan)) else enc el (v.scale (-s)) rm true

end Sys2Proof.Machine
end

