-- ==== Sys2Proof/Machine/FabTypes.lean ====
section
/-! DEFINITION. The state of the channel engines, the Transom and the Rutis links, as plain data. -/

namespace Sys2Proof.Machine

/-- An entry of a channel's destination table (R294). `fresh`: no packet sent yet; `rel`: a stream release is sent. -/
structure DestEnt where
  dst : Nat
  prev : Nat
  fresh : Bool
  unack : Nat
  used : Nat
  rel : Bool
deriving DecidableEq, Repr

/-- Where a value of a packet goes when it is acknowledged (R297, R308): a pending result of a fibre (the bytes at an
offset, n of them, sign-extended or not; or the k-th value of an atomic), or memory, for a copy read: pieces of the line
as offset, bytes, physical address, key id and CMPS. -/
inductive Ret where
  | load (fib id off n : Nat) (sx : Bool)
  | val (fib id idx : Nat) (w64 : Bool)
  | copy (parts : List (Nat × Nat × Nat × Nat × Nat))
deriving DecidableEq, Repr

/-- A lane's CCPY or CMCAST (R300, R301). Ends are virtual addresses of the issuing launch; `srcHome` and `dstHome` the
homes of their first bytes; `eng` the copy engine. `resv` lists the sequence number of each line still to come, with the
destination entries of its targets; `done` counts the lines handed over; `stop` is the code that stopped the copy. `whole`
says that its ends overlap, so that every line is read before one is sent (R245, R300); `formed` are its lines read. -/
structure CopyJob where
  id : Nat
  chan : Nat
  fib : Nat
  acc : Nat
  eng : Nat
  src : W64
  dst : W64
  len : Nat
  done : Nat
  pull : Bool
  cast : Bool
  srcHome : Nat
  dstHome : Nat
  asid : Nat
  priv : Bool
  resv : List (Nat × List ChainEnt)
  stop : Nat
  whole : Bool
  formed : List (Packet × List Ret)
deriving DecidableEq, Repr

/-- An operation accepted on a channel and not yet sent, with its acceptance stamp (R297, R302, R303). -/
inductive ChItem where
  | pkt (acc : Nat) (p : Packet) (ret : List Ret)
  | copy (acc : Nat) (j : CopyJob) (dsts : List Nat) (lines : Nat)
  | join (acc : Nat) (other : Nat)
  | reset (acc : Nat)
  | close (acc : Nat)
  | brk (acc : Nat) (code : Nat)
deriving DecidableEq, Repr

/-- A channel (R292 to R294). -/
structure Chan where
  epoch : Nat
  outst : Nat
  lastseq : Nat
  ecode : Nat
  broken : Bool
  opened : Bool
  handle : Nat
  dests : List DestEnt
  queue : List ChItem
  rels : List (StreamKey × Nat)
  errs : Nat
deriving DecidableEq, Repr

def Chan.reset : Chan :=
  { epoch := 0, outst := 0, lastseq := 0, ecode := 0, broken := false, opened := false, handle := 0, dests := [],
    queue := [], rels := [], errs := 0 }

/-- A packet sent and not yet acknowledged (R308): its channel, acceptance stamp, returns, and the cycle from which a
NACKed packet may be sent again (R307), and the circuits it was last sent over. -/
structure Sent where
  p : Packet
  chan : Nat
  asid : Nat
  acc : Nat
  ret : List Ret
  nackAt : Option Nat
  path : List Nat
deriving DecidableEq, Repr

/-- A stream's state at its destination (R294): L. -/
structure Stream where
  key : StreamKey
  last : Nat
deriving DecidableEq, Repr

/-- A channel engine: its unacknowledged packets; as a destination, its streams and its Sash; copies kept as a chain
forwarder (R385), with the index of the target they wait for and the cycle since when there is no path; copy jobs; the
cycle since when a peer has had no path, and the peers to resynchronise with (R312); the streams of other dies whose state a
reset of this die has taken away (R415). -/
structure ChEng where
  sent : List Sent
  streams : List Stream
  sash : List Packet
  kept : List (Packet × Nat × Option Nat)
  jobs : List CopyJob
  noPath : Map Nat
  resync : List Nat
  nextHandle : Nat
  discards : Nat
  lost : List StreamKey
deriving DecidableEq, Repr

def ChEng.reset : ChEng :=
  { sent := [], streams := [], sash := [], kept := [], jobs := [], noPath := [], resync := [], nextHandle := 0, discards := 0,
    lost := [] }

/-- A message in flight: sites are package * 16 + die or 65536 + pool node; `path` the circuits it uses, none while it
has no path. -/
structure NetMsg where
  src : Nat
  dst : Nat
  msg : Msg
  path : Option (List Nat)
deriving DecidableEq, Repr

/-- A connection table entry (R375) and the time in ns at which its setup began. -/
structure Circ where
  reg : W64
  since : Nat
deriving DecidableEq, Repr

def Circ.reset : Circ := { reg := 0, since := 0 }

/-- A flit sent and not yet acknowledged (R386): its bytes are those of LSEQ, CTR, slot, type and payload, here the
packets that end in it, the acknowledgements (true) and NACKs it carries, and the new slot of a KEYSW. -/
structure Flit where
  lseq : Nat
  ctr : Nat
  kslot : Nat
  ftype : Nat
  payload : List WirePkt
  ctl : List (Bool × Nat)
  newSlot : Nat
deriving DecidableEq, Repr

/-- A Rutis port (R387 to R389): `RP_STAT`; transmit counter and sequence; unacknowledged flits; packets to send, with
the units of the first already sent; flits to send again; acknowledgements (true) and NACKs to send; the transmit slot to
release once its flits are acknowledged; receive sequence, and whether its flit has failed before; packets received; the
cycle since when the next key is missing; the discard counter (R380). -/
structure Port where
  stat : W64
  ctr : Nat
  lseq : Nat
  unack : List Flit
  txq : List WirePkt
  txPart : Nat
  resend : List Flit
  ctl : List (Bool × Nat)
  relSlot : Option Nat
  rxSeq : Nat
  failed : Bool
  rxq : List WirePkt
  starve : Option Nat
  discards : Nat
deriving DecidableEq, Repr

def Port.reset : Port :=
  { stat := 0x0004200000000000#64, ctr := 0, lseq := 0, unack := [], txq := [], txPart := 0, resend := [],
    ctl := [], relSlot := none, rxSeq := 0, failed := false, rxq := [], starve := none, discards := 0 }

/-- A reliable connection (R383): the next number, packets unacknowledged with the time in ns they were last sent, the
received cumulative number and those accepted beyond it, the cycle since when an acknowledgement has been awaited, and
whether the connection has failed and not yet been restarted. `conn` counts its restarts (log entry 139). -/
structure Rc where
  conn : Nat
  next : Nat
  unack : List (WirePkt × Nat)
  cum : Nat
  beyond : List Nat
  lastAck : Nat
  failed : Bool
deriving DecidableEq, Repr

def Rc.reset : Rc := { conn := 0, next := 0, unack := [], cum := 0, beyond := [], lastAck := 0, failed := false }

/-- The Transom, the port complex and package time (R374 to R391). `routes` holds RT_DATA by entry; `rcSram` lists the peers
whose connection state is in the ports' SRAM (R384), the least recently used first; `fetches` the fetch requests sent to
other packages and pool nodes and not yet answered, by cache and block (R419). -/
structure Fab where
  circs : Map Circ
  relay : W16
  expwin : Nat
  pkgid : Nat
  rtIndex : Nat
  routes : Map W64
  rcSpill : W64
  ports : Map Port
  rcs : Map Rc
  rcSram : List Nat
  timeCtl : W64
  synced : Bool
  net : Map NetMsg
  peerWin : Map Nat
  fetches : List (Nat × Nat)
deriving DecidableEq, Repr

def Fab.reset : Fab :=
  { circs := [], relay := 0xFFFF, expwin := 0, pkgid := 0, rtIndex := 0, routes := [], rcSpill := 0, ports := [],
    rcs := [], rcSram := [], timeCtl := 0, synced := false, net := [], peerWin := [],
    fetches := [] }

end Sys2Proof.Machine
end

