-- ==== Sys2Proof/Machine/FeTypes.lean ====
section
/-! DEFINITION. The state of the front ends, the stage launcher and the host interface, as plain data. -/

namespace Sys2Proof.Machine

/-! ### Queues and graphs (R339, R352) -/

/-- A queue's registers, the share its last launch packet began until it is fully dispatched (R340), and the words of a
WAITVALUE packet that has begun, with the time in ns since when it has waited and its address space and privilege. -/
structure Queue where
  base : W64
  ctl : W64
  widx : W32
  ridx : W32
  cur : Option Nat
  body : List W64
  wait : Nat
  bodyAsid : Nat
  bodyPriv : Bool
  disabling : Bool
  kill : Bool
deriving DecidableEq, Repr

def Queue.reset : Queue :=
  { base := 0, ctl := 0, widx := 0, ridx := 0, cur := none, body := [], wait := 0, bodyAsid := 0,
    bodyPriv := false, disabling := false, kill := false }

/-- What a running graph's current node waits for (R353). -/
inductive NodeWait where
  | none
  | launch (share : Nat)
  | copy (cmd : Nat)
  | value (since : Nat)
deriving DecidableEq, Repr

/-- A resident graph: registers, the nodes loaded into SRAM (32 words each), the current node, its counters by node, what it
waits for, and the erroneous symbols of the SRAM's codewords of 16 bytes, sixteen to a node (R32). -/
structure Graph where
  base : W64
  ctl : W64
  stat : W64
  nodes : List (List W64)
  node : Nat
  loops : Map Nat
  wait : NodeWait
  bad : Map (List Nat)
deriving DecidableEq, Repr

def Graph.reset : Graph :=
  { base := 0, ctl := 0, stat := 0, nodes := [], node := 0, loops := [], wait := .none, bad := [] }

/-! ### Launches (R343 to R350) -/

/-- Where a gang is put: quad, local-store offset in 64 KiB, first block of 128 accumulator rows, and for each workgroup
its core and band slots. -/
structure Place where
  quad : Nat
  base : Nat
  abase : Nat
  wgs : List (Nat × List Nat)
deriving DecidableEq, Repr

inductive LaunchSrc where
  | queue (q : Nat)
  | graph (g : Nat)
deriving DecidableEq, Repr

/-- How far a share is: waiting for START, order or format regions; reserving (cooperative); whole, its reservation
reported; begun; ended, its record still to be written. -/
inductive Phase where
  | waiting | reserving | whole | begun | ended | killed
deriving DecidableEq, Repr

/-- One launch's share as the front end of a die holds it: the packet's 32 words, the descriptor's 224 words, the die
group as package and die by position, the gangs placed so far, reservations, format regions taken, the format requests
that belong to the die (index, physical base and scale address) and whether they have been met, positions whose reports
a coordinator has received, the time since when its next gang has waited, and how it ended: STATUS, REASON, DETAIL. -/
structure Launch where
  src : LaunchSrc
  prio : Nat
  priv : Bool
  asid : Nat
  words : List W64
  desc : List W64
  group : List (Nat × Nat)
  phase : Phase
  next : Nat
  resv : List Place
  frrs : List (Nat × Nat × Nat)
  fmts : List (Nat × Nat × Nat)
  formats : Bool
  reports : List Nat
  since : Nat
  status : Nat
  reason : Nat
  detail : Nat
  cherr : Nat
  silent : Bool
deriving DecidableEq, Repr

/-! ### The stage launcher (R317 to R334) -/

/-- State of a slot that is not Free (R320). -/
inductive SlotSt where
  | reserved (wg : Nat)
  | committed (at' : Nat)
  | grouped (group : Nat)
  | consumed (fib : Nat)
deriving DecidableEq, Repr

/-- A slot: address, node, depth, state, and the run it was granted in. -/
structure RecSlot where
  addr : Nat
  node : Nat
  depth : Nat
  st : SlotSt
  run : Nat
deriving DecidableEq, Repr

/-- A formed group that awaits placement. -/
structure Group where
  id : Nat
  node : Nat
  slots : List Nat
deriving DecidableEq, Repr

/-- A waiting RALLOC (R323, R324): its band, the lanes with node, count and depth, the cycles it has waited, the
addresses once granted, and whether its stall bound has expired. -/
structure RecReq where
  band : Nat
  wg : Nat
  lanes : List (Nat × Nat × Nat × Nat)
  waited : Nat
  granted : Option (List (Nat × Nat))
  expired : Bool
deriving DecidableEq, Repr

/-- A node's declaration (R317). -/
structure NodeEnt where
  timer : Nat
  entry : W64
  maxDepth : Nat
  recur : Bool
  rec' : Nat
  group : Nat
deriving DecidableEq, Repr

/-- One die's stage launcher for a launch: nodes, pool, slots, the queue of each node (addresses in commit order),
formed groups, waiting requests, group serials, records committed so far, the stage reserve and the gang placed in it. -/
structure Proofer where
  nodes : List NodeEnt
  base : Nat
  size : Nat
  slots : List RecSlot
  queues : Map (List Nat)
  groups : List Group
  reqs : List RecReq
  serial : Map Nat
  total : Map Nat
  reserve : Option Place
  resGang : Option Nat
deriving DecidableEq, Repr

def Proofer.reset : Proofer :=
  { nodes := [], base := 0, size := 0, slots := [], queues := [], groups := [], reqs := [], serial := [], total := [],
    reserve := none, resGang := none }

/-! ### Front ends (R336, R337, R355) -/

/-- A front end: state (0 Reset, 1 Ready, 2 Failed), enabled features and the halves already written, placement pointer,
the queue or graph served last, the Hinge pair: whether it is in recovery and the time of its last mismatch, its workers'
restarts, and the identifiers of the launches whose share here has ended (R350). -/
structure Fe where
  st : Nat
  en0 : W64
  en1 : W64
  wrote0 : Bool
  wrote1 : Bool
  ptr : Nat
  rr : Nat
  recovering : Bool
  mismatch : Option Nat
  restarts : Nat
  ended : List W64
deriving DecidableEq, Repr

def Fe.reset : Fe :=
  { st := 0, en0 := 0, en1 := 0, wrote0 := false, wrote1 := false, ptr := 0, rr := 0, recovering := false,
    mismatch := none, restarts := 0, ended := [] }

/-! ### Host interface (R392 to R417) -/

/-- TDI states (R406). -/
inductive Tdi where
  | unlocked | locked | run | error
deriving DecidableEq, Repr

/-- A bias flip in progress (R400, R401): its page by number of the package's page index, the target, whether the L1s and
casement units have been flushed (1) or not yet (0), and the lines still to be answered. -/
structure Flip where
  page : Nat
  toHost : Bool
  step : Nat
  lines : List Nat
  since : Nat
deriving DecidableEq, Repr

/-- What follows a die reset: nothing, the die is Failed (R337), or its TDI is unlocked (R406). -/
inductive After where
  | plain | failed | stop
deriving DecidableEq, Repr

/-- A reset of a bound die that waits until the host has answered for the lines of its host-biased pages (R401, R415): the
lines, the cycle since when, and what follows the reset. -/
structure Ending where
  lines : List Nat
  since : Nat
  after : After
deriving DecidableEq, Repr

/-- What one logical device holds (R393 to R411): the port it is bound to, TDI state, `HI_BIASCMD`, `HI_PEERMASK`, the
flip in progress, the default key of its host requests, and since when a back-invalidate of a line is unanswered; the host
address of BAR 0, that of HDM decoder 0 once the host has programmed it, in lines (R394), and the session that locked the
TDI. -/
structure Ld where
  port : Option Nat
  tdi : Tdi
  biasCmd : W64
  peerMask : W64
  flip : Option Flip
  hostKey : Nat
  asked : Map Nat
  bar : Nat
  hdm : Option Nat
  session : Option Nat
  ending : Option Ending
deriving DecidableEq, Repr

def Ld.reset : Ld :=
  { port := none, tdi := .unlocked, biasCmd := 0, peerMask := 0, flip := none, hostKey := 0, asked := [],
    bar := 0, hdm := none, session := none, ending := none }

/-- An answer of the security processor, or of a host's access to memory. -/
inductive Answer where
  | version | capabilities | algorithms
  | digests (chain : BitVec 256)
  | certificate (key : BitVec 3072)
  | challenge (sig : BitVec 3072)
  | measurements (blocks : List (Nat × BitVec 256)) (sig : Option (BitVec 3072))
  | session (id : Nat)
  | finished | ended
  | error
  | report (mmioBase mmioSize : Nat) (memBase : Option Nat) (memSize : Nat)
  | locked | started | stopped
  | keyLoaded | keyProg | keyGo
  | line (data : Line) (poison cacheable : Bool)
  | written
  | value (v : W64)
  | unsupported
deriving DecidableEq, Repr

/-- The security processor: progress of the SPDM connection (0 none, 1 version, 2 capabilities, 3 algorithms), the open
sessions with whether they are finished, IDE streams (port * 32 for the link stream, port * 32 + 1 + die for a selective
one) with a mask of the key sets programmed and the set in use, and host ports whose link is down (R408, R410). -/
structure Spdm where
  stage : Nat
  sessions : List (Nat × Bool)
  keys : Map Nat
  inUse : Map Nat
  down : List Nat
deriving DecidableEq, Repr

def Spdm.reset : Spdm := { stage := 0, sessions := [], keys := [], inUse := [], down := [] }

/-- The package's host side (R392 to R417): 0 before bring-up, 1 up, 2 recovery, 3 powered off; the management port; the
answers given, oldest first; flash image (its number, whether it passes the check, its security version) and the fused
minimum; `PWR_LIMIT`, WATTS, MHZ and the time of the last clock step; the highest step that the thermal limits allow
and the watts that the package would draw at each step, from 600 MHz up, at its present work (R417); the fused secret and the identity key, once derived (R408). Link keys are in the ports; `released` lists the ports'
transmit slots whose release the security processor has been told and which it has not filled (R388). -/
structure HostSt where
  phase : Nat
  mgmt : Nat
  answers : List Answer
  image : Nat × Bool × Nat
  minSvn : Nat
  limit : Nat
  watts : Nat
  mhz : Nat
  stepNs : Option Nat
  thermal : Nat
  power : List Nat
  secret : Nat
  idKey : Option (BitVec 3072)
  released : List (Nat × Nat)
deriving DecidableEq, Repr

def HostSt.reset : HostSt :=
  { phase := 0, mgmt := 0, answers := [], image := (0, true, 0), minSvn := 0, limit := 6000, watts := 0,
    mhz := 1200, stepNs := none, thermal := 1200, power := [], secret := 0, idKey := none, released := [] }

end Sys2Proof.Machine
end

