-- ==== Sys2Proof/Machine/MemTypes.lean ====
section
/-! DEFINITION. The state of memory, of the caches, of translation and of the casement units, as plain data. A line is
named by its number, the physical address divided by 64. Agents of the coherence protocol are numbered: core c is c,
the casement unit of quad q is 2560 + q; 3300 is a copy engine, 3301 the channel engine, 3302 a host, 3303 the front
end. -/

namespace Sys2Proof.Machine

/-- A cached leaf (R159, R369): its address space, the virtual and the physical base of its page, the page's size as a
power of two, permissions, memory key id and compression scheme. -/
structure Leaf where
  asid : Nat
  va : Nat
  lg : Nat
  pa : Nat
  x : Bool
  w : Bool
  u : Bool
  key : Nat
  cmps : Nat
deriving DecidableEq, Repr

/-- An entry of a walker cache (R369): level 5 holds address-space entries. `pfx` is the virtual address above the
entry's index bits. -/
structure WalkEnt where
  asid : Nat
  lvl : Nat
  pfx : Nat
  ent : Nat
deriving DecidableEq, Repr

/-- An invalidation in progress (R370). `fib` is the waiting fibre, or none for one that `TU_INV` of the die started. -/
structure Inv where
  fib : Option Nat
  die : Nat
  asid : Option Nat
  va : Option Nat
  pkg : Bool
  drain : Bool
  done : Bool
deriving DecidableEq, Repr

/-- Registers and caches of one die's translation unit (R359, R369). -/
structure Tu where
  astab : W64
  cbase : W64
  climit : W64
  side : W64
  inv : W64
  invva : W64
  walk : List WalkEnt
deriving DecidableEq, Repr

def Tu.reset : Tu := { astab := 0, cbase := 0, climit := 0, side := 0, inv := 0, invva := 0, walk := [] }

/-- A line in an L1 (R163). `rel` is the epoch of the latest release store it holds (R166); `by` and `byVa` the fibre
and the address of the latest store, to which an error of its merge is reported (R180). -/
structure L1Line where
  data : Line
  valid : ByteMask
  dirty : ByteMask
  t : Nat
  w : Nat
  rel : Option Nat
  priv : Bool
  key : Nat
  cmps : Nat
  by' : Nat
  byVa : W64
deriving DecidableEq, Repr

/-- A core's memory side: release epoch EP, L1 lines, acquire debt and drains sent (R163, R168), lines PREF has asked
for with key and CMPS (R173), core TLB and last-page registers of each band slot's lanes (R159); the register lines that its
register cache holds, oldest first, and whether each is dirty (R95); the cycle by which its background drain is due (R166). -/
structure Core where
  ep : Nat
  l1 : Map L1Line
  debt : List (Nat × Nat)
  sent : List (Nat × Nat)
  pref : List (Nat × Nat × Nat)
  tlb : List Leaf
  lastPage : Map Leaf
  launch : Nat
  rlines : List (Nat × Bool)
  drainBy : Option Nat
deriving DecidableEq, Repr

def Core.reset : Core :=
  { ep := 0, l1 := [], debt := [], sent := [], pref := [], tlb := [], lastPage := [], launch := 0, rlines := [],
    drainBy := none }

/-- A line in its L2 home (R80). `side` gives the address at which each overlapping block begins and its scale byte. -/
structure L2Line where
  data : Line
  dirty : Bool
  tag : Option Nat
  side : List (Nat × Nat)
  key : Nat
  cmps : Nat
  bad : List Nat
deriving DecidableEq, Repr

/-- Bytes accepted for a pinned line and not yet applied (R271). -/
structure HeldWr where
  agent : Nat
  mask : ByteMask
  data : Line
  key : Nat
  cmps : Nat
deriving DecidableEq, Repr

/-- A back-invalidate snoop of one line (R401, R403): sent, or answered, or taken by an access of the step under way, whose
other accesses to the line are of the same request (R159); BISnpInv where `inv`, else BISnpData. -/
inductive Snoop where
  | none
  | sent (inv : Bool)
  | answered (inv : Bool)
  | taken (inv : Bool)
deriving DecidableEq, Repr

/-- What the home keeps for a line: its L2 copy, sources oldest first (R164), casement sharers and version (R226,
R227), pins as quad and slot (R271), held bytes, and a snoop under way. -/
structure HomeLine where
  l2 : Option L2Line
  sources : List (Nat × Nat)
  sharers : BitVec 40
  version : W32
  pins : List (Nat × Nat)
  held : List HeldWr
  snoop : Snoop
deriving DecidableEq, Repr

def HomeLine.reset : HomeLine :=
  { l2 := none, sources := [], sharers := 0, version := 0, pins := [], held := [], snoop := .none }

/-- An ownership request or epoch update on its way to the home (R163). -/
structure OwnMsg where
  agent : Nat
  line : Nat
  epoch : Nat
  upd : Bool
deriving DecidableEq, Repr

/-- Corrected-error counting of one unit (R356), erasure mode (R32) and retirement. Times are cycle counts in ns. -/
structure Unit' where
  times : List Nat
  erased : Option Nat
  retired : Bool
deriving DecidableEq, Repr

def Unit'.reset : Unit' := { times := [], erased := none, retired := false }

/-- A notice (R227): the line, the words touched, the version. -/
structure Notice where
  line : Nat
  words : BitVec 16
  version : W32
deriving DecidableEq, Repr

/-- A sector of an open slot (R216): `tr` is the kept translation and `ln` the line it named, which stays when the
translation is dropped; `refill` is set while a fill is pending and holds the notices held aside (R229); `fresh` are
the words written since the last push (R234); `err` a write-back fault still to be reported (R420), as code and PFU; `ferr`
an uncorrectable error of the fill just answered, and `by'` the fibre of the latest store, to which such an error of a
write-back is reported (R213). -/
structure Sector where
  valid : BitVec 16
  dirty : ByteMask
  t : Nat
  w : Nat
  tr : Option Leaf
  refill : Option (List Notice)
  fresh : BitVec 16
  ln : Nat
  err : Option (Nat × Bool)
  ferr : Bool
  by' : Nat
deriving DecidableEq, Repr

def Sector.reset : Sector :=
  { valid := 0, dirty := 0, t := 0, w := 0, tr := none, refill := none, fresh := 0, ln := 0, err := none,
    ferr := false, by' := 0 }

/-- An open slot (R215): LOFS, LLEN and HW in units of 64 bytes; mode 0 read-only, 1 read-write, 2 halo. Sectors not
listed are absent. -/
structure Slot where
  lofs : Nat
  llen : Nat
  gbase : W64
  mode : Nat
  hw : Nat
  role : Nat
  sectors : Map Sector
deriving DecidableEq, Repr

/-- A push on its way to a neighbour (R234): the quad, the launch's share, the slot and its HW, whether it names the
receiver's left strip, the global address of its first byte, the words pushed by index, and the line of each sector. -/
structure PushMsg where
  quad : Nat
  share : Nat
  slot : Nat
  hw : Nat
  left : Bool
  base : Nat
  words : Map W32
  lines : Map Nat
deriving DecidableEq, Repr

/-- A gang's share of a local store and its casement state (R212, R215, R228, R230, R232). Bytes not listed are 0; `bad` are the
erroneous symbols of codewords of 16 bytes (R213); `drainBy` the cycle by which its background write-back is due (R230). -/
structure Casement where
  base : Nat
  lsize : Nat
  bytes : Map Byte
  bad : Map (List Nat)
  slots : Map Slot
  ce : Nat
  debt : List (Nat × Nat)
  sent : List (Nat × Nat)
  queue : List Notice
  out : List PushMsg
  drainBy : Option Nat
deriving DecidableEq, Repr

def Casement.reset : Casement :=
  { base := 0, lsize := 0, bytes := [], bad := [], slots := [], ce := 0, debt := [], sent := [], queue := [],
    out := [], drainBy := none }

/-- The race detector of one launch (R176, R177): mode 0 off, 1 trap, 2 log; the checked ranges as base and length;
the log buffer's virtual address with the die, address space and privilege under which it is reached; shadow words by
sector (address div 32), those not listed being 0; the address and bytes of the vault room that each range's shadow array
takes. -/
structure Peep where
  mode : Nat
  ranges : List (Nat × Nat)
  logBase : W64
  logCap : Nat
  logDie : Nat
  logAsid : Nat
  logPriv : Bool
  shadow : Map W64
  arrays : List (Nat × Nat)
deriving DecidableEq, Repr

def Peep.reset : Peep :=
  { mode := 0, ranges := [], logBase := 0, logCap := 0, logDie := 0, logAsid := 0, logPriv := false, shadow := [],
    arrays := [] }

/-- A format region (R77). -/
structure Frr where
  ctl : W64
  base : W64
  limit : W64
  scale : W64
  owner : Option Nat
deriving DecidableEq, Repr

def Frr.reset : Frr := { ctl := 0, base := 0, limit := 0, scale := 0, owner := none }

/-- Memory and everything that caches it. `cells` are the stored bytes of HBM and vaults; `inl` the inline metadata of
a line (R367), 0 where not listed; `kmat` the key material its stored bytes were encrypted under, 0 (plaintext) where
not listed; `slots` the loaded memory key slots, keyed die * 64 + id; `clocks` and `ptrs` the version clock and the
arbitration pointer of each slice, keyed die * 40 + slice; `bias` the state of each page that is not in device bias
(R397: 1 Host, 2 Flushing, 3 Invalidating), keyed by page number; `biasReg` is `HI_BIASBASE` of each die. `left` holds the
sync-interval number of the band that left a band slot last (R177), and `retry` for a line the requester that goes first and
those that have received RETRY and are served after it (R169). -/
structure MemSt where
  cells : List Host.Cell
  inl : Map Nat
  kmat : Map Nat
  slots : Map Nat
  home : Map HomeLine
  clocks : Map W32
  ptrs : Map Nat
  msgs : List OwnMsg
  inbox : Map (List Notice)
  prefL2 : List (Nat × Nat × Nat)
  bad : Map (List Nat)
  units : Map Unit'
  remap : List Nat
  frr : Map Frr
  peep : Map Peep
  bias : Map Nat
  biasReg : Map W64
  left : Map W16
  retry : Map (Nat × List Nat)
deriving DecidableEq, Repr

def MemSt.reset : MemSt :=
  { cells := [], inl := [], kmat := [], slots := [], home := [], clocks := [], ptrs := [], msgs := [], inbox := [],
    prefL2 := [], bad := [], units := [], remap := [], frr := [], peep := [], bias := [], biasReg := [], left := [], retry := [] }

end Sys2Proof.Machine
end

