-- ==== Sys2Proof/Machine/UnitTypes.lean ====
section
/-! DEFINITION. The state of the copy engines and of the matrix engines, as plain data. -/

namespace Sys2Proof.Machine

/-! ### Copy engines (R240 to R260) -/

/-- What a transfer moves (R245, R253): bytes, rows, a gather, a scatter. -/
inductive CopyKind where
  | plain | rows | gather | scatter
deriving DecidableEq, Repr

/-- A transfer with its operands, read at issue: addresses; `n` the length, width or count; height and pitches; index
address, bound, element bytes, 64-bit indices; the address space and privilege it runs under. -/
structure Xfer where
  kind : CopyKind
  dst : W64
  src : W64
  n : Nat
  height : Nat
  spitch : Nat
  dpitch : Nat
  index : W64
  bound : Nat
  elem : Nat
  idx64 : Bool
  asid : Nat
  priv : Bool
deriving DecidableEq, Repr

/-- For whom a queued command is performed: a fibre's batch, or a graph's Copy node on a die. -/
inductive CopyOwner where
  | batch (fib batch : Nat)
  | node (die graph : Nat)
deriving DecidableEq, Repr

structure CopyCmd where
  id : Nat
  x : Xfer
  owner : CopyOwner
deriving DecidableEq, Repr

/-- How far a transfer has come (R241, R245): row or element, bytes of it moved, its index once read, the status so far; of
an overlapping CPY whether its reads have stopped, and the bytes read and not yet written, by destination and number; of
the others the bytes that its writes replaced, by physical address; the most bytes that its next line transfer moves, 0 where
none is set. -/
structure Moving where
  row : Nat
  ofs : Nat
  ix : Option Nat
  st : Nat
  stop : Bool
  buf : List (W64 × Nat × Nat)
  old : Map Byte
  part : Nat
deriving DecidableEq, Repr

def Moving.start : Moving := { row := 0, ofs := 0, ix := none, st := 0, stop := false, buf := [], old := [], part := 0 }

/-- A posted operation of a copy program (R253, R254). -/
inductive CopyOp where
  | xfer (id : Nat) (x : Xfer)
  | sig (id : Nat) (addr : W64) (val : W32) (asid : Nat) (priv : Bool) (pc : W64)
deriving DecidableEq, Repr

/-- A program context beside its sequencer: the status byte, the priority, and posted operations, oldest first. -/
structure Ctx where
  cst : Nat
  prio : Nat
  ops : List CopyOp
deriving DecidableEq, Repr

def Ctx.reset : Ctx := { cst := 0, prio := 0, ops := [] }

/-! ### Matrix engines (R262 to R291) -/

/-- A line read into a tile slot (R270): line of the virtual address, number of the physical line, bytes, tag and
sideband. -/
structure TLine where
  vline : Nat
  ln : Nat
  data : Line
  tag : Option Nat
  side : List (Nat × Nat)
deriving DecidableEq, Repr

/-- A tile slot (R270, R272): Empty where it is neither full nor filling. `pins` are the lines it has pinned. -/
structure TSlot where
  full : Bool
  fmt : Nat
  k : Nat
  keep : Bool
  base : W64
  pitch : Nat
  lines : List TLine
  pins : List Nat
deriving DecidableEq, Repr

def TSlot.reset : TSlot :=
  { full := false, fmt := 0, k := 0, keep := false, base := 0, pitch := 0, lines := [], pins := [] }

/-- A queued operation with the operands it read at issue (R266). `sync` is an MSYNC that waits for the operations
before it. -/
inductive MatOp where
  | fetch (pc : W64) (slot : Nat) (base : W64) (pitch kb : Nat) (keep : Bool) (dfmt : Nat) (begun : Bool)
  | mma (pc : W64) (zero : Bool) (row a b : Nat)
  | azero (row n : Nat)
  | ascale (row : Nat) (factor : W32)
  | trel (slot : Nat)
  | sync (pend : Nat)
deriving DecidableEq, Repr

/-- A fetch that has begun. -/
def MatOp.begun : MatOp → Bool
  | .fetch _ _ _ _ _ _ _ b => b
  | _ => false

/-- A matrix engine beside its sequencer: queue, slots, MMAs completed since the program started, and the cycles the
fetch at the head has waited for the pin budget (R273). -/
structure Mat where
  queue : List MatOp
  slots : Map TSlot
  count : Nat
  pinWait : Nat
deriving DecidableEq, Repr

def Mat.reset : Mat := { queue := [], slots := [], count := 0, pinWait := 0 }

end Sys2Proof.Machine
end

