-- ==== Sys2Proof/Machine/State.lean ====
section
/-! DEFINITION. The state of the package, as plain data, and the state after a cold reset. Units are numbered: die 0
to 15; quad = die * 40 + physical quad; core = quad * 4 + core; copy engine = die * 4 + engine; copy context = copy
engine * 8 + context; band = workgroup * 32 + band; fibre = band * 32 + lane; share = launch * 16 + die. -/

namespace Sys2Proof.Machine

/-! ### Vector engine (R83 to R95, R188) -/

/-- Status of a fibre (R85). -/
inductive Status where
  | ready | waiting | parked | handler | exited
deriving DecidableEq, Repr

/-- What a Waiting fibre waits on (R100, R110, R115). -/
inductive WaitOn where
  | nothing
  | rejoin (n : Nat)
  | barrier (key : Nat)
  | rdv (k : Nat)
deriving DecidableEq, Repr

/-- A trap that is due (R197 to R199). `addr` is %taddr; `resume` the resume PC of a precise trap. -/
structure Cause where
  code : Nat
  info : W32
  addr : W64
  late : Bool
  pfu : Bool
  resume : W64
deriving DecidableEq, Repr

/-- A V-class result on its way (R46): the registers and predicates marked pending, the values that will arrive, and
whether the unit has them ready. -/
structure Pend where
  id : Nat
  regs : List Nat
  vals : List W32
  preds : List Nat
  pvals : List Bool
  ready : Bool
deriving DecidableEq, Repr

/-- A copy batch of a fibre (R246 to R248): its token register, its number once sealed, the commands still to be
performed, the status with the number of the command it comes from, and the pending result of its seal. -/
structure Batch' where
  id : Nat
  token : Nat
  sealed : Bool
  limit : Bool
  number : Nat
  left : Nat
  status : Nat
  statBy : Nat
  pend : Nat
deriving DecidableEq, Repr

/-- The record a fibre of a stage node holds (R328). -/
structure RecHold where
  addr : W64
  depth : Nat
  node : Nat
  index : Nat
  count : Nat
deriving DecidableEq, Repr

/-- A fibre (R83, R188). Registers not listed in `x` hold 0; `served` is a service of its page, mapped or not, that completed
while its gang was suspended (R205). -/
structure Fibre where
  pc : W64
  pw : W32
  x : Map W32
  status : Status
  handler : Bool
  region : W32
  rentry : W64
  jsel : W32
  tcause : W32
  tpc : W64
  taddr : W64
  tregion : W32
  tinfo : W32
  timehi : W32
  waitOn : WaitOn
  waitPc : W64
  parkVa : W64
  served : Option Bool
  age : Nat
  pend : List Pend
  latent : List (Nat × Cause)
  due : List Cause
  lost : List Nat
  cfault : Map W32
  cherr : Map W32
  passBrk : Bool
  acq : List Nat
  bn : BitVec 24
  batches : List Batch'
  depth : Nat
  record : Option RecHold
deriving DecidableEq, Repr

/-- The fibre's state at the start of a launch but for its PC (R86, R84); also a lane that starts Exited. -/
def Fibre.reset : Fibre :=
  { pc := 0, pw := 0x80#32, x := [], status := .exited, handler := false, region := 0, rentry := 0, jsel := 0,
    tcause := 0, tpc := 0, taddr := 0, tregion := 0, tinfo := 0, timehi := 0, waitOn := .nothing, waitPc := 0,
    parkVa := 0, served := none, age := 0, pend := [], latent := [], due := [], lost := [], cfault := [], cherr := [],
    passBrk := false, acq := [], bn := 0, batches := [], depth := 0, record := none }

/-- A batch of a band (R87, R89): its lanes, its age (a smaller number is older) and its starvation count (R185). -/
structure Batch where
  id : Nat
  mask : W32
  age : Nat
  starve : Nat
deriving DecidableEq, Repr

/-- A band (R87 to R92, R44, R45, R181 to R185). Rejoin masks, addresses and arrived masks not listed are 0; `out` are the
register lines that its image holds and its core's register cache does not, as slice * 128 + register (R95). -/
structure Band where
  core : Nat
  slot : Nat
  batches : List Batch
  cur : Nat
  last : Nat
  nextId : Nat
  nextAge : Nat
  sp : Bool
  wset : W128
  jmask : Map W32
  jaddr : Map W64
  jarr : Map W32
  jcount : Map Nat
  issued : W32
  cand : Nat
  first : Bool
  fair : Nat
  sync : W16
  out : List Nat
deriving DecidableEq, Repr

def Band.reset : Band :=
  { core := 0, slot := 0, batches := [], cur := 0, last := 0, nextId := 1, nextAge := 1, sp := true, wset := 0,
    jmask := [], jaddr := [], jarr := [], jcount := [], issued := 0, cand := 0, first := false, fair := 0, sync := 0,
    out := [] }

/-- States of a sequencer: of a copy context they are those of R240, of a matrix sequencer running or not (R262). -/
inductive SeqSt where
  | free | running
  | rdv (k : Nat)
  | held | ending | stopped
deriving DecidableEq, Repr

/-- A matrix sequencer or a copy context as a thread (R41, R44, R45, R113). Registers not listed hold 0; `passBrk` as of a
fibre (R210). -/
structure Seq where
  st : SeqSt
  wg : Nat
  pc : W64
  pw : W32
  regs : Map W32
  wset : W32
  sp : Bool
  timehi : W32
  pend : List Pend
  passBrk : Bool
deriving DecidableEq, Repr

def Seq.reset : Seq :=
  { st := .free, wg := 0, pc := 0, pw := 0x80#32, regs := [], wset := 0, sp := true, timehi := 0, pend := [], passBrk := false }

/-- A rendezvous of a workgroup's fork set (R115, R186): sequencers that have arrived, fibres that take no part
(R102), and the timeout count. -/
structure Rdv where
  mat : Bool
  cops : List Nat
  excl : List Nat
  count : Nat
deriving DecidableEq, Repr

/-- A barrier instance (R111, R186): fibres that take no part (R102), the timeout count, and, at .pod, the dies of other
packages (package and die) all of whose fibres have arrived. -/
structure Bar where
  excl : List Nat
  count : Nat
  peers : List (Nat × Nat)
deriving DecidableEq, Repr

/-- A workgroup (R8, R92, R94, R16). `lin` is the linear index; `node` the stage node of a node
workgroup; `forkM`, `forkC` the programs of its fork set; `forkWait` the fibres stalled before a FORK.matrix, with their
PCs. -/
structure Wg where
  share : Nat
  gang : Nat
  core : Nat
  lin : W64
  x : W32
  y : W32
  z : W32
  size : Nat
  nbands : Nat
  xregs : Nat
  k : Map W32
  forkM : Bool
  forkC : List Nat
  rdvs : Map Rdv
  ctrl : W32
  node : Option Nat
  image : W64
  priv : W64
  kid : Nat
  forkWait : List (Nat × W64)
deriving DecidableEq, Repr

def Wg.reset : Wg :=
  { share := 0, gang := 0, core := 0, lin := 0, x := 0, y := 0, z := 0, size := 0, nbands := 0, xregs := 8, k := [],
    forkM := false, forkC := [], rdvs := [], ctrl := 0, node := none, image := 0, priv := 0, kid := 0, forkWait := [] }

/-- A gang (R10). `arows`, `abase`, `wins`, `acc` and `written` are its accumulator rows, their place on the quad, its
windows, their elements by row * 128 + column (+0 where not listed) and the written bits (R263, R264, R286); `saved`
is its matrix program while the gang is suspended; `away` that it has come from another package and is still to resume
(R207). -/
structure Gang where
  share : Nat
  quad : Nat
  lin : W64
  wgs : List Nat
  halted : Bool
  suspended : Bool
  stepFib : Option Nat
  arows : Nat
  abase : Nat
  wins : List (Nat × Nat)
  acc : Map W32
  written : W16
  saved : Option (Seq × Mat)
  away : Bool
deriving DecidableEq, Repr

def Gang.reset : Gang :=
  { share := 0, quad := 0, lin := 0, wgs := [], halted := false, suspended := false, stepFib := none, arows := 0,
    abase := 0, wins := [(0, 0), (0, 0), (0, 0), (0, 0)], acc := [], written := 0, saved := none, away := false }

/-- How a share ends by a trap (R200, R256, R267): of a fibre (`who` 0), of a matrix program (1) or of a copy program
(2), whose engine and context `core` and `lane` then give. -/
structure TrapEnd where
  who : Nat
  code : Nat
  quad : Nat
  core : Nat
  lane : Nat
  inHandler : Bool
  pc : W64
  info : W32
  addr : W64
deriving DecidableEq, Repr

/-- One launch's share on one die. -/
structure Share where
  launch : Nat
  die : Nat
  asid : Nat
  entry : W64
  handler : W64
  watchdog : Nat
  bartimeout : Nat
  stall : Nat
  psize : Nat
  gridx : W32
  gridy : W32
  gridz : W32
  gangSize : Nat
  dieIndex : Nat
  pkgIndex : Nat
  quads : List Nat
  binding : Map W64
  trap : Option TrapEnd
deriving DecidableEq, Repr

def Share.reset : Share :=
  { launch := 0, die := 0, asid := 0, entry := 0, handler := 0, watchdog := 0, bartimeout := 0, stall := 0, psize := 0,
    gridx := 0, gridy := 0, gridz := 0, gangSize := 1, dieIndex := 0, pkgIndex := 0, quads := [],
    binding := [], trap := none }

/-- The engine that issues next. -/
inductive Eng where
  | band (k : Nat)
  | mat (q : Nat)
  | cop (c : Nat)
deriving DecidableEq, Repr

/-- A thread of instructions: a fibre, a matrix sequencer, a copy context. -/
inductive Thr where
  | fib (k : Nat)
  | mat (q : Nat)
  | cop (c : Nat)
deriving DecidableEq, Repr

/-- What comes with a suspended gang from another package (R207): its record, casements, workgroups, bands, fibres and
channels under numbers that are new here, its copy programs by engine index with their old context numbers, the lines of
its images and private blocks, and the barrier instances that it takes part in, by their keys here. -/
structure GangImage where
  gang : Gang
  csm : Casement
  wgs : Map Wg
  bands : Map Band
  fibres : Map Fibre
  chans : Map Chan
  cops : List (Nat × Nat × Seq × Ctx)
  lines : List (Nat × Line)
  bars : Map Bar
deriving DecidableEq, Repr

/-- What happens next, where it is not simply the focus engine that issues: another engine issues and takes the focus;
a hardware event of the operation table; time passes (cycles of the arithmetic clock, and nanoseconds); a band merges a
batch into its current one (R88); an L1 evicts a line; a stored symbol goes bad, of a line in memory or in its L2 copy, of a
codeword of 16 bytes in a gang's local store, or of one in the SRAM that holds a graph's nodes (R32); a core's register cache
evicts a line (R95); a home sends the snoop that a request which waits at a host-biased line needs (R403); a copy engine
corrects an error (R356), or moves only part of an operation's next line (R245). From other packages: one has set its exported window (R29, R381); a die of a launch reports that
all its fibres have arrived at the launch's .pod barrier, or that its count has reached the timeout (R13, R186, R187); a
suspended gang leaves for another package, or comes from one (R207); a port reaches the peer of a failed connection again
(R383). Also: a flit arrives with an uncorrectable FEC error
(R386); a host reads a register, or programs BAR 0 or HDM decoder 0 (R394, R395); the tray's cooling sets what the thermal
limits allow, and what runs sets the watts that each step of the clock draws (R417). -/
inductive Turn where
  | issue (e : Eng)
  | event (i : Instr)
  | tick (cycles ns : Nat)
  | merge (band batch : Nat)
  | evict (core line : Nat)
  | corrupt (line symbol : Nat) (l2 : Bool)
  | corruptLocal (gang word symbol : Nat)
  | corruptNode (graph word symbol : Nat)
  | evictReg (core line : Nat)
  | ask (line : Nat) (inv : Bool)
  | correctCopy (engine : Nat)
  | copyPart (op bytes : Nat)
  | peerWindow (pkg window : Nat)
  | peerReached (port peer : Nat)
  | podArrival (launch pkg die : Nat)
  | podTimeout (launch : Nat)
  | gangLeaves (gang : Nat)
  | gangArrives (gang : Nat) (image : GangImage)
  | fecError (port : Nat)
  | hostRead (src die off n : Nat)
  | hostBar (src die base : Nat)
  | hostHdm (src die : Nat) (base : Option Nat)
  | thermal (mhz : Nat)
  | power (watts : List Nat)
deriving DecidableEq, Repr

structure State where
  agenda : List Turn
  focus : Eng
  free : Nat
  nextId : Nat
  cycle : Nat
  timeNs : W64
  fibres : Map Fibre
  bands : Map Band
  wgs : Map Wg
  gangs : Map Gang
  shares : Map Share
  mseqs : Map Seq
  cops : Map Seq
  bars : Map Bar
  dbg : Map W64
  mem : MemSt
  tus : Map Tu
  cores : Map Core
  etlb : Map (List Leaf)
  csms : Map Casement
  invs : List Inv
  irqs : List (Nat × Nat)
  chans : Map Chan
  engs : Map ChEng
  fab : Fab
  icache : Map (List (Nat × BitVec 256))
  copyqs : Map (List CopyCmd)
  ctxs : Map Ctx
  ready : Map Nat
  lastSrc : Map Nat
  moves : Map Moving
  mats : Map Mat
  unserv : List (Nat × Nat × Nat × Nat)
  nodeDone : List (Nat × Nat)
  fetchBad : List (Nat × Nat × Nat)
  queues : Map Queue
  graphs : Map Graph
  launches : Map Launch
  stages : Map Proofer
  fes : Map Fe
  lds : Map Ld
  spdm : Spdm
  host : HostSt
deriving DecidableEq, Repr

def State.reset : State :=
  { agenda := [], focus := .band 0, free := 0, nextId := 1, cycle := 0, timeNs := 0, fibres := [], bands := [], wgs := [], gangs := [],
    shares := [], mseqs := [], cops := [], bars := [],
    dbg := [], mem := MemSt.reset, tus := [], cores := [], etlb := [], csms := [], invs := [], irqs := [],
    chans := [], engs := [], fab := Fab.reset, icache := [], copyqs := [], ctxs := [],
    ready := [], lastSrc := [], moves := [], mats := [], unserv := [], nodeDone := [], fetchBad := [],
    queues := [], graphs := [], launches := [], stages := [], fes := [], lds := [], spdm := Spdm.reset, host := HostSt.reset }

/-- Why the machine stops with a fault. -/
inductive Fault where
  /-- Raised by every step after a thermal trip (R417): the package is powered off. Safe: the spec gives a powered-off
  package no behaviour. -/
  | poweredOff
deriving DecidableEq, Repr

/-- Why a step is refused. -/
inductive Refusal where
  /-- An instruction without a meaning in this model. Safe: nothing is concluded about it. -/
  | notModelled (mnemonic : String)
  /-- Raised by an event naming a unit the package does not have (a die above 15, a port above 31). Safe: no such
  event can occur. -/
  | noSuchUnit
  /-- Raised by a turn that names an encoded instruction as an event. Safe: only an engine issues one. -/
  | notAnEvent
deriving DecidableEq, Repr

end Sys2Proof.Machine
end

