-- ==== Sys2Proof/Machine/Home.lean ====
section
/-! DEFINITION. Memory and the L2 homes: stored bytes, metadata and keys (R366 to R368), line fills (R80), error
correction (R32, R356), merging writes, versions and notices (R226, R227), pins (R271). -/

namespace Sys2Proof.Machine

def State.setMem (s : State) (m : MemSt) : State := { s with mem := m }
def State.updMem (s : State) (g : MemSt → MemSt) : State := { s with mem := g s.mem }
def State.home (s : State) (ln : Nat) : HomeLine := Map.getD s.mem.home ln HomeLine.reset
def State.setHome (s : State) (ln : Nat) (h : HomeLine) : State :=
  s.updMem fun m => { m with home := if h = HomeLine.reset then Map.del m.home ln else Map.put m.home ln h }
def State.tu (s : State) (die : Nat) : Tu := Map.getD s.tus die Tu.reset
def State.setTu (s : State) (die : Nat) (t : Tu) : State := { s with tus := Map.put s.tus die t }

/-! ### Stored bytes -/

/-- What a byte that nothing has written reads as (log entry 8). -/
def emptyByte : Byte := 0

def readCell (m : List Host.Cell) (a : Nat) : Byte := Map.getD m a emptyByte

/-- Writes one byte, keeping the canonical form: rising addresses and no byte equal to `emptyByte`. -/
def writeCell (m : List Host.Cell) (a : Nat) (b : Byte) : List Host.Cell :=
  if b = emptyByte then Map.del m a else Map.put m a b

/-- The canonical form of memory. -/
def Memory.wf (m : List Host.Cell) : Bool := Map.wf m && m.all fun c => decide (c.2 ≠ emptyByte)

def readCells (m : List Host.Cell) (a : Nat) : Nat → Nat
  | 0 => 0
  | n + 1 => (readCell m a).toNat + 256 * readCells m (a + 1) n

def writeCells (m : List Host.Cell) (a v : Nat) : Nat → List Host.Cell
  | 0 => m
  | n + 1 => writeCells (writeCell m a (BitVec.ofNat 8 v)) (a + 1) (v / 256) n

def cellLine (m : List Host.Cell) (ln : Nat) : Line := BitVec.ofNat 512 (readCells m (64 * ln) 64)
def putLine (m : List Host.Cell) (ln : Nat) (l : Line) : List Host.Cell := writeCells m (64 * ln) l.toNat 64

/-! ### Metadata and keys (R366, R367) -/

/-- Die of a line of this package's memory; 0 otherwise. -/
def lineDie (ln : Nat) : Nat := (memDie (64 * ln)).getD 0

/-- The side array's byte of a line inside the side-covered range of its die. -/
def sideByte (s : State) (ln : Nat) : Option Nat :=
  let t := s.tu (lineDie ln)
  let pa := 64 * ln
  if t.cbase.toNat ≤ pa ∧ pa < t.climit.toNat then some (t.side.toNat + (pa - t.cbase.toNat) / 64) else none

/-- Metadata of a line outside the side-covered range (R367): inline, or raw for a vault line. -/
def ownMeta (s : State) (ln : Nat) : Nat := if isVault (64 * ln) then 2 else Map.getD s.mem.inl ln 0

/-- A line of the side array is read by its own metadata; one that the covered range itself holds is taken as raw (log
entry 129). None where its form is 3. -/
def sideLine (s : State) (la : Nat) : Option Line :=
  decodeLine la (cellLine s.mem.cells la) (if (sideByte s la).isSome then 2 else ownMeta s la)

/-- A line's metadata (R367): in the side array, inline, or raw for a vault line outside the range. A side-array line of form 3
gives form 3. -/
def metaOf (s : State) (ln : Nat) : Nat :=
  match sideByte s ln with
  | some a => ((sideLine s (a / 64)).map fun l => lineGet l (a % 64) 1 % 16).getD 3
  | none => ownMeta s ln

/-- Stores a line's bytes under its own metadata: a zero line outside the covered range and the vaults takes form 0, any
other is raw. -/
def putRaw (s : State) (m : MemSt) (la : Nat) (l : Line) : MemSt :=
  if (sideByte s la).isSome || isVault (64 * la) then { m with cells := putLine m.cells la l }
  else if l = 0 then { m with inl := Map.del m.inl la }
  else { m with cells := putLine m.cells la l, inl := Map.put m.inl la 2, kmat := Map.del m.kmat la }

/-- Writes metadata to a byte of the side array (R367); the symbol it is written to holds no error. -/
def putSide (s : State) (m : MemSt) (a md : Nat) : MemSt :=
  let la := a / 64
  let l := mergeLine ((sideLine s la).getD 0) (lineAt (a % 64) 1 md) (byteMask (a % 64) 1)
  let m1 := putRaw s m la l
  { m1 with bad := Map.upd m1.bad la fun b => b.filter (· ≠ a % 64 / 16 * 18 + a % 16) }

/-- Key material of a key id on a line's die: 0 is plaintext. -/
def keyMat (s : State) (ln key : Nat) : Nat :=
  if key = 0 then 0 else Map.getD s.mem.slots (lineDie ln * 64 + key) 0

/-- Whether a key id may be used on a die (R366). -/
def keyLoaded (s : State) (die key : Nat) : Bool := decide (key = 0) || Map.has s.mem.slots (die * 64 + key)

/-- The line as the memory controller reads it under a key id: decrypted, then expanded; none for form 3. -/
def memLine (s : State) (ln key : Nat) : Option Line :=
  let stored := cellLine s.mem.cells ln
  let md := metaOf s ln
  let wk := Map.getD s.mem.kmat ln 0
  let rk := keyMat s ln key
  if md % 4 ≠ 0 ∧ md % 4 ≠ 3 ∧ wk ≠ rk then some (Config.scramble stored wk rk ln)
  else decodeLine ln stored md

/-- The memory controller writes a line: compressed under CMPS, then encrypted (R366, R368). The write renews the
check symbols of the place. -/
def memWrite (s : State) (ln key cmps : Nat) (l : Line) : State :=
  let m := s.mem
  let old := cellLine m.cells ln
  let side := sideByte s ln
  let raw := isVault (64 * ln) && side.isNone
  let (stored, md) := if raw then (l, 2) else encodeLine cmps l old
  let cells := putLine m.cells ln stored
  let wk := keyMat s ln key
  let m1 := { m with
    cells := cells
    inl := if raw ∨ side.isSome then m.inl else if md = 0 then Map.del m.inl ln else Map.put m.inl ln md
    kmat := if md % 4 = 0 then m.kmat else if wk = 0 then Map.del m.kmat ln else Map.put m.kmat ln wk
    bad := Map.del m.bad ln }
  s.setMem (match side with
    | some a => putSide s m1 a md
    | none => m1)

/-! ### Errors (R32, R356) -/

/-- Counted units of R356: quad with vault, L2 slice, copy engine, HBM bank group. -/
def unitQuad (die q : Nat) : Nat := die * 256 + q
def unitSlice (die h : Nat) : Nat := die * 256 + 64 + h
def unitCopy (die e : Nat) : Nat := die * 256 + 128 + e
def unitBank (die g : Nat) : Nat := die * 256 + 160 + g

def State.unit (s : State) (u : Nat) : Unit' := Map.getD s.mem.units u Unit'.reset

/-- One corrected event of a unit (R356): the times of the last 16 are kept, in ns; a 16th within 10 s retires the
unit and interrupts the host, and with its last quad the die fails; a bank found in error is read in erasure mode from then on (R32). -/
def State.corrected (s : State) (u bank : Nat) : State :=
  let x := s.unit u
  let now := s.timeNs.toNat
  let times := (x.times ++ [now]).drop ((x.times ++ [now]).length - 16)
  let ret := decide (times.length = 16) && decide (now - times.headD 0 ≤ 10000000000)
  let er := match x.erased with
    | some b => some b
    | none => if Config.bankInError u bank times.length then some bank else none
  let s1 := s.updMem fun m => { m with units := Map.put m.units u { times := times, erased := er, retired := x.retired || ret } }
  if ret && !x.retired then
    let s2 := { s1 with irqs := s1.irqs ++ [(u / 256, 0)] }
    if (List.range 40).all fun q => (s2.unit (unitQuad (u / 256) q)).retired then
      { s2 with fes := Map.put s2.fes (u / 256) { Map.getD s2.fes (u / 256) Fe.reset with st := 2 } }
    else s2
  else s1

/-- A read of a codeword of a unit with the erroneous symbols `bad`: none where it is uncorrectable. -/
def State.eccRead (s : State) (u : Nat) (bad : List Nat) : Option State :=
  match (s.unit u).erased with
  | some b => if (bad.filter (· ≠ b)).isEmpty then some s else none
  | none =>
    match bad with
    | [] => some s
    | [b] => some (s.corrected u b)
    | _ => none

/-- The erroneous symbols of one of a line's four codewords: symbol y of a line is symbol y mod 18 of codeword y div 18. -/
def badIn (bad : List Nat) (cw : Nat) : List Nat := (bad.filter fun y => y / 18 = cw).map (· % 18)

/-- A read of codewords of a unit among whose lines' symbols `bad` are erroneous. -/
def State.eccWords (s : State) (u : Nat) (bad : List Nat) : List Nat → Option State
  | [] => some s
  | cw :: l => (s.eccRead u (badIn bad cw)).bind fun s1 => s1.eccWords u bad l

def State.eccLine (s : State) (u : Nat) (bad : List Nat) : Option State := s.eccWords u bad [0, 1, 2, 3]

/-- The slice that homes a line: that of the interleave, or the next in service above it (R357). -/
def sliceOf (s : State) (ln : Nat) : Nat :=
  let h := Config.slice ln % 40
  let die := lineDie ln
  (((List.range 40).map fun i => (h + i) % 40).find? fun i => !(s.mem.remap.contains (die * 40 + i))).getD h

def sliceKey (s : State) (ln : Nat) : Nat := lineDie ln * 40 + sliceOf s ln

/-- The unit that stores a line in memory: its vault's quad, or its HBM bank group. -/
def placeUnit (ln : Nat) : Nat :=
  let die := lineDie ln
  if isVault (64 * ln) then unitQuad die ((64 * ln - vaultBase die) / 0x2000000) else unitBank die (bankGroup (64 * ln))

/-- The erroneous symbols of a stored line, and those without some. -/
def State.badOf (s : State) (ln : Nat) : List Nat := Map.getD s.mem.bad ln []
def State.setBad (s : State) (ln : Nat) (bad : List Nat) : State :=
  s.updMem fun m => { m with bad := if bad.isEmpty then Map.del m.bad ln else Map.put m.bad ln bad }

/-- The side array's byte of a line read with its codeword's errors corrected (R32, R368). -/
def sideRead (s : State) (ln : Nat) : Option State :=
  match sideByte s ln with
  | none => some s
  | some a =>
    let la := a / 64
    let cw := a % 64 / 16
    (s.eccWords (placeUnit la) (s.badOf la) [cw]).map fun s1 =>
      if (badIn (s1.badOf la) cw).isEmpty then s1 else s1.setBad la ((s1.badOf la).filter fun y => y / 18 ≠ cw)

/-- A read of a stored line with its errors corrected (written back corrected) or none. -/
def memRead (s : State) (ln key : Nat) : Option (State × Line) :=
  match (sideRead s ln).bind fun s0 => s0.eccLine (placeUnit ln) (s0.badOf ln) with
  | none => none
  | some s1 =>
    match memLine s ln key with
    | none => none
    | some l => some (s1.setBad ln [], l)

/-! ### Format regions (R77, R80) -/

def State.frr (s : State) (die n : Nat) : Frr := Map.getD s.mem.frr (die * 16 + n) Frr.reset
def Frr.en (r : Frr) : Bool := r.ctl.getLsbD 31
def Frr.format (r : Frr) : Nat := (r.ctl.extractLsb' 8 5).toNat

/-- The enabled region of the line's die that holds an address. -/
def regionAt (s : State) (pa : Nat) : Option Frr :=
  let die := (memDie pa).getD 0
  ((List.range 16).map (s.frr die)).find? fun r =>
    r.en && decide (r.base.toNat ≤ pa) && decide (pa < r.limit.toNat)

/-- An L2 copy is read with its errors corrected (R32). -/
def State.l2Read (s : State) (ln : Nat) (x : L2Line) : Option State :=
  (s.eccLine (unitSlice (lineDie ln) (sliceOf s ln)) x.bad).map fun s1 =>
    if x.bad.isEmpty then s1 else s1.setHome ln { s1.home ln with l2 := some { x with bad := [] } }

/-- A byte as held at its L2 home now: the home's copy, or memory, whose line is read whole (log entry 153). None on an
uncorrectable error. -/
def homeByte (s : State) (pa key : Nat) : Option (State × Nat) :=
  let ln := pa / 64
  match (s.home ln).l2 with
  | some x => (s.l2Read ln x).map fun s1 => (s1, lineGet x.data (pa % 64) 1)
  | none => (memRead s ln key).map fun p => (p.1, lineGet p.2 (pa % 64) 1)

/-- Reads the scale bytes of blocks: address of the first byte and scale byte of each. -/
def scaleBytes (r : Frr) (bb key : Nat) : List Nat → State → Option (State × List (Nat × Nat))
  | [], s => some (s, [])
  | j :: l, s =>
    (homeByte s (r.scale.toNat + j) key).bind fun b =>
      (scaleBytes r bb key l b.1).map fun p => (p.1, (r.base.toNat + j * bb, b.2) :: p.2)

/-- Numbers of the blocks of a region that overlap a line. -/
def blockIdx (r : Frr) (ln : Nat) : List Nat :=
  let bb := blockBytes r.format
  let base := r.base.toNat
  let j0 := (64 * ln - base) / bb
  let j1 := (64 * ln + 63 - base) / bb
  ((List.range (j1 + 1 - j0)).map (· + j0)).filter fun j => decide (base + j * bb < r.limit.toNat)

/-- The blocks of a region that overlap a line, with their scale bytes. None where a scale byte cannot be read. -/
def blocksOf (s : State) (r : Frr) (ln key : Nat) : Option (State × List (Nat × Nat)) :=
  scaleBytes r (blockBytes r.format) key (blockIdx r ln) s

/-- Zeroes the bytes of a line in [a, a + n). -/
def zeroBytes (ln a n : Nat) (l : Line) : Line :=
  let lo := max a (64 * ln)
  let hi := min (a + n) (64 * ln + 64)
  if lo < hi then mergeLine l 0 (byteMask (lo - 64 * ln) (hi - lo)) else l

/-- A fill by the memory controller (R80). -/
def fillLine (s : State) (ln key cmps : Nat) : Option (State × L2Line) :=
  let plain (s : State) (l : Line) (tag : Option Nat) (side : List (Nat × Nat)) : State × L2Line :=
    (s, { data := l, dirty := false, tag := tag, side := side, key := key, cmps := cmps, bad := [] })
  match regionAt s (64 * ln) with
  | none => (memRead s ln key).map fun p => plain p.1 p.2 none []
  | some r =>
    let f := r.format
    if isBlockFmt f then
      match blocksOf s r ln key with
      | none => none
      | some (s, bs) =>
        let z := bs.filter fun b => isSX f && decide (b.2 = 0x80)
        if z.length = bs.length then some (plain s 0 (some f) bs)
        else (memRead s ln key).map fun p =>
          plain p.1 (z.foldl (fun l b => zeroBytes ln b.1 (blockBytes f) l) p.2) (some f) bs
    else (memRead s ln key).map fun p => plain p.1 p.2 (some f) []

/-! ### The home -/

/-- Writes a dirty L2 copy to memory, read with its errors corrected; the line stays valid. A copy that cannot be read is not
written, and stays dirty (R32, log entry 164). -/
def State.cleanL2 (s : State) (ln : Nat) : State :=
  match (s.home ln).l2 with
  | none => s
  | some x =>
    if x.dirty then
      match s.l2Read ln x with
      | some s1 =>
        (memWrite s1 ln x.key x.cmps x.data).setHome ln { s1.home ln with l2 := some { x with dirty := false, bad := [] } }
      | none => s
    else s

/-- Writes a dirty L2 copy to memory and drops it; directory state stays (R227). -/
def State.dropL2 (s : State) (ln : Nat) : State :=
  let s1 := s.cleanL2 ln
  match (s1.home ln).l2 with
  | some x => if x.dirty then s1 else s1.setHome ln { s1.home ln with l2 := none }
  | none => s1

/-- Writes an L2 copy to memory, and drops it where no pin holds it (R271). -/
def State.yieldL2 (s : State) (ln : Nat) : State := if (s.home ln).pins.isEmpty then s.dropL2 ln else s.cleanL2 ln

/-- Discards the L2 copy. -/
def State.discardL2 (s : State) (ln : Nat) : State := s.setHome ln { s.home ln with l2 := none }

/-- A line as its home reads it: its L2 copy, or a fill that enters the L2. None on an uncorrectable error, and then the line
does not enter. A copy held under another key id is written to memory; the line is filled again under the request's, and
takes the copy's place unless a pin holds that (R271, log entry 9). -/
def State.homeLine (s : State) (ln key cmps : Nat) : Option (State × L2Line) :=
  let fill (s : State) : Option (State × L2Line) :=
    (fillLine s ln key cmps).map fun p => (p.1.setHome ln { p.1.home ln with l2 := some p.2 }, p.2)
  match (s.home ln).l2 with
  | some x =>
    if x.key = key then (s.l2Read ln x).map fun s1 => (s1, { x with bad := [] })
    else if x.dirty && (s.l2Read ln x).isNone then none
    else if (s.home ln).pins.isEmpty then fill (s.dropL2 ln) else fillLine (s.cleanL2 ln) ln key cmps
  | none => fill s

/-- Brings a line into its home. -/
def State.ensure (s : State) (ln key cmps : Nat) : Option State := (s.homeLine ln key cmps).map Prod.fst

/-- A read of a line at its home. -/
def homeRead (s : State) (ln key cmps : Nat) : Option (State × Line) :=
  (s.homeLine ln key cmps).map fun p => (p.1, p.2.data)

def notices (s : State) (quads : List Nat) (n : Notice) : State :=
  s.updMem fun m => { m with inbox := quads.foldl (fun b q => Map.put b q (Map.getD b q [] ++ [n])) m.inbox }

/-- A modification of a line: the slice's version clock advances and every sharing quad but that of the modifying
casement unit gets a notice (R226, R227). -/
def State.modified (s : State) (agent ln : Nat) (words : BitVec 16) : State :=
  let k := sliceKey s ln
  let v := Map.getD s.mem.clocks k 0 + 1
  let h := s.home ln
  let die := lineDie ln
  let quads := ((List.range 40).filter fun q => h.sharers.getLsbD q && decide (agent ≠ 2560 + die * 40 + q)).map (die * 40 + ·)
  let s1 := (s.updMem fun m => { m with clocks := Map.put m.clocks k v }).setHome ln { h with version := v }
  notices s1 quads { line := ln, words := words, version := v }

/-! ### The order of requests that meet (R31, R169) -/

/-- Index of an agent in the rotation of R169. -/
def rotIndex (agent : Nat) : Nat :=
  if agent < 2560 then agent / 4 % 40
  else if agent < 3300 then (agent - 2560) % 40
  else agent - 3300 + 40

/-- An agent's request may be served at a line now: it has not received RETRY, or the winner has been served. -/
def homeTurn (s : State) (agent ln : Nat) : Bool :=
  match Map.get s.mem.retry ln with
  | some r => !(r.2.contains (rotIndex agent))
  | none => true

/-- An agent's request is served at a line: where it was the winner, the others' turn comes. -/
def homeServed (s : State) (agent ln : Nat) : State :=
  match Map.get s.mem.retry ln with
  | some r => if r.1 = rotIndex agent then s.updMem fun m => { m with retry := Map.del m.retry ln } else s
  | none => s

/-- Merges bytes into a line at its home, byte-masked (R31); none on an uncorrectable error. -/
def applyWrite (s : State) (ln : Nat) (w : HeldWr) : Option State :=
  (s.ensure ln w.key w.cmps).map fun s1 =>
    let h := s1.home ln
    let s2 := match h.l2 with
      | some x => s1.setHome ln { h with l2 := some { x with data := mergeLine x.data w.data w.mask, dirty := true, cmps := w.cmps } }
      | none => s1
    s2.modified w.agent ln (wordsOf w.mask)

/-- A write at the home: held while a pin holds the line (R271), else applied. -/
def homeWrite (s0 : State) (agent ln : Nat) (mask : ByteMask) (data : Line) (key cmps : Nat) : Option State :=
  if mask = 0 then some s0 else
  let s := homeServed s0 agent ln
  let w : HeldWr := { agent := agent, mask := mask, data := data, key := key, cmps := cmps }
  let h := s.home ln
  if h.pins.isEmpty then applyWrite s ln w else some (s.setHome ln { h with held := h.held ++ [w] })

/-- Applies held bytes in the order of acceptance. Bytes whose merge meets an uncorrectable error are lost. -/
def applyHeld (s : State) (ln : Nat) : List HeldWr → State
  | [] => s
  | w :: ws => applyHeld ((applyWrite s ln w).getD s) ln ws

/-- Releases one pin; with the last pin the held bytes are applied (R271). -/
def State.unpin (s : State) (ln : Nat) (p : Nat × Nat) : State :=
  let h := s.home ln
  let pins := h.pins.erase p
  if pins.isEmpty then applyHeld (s.setHome ln { h with pins := [], held := [] }) ln h.held
  else s.setHome ln { h with pins := pins }

/-! ### Small accesses at the home by engines without an L1 (R24) -/

/-- Reads n bytes that lie in one line. -/
def homeGet (s : State) (pa n key cmps : Nat) : Option (State × Nat) :=
  (homeRead s (pa / 64) key cmps).map fun p => (p.1, lineGet p.2 (pa % 64) n)

/-- Writes n bytes that lie in one line. -/
def homePut (s : State) (agent pa n v key cmps : Nat) : Option State :=
  homeWrite s agent (pa / 64) (byteMask (pa % 64) n) (lineAt (pa % 64) n v) key cmps

end Sys2Proof.Machine
end

