-- ==== Sys2Proof/Machine/Ops.lean ====
section
/-! DEFINITION. The named operations over registers, batches, rejoins and traps that the meanings of the vector and
sequencer instructions share. -/

namespace Sys2Proof.Machine

/-! ### Parts of the state -/

def State.fib (s : State) (k : Nat) : Fibre := Map.getD s.fibres k Fibre.reset
def State.setFib (s : State) (k : Nat) (f : Fibre) : State := { s with fibres := Map.put s.fibres k f }
def State.updFib (s : State) (k : Nat) (g : Fibre → Fibre) : State := s.setFib k (g (s.fib k))
def State.band (s : State) (k : Nat) : Band := Map.getD s.bands k Band.reset
def State.setBand (s : State) (k : Nat) (b : Band) : State := { s with bands := Map.put s.bands k b }
def State.updBand (s : State) (k : Nat) (g : Band → Band) : State := s.setBand k (g (s.band k))
def State.wg (s : State) (k : Nat) : Wg := Map.getD s.wgs k Wg.reset
def State.setWg (s : State) (k : Nat) (w : Wg) : State := { s with wgs := Map.put s.wgs k w }
def State.updWg (s : State) (k : Nat) (g : Wg → Wg) : State := s.setWg k (g (s.wg k))
def State.gang (s : State) (k : Nat) : Gang := Map.getD s.gangs k Gang.reset
def State.setGang (s : State) (k : Nat) (g : Gang) : State := { s with gangs := Map.put s.gangs k g }
def State.updGang (s : State) (k : Nat) (g : Gang → Gang) : State := s.setGang k (g (s.gang k))
def State.share (s : State) (k : Nat) : Share := Map.getD s.shares k Share.reset
def State.setShare (s : State) (k : Nat) (h : Share) : State := { s with shares := Map.put s.shares k h }
def State.updShare (s : State) (k : Nat) (g : Share → Share) : State := s.setShare k (g (s.share k))
def State.mseq (s : State) (q : Nat) : Seq := Map.getD s.mseqs q Seq.reset
def State.setMseq (s : State) (q : Nat) (m : Seq) : State := { s with mseqs := Map.put s.mseqs q m }
def State.cop (s : State) (c : Nat) : Seq := Map.getD s.cops c Seq.reset
def State.setCop (s : State) (c : Nat) (m : Seq) : State := { s with cops := Map.put s.cops c m }

/-- The band, lane and workgroup of a fibre key. -/
def bandOf (k : Nat) : Nat := k / 32
def laneOf (k : Nat) : Nat := k % 32
def wgOf (k : Nat) : Nat := k / 1024

/-- The sequencer record of a thread that is not a fibre. -/
def State.seq (s : State) (t : Thr) : Seq :=
  match t with
  | .mat q => s.mseq q
  | .cop c => s.cop c
  | .fib _ => Seq.reset

def State.setSeq (s : State) (t : Thr) (m : Seq) : State :=
  match t with
  | .mat q => s.setMseq q m
  | .cop c => s.setCop c m
  | .fib _ => s

def State.updSeq (s : State) (t : Thr) (g : Seq → Seq) : State := s.setSeq t (g (s.seq t))

/-- The workgroup a thread works for. -/
def State.wgOfThr (s : State) (t : Thr) : Nat :=
  match t with
  | .fib k => wgOf k
  | _ => (s.seq t).wg

/-! ### Registers (R41, R52) -/

def State.regs (s : State) (t : Thr) : Map W32 :=
  match t with
  | .fib k => (s.fib k).x
  | _ => (s.seq t).regs

/-- X, M or G: register 0 reads 0 (R41). -/
def State.rx (s : State) (t : Thr) (n : Nat) : W32 := if n = 0 then 0 else Map.getD (s.regs t) n 0

/-- A pair, low word in the lower register; pair 0 reads 0 (R41). -/
def State.rxp (s : State) (t : Thr) (n : Nat) : W64 :=
  if n = 0 then 0 else join64 (s.rx t n) (s.rx t (n + 1))

/-- A quad, lowest word first; quad 0 reads 0 (R41). -/
def State.rxq (s : State) (t : Thr) (n : Nat) : List W32 :=
  if n = 0 then [0, 0, 0, 0] else [s.rx t n, s.rx t (n + 1), s.rx t (n + 2), s.rx t (n + 3)]

/-- Writes one register; a write to register 0 is discarded (R41). A write clears the lane's lost, CopyFault and
ChannelError marks of the register (R95, R249, R311). -/
def State.wx (s : State) (t : Thr) (n : Nat) (v : W32) : State :=
  if n = 0 then s else
  match t with
  | .fib k => s.updFib k fun f =>
      { f with x := Map.put f.x n v, lost := f.lost.filter (· ≠ n), cfault := Map.del f.cfault n,
               cherr := Map.del f.cherr n }
  | _ => s.updSeq t fun m => { m with regs := Map.put m.regs n v }

/-- Writes a pair; pair 0 discards both halves (R41). -/
def State.wxp (s : State) (t : Thr) (n : Nat) (v : W64) : State :=
  if n = 0 then s else (s.wx t n (lo32 v)).wx t (n + 1) (hi32 v)

/-- Writes consecutive registers from `n`. -/
def State.wxs (s : State) (t : Thr) (n : Nat) : List W32 → State
  | [] => s
  | v :: vs => (s.wx t n v).wxs t (n + 1) vs

/-- Writes a quad; quad 0 discards (R41). -/
def State.wxq (s : State) (t : Thr) (n : Nat) (v : List W32) : State := if n = 0 then s else s.wxs t n v

def State.predWord (s : State) (t : Thr) : W32 :=
  match t with
  | .fib k => (s.fib k).pw
  | _ => (s.seq t).pw

def State.setPredWord (s : State) (t : Thr) (w : W32) : State :=
  match t with
  | .fib k => s.updFib k fun f => { f with pw := w }
  | _ => s.updSeq t fun m => { m with pw := w }

/-- A predicate; p7 reads 1 (R41). -/
def State.rp (s : State) (t : Thr) (n : Nat) : Bool := if n = 7 then true else (s.predWord t).getLsbD n

def setBit32 (w : W32) (n : Nat) (b : Bool) : W32 :=
  if b then w ||| (1#32 <<< n) else w &&& ~~~ (1#32 <<< n)

/-- Writes a predicate; a write to p7 is discarded (R41). -/
def State.wp (s : State) (t : Thr) (n : Nat) (b : Bool) : State :=
  if n = 7 then s else s.setPredWord t (setBit32 (s.predWord t) n b)

/-- Sets a fibre's conversion flag (R74). -/
def State.setCvf (s : State) (t : Thr) : State :=
  match t with
  | .fib k => s.updFib k fun f => { f with pw := setBit32 f.pw 31 true }
  | _ => s

def State.pcOf (s : State) (t : Thr) : W64 :=
  match t with
  | .fib k => (s.fib k).pc
  | _ => (s.seq t).pc

def State.setPc (s : State) (t : Thr) (pc : W64) : State :=
  match t with
  | .fib k => s.updFib k fun f => { f with pc := pc }
  | _ => s.updSeq t fun m => { m with pc := pc }

/-- Moves a thread past an instruction of length code `len` (R34). -/
def State.adv (s : State) (t : Thr) (len : Nat) : State := s.setPc t (seqPc (s.pcOf t) len)

/-! ### The issuing batch (R37, R51, R87) -/

def Band.batch (b : Band) (id : Nat) : Option Batch := b.batches.find? fun x => x.id = id

def Band.curMask (b : Band) : W32 :=
  match b.batch b.cur with
  | some x => x.mask
  | none => 0

/-- May issue in its batch: Ready, or running its handler, with no trap due. -/
def Fibre.issuable (f : Fibre) : Bool :=
  (decide (f.status = .ready) || decide (f.status = .handler)) && f.due.isEmpty

/-- Batch(): the lanes of the issuing band's current batch that issue. -/
def State.batchLanes (s : State) (b : Nat) : List Nat :=
  (bitList (s.band b).curMask).filter fun l => (s.fib (b * 32 + l)).issuable

/-- The threads the focus engine issues for. -/
def State.threads (s : State) : List Thr :=
  match s.focus with
  | .band b => (s.batchLanes b).map fun l => .fib (b * 32 + l)
  | .mat q => [.mat q]
  | .cop c => [.cop c]

/-- Guard(l) (R37). -/
def State.guard (s : State) (f : Fields) (t : Thr) : Bool := s.rp t f.pg.toNat != f.pn

/-- Active() (R52). -/
def State.active (s : State) (f : Fields) : List Thr := s.threads.filter fun t => s.guard f t

def Thr.lane : Thr → Nat
  | .fib k => laneOf k
  | _ => 0

def Thr.key : Thr → Nat
  | .fib k => k
  | .mat q => q
  | .cop c => c

/-! ### Batches (R87 to R89, R182) -/

/-- What the fibres of one batch share: the PC and the mode, handler or not (R87). -/
def Fibre.place (f : Fibre) : W64 × Bool := (f.pc, f.handler)

/-- Groups lanes by PC and mode, keeping the order of the first lane of each group. -/
def groupByPc (s : State) (b : Nat) : List Nat → List ((W64 × Bool) × W32)
  | [] => []
  | l :: ls =>
    let gs := groupByPc s b ls
    let pc := (s.fib (b * 32 + l)).place
    let bit : W32 := 1#32 <<< l
    match gs.find? fun g => g.1 = pc with
    | some _ => gs.map fun g => if g.1 = pc then (g.1, g.2 ||| bit) else g
    | none => (pc, bit) :: gs

/-- Older of two batches; of equal age, that with the lowest lane (R182). -/
def older (x y : Batch) : Batch :=
  if y.age < x.age then y else if x.age < y.age then x else if lowBit y.mask < lowBit x.mask then y else x

/-- A batch that holds an issuable fibre (R181). -/
def State.canIssue (s : State) (b : Nat) (x : Batch) : Bool :=
  (bitList x.mask).any fun l =>
    let f := s.fib (b * 32 + l)
    decide (f.status = .ready) || decide (f.status = .handler)

/-- Makes the oldest batch with an issuable fibre current (R182); a change of current batch clears the fairness count
(R184). -/
def State.choose (s : State) (b : Nat) : State :=
  let bd := s.band b
  match bd.batches.filter (s.canIssue b) with
  | [] => s
  | x :: xs =>
    let y := xs.foldl older x
    s.setBand b (if y.id = bd.cur then bd else { bd with cur := y.id, fair := 0 })

def Band.dropEmpty (b : Band) : Band := { b with batches := b.batches.filter fun x => x.mask ≠ 0 }

/-- Removes a lane from the batch it is in. -/
def State.leaveBatch (s : State) (k : Nat) : State :=
  s.updBand (bandOf k) fun b =>
    { b with batches := b.batches.map fun x => { x with mask := x.mask &&& ~~~ (1#32 <<< laneOf k) } }

/-- A band without a current batch that can issue chooses (R182). -/
def State.rechoose (s : State) (b : Nat) : State :=
  match (s.band b).batch (s.band b).cur with
  | some x => if s.canIssue b x then s else s.choose b
  | none => s.choose b

/-- A batch of the lanes of `mask` enters the band with age `age`, which becomes theirs (R88, R89). -/
def State.enterBatch (s : State) (b : Nat) (mask : W32) (age : Nat) : State :=
  if mask = 0 then s
  else ((bitList mask).foldl (fun s l => s.updFib (b * 32 + l) fun f => { f with age := age }) s).updBand b fun bd =>
    { bd with batches := bd.batches ++ [⟨bd.nextId, mask, age, 0⟩], nextId := bd.nextId + 1 }

/-- Forms one batch of the lanes of `mask`; a band that can issue from no current batch chooses (R88, R182). -/
def State.formBatch (s : State) (b : Nat) (mask : W32) (age : Nat) : State := (s.enterBatch b mask age).rechoose b

/-- The oldest age among lanes (R89). -/
def State.oldestAge (s : State) (b : Nat) (mask : W32) : Nat :=
  match bitList mask with
  | [] => 0
  | l :: ls => ls.foldl (fun a l' => Nat.min a (s.fib (b * 32 + l')).age) (s.fib (b * 32 + l)).age

/-- Lanes of a band form one batch for each PC and mode among them, with the oldest age of its fibres (R87 to R89); then a
band that can issue from no current batch chooses among all (R182). -/
def State.formBatches (s : State) (b : Nat) (lanes : List Nat) : State :=
  ((groupByPc s b lanes).foldl (fun s g => s.enterBatch b g.2 (s.oldestAge b g.2)) s).rechoose b

/-- Ready fibres of a band that are in no batch, as those whose arrival a timer has withdrawn while a result of theirs is
pending, form batches: every Ready fibre is in one (R87). -/
def State.rebatch (s : State) (b : Nat) : State :=
  let out (l : Nat) : Bool :=
    let f := s.fib (b * 32 + l)
    (decide (f.status = .ready) || decide (f.status = .handler)) && !((s.band b).batches.any fun x => x.mask.getLsbD l)
  s.formBatches b ((List.range 32).filter out)

/-- Replaces the issued batch by one batch for each PC and mode among its fibres that are still issuable; a split, or a batch
that has none left, makes the band choose again (R87, R182). -/
def State.regroup (s : State) (b : Nat) : State :=
  let bd := s.band b
  match bd.batch bd.cur with
  | none => (s.setBand b bd.dropEmpty).choose b
  | some x =>
    let lanes := (bitList x.mask).filter fun l =>
      let f := s.fib (b * 32 + l)
      decide (f.status = .ready) || decide (f.status = .handler)
    match groupByPc s b lanes with
    | [] => (s.setBand b (Band.dropEmpty { bd with batches := bd.batches.filter fun y => y.id ≠ x.id })).choose b
    | [g] =>
      s.setBand b (Band.dropEmpty { bd with batches := bd.batches.map fun y =>
        if y.id = x.id then { y with mask := g.2 } else y })
    | gs =>
      let new := (List.range gs.length).zip gs |>.map fun p => (⟨bd.nextId + p.1, p.2.2, x.age, 0⟩ : Batch)
      (s.setBand b (Band.dropEmpty { bd with
        batches := (bd.batches.filter fun y => y.id ≠ x.id) ++ new, nextId := bd.nextId + gs.length })).choose b

/-- The engine's bookkeeping after an instruction: a band regroups its batch. -/
def State.settle (s : State) : State :=
  match s.focus with
  | .band b => s.regroup b
  | _ => s

/-- The next instruction of the focus engine is a switch point (R44). -/
def State.markSwitch (s : State) : State :=
  match s.focus with
  | .band b => s.updBand b fun bd => { bd with sp := true }
  | .mat q => s.updSeq (.mat q) fun m => { m with sp := true }
  | .cop c => s.updSeq (.cop c) fun m => { m with sp := true }

/-! ### Traps (R197 to R200) -/

def State.hasHandler (s : State) (k : Nat) : Bool := (s.wg (wgOf k)).ctrl.getLsbD 5

/-- Ends the launch on the fibre's or program's die (R200): the front end reports the first ending trap and discards
the launch's gangs when it completes the share (SHARE_COMPLETION). -/
def State.endLaunch (s : State) (share : Nat) (t : TrapEnd) : State :=
  if Map.has s.shares share then
    s.updShare share fun h => { h with trap := match h.trap with
      | some u => some u
      | none => some t }
  else s

/-- The PC that a trap saves (R199): for a late one, the region entry. -/
def Cause.pcOf (c : Cause) (f : Fibre) : W64 := if c.late then f.rentry else c.resume

/-- A fibre's ending trap as the completion record reports it (R200, R348). -/
def State.trapEndOf (s : State) (k : Nat) (c : Cause) : TrapEnd :=
  let core := (s.wg (wgOf k)).core
  { who := 0, code := c.code, quad := core / 4 % 40, core := core % 4, lane := laneOf k, inHandler := (s.fib k).handler,
    pc := c.pcOf (s.fib k), info := c.info, addr := c.addr }

/-- A request without a lane; `none` where no lane is left. -/
def RecReq.without (r : RecReq) (lane : Nat) : RecReq :=
  { r with lanes := r.lanes.filter fun x => x.1 ≠ lane, granted := r.granted.map fun l => l.filter fun x => x.1 ≠ lane }

/-- The runs that requests have been granted for a lane of a band, by their slots' first addresses. -/
def Proofer.grantsOf (p : Proofer) (band lane : Nat) : List Nat :=
  (p.reqs.filter fun r => decide (r.band = band)).flatMap fun r =>
    ((r.granted.getD []).filter fun x => x.1 = lane && x.2 ≠ 0).map (·.2)

/-- A lane of a band waits in no RALLOC any more: it leaves its request, and a run that has been granted to it and not been
delivered becomes Free. -/
def Proofer.withdraw (p : Proofer) (band lane : Nat) : Proofer :=
  let runs := (p.slots.filter fun x => (p.grantsOf band lane).contains x.addr).map (·.run)
  { p with
    slots := p.slots.filter fun x => !runs.contains x.run
    reqs := (p.reqs.map fun r => if r.band = band then r.without lane else r).filter fun r => !r.lanes.isEmpty }

/-- A fibre waits neither in a RALLOC nor in a TLBI any more: a closer that faults has had no effect for its lane (R201, log
entry 166). -/
def State.leaveWaits (s : State) (k : Nat) : State :=
  { s with
    stages := Map.upd s.stages (s.wg (wgOf k)).share fun p => p.withdraw (bandOf k) (laneOf k)
    invs := s.invs.filter fun i => i.fib ≠ some k }

/-- TakeTrap (R198). The fibre leaves its batch. A PageFault parks it at its region entry, and its band chooses again where
it was the last that could issue (R182); without a handler, or in
handler mode, the launch ends; otherwise the trap registers are written and the fibre enters its handler, in a batch
of its own with the age it had. Other due causes are discarded (R197). -/
def State.takeTrap (s : State) (k : Nat) (c : Cause) : State :=
  let f := s.fib k
  let s := (s.leaveBatch k).leaveWaits k
  if c.code = 0x05 then
    (s.setFib k { f with status := .parked, pc := f.rentry, parkVa := c.addr, served := none, due := [], latent := [] }).rechoose
      (bandOf k)
  else if f.handler || !s.hasHandler k then
    (s.setFib k { f with status := .exited, due := [], latent := [] }).endLaunch (s.wg (wgOf k)).share
      (s.trapEndOf k c)
  else
    let code := BitVec.ofNat 32 (c.code + (if c.late then 256 else 0) + (if c.pfu then 512 else 0))
    (s.setFib k { f with
      tcause := code, tinfo := c.info, taddr := c.addr, tregion := f.region,
      tpc := c.pcOf f,
      handler := true, status := .handler, pc := (s.share (s.wg (wgOf k)).share).handler,
      due := [], latent := [] }).formBatch (bandOf k) (1#32 <<< laneOf k) f.age

/-- Order in which due traps are taken (R197): decode faults, other precise faults, late faults, BarrierTimeout,
WatchdogTimeout. -/
def Cause.rank (c : Cause) : Nat :=
  if c.code = 0x01 then 0
  else if c.code = 0x0E then 4
  else if c.code = 0x0D then 3
  else if c.late then 2
  else 1

/-- The first due trap of R197: least rank, oldest first. -/
def firstCause : List Cause → Option Cause
  | [] => none
  | c :: cs =>
    match firstCause cs with
    | none => some c
    | some d => if d.rank < c.rank then some d else some c

/-- Takes the first due trap once no result is pending (R198). -/
def State.settleTrap (s : State) (k : Nat) : State :=
  let f := s.fib k
  match firstCause f.due with
  | none => s
  | some c => if f.pend.isEmpty then s.takeTrap k c else s

/-- A trap becomes due for a fibre, and is taken at once if nothing is pending (R198). -/
def State.raise (s : State) (k : Nat) (c : Cause) : State :=
  (s.updFib k fun f => { f with due := f.due ++ [c] }).settleTrap k

/-- A precise trap's cause at instruction `pc` (R199). -/
def precise (code : Nat) (info : W32) (addr pc : W64) : Cause :=
  { code := code, info := info, addr := addr, late := false, pfu := false, resume := pc }

def lateCause (code : Nat) (info : W32) (addr : W64) : Cause :=
  { code := code, info := info, addr := addr, late := true, pfu := false, resume := 0 }

/-- IllegalInstruction with a subcode, at `pc` (R47, R199). -/
def illegal (sub : Nat) (pc : W64) : Cause := precise 0x01 (BitVec.ofNat 32 sub) 0 pc

/-- A sequencer leaves its fork set (R17). -/
def State.leaveFork (s : State) (t : Thr) : State :=
  if !Map.has s.wgs (s.seq t).wg then s
  else s.updWg (s.seq t).wg fun w =>
    match t with
    | .mat _ => { w with forkM := false, rdvs := Map.mapVals (fun r => { r with mat := false }) w.rdvs }
    | .cop c => { w with forkC := w.forkC.filter (· ≠ c),
                         rdvs := Map.mapVals (fun r => { r with cops := r.cops.filter (· ≠ c) }) w.rdvs }
    | .fib _ => w

/-- A context whose program has ended is free once its operations are performed (R106, R256). -/
def State.settleCop (s : State) (c : Nat) : State :=
  let m := s.cop c
  if (m.st = .ending ∨ m.st = .stopped) ∧ (Map.getD s.ctxs c Ctx.reset).ops.isEmpty then s.setCop c { m with st := .free }
  else s

def State.mat (s : State) (q : Nat) : Mat := Map.getD s.mats q Mat.reset
def State.setMat (s : State) (q : Nat) (m : Mat) : State := { s with mats := Map.put s.mats q m }
def State.updMat (s : State) (q : Nat) (g : Mat → Mat) : State := s.setMat q (g (s.mat q))

/-- Releases every pin of a slot, which becomes Empty (R271, R272). Pins are named by quad and slot. -/
def State.emptySlot (s : State) (q slot : Nat) : State :=
  let x := Map.getD (s.mat q).slots slot TSlot.reset
  let s1 := x.pins.foldl (fun s ln => s.unpin ln (q, slot)) s
  s1.updMat q fun m => { m with slots := Map.del m.slots slot }

/-- A sequencer whose program has ended is free once its queue is performed and its pins are released (R106, R267). -/
def State.settleMat (s : State) (q : Nat) : State :=
  let m := s.mseq q
  if (m.st = .ending ∨ m.st = .stopped) ∧ (s.mat q).queue.isEmpty then
    let s1 := (List.range 8).foldl (fun s t => s.emptySlot q t) s
    let s2 := if m.st = .ending then s1.leaveFork (.mat q) else s1
    { s2.setMseq q { m with st := .free } with mats := Map.del s2.mats q }
  else s

/-- A matrix or copy program stops at a trap at `pc`: it leaves its fork set as EXIT does and the launch ends (R17,
R256, R267, R200). A matrix program's queued operations that have not begun are discarded; a fetch that has begun completes. -/
def State.stopProgram (s : State) (t : Thr) (c : Cause) (pc : W64) : State :=
  let m := s.seq t
  let s1 := (s.leaveFork t).setSeq t { m with st := .stopped, pend := [] }
  let (quad, e, x, who) := match t with
    | .mat q => (q % 40, 0, 0, 1)
    | .cop k => (0, k / 8 % 4, k % 8, 2)
    | .fib _ => (0, 0, 0, 0)
  let s2 := match t with
    | .mat q => ({ s1 with mats := Map.upd s1.mats q fun y => { y with queue := y.queue.filter MatOp.begun } }).settleMat q
    | .cop k => s1.settleCop k
    | .fib _ => s1
  s2.endLaunch (s.wg m.wg).share { who := who, code := c.code, quad := quad, core := e, lane := x, inHandler := false,
                                   pc := pc, info := c.info, addr := c.addr }

/-- A precise trap of any thread: of a fibre as `raise`; of a sequencer its program stops, and the reported PC is the
address of the instruction, of a TRAP too (DEDUCED, log entry 134). -/
def State.raiseThr (s : State) (t : Thr) (c : Cause) : State :=
  match t with
  | .fib k => s.raise k c
  | _ => s.stopProgram t c (s.pcOf t)

/-! ### Regions (R109, R201) -/

/-- CloseRegion: %region increments and the region entry is the fibre's next PC. -/
def State.closeRegion (s : State) (t : Thr) : State :=
  match t with
  | .fib k => s.updFib k fun f => { f with region := f.region + 1, rentry := f.pc }
  | _ => s

/-! ### Rejoins (R99 to R101) -/

def Band.j (b : Band) (n : Nat) : W32 := Map.getD b.jmask n 0
def Band.ja (b : Band) (n : Nat) : W64 := Map.getD b.jaddr n 0
def Band.jr (b : Band) (n : Nat) : W32 := Map.getD b.jarr n 0

/-- CheckRejoin (R100): when every member has arrived, the fibres continue at the rejoin address as one batch (of each
mode, R87), each in a new region there (R201); the mask and the arrived mask are cleared and the address kept. -/
def State.checkRejoin (s : State) (b n : Nat) : State :=
  let bd := s.band b
  let arr := bd.jr n
  if arr ≠ 0 ∧ bd.j n &&& ~~~ arr = 0 then
    let s := s.setBand b { bd with jmask := Map.put bd.jmask n 0, jarr := Map.put bd.jarr n 0, jcount := Map.del bd.jcount n }
    let s := (bitList arr).foldl (fun s l => s.updFib (b * 32 + l) fun f =>
      { f with status := .ready, waitOn := .nothing, pc := bd.ja n, region := f.region + 1, rentry := bd.ja n }) s
    s.formBatches b (bitList arr)
  else s

/-- CheckRejoin of every mask. -/
def State.checkRejoins (s : State) (b : Nat) : State :=
  (List.range 8).foldl (fun s n => s.checkRejoin b n) s

/-! ### V-class results (R46) -/

/-- Marks registers and predicates of a fibre pending, with the values that will arrive. Registers 0 and p7 take none
(R128, R41). -/
def State.pendFib (s : State) (k : Nat) (regs : List Nat) (vals : List W32) (preds : List Nat) (pvals : List Bool)
    (ready : Bool) : State :=
  let ps := (regs.zip vals).filter fun p => p.1 ≠ 0
  let qs := (preds.zip pvals).filter fun p => p.1 ≠ 7
  if ps.isEmpty && qs.isEmpty then s
  else
    { (s.updFib k fun f => { f with pend := f.pend ++
        [⟨s.nextId, ps.map (·.1), ps.map (·.2), qs.map (·.1), qs.map (·.2), ready⟩] })
      with nextId := s.nextId + 1 }

/-- SetPending and the arrival's value for one thread (R46). -/
def State.pend (s : State) (t : Thr) (regs : List Nat) (vals : List W32) (preds : List Nat) (pvals : List Bool)
    (ready : Bool) : State :=
  match t with
  | .fib k => s.pendFib k regs vals preds pvals ready
  | _ =>
    let ps := (regs.zip vals).filter fun p => p.1 ≠ 0
    if ps.isEmpty then s
    else
      { (s.updSeq t fun m => { m with pend := m.pend ++ [⟨s.nextId, ps.map (·.1), ps.map (·.2), [], [], ready⟩] })
        with nextId := s.nextId + 1 }

/-- Writes an arrived result (R46). -/
def State.writePend (s : State) (t : Thr) (p : Pend) : State :=
  let s := (p.regs.zip p.vals).foldl (fun s q => s.wx t q.1 q.2) s
  (p.preds.zip p.pvals).foldl (fun s q => s.wp t q.1 q.2) s

/-- One V-class x result, ready to arrive. -/
def State.arriveX (s : State) (t : Thr) (d : Nat) (v : W32) : State := s.pend t [d] [v] [] [] true

def State.arriveXP (s : State) (t : Thr) (d : Nat) (v : W64) : State :=
  if d = 0 then s else s.pend t [d, d + 1] [lo32 v, hi32 v] [] [] true

def State.arriveXQ (s : State) (t : Thr) (d : Nat) (v : List W32) : State :=
  if d = 0 then s else s.pend t [d, d + 1, d + 2, d + 3] v [] [] true

def State.arriveP (s : State) (t : Thr) (d : Nat) (b : Bool) : State := s.pend t [] [] [d] [b] true

/-! ### Issue over the batch -/

/-- Runs `g` for each active thread, in ascending lane order, moves every other thread of the batch past the
instruction, and regroups. `g` moves its own thread. -/
def State.forActive (s : State) (f : Fields) (len : Nat) (g : State → Thr → State) : State :=
  let act := s.active f
  let s1 := (s.threads.filter fun t => !s.guard f t).foldl (fun s t => s.adv t len) s
  (act.foldl g s1).settle

/-- A pure register instruction: every active thread's sources are read in the state before, then each writes its own
destination and moves on (R119). -/
def State.alu (s : State) (f : Fields) (len : Nat) (g : Thr → State → State) : Host.Outcome State Fault Refusal :=
  .next (s.forActive f len fun s' t => (g t s').adv t len)

end Sys2Proof.Machine
end

