-- ==== Sys2Proof/Machine/Barrier.lean ====
section
/-! DEFINITION. Barrier instances and rendezvous: domains, participants, arrivals (R13, R16, R110 to R116). -/

namespace Sys2Proof.Machine

/-- The workgroup's gang's quad (absolute) and die. -/
def State.wgQuad (s : State) (w : Nat) : Nat := (s.wg w).core / 4
def State.wgDie (s : State) (w : Nat) : Nat := (s.wg w).core / 160

/-- The key of a barrier's current instance: scope, and the domain it names for the band (R110, R13). -/
def State.barKey (s : State) (scope band : Nat) : Nat :=
  let w := band / 32
  let dom := match scope with
    | 0 => band
    | 1 => w
    | 2 => (s.wg w).gang
    | 3 => (s.wg w).share
    | _ => (s.wg w).share / 16
  scope + 8 * dom

/-- Whether a fibre is in the domain of a barrier key. Node workgroups take no part at .die or wider (R318). -/
def State.inDomain (s : State) (key k : Nat) : Bool :=
  decide (s.barKey (key % 8) (bandOf k) = key) && (decide (key % 8 < 3) || (s.wg (wgOf k)).node.isNone)

def State.bar (s : State) (key : Nat) : Bar := Map.getD s.bars key ⟨[], 0, []⟩

/-- Dies of other packages that take part in a launch's .pod barrier: those of its die group (R13); one without live
fibres of the launch reports at once (log entry 106). -/
def State.podPeers (s : State) (key : Nat) : List (Nat × Nat) :=
  if key % 8 ≠ 5 then []
  else match s.launches.find? fun p => p.1 / 16 = key / 8 with
    | none => []
    | some p => p.2.group.filter fun x => decide (x.1 ≠ s.fab.pkgid)

/-- Every die of another package that takes part has reported its fibres' arrival. -/
def State.peersIn (s : State) (key : Nat) : Bool := (s.podPeers key).all (s.bar key).peers.contains

/-- Live fibres of a barrier's domain that take part in its current instance (R13, R102). -/
def State.participants (s : State) (key : Nat) : List Nat :=
  (s.fibres.filter fun p => decide (p.2.status ≠ .exited) && s.inDomain key p.1
    && !((s.bar key).excl.contains p.1)).map (·.1)

def State.arrivedBar (s : State) (key : Nat) : List Nat :=
  (s.participants key).filter fun k => (s.fib k).waitOn = .barrier key

/-- Fibres of a workgroup that are live. -/
def State.liveFibs (s : State) (w : Nat) : List Nat :=
  (s.fibres.filter fun p => decide (wgOf p.1 = w) && decide (p.2.status ≠ .exited)).map (·.1)

def State.rdv (s : State) (w k : Nat) : Rdv := Map.getD (s.wg w).rdvs k ⟨false, [], [], 0⟩

def State.setRdv (s : State) (w k : Nat) (r : Rdv) : State :=
  s.updWg w fun g => { g with rdvs := Map.put g.rdvs k r }

/-- Fibres of the workgroup that must arrive at rendezvous k (R115, R102). -/
def State.rdvParties (s : State) (w k : Nat) : List Nat :=
  (s.liveFibs w).filter fun j => !((s.rdv w k).excl.contains j)

def State.rdvArrived (s : State) (w k : Nat) : List Nat :=
  (s.rdvParties w k).filter fun j => (s.fib j).waitOn = .rdv k

/-- Whether anything has arrived at rendezvous k. -/
def State.rdvAny (s : State) (w k : Nat) : Bool :=
  !(s.rdvArrived w k).isEmpty || (s.rdv w k).mat || !(s.rdv w k).cops.isEmpty

/-- A new fibre takes no part in an instance at which a participant, of this package or of another, has arrived (R102, R112). -/
def State.excludeNew (s : State) (k : Nat) : State :=
  let keys := (List.range 6).map fun sc => s.barKey sc (bandOf k)
  let s := keys.foldl (fun s key =>
    if (s.arrivedBar key).isEmpty && (s.bar key).peers.isEmpty then s
    else { s with bars := Map.put s.bars key { s.bar key with excl := insNat k (s.bar key).excl } }) s
  (List.range 16).foldl (fun s r =>
    if s.rdvAny (wgOf k) r then s.setRdv (wgOf k) r { s.rdv (wgOf k) r with excl := insNat k (s.rdv (wgOf k) r).excl }
    else s) s

/-- Releases waiting fibres: each continues at the successor of its own instruction, and those of one band at one PC
and in one mode form one batch (R111, R115, R87, R88). -/
def State.release (s : State) (ks : List Nat) : State :=
  let s1 := ks.foldl (fun s k => s.updFib k fun f => { f with status := .ready, waitOn := .nothing }) s
  let bands := ks.foldl (fun l k => insNat (bandOf k) l) []
  bands.foldl (fun s b => s.formBatches b ((ks.filter fun k => bandOf k = b).map laneOf)) s1

end Sys2Proof.Machine
end

