-- ==== Sys2Proof/Machine/Translate.lean ====
section
/-! DEFINITION. Translation (R358 to R372): permissions, walks, the caches of leaves, and what a physical address may
name. -/

namespace Sys2Proof.Machine

/-- What an access needs (R365). -/
inductive Acc where
  | fetch | read | write
deriving DecidableEq, Repr

/-- Why a translation does not give an address (R372). `wait` is no fault: a table entry's line waits at its home. -/
inductive TErr where
  | page
  | prot (code : Nat) (pfu : Bool)
  | ecc
  | wait
deriving DecidableEq, Repr

/-! ### Waiting at a home (R271, R403) -/

/-- What an access does at a home. -/
inductive Want where
  | read | write | atomic | fetch
deriving DecidableEq, Repr

def pageOf (ln : Nat) : Nat := ln / 64

/-- Whether a snoop's answer lets an access go on (R403): BISnpInv any, BISnpData a read. -/
def Snoop.lets (x : Snoop) (w : Want) : Bool :=
  match x with
  | .answered inv => inv || decide (w = .read ∨ w = .fetch)
  | .taken inv => inv || decide (w = .read ∨ w = .fetch)
  | _ => false

/-- Whether one line's own pins (R271) and bias (R403) let an access be performed at its home now. -/
def lineReady (s : State) (ln : Nat) (w : Want) : Bool :=
  let h := s.home ln
  let pinOk := match w with
    | .read => h.pins.isEmpty || h.held.isEmpty
    | .atomic => h.pins.isEmpty
    | _ => true
  pinOk && (match Map.getD s.mem.bias (pageOf ln) 0 with
    | 0 => true
    | 1 => h.snoop.lets w
    | _ => false)

/-- The lines of the scale bytes that a fill of a line reads at their homes (R80); none where the line is in its home. -/
def scaleLines (s : State) (ln : Nat) : List Nat :=
  if (s.home ln).l2.isSome then []
  else match regionAt s (64 * ln) with
    | none => []
    | some r => if isBlockFmt r.format then (blockIdx r ln).foldl (fun l j => insNat ((r.scale.toNat + j) / 64) l) [] else []

/-- Whether an access may be performed at the home now, with the reads that a fill of the line makes. -/
def homeReady (s : State) (ln : Nat) (w : Want) : Bool :=
  lineReady s ln w && (scaleLines s ln).all fun x => lineReady s x .read

/-- A write-back may be performed at the home now: a page that is being flushed holds none (R400, R404). -/
def wbReady (s : State) (ln : Nat) : Bool :=
  (decide (Map.getD s.mem.bias (pageOf ln) 0 = 2) || lineReady s ln .write) && (scaleLines s ln).all fun x => lineReady s x .read

/-- The home is ready for an agent's access, and it is the agent's turn. -/
def homeOpen (s : State) (agent ln : Nat) (w : Want) : Bool := homeReady s ln w && homeTurn s agent ln

/-- The home sends the snoop that an access to a host-biased line needs, BISnpData for a read and BISnpInv for any other
(R403); not where one is under way. -/
def lineAsk (s : State) (ln : Nat) (w : Want) : State :=
  let h := s.home ln
  let busy := match h.snoop with
    | .sent _ => true
    | _ => h.snoop.lets w
  if Map.getD s.mem.bias (pageOf ln) 0 = 1 ∧ !busy then s.setHome ln { h with snoop := .sent (decide (w ≠ .read ∧ w ≠ .fetch)) }
  else s

/-- The snoops that an access needs: of its line, and of those that its fill reads. -/
def homeAsk (s : State) (ln : Nat) (w : Want) : State := (scaleLines s ln).foldl (fun s x => lineAsk s x .read) (lineAsk s ln w)

/-- A line for which an access that waits has to ask, and what for. -/
abbrev Ask : Type := Option (Nat × Want)

def askFor (s : State) (l : Ask) : State :=
  match l with
  | some p => homeAsk s p.1 p.2
  | none => s

/-- An access uses up the answer to a line's snoop. -/
def lineUse (s : State) (ln : Nat) : State :=
  match (s.home ln).snoop with
  | .answered _ => s.setHome ln { s.home ln with snoop := .none }
  | _ => s

def homeUse (s : State) (ln : Nat) : State := (scaleLines s ln).foldl lineUse (lineUse s ln)

/-- A lane's access takes the answer, which the other lanes of its instruction at the line share: the core sends one request
for each line (R159). -/
def lineTake (s : State) (ln : Nat) : State :=
  match (s.home ln).snoop with
  | .answered inv => s.setHome ln { s.home ln with snoop := .taken inv }
  | _ => s

def homeTake (s : State) (ln : Nat) : State := (scaleLines s ln).foldl lineTake (lineTake s ln)

/-- The answers that the accesses of a step have taken are used up with it. -/
def dropTaken (s : State) : State :=
  (s.mem.home.filter fun p => decide (p.2.snoop = .taken true ∨ p.2.snoop = .taken false)).foldl
    (fun s p => s.setHome p.1 { p.2 with snoop := .none }) s

/-- A page in host bias: the line does not stay in an L1 (R403). -/
def hostBiased (s : State) (ln : Nat) : Bool := decide (Map.getD s.mem.bias (pageOf ln) 0 = 1)

/-! ### Addresses -/

def canonical (va : W64) : Bool := decide (va.extractLsb' 56 8 = 0) || decide (va.extractLsb' 56 8 = 0xFF#8)

/-- The bias table's range of a die while its tracking is on (R397). -/
def inBiasTable (s : State) (die pa : Nat) : Bool :=
  let r := Map.getD s.mem.biasReg die 0
  let base := (r.extractLsb' 21 31).toNat * 2 ^ 21
  r.getLsbD 0 && decide (base ≤ pa) && decide (pa < base + 2 ^ 21)

/-- Bytes of a workgroup's context image (R94). -/
def Wg.imageBytes (w : Wg) : Nat := 0x400 * (1 + w.nbands) + 128 * w.nbands * w.xregs

/-- An address inside a context image (R95). -/
def inImage (s : State) (pa : Nat) : Bool :=
  s.wgs.any fun p => decide (p.2.nbands ≠ 0) && decide (p.2.image.toNat ≤ pa) && decide (pa < p.2.image.toNat + p.2.imageBytes)

/-- An address inside a private memory block, which no virtual address maps (R158). -/
def inPrivate (s : State) (pa : Nat) : Bool :=
  s.wgs.any fun p => decide (p.2.priv.toNat ≤ pa)
    && decide (pa < p.2.priv.toNat + (s.share p.2.share).psize * p.2.nbands * 32)

/-- Base of an exported window (R29, R381). A package that has not set its window has that of reset (log entry 11). -/
def peerBase (w : Nat) : Nat :=
  match w with
  | 0 => 0
  | 1 => 0x8000000000
  | _ => 0x10000000000

/-- The fault code of a physical address formed on a die (R27, R29, R95, R158, R397, R366); none where it may be
accessed. What only the home can refuse (an image, a private block, a key slot) is a fault here where the home is this
die; another die's home refuses the packet (R309). -/
def paFault (s : State) (die pa key : Nat) : Option Nat :=
  match decodePa pa with
  | .hole => some 5
  | .peer pkg off =>
    if pkg = s.fab.pkgid then some 10
    else match decodePa (peerBase (Map.getD s.fab.peerWin pkg 0) + off) with
      | .hole => some 5
      | _ => none
  | .pool => none
  | .dev _ _ => none
  | _ =>
    if memDie pa ≠ some die then none
    else if inBiasTable s die pa then some 5
    else if inImage s pa then some 7
    else if inPrivate s pa then some 5
    else if !(keyLoaded s die key) then some 5
    else none

/-! ### Walks (R360 to R364) -/

def entAddr (e : Nat) : Nat := e / 4096 % 2 ^ 40 * 4096

/-- A table may lie at this address (R361, R397). -/
def tableOk (s : State) (die pa : Nat) : Bool := inTables die pa && !inBiasTable s die pa

/-- Malformed table entry: a bit set other than [51:12] and V, or a next table out of place (R362, R363). -/
def badTable (s : State) (die e : Nat) : Bool :=
  decide (e % 4096 ≠ 1) || decide (e / 2 ^ 52 ≠ 0) || !tableOk s die (entAddr e)

def sizeLg (code : Nat) : Nat :=
  match code with
  | 0 => 12
  | 1 => 16
  | 2 => 21
  | 3 => 25
  | 4 => 30
  | _ => 34

/-- The CMPS rule of R367 for a page: side forms inside the side-covered range of its home die, inline forms outside,
none compressed for a vault frame outside, and 7 reserved. -/
def badCmps (s : State) (cmps pa lg : Nat) : Bool :=
  let t := s.tu ((memDie pa).getD 0)
  let lo := t.cbase.toNat
  let hi := t.climit.toNat
  let inside := decide (lo ≤ pa) && decide (pa + 2 ^ lg ≤ hi)
  let outside := decide (hi ≤ pa) || decide (pa + 2 ^ lg ≤ lo) || decide (hi ≤ lo)
  if cmps = 0 then false
  else if cmps = 7 then true
  else if cmps % 2 = 1 then !outside || isVault pa
  else !inside

/-- The leaf of an entry at a level, or none where it is malformed (R362, R363). -/
def leafOf (s : State) (asid lvl va e : Nat) : Option Leaf :=
  let code := e / 512 % 8
  let lg := sizeLg code
  let pa := entAddr e / 2 ^ lg * 2 ^ lg
  let cmps := e / 2 ^ 58 % 8
  if e / 4 % 128 ≠ 0 ∨ lvl > 2 ∨ code / 2 ≠ lvl ∨ badCmps s cmps pa lg then none
  else some { asid := asid, va := va / 2 ^ lg * 2 ^ lg, lg := lg, pa := pa, x := e.testBit 63, w := e.testBit 62,
              u := e.testBit 61, key := e / 2 ^ 52 % 64, cmps := cmps }

def pushCap {α : Type} (cap : Nat) (l : List α) (x : α) : List α := (l ++ [x]).drop ((l ++ [x]).length - cap)

/-- A table entry: from the walker cache, or one 8-byte read at its L2 home (R363, R369). -/
def readEntry (s : State) (die asid lvl pfx a : Nat) : State × Except TErr Nat :=
  match (s.tu die).walk.find? fun w => decide (w.asid = asid ∧ w.lvl = lvl ∧ w.pfx = pfx) with
  | some w => (s, .ok w.ent)
  | none =>
    if homeReady s (a / 64) .read then
      match homeGet (homeUse s (a / 64)) a 8 0 0 with
      | some (s1, v) => (s1, .ok v)
      | none => (s, .error .ecc)
    else (homeAsk s (a / 64) .read, .error .wait)

def keepWalk (s : State) (die asid lvl pfx ent : Nat) : State :=
  let t := s.tu die
  if t.walk.any fun w => decide (w.asid = asid ∧ w.lvl = lvl ∧ w.pfx = pfx) then s
  else s.setTu die { t with walk := pushCap 512 t.walk ⟨asid, lvl, pfx, ent⟩ }

def unservable : TErr := .prot 9 true

/-- The levels of a walk below a table. -/
def walkLevels (die asid va : Nat) : List Nat → State → Nat → State × Except TErr Leaf
  | [], s, _ => (s, .error unservable)
  | lvl :: rest, s, table =>
    let pfx := va % 2 ^ 57 / 2 ^ (12 + 9 * lvl)
    match readEntry s die asid lvl pfx (table + 8 * (pfx % 512)) with
    | (s1, .error e) => (s1, .error e)
    | (s1, .ok e) =>
      if e % 2 = 0 then (s1, .error .page)
      else if e / 2 % 2 = 1 then
        match leafOf s1 asid lvl va e with
        | some l => (s1, .ok l)
        | none => (s1, .error unservable)
      else if lvl = 0 ∨ badTable s1 die e then (s1, .error unservable)
      else walkLevels die asid va rest (keepWalk s1 die asid lvl pfx e) (entAddr e)

/-- A walk (R363), from the address-space table (R360). -/
def walk (s : State) (die asid va : Nat) : State × Except TErr Leaf :=
  let a := (s.tu die).astab.toNat / 2 ^ 19 * 2 ^ 19 + 8 * asid
  if !tableOk s die a then (s, .error unservable)
  else match readEntry s die asid 5 0 a with
    | (s1, .error e) => (s1, .error e)
    | (s1, .ok e) =>
      if badTable s1 die e then (s1, .error unservable)
      else walkLevels die asid va [4, 3, 2, 1, 0] (keepWalk s1 die asid 5 0 e) (entAddr e)

/-! ### Clients (R159, R365, R369) -/

def Leaf.covers (l : Leaf) (asid va : Nat) : Bool :=
  decide (l.asid = asid) && decide (l.va ≤ va) && decide (va < l.va + 2 ^ l.lg)

/-- The fault code of an access through a leaf (R365): the user bit first. -/
def Leaf.denies (l : Leaf) (priv : Bool) (acc : Acc) : Option Nat :=
  if !priv && !l.u then some 3
  else match acc with
    | .fetch => if l.x then none else some 4
    | .read => if l.x && !l.w then some 2 else none
    | .write => if l.w then none else some 1

/-- Who asks: a lane of a core (band slot and lane), or an engine by the number of its TLB; a casement sector
keeps its own leaf (log entry 10). -/
inductive Client where
  | lane (core idx : Nat)
  | core (core : Nat)
  | eng (n : Nat)
  | bare
deriving DecidableEq, Repr

def tlbCopy (ce : Nat) : Nat := ce
def tlbTile (quad : Nat) : Nat := 1000 + quad
def tlbChan (die : Nat) : Nat := 2000 + die
def tlbFe (die : Nat) : Nat := 2100 + die

def State.core (s : State) (c : Nat) : Core := Map.getD s.cores c Core.reset
def State.setCore (s : State) (c : Nat) (x : Core) : State := { s with cores := Map.put s.cores c x }
def State.updCore (s : State) (c : Nat) (g : Core → Core) : State := s.setCore c (g (s.core c))

/-- The cached leaf a client would use. -/
def cachedLeaf (s : State) (c : Client) (asid va : Nat) (priv : Bool) (acc : Acc) : Option Leaf :=
  match c with
  | .lane k i =>
    let x := s.core k
    match Map.get x.lastPage i with
    | some l => if l.covers asid va && (l.denies priv acc).isNone then some l else x.tlb.find? fun l => l.covers asid va
    | none => x.tlb.find? fun l => l.covers asid va
  | .core k => (s.core k).tlb.find? fun l => l.covers asid va
  | .eng n => (Map.getD s.etlb n []).find? fun l => l.covers asid va
  | .bare => none

/-- Keeps a leaf: 256 entries in a core TLB, 64 in an engine's, the oldest dropped; a lane loads its register. -/
def keepLeaf (s : State) (c : Client) (l : Leaf) : State :=
  let add (cap : Nat) (t : List Leaf) : List Leaf := if t.contains l then t else pushCap cap t l
  match c with
  | .lane k i => s.updCore k fun x => { x with tlb := add 256 x.tlb, lastPage := Map.put x.lastPage i l }
  | .core k => s.updCore k fun x => { x with tlb := add 256 x.tlb }
  | .eng n => { s with etlb := Map.put s.etlb n (add 64 (Map.getD s.etlb n [])) }
  | .bare => s

/-- Translate (R52, R363, R365, R369, R372): the leaf and the physical address, or the fault. -/
def translate (s : State) (c : Client) (die asid : Nat) (priv : Bool) (va : W64) (acc : Acc) :
    State × Except TErr (Leaf × Nat) :=
  let v := va.toNat
  if !canonical va then (s, .error unservable)
  else
    let found : State × Except TErr Leaf :=
      match cachedLeaf s c asid v priv acc with
      | some l => (s, .ok l)
      | none => walk s die asid v
    match found with
    | (s1, .error e) => (s1, .error e)
    | (s1, .ok l) =>
      let s2 := keepLeaf s1 c l
      match l.denies priv acc with
      | some k => (s2, .error (.prot k false))
      | none =>
        let pa := l.pa + (v - l.va)
        match paFault s2 die pa l.key with
        | some k => (s2, .error (.prot k false))
        | none => (s2, .ok (l, pa))

/-- A local access: its home is the issuing die (R30). -/
def isLocal (die pa : Nat) : Bool := decide (memDie pa = some die)

def isDev (pa : Nat) : Bool :=
  match decodePa pa with
  | .dev _ _ => true
  | _ => false

/-- A walk's fault as the trap cause of a fibre's access at `va` (R199, R372). -/
def TErr.cause (e : TErr) (late : Bool) (va pc : W64) : Cause :=
  match e with
  | .page => { code := 0x05, info := 0, addr := va, late := late, pfu := false, resume := pc }
  | .prot k pfu => { code := 0x06, info := BitVec.ofNat 32 k, addr := va, late := late, pfu := pfu, resume := pc }
  | .ecc => { code := 0x13, info := 0, addr := va, late := late, pfu := false, resume := pc }
  | .wait => { code := 0x13, info := 0, addr := va, late := late, pfu := false, resume := pc }

/-- A page whose service has failed (R204). -/
def isUnserv (s : State) (die asid va : Nat) : Bool :=
  s.unserv.any fun u => decide (u.1 = die ∧ u.2.1 = asid ∧ va / 2 ^ u.2.2.2 = u.2.2.1 / 2 ^ u.2.2.2)

/-- Address space and privilege of a thread's launch. -/
def State.asidOf (s : State) (t : Thr) : Nat := (s.share (s.wg (s.wgOfThr t)).share).asid
def State.privOf (s : State) (t : Thr) : Bool := (s.wg (s.wgOfThr t)).ctrl.getLsbD 1

/-- Die, core and lane register of a fibre. -/
def State.fibDie (s : State) (k : Nat) : Nat := (s.band (bandOf k)).core / 160
def State.fibCore (s : State) (k : Nat) : Nat := (s.band (bandOf k)).core
def State.fibClient (s : State) (k : Nat) : Client :=
  let b := s.band (bandOf k)
  .lane b.core (b.slot * 32 + laneOf k)

def State.trFib (s : State) (k : Nat) (va : W64) (acc : Acc) : State × Except TErr (Leaf × Nat) :=
  translate s (s.fibClient k) (s.fibDie k) (s.asidOf (.fib k)) (s.privOf (.fib k)) va acc

end Sys2Proof.Machine
end

