-- ==== Sys2Proof/Machine/Coherence.lean ====
section
/-! DEFINITION. Lazy release consistency within a die (R163 to R170) and its word-granular part at the casement units
(R225 to R232, R234): write-backs, drains, releases, acquires, pushes. An answer `none` means that the operation must
wait. -/

namespace Sys2Proof.Machine

def agentCsm (quad : Nat) : Nat := 2560 + quad
def agentCopy : Nat := 3300
def agentChan : Nat := 3301
def agentHost : Nat := 3302
def agentFe : Nat := 3303

def State.csm (s : State) (g : Nat) : Casement := Map.getD s.csms g Casement.reset
def State.setCsm (s : State) (g : Nat) (c : Casement) : State := { s with csms := Map.put s.csms g c }
def State.updCsm (s : State) (g : Nat) (f : Casement → Casement) : State := s.setCsm g (f (s.csm g))

/-! ### The write-back order (R165) -/

/-- The least epoch bound at or above `w` such that no line dirtied below it has a later store at or above it. -/
def wbBound (tw : List (Nat × Nat)) : Nat → Nat → Nat
  | 0, w => w
  | n + 1, w =>
    let w' := tw.foldl (fun m p => if p.1 < w then max m p.2 else m) w
    if w' = w then w else wbBound tw n w'

/-! ### Sources (R164) -/

/-- Removes an agent's source after a write-back that carries its stores through epoch `w`. -/
def dropSource (s : State) (ln agent w : Nat) : State :=
  s.setHome ln { s.home ln with sources := (s.home ln).sources.filter fun p => !(decide (p.1 = agent) && decide (p.2 ≤ w)) }

/-- A late UncorrectableMemoryError of a fibre's earlier access (R180). -/
def reportLate (s : State) (k : Nat) (c : Cause) : State :=
  if (s.fib k).status = .exited then s else s.updFib k fun f => { f with latent := f.latent ++ [(0, c)] }

/-! ### Casement write-backs (R230, R420) -/

/-- A gang's address space, privilege and die. -/
def gangAsid (s : State) (g : Nat) : Nat := (s.share (s.gang g).share).asid
def gangPriv (s : State) (g : Nat) : Bool :=
  match (s.gang g).wgs with
  | w :: _ => (s.wg w).ctrl.getLsbD 1
  | [] => false
def gangDie (s : State) (g : Nat) : Nat := (s.gang g).quad / 40

def State.sector (s : State) (g sl k : Nat) : Sector :=
  match Map.get (s.csm g).slots sl with
  | some x => Map.getD x.sectors k Sector.reset
  | none => Sector.reset

def State.setSector (s : State) (g sl k : Nat) (x : Sector) : State :=
  s.updCsm g fun c => { c with slots := Map.upd c.slots sl fun t => { t with sectors := Map.put t.sectors k x } }

/-- Virtual address of a sector. -/
def sectorVa (s : State) (g sl k : Nat) : W64 :=
  match Map.get (s.csm g).slots sl with
  | some x => x.gbase + BitVec.ofNat 64 (64 * k)
  | none => 0

/-- Local bytes of a sector, as a line. -/
def sectorLine (s : State) (g sl k : Nat) : Line :=
  match Map.get (s.csm g).slots sl with
  | some x => BitVec.ofNat 512 (readCells (s.csm g).bytes (64 * (x.lofs + k)) 64)
  | none => 0

/-- Local bytes [o, o + n) read with their errors corrected, as corrected events of the quad; false where one is
uncorrectable (R32, R213). -/
def csmEcc (s : State) (g o n : Nat) : State × Bool :=
  ((List.range ((o + n + 15) / 16 - o / 16)).map (o / 16 + ·)).foldl (fun r cw =>
    match Map.get (r.1.csm g).bad cw with
    | none => r
    | some l =>
      match r.1.eccRead ((r.1.gang g).quad / 40 * 256 + (r.1.gang g).quad % 40) l with
      | some s1 => (s1.updCsm g fun c => { c with bad := Map.del c.bad cw }, r.2)
      | none => (r.1, false)) (s, true)

/-- The local bytes of a sector, read as `csmEcc` reads them. -/
def sectorEcc (s : State) (g sl k : Nat) : State × Bool :=
  match Map.get (s.csm g).slots sl with
  | some x => csmEcc s g (64 * (x.lofs + k)) 64
  | none => (s, true)

/-- Writes the bytes of a line under a mask into a sector's local bytes. -/
def putSector (s : State) (g sl k : Nat) (m : ByteMask) (l : Line) : State :=
  match Map.get (s.csm g).slots sl with
  | some x =>
    s.updCsm g fun c => { c with bytes := (List.range 64).foldl (fun b i =>
      if m.getLsbD i then writeCell b (64 * (x.lofs + k) + i) (l.extractLsb' (8 * i) 8) else b) c.bytes }
  | none => s

/-- The translation of a sector's page: the kept one, or a new one kept from now on (R221). A remote sector is an
engine's fault of its own, code 0 here; register space is no place for one (R28). -/
def sectorTr (s : State) (g sl k : Nat) (acc : Acc) : State × Except TErr (Leaf × Nat) :=
  let va := sectorVa s g sl k
  let x := s.sector g sl k
  let die := gangDie s g
  match x.tr with
  | some l =>
    match l.denies (gangPriv s g) acc with
    | some c => (s, .error (.prot c false))
    | none => (s, .ok (l, l.pa + (va.toNat - l.va)))
  | none =>
    match translate s .bare die (gangAsid s g) (gangPriv s g) va acc with
    | (s1, .error e) => (s1, .error e)
    | (s1, .ok (l, pa)) =>
      if isDev pa then (s1, .error (.prot 8 false))
      else if isLocal die pa then (s1.setSector g sl k { s1.sector g sl k with tr := some l, ln := pa / 64 }, .ok (l, pa))
      else (s1, .error (.prot 0 false))

/-- The fate of one casement write-back. -/
inductive WbRes where
  | ok | wait
  | fail (code : Nat) (pfu : Bool)
deriving DecidableEq, Repr

/-- Some gang on the quad holds dirty bytes of the line. -/
def lineDirty (s : State) (quad ln : Nat) : Bool :=
  s.csms.any fun p => decide ((s.gang p.1).quad = quad) && p.2.slots.any fun q => q.2.sectors.any fun x =>
    decide (x.2.ln = ln ∧ x.2.dirty ≠ 0)

/-- Writes back the dirty bytes of one sector: the words stay valid and become clean, and the unit's source is removed
(R230, R164) unless another of its sectors still holds dirty bytes of the line. A fault leaves the words dirty. -/
def csmWb (s : State) (g sl k : Nat) : State × WbRes :=
  let x := s.sector g sl k
  if x.dirty = 0 then (s, .ok)
  else match sectorTr s g sl k .write with
    | (s1, .error .page) =>
      if isUnserv s1 (gangDie s1 g) (gangAsid s1 g) (sectorVa s1 g sl k).toNat then (s1, .fail 9 true) else (s1, .wait)
    | (s1, .error .wait) => (s1, .wait)
    | (s1, .error .ecc) => (s1, .fail 0x13 false)
    | (s1, .error (.prot c p)) => (s1, .fail c p)
    | (s1, .ok (l, pa)) =>
      let quad := (s1.gang g).quad
      if !wbReady s1 (pa / 64) then (homeAsk s1 (pa / 64) .write, .wait)
      else if !(sectorEcc s1 g sl k).2 then (s1, .fail 0x13 false)
      else match homeWrite (homeUse (sectorEcc s1 g sl k).1 (pa / 64)) (agentCsm quad) (pa / 64) x.dirty (sectorLine s1 g sl k) l.key l.cmps with
      | none => (s1, .fail 0x13 false)
      | some s2 =>
        let y := s2.sector g sl k
        let s3 := s2.setSector g sl k { y with dirty := 0 }
        (if lineDirty s3 quad (pa / 64) then s3 else dropSource s3 (pa / 64) (agentCsm quad) x.w, .ok)

/-- The dirty sectors of a gang, as slot, sector, T and W. -/
def dirtySectors (c : Casement) : List (Nat × Nat × Nat × Nat) :=
  c.slots.flatMap fun p => (p.2.sectors.filter fun q => q.2.dirty ≠ 0).map fun q => (p.1, q.1, q.2.t, q.2.w)

/-- What is left of a write-back that failed and that no CSM.CLOSE or CSM.FLUSH carries: a translation fault is kept for the
next of these on the slot (R420); an uncorrectable error is reported to the storing fibre, and the words leave the sector (R213,
log entry 69). -/
def csmFailed (s : State) (g sl k code : Nat) (pfu : Bool) : State :=
  let x := s.sector g sl k
  if code = 0x13 then
    (reportLate s x.by' { code := 0x13, info := 0, addr := sectorVa s g sl k, late := true, pfu := false, resume := 0 }).setSector
      g sl k { x with dirty := 0, valid := x.valid &&& ~~~ wordsOf x.dirty, fresh := x.fresh &&& ~~~ wordsOf x.dirty }
  else s.setSector g sl k { x with err := some (code, pfu) }

/-- Write-backs that no CSM.CLOSE or CSM.FLUSH carries, of the listed sectors: one that must wait makes the whole wait. -/
def csmWbList (g : Nat) : List (Nat × Nat) → State → Option State
  | [], s => some s
  | (sl, k) :: l, s =>
    match csmWb s g sl k with
    | (_, .wait) => none
    | (s1, .ok) => csmWbList g l s1
    | (s1, .fail c p) => csmWbList g l (csmFailed s1 g sl k c p)

/-- The dirty sectors to write back before or with named ones: every sector of the gang with T below a bound, under the order
rule, which the named ones raise (R165, R230). -/
def csmOrder (s : State) (g e : Nat) (named : Nat × Nat → Bool) : List (Nat × Nat) :=
  let ds := dirtySectors (s.csm g)
  let w0 := (ds.filter fun d => named (d.1, d.2.1)).foldl (fun m d => max m d.2.2.2) e
  let b := wbBound (ds.map fun d => d.2.2) ds.length w0
  (ds.filter fun d => decide (d.2.2.1 < b) || named (d.1, d.2.1)).map fun d => (d.1, d.2.1)

/-- Writes back every sector of a gang with T below a bound, and those of a named line, under the order rule. -/
def csmDrain (s : State) (g e : Nat) (line : Option Nat) : Option State :=
  csmWbList g (csmOrder s g e fun d => decide (some (s.sector g d.1 d.2).ln = line)) s

/-- Writes back every dirty casement word of a gang. -/
def csmDrainAll (s : State) (g : Nat) : Option State :=
  csmWbList g ((dirtySectors (s.csm g)).map fun d => (d.1, d.2.1)) s

/-- Runs an operation that may have to wait over a list. -/
def forAll (f : State → Nat → Option State) : List Nat → State → Option State
  | [], s => some s
  | x :: l, s =>
    match f s x with
    | some s1 => forAll f l s1
    | none => none

/-- Gangs with casement state on a quad, and gangs with a workgroup on a core. -/
def gangsOnQuad (s : State) (quad : Nat) : List Nat :=
  (s.csms.filter fun p => decide ((s.gang p.1).quad = quad) && !p.2.slots.isEmpty).map (·.1)

def gangsOnCore (s : State) (c : Nat) : List Nat :=
  (s.csms.filter fun p => (s.gang p.1).wgs.any fun w => decide ((s.wg w).core = c)).map (·.1)

/-! ### Core write-backs and drains (R163 to R165) -/

/-- Writes a line's dirty bytes to the home; the line stays valid and clean. An uncorrectable error of the merge is
reported to the storing fibre, and the bytes leave the L1 (R180). -/
def coreWb (s : State) (c ln : Nat) : State :=
  match Map.get (s.core c).l1 ln with
  | none => s
  | some x =>
    if x.dirty = 0 then s
    else match homeWrite s c ln x.dirty x.data x.key x.cmps with
      | some s1 =>
        dropSource (s1.updCore c fun k => { k with l1 := Map.put k.l1 ln { x with dirty := 0, rel := none } }) ln c x.w
      | none =>
        reportLate (s.updCore c fun k => { k with l1 := Map.put k.l1 ln { x with dirty := 0, valid := x.valid &&& ~~~ x.dirty } })
          x.by' { code := 0x13, info := 0, addr := x.byVa, late := true, pfu := false, resume := 0 }

/-- The dirty non-private lines of a core, as line, T and W. -/
def dirtyLines (k : Core) : List (Nat × Nat × Nat) :=
  (k.l1.filter fun p => decide (p.2.dirty ≠ 0) && !p.2.priv).map fun p => (p.1, p.2.t, p.2.w)

def coreWbs (s : State) (c : Nat) (l : List Nat) : State := l.foldl (fun s ln => coreWb s c ln) s

/-- The lines to write back for those with T below a bound and the listed ones, under the order rule. -/
def drainList (s : State) (c e : Nat) (lines : List Nat) : List Nat :=
  let ds := dirtyLines (s.core c)
  let w0 := (ds.filter fun d => lines.contains d.1).foldl (fun m d => max m d.2.2) e
  let b := wbBound (ds.map (·.2)) ds.length w0
  (ds.filter fun d => decide (d.2.1 < b) || lines.contains d.1).map (·.1)

def coreDrainLines (s : State) (c e : Nat) (lines : List Nat) : State := coreWbs s c (drainList s c e lines)

/-- None of a core's write-backs has received RETRY (R169). A drain is part of the request that asks for it, and waits for
none. -/
def coreTurn (s : State) (c : Nat) (lines : List Nat) : Bool := lines.all (homeTurn s c)

/-- None of the write-backs of a gang's dirty sectors has received RETRY. -/
def csmTurn (s : State) (g : Nat) : Bool :=
  (dirtySectors (s.csm g)).all fun d => homeTurn s (agentCsm (s.gang g).quad) (s.sector g d.1 d.2.1).ln

/-- Every dirty non-private line. -/
def coreDrainAll (s : State) (c : Nat) : State := coreWbs s c ((dirtyLines (s.core c)).map (·.1))

/-- Drain of core c through epoch e for a line (R165), with the casement words of its gangs dirtied before the last
release (R230). -/
def drainCore (s : State) (c e ln : Nat) : Option State :=
  forAll (fun s g => csmDrain s g (s.csm g).ce none) (gangsOnCore s c) (coreDrainLines s c e [ln])

/-- Drain of the casement source (q, e): every gang with open slots on the quad (R230). -/
def drainCsm (s : State) (quad e ln : Nat) : Option State :=
  forAll (fun s g => csmDrain s g e (some ln)) (gangsOnQuad s quad) s

def drainAgent (s : State) (a e ln : Nat) : Option State :=
  if a < 2560 then drainCore s a e ln else drainCsm s (a - 2560) e ln

/-- Drains a list of (agent, epoch) pairs. -/
def drainPairs (ln : Nat) : List (Nat × Nat) → State → Option State
  | [], s => some s
  | (a, e) :: l, s =>
    match drainAgent s a e ln with
    | some s1 => drainPairs ln l s1
    | none => none

/-- Drains every source of a line but those of one agent (R167, R164). -/
def drainSources (s : State) (ln : Nat) (but : Option Nat) : Option State :=
  drainPairs ln ((s.home ln).sources.filter fun p => decide (some p.1 ≠ but)) s

/-- A source reaches the home (R164): it replaces the agent's, as the newest (log entry 155), or is added; a fifth makes the
home drain the oldest first. -/
def addSource (s : State) (ln a e : Nat) : Option State :=
  let h := s.home ln
  if h.sources.any fun p => p.1 = a then
    some (s.setHome ln { h with sources := (h.sources.filter fun p => p.1 ≠ a) ++ [(a, e)] })
  else if h.sources.length < 4 then some (s.setHome ln { h with sources := h.sources ++ [(a, e)] })
  else match h.sources with
    | [] => none
    | o :: _ =>
      match drainAgent s o.1 o.2 ln with
      | none => none
      | some s1 =>
        let h1 := s1.home ln
        some (s1.setHome ln { h1 with sources := (h1.sources.filter fun p => p.1 ≠ o.1) ++ [(a, e)] })

/-- The L2 evicts a line: first the home drains every source of it (R164). A pinned line is not evicted (R271). -/
def evictL2 (s : State) (ln : Nat) : Option State :=
  if (s.home ln).pins.isEmpty then (drainSources s ln none).map fun s1 => s1.dropL2 ln else none

/-- The draining release of R24 by a core: every dirty non-private line, and every dirty casement word of its gangs
(R230). EP is unchanged (R170). None while one of the write-backs has received RETRY (R169). -/
def drainRelease (s : State) (c : Nat) : Option State :=
  if coreTurn s c ((dirtyLines (s.core c)).map (·.1)) && (gangsOnCore s c).all (csmTurn s) then
    forAll csmDrainAll (gangsOnCore s c) (coreDrainAll s c)
  else none

/-! ### Halo pushes (R233, R234) -/

/-- The physical quad at a ring offset from a gang's quad, over the usable quads of its die (R19, R233). -/
def ringQuad (s : State) (g : Nat) (ofs : Int) : Nat :=
  let qs := (s.share (s.gang g).share).quads
  let me := qs.findIdx (· = (s.gang g).quad % 40)
  let n : Int := qs.length
  gangDie s g * 40 + qs.getD (((me : Int) + ofs) % n).toNat 0

/-- The signed ring offset of a role's entry (R20). -/
def ringOfs (s : State) (share role : Nat) : Int :=
  sext (Map.getD (s.share share).binding role 0 |>.extractLsb' 8 8 |>.toNat) 8

/-- The sectors [lo, lo + n) of a slot that have words to push are read with their errors corrected (R32). -/
def readFresh (s : State) (g sl lo n : Nat) : State :=
  (List.range n).foldl (fun s i =>
    let x := s.sector g sl (lo + i)
    if x.valid &&& x.fresh = 0 then s else (sectorEcc s g sl (lo + i)).1) s

/-- The words of sectors [lo, lo + n) of a slot that are valid and written since the last push, by index from `lo`; a sector
with an uncorrectable error sends none (R32). -/
def freshWords (s : State) (g sl lo n : Nat) : Map W32 :=
  (List.range n).flatMap fun i =>
    let x := s.sector g sl (lo + i)
    let l := sectorLine s g sl (lo + i)
    ((List.range 16).filter fun w => (x.valid &&& x.fresh).getLsbD w && (sectorEcc s g sl (lo + i)).2).map fun w => (16 * i + w, l.extractLsb' (32 * w) 32)

/-- The two messages of a push of one slot; those without words are not sent. -/
def pushMsgs (s : State) (g sl : Nat) (x : Slot) : List PushMsg :=
  let v := ringOfs s (s.gang g).share x.role
  let sh := (s.gang g).share
  let left := freshWords s g sl x.hw x.hw
  let right := freshWords s g sl (x.llen - 2 * x.hw) x.hw
  let lines (a : Nat) : Map Nat := (List.range x.hw).map fun i => (i, (s.sector g sl (a + i)).ln)
  (if left.isEmpty then [] else
    [⟨ringQuad s g (-v), sh, sl, x.hw, false, x.gbase.toNat + 64 * x.hw, left, lines x.hw⟩])
  ++ (if right.isEmpty then [] else
    [⟨ringQuad s g v, sh, sl, x.hw, true, x.gbase.toNat + 64 * (x.llen - 2 * x.hw), right, lines (x.llen - 2 * x.hw)⟩])

/-- Sends the pushes of one halo slot; its words are no longer fresh. -/
def pushSlot (s : State) (g sl : Nat) : State :=
  match Map.get (s.csm g).slots sl with
  | none => s
  | some x =>
    if x.mode ≠ 2 then s
    else
      let s := readFresh (readFresh s g sl x.hw x.hw) g sl (x.llen - 2 * x.hw) x.hw
      let ms := pushMsgs s g sl x
      s.updCsm g fun c => { c with
        out := c.out ++ ms
        slots := Map.put c.slots sl { x with sectors := Map.mapVals (fun y => { y with fresh := 0 }) x.sectors } }

/-- Pushes the halo slots named; none while a receiving unit has still to write or discard a message. -/
def pushSlots (s : State) (g : Nat) (sls : List Nat) : State := sls.foldl (fun s sl => pushSlot s g sl) s
def pushDone (s : State) (g : Nat) : Bool := (s.csm g).out.isEmpty
def slotsOf (s : State) (g : Nat) : List Nat := (s.csm g).slots.keys

/-! ### Releases (R166, R230) -/

/-- The cycle by which what an epoch before this increment dirtied is to be at its home; an earlier one stands. -/
def dueBy (old : Option Nat) (now : Nat) : Nat := old.getD (now + 65536)

/-- The next release epoch of a core; when it wraps, every dirty non-private line is first written back (R165), and what is
due is the release store still to come (R166). -/
def bumpEp (s : State) (c : Nat) : State :=
  if (s.core c).ep = 2 ^ 32 - 1 then (coreDrainAll s c).updCore c fun k => { k with ep := 0, drainBy := some (dueBy none s.cycle) }
  else s.updCore c fun k => { k with ep := k.ep + 1, drainBy := some (dueBy k.drainBy s.cycle) }

def bumpCe (s : State) (g : Nat) : Option State :=
  if (s.csm g).ce = 2 ^ 32 - 1 then (csmDrainAll s g).map fun s1 => s1.updCsm g fun c => { c with ce := 0, drainBy := some (dueBy none s.cycle) }
  else some (s.updCsm g fun c => { c with ce := c.ce + 1, drainBy := some (dueBy c.drainBy s.cycle) })

/-- The increment of a band's sync-interval number (R177). -/
def bumpSync (s : State) (b : Nat) : State := s.updBand b fun x => { x with sync := x.sync + 1 }

/-- A return that brings a pending result of a fibre. -/
def Ret.brings (k id : Nat) : Ret → Bool
  | .load fib i _ _ _ => decide (fib = k ∧ i = id)
  | .val fib i _ _ => decide (fib = k ∧ i = id)
  | .copy _ => false

/-- A pending result that no release waits for: the token of a copy batch (R258), or the response of an operation on a
channel other than ch0, on which plain remote accesses travel (R171, R175, R314). -/
def apartPend (s : State) (k id : Nat) : Bool :=
  (s.fib k).batches.any (fun b => b.sealed && decide (b.pend = id))
  || (s.chans.any fun c => decide (c.1 / 16 = wgOf k ∧ c.1 % 16 ≠ 0) && c.2.queue.any fun x => match x with
      | .pkt _ _ ret => ret.any (Ret.brings k id)
      | _ => false)
  || s.engs.any fun e => e.2.sent.any fun x => decide (x.chan % 16 ≠ 0) && x.ret.any (Ret.brings k id)

/-- Every earlier access of a fibre is performed: no load of it is still to be fixed (R155, R166). -/
def fibPerformed (s : State) (k : Nat) : Bool := (s.fib k).pend.all fun p => p.ready || apartPend s k p.id

/-- A release by fibres of band `b` at a scope (R166, R177, R230): the state to go on from, and whether the release is
complete; if not, the fibres wait. -/
def release' (s : State) (b scope : Nat) : State × Bool :=
  if scope < 2 then (s, true)
  else
    let w := b / 32
    let g := (s.wg w).gang
    let c := (s.band b).core
    let s1 := pushSlots s g (slotsOf s g)
    if !(pushDone s1 g) then (s1, false)
    else
      let r : Option State := do
        let s2 ← bumpCe (bumpEp s1 c) g
        if 4 ≤ scope then drainRelease s2 c else some s2
      match r with
      | some s3 => (bumpSync s3 b, true)
      | none => (s1, false)

/-- The background drain of a core: what was dirtied before its epoch, and the lines with a release store (R166); nothing
while one of them has received RETRY. -/
def coreBackground (s : State) (c : Nat) : State :=
  let k := s.core c
  let rels := (k.l1.filter fun p => match p.2.rel with
    | some e => decide (e ≤ k.ep)
    | none => false).map (·.1)
  if coreTurn s c (drainList s c k.ep rels) then (coreDrainLines s c k.ep rels).updCore c fun k => { k with drainBy := none } else s

/-- The background write-back of a gang's casement words (R230); nothing where it must wait. -/
def csmBackground (s : State) (g : Nat) : State :=
  match if csmTurn s g then csmDrain s g (s.csm g).ce none else none with
  | some s1 => s1.updCsm g fun c => { c with drainBy := none }
  | none => s

/-- What is due by a cycle is written back (R166, R230). -/
def dueDrains (s : State) (now : Nat) : State :=
  let due (x : Option Nat) : Bool := match x with
    | some n => decide (n ≤ now)
    | none => false
  let s1 := ((s.cores.filter fun p => due p.2.drainBy).map (·.1)).foldl coreBackground s
  ((s1.csms.filter fun p => due p.2.drainBy).map (·.1)).foldl csmBackground s1

/-! ### Acquires (R167, R168, R228, R232) -/

/-- Self-invalidation: clean non-private lines go, dirty ones keep only their dirty bytes valid. -/
def selfInvalidate (s : State) (c : Nat) : State :=
  s.updCore c fun k => { k with
    l1 := (k.l1.filter fun p => p.2.priv || decide (p.2.dirty ≠ 0)).map fun p =>
      if p.2.priv then p else (p.1, { p.2 with valid := p.2.dirty }) }

/-- Enters sources into an acquire debt of at most 16 agents: the pairs, and those that must be drained at once. -/
def enterDebt (me : Nat) (debt : List (Nat × Nat)) : List (Nat × Nat) → List (Nat × Nat) × List (Nat × Nat)
  | [] => (debt, [])
  | (a, e) :: l =>
    if a = me then enterDebt me debt l
    else if debt.any fun p => p.1 = a then
      enterDebt me (debt.map fun p => if p.1 = a then (a, max p.2 e) else p) l
    else if debt.length < 16 then enterDebt me (debt ++ [(a, e)]) l
    else
      let r := enterDebt me (debt.drop 1 ++ [(a, e)]) l
      (r.1, debt.take 1 ++ r.2)

/-- Sends drains at once: those that cannot be acknowledged now stay sent. -/
def sendDrains (ln : Nat) : List (Nat × Nat) → State → State × List (Nat × Nat)
  | [], s => (s, [])
  | p :: l, s =>
    match drainAgent s p.1 p.2 ln with
    | some s1 => sendDrains ln l s1
    | none => let r := sendDrains ln l s; (r.1, p :: r.2)

/-- A fill's sources enter a core's debt (R168). -/
def coreDebt (s : State) (c ln : Nat) : State :=
  let r := enterDebt c (s.core c).debt (s.home ln).sources
  let s1 := s.updCore c fun k => { k with debt := r.1 }
  let q := sendDrains ln r.2 s1
  q.1.updCore c fun k => { k with sent := k.sent ++ q.2 }

/-- A fill's sources enter a gang's debt (R232). -/
def csmDebt (s : State) (g ln : Nat) : State :=
  let r := enterDebt (agentCsm (s.gang g).quad) (s.csm g).debt (s.home ln).sources
  let s1 := s.updCsm g fun k => { k with debt := r.1 }
  let q := sendDrains ln r.2 s1
  q.1.updCsm g fun k => { k with sent := k.sent ++ q.2 }

/-- A notice at one gang: to the queue, or aside where the sector's refill is pending (R228, R229); an absent sector
discards it (R227). -/
def noticeGang (s : State) (n : Notice) (g : Nat) : State :=
  let c := s.csm g
  let hits := c.slots.flatMap fun p => (p.2.sectors.filter fun q => decide (q.2.ln = n.line)).map fun q => (p.1, q.1, q.2)
  hits.foldl (fun s h =>
    match h.2.2.refill with
    | some held => s.setSector g h.1 h.2.1 { s.sector g h.1 h.2.1 with refill := some (held ++ [n]) }
    | none => if h.2.2.valid = 0 then s else s.updCsm g fun c => { c with queue := c.queue ++ [n] }) s

/-- A quad's casement unit takes the oldest accepted notice to every open slot that maps the line (R227). -/
def takeNotice (s : State) (quad : Nat) : State :=
  match Map.getD s.mem.inbox quad [] with
  | [] => s
  | n :: l =>
    let s1 := s.updMem fun m => { m with inbox := if l.isEmpty then Map.del m.inbox quad else Map.put m.inbox quad l }
    (gangsOnQuad s1 quad).foldl (fun s g => noticeGang s n g) s1

def takeNotices : Nat → Nat → State → State
  | 0, _, s => s
  | n + 1, quad, s => takeNotices n quad (takeNotice s quad)

/-- Words of a mask that hold a dirty byte. -/
def dirtyWords (x : Sector) : BitVec 16 := wordsOf x.dirty

/-- Applies one queued notice: clean words of its mask become invalid (R228); the first touch of a sector that has become
absent translates anew (R221). -/
def applyNotice (g : Nat) (s : State) (n : Notice) : State :=
  s.updCsm g fun c => { c with slots := Map.mapVals (fun t => { t with sectors := Map.mapVals (fun x =>
    let v := x.valid &&& ~~~ (n.words &&& ~~~ dirtyWords x)
    if x.ln = n.line then { x with valid := v, tr := if v = 0 then none else x.tr } else x) t.sectors }) c.slots }

/-- A pending refill that the home reports as waiting behind held bytes (R228, R271). -/
def refillBehind (s : State) (x : Sector) : Bool := !(homeReady s x.ln .read) && !(s.home x.ln).pins.isEmpty

/-- A casement acquire of a gang (R228); with `whole` it drains the whole debt (R232). None while a refill is to be
answered first, or a drain must wait. -/
def csmAcquire (s : State) (g : Nat) (whole : Bool) : Option State :=
  let quad := (s.gang g).quad
  let s1 := takeNotices (Map.getD s.mem.inbox quad []).length quad s
  let pend := (s1.csm g).slots.flatMap fun p => (p.2.sectors.filter fun q => q.2.refill.isSome).map fun q => (p.1, q.1, q.2)
  if pend.any fun h => !(refillBehind s1 h.2.2) then none
  else
    let s2 := pend.foldl (fun s h =>
      (s.updCsm g fun c => { c with queue := c.queue ++ h.2.2.refill.getD [] }).setSector g h.1 h.2.1
        { s.sector g h.1 h.2.1 with refill := some [] }) s1
    let s3 := (s2.csm g).queue.foldl (applyNotice g) s2
    let s4 := s3.updCsm g fun c => { c with queue := [] }
    if whole then
      let c := s4.csm g
      (drainPairs 0 (c.sent ++ c.debt) s4).map fun s5 => s5.updCsm g fun c => { c with debt := [], sent := [] }
    else some s4

/-- A core drains its whole acquire debt and every drain already sent, then self-invalidates (R168). -/
def coreFenceAcquire (s : State) (c : Nat) : Option State :=
  let k := s.core c
  (drainPairs 0 (k.sent ++ k.debt) s).map fun s1 =>
    selfInvalidate (s1.updCore c fun k => { k with debt := [], sent := [] }) c

/-- The acquire of a fence, a barrier, a rendezvous or a resumption by fibres of workgroup `w` at a scope (R170, R171,
R228). Below .quad it does nothing beyond order. -/
def fenceAcquire (s : State) (w scope : Nat) : Option State :=
  if scope < 2 then some s
  else
    match coreFenceAcquire s (s.wg w).core with
    | none => none
    | some s1 => csmAcquire s1 (s.wg w).gang true

end Sys2Proof.Machine
end

