-- ==== Sys2Proof/Machine/RegCache.lean ====
section
/-! DEFINITION. The register cache of a core (R91, R94, R95): which register lines it holds, fills from the context image,
write-backs on eviction, and the slices whose lines are discarded. A fibre's `x` is what the cache, or the image where
the line is out, holds for it. -/

namespace Sys2Proof.Machine

/-! ### Register lines (R91, R94) -/

/-- Address of a register line in its workgroup's image (R94). -/
def regLineAddr (w : Wg) (band slice n : Nat) : Nat :=
  w.image.toNat + 0x400 * (1 + w.nbands) + ((band % 32 * 4 + slice) * w.xregs + n) * 32

/-- A register line's number: band, slice and register. -/
def regKey (band slice n : Nat) : Nat := (band * 4 + slice) * 128 + n

def keyBand (key : Nat) : Nat := key / 512
def keySlice (key : Nat) : Nat := key / 128 % 4
def keyReg (key : Nat) : Nat := key % 128

/-- The workgroup, and the address in its image, of a line. -/
def keyWg (s : State) (key : Nat) : Wg := s.wg (keyBand key / 32)
def keyAddr (s : State) (key : Nat) : Nat := regLineAddr (keyWg s key) (keyBand key) (keySlice key) (keyReg key)

/-- The eight fibres of a line. -/
def keyFibs (key : Nat) : List Nat := (List.range 8).map fun i => keyBand key * 32 + 8 * keySlice key + i

/-- A line's 32 bytes, lane *l* at byte 4 (*l* mod 8). -/
def regLineVal (s : State) (key : Nat) : Nat :=
  (keyFibs key).foldr (fun k a => (s.rx (.fib k) (keyReg key)).toNat + 2 ^ 32 * a) 0

/-- A slice with a live fibre. -/
def sliceLive (s : State) (band slice : Nat) : Bool :=
  (keyFibs (regKey band slice 0)).any fun k => decide ((s.fib k).status ≠ .exited)

/-- Whether the image, and not the cache, holds a line. -/
def Band.isOut (b : Band) (key : Nat) : Bool := b.out.contains (key % 512)

def State.setOut (s : State) (key : Nat) : State :=
  s.updBand (keyBand key) fun b => { b with out := insNat (key % 512) b.out }

def State.clearOut (s : State) (key : Nat) : State :=
  s.updBand (keyBand key) fun b => { b with out := b.out.filter (· ≠ key % 512) }

/-! ### Write-backs and fills (R95) -/

/-- Writes a line to the image. -/
def writeRegLine (s : State) (key : Nat) : State :=
  let c := (s.band (keyBand key)).core
  (homePut s c (keyAddr s key) 32 (regLineVal s key) (keyWg s key).kid 0).getD s

/-- A line leaves a core's cache; a dirty one is written back first. -/
def evictReg (s : State) (c key : Nat) : State :=
  match (s.core c).rlines.find? fun p => p.1 = key with
  | none => s
  | some p =>
    ((if p.2 then writeRegLine s key else s).setOut key).updCore c fun x =>
      { x with rlines := x.rlines.filter fun q => q.1 ≠ key }

/-- A register of a line's live fibres is lost. -/
def loseReg (s : State) (key : Nat) : State :=
  (keyFibs key).foldl (fun s k =>
    if (s.fib k).status = .exited then s else s.updFib k fun f => { f with lost := insNat (keyReg key) f.lost }) s

/-- A line comes from the image to its live fibres; where it cannot be read its register is lost. -/
def fillReg (s : State) (key : Nat) : State :=
  let s0 := s.clearOut key
  let pa := keyAddr s key
  match homeGet s0 pa 32 (keyWg s key).kid 0 with
  | none => loseReg s0 key
  | some (s1, v) =>
    (keyFibs key).foldl (fun s k =>
      if (s.fib k).status = .exited then s
      else s.updFib k fun f => { f with x := Map.put f.x (keyReg key) (BitVec.ofNat 32 (v / 2 ^ (32 * (k % 8)))) }) s1

/-- Register lines that a core's cache holds (R95). -/
def regCacheLines : Nat := 8192

/-- The line that leaves a full cache: a suspended gang's (R206), else the oldest (log entry 125). -/
def victimReg (s : State) (c : Nat) : Option Nat :=
  let l := (s.core c).rlines.map (·.1)
  match l.find? fun key => (s.gang (keyWg s key).gang).suspended with
  | some key => some key
  | none => l.head?

/-- A line is accessed: one that is not in the cache enters it, from the image where the image holds it, and another
leaves where there is no room. A line that has never left is in no image yet, and is dirty. -/
def bringReg (wr : Bool) (s : State) (key : Nat) : State :=
  let c := (s.band (keyBand key)).core
  match (s.core c).rlines.find? fun p => p.1 = key with
  | some p =>
    if wr && !p.2 then s.updCore c fun x => { x with rlines := x.rlines.map fun q => if q.1 = key then (key, true) else q }
    else s
  | none =>
    let s1 := if (s.core c).rlines.length < regCacheLines then s
      else match victimReg s c with
        | some v => evictReg s c v
        | none => s
    let out := (s1.band (keyBand key)).isOut key
    let s2 := if out then fillReg s1 key else s1
    s2.updCore c fun x => { x with rlines := x.rlines ++ [(key, wr || !out)] }

/-- Lines of some registers in the slices of some fibres. -/
def regKeys (ts : List Thr) (regs : List Nat) : List Nat :=
  let slices := ts.foldl (fun l t => match t with
    | .fib k => insNat (k / 8) l
    | _ => l) []
  slices.flatMap fun i => (regs.filter (· ≠ 0)).map fun n => i * 128 + n

/-- The registers that threads read and write are in the cache. -/
def bringRegs (s : State) (ts : List Thr) (rd wr : List Nat) : State :=
  (regKeys ts wr).foldl (bringReg true) ((regKeys ts rd).foldl (bringReg false) s)

/-! ### Slices and workgroups (R91, R94, R206) -/

/-- The lines of a slice that match go, without write-back. -/
def dropRegs (s : State) (band slice : Nat) : State :=
  let mine (key : Nat) : Bool := decide (key / 128 = band * 4 + slice)
  (s.updCore (s.band band).core fun x => { x with rlines := x.rlines.filter fun q => !mine q.1 }).updBand band fun b =>
    { b with out := b.out.filter fun o => decide (o / 128 ≠ slice) }

/-- The slice of an exited fibre: with its last live fibre its register lines are discarded (R91). -/
def endSlice (s : State) (k : Nat) : State :=
  let b := bandOf k
  let slice := laneOf k / 8
  if sliceLive s b slice then s
  else (keyFibs (regKey b slice 0)).foldl (fun s j => s.updFib j fun f => { f with x := [], lost := [], cfault := [], cherr := [] })
    (dropRegs s b slice)

/-- A new fibre's registers where the image holds their lines, and the lines in the cache are newer than the image (R91,
R102). -/
def imageFibre (s : State) (k : Nat) : State :=
  let b := bandOf k
  let slice := laneOf k / 8
  let s1 := ((s.band b).out.filter fun o => o / 128 = slice).foldl (fun s o =>
    let key := b * 512 + o
    (homePut s (s.band b).core (keyAddr s key + 4 * (k % 8)) 4 (s.rx (.fib k) (o % 128)).toNat (keyWg s key).kid 0).getD s) s
  s1.updCore (s1.band b).core fun x =>
    { x with rlines := x.rlines.map fun q => if q.1 / 128 = b * 4 + slice then (q.1, true) else q }

/-- A line is in its core's cache. -/
def resident (s : State) (key : Nat) : Bool := (s.core (s.band (keyBand key)).core).rlines.any fun q => q.1 = key

/-- A suspended band's register lines that have never been in the cache go to the image; those in the cache stay there until
room is needed (R206). -/
def saveRegs (s : State) (band : Nat) : State :=
  let n := (s.wg (band / 32)).xregs
  let keys := ((List.range 4).filter (sliceLive s band)).flatMap fun i => (List.range n).map fun r => regKey band i r
  (keys.filter fun key => !(s.band band).isOut key && !resident s key).foldl (fun s key => (writeRegLine s key).setOut key) s

/-- All of a band's register lines leave its core's cache (R207). -/
def flushRegs (s : State) (band : Nat) : State :=
  let c := (s.band band).core
  ((s.core c).rlines.filter fun q => keyBand q.1 = band).foldl (fun s q => evictReg s c q.1) s

/-- What arrives for a fibre of a suspended gang goes to the cache where it holds the line, else to the image (R206, R208). -/
def imageRegs (s : State) (k : Nat) (regs : List Nat) : State :=
  (regs.filter (· ≠ 0)).foldl (fun s n =>
    let key := k / 8 * 128 + n
    if resident s key then bringReg true s key
    else (homePut s (s.band (bandOf k)).core (keyAddr s key + 4 * (k % 8)) 4 (s.rx (.fib k) n).toNat (keyWg s key).kid 0).getD s) s

/-- The register lines of a suspended band move to an image elsewhere: `mv` moves the workgroup. -/
def moveRegs (s : State) (bands : List Nat) (mv : State → State) : State :=
  let keys := bands.flatMap fun b => (s.band b).out.map fun o => b * 512 + o
  let s1 := mv (keys.foldl fillReg s)
  keys.foldl (fun s key => (writeRegLine s key).setOut key) s1

end Sys2Proof.Machine
end

