-- ==== Sys2Proof/Machine/Chan.lean ====
section
/-! DEFINITION. The source side of the channel engines (R292 to R303): destination tables, sequence numbers, what is
accepted and what is sent, and the paths of the Transom (R377). -/

namespace Sys2Proof.Machine

def State.chan (s : State) (c : Nat) : Chan := Map.getD s.chans c Chan.reset
def State.setChan (s : State) (c : Nat) (x : Chan) : State := { s with chans := Map.put s.chans c x }
def State.updChan (s : State) (c : Nat) (g : Chan → Chan) : State := s.setChan c (g (s.chan c))
def State.eng (s : State) (d : Nat) : ChEng := Map.getD s.engs d ChEng.reset
def State.setEng (s : State) (d : Nat) (x : ChEng) : State := { s with engs := Map.put s.engs d x }
def State.updEng (s : State) (d : Nat) (g : ChEng → ChEng) : State := s.setEng d (g (s.eng d))
def State.updFab (s : State) (g : Fab → Fab) : State := { s with fab := g s.fab }
def State.fresh (s : State) : State := { s with nextId := s.nextId + 1 }

/-- Key of channel n of a workgroup; the workgroup and the die of a channel. -/
def chanKey (w n : Nat) : Nat := w * 16 + n
def chanWg (c : Nat) : Nat := c / 16
def chanDie (s : State) (c : Nat) : Nat := s.wgDie (chanWg c)

/-- The channel register (R292). -/
def Chan.reg (x : Chan) : W64 :=
  BitVec.ofNat 64 (x.epoch % 2 ^ 16 * 2 ^ 48 + x.outst % 2 ^ 16 * 2 ^ 32 + x.lastseq % 2 ^ 24 * 2 ^ 8 + x.ecode % 64 * 4
    + (if x.broken then 2 else 0) + (if x.opened then 1 else 0))

def ChItem.acc : ChItem → Nat
  | .pkt a _ _ => a
  | .copy a _ _ _ => a
  | .join a _ => a
  | .reset a => a
  | .close a => a
  | .brk a _ => a

/-- Resetting(c) (R297, R302). -/
def Chan.resetting (x : Chan) : Bool := x.queue.any fun i =>
  match i with
  | .reset _ => true
  | _ => false

def Chan.closing (x : Chan) : Bool := x.queue.any fun i =>
  match i with
  | .close _ => true
  | _ => false

/-- Operations on the channel raise ChannelClosed (R297, R302). -/
def Chan.refuses (x : Chan) : Bool := !x.opened || x.closing || (x.broken && !x.resetting)

def streamKey (s : State) (c : Nat) : StreamKey :=
  ⟨s.fab.pkgid, chanDie s c, (s.chan c).handle, (s.chan c).epoch⟩

/-! ### Paths (R375 to R377, R382) -/

def State.circ (s : State) (i : Nat) : Circ := Map.getD s.fab.circs i Circ.reset
def Circ.src (c : Circ) : Nat := (c.reg.extractLsb' 0 5).toNat
def Circ.dst (c : Circ) : Nat := (c.reg.extractLsb' 5 5).toNat
def Circ.gmask (c : Circ) : W32 := c.reg.extractLsb' 10 32
def Circ.bank (c : Circ) : Bool := c.reg.getLsbD 42
def Circ.st (c : Circ) : Nat := (c.reg.extractLsb' 45 3).toNat

/-- The first Up circuit between two sites. -/
def upCirc (s : State) (a b : Nat) : Option Nat :=
  (List.range 256).find? fun i => let c := s.circ i; decide (c.st = 2 ∧ c.src = a ∧ c.dst = b)

/-- The Transom site of a place: a die of this package, or the port complex. -/
def siteOf (s : State) (place : Nat) : Nat := if place < 65536 ∧ place / 16 = s.fab.pkgid then place % 16 else 16

def State.port (s : State) (p : Nat) : Port := Map.getD s.fab.ports p Port.reset
def Port.up (p : Port) : Bool := p.stat.getLsbD 32

/-- Entry of the route table for a place: packages first, then pool nodes (R382). -/
def routeIndex (place : Nat) : Nat := if place < 65536 then place / 16 else 4096 + (place - 65536)

/-- Ports of the route to a place that are up. -/
def routePorts (s : State) (place : Nat) : List Nat :=
  let e := Map.getD s.fab.routes (routeIndex place) 0
  if e.getLsbD 32 then (List.range 32).filter fun p => e.getLsbD p && (s.port p).up else []

/-- The reliable connection with the peer of a place. -/
def State.rc (s : State) (place : Nat) : Rc := Map.getD s.fab.rcs (routeIndex place) Rc.reset

/-- A connection is open, or may open (R384). -/
def rcOpen (s : State) (place : Nat) : Bool :=
  let r := s.rc place
  s.fab.rcSpill.getLsbD 0 || decide (r.next ≠ 0) || decide (r.cum ≠ 0) || !r.beyond.isEmpty

/-- A place inside the package, or one that the pool fabric reaches now (R382 to R384). -/
def routeUp (s : State) (place : Nat) : Bool :=
  (decide (place < 65536) && decide (place / 16 = s.fab.pkgid))
  || (rcOpen s place && !(s.rc place).failed && !(routePorts s place).isEmpty)

/-- A path between two places: direct, or through one relay die (R377); within one die none is needed. -/
def choosePath (s : State) (src dst : Nat) : Option (List Nat) :=
  let a := siteOf s src
  let b := siteOf s dst
  if !routeUp s dst then none
  else if a = b then some []
  else match upCirc s a b with
    | some i => some [i]
    | none => (List.range 16).findSome? fun r =>
      if s.fab.relay.getLsbD r ∧ r ≠ a ∧ r ≠ b then
        match upCirc s a r, upCirc s r b with
        | some i, some j => some [i, j]
        | _, _ => none
      else none

def diePlace (s : State) (d : Nat) : Nat := s.fab.pkgid * 16 + d

/-- Puts a message in flight. -/
def netSend (s : State) (src dst : Nat) (m : Msg) : State :=
  ({ s with fab := { s.fab with net := Map.put s.fab.net s.nextId ⟨src, dst, m, choosePath s src dst⟩ } }).fresh

/-- A message that waits for a path takes one that there is now; a packet's path is noted with it at its engine (R377,
R378). -/
def takePath (s : State) (n : Nat) : State :=
  match Map.get s.fab.net n with
  | none => s
  | some m =>
    match m.path, choosePath s m.src m.dst with
    | none, some p =>
      let s1 := s.updFab fun f => { f with net := Map.put f.net n { m with path := some p } }
      match m.msg with
      | .req q => if m.src = q.key.pkg * 16 + q.key.die ∧ q.key.pkg = s.fab.pkgid then
          s1.updEng q.key.die fun e => { e with sent := e.sent.map fun x =>
            if x.p.key = q.key ∧ x.p.seq = q.seq then { x with path := p } else x }
        else s1
      | _ => s1
    | _, _ => s

def takePaths (s : State) : State := s.fab.net.keys.foldl takePath s

/-- The place that homes a physical address (R29, R30). -/
def homePlace (s : State) (pa : Nat) : Nat :=
  match decodePa pa with
  | .hbm d => diePlace s d
  | .vault d => diePlace s d
  | .dev d _ => diePlace s d
  | .pool => 65536 + (pa / 2 ^ 40 % 2 ^ 11 - 16)
  | .peer pkg off =>
    match decodePa (peerBase (Map.getD s.fab.peerWin pkg 0) + off) with
    | .hbm d => pkg * 16 + d
    | .vault d => pkg * 16 + d
    | _ => pkg * 16
  | .hole => 0

/-! ### Destination tables (R294) -/

def Chan.dest (x : Chan) (d : Nat) : Option DestEnt := x.dests.find? fun e => e.dst = d

def Chan.updDest (x : Chan) (d : Nat) (g : DestEnt → DestEnt) : Chan :=
  { x with dests := x.dests.map fun e => if e.dst = d then g e else e }

/-- Least recently used entry. -/
def lruDest : List DestEnt → Option DestEnt
  | [] => none
  | e :: l =>
    match lruDest l with
    | none => some e
    | some f => if f.used < e.used then some f else some e

/-- Sends a stream release to a destination (R294). -/
def sendRelease (s : State) (c : Nat) (e : DestEnt) : State :=
  let k := streamKey s c
  (netSend s (diePlace s (chanDie s c)) e.dst (.release k e.prev)).updChan c fun x => { x with rels := x.rels ++ [(k, e.dst)] }

/-- Makes sure a destination has an entry: a free one is taken; in a full table the least recently used entry is
released once nothing of it is unacknowledged, and reused when the release is acknowledged. -/
def ensureDest (s : State) (c d : Nat) : State × Bool :=
  let x := s.chan c
  match x.dest d with
  | some e => (s, !e.rel)
  | none =>
    if x.dests.length < 8 then
      (s.setChan c { x with dests := x.dests ++ [⟨d, 0, true, 0, s.nextId, false⟩] }, true)
    else match lruDest x.dests with
      | none => (s, false)
      | some e =>
        if e.unack ≠ 0 ∨ e.rel then (s, false)
        else (sendRelease (s.updChan c fun x => x.updDest e.dst fun e => { e with rel := true }) c e, false)

def ensureDests (c : Nat) : List Nat → State → State × Bool
  | [], s => (s, true)
  | d :: l, s =>
    match ensureDest s c d with
    | (s1, true) => ensureDests c l s1
    | (s1, false) => (s1, false)

/-- Takes the next sequence number for destinations with entries: the number, and the link of each. -/
def takeSeq (s : State) (c : Nat) (ds : List Nat) : State × Nat × List ChainEnt :=
  let x := s.chan c
  let n := (x.lastseq + 1) % 2 ^ 24
  let links := ds.map fun d =>
    match x.dest d with
    | some e => (⟨d, e.fresh, if e.fresh then 0 else e.prev⟩ : ChainEnt)
    | none => ⟨d, true, 0⟩
  let x1 := ds.foldl (fun (x : Chan) d => x.updDest d fun e =>
    { e with prev := n, fresh := false, unack := e.unack + 1, used := s.nextId }) { x with lastseq := n }
  ((s.setChan c x1).fresh, n, links)

/-! ### Sending -/

/-- Sends one packet of a channel: it counts in OUTSTANDING and stays with the engine until it is acknowledged. -/
def launchPkt (s : State) (c acc : Nat) (p : Packet) (ret : List Ret) : State :=
  let die := chanDie s c
  let s1 := s.updChan c fun x => { x with outst := x.outst + 1 }
  let s2 := s1.updEng die fun e => { e with sent := e.sent ++ [⟨p, c, (s.share (s.wg (chanWg c)).share).asid, acc, ret, none, (choosePath s (diePlace s die) p.dst).getD []⟩] }
  netSend s2 (diePlace s2 die) p.dst (.req p)

/-- An item that performs something at a home; a CHJOIN, a reset and a close do not. -/
def ChItem.isOp : ChItem → Bool
  | .pkt _ _ _ => true
  | .copy _ _ _ _ => true
  | _ => false

/-- CHJOIN's condition (R303): every operation on `other` accepted before `acc` has been acknowledged. -/
def joinOk (s : State) (acc other : Nat) : Bool :=
  let e := s.eng (chanDie s other)
  (e.sent.all fun x => !(decide (x.chan = other) && decide (x.acc < acc)))
  && ((s.chan other).queue.all fun i => !(i.isOp && decide (i.acc < acc)))
  && (e.jobs.all fun j => !(decide (j.chan = other) && decide (j.acc < acc)))

/-- The channel breaks with an error code; the first code stays, later ones are counted (R309, R310). -/
def breakChan (s : State) (c code : Nat) : State :=
  if Map.has s.chans c then s.updChan c fun x =>
    if x.ecode = 0 then { x with ecode := code, broken := true } else { x with broken := true, errs := x.errs + 1 }
  else s

/-- Nothing of the channel is outstanding or reserved. -/
def chanIdle (s : State) (c : Nat) : Bool :=
  decide ((s.chan c).outst = 0) && (s.eng (chanDie s c)).jobs.all fun j => j.chan ≠ c

/-- Releases every stream of a channel. -/
def releaseAll (s : State) (c : Nat) : State :=
  (s.chan c).dests.foldl (fun s e => if e.fresh ∨ e.rel then s else sendRelease s c e) s

/-- Reserves the numbers of a copy's lines (R300, R301). -/
def reserve (c : Nat) (ds : List Nat) : Nat → State → State × List (Nat × List ChainEnt)
  | 0, s => (s, [])
  | n + 1, s =>
    let (s1, q, links) := takeSeq s c ds
    let r := reserve c ds n s1
    (r.1, (q, links) :: r.2)

/-- Takes the first item of a channel's queue if it can go now. -/
def pumpOne (s : State) (c : Nat) : State × Bool :=
  let x := s.chan c
  match x.queue with
  | [] => (s, false)
  | i :: rest =>
    let pop (s : State) : State := s.updChan c fun x => { x with queue := rest }
    match i with
    | .join acc other => if joinOk s acc other then (pop s, true) else (s, false)
    | .brk _ code => (breakChan (pop s) c code, true)
    | .reset _ =>
      if chanIdle s c then
        let s1 := releaseAll (pop s) c
        (s1.updChan c fun x => { x with epoch := (x.epoch + 1) % 2 ^ 16, lastseq := 0, ecode := 0, broken := false, dests := [] }, true)
      else (s, false)
    | .close _ =>
      if chanIdle s c then
        let s1 := releaseAll (pop s) c
        (s1.updChan c fun x => { x with opened := false, dests := [] }, true)
      else (s, false)
    | .pkt acc p ret =>
      if 65535 ≤ x.outst then (s, false)
      else match ensureDest s c p.dst with
        | (s1, false) => (s1, false)
        | (s1, true) =>
          let (s2, n, links) := takeSeq (pop s1) c [p.dst]
          let l := links.headD ⟨p.dst, true, 0⟩
          (launchPkt s2 c acc { p with key := streamKey s2 c, seq := n, prev := l.prev, first := l.first } ret, true)
    | .copy _ j ds lines =>
      match ensureDests c ds s with
      | (s1, false) => (s1, false)
      | (s1, true) =>
        let r := reserve c ds lines (pop s1)
        (r.1.updEng (chanDie r.1 c) fun e => { e with jobs := e.jobs ++ [{ j with resv := r.2 }] }, true)

/-- Sends what can be sent, in the order of acceptance (R298). -/
def pumpN (c : Nat) : Nat → State → State
  | 0, s => s
  | n + 1, s =>
    match pumpOne s c with
    | (s1, true) => pumpN c n s1
    | (s1, false) => s1

def pump (s : State) (c : Nat) : State := pumpN c ((s.chan c).queue.length + 1) s

/-- Pumps every channel of a die, after an event that may let a joined channel go on, and again as long as one has. -/
def pumpPass (die : Nat) : Nat → State → State
  | 0, s => s
  | n + 1, s =>
    let left (s : State) : Nat := s.chans.foldl (fun a p => a + p.2.queue.length) 0
    let s1 := s.chans.foldl (fun s p => if chanDie s p.1 = die then pump s p.1 else s) s
    if left s1 < left s then pumpPass die n s1 else s1

def pumpDie (s : State) (die : Nat) : State := pumpPass die (s.chans.foldl (fun a p => a + p.2.queue.length) 1) s

/-- Accepts items on a channel, in order, and sends what can be sent. -/
def acceptItems (s : State) (c : Nat) (l : List ChItem) : State :=
  pump (s.updChan c fun x => { x with queue := x.queue ++ l }) c

/-- The items of a queue that wait for room alone, behind no CHJOIN, reset or close: their issue stalls (R298). -/
def stalledItems : List ChItem → List ChItem
  | [] => []
  | i :: l => if i.isOp then i :: stalledItems l else []

/-- The issue of an operation of a fibre stalls: OUTSTANDING is full or its destination has no entry yet (R298). -/
def issueStalls (s : State) (k : Nat) : Bool :=
  s.chans.any fun c => decide (c.1 / 16 = wgOf k) && (stalledItems c.2.queue).any fun i => match i with
    | .pkt _ p _ => p.fibs.contains k
    | .copy _ j _ _ => decide (j.fib = k)
    | _ => false

/-! ### From lanes to packets (R297, R379) -/

/-- One lane's operation: where it goes, its translation, its data (a store's bytes or an operand, and CAS's new
value), and where its value goes. -/
structure LaneReq where
  fib : Nat
  pa : Nat
  n : Nat
  kid : Nat
  cmps : Nat
  va : W64
  pc : W64
  data : Nat
  a : W64
  b : W64
  id : Nat
deriving DecidableEq, Repr

/-- How many lanes of an atomic packet's kind fit (R379). -/
def packetLanes (cas w64 : Bool) : Nat := if cas then (if w64 then 12 else 24) else if w64 then 24 else 32

/-- Splits a list into pieces of `n`. -/
def chunks {α : Type} (n : Nat) : Nat → List α → List (List α)
  | 0, _ => []
  | f + 1, l => if l.isEmpty then [] else l.take n :: chunks n f (l.drop n)

/-- Groups of requests to one line, by the lowest lane (R297). -/
def byLine : List LaneReq → List (List LaneReq)
  | [] => []
  | r :: l =>
    let g := byLine l
    match g.find? fun x => (x.head?.map fun y => y.pa / 64) = some (r.pa / 64) with
    | some x => (r :: x) :: g.filter fun y => y ≠ x
    | none => [r] :: g

/-- The Peephole's number of a fibre's slice (R177). -/
def agent20 (s : State) (k : Nat) : Nat :=
  let b := s.band (bandOf k)
  b.core / 160 % 16 * 2 ^ 16 + b.core / 4 % 40 * 2 ^ 10 + b.core % 4 * 2 ^ 8 + b.slot % 64 * 4 + laneOf k / 8

/-- What one packet is made of. -/
def mkPacket (s : State) (pkop var : Nat) (w64 plain : Bool) (scope : Nat) (rs : List LaneReq) : Packet :=
  let r := rs.headD ⟨0, 0, 0, 0, 0, 0, 0, 0, 0, 0, 0⟩
  let off (x : LaneReq) : Nat := x.pa % 64
  { key := ⟨0, 0, 0, 0⟩, seq := 0, prev := 0, first := false, pkop := pkop, var := var, w64 := w64,
    pa := r.pa / 64 * 64, kid := r.kid, cmps := r.cmps, dst := homePlace s r.pa,
    mask := if pkop = 0 ∨ pkop = 1 then rs.foldl (fun (m : ByteMask) x => m ||| byteMask (off x) x.n) 0 else 0,
    data := if pkop = 0 then
        rs.foldl (fun (l : Line) x => mergeLine l (lineAt (off x) x.n x.data) (byteMask (off x) x.n)) 0
      else 0,
    lanes := if pkop = 0 ∨ pkop = 1 then [] else rs.map fun x => ⟨laneOf x.fib, off x, x.a, x.b⟩,
    chain := [], hop := 0, via := 0, err := 0, void := false, who := rs.map fun x => (off x, agent20 s x.fib),
    fibs := rs.map LaneReq.fib, scope := scope, plain := plain, va := r.va, pc := r.pc,
    launch := some ((s.wg (wgOf r.fib)).share / 16) }

/-- The packets of one instruction's lanes, with what becomes of their values (R297). `sx` extends a load's sign. -/
def mkPackets (s : State) (pkop var : Nat) (w64 sx plain : Bool) (scope : Nat) (rs : List LaneReq) : List ChItem :=
  (byLine rs).flatMap fun g =>
    let parts := if pkop = 0 ∨ pkop = 1 then [g] else chunks (packetLanes (decide (pkop = 4)) w64) g.length g
    parts.map fun part =>
      let ret := match pkop with
        | 1 => part.map fun x => Ret.load x.fib x.id (x.pa % 64) x.n sx
        | 2 => part.zipIdx.map fun y => Ret.val y.1.fib y.1.id y.2 w64
        | 4 => part.zipIdx.map fun y => Ret.val y.1.fib y.1.id y.2 w64
        | _ => []
      .pkt s.nextId (mkPacket s pkop var w64 plain scope part) ret

/-- Accepts one instruction's operations on a channel. -/
def chanIssue (s : State) (c pkop var : Nat) (w64 sx plain : Bool) (scope : Nat) (rs : List LaneReq) : State :=
  if rs.isEmpty then s else acceptItems s.fresh c (mkPackets s pkop var w64 sx plain scope rs)

/-- Roles a CMCAST names, four bits each, as its count says (R296). -/
def castRoles (body : Nat) : List Nat :=
  (List.range (body / 2 ^ 32 % 8 + 1)).map fun i => body / 2 ^ (4 * i) % 16

/-! ### Results that arrive later -/

/-- Marks destination registers pending for a value that a unit will deliver; gives the result's number (0 where
nothing is pending). -/
def pendLater (s : State) (t : Thr) (regs : List Nat) : State × Nat :=
  if regs.all (· = 0) then (s, 0) else (s.pend t regs (regs.map fun _ => 0) [] [] false, s.nextId)

/-- As `pendLater`, of an access with ACQ: the fibre's later accesses wait for it, also where it has no destination (R167,
R175, R297). -/
def pendAcq (s : State) (t : Thr) (regs : List Nat) (acq : Bool) : State × Nat :=
  if !acq then pendLater s t regs
  else
    let id := s.nextId
    let s1 := if regs.all (· = 0) then { s.updFib t.key fun f => { f with pend := f.pend ++ [⟨id, [], [], [], [], false⟩] } with
        nextId := id + 1 }
      else s.pend t regs (regs.map fun _ => 0) [] [] false
    (s1.updFib t.key fun f => { f with acq := f.acq ++ [id] }, id)

def findPend (s : State) (t : Thr) (id : Nat) : Option Pend :=
  (match t with
   | .fib k => (s.fib k).pend
   | _ => (s.seq t).pend).find? fun p => p.id = id

def removePend (s : State) (t : Thr) (id : Nat) : State :=
  match t with
  | .fib k => s.updFib k fun f => { f with pend := f.pend.filter fun p => p.id ≠ id }
  | _ => s.updSeq t fun m => { m with pend := m.pend.filter fun p => p.id ≠ id }

/-- Writes the registers of a result, `put`: in lines that a core's cache holds (R95), or for a suspended gang where the
cache or the image holds them (R206, R208). -/
def landRegs (s : State) (t : Thr) (regs : List Nat) (put : State → State) : State :=
  match t with
  | .fib k =>
    if (s.gang (s.wg (wgOf k)).gang).suspended then imageRegs (put s) k regs else put (bringRegs s [t] [] regs)
  | _ => put s

/-- Arrive: a result's value is written and its registers are no longer pending (R46). A result that was discarded is
no longer there. -/
def arriveNow (s : State) (t : Thr) (id v : Nat) : State :=
  match findPend s t id with
  | none => s
  | some p =>
    removePend (landRegs s t p.regs fun s =>
      p.regs.zipIdx.foldl (fun s q => s.wx t q.1 (BitVec.ofNat 32 (v / 2 ^ (32 * q.2)))) s) t id

end Sys2Proof.Machine
end

