-- ==== Sys2Proof/Machine/DevReg.lean ====
section
/-! DEFINITION. Device register space: what each register reads as, and what a fibre's store does (R28, R338, R418). A
register not listed reads zero and ignores writes (R5). -/

namespace Sys2Proof.Machine

def State.queue (s : State) (k : Nat) : Queue := Map.getD s.queues k Queue.reset
def State.setQueue (s : State) (k : Nat) (q : Queue) : State := { s with queues := Map.put s.queues k q }
def State.updQueue (s : State) (k : Nat) (g : Queue → Queue) : State := s.setQueue k (g (s.queue k))
def State.graph (s : State) (k : Nat) : Graph := Map.getD s.graphs k Graph.reset
def State.setGraph (s : State) (k : Nat) (g : Graph) : State := { s with graphs := Map.put s.graphs k g }
def State.updGraph (s : State) (k : Nat) (f : Graph → Graph) : State := s.setGraph k (f (s.graph k))
def State.fe (s : State) (d : Nat) : Fe := Map.getD s.fes d Fe.reset
def State.setFe (s : State) (d : Nat) (x : Fe) : State := { s with fes := Map.put s.fes d x }
def State.updFe (s : State) (d : Nat) (f : Fe → Fe) : State := s.setFe d (f (s.fe d))
def State.ld (s : State) (d : Nat) : Ld := Map.getD s.lds d Ld.reset
def State.setLd (s : State) (d : Nat) (x : Ld) : State := { s with lds := Map.put s.lds d x }
def State.updLd (s : State) (d : Nat) (f : Ld → Ld) : State := s.setLd d (f (s.ld d))
def State.updHost (s : State) (f : HostSt → HostSt) : State := { s with host := f s.host }
def State.answer (s : State) (a : Answer) : State := s.updHost fun h => { h with answers := h.answers ++ [a] }
def State.irq (s : State) (die vec : Nat) : State := { s with irqs := s.irqs ++ [(die, vec)] }

/-! ### Fields (R418) -/

/-- A store of n bytes at an offset in an 8-byte register covers bits [hi:lo] whole. -/
def covers (off n hi lo : Nat) : Bool :=
  decide (n = 8) || (if off % 8 = 0 then decide (hi < 32) else decide (32 ≤ lo))

/-- The stored data in its place in the register. -/
def regData (off n : Nat) (v : W64) : Nat := if n = 8 then v.toNat else v.toNat % 2 ^ 32 * 2 ^ (8 * (off % 8))

/-- Writes the fields, given as (hi, lo), that a store covers whole; the others keep their values. -/
def putFields (old : W64) (fields : List (Nat × Nat)) (off n : Nat) (v : W64) : W64 :=
  BitVec.ofNat 64 (fields.foldl (fun a p =>
    if covers off n p.1 p.2 then setBitsN a p.2 (p.1 + 1 - p.2) (bitsN (regData off n v) p.1 p.2) else a) old.toNat)

/-! ### Registers of a queue and a graph -/

/-- Fields of Q_CTL. -/
def qState (c : W64) : Nat := bitsN c.toNat 31 29
def qErr (c : W64) : Nat := bitsN c.toNat 47 40
def qAsid (c : W64) : Nat := bitsN c.toNat 63 48
def qPriv (c : W64) : Bool := c.getLsbD 9
def qUserDb (c : W64) : Bool := c.getLsbD 10
def qSize (c : W64) : Nat := bitsN c.toNat 8 4
def qPrio (c : W64) : Nat := bitsN c.toNat 2 1
def qEn (c : W64) : Bool := c.getLsbD 0
def setField (c : W64) (hi lo v : Nat) : W64 := BitVec.ofNat 64 (setBitsN c.toNat lo (hi + 1 - lo) v)
def qSetState (c : W64) (v : Nat) : W64 := setField c 31 29 v
def qSetErr (c : W64) (v : Nat) : W64 := setField c 47 40 v

/-- Fields of GR_CTL. -/
def grRun (c : W64) : Bool := c.getLsbD 2
def grLatch (c : W64) : Bool := c.getLsbD 3
def grArmed (c : W64) : Bool := c.getLsbD 1
def grRes (c : W64) : Bool := c.getLsbD 0
def grUserTrig (c : W64) : Bool := c.getLsbD 7
def grAsid (c : W64) : Nat := bitsN c.toNat 63 48
def grNodes (c : W64) : Nat := bitsN c.toNat 16 10 + 1
def grDropped (c : W64) : Nat := bitsN c.toNat 47 32

/-- A dropped trigger is counted, saturating. -/
def Graph.drop (g : Graph) : Graph := { g with stat := setField g.stat 47 32 (min (grDropped g.stat + 1) 65535) }

/-- A run starts at node 0 with its counters unset. -/
def Graph.start (g : Graph) : Graph := { g with ctl := setField g.ctl 2 2 1, node := 0, loops := [], wait := .none }

/-- A trigger (R354). -/
def Graph.trigger (g : Graph) : Graph :=
  if !(grRes g.ctl && grArmed g.ctl) then g.drop
  else if !grRun g.ctl then g.start
  else if !grLatch g.ctl then { g with ctl := setField g.ctl 3 3 1 }
  else g.drop

/-- A write of `Q_WIDX` (R339, R340, R351). -/
def Queue.setWidx (q : Queue) (v : W32) : Queue :=
  let st := qState q.ctl
  if st = 3 ∨ st = 0 ∨ !qEn q.ctl then q
  else if 2 ^ 31 ≤ (v - q.widx).toNat ∨ 2 ^ qSize q.ctl < (v - q.ridx).toNat then
    { q with ctl := qSetErr (qSetState q.ctl 4) 2 }
  else { q with widx := v, ctl := if st = 1 ∧ v ≠ q.ridx then qSetState q.ctl 2 else q.ctl }

/-- A write of `Q_WIDX` of a queue; entering Error interrupts the host (R396). -/
def State.writeWidx (s : State) (k : Nat) (v : W32) : State :=
  let q := s.queue k
  let s1 := s.updQueue k fun q => q.setWidx v
  if qErr q.ctl ≠ 2 ∧ qErr (s1.queue k).ctl = 2 then s1.irq (k / 64) 0 else s1

/-! ### Reads -/

/-- A register named by its offset, as kind and index. -/
inductive RegName where
  | q (i r : Nat)
  | gr (i r : Nat)
  | fe (r : Nat)
  | err (r : Nat)
  | frr (i r : Nat)
  | dbg
  | tu (r : Nat)
  | bias (r : Nat)
  | circ (i : Nat)
  | relay | px | rtIndex | rtData | rcSpill
  | rp (i : Nat)
  | time
  | pwrLimit | pwrStat
  | none
deriving DecidableEq, Repr

/-- The register at an offset of a die's window; the Transom and power registers are in die 0's. -/
def regName (die off : Nat) : RegName :=
  let o := off / 8 * 8
  if o < 0x1000 then (if o % 0x40 < 0x20 then .q (o / 0x40) (o % 0x40 / 8) else .none)
  else if 0x100000 ≤ o ∧ o < 0x100800 then (if o % 0x40 < 0x20 then .gr ((o - 0x100000) / 0x40) (o % 0x40 / 8) else .none)
  else if 0x200000 ≤ o ∧ o < 0x200028 then .fe ((o - 0x200000) / 8)
  else if 0x300000 ≤ o ∧ o < 0x300020 then .err ((o - 0x300000) / 8)
  else if 0x400000 ≤ o ∧ o < 0x400200 then .frr ((o - 0x400000) / 0x20) (o % 0x20 / 8)
  else if o = 0x500000 then .dbg
  else if 0x600000 ≤ o ∧ o < 0x600030 then .tu ((o - 0x600000) / 8)
  else if 0x700000 ≤ o ∧ o < 0x700018 then .bias ((o - 0x700000) / 8)
  else if die ≠ 0 then .none
  else if 0x800000 ≤ o ∧ o < 0x800800 then .circ ((o - 0x800000) / 8)
  else if o = 0x800800 then .relay
  else if o = 0x801000 then .px
  else if o = 0x801008 then .rtIndex
  else if o = 0x801010 then .rtData
  else if o = 0x801018 then .rcSpill
  else if 0x802000 ≤ o ∧ o < 0x802800 then (if o % 0x40 = 0 then .rp ((o - 0x802000) / 0x40) else .none)
  else if o = 0x803000 then .time
  else if o = 0xB00000 then .pwrLimit
  else if o = 0xB00008 then .pwrStat
  else .none

/-- Retired units of a die as `ERR_RETIRED` shows them (R356). -/
def retiredMask (s : State) (unit : Nat → Nat) (n : Nat) : W64 :=
  BitVec.ofNat 64 ((List.range n).foldl (fun a i => if (s.unit (unit i)).retired then a + 2 ^ i else a) 0)

/-- `FE_FEAT_CAP0`: every feature of R355. -/
def featCap0 : W64 := 0xFF

/-- An invalidation that `TU_INV` of a die started is in progress. -/
def tuBusy (s : State) (die : Nat) : Bool := s.invs.any fun i => decide (i.fib = none ∧ i.die = die) && !i.done

/-- A debugger's step has not issued yet (R209). -/
def dbgBusy (s : State) (die : Nat) : Bool := s.gangs.any fun g => decide (g.2.quad / 40 = die) && g.2.stepFib.isSome

/-- What a register reads as. -/
def regRead (s : State) (die : Nat) (r : RegName) : W64 :=
  match r with
  | .q i 0 => (s.queue (die * 64 + i)).base
  | .q i 1 => (s.queue (die * 64 + i)).ctl
  | .q i 2 => (s.queue (die * 64 + i)).widx.setWidth 64
  | .q i _ => (s.queue (die * 64 + i)).ridx.setWidth 64
  | .gr i 0 => (s.graph (die * 32 + i)).base
  | .gr i 1 => (s.graph (die * 32 + i)).ctl
  | .gr _ 2 => 0
  | .gr i _ => (s.graph (die * 32 + i)).stat
  | .fe 0 => BitVec.ofNat 64 (s.fe die).st
  | .fe 1 => featCap0
  | .fe 2 => 0
  | .fe 3 => (s.fe die).en0
  | .fe _ => (s.fe die).en1
  | .err 0 => retiredMask s (unitQuad die) 40
  | .err 1 => retiredMask s (unitSlice die) 40
  | .err 2 => retiredMask s (unitCopy die) 4
  | .err _ => retiredMask s (unitBank die) 64
  | .frr i 0 => (s.frr die i).ctl
  | .frr i 1 => (s.frr die i).base
  | .frr i 2 => (s.frr die i).limit
  | .frr i _ => (s.frr die i).scale
  | .dbg => if dbgBusy s die then Map.getD s.dbg die 0 ||| 0x8000000000000000 else Map.getD s.dbg die 0
  | .tu 0 => (s.tu die).astab
  | .tu 1 => (s.tu die).cbase
  | .tu 2 => (s.tu die).climit
  | .tu 3 => (s.tu die).side
  | .tu 4 => if tuBusy s die then (s.tu die).inv ||| 1 else (s.tu die).inv
  | .tu _ => (s.tu die).invva
  | .bias 0 => Map.getD s.mem.biasReg die 0
  | .bias 1 => (s.ld die).biasCmd
  | .bias _ => (s.ld die).peerMask
  | .circ i => (s.circ i).reg
  | .relay => s.fab.relay.setWidth 64
  | .px => BitVec.ofNat 64 (s.fab.expwin * 4096 + s.fab.pkgid)
  | .rtIndex => BitVec.ofNat 64 s.fab.rtIndex
  | .rtData => Map.getD s.fab.routes s.fab.rtIndex 0
  | .rcSpill => s.fab.rcSpill
  | .rp i => (s.port i).stat
  | .time => s.fab.timeCtl
  | .pwrLimit => BitVec.ofNat 64 s.host.limit
  | .pwrStat => BitVec.ofNat 64 (s.host.watts * 2 ^ 32 + s.host.mhz)
  | .none => 0

def devRead (s : State) (die off : Nat) : State × W64 := (s, regRead s die (regName die off))

/-! ### Fibres' stores (R338, R77, R209, R359, R374, R397) -/

/-- A fibre's store of n bytes: false where it raises ProtectionFault. -/
def devWrite (s : State) (die off n : Nat) (v : W64) : State × Bool :=
  match regName die off with
  | .q i 2 =>
    let k := die * 64 + i
    if !qUserDb (s.queue k).ctl then (s, false)
    else if covers off n 31 0 then (s.writeWidx k (v.setWidth 32), true)
    else (s, true)
  | .gr i 2 =>
    let k := die * 32 + i
    if !grUserTrig (s.graph k).ctl then (s, false) else (s.updGraph k Graph.trigger, true)
  | .none => (s, true)
  | _ => (s, false)

/-- Offsets of `Q_WIDX` and `GR_TRIG` (R338). -/
def doorbell (off : Nat) : Bool :=
  match regName 1 off with
  | .q _ 2 => true
  | .gr _ 2 => true
  | _ => false

/-- The draining release that a core's store performs first where it goes to a doorbell, of whatever die (R24, R170, R338). -/
def doorDrain (s : State) (core pa : Nat) : Option State :=
  match decodePa pa with
  | .dev _ off => if doorbell off then drainRelease s core else some s
  | _ => some s

end Sys2Proof.Machine
end

