-- ==== Sys2Proof/Machine/Transcend.lean ====
section
/-! DEFINITION. The transcendental functions of R136 and R137. FRCP and FSQRT are rounded once from an exact
quotient or root; the others are computed in fixed point with `fxBits` fraction bits, from which the two
representable values around the exact result are read off, and `Config.pickUpper` says which one the part returns
(log entry 1). -/

namespace Sys2Proof.Machine

/-- Fraction bits of the fixed-point working values. Every operand format has values down to 2^-149, and an even
function's distance from 1 falls to about 2^-300, so 700 bits leave the bracket undisturbed (log entry 2). -/
def fxBits : Nat := 700

/-- Floor of the square root, bit by bit from `2^n` down. -/
def isqrtAux (v : Nat) : Nat → Nat → Nat
  | 0, r => if (r + 1) * (r + 1) ≤ v then r + 1 else r
  | n + 1, r => let r' := r + 2 ^ (n + 1); isqrtAux v n (if r' * r' ≤ v then r' else r)

def isqrt (v : Nat) : Nat := isqrtAux v (bitLen v / 2 + 1) 0

/-! ### Fixed-point series (units of 2^-fxBits) -/

/-- Sum of x^k/k! from k on, `t` being the current term. -/
def expSeries (x : Nat) : Nat → Nat → Nat → Nat
  | 0, _, _ => 0
  | n + 1, k, t => t + expSeries x n (k + 1) (t * x / 2 ^ fxBits / (k + 1))

/-- e^x - 1 in fixed point, x in [0, 64). -/
def fxExpm1 (x : Nat) : Nat := expSeries x 480 1 x

/-- Odd series t + t^3/3 + t^5/5 ... : atanh for plus, atan for alternating signs. -/
def atanSeries (alt : Bool) (t2 : Nat) : Nat → Nat → Nat → Int
  | 0, _, _ => 0
  | n + 1, k, p =>
    (p / k : Nat) + (if alt then -1 else 1) * atanSeries alt t2 n (k + 2) (p * t2 / 2 ^ fxBits)

/-- 2 atanh(t) = ln((1+t)/(1-t)) for t in [0, 1/3]. -/
def fxTwoAtanh (t : Nat) : Nat := 2 * (atanSeries false (t * t / 2 ^ fxBits) 230 1 t).toNat

def fxAtanInv (k : Nat) : Int :=
  let t := 2 ^ fxBits / k
  atanSeries true (t * t / 2 ^ fxBits) 160 1 t

/-- ln 2 = 2 atanh(1/3). -/
def fxLn2 : Nat := fxTwoAtanh (2 ^ fxBits / 3)

/-- 2π by Machin's formula: π = 16 atan(1/5) - 4 atan(1/239). -/
def fxTwoPi : Nat := (2 * (16 * fxAtanInv 5 - 4 * fxAtanInv 239)).toNat

/-- Sum of (-1)^i x^(2i+1)/(2i+1)! -/
def sinSeries (x2 : Nat) : Nat → Nat → Nat → Int
  | 0, _, _ => 0
  | n + 1, k, t => (t : Int) - sinSeries x2 n (k + 2) (t * x2 / 2 ^ fxBits / ((k + 1) * (k + 2)))

/-- sin(2πr) for r in [0, 1/4]. -/
def fxSinTurn (r : Nat) : Nat :=
  let x := r * fxTwoPi / 2 ^ fxBits
  (sinSeries (x * x / 2 ^ fxBits) 100 1 x).toNat

/-- A fixed-point magnitude as a value known to lie just above its low end. -/
def fxVal (neg : Bool) (x : Nat) : FVal := .fin neg x (-(fxBits : Int)) true

/-! ### The functions -/

inductive TFun where
  | rcp | rsq | sqrt | exp2 | log2 | sin | cos | tanh
deriving DecidableEq, Repr

/-- 1/a: the quotient with at least 200 significant bits and its remainder as stickiness. -/
def valRcp (a : FVal) : FVal :=
  match a with
  | .nan => .nan
  | .inf n => .zero n
  | .fin n m e _ =>
    if m = 0 then .inf n
    else let k := 200 + bitLen m; .fin n (2 ^ k / m) (-(k : Int) - e) (2 ^ k % m != 0)

/-- √a (R137: -0 gives -0, a negative gives NaN). -/
def valSqrt (a : FVal) : FVal :=
  match a with
  | .nan => .nan
  | .inf n => if n then .nan else .inf false
  | .fin n m e _ =>
    if m = 0 then .zero n
    else if n then .nan
    else
      let (m, e) := if e % 2 = 0 then (m, e) else (2 * m, e - 1)
      let v := m * 2 ^ 400
      let r := isqrt v
      .fin false r (e / 2 - 200) (r * r != v)

/-- 1/√a (R137: ±0 give ±∞). -/
def valRsq (a : FVal) : FVal :=
  match a with
  | .nan => .nan
  | .inf n => if n then .nan else .zero false
  | .fin n m e _ =>
    if m = 0 then .inf n
    else if n then .nan
    else
      let (m, e) := if e % 2 = 0 then (m, e) else (2 * m, e - 1)
      let r := isqrt (2 ^ 600 / m)
      .fin false r (-(e / 2) - 300) (r * r * m != 2 ^ 600)

/-- The integer and fraction parts of a magnitude, the fraction in fixed point (exact: no operand has more than 149
fraction bits). -/
def splitInt (m : Nat) (e : Int) : Nat × Nat :=
  match e with
  | .ofNat k => (m * 2 ^ k, 0)
  | .negSucc k => (m / 2 ^ (k + 1), m % 2 ^ (k + 1) * 2 ^ fxBits / 2 ^ (k + 1))

/-- 2^a: exact at an integer a. Integers beyond ±2000 are past every format's range, and are cut there. -/
def valExp2 (a : FVal) : FVal :=
  match a with
  | .nan => .nan
  | .inf n => if n then .zero false else .inf false
  | .fin n m e _ =>
    if 12 < (bitLen m : Int) + e then (if n then .fin false 1 (-5000) true else .fin false 1 5000 false)
    else
    let (k, f) := splitInt m e
    if f = 0 then .fin false 1 (if n then -(k : Int) else k) false
    else
      -- for a negative a the exponent splits as -(k+1) plus the fraction 1 - f
      let (k', f') : Int × Nat := if n then (-(k : Int) - 1, 2 ^ fxBits - f) else (k, f)
      .fin false (2 ^ fxBits + fxExpm1 (f' * fxLn2 / 2 ^ fxBits)) (k' - fxBits) true

/-- log2 a: exact at a power of two. -/
def valLog2 (a : FVal) : FVal :=
  match a with
  | .nan => .nan
  | .inf n => if n then .nan else .inf false
  | .fin n m e _ =>
    if m = 0 then .inf true
    else if n then .nan
    else
      let L := bitLen m - 1
      let k : Int := e + L
      if m = 2 ^ L then .fin (decide (k < 0)) k.natAbs 0 false
      else
        -- a = 2^k * (1 + r), r in (0, 1); ln(1 + r) = 2 atanh(r / (2 + r))
        let t := (m - 2 ^ L) * 2 ^ fxBits / (m + 2 ^ L)
        let frac := fxTwoAtanh t * 2 ^ fxBits / fxLn2
        let v : Int := k * (2 ^ fxBits : Nat) + frac
        if v < 0 then fxVal true (v.natAbs - 1) else fxVal false v.natAbs

/-- sin(2πr) for a fraction of a turn r in [0, 1), as a value; exact at the quarter turns. -/
def valSinTurn (r : Nat) : FVal :=
  let q := 2 ^ (fxBits - 2)
  if r = 0 ∨ r = 2 * q then .zero false
  else if r = q then .fin false 1 0 false
  else if r = 3 * q then .fin true 1 0 false
  else
    let neg := decide (2 * q < r)
    let r1 := if neg then r - 2 * q else r
    fxVal neg (fxSinTurn (if q < r1 then 2 * q - r1 else r1))

/-- sin(2πa): odd; a zero takes the sign of a (R137). -/
def valSin (a : FVal) : FVal :=
  match a with
  | .nan => .nan
  | .inf _ => .nan
  | .fin n m e _ =>
    let (_, f) := splitInt m e
    match valSinTurn f with
    | .fin s m' e' st => .fin (if m' = 0 ∧ st = false then n else s != n) m' e' st
    | v => v

/-- cos(2πa) = sin(2π(|a| + 1/4)); its zeros are +0 (R137). -/
def valCos (a : FVal) : FVal :=
  match a with
  | .nan => .nan
  | .inf _ => .nan
  | .fin _ m e _ =>
    let (_, f) := splitInt m e
    valSinTurn ((f + 2 ^ (fxBits - 2)) % 2 ^ fxBits)

/-- tanh a. For type f32 a magnitude of 9.1 or more gives ±1 exactly (R137); from 32 on the exact result lies less
than 2^-90 below 1. -/
def valTanh (type : Nat) (a : FVal) : FVal :=
  match a with
  | .nan => .nan
  | .inf n => .fin n 1 0 false
  | .fin n m e _ =>
    if m = 0 then .zero n
    else if type = 0 ∧ cmpDy (10 * m) e 91 0 ≠ .lt then .fin n 1 0 false
    else if cmpDy m e 32 0 ≠ .lt then fxVal n (2 ^ fxBits - 1)
    else
      let (k, f) := splitInt m e
      let y := fxExpm1 (2 * (k * 2 ^ fxBits + f))
      fxVal n (y * 2 ^ fxBits / (y + 2 * 2 ^ fxBits))

def tval (fn : TFun) (type : Nat) (a : FVal) : FVal :=
  match fn with
  | .rcp => valRcp a
  | .rsq => valRsq a
  | .sqrt => valSqrt a
  | .exp2 => valExp2 a
  | .log2 => valLog2 a
  | .sin => valSin a
  | .cos => valCos a
  | .tanh => valTanh type a

/-- Opcode of each function, which names it to `Config.pickUpper`. -/
def TFun.op : TFun → Nat
  | .rcp => 0x38
  | .rsq => 0x39
  | .sqrt => 0x3A
  | .exp2 => 0x3B
  | .log2 => 0x3C
  | .sin => 0x3D
  | .cos => 0x3E
  | .tanh => 0x3F

/-- The result element of a transcendental (R136): FRCP and FSQRT correctly rounded; the others exact where the
result is representable, overflowing as under RNE, and otherwise one of the two representable values around it. -/
def transElem (fn : TFun) (type : Nat) (f : FloatFmt) (rm : Rm) (bits : Nat) : Nat :=
  let v := tval fn type (decFloat f bits)
  match fn with
  | .rcp => (encFloat f v rm false).1
  | .sqrt => (encFloat f v rm false).1
  | _ =>
    let near := (encFloat f v .rne false).1
    let lo := (encFloat f v .rz false).1
    let hi := (encFloat f v (match v with | .fin true _ _ _ => .rdn | _ => .rup) false).1
    if lo = hi ∨ f.maxCode < near % 2 ^ (f.ebits + f.mbits) then near
    else if Config.pickUpper fn.op type bits then hi else lo

end Sys2Proof.Machine
end

