-- ==== Sys2Proof/Machine/Flags.lean ====
section
/-! DEFINITION. Conditions and flags: the comparisons of CMP, CMP64 and FCMP (R125, R126, R133), and the conversion
flag that an encoding sets (R74). -/

namespace Sys2Proof.Machine

/-- The ten conditions of CMP and CMP64 on words of any width (R125). -/
def intCond (n : Nat) {w : Nat} (a b : BitVec w) : Bool :=
  match n with
  | 0 => decide (a = b)
  | 1 => decide (a ≠ b)
  | 2 => a.slt b
  | 3 => a.sle b
  | 4 => b.slt a
  | 5 => b.sle a
  | 6 => a.ult b
  | 7 => a.ule b
  | 8 => b.ult a
  | _ => b.ule a

/-- The eight conditions of FCMP (R133). -/
def floatCond (n : Nat) (a b : FVal) : Bool :=
  if a = .nan ∨ b = .nan then decide (n = 1 ∨ n = 6)
  else
    let c := a.cmp b
    match n with
    | 0 => decide (c = .eq)
    | 1 => decide (c ≠ .eq)
    | 2 => decide (c = .lt)
    | 3 => decide (c ≠ .gt)
    | 4 => decide (c = .gt)
    | 5 => decide (c ≠ .lt)
    | 6 => false
    | _ => true

/-- Sets the conversion flag where an encoding says so; nothing here clears it (R74). -/
def State.flagCvf (s : State) (t : Thr) (b : Bool) : State := if b then s.setCvf t else s

end Sys2Proof.Machine
end

