-- ==== Sys2Proof/Machine/Operands.lean ====
section
/-! DEFINITION. The operand forms of register instructions (R39, R121, R129): sources read in the state before the
instruction, and the ways a result is written. -/

namespace Sys2Proof.Machine

def srcA (f : Fields) (s : State) (t : Thr) : W32 := s.rx t f.a.toNat
def srcB (f : Fields) (s : State) (t : Thr) : W32 := s.rx t f.b.toNat
def srcC (f : Fields) (s : State) (t : Thr) : W32 := s.rx t f.c.toNat
def pairA (f : Fields) (s : State) (t : Thr) : W64 := s.rxp t f.a.toNat
def pairB (f : Fields) (s : State) (t : Thr) : W64 := s.rxp t f.b.toNat
def pairC (f : Fields) (s : State) (t : Thr) : W64 := s.rxp t f.c.toNat
/-- imm32 sign-extended to 64 bits (R39). -/
def imm64 (imm : W32) : W64 := imm.signExtend 64

/-- F-class result in x (m, g) register D. -/
def State.aluX (s : State) (f : Fields) (len : Nat) (v : Thr → W32) : Host.Outcome State Fault Refusal :=
  s.alu f len fun t s' => s'.wx t f.d.toNat (v t)

/-- F-class result in pair D. -/
def State.aluXP (s : State) (f : Fields) (len : Nat) (v : Thr → W64) : Host.Outcome State Fault Refusal :=
  s.alu f len fun t s' => s'.wxp t f.d.toNat (v t)

/-- Result in predicate D. -/
def State.aluP (s : State) (f : Fields) (len : Nat) (v : Thr → Bool) : Host.Outcome State Fault Refusal :=
  s.alu f len fun t s' => s'.wp t f.d.toNat (v t)

/-- V-class result in register D, pending until it arrives (R46). -/
def State.varX (s : State) (f : Fields) (len : Nat) (v : Thr → W32) : Host.Outcome State Fault Refusal :=
  s.alu f len fun t s' => s'.arriveX t f.d.toNat (v t)

/-- V-class result in predicate D. -/
def State.varP (s : State) (f : Fields) (len : Nat) (v : Thr → Bool) : Host.Outcome State Fault Refusal :=
  s.alu f len fun t s' => s'.arriveP t f.d.toNat (v t)

/-- MOD subfields (R38). -/
def typeOf (f : Fields) : Nat := f.md.toNat % 32
def rndOf (f : Fields) : Nat := f.md.toNat / 32 % 4
def satOf (f : Fields) : Bool := f.md.getLsbD 7
def scopeFld (f : Fields) : Nat := f.md.toNat / 256 % 8
def flagNA (f : Fields) : Bool := f.md.getLsbD 11
def flagAA (f : Fields) : Bool := f.md.getLsbD 12
def flagNB (f : Fields) : Bool := f.md.getLsbD 13
def flagAB (f : Fields) : Bool := f.md.getLsbD 14
def flagNC (f : Fields) : Bool := f.md.getLsbD 15
def flagACQ (f : Fields) : Bool := f.md.getLsbD 11
def flagREL (f : Fields) : Bool := f.md.getLsbD 12
def flagW64 (f : Fields) : Bool := f.md.getLsbD 13
def hintOf (f : Fields) : Nat := f.md.toNat / 0x4000

end Sys2Proof.Machine
end

