-- ==== Sys2Proof/Machine/Float.lean ====
section
/-! DEFINITION. Float arithmetic, comparison, classification, rounding, the transcendentals and FDOT2 (R129 to R138). -/

namespace Sys2Proof.Machine

/-- Element format of the float types f32, f16x2, bf16x2 (R129). -/
def typeFmt (ty : Nat) : FloatFmt :=
  match ty with
  | 0 => fmtF32
  | 1 => fmtF16
  | _ => fmtBF16

/-- Applies the absolute flag, then the negate flag, to element bits (R130). -/
def flagBits (f : FloatFmt) (abs neg : Bool) (bits : Nat) : Nat :=
  let sgn := 2 ^ (f.ebits + f.mbits)
  let b := if abs then bits % sgn else bits
  if neg then (if b / sgn % 2 = 1 then b - sgn else b + sgn) else b

/-- Computes an element function over one F32 element or two packed 16-bit elements (R130). -/
def mapElems (ty : Nat) (g : FloatFmt → Nat → Nat → Nat → Nat) (a b c : W32) : W32 :=
  match ty with
  | 0 => BitVec.ofNat 32 (g fmtF32 a.toNat b.toNat c.toNat)
  | _ =>
    let ft := typeFmt ty
    let lo := g ft (a.toNat % 65536) (b.toNat % 65536) (c.toNat % 65536)
    let hi := g ft (a.toNat / 65536) (b.toNat / 65536) (c.toNat / 65536)
    BitVec.ofNat 32 (hi * 65536 + lo)

inductive FArith where
  | add | sub | mul | fma
deriving DecidableEq, Repr

/-- One element of FADD, FSUB, FMUL or FFMA: the exact result rounded once (R131). -/
def arithElem (op : FArith) (f : Fields) (ft : FloatFmt) (a b c : Nat) : Nat :=
  let rm := rmOf (rndOf f)
  let va := decFloat ft (flagBits ft (flagAA f) (flagNA f) a)
  let vb := decFloat ft (flagBits ft (flagAB f) (flagNB f) b)
  let vc := decFloat ft (flagBits ft false (flagNC f) c)
  let v := match op with
    | .add => sumVals rm [va, vb]
    | .sub => sumVals rm [va, vb.neg]
    | .mul => va.mul vb
    | .fma => sumVals rm [va.mul vb, vc]
  (encFloat ft v rm (satOf f)).1

/-- FMIN and FMAX: the selected operand's bits after the flags (R132). -/
def minMaxBits (isMax : Bool) (ft : FloatFmt) (a b : Nat) : Nat :=
  let va := decFloat ft a
  let vb := decFloat ft b
  let zeroNeg (v : FVal) : Bool := match v with
    | .fin n 0 _ _ => n
    | _ => false
  let zeroPos (v : FVal) : Bool := match v with
    | .fin n 0 _ _ => !n
    | _ => false
  if va = .nan then (if vb = .nan then ft.nanCode.getD 0 else b)
  else if vb = .nan then a
  else
    let lt := decide (va.cmp vb = .lt) || (zeroNeg va && zeroPos vb)
    let gt := decide (va.cmp vb = .gt) || (zeroPos va && zeroNeg vb)
    if isMax then (if lt then b else a) else (if gt then b else a)

def minMaxElem (isMax : Bool) (f : Fields) (ft : FloatFmt) (a b _ : Nat) : Nat :=
  minMaxBits isMax ft (flagBits ft (flagAA f) (flagNA f) a) (flagBits ft (flagAB f) (flagNB f) b)

/-- The class bit of an element (R134). -/
def classBit (ft : FloatFmt) (bits : Nat) : Nat :=
  let neg := bits / 2 ^ (ft.ebits + ft.mbits) % 2 = 1
  let e := bits / 2 ^ ft.mbits % 2 ^ ft.ebits
  let fr := bits % 2 ^ ft.mbits
  if e = 2 ^ ft.ebits - 1 then
    (if fr = 0 then (if neg then 0 else 7) else if fr / 2 ^ (ft.mbits - 1) = 1 then 9 else 8)
  else if e = 0 then
    (if fr = 0 then (if neg then 3 else 4) else if neg then 2 else 5)
  else if neg then 1 else 6

def classWord (ty : Nat) (a : W32) : W32 :=
  match ty with
  | 0 => BitVec.ofNat 32 (2 ^ classBit fmtF32 a.toNat)
  | _ => BitVec.ofNat 32 (2 ^ classBit (typeFmt ty) (a.toNat % 65536)
                          + 2 ^ (16 + classBit (typeFmt ty) (a.toNat / 65536)))

/-- FRND of an element: an integral value in its own format; a zero keeps the operand's sign (R135). -/
def rndElem (f : Fields) (ft : FloatFmt) (a _ _ : Nat) : Nat :=
  let bits := flagBits ft (flagAA f) (flagNA f) a
  match decFloat ft bits with
  | .nan => ft.nanCode.getD 0
  | .inf _ => bits
  | .fin neg m e st =>
    if m = 0 ∨ 0 ≤ e then bits
    else
      let r := (roundInt neg m e st (rmOf (rndOf f))).natAbs
      (encFloat ft (.fin neg r 0 false) .rz false).1

def transOp (fn : TFun) (f : Fields) (ft : FloatFmt) (a _ _ : Nat) : Nat :=
  transElem fn (typeOf f) ft (rmOf (rndOf f)) (flagBits ft (flagAA f) (flagNA f) a)

/-- FDOT2 (R138). -/
def fdot2 (f : Fields) (a b c : W32) : W32 :=
  let ft := typeFmt (typeOf f)
  let rm := rmOf (rndOf f)
  let ea (x : Nat) := decFloat ft (flagBits ft (flagAA f) (flagNA f) x)
  let eb (x : Nat) := decFloat ft (flagBits ft (flagAB f) (flagNB f) x)
  let vc := decFloat fmtF32 (flagBits fmtF32 false (flagNC f) c.toNat)
  let v := sumVals rm [(ea (a.toNat % 65536)).mul (eb (b.toNat % 65536)),
                       (ea (a.toNat / 65536)).mul (eb (b.toNat / 65536)), vc]
  BitVec.ofNat 32 (encF32 v rm (satOf f))

/-! ### Meanings -/

def floatX (f : Fields) (s : State) (op : FArith) : Host.Outcome State Fault Refusal :=
  s.aluX f 0 fun t => mapElems (typeOf f) (arithElem op f) (srcA f s t) (srcB f s t) (srcC f s t)
def floatI (f : Fields) (imm : W32) (s : State) (op : FArith) : Host.Outcome State Fault Refusal :=
  s.aluX f 1 fun t => mapElems (typeOf f) (arithElem op f) (srcA f s t) imm (srcC f s t)
def elemX (f : Fields) (s : State) (g : FloatFmt → Nat → Nat → Nat → Nat) : Host.Outcome State Fault Refusal :=
  s.aluX f 0 fun t => mapElems (typeOf f) g (srcA f s t) (srcB f s t) 0
def elemI (f : Fields) (imm : W32) (s : State) (g : FloatFmt → Nat → Nat → Nat → Nat) :
    Host.Outcome State Fault Refusal :=
  s.aluX f 1 fun t => mapElems (typeOf f) g (srcA f s t) imm 0
/-- A transcendental's result is V-class (R136). -/
def transX (f : Fields) (s : State) (fn : TFun) : Host.Outcome State Fault Refusal :=
  s.varX f 0 fun t => mapElems (typeOf f) (transOp fn f) (srcA f s t) 0 0

def fcmpBits (f : Fields) (a b : W32) : Bool :=
  floatCond f.sub.toNat (decFloat fmtF32 (flagBits fmtF32 (flagAA f) (flagNA f) a.toNat))
    (decFloat fmtF32 (flagBits fmtF32 (flagAB f) (flagNB f) b.toNat))

def execFadd (f : Fields) (s : State) : Host.Outcome State Fault Refusal := floatX f s .add
def execFadd96 (f : Fields) (imm : W32) (s : State) : Host.Outcome State Fault Refusal := floatI f imm s .add
def execFsub (f : Fields) (s : State) : Host.Outcome State Fault Refusal := floatX f s .sub
def execFsub96 (f : Fields) (imm : W32) (s : State) : Host.Outcome State Fault Refusal := floatI f imm s .sub
def execFmul (f : Fields) (s : State) : Host.Outcome State Fault Refusal := floatX f s .mul
def execFmul96 (f : Fields) (imm : W32) (s : State) : Host.Outcome State Fault Refusal := floatI f imm s .mul
def execFfma (f : Fields) (s : State) : Host.Outcome State Fault Refusal := floatX f s .fma
def execFfma96 (f : Fields) (imm : W32) (s : State) : Host.Outcome State Fault Refusal := floatI f imm s .fma
def execFmin (f : Fields) (s : State) : Host.Outcome State Fault Refusal := elemX f s (minMaxElem false f)
def execFmin96 (f : Fields) (imm : W32) (s : State) : Host.Outcome State Fault Refusal :=
  elemI f imm s (minMaxElem false f)
def execFmax (f : Fields) (s : State) : Host.Outcome State Fault Refusal := elemX f s (minMaxElem true f)
def execFmax96 (f : Fields) (imm : W32) (s : State) : Host.Outcome State Fault Refusal :=
  elemI f imm s (minMaxElem true f)
def execFcmp (f : Fields) (s : State) : Host.Outcome State Fault Refusal :=
  s.aluP f 0 fun t => fcmpBits f (srcA f s t) (srcB f s t)
def execFcmp96 (f : Fields) (imm : W32) (s : State) : Host.Outcome State Fault Refusal :=
  s.aluP f 1 fun t => fcmpBits f (srcA f s t) imm
def execFclass (f : Fields) (s : State) : Host.Outcome State Fault Refusal :=
  s.aluX f 0 fun t => classWord (typeOf f) (srcA f s t)
def execFrcp (f : Fields) (s : State) : Host.Outcome State Fault Refusal := transX f s .rcp
def execFrsq (f : Fields) (s : State) : Host.Outcome State Fault Refusal := transX f s .rsq
def execFsqrt (f : Fields) (s : State) : Host.Outcome State Fault Refusal := transX f s .sqrt
def execFexp2 (f : Fields) (s : State) : Host.Outcome State Fault Refusal := transX f s .exp2
def execFlog2 (f : Fields) (s : State) : Host.Outcome State Fault Refusal := transX f s .log2
def execFsin (f : Fields) (s : State) : Host.Outcome State Fault Refusal := transX f s .sin
def execFcos (f : Fields) (s : State) : Host.Outcome State Fault Refusal := transX f s .cos
def execFtanh (f : Fields) (s : State) : Host.Outcome State Fault Refusal := transX f s .tanh
def execFrnd (f : Fields) (s : State) : Host.Outcome State Fault Refusal := elemX f s (rndElem f)
def execFdot2 (f : Fields) (s : State) : Host.Outcome State Fault Refusal :=
  s.aluX f 0 fun t => fdot2 f (srcA f s t) (srcB f s t) (srcC f s t)
def execFdot296 (f : Fields) (imm : W32) (s : State) : Host.Outcome State Fault Refusal :=
  s.aluX f 1 fun t => fdot2 f (srcA f s t) imm (srcC f s t)

end Sys2Proof.Machine
end

