-- ==== Sys2Proof/Machine/MemOps.lean ====
section
/-! DEFINITION. The shared operations of memory instructions: L1 access, atomics at the home, the Peephole, and the
frame of an instruction whose lanes may fault one by one (R155 to R180). -/

namespace Sys2Proof.Machine

/-! ### Sizes (R156) -/

def ldSize (sub : Nat) : Nat := [1, 1, 2, 2, 4, 8, 16].getD sub 1
def stSize (sub : Nat) : Nat := [1, 2, 4, 8, 16].getD sub 1

/-- Registers of a destination of `n` bytes. -/
def destRegs (d n : Nat) : List Nat :=
  if d = 0 then [] else if n ≤ 4 then [d] else if n = 8 then [d, d + 1] else [d, d + 1, d + 2, d + 3]

/-- A loaded value as LD's destination holds it: zero- or sign-extended (R157). -/
def extend (n : Nat) (sx : Bool) (v : Nat) : Nat := if sx then (sext v (8 * n) % (2 ^ 32 : Nat)).toNat else v

def signedLd (sub : Nat) : Bool := decide (sub = 1) || decide (sub = 3)

/-- Data of a store: register, pair or quad C, low bytes first. -/
def storeData (s : State) (t : Thr) (c n : Nat) : Nat :=
  let w := if c = 0 then [] else (s.rx t c) :: (if n = 8 then [s.rx t (c + 1)] else if n = 16 then
    [s.rx t (c + 1), s.rx t (c + 2), s.rx t (c + 3)] else [])
  w.foldr (fun x a => x.toNat + 2 ^ 32 * a) 0 % 2 ^ (8 * n)

/-- An atomic's operand: 32 or 64 bits (R161). -/
def atomOperand (s : State) (t : Thr) (r : Nat) (w64 : Bool) : W64 := if w64 then s.rxp t r else (s.rx t r).setWidth 64

/-! ### Atomic operations (R161) -/

def sgn (n v : Nat) : Int := sext v (8 * n)

/-- The new value at the home: `n` is 4 or 8, `o` the old value, `v` the operand. -/
def atomOp (sub n o v : Nat) : Nat :=
  let m := 2 ^ (8 * n)
  match sub with
  | 0 => (o + v) % m
  | 1 => if sgn n v < sgn n o then v else o
  | 2 => if sgn n o < sgn n v then v else o
  | 3 => if v < o then v else o
  | 4 => if o < v then v else o
  | 5 => Nat.land o v
  | 6 => Nat.lor o v
  | 7 => Nat.xor o v
  | 8 => v
  | 9 => if v ≤ o then 0 else o + 1
  | 10 => if o = 0 ∨ v < o then v else o - 1
  | 11 => encF32 (sumVals .rne [decF32 o, decF32 v]) .rne false
  | 12 =>
    let half (x y : Nat) : Nat := (encFloat fmtBF16 (sumVals .rne [decFloat fmtBF16 x, decFloat fmtBF16 y]) .rne false).1
    half (o % 65536) (v % 65536) + 65536 * half (o / 65536) (v / 65536)
  | 13 => minMaxBits false fmtF32 o v
  | _ => minMaxBits true fmtF32 o v

/-! ### The L1 of a core (R157, R163) -/

/-- Whose access it is: fibre, core, translation, whether private (R158), and the virtual address for a report. -/
structure L1Acc where
  fib : Nat
  core : Nat
  kid : Nat
  cmps : Nat
  priv : Bool
  va : W64
deriving DecidableEq, Repr

/-- Leaves the L1 copy of a line that was cached under another key id, written back under the order rule (R165). -/
def dropAliased (s : State) (c ln kid : Nat) : State :=
  match Map.get (s.core c).l1 ln with
  | some x =>
    if x.key = kid then s
    else (if x.priv then coreWb s c ln else coreDrainLines s c 0 [ln]).updCore c fun k => { k with l1 := Map.del k.l1 ln }
  | none => s

/-- Whether a load hits: every byte needed is valid. -/
def l1Hit (s : State) (c pa n kid : Nat) : Bool :=
  match Map.get (s.core c).l1 (pa / 64) with
  | some x => decide (x.key = kid) && decide (byteMask (pa % 64) n &&& ~~~ x.valid = 0)
  | none => false

/-- Fills a line into an L1: the fetched bytes go under the dirty mask, and the sources enter the acquire debt (R167,
R168). None on an uncorrectable error. -/
def l1Fill (s : State) (a : L1Acc) (ln : Nat) : Option State :=
  let s0 := dropAliased s a.core ln a.kid
  match homeRead (homeTake s0 ln) ln a.kid a.cmps with
  | none => none
  | some (s1, l) =>
    let old := Map.get (s1.core a.core).l1 ln
    let x : L1Line := match old with
      | some x => { x with data := mergeLine l x.data x.dirty, valid := BitVec.allOnes 64 }
      | none => { data := l, valid := BitVec.allOnes 64, dirty := 0, t := 0, w := 0, rel := none, priv := a.priv,
                  key := a.kid, cmps := a.cmps, by' := a.fib, byVa := a.va }
    let s2 := s1.updCore a.core fun k => { k with l1 := Map.put k.l1 ln x }
    some (if a.priv then s2 else coreDebt s2 a.core ln)

/-- The value of a load through L1, and the line's fill where it misses. A line of a host-biased page does not stay
(R403). -/
def l1Load (s : State) (a : L1Acc) (pa n : Nat) : Option (State × Nat) :=
  let ln := pa / 64
  if l1Hit s a.core pa n a.kid then
    match Map.get (s.core a.core).l1 ln with
    | some x => some (s, lineGet x.data (pa % 64) n)
    | none => none
  else if hostBiased s ln then
    (homeRead (homeTake s ln) ln a.kid a.cmps).map fun p => (p.1, lineGet p.2 (pa % 64) n)
  else
    match l1Fill s a ln with
    | none => none
    | some s1 =>
      match Map.get (s1.core a.core).l1 ln with
      | some x => some (s1, lineGet x.data (pa % 64) n)
      | none => none

def queueMsg (s : State) (m : OwnMsg) : State :=
  s.updMem fun x => { x with msgs := if x.msgs.contains m then x.msgs else x.msgs ++ [m] }

/-- A store into L1 (R163): the bytes become valid and dirty; a line that was clean sends an ownership request, a dirty
one last stored in an earlier epoch an epoch update. To a host-biased page the store is written through (R403). None
on an uncorrectable error at the home. -/
def l1Store (s : State) (a : L1Acc) (pa n v : Nat) (rel : Bool) : Option State :=
  let ln := pa / 64
  let m := byteMask (pa % 64) n
  let d := lineAt (pa % 64) n v
  if hostBiased s ln then homeWrite (homeTake s ln) a.core ln m d a.kid a.cmps
  else
    let s0 := dropAliased s a.core ln a.kid
    let k := s0.core a.core
    let relE (old : Option Nat) : Option Nat := if rel then some k.ep else old
    let put (s : State) (x : L1Line) : State := s.updCore a.core fun k => { k with l1 := Map.put k.l1 ln x }
    let msg (s : State) (upd : Bool) : State := if a.priv then s else queueMsg s ⟨a.core, ln, k.ep, upd⟩
    match Map.get k.l1 ln with
    | none =>
      some (msg (put s0 { data := d, valid := m, dirty := m, t := k.ep, w := k.ep, rel := relE none, priv := a.priv,
                          key := a.kid, cmps := a.cmps, by' := a.fib, byVa := a.va }) false)
    | some x =>
      let y := { x with data := mergeLine x.data d m, valid := x.valid ||| m, dirty := x.dirty ||| m, w := k.ep,
                        rel := relE x.rel, cmps := a.cmps, by' := a.fib, byVa := a.va }
      if x.dirty = 0 then some (msg (put s0 { y with t := k.ep }) false)
      else if x.w < k.ep then some (msg (put s0 y) true)
      else some (put s0 y)

/-- A store may go to L1 now: also to a page whose flush has not reached its L1 yet (R404). -/
def storeReady (s : State) (ln : Nat) : Bool :=
  homeReady s ln .write || (match (s.ld (lineDie ln)).flip with
    | some f => decide (f.page = pageOf ln ∧ f.toHost = true ∧ f.step = 0)
    | none => false)

/-! ### Acquires and atomics at the home (R161, R167) -/

/-- A load performed at the home as an acquire at .quad or wider: every source but the acquirer is drained, and the
acquirer's own dirty bytes go over the home's. `none`: wait, also for what a drain has written to a pinned line (R271, R285);
an inner `none`: uncorrectable. -/
def acqLoad (s : State) (a : L1Acc) (pa n : Nat) : Option (State × Option Nat) :=
  let ln := pa / 64
  match drainSources (homeTake s ln) ln (some a.core) with
  | none => none
  | some s1 =>
    if !homeReady s1 ln .read then none
    else match homeRead s1 ln a.kid a.cmps with
    | none => some (s1, none)
    | some (s2, l) =>
      let l' := match Map.get (s2.core a.core).l1 ln with
        | some x => mergeLine l x.data x.dirty
        | none => l
      some (homeServed s2 a.core ln, some (lineGet l' (pa % 64) n))

/-- A read-modify-write at the home: the old value. None on an uncorrectable error. -/
def homeAtomic (s : State) (agent pa n kid cmps : Nat) (g : Nat → Option Nat) : Option (State × Nat) :=
  match homeGet s pa n kid cmps with
  | none => none
  | some (s1, o) =>
    match g o with
    | none => some (s1, o)
    | some v => (homePut s1 agent pa n v kid cmps).map fun s2 => (s2, o)

/-- An atomic of a core: its dirty bytes of the line go home first, it becomes a source at its epoch, and its L1 copy
is invalidated after (R161, R164). As an acquire it first drains the other sources. `none`: wait. -/
def coreAtomic (s : State) (a : L1Acc) (pa n : Nat) (acq : Bool) (g : Nat → Option Nat) : Option (State × Option Nat) :=
  let ln := pa / 64
  let s1 := coreDrainLines (homeTake s ln) a.core 0 [ln]
  match (if acq then drainSources s1 ln (some a.core) else some s1) with
  | none => none
  | some s2 =>
    match addSource s2 ln a.core (s2.core a.core).ep with
    | none => none
    | some s3 =>
      match homeAtomic s3 a.core pa n a.kid a.cmps g with
      | none => some (s2, none)
      | some (s4, o) => some (homeServed (s4.updCore a.core fun k => { k with l1 := Map.del k.l1 ln }) a.core ln, some o)

/-- What follows an acquire at .quad or wider: the core self-invalidates, and the gang's casements acquire (R167,
R228). -/
def afterAcquire (s : State) (w : Nat) : Option State :=
  csmAcquire (selfInvalidate s (s.wg w).core) (s.wg w).gang false

/-! ### The Peephole (R176 to R179) -/

/-- The race detector of a launch, where it checks an address. -/
def peepOf (s : State) (launch pa : Nat) : Option Peep :=
  match Map.get s.mem.peep launch with
  | some p => if p.mode ≠ 0 ∧ p.ranges.any fun r => decide (r.1 ≤ pa) && decide (pa < r.1 + r.2) then some p else none
  | none => none

/-- The launch of which a checked range holds an address, for a packet of another package; 0 where there is none. -/
def rangeLaunch (s : State) (pa : Nat) : Nat := (s.mem.peep.keys.find? fun n => (peepOf s n pa).isSome).getD 0

/-- A band's slot as the Peephole numbers it (R177): an agent's number without its slice. -/
def slotNum (b : Band) : Nat :=
  b.core / 160 % 16 * 2 ^ 14 + b.core / 4 % 40 * 2 ^ 8 + b.core % 4 * 2 ^ 6 + b.slot % 64

/-- The current interval number of a writer's band slot: its band's, or that of the band that left it last (log entry 34). A
suspended gang's band is in no slot. -/
def intervalOf (s : State) (writer : Nat) : W16 :=
  match (s.bands.find? fun p => decide (slotNum p.2 = writer / 4) && !(s.gang (s.wg (p.1 / 32)).gang).suspended) with
  | some p => p.2.sync
  | none => Map.getD s.mem.left (writer / 4) 0

/-- A band leaves its slot; the Peephole keeps its interval number (log entry 34). One of a suspended gang has left it. -/
def leaveSlot (s : State) (b : Nat) : State :=
  let x := s.band b
  if (s.gang (s.wg (b / 32)).gang).suspended then s
  else s.updMem fun m => { m with left := if x.sync = 0 then Map.del m.left (slotNum x) else Map.put m.left (slotNum x) x.sync }

/-- Whether agent y lies within a scope of agent x (R13); the numbers have no package. -/
def withinScope (scope x y : Nat) : Bool :=
  match scope with
  | 0 => decide (x / 4 = y / 4)
  | 1 => decide (x / 2 ^ 8 = y / 2 ^ 8)
  | 2 => decide (x / 2 ^ 10 = y / 2 ^ 10)
  | 3 => decide (x / 2 ^ 16 = y / 2 ^ 16)
  | _ => true

/-- One access as the home's Peephole sees it. `scope` is the instruction's field; a plain access has neither ACQ nor
REL (R157). -/
structure PeepAcc where
  launch : Nat
  who : Nat
  pa : Nat
  write : Bool
  atomic : Bool
  plain : Bool
  scope : Nat
  va : W64
  pc : W64
deriving DecidableEq, Repr

def shadowOf (p : Peep) (pa : Nat) : W64 := Map.getD p.shadow (pa / 32) 0

/-- A race of R178: the recorded write is another agent's, not both are atomic, and the writer has not moved on or the
access lies outside the write's scope. -/
def isRace (s : State) (p : Peep) (a : PeepAcc) : Bool :=
  let w := shadowOf p a.pa
  let x := (w.extractLsb' 0 20).toNat
  w.getLsbD 40 && decide (x ≠ a.who) && !(a.atomic && w.getLsbD 39)
  && (decide (intervalOf s x = w.extractLsb' 20 16) || !(withinScope (w.extractLsb' 36 3).toNat x a.who))

/-- The shadow word of a write (R177). -/
def shadowWord (s : State) (a : PeepAcc) : W64 :=
  let sc := if a.plain ∧ a.scope = 0 then 6 else a.scope
  BitVec.ofNat 64 (2 ^ 40 + (if a.atomic then 2 ^ 39 else 0) + sc * 2 ^ 36
    + (intervalOf s a.who).toNat * 2 ^ 20 + a.who)

def setShadow (s : State) (launch pa : Nat) (w : W64) : State :=
  s.updMem fun m => { m with peep := Map.upd m.peep launch fun p =>
    { p with shadow := if w = 0 then Map.del p.shadow (pa / 32) else Map.put p.shadow (pa / 32) w } }

/-- The log buffer is reached under the launch's address space; a part of it that does not translate takes nothing
(log entry 40). -/
def logTr (p : Peep) (off : Nat) (acc : Acc) (s : State) : State × Except TErr (Leaf × Nat) :=
  translate s .bare p.logDie p.logAsid p.logPriv (p.logBase + BitVec.ofNat 64 off) acc

/-- Writes n bytes of the log buffer, byte by byte. -/
def logPut (p : Peep) (off : Nat) : Nat → Nat → State → State
  | 0, _, s => s
  | n + 1, v, s =>
    logPut p (off + 1) n (v / 256) (match logTr p off .write s with
      | (s1, .ok (l, pa)) => (homePut (homeTake s1 (pa / 64)) agentFe pa 1 (v % 256) l.key l.cmps).getD s1
      | (s1, .error _) => s1)

/-- Reads n bytes of the log buffer. -/
def logGet (p : Peep) (off : Nat) : Nat → State → State × Nat
  | 0, s => (s, 0)
  | n + 1, s =>
    let r := match logTr p off .read s with
      | (s1, .ok (l, pa)) => (homeGet (homeTake s1 (pa / 64)) pa 1 l.key l.cmps).getD (s1, 0)
      | (s1, .error _) => (s1, 0)
    let q := logGet p (off + 1) n r.1
    (q.1, r.2 + 256 * q.2)

/-- The lines of places of the log buffer; none while a walk must wait. -/
def logPlaces (p : Peep) : List Nat → State → State × Option (List Nat)
  | [], s => (s, some [])
  | off :: l, s =>
    match logTr p off .write s with
    | (s1, .error .wait) => (s1, none)
    | (s1, .error _) => logPlaces p l s1
    | (s1, .ok (_, pa)) => let r := logPlaces p l s1; (r.1, r.2.map fun ls => insNat (pa / 64) ls)

/-- The lines of the log buffer that up to n more records need: those of the counts and, once these can be read, those of the
records. -/
def logLines (p : Peep) (n : Nat) (s : State) : State × Option (List Nat) :=
  match logPlaces p [0, 15] s with
  | (s1, none) => (s1, none)
  | (s1, some h) =>
    if h.all fun ln => homeReady s1 ln .atomic then
      let count := (logGet p 0 8 s1).2
      logPlaces p ([0, 15] ++ (List.range n).flatMap fun i => if p.logCap = 0 then [] else
        [32 + 32 * ((count + i) % p.logCap), 63 + 32 * ((count + i) % p.logCap)]) s1
    else (s1, some h)

/-- The home can append n records now (R271, R403). -/
def logOpen (p : Peep) (n : Nat) (s : State) : Bool :=
  match logLines p n s with
  | (s1, some ls) => ls.all fun ln => homeReady s1 ln .atomic
  | _ => false

/-- The walks and snoops that n records need. -/
def logAsk (p : Peep) (n : Nat) (s : State) : State :=
  match logLines p n s with
  | (s1, some ls) => ls.foldl (fun s ln => homeAsk s ln .atomic) s1
  | (s1, none) => s1

/-- Appends a record to the log buffer, or counts a dropped one (R179). -/
def logRace (s : State) (p : Peep) (a : PeepAcc) : State :=
  let w := shadowOf p a.pa
  let x := (w.extractLsb' 0 20).toNat
  let (s1, count) := logGet p 0 8 s
  if p.logCap ≤ count then
    let (s2, d) := logGet p 8 8 s1
    logPut p 8 8 (d + 1) s2
  else
    let r := 32 + 32 * (count % p.logCap)
    let y := a.who + a.scope * 2 ^ 20 + (if a.write then 2 ^ 23 else 0) + (if a.atomic then 2 ^ 24 else 0)
    let xw := x + (w.extractLsb' 36 3).toNat * 2 ^ 20 + (if w.getLsbD 39 then 2 ^ 23 else 0)
    let s2 := logPut p (r + 8) 8 a.pc.toNat (logPut p r 8 a.va.toNat (logPut p 0 8 (count + 1) s1))
    let s3 := logPut p (r + 20) 4 xw (logPut p (r + 16) 4 y s2)
    let s4 := logPut p (r + 26) 2 (intervalOf s x).toNat (logPut p (r + 24) 2 (w.extractLsb' 20 16).toNat s3)
    logPut p (r + 28) 4 (s.timeNs.toNat % 2 ^ 32) s4

/-- The Peephole's decision: the access is performed; it waits for the log buffer's homes; or it takes a trap with a %tinfo
(R179). -/
inductive PeepRes where
  | go | wait
  | trap (info : W32)
deriving DecidableEq, Repr

/-- The Peephole's check of an access: the state after it, and what it decides. -/
def peepCheck (s : State) (a : PeepAcc) : State × PeepRes :=
  match peepOf s a.launch a.pa with
  | none => (s, .go)
  | some p =>
    let race := isRace s p a
    if race && decide (p.mode = 1) then
      let w := shadowOf p a.pa
      (s, .trap (BitVec.ofNat 32 ((w.extractLsb' 0 20).toNat + (w.extractLsb' 36 3).toNat * 2 ^ 20
        + (if w.getLsbD 39 then 2 ^ 23 else 0))))
    else if race && !logOpen p 1 s then (s, .wait)
    else
      let s1 := if race then logRace s p a else s
      (if a.write then setShadow s1 a.launch a.pa (shadowWord s a) else s1, .go)

/-- What accesses to addresses of a launch may need to log their races. -/
def askLog (launch : Nat) (pas : List Nat) (s : State) : State :=
  match pas.filter fun pa => (peepOf s launch pa).isSome, Map.get s.mem.peep launch with
  | [], _ => s
  | l, some p => if p.mode = 1 then s else logAsk p l.length s
  | _, none => s

/-! ### Instructions whose lanes may fault one by one (R160, R197, R198) -/

/-- What becomes of a lane: it goes on; it goes on in a new region; it takes a precise trap; a unit reports a fault of
it later, with the number of the result that will then not arrive (0 for none); or reports it at once. -/
inductive Fate where
  | ok
  | shut
  | prec (c : Cause)
  | late (c : Cause) (id : Nat)
  | now (c : Cause)
deriving DecidableEq, Repr

/-- A closer parks until no fault of an earlier access can still be reported (R201). -/
def closerReady (s : State) (act : List Thr) : Bool := act.all fun t => (s.fib t.key).latent.isEmpty

/-- Every earlier access of the threads is performed. -/
def allPerformed (s : State) (act : List Thr) : Bool := act.all fun t => fibPerformed s t.key

/-- Ends an instruction: lanes whose guard is false and lanes that go on move past it, a closer's lanes close their
region, precise traps are raised, and late faults are recorded for LATE_FAULT; a closer's are known at once (R201). -/
def finish (s : State) (len : Nat) (off : List Thr) (closer : Bool) (fates : List (Thr × Fate)) : State :=
  let s1 := off.foldl (fun s t => s.adv t len) s
  (fates.foldl (fun s p =>
    let k := p.1.key
    match p.2 with
    | .ok => let s := s.adv p.1 len; if closer then s.closeRegion p.1 else s
    | .shut => (s.adv p.1 len).closeRegion p.1
    | .now c => s.raise k c
    | .prec c => s.raiseThr p.1 c
    | .late c id =>
      if closer then (removePend s p.1 id).raise k c
      else (s.adv p.1 len).updFib k fun x => { x with latent := x.latent ++ [(id, c)] }) s1).settle

/-- Lanes whose guard is false. -/
def State.idle (s : State) (f : Fields) : List Thr := s.threads.filter fun t => !s.guard f t

/-- The virtual address of R157. -/
def memVa (f : Fields) (disp : W32) (s : State) (t : Thr) : W64 := addDisp (pairA f s t) disp

/-- MisalignedAccess (R199). -/
def misaligned (n : Nat) (va pc : W64) : Cause := precise 0x04 (BitVec.ofNat 32 n) va pc

/-- A fault report against an access at `va` (R199). -/
def protAt (code : Nat) (va : W64) : Cause := lateCause 0x06 (BitVec.ofNat 32 code) va

/-- One lane's address: translated, or the lane's fate. -/
inductive LaneTr where
  | ok (l : Leaf) (pa : Nat)
  | fate (x : Fate)
deriving DecidableEq, Repr

/-- Translates the lanes in order; none when a walk must wait. -/
def trLanes (acc : Acc) (n : Nat) (va : Thr → W64) : List Thr → State → State × Option (List (Thr × LaneTr))
  | [], s => (s, some [])
  | t :: ts, s =>
    let a := va t
    if a.toNat % n ≠ 0 then
      match trLanes acc n va ts s with
      | (s1, some r) => (s1, some ((t, .fate (.prec (misaligned n a (s.pcOf t)))) :: r))
      | (s1, none) => (s1, none)
    else match s.trFib t.key a acc with
      | (s1, .error .wait) => (s1, none)
      | (s1, .error e) =>
        match trLanes acc n va ts s1 with
        | (s2, some r) => (s2, some ((t, .fate (.late (e.cause true a (s.pcOf t)) 0)) :: r))
        | (s2, none) => (s2, none)
      | (s1, .ok (l, pa)) =>
        match trLanes acc n va ts s1 with
        | (s2, some r) => (s2, some ((t, .ok l pa) :: r))
        | (s2, none) => (s2, none)

/-- Runs a lane operation over lanes in ascending order (DESIGN CHOICE, log entry 154); none when one must wait. -/
def runLanes {α : Type} (g : State → α → Option (State × Fate × Option LaneReq)) (key : α → Thr) :
    List α → State → Option (State × List (Thr × Fate) × List LaneReq)
  | [], s => some (s, [], [])
  | x :: xs, s =>
    match g s x with
    | none => none
    | some (s1, ft, rq) =>
      match runLanes g key xs s1 with
      | none => none
      | some (s2, fs, rqs) => some (s2, (key x, ft) :: fs, (match rq with | some r => [r] | none => []) ++ rqs)

/-- The homes' snoops that the lanes' lines need (R403). -/
def askAll (s : State) (w : Want) (lines : List Nat) : State := lines.foldl (fun s ln => homeAsk s ln w) s

def l1AccOf (s : State) (t : Thr) (l : Leaf) (va : W64) : L1Acc :=
  { fib := t.key, core := s.fibCore t.key, kid := l.key, cmps := l.cmps, priv := false, va := va }

def peepAccOf (s : State) (t : Thr) (pa : Nat) (write atomic plain : Bool) (scope : Nat) (va : W64) : PeepAcc :=
  { launch := (s.wg (wgOf t.key)).share / 16, who := agent20 s t.key, pa := pa, write := write, atomic := atomic,
    plain := plain, scope := scope, va := va, pc := s.pcOf t }

/-- What lanes that must wait at their homes ask for: the snoops of their lines, and what the Peephole needs to log a race. -/
def laneAsk (s : State) (w : Want) (xs : List (Thr × W64 × LaneTr)) : State :=
  let ps : List (Thr × Nat) := xs.filterMap fun x => match x.2.2 with
    | .ok _ pa => if (memDie pa).isSome then some (x.1, pa) else none
    | .fate _ => none
  askLog ((s.wg (wgOf ((ps.map fun p => p.1.key).headD 0))).share / 16) (ps.map (·.2)) (askAll s w (ps.map fun p => p.2 / 64))

def checkedPa (s : State) (t : Thr) (pa : Nat) : Bool := (peepOf s ((s.wg (wgOf t.key)).share / 16) pa).isSome

/-- ChannelClosed of a plain access on ch0 (R199, R310). -/
def ch0Closed (va : W64) : Cause := lateCause 0x0A 0 va

def uncorrectable (va : W64) : Cause := lateCause 0x13 0 va

end Sys2Proof.Machine
end

