-- ==== Sys2Proof/Machine/Memory.lean ====
section
/-! DEFINITION. LD, ST, LDP, STP, ATOM, CAS, RED, FENCE, CACHE and PREF (R156 to R175). -/

namespace Sys2Proof.Machine

/-! ### LD (R157, R160, R167, R175) -/

/-- A load's value goes to its pending destination, ready to arrive. -/
def loadDone (s : State) (t : Thr) (d n : Nat) (sx : Bool) (v : Nat) : State :=
  let r := destRegs d n
  s.pend t r ((List.range r.length).map fun i => BitVec.ofNat 32 (extend n sx v / 2 ^ (32 * i))) [] [] true

/-- A load's fault is reported against its pending destination. -/
def loadFault (s : State) (t : Thr) (d n : Nat) (c : Cause) : State × Fate :=
  let p := pendLater s t (destRegs d n)
  (p.1, .late c p.2)

/-- The fields of a load that its lanes share. -/
structure LdArg where
  d : Nat
  n : Nat
  sx : Bool
  acq : Bool
  scope : Nat
deriving DecidableEq, Repr

/-- One lane of LD. -/
def ldLane (g : LdArg) (s : State) (x : Thr × W64 × LaneTr) : Option (State × Fate × Option LaneReq) :=
  let t := x.1
  let va := x.2.1
  let fin (p : State × Fate) : Option (State × Fate × Option LaneReq) := some (p.1, p.2, none)
  match x.2.2 with
  | .fate (.late c _) => fin (loadFault s t g.d g.n c)
  | .fate ft => fin (s, ft)
  | .ok l pa =>
    let die := s.fibDie t.key
    let a := l1AccOf s t l va
    match decodePa pa with
    | .dev dd off =>
      if g.n ≠ 4 ∧ g.n ≠ 8 then fin (s, .prec (misaligned g.n va (s.pcOf t)))
      else if dd = die then
        let r := devRead s die (off / 8 * 8)
        let v := if g.n = 8 then r.2.toNat else r.2.toNat / 2 ^ (8 * (off % 8)) % 2 ^ 32
        fin (loadDone r.1 t g.d g.n false v, .shut)
      else remote s t l pa va
    | _ =>
      if !isLocal die pa then remote s t l pa va
      else
        let ln := pa / 64
        let chk := peepCheck s (peepAccOf s t pa false false (!g.acq) g.scope va)
        let whole := g.acq && decide (2 ≤ g.scope)
        let direct := checkedPa s t pa
        if !whole && !direct && l1Hit s a.core pa g.n a.kid then
          (l1Load s a pa g.n).map fun p => (loadDone p.1 t g.d g.n g.sx p.2, .ok, none)
        else if !homeReady s ln .read || (whole && !homeTurn s a.core ln) then none
        else match chk.2 with
          | .wait => none
          | .trap info => fin (loadFault chk.1 t g.d g.n (lateCause 0x0F info va))
          | .go =>
            if whole then
              match acqLoad chk.1 a pa g.n with
              | none => none
              | some (s1, none) => fin (loadFault s1 t g.d g.n (uncorrectable va))
              | some (s1, some v) => fin (loadDone s1 t g.d g.n g.sx v, .ok)
            else
              match (if direct then (homeRead (homeTake chk.1 ln) ln l.key l.cmps).map fun p => (p.1, lineGet p.2 (pa % 64) g.n)
                     else l1Load chk.1 a pa g.n) with
              | some (s1, v) => fin (loadDone s1 t g.d g.n g.sx v, .ok)
              | none => fin (loadFault chk.1 t g.d g.n (uncorrectable va))
where
  remote (s : State) (t : Thr) (l : Leaf) (pa : Nat) (va : W64) : Option (State × Fate × Option LaneReq) :=
    if (s.chan (chanKey (wgOf t.key) 0)).refuses then
      let p := loadFault s t g.d g.n (ch0Closed va)
      some (p.1, p.2, none)
    else
      let p := pendAcq s t (destRegs g.d g.n) g.acq
      some (p.1, if isDev pa then .shut else .ok, some ⟨t.key, pa, g.n, l.key, l.cmps, va, s.pcOf t, 0, 0, 0, p.2⟩)

/-- Whether a lane's address is in device register space. -/
def laneDev (x : Thr × LaneTr) : Bool :=
  match x.2 with
  | .ok _ pa => isDev pa
  | .fate _ => false

/-- Acquires by local lanes at .quad or wider end with the self-invalidation of the core (R167). -/
def endAcquire (s : State) (whole : Bool) (act : List Thr) : Option State :=
  match act with
  | t :: _ => if whole then afterAcquire s (wgOf t.key) else some s
  | [] => some s

def ldOp (f : Fields) (disp : W32) (len : Nat) (s : State) : Host.Outcome State Fault Refusal :=
  let act := s.active f
  let n := ldSize f.sub.toNat
  let g : LdArg := { d := f.d.toNat, n := n, sx := signedLd f.sub.toNat, acq := flagACQ f, scope := scopeFld f }
  let va := memVa f disp s
  match trLanes .read n va act s with
  | (s1, none) => .next s1
  | (s1, some trs) =>
    let xs := trs.map fun x => (x.1, va x.1, x.2)
    if trs.any laneDev && !closerReady s1 act then .next s1
    else match runLanes (ldLane g) (fun x => x.1) xs s1 with
      | none => .next (laneAsk s1 .read xs)
      | some (s2, fates, reqs) =>
        let local' := trs.filter fun x => match x.2 with
          | .ok _ pa => (memDie pa).isSome && decide (memDie pa = some (s.fibDie x.1.key))
          | .fate _ => false
        match endAcquire s2 (g.acq && decide (2 ≤ g.scope) && !local'.isEmpty) act with
        | none => .next (laneAsk s1 .read xs)
        | some s3 =>
          let w := wgOf ((act.map Thr.key).headD 0)
          let s4 := chanIssue s3 (chanKey w 0) 1 f.sub.toNat false g.sx (!g.acq) g.scope reqs
          .next (finish s4 len (s.idle f) false fates)

def execLd (f : Fields) (s : State) : Host.Outcome State Fault Refusal := ldOp f 0 0 s
def execLd96 (f : Fields) (imm : W32) (s : State) : Host.Outcome State Fault Refusal := ldOp f imm 1 s

/-! ### ST (R157, R166, R175) -/

/-- One lane of ST. A store to a device register closes the region (R201); one to a doorbell follows a draining release. -/
def stLane (n : Nat) (rel : Bool) (scope c : Nat) (src : State) (s : State) (x : Thr × W64 × LaneTr) :
    Option (State × Fate × Option LaneReq) :=
  let t := x.1
  let va := x.2.1
  let fin (s : State) (ft : Fate) : Option (State × Fate × Option LaneReq) := some (s, ft, none)
  let v := storeData src t c n
  match x.2.2 with
  | .fate ft => fin s ft
  | .ok l pa =>
    let die := s.fibDie t.key
    let a := l1AccOf s t l va
    let remote (s : State) : Option (State × Fate × Option LaneReq) :=
      if (s.chan (chanKey (wgOf t.key) 0)).refuses then fin s (.late (ch0Closed va) 0)
      else some (s, if isDev pa then .shut else .ok, some ⟨t.key, pa, n, l.key, l.cmps, va, s.pcOf t, v, 0, 0, 0⟩)
    match decodePa pa with
    | .dev dd off =>
      if n ≠ 4 ∧ n ≠ 8 then fin s (.prec (misaligned n va (s.pcOf t)))
      else match doorDrain s (s.fibCore t.key) pa with
        | none => none
        | some s1 =>
          if dd ≠ die then remote s1
          else
            let r := devWrite s1 die off n (BitVec.ofNat 64 v)
            if r.2 then fin r.1 .shut else fin s (.now (protAt 8 va))
    | _ =>
      if !isLocal die pa then remote s
      else
        let ln := pa / 64
        let chk := peepCheck s (peepAccOf s t pa true false (!rel) scope va)
        if !(if checkedPa s t pa then homeReady s ln .write else storeReady s ln) then none
        else match chk.2 with
          | .wait => none
          | .trap info => fin chk.1 (.late (lateCause 0x0F info va) 0)
          | .go =>
            match (if checkedPa s t pa then
                homeWrite (homeTake chk.1 ln) a.core ln (byteMask (pa % 64) n) (lineAt (pa % 64) n v) l.key l.cmps
              else l1Store chk.1 a pa n v rel) with
            | some s1 => fin s1 .ok
            | none => fin chk.1 (.late (uncorrectable va) 0)

/-- The release half of a store or atomic (R166): complete, or to be waited for. -/
def releaseFirst (s : State) (rel : Bool) (scope : Nat) (act : List Thr) : State × Bool :=
  match act with
  | t :: _ => if rel then (if allPerformed s act then release' s (bandOf t.key) scope else (s, false)) else (s, true)
  | [] => (s, true)

def stOp (f : Fields) (disp : W32) (len : Nat) (s : State) : Host.Outcome State Fault Refusal :=
  let act := s.active f
  let n := stSize f.sub.toNat
  let rel := flagREL f
  let va := memVa f disp s
  match trLanes .write n va act s with
  | (s1, none) => .next s1
  | (s1, some trs) =>
    let xs := trs.map fun x => (x.1, va x.1, x.2)
    if (rel || trs.any laneDev) && !closerReady s1 act then .next s1
    else match releaseFirst s1 rel (scopeFld f) act with
      | (s2, false) => .next s2
      | (s2, true) =>
        match runLanes (stLane n rel (scopeFld f) f.c.toNat s) (fun x => x.1) xs s2 with
        | none => .next (laneAsk s1 .write xs)
        | some (s3, fates, reqs) =>
          let w := wgOf ((act.map Thr.key).headD 0)
          let s4 := chanIssue s3 (chanKey w 0) 0 f.sub.toNat false false (!rel) (scopeFld f) reqs
          .next (finish s4 len (s.idle f) rel fates)

def execSt (f : Fields) (s : State) : Host.Outcome State Fault Refusal := stOp f 0 0 s
def execSt96 (f : Fields) (imm : W32) (s : State) : Host.Outcome State Fault Refusal := stOp f imm 1 s

/-! ### Private memory: LDP and STP (R158) -/

/-- Physical address of byte `o` of a lane's private memory. -/
def privAddr (s : State) (k o : Nat) : Nat :=
  let w := s.wg (wgOf k)
  w.priv.toNat + ((o / 4) * w.nbands + bandOf k % 32) * 128 + laneOf k * 4 + o % 4

def privAcc (s : State) (k : Nat) (va : W64) : L1Acc :=
  { fib := k, core := s.fibCore k, kid := (s.wg (wgOf k)).kid, cmps := 0, priv := true, va := va }

/-- The words of a private access: byte offset and bytes of each. -/
def privParts (o n : Nat) : List (Nat × Nat) :=
  if n ≤ 4 then [(o, n)] else (List.range (n / 4)).map fun i => (o + 4 * i, 4)

/-- Private lines wait only for bias flips (R400), and not where the L1 serves them (R404). -/
def privReady (s : State) (ld : Bool) (k o n : Nat) : Bool :=
  (privParts o n).all fun p =>
    let pa := privAddr s k p.1
    if ld then l1Hit s (s.fibCore k) pa p.2 (s.wg (wgOf k)).kid || homeReady s (pa / 64) .read else storeReady s (pa / 64)

def privLoad (k : Nat) (va : W64) : List (Nat × Nat) → State → Option (State × Nat)
  | [], s => some (s, 0)
  | (o, n) :: l, s =>
    match l1Load s (privAcc s k va) (privAddr s k o) n with
    | none => none
    | some (s1, v) => (privLoad k va l s1).map fun p => (p.1, v + 2 ^ (8 * n) * p.2)

def privStore (k : Nat) (va : W64) : List (Nat × Nat) → Nat → State → Option State
  | [], _, s => some s
  | (o, n) :: l, v, s =>
    match l1Store s (privAcc s k va) (privAddr s k o) n (v % 2 ^ (8 * n)) false with
    | none => none
    | some s1 => privStore k va l (v / 2 ^ (8 * n)) s1

/-- One lane of LDP or STP: `ld` gives the destination. -/
def privLane (ld : Option LdArg) (n c : Nat) (src : State) (s : State) (x : Thr × W64) :
    Option (State × Fate × Option LaneReq) :=
  let t := x.1
  let k := t.key
  let o := x.2.toNat
  let ps := (s.share (s.wg (wgOf k)).share).psize
  let fault (s : State) (cz : Cause) : Option (State × Fate × Option LaneReq) :=
    match ld with
    | some g => let p := loadFault s t g.d n cz; some (p.1, p.2, none)
    | none => some (s, .late cz 0, none)
  if o % n ≠ 0 then some (s, .prec (misaligned n x.2 (s.pcOf t)), none)
  else if ps < o + n then fault s (protAt 6 x.2)
  else if !privReady s ld.isSome k o n then none
  else match ld with
    | some g =>
      match privLoad k x.2 (privParts o n) s with
      | some (s1, v) => some (loadDone s1 t g.d n g.sx v, .ok, none)
      | none => fault s (uncorrectable x.2)
    | none =>
      match privStore k x.2 (privParts o n) (storeData src t c n) s with
      | some s1 => some (s1, .ok, none)
      | none => fault s (uncorrectable x.2)

def privOp (ld : Bool) (f : Fields) (disp : W32) (len : Nat) (s : State) : Host.Outcome State Fault Refusal :=
  let act := s.active f
  let sub := f.sub.toNat
  let n := if ld then ldSize sub else stSize sub
  let g : Option LdArg := if ld then some { d := f.d.toNat, n := n, sx := signedLd sub, acq := false, scope := 0 } else none
  let xs := act.map fun t => (t, memVa f disp s t)
  match runLanes (privLane g n f.c.toNat s) (fun x => x.1) xs s with
  | none => .next (askAll s (if ld then .read else .write) (xs.flatMap fun x => (privParts x.2.toNat n).map fun p => privAddr s x.1.key p.1 / 64))
  | some (s1, fates, _) => .next (finish s1 len (s.idle f) false fates)

def execLdp (f : Fields) (s : State) : Host.Outcome State Fault Refusal := privOp true f 0 0 s
def execLdp96 (f : Fields) (imm : W32) (s : State) : Host.Outcome State Fault Refusal := privOp true f imm 1 s
def execStp (f : Fields) (s : State) : Host.Outcome State Fault Refusal := privOp false f 0 0 s
def execStp96 (f : Fields) (imm : W32) (s : State) : Host.Outcome State Fault Refusal := privOp false f imm 1 s

/-! ### ATOM, CAS, RED (R161, R162, R175, R299) -/

/-- The three atomics. -/
inductive AtomKind where
  | atom | cas | red
deriving DecidableEq, Repr

/-- What the lanes of one atomic share. `pkop` is its packet on ch0. -/
structure AtomArg where
  kind : AtomKind
  sub : Nat
  n : Nat
  d : Nat
  b : Nat
  c : Nat
  acq : Bool
  scope : Nat
deriving DecidableEq, Repr

def AtomKind.pkop : AtomKind → Nat
  | .atom => 2
  | .red => 3
  | .cas => 4

/-- The home's operation of one lane: operand C, or for CAS expected value B and new value C. -/
def atomFun (g : AtomArg) (src : State) (t : Thr) (o : Nat) : Option Nat :=
  let w64 := decide (g.n = 8)
  let c := (atomOperand src t g.c w64).toNat
  match g.kind with
  | .cas => if o = (atomOperand src t g.b w64).toNat then some c else none
  | _ => some (atomOp g.sub g.n o c)

def atomLane (g : AtomArg) (src : State) (s : State) (x : Thr × W64 × LaneTr) : Option (State × Fate × Option LaneReq) :=
  let t := x.1
  let va := x.2.1
  match x.2.2 with
  | .fate ft => some (s, ft, none)
  | .ok l pa =>
    let die := s.fibDie t.key
    let a := l1AccOf s t l va
    let regs := if g.kind = .red then [] else destRegs g.d g.n
    if isDev pa then some (s, .now (protAt 8 va), none)
    else if !isLocal die pa then
      if (s.chan (chanKey (wgOf t.key) 0)).refuses then some (s, .now (ch0Closed va), none)
      else
        let p := pendAcq s t regs g.acq
        let w64 := decide (g.n = 8)
        let cv := atomOperand src t g.c w64
        let op := if g.kind = .cas then (atomOperand src t g.b w64, cv) else (cv, 0)
        some (p.1, .ok, some ⟨t.key, pa, g.n, l.key, l.cmps, va, s.pcOf t, 0, op.1, op.2, p.2⟩)
    else
      let ln := pa / 64
      let chk := peepCheck s (peepAccOf s t pa true true false g.scope va)
      if !homeOpen s a.core ln .atomic then none
      else match chk.2 with
        | .wait => none
        | .trap info => some (chk.1, .now (lateCause 0x0F info va), none)
        | .go =>
          match coreAtomic chk.1 a pa g.n (g.acq && decide (2 ≤ g.scope)) (atomFun g src t) with
          | none => none
          | some (s1, none) => some (s1, .now (uncorrectable va), none)
          | some (s1, some o) =>
            some (s1.pend t regs ((List.range regs.length).map fun i => BitVec.ofNat 32 (o / 2 ^ (32 * i))) [] [] true, .ok, none)

def atomMem (kind : AtomKind) (f : Fields) (disp : W32) (len : Nat) (s : State) : Host.Outcome State Fault Refusal :=
  let act := s.active f
  let n := if flagW64 f then 8 else 4
  let g : AtomArg := { kind := kind, sub := f.sub.toNat, n := n, d := f.d.toNat, b := f.b.toNat, c := f.c.toNat,
                       acq := flagACQ f && decide (kind ≠ .red), scope := scopeFld f }
  let va := memVa f disp s
  if !closerReady s act then .next s
  else match trLanes .write n va act s with
    | (s1, none) => .next s1
    | (s1, some trs) =>
      let xs := trs.map fun x => (x.1, va x.1, x.2)
      match releaseFirst s1 (flagREL f) (scopeFld f) act with
      | (s2, false) => .next s2
      | (s2, true) =>
        match runLanes (atomLane g s) (fun x => x.1) xs s2 with
        | none => .next (laneAsk s1 .atomic xs)
        | some (s3, fates, reqs) =>
          let local' := trs.any fun x => match x.2 with
            | .ok _ pa => decide (memDie pa = some (s.fibDie x.1.key))
            | .fate _ => false
          match endAcquire s3 (g.acq && decide (2 ≤ g.scope) && local') act with
          | none => .next (laneAsk s1 .atomic xs)
          | some s4 =>
            let w := wgOf ((act.map Thr.key).headD 0)
            let s5 := chanIssue s4 (chanKey w 0) kind.pkop f.sub.toNat (flagW64 f) false false g.scope reqs
            .next (finish s5 len (s.idle f) true fates)

def execAtom (f : Fields) (s : State) : Host.Outcome State Fault Refusal := atomMem .atom f 0 0 s
def execAtom96 (f : Fields) (imm : W32) (s : State) : Host.Outcome State Fault Refusal := atomMem .atom f imm 1 s
def execCas (f : Fields) (s : State) : Host.Outcome State Fault Refusal := atomMem .cas f 0 0 s
def execCas96 (f : Fields) (imm : W32) (s : State) : Host.Outcome State Fault Refusal := atomMem .cas f imm 1 s
def execRed (f : Fields) (s : State) : Host.Outcome State Fault Refusal := atomMem .red f 0 0 s
def execRed96 (f : Fields) (imm : W32) (s : State) : Host.Outcome State Fault Refusal := atomMem .red f imm 1 s

/-! ### FENCE (R171) -/

/-- FENCE's orders for workgroup w and band b at a scope; none where it must wait, with the pushes it has sent. -/
def fenceOp (s : State) (w b sub scope : Nat) : State × Bool :=
  let acq (s1 : State) : State × Bool :=
    match fenceAcquire s1 w scope with
    | some s2 => (s2, true)
    | none => (s, false)
  match sub with
  | 0 =>
    match acq s with
    | (s1, true) => (if 2 ≤ scope then bumpSync s1 b else s1, true)
    | r => r
  | 1 => release' s b scope
  | 2 =>
    match release' s b scope with
    | (s1, false) => (s1, false)
    | (s1, true) => acq s1
  | _ =>
    match release' s b scope with
    | (s1, false) => (s1, false)
    | (s1, true) =>
      if scope < 2 then (s1, true)
      else match drainRelease s1 (s.wg w).core with
        | none => (s, false)
        | some s2 => acq s2

def execFence (f : Fields) (s : State) : Host.Outcome State Fault Refusal :=
  let act := s.active f
  match act with
  | [] => .next (finish s 0 (s.idle f) false [])
  | t :: _ =>
    if !allPerformed s act || !closerReady s act then .next s
    else match fenceOp s (wgOf t.key) (bandOf t.key) f.sub.toNat (scopeFld f) with
      | (s1, false) => .next s1
      | (s1, true) => .next (finish s1 0 (s.idle f) false (act.map fun t => (t, .ok)))

/-! ### CACHE (R172) -/

/-- CACHE's action on one line in the issuing core's L1: 0 drop, 1 write back, 2 write back and drop. -/
def cacheL1 (s : State) (c var ln : Nat) : State :=
  let drop (s : State) : State := s.updCore c fun k => { k with l1 := Map.del k.l1 ln }
  match Map.get (s.core c).l1 ln with
  | none => s
  | some x =>
    if x.priv then s
    else match var with
      | 0 => drop s
      | 1 => coreDrainLines s c 0 [ln]
      | _ => drop (coreDrainLines s c 0 [ln])

/-- CACHE's action on one line at its home; a pinned line is dropped only once its pin is released. -/
def cacheL2 (s : State) (var ln : Nat) : Option State :=
  if (s.home ln).l2.isNone then some s
  else match var with
    | 1 => some (s.cleanL2 ln)
    | 0 => if (s.home ln).pins.isEmpty then (drainSources s ln none).map fun s1 => s1.discardL2 ln else none
    | _ => evictL2 s ln

/-- Lines of [lo, hi) present in an L1 or at their homes. -/
def presentLines (s : State) (c lo hi : Nat) : List Nat :=
  let inR (ln : Nat) : Bool := decide (lo / 64 ≤ ln) && decide (64 * ln < hi)
  ((s.core c).l1.keys.filter inR).foldl (fun l x => insNat x l) (s.mem.home.keys.filter inR)

/-- One physical stretch. -/
def cacheStretch (s : State) (c var : Nat) (l2 : Bool) (lo hi : Nat) : Option State :=
  forAll (fun s ln => let s1 := cacheL1 s c var ln; if l2 then cacheL2 s1 var ln else some s1) (presentLines s c lo hi) s

/-- Walks the pages of a range as far as they translate: what a lane that must wait leaves behind are the walks' requests. -/
def walkPages (t : Thr) (acc : Acc) : Nat → Nat → W64 → State → State
  | 0, _, _, s => s
  | fuel + 1, len, va, s =>
    if len = 0 then s
    else match s.trFib t.key va acc with
      | (s1, .error _) => s1
      | (s1, .ok (l, pa)) =>
        let n := min len (2 ^ l.lg - pa % 2 ^ l.lg)
        walkPages t acc fuel (len - n) (va + BitVec.ofNat 64 n) s1

/-- The permission that a variant of CACHE needs. -/
def cacheAcc (var : Nat) : Acc := if var = 0 then .write else .read

/-- The pages of a range, one after the other; a page that faults stops the lane (R172). The bound is the number of
4 KiB pages. -/
def cachePages (t : Thr) (var : Nat) (l2 : Bool) : Nat → Nat → W64 → State → Option (State × Fate)
  | 0, _, _, s => some (s, .ok)
  | fuel + 1, len, va, s =>
    if len = 0 then some (s, .ok)
    else match s.trFib t.key va (cacheAcc var) with
      | (_, .error .wait) => none
      | (s1, .error e) => some (s1, .prec (e.cause false va (s.pcOf t)))
      | (s1, .ok (l, pa)) =>
        let n := min len (2 ^ l.lg - pa % 2 ^ l.lg)
        if isDev pa then some (s1, .prec (precise 0x06 8 va (s.pcOf t)))
        else
          let r := if isLocal (s.fibDie t.key) pa then cacheStretch s1 (s.fibCore t.key) var l2 pa (pa + n) else some s1
          match r with
          | none => none
          | some s2 => cachePages t var l2 fuel (len - n) (va + BitVec.ofNat 64 n) s2

def cacheOp (f : Fields) (disp : W32) (len : Nat) (s : State) : Host.Outcome State Fault Refusal :=
  let act := s.active f
  let lane (s' : State) (t : Thr) : Option (State × Fate × Option LaneReq) :=
    let n := (srcB f s t).toNat
    (cachePages t f.sub.toNat (decide (3 ≤ scopeFld f)) (n / 4096 + 2) n (memVa f disp s t) s').map fun p => (p.1, p.2, none)
  match runLanes lane id act s with
  | none => .next (act.foldl (fun s' t => walkPages t (cacheAcc f.sub.toNat) ((srcB f s t).toNat / 4096 + 2) (srcB f s t).toNat
      (memVa f disp s t) s') s)
  | some (s1, fates, _) => .next (finish s1 len (s.idle f) false fates)

def execCache (f : Fields) (s : State) : Host.Outcome State Fault Refusal := cacheOp f 0 0 s
def execCache96 (f : Fields) (imm : W32) (s : State) : Host.Outcome State Fault Refusal := cacheOp f imm 1 s

/-! ### PREF (R173) -/

/-- A PREF whose address is misaligned does nothing; which addresses inside a line are is left open (log entry 130). -/
def prefOdd (va : W64) : Bool := decide (va.toNat % 64 ≠ 0) && Config.prefMisaligned (va.toNat % 64)

/-- One lane's request, for L1_FILL or L2_FILL to serve; nothing where the translation fails or the address is misaligned,
remote or in device register space. -/
def prefLane (var : Nat) (va : W64) (s : State) (t : Thr) : State :=
  if prefOdd va then s
  else match s.trFib t.key va .read with
  | (_, .error _) => s
  | (s1, .ok (l, pa)) =>
    if !isLocal (s.fibDie t.key) pa then s1
    else if var = 0 then s1.updCore (s.fibCore t.key) fun k => { k with pref := k.pref ++ [(pa / 64, l.key, l.cmps)] }
    else s1.updMem fun m => { m with prefL2 := m.prefL2 ++ [(pa / 64, l.key, l.cmps)] }

/-- The walks of the lanes; false where one must wait. -/
def prefWalks (va : Thr → W64) : List Thr → State → State × Bool
  | [], s => (s, true)
  | t :: l, s =>
    if prefOdd (va t) then prefWalks va l s
    else match s.trFib t.key (va t) .read with
      | (s1, .error .wait) => (s1, false)
      | (s1, _) => prefWalks va l s1

def prefOp (f : Fields) (disp : W32) (len : Nat) (s : State) : Host.Outcome State Fault Refusal :=
  let act := s.active f
  match prefWalks (memVa f disp s) act s with
  | (s1, false) => .next s1
  | (s1, true) =>
    let s2 := act.foldl (fun s' t => prefLane f.sub.toNat (memVa f disp s t) s' t) s1
    .next (finish s2 len (s.idle f) false (act.map fun t => (t, .ok)))

def execPref (f : Fields) (s : State) : Host.Outcome State Fault Refusal := prefOp f 0 0 s
def execPref96 (f : Fields) (imm : W32) (s : State) : Host.Outcome State Fault Refusal := prefOp f imm 1 s

end Sys2Proof.Machine
end

