-- ==== Sys2Proof/Machine/System.lean ====
section
/-! DEFINITION. TRAP, BRK, SRD, SWR and RFT (R188 to R194, R210). -/

namespace Sys2Proof.Machine

/-- Runs `g` for each active thread; a cause instead of a state is a trap of that thread, which then keeps its PC. -/
def State.tryActive (s : State) (f : Fields) (len : Nat) (g : State → Thr → Except Cause State) : State :=
  s.forActive f len fun s' t =>
    match g s' t with
    | .ok s2 => s2
    | .error c => s'.raiseThr t c

/-! ### TRAP and BRK (R193) -/

def trapOp (f : Fields) (len : Nat) (s : State) (info : Thr → W32) : Host.Outcome State Fault Refusal :=
  .next (s.tryActive f len fun s' t => .error (precise 0x10 (info t) 0 (seqPc (s'.pcOf t) len)))

def execTrap (f : Fields) (s : State) : Host.Outcome State Fault Refusal := trapOp f 0 s (srcA f s)
def execTrap96 (f : Fields) (imm : W32) (s : State) : Host.Outcome State Fault Refusal := trapOp f 1 s fun _ => imm

/-- The focus fields of DBG_CTL for a fibre (R209). -/
def dbgFocus (s : State) (k : Nat) (old : W64) : W64 :=
  let b := s.band (bandOf k)
  BitVec.ofNat 64 (setBitsN (setBitsN (setBitsN (setBitsN old.toNat 32 6 (b.core / 4 % 40)) 30 2 (b.core % 4))
    24 6 b.slot) 19 5 (laneOf k))

/-- BRK under a debugger (R210): fibres that have just been let pass go on; the others halt the gang, stay at the BRK
and take the debugger's focus, lowest first. -/
def brkDebug (f : Fields) (s : State) : State :=
  let act := s.active f
  let stay := act.filter fun t => !(s.fib t.key).passBrk
  let s1 := s.forActive f 0 fun s' t =>
    if (s.fib t.key).passBrk then (s'.updFib t.key fun x => { x with passBrk := false }).adv t 0
    else s'.updFib t.key fun x => { x with passBrk := true }
  match stay with
  | [] => s1
  | t :: _ =>
    let w := wgOf t.key
    let die := s.wgDie w
    let s2 := s1.updGang (s.wg w).gang fun g => { g with halted := true }
    { s2 with dbg := Map.put s2.dbg die (dbgFocus s t.key (Map.getD s2.dbg die 0)) }

/-- BRK of a sequencer under a debugger (R210, R256, R267): it halts the gang and stays, or is passed once. -/
def brkSeq (f : Fields) (s : State) : State :=
  (s.active f).foldl (fun s t =>
    if (s.seq t).passBrk then (s.updSeq t fun m => { m with passBrk := false }).adv t 0
    else (s.updSeq t fun m => { m with passBrk := true }).updGang (s.wg (s.seq t).wg).gang fun g => { g with halted := true })
    ((s.threads.filter fun t => !s.guard f t).foldl (fun s t => s.adv t 0) s)

def State.dbgOn (s : State) (t : Thr) : Bool := (s.wg (s.wgOfThr t)).ctrl.getLsbD 2

def execBrk (f : Fields) (s : State) : Host.Outcome State Fault Refusal :=
  match s.focus, s.threads with
  | e, t :: _ =>
    if s.dbgOn t then .next (match e with
      | .band _ => brkDebug f s
      | _ => brkSeq f s)
    else .next (s.tryActive f 0 fun s' t => .error (precise 0x11 0 0 (s'.pcOf t)))
  | _, _ => .next (s.tryActive f 0 fun s' t => .error (precise 0x11 0 0 (s'.pcOf t)))

/-! ### Special registers (R188) -/

/-- Place of an element in a list; the list's length where it is absent. -/
def indexIn (l : List Nat) (x : Nat) : Nat := l.findIdx (· = x)

/-- %quad: the logical number of the gang's quad in this launch (R12). -/
def State.logicalQuad (s : State) (w : Nat) : Nat :=
  indexIn (s.share (s.wg w).share).quads (s.wgQuad w % 40)

/-- Registers whose value belongs to the workgroup (R188); a sequencer reads its forking workgroup's. -/
def srWg (s : State) (w n : Nat) : W32 :=
  let g := s.wg w
  let sh := s.share g.share
  if n = 0x03 then g.x
  else if n = 0x04 then g.y
  else if n = 0x05 then g.z
  else if n = 0x06 then lo32 (s.gang g.gang).lin
  else if n = 0x07 then BitVec.ofNat 32 (g.core % 4)
  else if n = 0x08 then BitVec.ofNat 32 (s.logicalQuad w)
  else if n = 0x09 then BitVec.ofNat 32 sh.dieIndex
  else if n = 0x0A then BitVec.ofNat 32 sh.pkgIndex
  else if n = 0x0B then BitVec.ofNat 32 s.fab.pkgid
  else if n = 0x0C then sh.gridx
  else if n = 0x0D then sh.gridy
  else if n = 0x0E then sh.gridz
  else if n = 0x0F then BitVec.ofNat 32 g.size
  else if n = 0x11 then lo32 s.timeNs
  else if n = 0x15 then lo32 g.lin
  else if n = 0x16 then BitVec.ofNat 32 (s.wgDie w)
  else if n = 0x17 then hi32 g.lin
  else if n = 0x18 then hi32 (s.gang g.gang).lin
  else if n = 0x30 then g.ctrl
  else if 0x40 ≤ n ∧ n ≤ 0x5F then Map.getD g.k (n - 0x40) 0
  else 0

/-- Lanes of a band whose fibres are live (R90). -/
def liveMask (s : State) (b : Nat) : W32 :=
  bitMask ((List.range 32).filter fun l => decide ((s.fib (b * 32 + l)).status ≠ .exited))

/-- The value SRD gives a fibre. -/
def srFib (s : State) (k n : Nat) : W32 :=
  let x := s.fib k
  let b := bandOf k
  let bd := s.band b
  let j := x.jsel.toNat % 8
  if n = 0x00 then BitVec.ofNat 32 (laneOf k)
  else if n = 0x01 then BitVec.ofNat 32 (b % 32)
  else if n = 0x02 then BitVec.ofNat 32 (k % 1024)
  else if n = 0x10 then x.region
  else if n = 0x12 then x.timehi
  else if n = 0x13 then bitMask (s.batchLanes b)
  else if n = 0x14 then liveMask s b
  else if n = 0x20 then x.tcause
  else if n = 0x21 then lo32 x.tpc
  else if n = 0x22 then lo32 x.taddr
  else if n = 0x23 then hi32 x.taddr
  else if n = 0x24 then x.tregion
  else if n = 0x25 then x.tinfo
  else if n = 0x26 then hi32 x.tpc
  else if n = 0x28 then x.jsel &&& 7#32
  else if n = 0x29 then bd.j j
  else if n = 0x2A then lo32 (bd.ja j)
  else if n = 0x2B then hi32 (bd.ja j)
  else if n = 0x2C then bd.jr j
  else srWg s (wgOf k) n

/-- The value SRD gives a thread. %timehi is latched by the reader's last read of %time; a sequencer, which is one
thread, latches its own (log entry 3). -/
def srRead (s : State) (t : Thr) (n : Nat) : W32 :=
  match t with
  | .fib k => srFib s k n
  | _ => if n = 0x12 then (s.seq t).timehi else srWg s (s.wgOfThr t) n

/-- PrivilegedInstruction of SRD or SWR (R199). -/
def privSr (op n : Nat) (pc : W64) : Cause := precise 0x03 (BitVec.ofNat 32 (op + 256 * n)) 0 pc

def State.latchTime (s : State) (t : Thr) (v : W32) : State :=
  match t with
  | .fib k => s.updFib k fun x => { x with timehi := v }
  | _ => s.updSeq t fun m => { m with timehi := v }

def execSrd (f : Fields) (s : State) : Host.Outcome State Fault Refusal :=
  let n := f.b.toNat
  .next (s.tryActive f 0 fun s' t =>
    let handler := match t with
      | .fib k => (s.fib k).handler
      | _ => false
    if 0x20 ≤ n ∧ n ≤ 0x26 ∧ handler = false then .error (privSr 0xE0 n (s'.pcOf t))
    else
      let s1 := s'.wx t f.d.toNat (srRead s t n)
      let s2 := if n = 0x11 then s1.latchTime t (hi32 s.timeNs) else s1
      .ok (s2.adv t 0))

/-- A special register written by a fibre in handler or user mode; none where it is not writable (R188, R192). -/
def srWrite (s : State) (k n : Nat) (v : W32) : Option State :=
  let x := s.fib k
  let b := bandOf k
  let j := x.jsel.toNat % 8
  if n = 0x28 then some (s.setFib k { x with jsel := v &&& 7#32 })
  else if x.handler = false then none
  else if n = 0x21 then some (s.setFib k { x with tpc := join64 v (hi32 x.tpc) })
  else if n = 0x26 then some (s.setFib k { x with tpc := join64 (lo32 x.tpc) v })
  else if n = 0x29 then
    some ((s.updBand b fun bd => { bd with jmask := Map.put bd.jmask j (v &&& liveMask s b) }).checkRejoin b j)
  else if n = 0x2A then
    some (s.updBand b fun bd => { bd with jaddr := Map.put bd.jaddr j (join64 v (hi32 (bd.ja j))) })
  else if n = 0x2B then
    some (s.updBand b fun bd => { bd with jaddr := Map.put bd.jaddr j (join64 (lo32 (bd.ja j)) v) })
  else none

def execSwr (f : Fields) (s : State) : Host.Outcome State Fault Refusal :=
  let n := f.b.toNat
  .next (s.tryActive f 0 fun s' t =>
    let r := match t with
      | .fib k => srWrite s' k n (srcA f s t)
      | _ => none
    match r with
    | some s1 => .ok (s1.adv t 0)
    | none => .error (privSr 0xE1 n (s'.pcOf t)))

/-! ### RFT (R194) -/

/-- Returned fibres leave their batch; those at one PC form a batch of their own with the age they had (R88, R182). -/
def ownBatches (s : State) (b : Nat) (lanes : List Nat) : State :=
  let s1 := lanes.foldl (fun s l => s.leaveBatch (b * 32 + l)) s
  let s2 := s1.updBand b Band.dropEmpty
  s2.formBatches b lanes

def execRft (f : Fields) (s : State) : Host.Outcome State Fault Refusal :=
  let s1 := s.tryActive f 0 fun s' t =>
    let x := s'.fib t.key
    if x.handler = false then .error (precise 0x03 0xE2 0 (s'.pcOf t))
    else .ok (s'.setFib t.key { x with pc := x.tpc, handler := false, status := .ready, region := x.region + 1,
                                       rentry := x.tpc })
  .next (match s.focus with
    | .band b => ownBatches s1 b (((s.active f).filter fun (t : Thr) => (s.fib t.key).handler).map Thr.lane)
    | _ => s1).markSwitch

end Sys2Proof.Machine
end

