-- ==== Sys2Proof/Machine/Casement.lean ====
section
/-! DEFINITION. The casement unit: LDL, STL, ATOML and the slot instructions, fill answers, notices, pushes and drains
(R212 to R239, R420). -/

namespace Sys2Proof.Machine

/-- The gang of a fibre. -/
def State.gangOf (s : State) (k : Nat) : Nat := (s.wg (wgOf k)).gang

/-- CasementFault (R238). -/
def csmFault (sub slot : Nat) (isLocal' late : Bool) (addr pc : W64) : Cause :=
  { code := 0x08, info := BitVec.ofNat 32 (sub + 16 * slot + if isLocal' then 256 else 0), addr := addr, late := late,
    pfu := false, resume := pc }

/-- The open slot whose local range holds an offset. -/
def slotAt (c : Casement) (o : Nat) : Option (Nat × Slot) :=
  c.slots.find? fun p => decide (64 * p.2.lofs ≤ o) && decide (o < 64 * (p.2.lofs + p.2.llen))

/-- An offset in the read-only part of a slot (R220, R233). -/
def readOnlyAt (x : Slot) (o : Nat) : Bool :=
  let r := o / 64 - x.lofs
  decide (x.mode = 0) || (decide (x.mode = 2) && (decide (r < x.hw) || decide (x.llen - x.hw ≤ r)))

/-! ### LDL, STL, ATOML (R220 to R222, R230, R231) -/

/-- Fields that the lanes of a casement access share. -/
structure CsmArg where
  n : Nat
  wr : Bool
  rd : Bool
  late : Bool
deriving DecidableEq, Repr

/-- What a lane of a casement access meets: a fault, words to be filled, a walk that must wait, or nothing in its way. -/
inductive CsmLane where
  | fault (c : Cause)
  | fill (slot sector : Nat)
  | walk
  | go (slot : Option (Nat × Nat))
deriving DecidableEq, Repr

/-- The words an access touches. -/
def touched (o n : Nat) : BitVec 16 := wordsOf (byteMask (o % 64) n)

/-- Words that must be valid before the access. -/
def needWords (g : CsmArg) (o : Nat) : BitVec 16 := if g.rd ∨ g.n < 4 then touched o g.n else 0

/-- The local bytes of an access that may go: an uncorrectable error is the lane's fault (R213). A store that covers its
codeword reads nothing and replaces it. -/
def goLocal (g : CsmArg) (s : State) (gang o : Nat) (va : W64) (slot : Option (Nat × Nat)) : State × CsmLane :=
  if !g.rd ∧ g.n = 16 then (s, .go slot)
  else
    let r := csmEcc s gang o g.n
    if r.2 then (r.1, .go slot) else (r.1, .fault { (uncorrectable va) with late := g.late })

/-- Checks one lane: offset, bounds, slot, permission, validity (R220, R221). -/
def csmCheck (g : CsmArg) (s : State) (k : Nat) (o : W64) (pc : W64) : State × CsmLane :=
  let gang := s.gangOf k
  let c := s.csm gang
  let on := o.toNat
  if on % g.n ≠ 0 then (s, .fault (misaligned g.n o pc))
  else if c.lsize < on + g.n then (s, .fault (csmFault 3 0 true false o pc))
  else match slotAt c on with
    | none => goLocal g s gang on o none
    | some (sl, x) =>
      if g.wr && readOnlyAt x on then (s, .fault (csmFault 4 sl true false o pc))
      else
        let sec := on / 64 - x.lofs
        let va := sectorVa s gang sl sec
        let y := s.sector gang sl sec
        let need := needWords g on &&& ~~~ y.valid
        let miss := decide (need ≠ 0)
        let tr (acc : Acc) (s : State) : State × Option CsmLane :=
          match sectorTr s gang sl sec acc with
          | (s1, .ok _) => (s1, none)
          | (s1, .error .wait) => (s1, some .walk)
          | (s1, .error (.prot 0 _)) => (s1, some (.fault (csmFault 5 sl false g.late va pc)))
          | (s1, .error e) => (s1, some (.fault (e.cause g.late va pc)))
        if miss && y.ferr then (s, .fault { (uncorrectable va) with late := g.late })
        else
          let r1 := if miss ∨ y.tr = none then tr .read s else (s, none)
          match r1 with
          | (s1, some x) => (s1, x)
          | (s1, none) =>
            let r2 := if g.wr && decide (y.dirty = 0) then tr .write s1 else (s1, none)
            match r2 with
            | (s2, some x) => (s2, x)
            | (s2, none) => if miss then (s2, .fill sl sec) else goLocal g s2 gang on va (some (sl, sec))

/-- Checks every lane in order. -/
def csmChecks (g : CsmArg) (off : Thr → W64) : List Thr → State → State × List (Thr × CsmLane)
  | [], s => (s, [])
  | t :: ts, s =>
    let r := csmCheck g s t.key (off t) (s.pcOf t)
    let q := csmChecks g off ts r.1
    (q.1, (t, r.2) :: q.2)

/-- The fill errors that the lanes of an access have met are reported: every lane of the batch takes its fault (R213). -/
def dropFerr (s : State) (off : Thr → W64) (xs : List (Thr × CsmLane)) : State :=
  xs.foldl (fun s x => match x.2, slotAt (s.csm (s.gangOf x.1.key)) (off x.1).toNat with
    | .fault _, some (sl, t) =>
      let g := s.gangOf x.1.key
      let k := (off x.1).toNat / 64 - t.lofs
      if (s.sector g sl k).ferr then s.setSector g sl k { s.sector g sl k with ferr := false } else s
    | _, _ => s) s

/-- Requests the fills that lanes need. -/
def askFills (s : State) (xs : List (Thr × CsmLane)) : State :=
  xs.foldl (fun s x => match x.2 with
    | .fill sl k =>
      let g := s.gangOf x.1.key
      let y := s.sector g sl k
      if y.refill.isSome then s else s.setSector g sl k { y with refill := some [] }
    | _ => s) s

/-- Local bytes. -/
def csmGet (s : State) (gang o n : Nat) : Nat := readCells (s.csm gang).bytes o n

/-- Writes local bytes of a fibre, and marks them dirty where a slot maps them (R220, R230); a whole codeword is replaced with its
errors. -/
def csmPut (s : State) (fib gang o n v : Nat) (sec : Option (Nat × Nat)) : State :=
  let s1 := s.updCsm gang fun c =>
    { c with bytes := writeCells c.bytes o v n, bad := if n = 16 then Map.del c.bad (o / 16) else c.bad }
  match sec with
  | none => s1
  | some (sl, k) =>
    let y := s1.sector gang sl k
    let ce := (s1.csm gang).ce
    let m := byteMask (o % 64) n
    let w := touched o n
    let z := { y with valid := y.valid ||| w, dirty := y.dirty ||| m, fresh := y.fresh ||| w, w := ce, by' := fib,
                      t := if y.dirty = 0 then ce else y.t }
    let s2 := s1.setSector gang sl k z
    let a := agentCsm (s.gang gang).quad
    if y.dirty = 0 then queueMsg s2 ⟨a, y.ln, ce, false⟩
    else if y.w < ce then queueMsg s2 ⟨a, y.ln, ce, true⟩
    else s2

/-- LDL with ACQ at .die or wider on a casement word (R231): every other source of the line is drained, and the home's
bytes go into the words of the access that are not dirty. None where it must wait. -/
def csmAcqWord (s : State) (gang sl k : Nat) (w : BitVec 16) : Option (State × Bool) :=
  match sectorTr s gang sl k .read with
  | (_, .error _) => none
  | (s1, .ok (l, pa)) =>
    let ln := pa / 64
    let a := agentCsm (s.gang gang).quad
    if !homeOpen s1 a ln .read then none
    else match drainSources (homeTake s1 ln) ln (some a) with
      | none => none
      | some s2 =>
        if !homeReady s2 ln .read then none
        else match homeRead s2 ln l.key l.cmps with
        | none => some (s2, false)
        | some (s3', line) =>
          let s3 := homeServed s3' a ln
          let y := s3.sector gang sl k
          let put := w &&& ~~~ dirtyWords y
          let s4 := putSector s3 gang sl k (bytesOf put) line
          let s5 := s4.setSector gang sl k { y with valid := y.valid ||| put }
          let q := (s.gang gang).quad % 40
          some (s5.setHome ln { s5.home ln with sharers := (s5.home ln).sharers ||| (1#40 <<< q) }, true)

/-- The lines whose snoops the sectors need. -/
def sectorLines (s : State) (xs : List (Thr × CsmLane)) : List Nat :=
  xs.filterMap fun x => match x.2 with
    | .fill sl k => some (s.sector (s.gangOf x.1.key) sl k).ln
    | .go (some (sl, k)) => some (s.sector (s.gangOf x.1.key) sl k).ln
    | _ => none

/-- One lane of LDL whose words are valid. -/
def ldlLane (d n : Nat) (sx acq : Bool) (scope : Nat) (off : Thr → W64) (s : State) (x : Thr × CsmLane) :
    Option (State × Fate × Option LaneReq) :=
  let t := x.1
  let gang := s.gangOf t.key
  let o := (off t).toNat
  match x.2 with
  | .fault c =>
    if c.late then let p := loadFault s t d n c; some (p.1, p.2, none) else some (s, .prec c, none)
  | .fill _ _ | .walk => none
  | .go none => some (loadDone s t d n sx (csmGet s gang o n), .ok, none)
  | .go (some (sl, k)) =>
    if acq && decide (3 ≤ scope) then
      match csmAcqWord s gang sl k (touched o n) with
      | none => none
      | some (s1, false) => let p := loadFault s1 t d n (uncorrectable (sectorVa s gang sl k)); some (p.1, p.2, none)
      | some (s1, true) => some (loadDone s1 t d n sx (csmGet s1 gang o n), .ok, none)
    else some (loadDone s t d n sx (csmGet s gang o n), .ok, none)

def memOff (f : Fields) (disp : W32) (s : State) (t : Thr) : W64 := addDisp (pairA f s t) disp

def isGo (x : Thr × CsmLane) (scratch : Bool) : Bool :=
  match x.2 with
  | .go none => scratch
  | .go (some _) => !scratch
  | _ => false

/-- A lane has words to be filled, or a walk to wait for. -/
def anyFill (xs : List (Thr × CsmLane)) : Bool := xs.any fun x =>
  match x.2 with
  | .fill _ _ | .walk => true
  | _ => false

/-- The acquire that ends LDL with ACQ at .quad or wider: of a casement word R228, with the core's self-invalidation at
.die or wider; of a scratch word a fence acquire (R231). -/
def csmEndAcq (s : State) (w scope : Nat) (xs : List (Thr × CsmLane)) : Option State :=
  if scope < 2 ∨ xs.isEmpty then some s
  else
    let s1 := if xs.any fun x => isGo x true then fenceAcquire s w scope else some s
    match s1 with
    | none => none
    | some s2 =>
      if xs.any fun x => isGo x false then (if scope = 2 then csmAcquire s2 (s.wg w).gang false else afterAcquire s2 w)
      else some s2

def ldlOp (f : Fields) (disp : W32) (len : Nat) (s : State) : Host.Outcome State Fault Refusal :=
  let act := s.active f
  let n := ldSize f.sub.toNat
  let off := memOff f disp s
  let r := csmChecks { n := n, wr := false, rd := true, late := true } off act s
  if anyFill r.2 then .next (askFills r.1 r.2)
  else match runLanes (ldlLane f.d.toNat n (signedLd f.sub.toNat) (flagACQ f) (scopeFld f) off) (fun x => x.1) r.2 r.1 with
    | none => .next (askAll r.1 .read (sectorLines r.1 r.2))
    | some (s2, fates, _) =>
      match (if flagACQ f then csmEndAcq s2 (wgOf ((act.map Thr.key).headD 0)) (scopeFld f) r.2 else some s2) with
      | none => .next r.1
      | some s3 => .next (finish (dropFerr s3 off r.2) len (s.idle f) false fates)

def execLdl (f : Fields) (s : State) : Host.Outcome State Fault Refusal := ldlOp f 0 0 s
def execLdl96 (f : Fields) (imm : W32) (s : State) : Host.Outcome State Fault Refusal := ldlOp f imm 1 s

/-- One lane of STL. -/
def stlLane (c n : Nat) (src : State) (off : Thr → W64) (s : State) (x : Thr × CsmLane) :
    Option (State × Fate × Option LaneReq) :=
  match x.2 with
  | .fault z => some (s, if z.late then .late z 0 else .prec z, none)
  | .fill _ _ | .walk => none
  | .go sec => some (csmPut s x.1.key (s.gangOf x.1.key) (off x.1).toNat n (storeData src x.1 c n) sec, .ok, none)

def stlOp (f : Fields) (disp : W32) (len : Nat) (s : State) : Host.Outcome State Fault Refusal :=
  let act := s.active f
  let n := stSize f.sub.toNat
  let off := memOff f disp s
  let rel := flagREL f
  let r := csmChecks { n := n, wr := true, rd := false, late := true } off act s
  if anyFill r.2 then .next (askFills r.1 r.2)
  else if rel && !closerReady s act then .next s
  else match releaseFirst r.1 rel (scopeFld f) act with
    | (s1, false) => .next s1
    | (s1, true) =>
      match runLanes (stlLane f.c.toNat n s off) (fun x => x.1) r.2 s1 with
      | none => .next s1
      | some (s2, fates, _) => .next (finish (dropFerr s2 off r.2) len (s.idle f) rel fates)

def execStl (f : Fields) (s : State) : Host.Outcome State Fault Refusal := stlOp f 0 0 s
def execStl96 (f : Fields) (imm : W32) (s : State) : Host.Outcome State Fault Refusal := stlOp f imm 1 s

/-- One lane of ATOML (R222). -/
def atomlLane (f : Fields) (n : Nat) (src : State) (off : Thr → W64) (s : State) (x : Thr × CsmLane) :
    Option (State × Fate × Option LaneReq) :=
  let t := x.1
  match x.2 with
  | .fault z => some (s, if z.late then .now z else .prec z, none)
  | .fill _ _ | .walk => none
  | .go sec =>
    let gang := s.gangOf t.key
    let o := (off t).toNat
    let old := csmGet s gang o n
    let v := atomOp f.sub.toNat n old (atomOperand src t f.c.toNat (decide (n = 8))).toNat
    let regs := destRegs f.d.toNat n
    let s1 := csmPut s t.key gang o n v sec
    some (s1.pend t regs ((List.range regs.length).map fun i => BitVec.ofNat 32 (old / 2 ^ (32 * i))) [] [] true, .ok, none)

def atomlOp (f : Fields) (disp : W32) (len : Nat) (s : State) : Host.Outcome State Fault Refusal :=
  let act := s.active f
  let n := if flagW64 f then 8 else 4
  let off := memOff f disp s
  let r := csmChecks { n := n, wr := true, rd := true, late := true } off act s
  if anyFill r.2 then .next (askFills r.1 r.2)
  else if !closerReady s act then .next s
  else match releaseFirst r.1 (flagREL f) (scopeFld f) act with
    | (s1, false) => .next s1
    | (s1, true) =>
      match runLanes (atomlLane f n s off) (fun x => x.1) r.2 s1 with
      | none => .next s1
      | some (s2, fates, _) =>
        match (if flagACQ f ∧ 2 ≤ scopeFld f ∧ act ≠ [] then afterAcquire s2 (wgOf ((act.map Thr.key).headD 0)) else some s2) with
        | none => .next s1
        | some s3 => .next (finish (dropFerr s3 off r.2) len (s.idle f) true fates)

def execAtoml (f : Fields) (s : State) : Host.Outcome State Fault Refusal := atomlOp f 0 0 s
def execAtoml96 (f : Fields) (imm : W32) (s : State) : Host.Outcome State Fault Refusal := atomlOp f imm 1 s

/-! ### CSM.OPEN (R219) -/

def rangesMeet (a n b m : Nat) : Bool := decide (a < b + m) && decide (b < a + n)

/-- The fault subcode of opening a slot, or none. -/
def openFault (c : Casement) (slot : Nat) (x : Slot) : Option Nat :=
  if (Map.get c.slots slot).isSome then some 2
  else if x.llen = 0 ∨ 16384 < x.llen ∨ x.gbase.toNat % 64 ≠ 0 then some 6
  else if x.mode = 2 ∧ (x.hw = 0 ∨ x.llen ≤ 2 * x.hw) then some 6
  else if c.lsize < (x.lofs + x.llen) * 64 then some 3
  else if c.slots.any fun p => rangesMeet p.2.lofs p.2.llen x.lofs x.llen
      || rangesMeet p.2.gbase.toNat (64 * p.2.llen) x.gbase.toNat (64 * x.llen) then some 1
  else none

/-- The slot that CSM.OPEN describes (R218). -/
def openSlot (sub body role : Nat) (g : W64) : Slot :=
  { lofs := body / 2 ^ 4 % 2 ^ 14, llen := body / 2 ^ 18 % 2 ^ 15, gbase := g, mode := sub,
    hw := body / 2 ^ 33 % 2 ^ 10, role := role, sectors := [] }

def execCsmOpen (f : Fields) (ext : Ext) (s : State) : Host.Outcome State Fault Refusal :=
  let act := s.active f
  match act with
  | [] => .next (finish s 2 (s.idle f) false [])
  | t :: _ =>
    let gang := s.gangOf t.key
    let body := ext.body.toNat
    let slot := body % 16
    let x := openSlot f.sub.toNat body ext.role.toNat (pairA f s t)
    match openFault (s.csm gang) slot x with
    | some sub =>
      let c := csmFault sub (if sub = 3 then 0 else slot) true false (BitVec.ofNat 64 (64 * x.lofs)) (s.pcOf t)
      .next (finish s 2 (s.idle f) true (act.map fun t => (t, .prec c)))
    | none =>
      .next (finish (s.updCsm gang fun c => { c with slots := Map.put c.slots slot x }) 2 (s.idle f) true
        (act.map fun t => (t, .ok)))

/-! ### CSM.CLOSE, FLUSH, DROP, PUSH (R223, R224) -/

/-- Slots a selector names, or the fault of one that is closed. -/
def selected (s : State) (gang sel : Nat) : Except Nat (List Nat) :=
  if sel / 16 % 2 = 1 then .ok (slotsOf s gang)
  else if (Map.get (s.csm gang).slots (sel % 16)).isSome then .ok [sel % 16]
  else .error 8

/-- A sector that is not absent, of another slot on the quad, maps the line. -/
def sharedElsewhere (s : State) (quad gang sl ln : Nat) : Bool :=
  (gangsOnQuad s quad).any fun g => (s.csm g).slots.any fun p =>
    decide (g ≠ gang ∨ p.1 ≠ sl) && p.2.sectors.any fun q => decide (q.2.ln = ln ∧ q.2.valid ≠ 0)

/-- Clears the quad's sharer bit of every sector of a slot; it stays for a line that another open slot on the quad still
holds, so that no notice is lost (R227, R229, log entry 51). -/
def clearSharers (s : State) (gang sl : Nat) : State :=
  match Map.get (s.csm gang).slots sl with
  | none => s
  | some x =>
    let q := (s.gang gang).quad % 40
    x.sectors.foldl (fun s p =>
      if (memDie (64 * p.2.ln)).isSome && !sharedElsewhere s (s.gang gang).quad gang sl p.2.ln then
        s.setHome p.2.ln { s.home p.2.ln with sharers := (s.home p.2.ln).sharers &&& ~~~ (1#40 <<< q) }
      else s) s

def closeSlot (s : State) (gang sl : Nat) : State :=
  (clearSharers s gang sl).updCsm gang fun c => { c with slots := Map.del c.slots sl }

/-- The gang's other dirty sectors that the order rule puts before those of a CLOSE or FLUSH (R165, R230). -/
def flushFirst (gang : Nat) (secs : List (Nat × Nat)) (s : State) : Option State :=
  csmWbList gang ((csmOrder s gang 0 secs.contains).filter fun d => !secs.contains d) s

/-- Writes back the dirty sectors of slots for a CLOSE or FLUSH: done, a fault at a sector, or wait. A fault kept from
an earlier write-back of the sector is reported here (R420). A page that is gone is reported as unserviced
(log entry 15). -/
def flushSectors (gang : Nat) : List (Nat × Nat) → State → State × Except (Option (Nat × W64 × Nat × Bool)) Unit
  | [], s => (s, .ok ())
  | (sl, k) :: l, s =>
    let y := s.sector gang sl k
    let va := sectorVa s gang sl k
    match y.err with
    | some (c, p) => (s.setSector gang sl k { y with err := none }, .error (some (sl, va, c, p)))
    | none =>
      match csmWb s gang sl k with
      | (s1, .ok) => flushSectors gang l s1
      | (s1, .fail c p) => (s1, .error (some (sl, va, c, p)))
      | (s1, .wait) =>
        match sectorTr s1 gang sl k .write with
        | (s2, .error .page) => (s2, .error (some (sl, va, 9, false)))
        | (s2, _) => (s2, .error none)

def slotSectors (s : State) (gang : Nat) (sls : List Nat) : List (Nat × Nat) :=
  sls.flatMap fun sl => match Map.get (s.csm gang).slots sl with
    | some x => x.sectors.keys.map fun k => (sl, k)
    | none => []

/-- A write-back fault of a slot's sector as the issuing fibres' cause; code 0 is a sector that is now homed off the die. -/
def flushCause (sl : Nat) (va : W64) (code : Nat) (pfu : Bool) (pc : W64) : Cause :=
  if code = 0 then csmFault 5 sl false false va pc
  else if code = 0x13 then precise 0x13 0 va pc else { precise 0x06 (BitVec.ofNat 32 code) va pc with pfu := pfu }

/-- The four slot instructions: 0 CLOSE, 1 FLUSH, 2 DROP, 3 PUSH. -/
def slotOp (kind : Nat) (f : Fields) (s : State) : Host.Outcome State Fault Refusal :=
  let act := s.active f
  match act with
  | [] => .next (finish s 0 (s.idle f) false [])
  | t :: _ =>
    let gang := s.gangOf t.key
    let sel := (srcA f s t).toNat
    let fail (s : State) (c : Cause) : Host.Outcome State Fault Refusal :=
      .next (finish s 0 (s.idle f) true (act.map fun t => (t, .prec c)))
    let done (s1 : State) : Host.Outcome State Fault Refusal :=
      .next (finish s1 0 (s.idle f) true (act.map fun t => (t, .ok)))
    match selected s gang sel with
    | .error sub => fail s (csmFault sub (sel % 16) true false 0 (s.pcOf t))
    | .ok sls =>
      let isHalo (sl : Nat) : Bool := match Map.get (s.csm gang).slots sl with
        | some x => decide (x.mode = 2)
        | none => false
      if kind = 2 then done (sls.foldl (fun s sl => closeSlot s gang sl) s)
      else if kind = 3 ∧ sel / 16 % 2 = 0 ∧ isHalo (sel % 16) = false then
        let ofs := match Map.get (s.csm gang).slots (sel % 16) with
          | some x => 64 * x.lofs
          | none => 0
        fail s (csmFault 7 (sel % 16) true false (BitVec.ofNat 64 ofs) (s.pcOf t))
      else
        let s1 := pushSlots s gang sls
        if !pushDone s1 gang then .next s1
        else if kind = 3 then done s1
        else match (if csmTurn s1 gang then flushFirst gang (slotSectors s1 gang sls) s1 else none) with
        | none => .next s1
        | some s1' => match flushSectors gang (slotSectors s1 gang sls) s1' with
          | (s2, .error none) => .next s2
          | (s2, .error (some (sl, va, c, p))) => fail s2 (flushCause sl va c p (s.pcOf t))
          | (s2, .ok ()) => done (if kind = 0 then sls.foldl (fun s sl => closeSlot s gang sl) s2 else s2)

def execCsmClose (f : Fields) (s : State) : Host.Outcome State Fault Refusal := slotOp 0 f s
def execCsmFlush (f : Fields) (s : State) : Host.Outcome State Fault Refusal := slotOp 1 f s
def execCsmDrop (f : Fields) (s : State) : Host.Outcome State Fault Refusal := slotOp 2 f s
def execCsmPush (f : Fields) (s : State) : Host.Outcome State Fault Refusal := slotOp 3 f s

/-! ### Events of the casement units -/

/-- Version a is older than version b (R226). -/
def older32 (a b : W32) : Bool := decide (a ≠ b) && !(b - a).getLsbD 31

/-- Resolves one held notice at an answer of version v that filled `w` (R229). -/
def resolveNotice (v : W32) (w : BitVec 16) (n : Notice) : Option Notice :=
  if n.version = v ∨ older32 n.version v then
    if n.words &&& ~~~ w = 0 then none else some { n with words := n.words &&& ~~~ w }
  else some n

/-- A fill that meets an uncorrectable error, at the home or in the local store (R213). -/
def fillFails (s : State) (gang sl k : Nat) (held : List Notice) : State :=
  (s.setSector gang sl k { s.sector gang sl k with refill := none, ferr := true }).updCsm gang fun c =>
    { c with queue := c.queue ++ held }

/-- CASEMENT_FILL_ANSWER (R221, R229): the home answers the pending fill of a sector. -/
def execCasementFillAnswer (gang sl k : Nat) (s : State) : Host.Outcome State Fault Refusal :=
  let y := s.sector gang sl k
  match y.refill with
  | none => .next s
  | some held =>
    match sectorTr s gang sl k .read with
    | (s1, .error .wait) => .next s1
    | (s1, .error _) =>
      .next ((s1.setSector gang sl k { s1.sector gang sl k with refill := none }).updCsm gang fun c =>
        { c with queue := c.queue ++ held })
    | (s1, .ok (l, pa)) =>
      let ln := pa / 64
      if !homeReady s1 ln .read then .next (homeAsk s1 ln .read)
      else match homeRead (homeUse s1 ln) ln l.key l.cmps with
        | none => .next (fillFails s1 gang sl k held)
        | some (s2', line) =>
          if !(sectorEcc s2' gang sl k).2 then .next (fillFails s2' gang sl k held) else
          let s2 := (sectorEcc s2' gang sl k).1
          let z := s2.sector gang sl k
          let w := ~~~ z.valid
          let v := (s2.home ln).version
          let s3 := putSector s2 gang sl k (bytesOf w) line
          let s4 := s3.setSector gang sl k { z with valid := BitVec.allOnes 16, refill := none }
          let q := (s.gang gang).quad % 40
          let s5 := s4.setHome ln { s4.home ln with sharers := (s4.home ln).sharers ||| (1#40 <<< q) }
          let s6 := s5.updCsm gang fun c => { c with queue := c.queue ++ held.filterMap (resolveNotice v w) }
          .next (csmDebt s6 gang ln)

def execCasementNotice (quad : Nat) (s : State) : Host.Outcome State Fault Refusal := .next (takeNotice s quad)

def execCasementAcquire (gang : Nat) (s : State) : Host.Outcome State Fault Refusal :=
  .next ((csmAcquire s gang false).getD s)

/-- The slot of a receiving gang that a push matches: one that is on the quad (R234, R236). -/
def pushTarget (s : State) (m : PushMsg) : Option (Nat × Nat) :=
  (s.csms.findSome? fun p =>
    if (s.gang p.1).quad = m.quad ∧ (s.gang p.1).share = m.share ∧ !(s.gang p.1).suspended then
      match Map.get p.2.slots m.slot with
      | some x =>
        let strip := if m.left then x.gbase.toNat else x.gbase.toNat + 64 * (x.llen - x.hw)
        if x.mode = 2 ∧ x.hw = m.hw ∧ strip = m.base then some (p.1, if m.left then 0 else x.llen - x.hw) else none
      | none => none
    else none)

/-- HALO_PUSH (R234): the oldest push of a gang reaches its receiver. A strip sector that has no translation of its own takes
the line that the owner's names, so that notices of the line reach it (R227). -/
def execHaloPush (gang : Nat) (s : State) : Host.Outcome State Fault Refusal :=
  match (s.csm gang).out with
  | [] => .next s
  | m :: rest =>
    let s1 := s.updCsm gang fun c => { c with out := rest }
    match pushTarget s1 m with
    | none => .next s1
    | some (g, sec0) =>
      .next (m.words.foldl (fun s w =>
        let k := sec0 + w.1 / 16
        let y := s.sector g m.slot k
        let line : Line := BitVec.ofNat 512 (w.2.toNat * 2 ^ (32 * (w.1 % 16)))
        (putSector s g m.slot k (byteMask (4 * (w.1 % 16)) 4) line).setSector g m.slot k
          { y with valid := y.valid ||| (1#16 <<< (w.1 % 16)),
                   ln := if y.tr.isSome then y.ln else Map.getD m.lines (w.1 / 16) y.ln }) s1)

/-- CASEMENT_DRAIN (R230). -/
def execCasementDrain (quad e line : Nat) (s : State) : Host.Outcome State Fault Refusal :=
  .next ((drainCsm s quad e line).getD s)

/-- CASEMENT_BACKGROUND_WRITEBACK (R230). -/
def execCasementBackgroundWriteback (gang : Nat) (s : State) : Host.Outcome State Fault Refusal :=
  .next (csmBackground s gang)

/-! ### Events of the L1s and the homes (R163 to R169) -/

/-- Delivers the oldest ownership request or epoch update of an agent for a line: not one that has received RETRY (R169), nor
to a page whose bias is changing (R400); at a host-biased line it asks the host and adds no source (R403). -/
def deliverOwn (upd : Bool) (agent line : Nat) (s : State) : Host.Outcome State Fault Refusal :=
  match s.mem.msgs.find? fun m => decide (m.agent = agent ∧ m.line = line ∧ m.upd = upd) with
  | none => .next s
  | some m =>
    let done (s : State) : State := homeServed (s.updMem fun x => { x with msgs := x.msgs.erase m }) agent line
    if !homeTurn s agent line || decide (2 ≤ Map.getD s.mem.bias (pageOf line) 0) then .next s
    else if hostBiased s line then
      .next (if homeReady s line .write then done (homeUse s line) else homeAsk s line .write)
    else match addSource s line agent m.epoch with
    | none => .next s
    | some s1 => .next (done s1)

def execOwnershipRequest (agent line : Nat) (s : State) : Host.Outcome State Fault Refusal := deliverOwn false agent line s
def execEpochUpdate (agent line : Nat) (s : State) : Host.Outcome State Fault Refusal := deliverOwn true agent line s

/-- WRITE_BACK (R164, R165): a core's line or a casement unit's sectors of the line, under the order rule. -/
def execWriteBack (agent line : Nat) (s : State) : Host.Outcome State Fault Refusal :=
  if !homeTurn s agent line then .next s
  else if agent < 2560 then .next (coreDrainLines s agent 0 [line])
  else .next ((drainCsm s (agent - 2560) 0 line).getD s)

/-- DRAIN (R165). -/
def execDrain (core e line : Nat) (s : State) : Host.Outcome State Fault Refusal := .next ((drainCore s core e line).getD s)

/-- BACKGROUND_DRAIN (R166). -/
def execBackgroundDrain (core : Nat) (s : State) : Host.Outcome State Fault Refusal := .next (coreBackground s core)

/-- RETRY (R31, R169): requests of the requesters `reqs` meet at a line; the first at or after P wins, P moves past it, and
the others' requests are served after its own. Nothing while requests that met before are still to be served. -/
def execRetry (line : Nat) (reqs : List Nat) (s : State) : Host.Outcome State Fault Refusal :=
  let k := sliceKey s line
  let p := Map.getD s.mem.ptrs k 0
  match ((List.range 43).map fun i => (p + i) % 43).find? reqs.contains with
  | none => .next s
  | some win =>
    let rest := reqs.filter (· ≠ win)
    if Map.has s.mem.retry line then .next s
    else .next (s.updMem fun m => { m with
      ptrs := Map.put m.ptrs k ((win + 1) % 43)
      retry := if rest.isEmpty then m.retry else Map.put m.retry line (win, rest) })

/-- L1_FILL (R163, R168, R173): a line that a PREF asked for arrives; an error of a prefetch is dropped. -/
def execL1Fill (core line : Nat) (s : State) : Host.Outcome State Fault Refusal :=
  match (s.core core).pref.find? fun p => p.1 = line with
  | none => .next s
  | some p =>
    if !homeReady s line .read then .next (homeAsk s line .read)
    else
      let s1 := s.updCore core fun k => { k with pref := k.pref.erase p }
      if hostBiased s line then .next (homeUse s1 line)
      else .next ((l1Fill s1 { fib := 0, core := core, kid := p.2.1, cmps := p.2.2, priv := false, va := 0 } line).getD s1)

/-- L2_EVICTION (R164). -/
def execL2Eviction (line : Nat) (s : State) : Host.Outcome State Fault Refusal := .next ((evictL2 s line).getD s)

/-- L2_FILL (R80): a line that a PREF asked for enters its home. -/
def execL2Fill (line : Nat) (s : State) : Host.Outcome State Fault Refusal :=
  match s.mem.prefL2.find? fun p => p.1 = line with
  | none => .next s
  | some p =>
    if !homeReady s line .read then .next (homeAsk s line .read)
    else
      let s1 := (homeUse s line).updMem fun m => { m with prefL2 := m.prefL2.erase p }
      .next ((s1.ensure line p.2.1 p.2.2).getD s1)

end Sys2Proof.Machine
end

