-- ==== Sys2Proof/Machine/Control.lean ====
section
/-! DEFINITION. Control transfer, rejoins, fibre creation, YIELD and IDEM (R96 to R103, R107 to R109). -/

namespace Sys2Proof.Machine

/-- BRA, CALL, BRX, CALLX and RET (R97): each active thread reads its target, writes the link where there is one, and
goes to the target; those that close the region begin the new one there (R201). A taken transfer makes the next
instruction a switch point (R44). -/
def transfer (f : Fields) (len : Nat) (link closes : Bool) (s : State) (tgt : Thr → W64) :
    Host.Outcome State Fault Refusal :=
  let seq (t : Thr) : W64 := seqPc (s.pcOf t) len
  let s1 := s.forActive f len fun s' t =>
    let s' := if link then s'.wxp t f.d.toNat (seq t) else s'
    let s' := s'.setPc t (tgt t)
    if closes then s'.closeRegion t else s'
  .next (if (s.active f).any fun t => tgt t != seq t then s1.markSwitch else s1)

/-- Target of a PC-relative transfer (R39). -/
def relTarget (s : State) (imm : W32) (t : Thr) : W64 := addDisp (s.pcOf t) imm

def execBra (f : Fields) (imm : W32) (s : State) : Host.Outcome State Fault Refusal :=
  transfer f 1 false false s (relTarget s imm)
def execBrx (f : Fields) (s : State) : Host.Outcome State Fault Refusal :=
  transfer f 0 false true s (pairA f s)
def execCall (f : Fields) (imm : W32) (s : State) : Host.Outcome State Fault Refusal :=
  transfer f 1 true true s (relTarget s imm)
def execCallx (f : Fields) (s : State) : Host.Outcome State Fault Refusal :=
  transfer f 0 true true s (pairA f s)
def execRet (f : Fields) (s : State) : Host.Outcome State Fault Refusal :=
  transfer f 0 false true s (pairA f s)

/-- The focus band, where the focus engine is a band. -/
def State.focusBand (s : State) : Nat :=
  match s.focus with
  | .band b => b
  | _ => 0

/-- JOIN (R99): the active lanes enter the mask and its rejoin address is replaced. -/
def execJoin (f : Fields) (imm : W32) (s : State) : Host.Outcome State Fault Refusal :=
  let act := s.active f
  let n := f.d.toNat
  let mask := bitMask (act.map Thr.lane)
  let s1 := match act with
    | [] => s
    | t :: _ => s.updBand s.focusBand fun b =>
        { b with jmask := Map.put b.jmask n (b.j n ||| mask), jaddr := Map.put b.jaddr n (relTarget s imm t) }
  .next (s1.forActive f 1 fun s' t => s'.adv t 1)

/-- WAIT (R100): the active fibres arrive and wait; then CheckRejoin. -/
def execWait (f : Fields) (s : State) : Host.Outcome State Fault Refusal :=
  let act := s.active f
  let n := f.a.toNat
  let b := s.focusBand
  let s1 := (s.threads.filter fun t => !s.guard f t).foldl (fun s t => s.adv t 0) s
  let s2 := act.foldl (fun s t =>
    let k := t.key
    let s := s.updFib k fun x => { x with status := .waiting, waitOn := .rejoin n, waitPc := x.pc, pc := seqPc x.pc 0 }
    (s.leaveBatch k).updBand b fun bd => { bd with jarr := Map.put bd.jarr n (bd.jr n ||| (1#32 <<< laneOf k)) }) s1
  .next ((s2.checkRejoin b n).regroup b)

/-- YIELD (R108): with an active fibre, the batch takes the youngest age, the band's next issue is a switch point, and
the band chooses anew (R182). -/
def execYield (f : Fields) (s : State) : Host.Outcome State Fault Refusal :=
  let b := s.focusBand
  let s1 := s.forActive f 0 fun s' t => s'.adv t 0
  match s.active f with
  | [] => .next s1
  | t :: _ =>
    let bd := s1.band b
    let age := bd.nextAge
    match bd.batches.find? fun x => x.mask.getLsbD t.lane with
    | none => .next s1
    | some y =>
      let s2 := s1.setBand b { bd with
        batches := bd.batches.map fun x => if x.id = y.id then { x with age := age } else x,
        nextAge := age + 1, sp := true }
      .next (((bitList y.mask).foldl (fun s l => s.updFib (b * 32 + l) fun x => { x with age := age }) s2).choose b)

/-- IDEM (R109): each active fibre starts a new region at its next instruction. -/
def execIdem (f : Fields) (s : State) : Host.Outcome State Fault Refusal :=
  .next (s.forActive f 0 fun s' t => (s'.adv t 0).closeRegion t)

/-! ### FIB.NEW (R102, R103) -/

/-- Exited lanes of a band in the order of R103: those of slices that hold a live fibre first, lowest lane first. -/
def freeLanesOf (s : State) (b : Nat) : List Nat :=
  let live (l : Nat) : Bool := decide ((s.fib (b * 32 + l)).status ≠ .exited)
  let sliceLive (l : Nat) : Bool := (List.range 8).any fun i => live (l / 8 * 8 + i)
  let free := (List.range 32).filter fun l => !live l
  (free.filter sliceLive) ++ (free.filter fun l => !sliceLive l)

/-- FreeLane: the creator's band first, then the workgroup's other bands in ascending order (R103). -/
def freeLane (s : State) (b : Nat) : Option Nat :=
  let w := b / 32
  let others := ((List.range (s.wg w).nbands).map fun i => w * 32 + i).filter fun x => x ≠ b
  (b :: others).findSome? fun x => (freeLanesOf s x).head?.map fun l => x * 32 + l

/-- The fibre that FIB.NEW makes (R102): it takes its creator's depth (R323). -/
def newFibre (pc : W64) (arg : W32) (depth age : Nat) : Fibre :=
  { Fibre.reset with pc := pc, x := if arg = 0 then [] else [(1, arg)], status := .ready, rentry := pc, depth := depth,
                     age := age }

/-- Creates one fibre for creator `k`; also gives the new fibre's key, where a lane was free. -/
def makeFibre (s : State) (k : Nat) (pc : W64) (arg : W32) : State × Option Nat :=
  match freeLane s (bandOf k) with
  | none => (s, none)
  | some n =>
    (imageFibre ((s.setFib n (newFibre pc arg (s.fib k).depth (s.band (bandOf n)).nextAge)).excludeNew n) n, some n)

/-- FIB.NEW for each active fibre in ascending lane order; the new fibres of one band form one batch of the youngest
age (R89). -/
def execFibNew (f : Fields) (imm : W32) (s : State) : Host.Outcome State Fault Refusal :=
  let act := s.active f
  let (s1, made) := act.foldl (fun (p : State × List Nat) t =>
    let (s', r) := makeFibre p.1 t.key (relTarget s imm t) (srcA f s t)
    match r with
    | none => (s'.arriveX t f.d.toNat 0xFFFFFFFF#32, p.2)
    | some n => (s'.arriveX t f.d.toNat (BitVec.ofNat 32 (n % 1024)), p.2 ++ [n])) (s, [])
  let bands := made.foldl (fun l k => insNat (bandOf k) l) []
  let s2 := bands.foldl (fun s b =>
    let age := (s.band b).nextAge
    let s := s.formBatch b (bitMask ((made.filter fun k => bandOf k = b).map laneOf)) age
    s.updBand b fun bd => { bd with nextAge := age + 1 }) s1
  let s3 := (s.threads.filter fun t => !s.guard f t).foldl (fun s t => s.adv t 1) s2
  .next (act.foldl (fun s t => (s.adv t 1).closeRegion t) s3).settle

end Sys2Proof.Machine
end

