-- ==== Sys2Proof/Machine/StageOps.lean ====
section
/-! DEFINITION. The stage launcher: slots, runs, node queues and groups, and the end of a fibre's hold on its record
(R319, R320, R323 to R329). -/

namespace Sys2Proof.Machine

def State.stage (s : State) (share : Nat) : Proofer := Map.getD s.stages share Proofer.reset
def State.setStage (s : State) (share : Nat) (p : Proofer) : State := { s with stages := Map.put s.stages share p }
def State.updStage (s : State) (share : Nat) (g : Proofer → Proofer) : State :=
  if Map.has s.stages share then s.setStage share (g (s.stage share)) else s

/-! ### The pool (R319) -/

def Proofer.node (p : Proofer) (n : Nat) : NodeEnt := p.nodes.getD n { timer := 0, entry := 0, maxDepth := 0, recur := false, rec' := 16, group := 0 }
def Proofer.recBytes (p : Proofer) (n : Nat) : Nat := (p.node n).rec'
def Proofer.groupSize (p : Proofer) (n : Nat) : Nat := (p.node n).group

/-- First byte of node n's floor; past the last node, of the shared region. -/
def Proofer.floorBase (p : Proofer) (n : Nat) : Nat :=
  p.base + (p.nodes.take n).foldl (fun a x => a + x.group * x.rec') 0

def Proofer.shared (p : Proofer) : Nat := p.floorBase p.nodes.length

/-- No slot of the range [a, a + len) is in use. -/
def Proofer.isFree (p : Proofer) (a len : Nat) : Bool :=
  p.slots.all fun x => decide (x.addr + p.recBytes x.node ≤ a) || decide (a + len ≤ x.addr)

/-- A free range of the shared region: the one proposed where it fits, else the lowest that fits. -/
def Proofer.fitShared (p : Proofer) (len pick : Nat) : Option Nat :=
  let lo := p.shared
  let hi := p.base + p.size
  let ok (a : Nat) : Bool := decide (lo ≤ a) && decide (a + len ≤ hi) && p.isFree a len
  let cand := lo + 16 * (pick % ((hi - lo) / 16 + 1))
  if ok cand then some cand else (lo :: p.slots.map fun x => x.addr + p.recBytes x.node).find? ok

/-- Consecutive free slots of node n's floor. -/
def Proofer.fitFloor (p : Proofer) (n c pick : Nat) : Option Nat :=
  let r := p.recBytes n
  let k := p.groupSize n + 1 - c
  let at' (i : Nat) : Nat := p.floorBase n + i * r
  let ok (a : Nat) : Bool := p.isFree a (c * r)
  if c > p.groupSize n then none
  else if ok (at' (pick % k)) then some (at' (pick % k)) else ((List.range k).map at').find? ok

/-- Reserves a run of c slots (R320): its address. -/
def Proofer.place (p : Proofer) (wg n c depth run pick : Nat) : Option (Proofer × Nat) :=
  let a := match p.fitShared (c * p.recBytes n) pick with
    | some a => some a
    | none => p.fitFloor n c pick
  a.map fun a => ({ p with slots := p.slots ++ (List.range c).map fun i =>
    ({ addr := a + i * p.recBytes n, node := n, depth := depth, st := .reserved wg, run := run } : RecSlot) }, a)

/-- Grant (R323): a run for every lane (lane, node, count, depth) with a count above 0, or nothing. The choice among
ranges that fit is not architectural; `picks` proposes one. -/
def Proofer.grant (p : Proofer) (wg run : Nat) (picks : Nat → Nat) : List (Nat × Nat × Nat × Nat) → Option (Proofer × List (Nat × Nat))
  | [] => some (p, [])
  | (l, n, c, d) :: rest =>
    if c = 0 then (Proofer.grant p wg run picks rest).map fun r => (r.1, (l, 0) :: r.2)
    else match p.place wg n c d (run + l) (picks l) with
      | none => none
      | some (p1, a) => (Proofer.grant p1 wg run picks rest).map fun r => (r.1, (l, a) :: r.2)

/-! ### Queues and groups (R325, R326) -/

/-- Forms a group of the oldest k records of a node's queue. -/
def Proofer.form (p : Proofer) (id n k : Nat) : Proofer :=
  let q := Map.getD p.queues n []
  let g := q.take k
  { p with
    queues := Map.put p.queues n (q.drop k)
    groups := p.groups ++ [⟨id, n, g⟩]
    slots := p.slots.map fun x => if g.contains x.addr then { x with st := .grouped id } else x }

/-- The count trigger: full groups while the queue holds enough records. -/
def Proofer.fullGroups (n : Nat) : Nat → Nat → Proofer → Proofer
  | 0, _, p => p
  | f + 1, id, p =>
    if p.groupSize n ≠ 0 ∧ p.groupSize n ≤ (Map.getD p.queues n []).length then
      Proofer.fullGroups n f (id + 1) (p.form id n (p.groupSize n))
    else p

/-- Forms every full group of a share's nodes; group numbers come from `nextId`. -/
def State.formGroups (s : State) (share : Nat) : State :=
  let p := s.stage share
  let bound := p.slots.length + 1
  let p1 := (List.range p.nodes.length).foldl (fun q n => Proofer.fullGroups n bound (s.nextId + n * bound) q) p
  { s.setStage share p1 with nextId := s.nextId + 32 * bound }

/-! ### Grants (R323, R324) -/

/-- Proposed places of runs: nothing constrains them. -/
def recPick (s : State) (l : Nat) : Nat := (Config.freeWord (s.free + l)).toNat

/-- Attempts the grant now. -/
def recGrant (s : State) (share wg : Nat) (asks : List (Nat × Nat × Nat × Nat)) : Option (State × List (Nat × Nat)) :=
  ((s.stage share).grant wg s.nextId (recPick s) asks).map fun r =>
    ({ s.updStage share (fun _ => r.1) with nextId := s.nextId + 32, free := s.free + 32 }, r.2)

/-- Each waiting request in order of arrival, every one that fits. -/
def grantWaiting (share : Nat) : List RecReq → State → State
  | [], s => s
  | r :: l, s =>
    if r.granted.isSome ∨ r.expired then grantWaiting share l s
    else match recGrant s share r.wg r.lanes with
      | none => grantWaiting share l s
      | some (s1, as) => grantWaiting share l (s1.updStage share fun p => { p with reqs := p.reqs.map fun x =>
          if x.band = r.band ∧ x.lanes = r.lanes then { x with granted := some as } else x })

/-- Slots of a share's pool have become Free: the waiting requests are tried (R324). -/
def freed (s : State) (share : Nat) : State := grantWaiting share (s.stage share).reqs s

/-! ### RDONE (R329, R420) -/

/-- The translation of line i of [va, va + n) as the front end makes it. -/
def feWalk (s : State) (die asid va i : Nat) : State × Except TErr (Leaf × Nat) :=
  translate s (.eng (tlbFe die)) die asid true (BitVec.ofNat 64 (va / 64 * 64 + 64 * i)) .read

def lineSpan (va n : Nat) : Nat := (va % 64 + n + 63) / 64

/-- Physical lines of [va, va + n) as the front end translates them; pages that do not translate are passed over. None
while a walk must wait. -/
def feLines (s : State) (die asid va n : Nat) : Option (List Nat) :=
  (List.range (lineSpan va n)).foldr (fun i acc =>
    match (feWalk s die asid va i).2, acc with
    | .error .wait, _ => none
    | _, none => none
    | .ok (_, pa), some l => some (pa / 64 :: l)
    | .error _, some l => some l) (some [])

/-- The walks to the lines of a fibre's slot. -/
def recordWalk (s : State) (k : Nat) : State :=
  match (s.fib k).record with
  | none => s
  | some r =>
    let share := (s.wg (wgOf k)).share
    (List.range (lineSpan r.addr.toNat ((s.stage share).recBytes r.node))).foldl (fun s i =>
      (feWalk s (s.fibDie k) (s.share share).asid r.addr.toNat i).1) s

/-- Every earlier access of a fibre is performed, those on its channels too (R329): a result still to come is a batch's
token. -/
def fibQuiet (s : State) (k : Nat) : Bool :=
  ((s.fib k).pend.all fun p => p.ready || (s.fib k).batches.any fun b => b.sealed && decide (b.pend = p.id))
  && (s.chans.all fun c => decide (c.1 / 16 ≠ wgOf k) || c.2.queue.all fun x => match x with
      | .pkt _ p _ => !p.fibs.contains k
      | .copy _ j _ _ => decide (j.fib ≠ k)
      | _ => true)
  && s.engs.all fun e => (e.2.sent.all fun x => !x.p.fibs.contains k) && e.2.jobs.all fun j => j.fib ≠ k

/-- Ends a fibre's hold on its record: once its accesses are performed the write-backs of its slot's lines, then the slot
is Free. None while one of them must wait. -/
def endRecord (s : State) (k : Nat) : Option State :=
  match (s.fib k).record with
  | none => some s
  | some r =>
    if !fibQuiet s k then none else
    let w := s.wg (wgOf k)
    let share := w.share
    (feLines s (s.fibDie k) (s.share share).asid r.addr.toNat ((s.stage share).recBytes r.node)).bind fun lines =>
      let s1 := coreDrainLines s (s.fibCore k) 0 lines
      (csmWbList w.gang (csmOrder s1 w.gang 0 fun d => lines.contains (s1.sector w.gang d.1 d.2).ln) s1).map fun s2 =>
        freed ((s2.updFib k fun f => { f with record := none }).updStage share fun p =>
          { p with slots := p.slots.filter fun x => x.addr ≠ r.addr.toNat }) share

/-- Runs a workgroup still holds Reserved become Free (R329). -/
def freeRuns (s : State) (w : Nat) : State :=
  freed (s.updStage (s.wg w).share fun p => { p with slots := p.slots.filter fun x => x.st ≠ .reserved w }) (s.wg w).share

end Sys2Proof.Machine
end

