-- ==== Sys2Proof/Machine/Stage.lean ====
section
/-! DEFINITION. RALLOC, RCOMMIT, RABORT, RGET, RDONE, SGSTAT and the events of the stage launcher but placement (R322 to
R330). -/

namespace Sys2Proof.Machine

def State.fibShare (s : State) (k : Nat) : Nat := (s.wg (wgOf k)).share

/-! ### RALLOC (R323, R324) -/

/-- What a lane asks for: (lane, node, count, depth), or the trap it takes at once. A depth of 64 does not fit [13:8] of
`%tinfo`, which then holds its low six bits (DESIGN CHOICE, log entry 133). -/
def recLane (s : State) (f : Fields) (count : Thr → Nat) (t : Thr) : Except Cause (Nat × Nat × Nat × Nat) :=
  let p := s.stage (s.fibShare t.key)
  let n := (srcA f s t).toNat
  let c := count t
  if c = 0 then .ok (t.lane, n, 0, 0)
  else if p.nodes.length ≤ n ∨ p.groupSize n < c then .error (lateCause 0x0B (BitVec.ofNat 32 (n % 32)) 0)
  else if (p.node n).recur then
    let d := (s.fib t.key).depth + 1
    if (p.node n).maxDepth < d then .error (lateCause 0x0C (BitVec.ofNat 32 (n % 32 + 256 * (d % 64))) 0) else .ok (t.lane, n, c, d)
  else .ok (t.lane, n, c, 0)

def recTraps (s : State) (f : Fields) (count : Thr → Nat) (act : List Thr) : List (Thr × Cause) :=
  act.filterMap fun t => match recLane s f count t with
    | .error c => some (t, c)
    | .ok _ => none

def recAsks (s : State) (f : Fields) (count : Thr → Nat) (act : List Thr) : List (Nat × Nat × Nat × Nat) :=
  act.filterMap fun t => match recLane s f count t with
    | .error _ => none
    | .ok r => some r

/-- Delivers addresses, with a predicate for the try form. -/
def recGive (f : Fields) (try' : Bool) (b : Nat) (l : List (Nat × Nat × Bool)) (s : State) : State :=
  l.foldl (fun s x =>
    let t := Thr.fib (b * 32 + x.1)
    let s1 := s.arriveXP t f.d.toNat (BitVec.ofNat 64 x.2.1)
    if try' then s1.arriveP t f.c.toNat x.2.2 else s1) s

/-- Ends a RALLOC: lanes with their addresses go on in a new region; trapped lanes take their traps. -/
def recDone (f : Fields) (len : Nat) (try' : Bool) (b : Nat) (s0 s : State) (give : List (Nat × Nat × Bool))
    (traps : List (Thr × Cause)) : Host.Outcome State Fault Refusal :=
  let s1 := recGive f try' b give s
  .next (finish s1 len (s0.idle f) true (give.map (fun x => (Thr.fib (b * 32 + x.1), Fate.ok)) ++ traps.map fun x => (x.1, Fate.now x.2)))

/-- The request that some of the issuing lanes of a band wait in. -/
def RecReq.isOf (r : RecReq) (b : Nat) (act : List Thr) : Bool :=
  decide (r.band = b) && r.lanes.any fun x => act.contains (.fib (b * 32 + x.1))

def rallocOp (f : Fields) (len : Nat) (s : State) (count : Thr → Nat) : Host.Outcome State Fault Refusal :=
  let act := s.active f
  match act with
  | [] => .next (finish s len (s.idle f) true [])
  | t :: _ =>
    let b := bandOf t.key
    let share := s.fibShare t.key
    match (s.stage share).reqs.find? fun r => r.isOf b act with
    | some r =>
      let drop (s : State) : State := s.updStage share fun p => { p with reqs := p.reqs.filter fun x => decide (x ≠ r) }
      match r.granted with
      | some l => recDone f len false b s (drop s) (l.map fun x => (x.1, x.2, true)) []
      | none =>
        if r.expired then
          let zero := (r.lanes.filter fun x => x.2.2.1 = 0).map fun x => (x.1, 0, true)
          let bad := (r.lanes.filter fun x => x.2.2.1 ≠ 0).map fun x =>
            (Thr.fib (b * 32 + x.1), lateCause 0x0B (BitVec.ofNat 32 (x.2.1 % 32)) 0)
          recDone f len false b s (drop s) zero bad
        else .next s
    | none =>
      let traps := recTraps s f count act
      let asks := recAsks s f count act
      let s0 := freed s share
      match recGrant s0 share (wgOf t.key) asks with
      | some (s1, l) => recDone f len false b s s1 (l.map fun x => (x.1, x.2, true)) traps
      | none =>
        let s1 := s0.updStage share fun p => { p with reqs := p.reqs ++
          [{ band := b, wg := wgOf t.key, lanes := asks, waited := 0, granted := none, expired := false }] }
        .next (traps.foldl (fun s x => s.raise x.1.key x.2) s1).settle

/-- RALLOC.try: one attempt, after the requests that already fit (R324). -/
def rallocTryOp (f : Fields) (len : Nat) (s : State) (count : Thr → Nat) : Host.Outcome State Fault Refusal :=
  let act := s.active f
  match act with
  | [] => .next (finish s len (s.idle f) true [])
  | t :: _ =>
    let b := bandOf t.key
    let traps := recTraps s f count act
    let asks := recAsks s f count act
    let s0 := freed s (s.fibShare t.key)
    match recGrant s0 (s.fibShare t.key) (wgOf t.key) asks with
    | some (s1, l) => recDone f len true b s s1 (l.map fun x => (x.1, x.2, true)) traps
    | none => recDone f len true b s s0 (asks.map fun x => (x.1, 0, decide (x.2.2.1 = 0))) traps

def execRalloc (f : Fields) (s : State) : Host.Outcome State Fault Refusal := rallocOp f 0 s fun t => (srcB f s t).toNat
def execRalloc96 (f : Fields) (imm : W32) (s : State) : Host.Outcome State Fault Refusal := rallocOp f 1 s fun _ => imm.toNat
def execRallocTry (f : Fields) (s : State) : Host.Outcome State Fault Refusal := rallocTryOp f 0 s fun t => (srcB f s t).toNat
def execRallocTry96 (f : Fields) (imm : W32) (s : State) : Host.Outcome State Fault Refusal := rallocTryOp f 1 s fun _ => imm.toNat

/-- RALLOC_GRANT (R324). -/
def execRallocGrant (share : Nat) (s : State) : Host.Outcome State Fault Refusal :=
  .next (freed s share)

/-- RALLOC_STALL_EXPIRY (R323). -/
def execRallocStallExpiry (share band : Nat) (s : State) : Host.Outcome State Fault Refusal :=
  let t := (s.share share).stall
  .next (s.updStage share fun p => { p with reqs := p.reqs.map fun r =>
    if r.band = band ∧ r.granted = none ∧ t ≠ 0 ∧ min t (2 ^ 48) ≤ r.waited then { r with expired := true } else r })

/-! ### RCOMMIT and RABORT (R325) -/

/-- One lane's slots, from the first on: those Reserved by the workgroup and of one run. -/
def runSlots (p : Proofer) (wg run rec' : Nat) : Nat → Nat → List Nat
  | 0, _ => []
  | f + 1, a =>
    match p.slots.find? fun x => decide (x.addr = a ∧ x.run = run ∧ x.st = .reserved wg) with
    | some _ => a :: runSlots p wg run rec' f (a + rec')
    | none => []

def laneSlots (p : Proofer) (wg a c : Nat) : List Nat :=
  match p.slots.find? fun x => x.addr = a with
  | some x => runSlots p wg x.run (p.recBytes x.node) (min c p.slots.length) a
  | none => []

def commitSlot (now : Nat) (p : Proofer) (a : Nat) : Proofer :=
  match p.slots.find? fun x => x.addr = a with
  | none => p
  | some x =>
    { p with slots := p.slots.map (fun y => if y.addr = a then { y with st := .committed now } else y),
             queues := Map.put p.queues x.node (Map.getD p.queues x.node [] ++ [a]),
             total := Map.put p.total x.node (Map.getD p.total x.node 0 + 1) }

def execRcommit (f : Fields) (s : State) : Host.Outcome State Fault Refusal :=
  let act := s.active f
  match act with
  | [] => .next (finish s 0 (s.idle f) true [])
  | t :: _ =>
    match drainRelease s (s.fibCore t.key) with
    | none => .next s
    | some s1 =>
      let share := s.fibShare t.key
      let s2 := act.foldl (fun s' u => s'.updStage share fun p =>
        (laneSlots p (wgOf u.key) (pairA f s u).toNat (srcB f s u).toNat).foldl (commitSlot s.cycle) p) s1
      .next (finish (s2.formGroups share) 0 (s.idle f) true (act.map fun t => (t, .ok)))

def execRabort (f : Fields) (s : State) : Host.Outcome State Fault Refusal :=
  let act := s.active f
  let s1 := act.foldl (fun s' u => s'.updStage (s.fibShare u.key) fun p =>
    let gone := laneSlots p (wgOf u.key) (pairA f s u).toNat (srcB f s u).toNat
    { p with slots := p.slots.filter fun x => !gone.contains x.addr }) s
  let s2 := act.foldl (fun s' u => freed s' (s.fibShare u.key)) s1
  .next (finish s2 0 (s.idle f) true (act.map fun t => (t, .ok)))

/-! ### RGET, RDONE, SGSTAT (R328 to R330) -/

def recWords (r : Option RecHold) : List W32 :=
  match r with
  | none => [0, 0, 0, 0]
  | some r => [lo32 r.addr, hi32 r.addr, BitVec.ofNat 32 (r.depth + 256 * r.node + 65536 * r.index), BitVec.ofNat 32 r.count]

def execRget (f : Fields) (s : State) : Host.Outcome State Fault Refusal :=
  let act := s.active f
  match act with
  | [] => .next (finish s 0 (s.idle f) true [])
  | t :: _ =>
    match afterAcquire s (wgOf t.key) with
    | none => .next s
    | some s1 =>
      let s2 := act.foldl (fun s' u => s'.arriveXQ u f.d.toNat (recWords (s.fib u.key).record)) s1
      .next (finish s2 0 (s.idle f) true (act.map fun t => (t, .ok)))

/-- The ends of the holds of several fibres, in order; none while one must wait. -/
def endRecords (l : List Thr) (s : State) : Option State := forAll (fun s k => endRecord s k) (l.map Thr.key) s

/-- Fibres that wait to end their holds walk to their slots' lines. -/
def recordWalks (l : List Thr) (s : State) : State := l.foldl (fun s t => recordWalk s t.key) s

def execRdone (f : Fields) (s : State) : Host.Outcome State Fault Refusal :=
  let act := s.active f
  if !allPerformed s act then .next s
  else match endRecords act s with
    | none => .next (recordWalks act s)
    | some s1 => .next (finish s1 0 (s.idle f) true (act.map fun t => (t, .ok)))

/-- When a slot was committed. -/
def commitTime (p : Proofer) (a : Nat) : Option Nat :=
  match p.slots.find? fun x => decide (x.addr = a) with
  | some { st := SlotSt.committed t, .. } => some t
  | _ => none

/-- Fibres' snapshot of the Proofer (R330). Workgroups of suspended gangs count as running (DESIGN CHOICE, log entry 163). -/
def sgValue (s : State) (share n sel : Nat) : Nat :=
  let p := s.stage share
  let count (g : RecSlot → Bool) : Nat := (p.slots.filter g).length
  if 7 ≤ sel then 2 ^ 64 - 1
  else if sel = 4 then
    (p.base + p.size - p.shared) - ((p.slots.filter fun x => decide (p.shared ≤ x.addr)).map fun x => p.recBytes x.node).foldl (· + ·) 0
  else if p.nodes.length ≤ n then 0
  else match sel with
    | 0 => (Map.getD p.queues n []).length
    | 1 => (p.groups.filter fun g => g.node = n).length
    | 2 => (s.wgs.filter fun w => decide (w.2.share = share ∧ w.2.node = some n ∧ w.2.nbands ≠ 0)).length
    | 3 => p.groupSize n - count fun x => decide (p.floorBase n ≤ x.addr ∧ x.addr < p.floorBase (n + 1))
    | 5 => match Map.getD p.queues n [] with
      | [] => 0
      | a :: _ => match commitTime p a with
        | some t => s.cycle - t
        | none => 0
    | _ => Map.getD p.total n 0

def sgstatOp (f : Fields) (len : Nat) (s : State) (sel : Thr → Nat) : Host.Outcome State Fault Refusal :=
  let act := s.active f
  let s1 := act.foldl (fun s' t =>
    s'.arriveXP t f.d.toNat (BitVec.ofNat 64 (sgValue s (s.fibShare t.key) (srcA f s t).toNat (sel t)))) s
  .next (finish s1 len (s.idle f) true (act.map fun t => (t, .ok)))

def execSgstat (f : Fields) (s : State) : Host.Outcome State Fault Refusal := sgstatOp f 0 s fun t => (srcB f s t).toNat
def execSgstat96 (f : Fields) (imm : W32) (s : State) : Host.Outcome State Fault Refusal := sgstatOp f 1 s fun _ => imm.toNat

/-- STAGE_TIMER_EXPIRY (R326): the oldest record of node n's queue has been Committed for TIMER cycles; the count
trigger acts first. -/
def execStageTimerExpiry (share n : Nat) (s : State) : Host.Outcome State Fault Refusal :=
  let s1 := s.formGroups share
  let p := s1.stage share
  let q := Map.getD p.queues n []
  match q with
  | [] => .next s
  | a :: _ =>
    match commitTime p a with
    | some t =>
      if (p.node n).timer ≤ s.cycle - t then
        .next { s1.setStage share (p.form s1.nextId n q.length) with nextId := s1.nextId + 1 }
      else .next s
    | none => .next s

end Sys2Proof.Machine
end

