-- ==== Sys2Proof/Machine/Fork.lean ====
section
/-! DEFINITION. EXIT, BAR, FORK and RDV, and the completions and timeouts of barriers and rendezvous (R13, R16, R17,
R104 to R106, R110 to R116, R186). -/

namespace Sys2Proof.Machine

/-! ### EXIT (R104, R106) -/

/-- The lane's bytes of a private memory line (R158). -/
def privMask (s : State) (k ln : Nat) : ByteMask :=
  let w := s.wg (wgOf k)
  let rel := 64 * ln - w.priv.toNat
  if 64 * ln < w.priv.toNat ∨ rel / 128 % (max 1 w.nbands) ≠ bandOf k % 32 then 0
  else
    let lo := rel % 128 / 4
    if lo ≤ laneOf k ∧ laneOf k < lo + 16 then byteMask (4 * (laneOf k - lo)) 4 else 0

/-- A private line without a lane's bytes. -/
def privWithout (s : State) (k : Nat) (p : Nat × L1Line) : Nat × L1Line :=
  let m := privMask s k p.1
  if p.2.priv then (p.1, { p.2 with valid := p.2.valid &&& ~~~ m, dirty := p.2.dirty &&& ~~~ m }) else p

/-- Drops a fibre's private bytes from its core's L1 without write-back (R104). A line of 16 lanes' words keeps the
others' bytes (log entry 14). -/
def dropPrivate (s : State) (k : Nat) : State :=
  s.updCore (s.fibCore k) fun c =>
    { c with l1 := (c.l1.map (privWithout s k)).filter fun p => !p.2.priv || decide (p.2.valid ≠ 0) }

/-- One fibre exits; with the last of its slice the slice's register lines are discarded (R91). -/
def exitFibre (s : State) (k : Nat) : State :=
  let b := bandOf k
  let l := laneOf k
  let s1 := ((dropPrivate s k).updFib k fun f =>
    { f with status := .exited, pend := [], latent := [], due := [], acq := [], waitOn := .nothing, batches := [] }).leaveBatch k
  endSlice ((s1.leaveWaits k).updBand b fun bd => { bd with jmask := Map.mapVals (fun m => m &&& ~~~ (1#32 <<< l)) bd.jmask }) k

def execExit (f : Fields) (s : State) : Host.Outcome State Fault Refusal :=
  let act := s.active f
  let s1 := (s.idle f).foldl (fun s t => s.adv t 0) s
  match s.focus with
  | .band b =>
    match endRecords act s1 with
    | none => .next (recordWalks act s)
    | some s1' =>
      let s2 := act.foldl (fun s t => exitFibre s t.key) s1'
      .next ((s2.checkRejoins b).regroup b)
  | .mat q =>
    if act.isEmpty then .next s1 else .next ((s1.setMseq q { s1.mseq q with st := .ending }).settleMat q)
  | .cop c =>
    if act.isEmpty then .next s1
    else if (s.gang (s.wg (s.cop c).wg).gang).suspended then .next (s.setCop c { s.cop c with st := .held })
    else
      let s2 := (s1.leaveFork (.cop c)).setCop c { s1.cop c with st := .ending }
      .next (s2.settleCop c)

/-! ### BAR (R110) -/

/-- Fibres arrive at something and wait: each leaves its batch with its PC at the successor. -/
def arriveAll (s : State) (len : Nat) (w : WaitOn) (act : List Thr) : State :=
  act.foldl (fun s t => (s.updFib t.key fun x =>
    { x with status := .waiting, waitOn := w, waitPc := x.pc, pc := seqPc x.pc len }).leaveBatch t.key) s

def execBar (f : Fields) (s : State) : Host.Outcome State Fault Refusal :=
  let act := s.active f
  if !allPerformed s act || !closerReady s act then .next s
  else
    let s1 := (s.idle f).foldl (fun s t => s.adv t 0) s
    .next (arriveAll s1 0 (.barrier (s.barKey (scopeFld f) s.focusBand)) act).settle

/-! ### FORK (R113, R114) -/

/-- A program's start (R113). -/
def startSeq (wg : Nat) (entry : W64) (arg : List W32) : Seq :=
  { Seq.reset with st := .running, wg := wg, pc := entry,
                   regs := ((List.range 4).zip arg).foldl (fun m p => if p.2 = 0 then m else Map.put m (p.1 + 1) p.2) [] }

/-- Ends a FORK that has started its program: the sync interval advances (R177) and the region closes. -/
def forkDone (f : Fields) (s s1 : State) (k : Nat) : State :=
  let act := s.active f
  let mine := act.map Thr.key
  let s2 := bumpSync (s1.updWg (wgOf k) fun w => { w with forkWait := w.forkWait.filter fun p => !mine.contains p.1 }) (bandOf k)
  finish s2 2 (s.idle f) true (act.map fun t => (t, .ok))

/-- FORK.matrix: it waits until the quad's sequencer runs no program; the waiting fibres are noted for R186. -/
def execForkMatrix (f : Fields) (_ext : Ext) (s : State) : Host.Outcome State Fault Refusal :=
  match s.active f with
  | [] => .next (finish s 2 (s.idle f) false [])
  | t :: _ =>
    let w := wgOf t.key
    let q := s.wgQuad w
    if (s.mseq q).st ≠ .free then
      let mine := (s.active f).map fun x => (x.key, s.pcOf x)
      .next (s.updWg w fun g => { g with
        forkWait := (g.forkWait.filter fun p => !(mine.map (·.1)).contains p.1) ++ mine })
    else match drainRelease s (s.fibCore t.key) with
      | none => .next s
      | some s1 =>
        let s2 := (s1.setMseq q (startSeq w (pairA f s t) (s.rxq t f.c.toNat))).updWg w fun g => { g with forkM := true }
        .next (forkDone f s s2 t.key)

/-- A free context of a copy engine. -/
def freeCtx (s : State) (ce : Nat) : Option Nat :=
  ((List.range 8).map fun i => ce * 8 + i).find? fun c => decide ((s.cop c).st = .free)

/-- The copy engine a role names on the issuing die (R240). -/
def roleEngine (s : State) (t : Thr) (role : Nat) : Nat :=
  let w := s.wgOfThr t
  s.wgDie w * 4 + ((Map.getD (s.share (s.wg w).share).binding role 0).extractLsb' 32 2).toNat

def execForkCopy (f : Fields) (ext : Ext) (s : State) : Host.Outcome State Fault Refusal :=
  match s.active f with
  | [] => .next (finish s 2 (s.idle f) false [])
  | t :: _ =>
    let w := wgOf t.key
    match freeCtx s (roleEngine s t ext.role.toNat) with
    | none => .next s
    | some c =>
      match drainRelease s (s.fibCore t.key) with
      | none => .next s
      | some s1 =>
        let s2 := (s1.setCop c (startSeq w (pairA f s t) (s.rxq t f.c.toNat))).updWg w fun g => { g with forkC := insNat c g.forkC }
        let s3 := { s2 with ctxs := Map.put s2.ctxs c { Ctx.reset with prio := ext.body.toNat % 4 } }
        .next (forkDone f s s3 t.key)

/-! ### RDV (R115, R255, R284) -/

def rdvOp (len : Nat) (f : Fields) (k : Thr → Nat) (s : State) : Host.Outcome State Fault Refusal :=
  let act := s.active f
  let s1 := (s.idle f).foldl (fun s t => s.adv t len) s
  match s.focus, act with
  | _, [] => .next s1.settle
  | .band _, t :: _ =>
    if !allPerformed s act || !closerReady s act then .next s
    else match drainRelease s1 (s.fibCore t.key) with
      | none => .next s
      | some s2 => .next (act.foldl (fun s t => arriveAll s len (.rdv (k t)) [t]) s2).settle
  | .mat q, t :: _ =>
    if !(s.mat q).queue.isEmpty then .next s
    else
      let w := (s.mseq q).wg
      let s2 := (s1.setMseq q { s1.mseq q with st := .rdv (k t) }).adv (.mat q) len
      .next (s2.setRdv w (k t) { s2.rdv w (k t) with mat := true })
  | .cop c, t :: _ =>
    if !(Map.getD s.ctxs c Ctx.reset).ops.isEmpty then .next s
    else
      let w := (s.cop c).wg
      let s2 := (s1.setCop c { s1.cop c with st := .rdv (k t) }).adv (.cop c) len
      .next (s2.setRdv w (k t) { s2.rdv w (k t) with cops := insNat c (s2.rdv w (k t)).cops })

def execRdv (f : Fields) (s : State) : Host.Outcome State Fault Refusal := rdvOp 0 f (fun t => (srcA f s t).toNat % 16) s
def execRdv96 (f : Fields) (imm : W32) (s : State) : Host.Outcome State Fault Refusal := rdvOp 1 f (fun _ => imm.toNat % 16) s

/-! ### Completions -/

/-- Fibres released from a barrier or rendezvous start a new region at their successors (R201). -/
def releaseClosed (s : State) (ks : List Nat) : State :=
  (ks.foldl (fun s k => s.closeRegion (.fib k)) s).release ks

/-- The acquires of a completion: one for each workgroup. -/
def acquireWgs (scope : Nat) : List Nat → State → Option State
  | [], s => some s
  | w :: l, s =>
    match fenceAcquire s w scope with
    | some s1 => acquireWgs scope l s1
    | none => none

def wgsOf (ks : List Nat) : List Nat := ks.foldl (fun l k => insNat (wgOf k) l) []
def bandsOf (ks : List Nat) : List Nat := ks.foldl (fun l k => insNat (bandOf k) l) []
def coresOf (s : State) (ks : List Nat) : List Nat := ks.foldl (fun l k => insNat (s.fibCore k) l) []

/-- No gang of the fibres is suspended or halted. -/
def allResident (s : State) (ks : List Nat) : Bool :=
  (wgsOf ks).all fun w => !(s.gang (s.wg w).gang).suspended && !(s.gang (s.wg w).gang).halted

/-- BARRIER_COMPLETION (R111): every participant has arrived. The state is unchanged while it may not complete. With no
participant left (R102, R107) the instance is over and nobody is released. -/
def execBarrierCompletion (key : Nat) (s : State) : Host.Outcome State Fault Refusal :=
  let ks := s.participants key
  let scope := key % 8
  if !(ks.all fun k => decide ((s.fib k).waitOn = .barrier key)) || !allResident s ks || !s.peersIn key then .next s
  else if ks.isEmpty then .next { s with bars := Map.del s.bars key }
  else
    let drained := if 2 ≤ scope then forAll drainRelease (coresOf s ks) s else some s
    match drained.bind (acquireWgs scope (wgsOf ks)) with
    | none => .next s
    | some s1 =>
      let s2 := (bandsOf ks).foldl bumpSync s1
      .next (releaseClosed { s2 with bars := Map.del s2.bars key } ks)

/-- RENDEZVOUS_COMPLETION (R115, R17): every party of workgroup w's fork set has arrived at k. Fibres created after
arrivals (R116) are no party; where they alone are left and nothing has arrived, the rendezvous is over. -/
def execRendezvousCompletion (w k : Nat) (s : State) : Host.Outcome State Fault Refusal :=
  let g := s.wg w
  let r := s.rdv w k
  let ks := s.rdvParties w k
  let live := s.liveFibs w
  let fibs := ks.all fun j => decide ((s.fib j).waitOn = .rdv k)
  let mat := !g.forkM || r.mat
  let cops := g.forkC.all r.cops.contains
  if (s.gang g.gang).suspended || (s.gang g.gang).halted then .next s
  else if ks.isEmpty && !s.rdvAny w k then .next (s.updWg w fun g => { g with rdvs := Map.del g.rdvs k })
  else if !(fibs && mat && cops) || !s.rdvAny w k then .next s
  else
    let acq := if live.isEmpty then some s else fenceAcquire s w 3
    match acq with
    | none => .next s
    | some s1 =>
      let s2 := if g.forkM then s1.setMseq (s.wgQuad w) { s1.mseq (s.wgQuad w) with st := .running } else s1
      let s3 := g.forkC.foldl (fun s c => s.setCop c { s.cop c with st := .running }) s2
      let s4 := s3.updWg w fun g => { g with rdvs := Map.del g.rdvs k }
      .next (releaseClosed ((bandsOf ks).foldl bumpSync s4) ks)

/-- Every fibre of a launch on a die of another package has arrived at its .pod barrier (R13, log entry 106). -/
def podArrival (launch pkg die : Nat) (s : State) : State :=
  let key := 5 + 8 * launch
  let b := s.bar key
  if (s.podPeers key).contains (pkg, die) && !b.peers.contains (pkg, die) then
    { s with bars := Map.put s.bars key { b with peers := b.peers ++ [(pkg, die)] } }
  else s

/-! ### BARRIER_TIMEOUT (R186) -/

/-- A waiting fibre's arrival is withdrawn and it takes BarrierTimeout at the instruction it waits at. -/
def timeoutFib (info : W32) (s : State) (k : Nat) : State :=
  (s.updFib k fun f => { f with status := .ready, waitOn := .nothing, pc := f.waitPc }).raise k
    (precise 0x0D info 0 (s.fib k).waitPc)

/-- A fibre that is still stalled before a FORK.matrix takes BarrierTimeout; the FORK has no effect. -/
def timeoutFork (info : W32) (s : State) (k : Nat × W64) : State :=
  if (s.fib k.1).issuable ∧ (s.fib k.1).pc = k.2 then
    (s.raise k.1 (precise 0x0D info 0 k.2)).updWg (wgOf k.1) fun w => { w with forkWait := w.forkWait.filter (· ≠ k) }
  else s

def limit48 (n : Nat) : Nat := min n (2 ^ 48)

/-- Fibres whose arrivals are withdrawn by a timeout; those that still wait for a result are in a batch meanwhile (R87). -/
def timeoutFibs (info : W32) (ks : List Nat) (s : State) : State :=
  (bandsOf ks).foldl State.rebatch (ks.foldl (timeoutFib info) s)

/-- Every fibre that has arrived takes BarrierTimeout; the instance continues with no arrivals and its count at zero. -/
def timeoutBar (key : Nat) (s : State) : State :=
  let s1 := timeoutFibs (BitVec.ofNat 32 (key % 8)) (s.arrivedBar key) s
  { s1 with bars := Map.put s1.bars key { s1.bar key with count := 0, peers := [] } }

/-- Another package has timed out a launch's .pod barrier for the whole domain (R186, R187). -/
def podTimeout (launch : Nat) (s : State) : State := timeoutBar (5 + 8 * launch) s

/-- Due when the instance's count reaches T. For a rendezvous `key` is workgroup * 16 + k. -/
def execBarrierTimeout (rdv : Bool) (key : Nat) (s : State) : Host.Outcome State Fault Refusal :=
  if rdv then
    let w := key / 16
    let k := key % 16
    let t := (s.share (s.wg w).share).bartimeout
    let r := s.rdv w k
    if t = 0 ∨ r.count < limit48 t then .next s
    else
      let info := BitVec.ofNat 32 (3 + 256 + k * 4096)
      let s1 := timeoutFibs info (s.rdvArrived w k) s
      let s2 := if r.mat then (s.wg w).forkWait.foldl (timeoutFork info) s1 else s1
      .next (s2.setRdv w k { s2.rdv w k with count := 0 })
  else
    match s.arrivedBar key with
    | [] => .next s
    | j :: _ =>
      let t := (s.share (s.wg (wgOf j)).share).bartimeout
      if t = 0 ∨ (s.bar key).count < limit48 t then .next s
      else .next (timeoutBar key s)

end Sys2Proof.Machine
end

