-- ==== Sys2Proof/Machine/Copy.lean ====
section
/-! DEFINITION. The copy engines: commands of fibres and their batches, gather programs, and the performing of transfers
at the homes (R240 to R261). -/

namespace Sys2Proof.Machine

/-! ### Accesses of a copy engine at the homes (R240, R248) -/

/-- Why an access of a copy engine does not go through: it waits (for a line whose home needs a snoop or a pin, or for
a page), or its status. -/
inductive CopyStop where
  | wait (line : Ask)
  | status (n : Nat)
deriving DecidableEq, Repr

/-- The status of a translation that fails (R248). -/
def copyStatus (s : State) (die asid : Nat) (va : W64) : TErr → CopyStop
  | .page => if isUnserv s die asid va.toNat then .status 1 else .wait none
  | .wait => .wait none
  | .ecc => .status 5
  | .prot k _ => .status (if k = 9 then 1 else if k = 7 then 6 else if k = 5 ∨ k = 10 then 3 else 2)

/-- The physical address of an access that stays within a line. -/
def copyTr (s : State) (ce : Nat) (x : Xfer) (va : W64) (acc : Acc) : State × Except CopyStop (Leaf × Nat) :=
  let die := ce / 4
  match translate s (.eng (tlbCopy ce)) die x.asid x.priv va acc with
  | (s1, .error e) => (s1, .error (copyStatus s1 die x.asid va e))
  | (s1, .ok (l, pa)) =>
    if isDev pa then (s1, .error (.status 6))
    else if !isLocal die pa then (s1, .error (.status 4))
    else (s1, .ok (l, pa))

/-- Reads n bytes within a line. -/
def copyRead (s : State) (ce : Nat) (x : Xfer) (va : W64) (n : Nat) : Except CopyStop (State × Nat) :=
  match copyTr s ce x va .read with
  | (_, .error e) => .error e
  | (s1, .ok (l, pa)) =>
    if !homeReady s1 (pa / 64) .read then .error (.wait (some (pa / 64, .read)))
    else match homeGet (homeUse s1 (pa / 64)) pa n l.key l.cmps with
      | some r => .ok r
      | none => .error (.status 5)

/-- Writes n bytes within a line. An uncorrectable error of the line that the bytes merge into is status 5 (DEDUCED, log
entry 134). -/
def copyWrite (s : State) (ce : Nat) (x : Xfer) (va : W64) (n v : Nat) : Except CopyStop State :=
  match copyTr s ce x va .write with
  | (_, .error e) => .error e
  | (s1, .ok (l, pa)) =>
    if !homeOpen s1 agentCopy (pa / 64) .write then .error (.wait (some (pa / 64, .write)))
    else match homePut (homeUse s1 (pa / 64)) agentCopy pa n v l.key l.cmps with
      | some s2 => .ok s2
      | none => .error (.status 5)

/-! ### Transfers, line by line (R241, R245, R253) -/

/-- Bytes of the next line transfer: within one line of the source and one of the destination. -/
def chunk (src dst : W64) (left : Nat) : Nat := min left (min (64 - src.toNat % 64) (64 - dst.toNat % 64))

/-- Bytes that the next step of a transfer moves of k: each byte decides on its own between two commands, so that a line
transfer may be performed in parts (R245). -/
def Moving.take (m : Moving) (k : Nat) : Nat := if m.part = 0 then k else min k m.part

/-- The destination of a CPY starts or ends within its source, by the addresses that the command names (log entry 157). -/
def Xfer.overlaps (x : Xfer) : Bool := decide ((x.dst - x.src).toNat < x.n ∨ (x.src - x.dst).toNat < x.n)

/-- The alignment rule of gathers and scatters (R245, R253). -/
def gatherMisaligned (x : Xfer) : Bool :=
  decide (x.dst.toNat % 4 ≠ 0) || decide (x.src.toNat % 4 ≠ 0) || decide (x.index.toNat % (if x.idx64 then 8 else 4) ≠ 0)

/-- Everything that the transfer moves has been moved. -/
def Xfer.over (x : Xfer) (m : Moving) : Bool :=
  match x.kind with
  | .plain => (m.stop || decide (x.n ≤ m.ofs)) && m.buf.isEmpty
  | .rows => decide (x.n = 0 ∨ x.height ≤ m.row)
  | _ => decide (x.n ≤ m.row)

/-- What a line transfer answers: it waits, there is more to move, or the transfer ends with a status. -/
inductive MoveRes where
  | wait (line : Ask)
  | more (m : Moving)
  | done (st : Nat)
deriving DecidableEq, Repr

def CopyStop.res (m : Moving) : CopyStop → MoveRes
  | .wait l => .wait l
  | .status n => .done (if m.st = 0 then n else m.st)

/-- The physical address and the bytes of a line's part, where an engine may access them. -/
def copyPeek (s : State) (ce : Nat) (x : Xfer) (va : W64) (n : Nat) (acc : Acc) : Option (Nat × Nat) :=
  match copyTr s ce x va acc with
  | (s1, .ok (l, pa)) => (homeGet s1 pa n l.key l.cmps).map fun r => (pa, r.2)
  | _ => none

/-- Bytes as they stood before the command wrote to them. -/
def oldBytes (old : Map Byte) (pa v n : Nat) : Nat :=
  (List.range n).foldl (fun a j => a + 2 ^ (8 * j) * ((Map.getD old (pa + j) (BitVec.ofNat 8 (v / 2 ^ (8 * j)))).toNat)) 0

def keepOld (old : Map Byte) (pa v n : Nat) : Map Byte :=
  (List.range n).foldl (fun m j => if Map.has m (pa + j) then m else Map.put m (pa + j) (BitVec.ofNat 8 (v / 2 ^ (8 * j)))) old

/-- Moves the next line of a row or element of n bytes. Its source bytes are those of now, or those before the command
wrote to them (R245, log entry 16). -/
def moveChunk (ce id : Nat) (x : Xfer) (m : Moving) (src0 dst0 : W64) (n : Nat) (s : State) : State × Except CopyStop Moving :=
  let src := src0 + BitVec.ofNat 64 m.ofs
  let dst := dst0 + BitVec.ofNat 64 m.ofs
  let k := m.take (chunk src dst (n - m.ofs))
  match copyRead s ce x src k with
  | .error e => (s, .error e)
  | .ok (s1, now) =>
    let v := match copyPeek s1 ce x src k .read with
      | some (pa, _) => if Config.rereadSource id m.row then now else oldBytes m.old pa now k
      | none => now
    let old := match copyPeek s1 ce x dst k .write with
      | some (pa, w) => if x.kind = .plain then m.old else keepOld m.old pa w k
      | none => m.old
    match copyWrite s1 ce x dst k v with
    | .error (.wait l) => (s, .error (.wait l))
    | .error e => (s1, .error e)
    | .ok s2 => (s2, .ok { m with ofs := m.ofs + k, old := old, part := 0 })

/-- A CPY whose source and destination overlap reads its whole source, then writes (R245); where the reading faults, what was
read before is still written (log entry 158). -/
def moveOverlap (ce : Nat) (x : Xfer) (m : Moving) (s : State) : State × MoveRes :=
  let src := x.src + BitVec.ofNat 64 m.ofs
  let dst := x.dst + BitVec.ofNat 64 m.ofs
  let k := m.take (chunk src dst (x.n - m.ofs))
  if !m.stop ∧ m.ofs < x.n then
    match copyRead s ce x src k with
    | .error (.wait l) => (s, .wait l)
    | .error (.status n) => (s, .more { m with stop := true, st := n })
    | .ok (s1, v) => (s1, .more { m with ofs := m.ofs + k, buf := m.buf ++ [(dst, k, v)], part := 0 })
  else match m.buf with
    | [] => (s, .done m.st)
    | (d, j, v) :: l =>
      let i := m.take j
      let rest := if i < j then (d + BitVec.ofNat 64 i, j - i, v / 2 ^ (8 * i)) :: l else l
      match copyWrite s ce x d i v with
      | .error (.wait l) => (s, .wait l)
      | .error (.status n) => (s, .done n)
      | .ok s1 => (s1, .more { m with buf := rest, part := 0 })

/-- The row or element is moved: the next one follows. -/
def Moving.next (m : Moving) (n : Nat) : Moving := if n ≤ m.ofs then { m with row := m.row + 1, ofs := 0, ix := none } else m

/-- A row or an element moves on. -/
def moveOn (ce id : Nat) (x : Xfer) (m : Moving) (src dst : W64) (n : Nat) (s : State) : State × MoveRes :=
  match moveChunk ce id x m src dst n s with
  | (s1, .error e) => (s1, e.res m)
  | (s1, .ok m1) => (s1, .more (m1.next n))

/-- The next line transfer of a gather or scatter: the index of its element, or a line of the element. An index at or
beyond the bound skips its element with status Index; the first status stays (R245, R248). An index is read as it then stands
(log entry 159). -/
def moveElem (ce id : Nat) (x : Xfer) (m : Moving) (s : State) : State × MoveRes :=
  let w := if x.idx64 then 8 else 4
  match m.ix with
  | none =>
    match copyRead s ce x (x.index + BitVec.ofNat 64 (w * m.row)) w with
    | .error e => (s, e.res m)
    | .ok (s1, ix) =>
      if x.bound ≠ 0 ∧ x.bound ≤ ix then (s1, .more { m with row := m.row + 1, st := if m.st = 0 then 7 else m.st })
      else (s1, .more { m with ix := some ix })
  | some ix =>
    let far := BitVec.ofNat 64 (ix * x.elem)
    let near := BitVec.ofNat 64 (m.row * x.elem)
    match x.kind with
    | .scatter => moveOn ce id x m (x.src + near) (x.dst + far) x.elem s
    | _ => moveOn ce id x m (x.src + far) (x.dst + near) x.elem s

/-- One line transfer of the transfer `id` that has come as far as m. -/
def moveLine (s : State) (ce id : Nat) (x : Xfer) (m : Moving) : State × MoveRes :=
  if (x.kind = .gather ∨ x.kind = .scatter) ∧ gatherMisaligned x then (s, .done 9)
  else if x.over m then (s, .done m.st)
  else
    let r := match x.kind with
      | .plain => if x.overlaps then moveOverlap ce x m s
          else match moveChunk ce id x m x.src x.dst x.n s with
            | (s1, .error e) => (s1, e.res m)
            | (s1, .ok m1) => (s1, .more m1)
      | .rows => moveOn ce id x m (x.src + BitVec.ofNat 64 (m.row * x.spitch)) (x.dst + BitVec.ofNat 64 (m.row * x.dpitch)) x.n s
      | _ => moveElem ce id x m s
    match r with
    | (s1, .more m1) => (s1, if x.over m1 then .done m1.st else .more m1)
    | r => r

def movingOf (s : State) (id : Nat) : Moving := Map.getD s.moves id Moving.start

/-- One line transfer of an operation, from where it has come to. -/
def moveNext (s : State) (ce id : Nat) (x : Xfer) : State × MoveRes := moveLine s ce id x (movingOf s id)

def canMove (s : State) (ce id : Nat) (x : Xfer) : Bool :=
  match (moveNext s ce id x).2 with
  | .wait _ => false
  | _ => true

/-! ### Commands of fibres (R242 to R250) -/

def Fibre.openBatch (f : Fibre) (tok : Nat) : Option Batch' := f.batches.find? fun b => decide (b.token = tok) && !b.sealed

/-- Batches that count toward the eight of R246. -/
def Fibre.liveBatches (f : Fibre) : Nat :=
  (f.batches.filter fun b => !b.limit && !(b.sealed && decide (b.left = 0))).length

def setBatch (s : State) (k id : Nat) (g : Batch' → Batch') : State :=
  s.updFib k fun f => { f with batches := f.batches.map fun b => if b.id = id then g b else b }

def newBatch (id tok : Nat) (limit : Bool) : Batch' :=
  { id := id, token := tok, sealed := false, limit := limit, number := 0, left := 0, status := 0, statBy := 0, pend := 0 }

/-- OpenBatch (R246): the fibre's open batch of a token. -/
def openBatch (s : State) (k tok : Nat) : State × Batch' :=
  match (s.fib k).openBatch tok with
  | some b => (s, b)
  | none =>
    let b := newBatch s.nextId tok (decide (8 ≤ (s.fib k).liveBatches))
    ((s.updFib k fun f => { f with batches := f.batches ++ [b] }).fresh, b)

def copyq (s : State) (ce : Nat) : List CopyCmd := Map.getD s.copyqs ce []

/-- Queues one lane's command as a member of its token's batch; a Limit batch queues nothing. -/
def queueCmd (ce tok : Nat) (mk : Thr → Xfer) (s : State) (t : Thr) : State :=
  let r := openBatch s t.key tok
  if r.2.limit then r.1
  else
    let s1 := setBatch r.1 t.key r.2.id fun b => { b with left := b.left + 1 }
    { s1 with copyqs := Map.put s1.copyqs ce (copyq s1 ce ++ [⟨s1.nextId, mk t, .batch t.key r.2.id⟩]),
              nextId := s1.nextId + 1 }

def copyOp (f : Fields) (ext : Ext) (s : State) (mk : Thr → Xfer) : Host.Outcome State Fault Refusal :=
  let act := s.active f
  match act with
  | [] => .next (finish s 2 (s.idle f) false [])
  | t :: _ =>
    let ce := roleEngine s t ext.role.toNat
    if 64 < (copyq s ce).length + act.length then .next s
    else match drainRelease s (s.fibCore t.key) with
      | none => .next s
      | some s1 =>
        .next (finish (act.foldl (queueCmd ce f.d.toNat mk) s1) 2 (s.idle f) true (act.map fun t => (t, .ok)))

/-- Operands that every transfer of a thread has. -/
def baseXfer (s : State) (t : Thr) (kind : CopyKind) (dst src : W64) (n : Nat) : Xfer :=
  { kind := kind, dst := dst, src := src, n := n, height := 0, spitch := 0, dpitch := 0, index := 0, bound := 0, elem := 0,
    idx64 := false, asid := s.asidOf t, priv := s.privOf t }

def execCpy (f : Fields) (ext : Ext) (s : State) : Host.Outcome State Fault Refusal :=
  copyOp f ext s fun t => baseXfer s t .plain (pairA f s t) (pairB f s t) (srcC f s t).toNat

def execCpy2d (f : Fields) (ext : Ext) (s : State) : Host.Outcome State Fault Refusal :=
  copyOp f ext s fun t =>
    let q := s.rxq t f.c.toNat
    { baseXfer s t .rows (pairA f s t) (pairB f s t) (q.getD 0 0).toNat with
      height := (q.getD 1 0).toNat, spitch := (q.getD 2 0).toNat, dpitch := (q.getD 3 0).toNat }

def execGath (f : Fields) (ext : Ext) (s : State) : Host.Outcome State Fault Refusal :=
  copyOp f ext s fun t =>
    let q := s.rxq t f.c.toNat
    { baseXfer s t .gather (pairA f s t) (pairB f s t) (q.getD 2 0).toNat with
      index := join64 (q.getD 0 0) (q.getD 1 0), bound := (q.getD 3 0).toNat, elem := ext.body.toNat % 256 * 4,
      idx64 := ext.body.getLsbD 8 }

/-- CPY.SEAL of one fibre (R247). -/
def sealOne (tok : Nat) (s : State) (t : Thr) : State :=
  let k := t.key
  let s1 := s.updFib k fun f => { f with bn := f.bn + 1 }
  let s2 := match (s1.fib k).openBatch tok with
    | some _ => s1
    | none => (s1.updFib k fun f => { f with batches := f.batches ++ [newBatch s1.nextId tok false] }).fresh
  let id := (((s2.fib k).openBatch tok).map (·.id)).getD 0
  let p := pendLater s2 t (if tok = 0 then [] else [tok])
  setBatch p.1 k id fun b => { b with sealed := true, number := (s1.fib k).bn.toNat, pend := p.2 }

def execCpySeal (f : Fields) (s : State) : Host.Outcome State Fault Refusal :=
  let act := s.active f
  .next (finish (act.foldl (sealOne f.d.toNat) s) 0 (s.idle f) true (act.map fun t => (t, .ok)))

/-- BATCH_COMPLETION (R247 to R249, R258): the token arrives, the core self-invalidates and the gang's casements
acquire. -/
def execBatchCompletion (fib batch : Nat) (s : State) : Host.Outcome State Fault Refusal :=
  match (s.fib fib).batches.find? fun b => decide (b.id = batch) && b.sealed && (b.limit || decide (b.left = 0)) with
  | none => .next s
  | some b =>
    match afterAcquire s (wgOf fib) with
    | none => .next s
    | some s1 =>
      let st := if b.limit then 8 else b.status
      let v := st * 2 ^ 24 + b.number
      let s2 := s1.updFib fib fun f => { f with batches := f.batches.filter fun x => x.id ≠ batch }
      let live := (findPend s2 (.fib fib) b.pend).isSome
      let s3 := arriveNow s2 (.fib fib) b.pend v
      let s4 := if live ∧ st ≠ 0 then
          s3.updFib fib fun f => { f with cfault := Map.put f.cfault b.token (BitVec.ofNat 32 v) }
        else s3
      .next (s4.settleTrap fib)

/-- A performed command is counted in its batch; of several faults the first in queue order stays (R248). -/
def cmdDone (s : State) (c : CopyCmd) (st : Nat) : State :=
  match c.owner with
  | .batch k b => if !Map.has s.fibres k then s else setBatch s k b fun x =>
      if st ≠ 0 ∧ (x.status = 0 ∨ c.id < x.statBy) then { x with left := x.left - 1, status := st, statBy := c.id }
      else { x with left := x.left - 1 }
  | .node die g => { s with nodeDone := s.nodeDone ++ [(die * 32 + g, st)] }

/-! ### Copy programs (R251 to R256) -/

/-- GLD's and GSIG's address on the sequencer; its translation, or the program's trap. -/
def gTr (s : State) (asid : Nat) (priv : Bool) (ce : Nat) (va pc : W64) (acc : Acc) :
    State × Except (Option Cause) (Leaf × Nat) :=
  let die := ce / 4
  match translate s (.eng (tlbCopy ce)) die asid priv va acc with
  | (s1, .error .wait) => (s1, .error none)
  | (s1, .error .page) =>
    if isUnserv s1 die asid va.toNat then (s1, .error (some { precise 0x06 9 va pc with pfu := true })) else (s1, .error none)
  | (s1, .error e) => (s1, .error (some (e.cause false va pc)))
  | (s1, .ok (l, pa)) =>
    if isDev pa then (s1, .error (some (precise 0x06 8 va pc)))
    else if !isLocal die pa then (s1, .error (some (precise 0x06 11 va pc)))
    else (s1, .ok (l, pa))

def gldOp (f : Fields) (disp : W32) (len : Nat) (s : State) : Host.Outcome State Fault Refusal :=
  match s.active f with
  | [] => .next (finish s len (s.idle f) false [])
  | t :: _ =>
    let va := addDisp (pairA f s t) disp
    let pc := s.pcOf t
    if va.toNat % 4 ≠ 0 then .next (s.raiseThr t (misaligned 4 va pc))
    else match gTr s (s.asidOf t) (s.privOf t) (t.key / 8) va pc .read with
      | (s1, .error none) => .next s1
      | (s1, .error (some c)) => .next (s1.raiseThr t c)
      | (s1, .ok (l, pa)) =>
        if !homeReady s1 (pa / 64) .read then .next (homeAsk s1 (pa / 64) .read)
        else match homeGet (homeUse s1 (pa / 64)) pa 4 l.key l.cmps with
          | none => .next (s1.raiseThr t (precise 0x13 0 va pc))
          | some (s2, v) => .next ((s2.arriveX t f.d.toNat (BitVec.ofNat 32 v)).adv t len)

def execGld (f : Fields) (s : State) : Host.Outcome State Fault Refusal := gldOp f 0 0 s
def execGld96 (f : Fields) (imm : W32) (s : State) : Host.Outcome State Fault Refusal := gldOp f imm 1 s

def ctxOf (s : State) (c : Nat) : Ctx := Map.getD s.ctxs c Ctx.reset
def setCtx (s : State) (c : Nat) (x : Ctx) : State := { s with ctxs := Map.put s.ctxs c x }

/-- Posts an operation of a context. -/
def postOp (s : State) (c : Nat) (o : CopyOp) : State :=
  (setCtx s c { ctxOf s c with ops := (ctxOf s c).ops ++ [o] }).fresh

def xferOp (f : Fields) (s : State) (mk : Thr → Xfer) : Host.Outcome State Fault Refusal :=
  let act := s.active f
  let s1 := act.foldl (fun s' t => postOp s' t.key (.xfer s'.nextId (mk t))) s
  .next (finish s1 2 (s.idle f) false (act.map fun t => (t, .ok)))

def execGmov (f : Fields) (_ext : Ext) (s : State) : Host.Outcome State Fault Refusal :=
  xferOp f s fun t => baseXfer s t .plain (pairA f s t) (pairB f s t) (srcC f s t).toNat

/-- GGATHER and GSCAT operands (R251): count, bound, element size and index width are named in the extension word. -/
def gsXfer (f : Fields) (ext : Ext) (s : State) (t : Thr) (kind : CopyKind) : Xfer :=
  let b := ext.body.toNat
  { baseXfer s t kind (pairA f s t) (pairB f s t) (s.rx t (b % 32)).toNat with
    index := pairC f s t, bound := (s.rx t (b / 2 ^ 14 % 32)).toNat, elem := b / 32 % 256 * 4, idx64 := b.testBit 13 }

def execGgather (f : Fields) (ext : Ext) (s : State) : Host.Outcome State Fault Refusal :=
  xferOp f s fun t => gsXfer f ext s t .gather
def execGscat (f : Fields) (ext : Ext) (s : State) : Host.Outcome State Fault Refusal :=
  xferOp f s fun t => gsXfer f ext s t .scatter

/-- GSIG (R254): posted behind the context's earlier operations. -/
def gsigOp (f : Fields) (disp : W32) (len : Nat) (s : State) : Host.Outcome State Fault Refusal :=
  match s.active f with
  | [] => .next (finish s len (s.idle f) false [])
  | t :: _ =>
    let va := addDisp (pairA f s t) disp
    if va.toNat % 4 ≠ 0 then .next (s.raiseThr t (misaligned 4 va (s.pcOf t)))
    else .next ((postOp s t.key (.sig s.nextId va (srcC f s t) (s.asidOf t) (s.privOf t) (s.pcOf t))).adv t len)

def execGsig (f : Fields) (s : State) : Host.Outcome State Fault Refusal := gsigOp f 0 0 s
def execGsig96 (f : Fields) (imm : W32) (s : State) : Host.Outcome State Fault Refusal := gsigOp f imm 1 s

def CopyOp.id : CopyOp → Nat
  | .xfer i _ => i
  | .sig i _ _ _ _ _ => i

/-! ### The data path: sources and turns (R241) -/

/-- A posted operation has a line ready: a signal once it is the oldest (R254). -/
def opReady (s : State) (c : Nat) (o : CopyOp) : Bool :=
  match o with
  | .xfer id x => canMove s (c / 8) id x
  | .sig id va _ asid priv pc =>
    decide ((ctxOf s c).ops.head?.map CopyOp.id = some id)
    && (match gTr s asid priv (c / 8) va pc .write with
        | (_, .error none) => false
        | (_, .error (some _)) => true
        | (s1, .ok (_, pa)) => homeOpen s1 agentCopy (pa / 64) .write)

/-- Source i of an engine, a context or (8) the command queue, has a line ready. -/
def sourceReady (s : State) (ce i : Nat) : Bool :=
  if i = 8 then (copyq s ce).any fun c => canMove s ce c.id c.x
  else (ctxOf s (ce * 8 + i)).ops.any (opReady s (ce * 8 + i))

def sourcePrio (s : State) (ce i : Nat) : Nat := if i = 8 then 2 else (ctxOf s (ce * 8 + i)).prio

/-- Source i has had a line ready for 4,096 cycles without service. -/
def sourceAged (s : State) (ce i : Nat) : Bool := decide (4096 ≤ Map.getD s.ready (ce * 16 + i) 0)

/-- The source that the data path serves next: the first that has aged; else one of highest priority, in turn after the
source served last. -/
def nextSource (s : State) (ce : Nat) : Option Nat :=
  let l := (List.range 9).filter (sourceReady s ce)
  match l.find? (sourceAged s ce) with
  | some i => some i
  | none =>
    let top := l.foldl (fun a i => max a (sourcePrio s ce i)) 0
    let last := Map.getD s.lastSrc ce 8
    ((List.range 9).map fun j => (last + 1 + j) % 9).find? fun i => l.contains i && decide (sourcePrio s ce i = top)

/-- The source has been served. -/
def served (s : State) (ce i : Nat) : State :=
  { s with ready := Map.del s.ready (ce * 16 + i), lastSrc := Map.put s.lastSrc ce i }

/-- The data path serves one line of source i where it is that source's turn; an access that is not ready only asks for
its line. -/
def serve (s : State) (ce i : Nat) (ready : Bool) (act : State → State) : State :=
  if !ready then act s
  else if nextSource s ce = some i then served (act s) ce i
  else s

/-- A command or a posted operation stands under the number. -/
def isMove (s : State) (id : Nat) : Bool :=
  (s.copyqs.any fun q => q.2.any fun c => decide (c.id = id)) || s.ctxs.any fun c => c.2.ops.any fun o => decide (o.id = id)

/-- The next line transfer of an operation moves at most n bytes. -/
def copyPart (id n : Nat) (s : State) : State :=
  if isMove s id then { s with moves := Map.put s.moves id { movingOf s id with part := n } } else s

/-- One line of a queued command of an engine. -/
def moveCmd (s : State) (ce : Nat) (c : CopyCmd) : State :=
  match moveNext s ce c.id c.x with
  | (_, .wait l) => askFor s l
  | (s1, .more m) => { s1 with moves := Map.put s1.moves c.id m }
  | (s1, .done st) =>
    cmdDone { s1 with moves := Map.del s1.moves c.id, copyqs := Map.put s1.copyqs ce ((copyq s1 ce).filter fun x => x.id ≠ c.id) } c st

def performCmd (s : State) (ce id : Nat) : State :=
  match (copyq s ce).find? fun c => c.id = id with
  | none => s
  | some c => serve s ce 8 (canMove s ce c.id c.x) (fun s => moveCmd s ce c)

def execCopyCommandPerform (ce id : Nat) (s : State) : Host.Outcome State Fault Refusal := .next (performCmd s ce id)

/-- A context's operation has been performed. -/
def opDone (s : State) (c id : Nat) : State :=
  ({ setCtx s c { ctxOf s c with ops := (ctxOf s c).ops.filter fun o => o.id ≠ id } with moves := Map.del s.moves id }).settleCop c

/-- The status byte takes a status where it is 0 (R253). -/
def takeCst (s : State) (c st : Nat) : State :=
  if (ctxOf s c).cst = 0 then setCtx s c { ctxOf s c with cst := st } else s

/-- One line of a posted operation. A signal whose line is uncorrectable ends the program with UncorrectableMemoryError
(DEDUCED, log entry 134). -/
def moveOp (s : State) (c : Nat) (o : CopyOp) : State :=
  match o with
  | .xfer id x =>
    match moveNext s (c / 8) id x with
    | (_, .wait l) => askFor s l
    | (s1, .more m) => takeCst { s1 with moves := Map.put s1.moves id m } c m.st
    | (s1, .done st) => opDone (takeCst s1 c st) c id
  | .sig id va val asid priv pc =>
    if (ctxOf s c).ops.head?.map CopyOp.id ≠ some id then s
    else match gTr s asid priv (c / 8) va pc .write with
      | (s1, .error none) => s1
      | (s1, .error (some cz)) => (opDone s1 c id).stopProgram (.cop c) cz pc
      | (s1, .ok (l, pa)) =>
        if !homeOpen s1 agentCopy (pa / 64) .write then homeAsk s1 (pa / 64) .write
        else
          let v := (ctxOf s1 c).cst * 2 ^ 24 + val.toNat % 2 ^ 24
          match homePut (homeUse s1 (pa / 64)) agentCopy pa 4 v l.key l.cmps with
          | none => (opDone s1 c id).stopProgram (.cop c) (precise 0x13 0 va pc) pc
          | some s2 => opDone (setCtx s2 c { ctxOf s2 c with cst := 0 }) c id

def performOp (s : State) (c id : Nat) : State :=
  match (ctxOf s c).ops.find? fun o => o.id = id with
  | none => s
  | some o => serve s (c / 8) (c % 8) (opReady s c o) (fun s => moveOp s c o)

def execCopyTransferPerform (c id : Nat) (s : State) : Host.Outcome State Fault Refusal := .next (performOp s c id)

/-- COPY_SOURCE_AGING (R241): of the sources that have waited 4,096 cycles, the lowest context, then the command queue,
is served next. -/
def execCopySourceAging (ce : Nat) (s : State) : Host.Outcome State Fault Refusal :=
  match (List.range 9).find? fun i => sourceReady s ce i && sourceAged s ce i with
  | none => .next s
  | some 8 => .next (match (copyq s ce).find? fun c => canMove s ce c.id c.x with
    | some c => performCmd s ce c.id
    | none => s)
  | some i => .next (match (ctxOf s (ce * 8 + i)).ops.find? (opReady s (ce * 8 + i)) with
    | some o => performOp s (ce * 8 + i) o.id
    | none => s)

end Sys2Proof.Machine
end

