-- ==== Sys2Proof/Machine/Channel.lean ====
section
/-! DEFINITION. The channel instructions (R292 to R304, R316). -/

namespace Sys2Proof.Machine

/-- ChannelClosed of a channel instruction (R199, R316): precise, with the first lane's address or 0. -/
def chClosed (ch : Nat) (addr pc : W64) : Cause := precise 0x0A (BitVec.ofNat 32 (ch % 16)) addr pc

/-- Every active lane takes one trap; the other lanes move on. -/
def trapActive (f : Fields) (len : Nat) (s : State) (c : Thr → Cause) : Host.Outcome State Fault Refusal :=
  .next (finish s len (s.idle f) true ((s.active f).map fun t => (t, .prec (c t))))

/-! ### CST, CLD, CATOM, CRED (R297) -/

/-- What the lanes of one memory instruction on a channel share. -/
structure ChArg where
  ch : Nat
  pkop : Nat
  n : Nat
  wr : Bool
  dev : Bool
  regs : List Nat
  acq : Bool
deriving DecidableEq, Repr

/-- One lane: its request, or its fate. -/
def chLane (g : ChArg) (data : Thr → Nat × W64 × W64) (s : State) (x : Thr × W64 × LaneTr) :
    Option (State × Fate × Option LaneReq) :=
  let t := x.1
  let va := x.2.1
  match x.2.2 with
  | .fate ft => some (s, ft, none)
  | .ok l pa =>
    if isDev pa && (!g.dev || decide (g.n ≠ 4 ∧ g.n ≠ 8)) then some (s, .now (protAt 8 va), none)
    else match (if g.pkop = 0 then doorDrain s (s.fibCore t.key) pa else some s) with
    | none => none
    | some s0 =>
      let p := pendAcq s0 t g.regs g.acq
      let d := data t
      some (p.1, .ok, some ⟨t.key, pa, g.n, l.key, l.cmps, va, s.pcOf t, d.1, d.2.1, d.2.2, p.2⟩)

/-- A memory instruction on a channel. -/
def chMem (g : ChArg) (f : Fields) (ext : Ext) (sx : Bool) (s : State) (data : Thr → Nat × W64 × W64) :
    Host.Outcome State Fault Refusal :=
  let act := s.active f
  let va := memVa f (ext.body.extractLsb' 0 32) s
  match act with
  | [] => .next (finish s 2 (s.idle f) true [])
  | t :: _ =>
    let c := chanKey (wgOf t.key) g.ch
    if !closerReady s act then .next s
    else if (s.chan c).refuses then trapActive f 2 s fun u => chClosed g.ch (va t) (s.pcOf u)
    else match trLanes (if g.wr then .write else .read) g.n va act s with
      | (s1, none) => .next s1
      | (s1, some trs) =>
        let rel := flagREL f && decide (g.pkop ≠ 1)
        match releaseFirst s1 rel (scopeFld f) act with
        | (s2, false) => .next s2
        | (s2, true) =>
          match runLanes (chLane g data) (fun x => x.1) (trs.map fun x => (x.1, va x.1, x.2)) s2 with
          | none => .next s2
          | some (s3, fates, reqs) =>
            let plain := decide (g.pkop = 0) && !flagREL f
            let s4 := chanIssue s3 c g.pkop f.sub.toNat (flagW64 f && decide (2 ≤ g.pkop)) sx plain (scopeFld f) reqs
            .next (finish s4 2 (s.idle f) true fates)

def execCst (f : Fields) (ext : Ext) (s : State) : Host.Outcome State Fault Refusal :=
  let n := stSize f.sub.toNat
  chMem { ch := ext.chan.toNat, pkop := 0, n := n, wr := true, dev := true, regs := [], acq := false } f ext false s
    fun t => (storeData s t f.c.toNat n, 0, 0)

def execCld (f : Fields) (ext : Ext) (s : State) : Host.Outcome State Fault Refusal :=
  let n := ldSize f.sub.toNat
  chMem { ch := ext.chan.toNat, pkop := 1, n := n, wr := false, dev := true, regs := destRegs f.d.toNat n, acq := flagACQ f }
    f ext (signedLd f.sub.toNat) s fun _ => (0, 0, 0)

def execCatom (f : Fields) (ext : Ext) (s : State) : Host.Outcome State Fault Refusal :=
  let n := if flagW64 f then 8 else 4
  chMem { ch := ext.chan.toNat, pkop := 2, n := n, wr := true, dev := false, regs := destRegs f.d.toNat n, acq := flagACQ f }
    f ext false s fun t => (0, atomOperand s t f.c.toNat (flagW64 f), 0)

def execCred (f : Fields) (ext : Ext) (s : State) : Host.Outcome State Fault Refusal :=
  let n := if flagW64 f then 8 else 4
  chMem { ch := ext.chan.toNat, pkop := 3, n := n, wr := true, dev := false, regs := [], acq := false }
    f ext false s fun t => (0, atomOperand s t f.c.toNat (flagW64 f), 0)

/-! ### CCPY and CMCAST (R300, R301) -/

/-- Lines of 64 bytes that [va, va + len) touches. -/
def lineCount (va : W64) (len : Nat) : Nat := (va.toNat % 64 + len + 63) / 64

/-- The place of a role's target die (R20, R22). -/
def roleDie (s : State) (t : Thr) (role : Nat) : Nat :=
  let e := Map.getD (s.share (s.wg (s.wgOfThr t)).share).binding role 0
  (e.extractLsb' 52 12).toNat * 16 + (e.extractLsb' 16 4).toNat

/-- The fate of a lane whose first byte does not translate. -/
def chFault (e : TErr) (va pc : W64) : Option Fate :=
  match e with
  | .wait => none
  | e => some (.late (e.cause true va pc) 0)

/-- One lane of CCPY or CMCAST: nothing for a length of 0; otherwise the first byte of each end is translated, and the
lane's lines are reserved in the channel's order. A CCPY or CMCAST of no shape breaks the channel, on a resetting one in the
new epoch. `none`: it waits. -/
def copyLane (f : Fields) (c eng : Nat) (targets : Option (List Nat)) (s0 s : State) (t : Thr) :
    Option (State × Fate × Option LaneReq) :=
  let len := (srcC f s0 t).toNat
  let dst := pairA f s0 t
  let src := pairB f s0 t
  let die := s.fibDie t.key
  let pc := s.pcOf t
  if len = 0 then some (s, .ok, none)
  else
    let tr (s : State) (va : W64) (acc : Acc) := translate s (.eng (tlbChan die)) die (s.asidOf t) (s.privOf t) va acc
    match tr s dst .write with
    | (_, .error e) => (chFault e dst pc).map fun ft => (s, ft, none)
    | (s1, .ok (_, dpa)) =>
      match tr s1 src .read with
      | (_, .error e) => (chFault e src pc).map fun ft => (s1, ft, none)
      | (s2, .ok (_, spa)) =>
        let here := diePlace s2 die
        let hd := homePlace s2 dpa
        let hs := homePlace s2 spa
        let cast := targets.isSome
        if cast && (memDie dpa).isNone then some (s2, .now (protAt 5 dst), none)
        else if isDev dpa then some (s2, .now (protAt 8 dst), none)
        else if isDev spa then some (s2, .now (protAt 8 src), none)
        else if 2 ^ 24 < len ∨ (cast = false ∧ hs ≠ here ∧ hd ≠ here) then
          some (if (s2.chan c).resetting then acceptItems s2.fresh c [.brk s2.nextId 8] else breakChan s2 c 8, .ok, none)
        else
          let pull := !cast && decide (hs ≠ here)
          let ds := match targets with
            | some l => l
            | none => if pull then [hs] else [hd]
          let j : CopyJob := { id := s2.nextId, chan := c, fib := t.key, acc := s2.nextId, eng := eng, src := src, dst := dst,
                               len := len, done := 0, pull := pull, cast := cast, srcHome := hs, dstHome := hd,
                               asid := s2.asidOf t, priv := s2.privOf t, resv := [], stop := 0,
                               whole := !cast && decide ((dst - src).toNat < len ∨ (src - dst).toNat < len), formed := [] }
          let lines := lineCount (if pull then src else dst) len
          some (acceptItems s2.fresh c [.copy s2.nextId j ds lines], .ok, none)

def chCopy (f : Fields) (ch : Nat) (s : State) (eng : Thr → Nat) (targets : Thr → Option (List Nat)) :
    Host.Outcome State Fault Refusal :=
  let act := s.active f
  match act with
  | [] => .next (finish s 2 (s.idle f) true [])
  | t :: _ =>
    let c := chanKey (wgOf t.key) ch
    if !closerReady s act then .next s
    else if (s.chan c).refuses then trapActive f 2 s fun u => chClosed ch (pairA f s t) (s.pcOf u)
    else match drainRelease s (s.fibCore t.key) with
      | none => .next s
      | some s1 =>
        match runLanes (copyLane f c (eng t) (targets t) s) id act s1 with
        | none => .next s
        | some (s2, fates, _) => .next (finish s2 2 (s.idle f) true fates)

def execCcpy (f : Fields) (ext : Ext) (s : State) : Host.Outcome State Fault Refusal :=
  chCopy f ext.chan.toNat s (fun t => roleEngine s t ext.role.toNat) fun _ => none

def execCmcast (f : Fields) (ext : Ext) (s : State) : Host.Outcome State Fault Refusal :=
  chCopy f ext.chan.toNat s (fun _ => 0) fun t => some ((castRoles ext.body.toNat).map (roleDie s t))

/-! ### Management instructions (R302 to R304) -/

/-- An instruction that acts once for the batch. -/
def chOnce (f : Fields) (len : Nat) (s : State) (g : State → Thr → Option State) : Host.Outcome State Fault Refusal :=
  let act := s.active f
  match act with
  | [] => .next (finish s len (s.idle f) true [])
  | t :: _ =>
    if !closerReady s act then .next s
    else match g s t with
      | none => .next s
      | some s1 => .next (finish s1 len (s.idle f) true (act.map fun t => (t, .ok)))

/-- CHOPEN of a closed channel: a new incarnation. -/
def openChan (x : Chan) : Chan :=
  { x with epoch := (x.epoch + 1) % 2 ^ 16, lastseq := 0, outst := 0, ecode := 0, broken := false, dests := [],
           opened := true }

def resetChan (s : State) (c : Nat) : State := acceptItems s.fresh c [.reset s.nextId]

def execChopen (f : Fields) (ext : Ext) (s : State) : Host.Outcome State Fault Refusal :=
  chOnce f 2 s fun s t =>
    let ch := ext.chan.toNat
    let c := chanKey (wgOf t.key) ch
    let x := s.chan c
    if ch = 0 then some s
    else if !x.opened then some (s.updChan c openChan)
    else if x.broken then some (resetChan s c)
    else some s

def execChclose (f : Fields) (s : State) : Host.Outcome State Fault Refusal :=
  chOnce f 0 s fun s t =>
    let ch := f.a.toNat % 16
    let c := chanKey (wgOf t.key) ch
    if ch = 0 ∨ !(s.chan c).opened ∨ (s.chan c).closing then some s
    else some (acceptItems s.fresh c [.close s.nextId])

def execChreset (f : Fields) (s : State) : Host.Outcome State Fault Refusal :=
  chOnce f 0 s fun s t => some (resetChan s (chanKey (wgOf t.key) (f.a.toNat % 16)))

def execChjoin (f : Fields) (s : State) : Host.Outcome State Fault Refusal :=
  let act := s.active f
  match act with
  | [] => .next (finish s 0 (s.idle f) true [])
  | t :: _ =>
    let a := chanKey (wgOf t.key) (f.d.toNat % 16)
    let b := chanKey (wgOf t.key) (f.a.toNat % 16)
    if !closerReady s act then .next s
    else if (s.chan a).refuses then trapActive f 0 s fun u => chClosed f.d.toNat 0 (s.pcOf u)
    else if (s.chan b).refuses then trapActive f 0 s fun u => chClosed f.a.toNat 0 (s.pcOf u)
    else
      let s1 := acceptItems s.fresh a [.join s.nextId b]
      .next (finish s1 0 (s.idle f) true (act.map fun t => (t, .ok)))

/-- CHDRAIN waits until nothing accepted on the channel is unacknowledged. -/
def execChdrain (f : Fields) (s : State) : Host.Outcome State Fault Refusal :=
  let act := s.active f
  match act with
  | [] => .next (finish s 0 (s.idle f) true [])
  | t :: _ =>
    let ch := f.a.toNat % 16
    let c := chanKey (wgOf t.key) ch
    if !closerReady s act || !chanIdle s c || !(s.chan c).queue.isEmpty then .next s
    else if (s.chan c).ecode ≠ 0 then
      trapActive f 0 s fun u => precise 0x09 (BitVec.ofNat 32 ((s.chan c).ecode + 256 * ch)) 0 (s.pcOf u)
    else .next (finish s 0 (s.idle f) true (act.map fun t => (t, .ok)))

def execChstat (f : Fields) (s : State) : Host.Outcome State Fault Refusal :=
  let act := s.active f
  if !closerReady s act then .next s
  else
    let v (t : Thr) : W64 := (s.chan (chanKey (wgOf t.key) (f.a.toNat % 16))).reg
    let s1 := act.foldl (fun s' t => s'.arriveXP t f.d.toNat (v t)) s
    .next (finish s1 0 (s.idle f) true (act.map fun t => (t, .ok)))

end Sys2Proof.Machine
end

