-- ==== Sys2Proof/Machine/Convert.lean ====
section
/-! DEFINITION. Conversion and packing: CVT, F2I, I2F, PACK, UNPK, QBLK (R139 to R145). -/

namespace Sys2Proof.Machine

/-- Slots of a format in a 32-bit register (R139): 2 of 16 bits, 4 of 8 or 6 bits, 8 of 4, 16 of 2. -/
def slotCount (code : Nat) : Nat := if fmtBits code = 6 then 4 else 32 / fmtBits code

/-- Slot k of a register (R139, R61): slots lie from bit 0 upward. -/
def slotGet (code k : Nat) (w : W32) : Nat := bitsN w.toNat (fmtBits code * (k + 1) - 1) (fmtBits code * k)

def slotSet (code k : Nat) (w : W32) (bits : Nat) : W32 :=
  BitVec.ofNat 32 (setBitsN w.toNat (fmtBits code * k) (fmtBits code) bits)

/-- CVT of one element (R140): the element format stands for a block code, with MXINT8's factor. -/
def cvtElem (f : Fields) (a : W32) : EncRes :=
  let src := f.sub.toNat
  let dst := typeOf f
  let v := dec (elemOf src) a.toNat
  let v := if src = 0x15 then v.scale (-6) else v
  let v := if dst = 0x15 then v.scale 6 else v
  enc (elemOf dst) v (rmOf (rndOf f)) (satOf f)

/-- F2I: round in the field's direction and clamp; NaN and NaR give 0 with the flag (R141). -/
def f2iElem (f : Fields) (a : W32) : EncRes :=
  encInt (decide (f.sub = 0)) 32 (dec (elemOf (typeOf f)) a.toNat) (rmOf (rndOf f))

def i2fElem (f : Fields) (a : W32) : EncRes :=
  enc (elemOf (typeOf f)) (dec (.int (decide (f.sub = 0)) 32) a.toNat) (rmOf (rndOf f)) (satOf f)

/-- An F32 source after NA and AA (R142). -/
def f32After (f : Fields) (a : W32) : FVal :=
  let b := if flagAA f then a &&& 0x7FFFFFFF#32 else a
  decF32 (if flagNA f then b ^^^ 0x80000000#32 else b).toNat

def packElem (f : Fields) (a b c : W32) : W32 × Bool :=
  let code := typeOf f
  let (bits, fl) := enc (elemOf code) (f32After f a) (rmOf (rndOf f)) (satOf f)
  (slotSet code (b.toNat % slotCount code) c bits, fl)

def unpkPlain (f : Fields) (a b : W32) : W32 :=
  let code := typeOf f
  BitVec.ofNat 32 (encF32 (dec (elemOf code) (slotGet code (b.toNat % slotCount code) a)) .rne false)

def unpkScaled (f : Fields) (a b c : W32) : W32 :=
  let code := typeOf f
  BitVec.ofNat 32 (encF32 (decS code (slotGet code (b.toNat % slotCount code) a) (c.toNat % 256))
    (rmOf (rndOf f)) (satOf f))

/-- Writes D from an encoding and sets CVF where it says so (R74). -/
def State.aluEnc (s : State) (f : Fields) (v : Thr → W32 × Bool) : Host.Outcome State Fault Refusal :=
  s.alu f 0 fun t s' => (s'.wx t f.d.toNat (v t).1).flagCvf t (v t).2

def encWord (r : EncRes) : W32 × Bool := (BitVec.ofNat 32 r.1, r.2)

def execCvt (f : Fields) (s : State) : Host.Outcome State Fault Refusal :=
  s.aluEnc f fun t => encWord (cvtElem f (srcA f s t))
def execF2i (f : Fields) (s : State) : Host.Outcome State Fault Refusal :=
  s.aluEnc f fun t => encWord (f2iElem f (srcA f s t))
def execI2f (f : Fields) (s : State) : Host.Outcome State Fault Refusal :=
  s.aluEnc f fun t => encWord (i2fElem f (srcA f s t))
def execPack (f : Fields) (s : State) : Host.Outcome State Fault Refusal :=
  s.aluEnc f fun t => packElem f (srcA f s t) (srcB f s t) (srcC f s t)
def execUnpk (f : Fields) (s : State) : Host.Outcome State Fault Refusal :=
  s.aluX f 0 fun t => unpkPlain f (srcA f s t) (srcB f s t)
def execUnpkScaled (f : Fields) (s : State) : Host.Outcome State Fault Refusal :=
  s.aluX f 0 fun t => unpkScaled f (srcA f s t) (srcB f s t) (srcC f s t)

/-! ### QBLK (R144, R70) -/

/-- The active threads of the block a lane belongs to: 32 lanes, or 16 for codes 0x1C and 0x1D. -/
def qblkPeers (code : Nat) (act : List Thr) (t : Thr) : List Thr :=
  act.filter fun u => u.lane / blockElems code = t.lane / blockElems code

/-- One lane's result: scale byte above, element bits below, and its conversion flag. -/
def qblkLane (f : Fields) (s : State) (act : List Thr) (t : Thr) : W32 × Bool :=
  let code := typeOf f
  let el := elemOf code
  let sc := sxScale el ((qblkPeers code act t).map fun u => decF32 (srcA f s u).toNat)
  let (bits, fl) := sxElem el sc (rmOf (rndOf f)) (decF32 (srcA f s t).toNat)
  (BitVec.ofNat 32 (intBits 8 sc * 65536 + bits), fl)

/-- The element and, where its encoding sets it, CVF (bit 31 of the predicate word, R84) arrive together. -/
def execQblk (f : Fields) (s : State) : Host.Outcome State Fault Refusal :=
  let act := s.active f
  s.alu f 0 fun t s' =>
    let r := qblkLane f s act t
    s'.pend t [f.d.toNat] [r.1] (if r.2 then [31] else []) [true] true

end Sys2Proof.Machine
end

