-- ==== Sys2Proof/Machine/CrossLane.lean ====
section
/-! DEFINITION. Cross-lane instructions over the issuing batch (R146 to R152). Results are V-class. -/

namespace Sys2Proof.Machine

/-- The source lane of SHFL (R147), as an integer that may fall outside 0 to 31. -/
def shflLane (sub : Nat) (lane : Nat) (b : W32) : Int :=
  match sub with
  | 0 => (b.toNat % 32 : Nat)
  | 1 => (lane : Int) - b.toNat
  | 2 => (lane : Int) + b.toNat
  | _ => (lane ^^^ (b.toNat % 32) : Nat)

/-- The value a lane receives: its source lane's where that lane is in the batch, else its own (R147). -/
def shflVal (f : Fields) (s : State) (t : Thr) (b : W32) : W32 :=
  let j := shflLane f.sub.toNat t.lane b
  match s.threads.find? fun u => (u.lane : Int) = j with
  | some u => srcA f s u
  | none => srcA f s t

def execShfl (f : Fields) (s : State) : Host.Outcome State Fault Refusal :=
  s.varX f 0 fun t => shflVal f s t (srcB f s t)
def execShfl96 (f : Fields) (imm : W32) (s : State) : Host.Outcome State Fault Refusal :=
  s.varX f 1 fun t => shflVal f s t imm

def laneMask (l : List Thr) : W32 := bitMask (l.map Thr.lane)

/-- VOTE (R148): SUB 2 (ballot) writes an x register, the others a predicate. -/
def execVote (f : Fields) (s : State) : Host.Outcome State Fault Refusal :=
  let act := s.active f
  let p (t : Thr) : Bool := s.rp t f.a.toNat
  if f.sub = 2 then s.varX f 0 fun _ => laneMask (act.filter p)
  else s.varP f 0 fun _ =>
    if f.sub = 0 then act.all p
    else if f.sub = 1 then act.any p
    else act.all p || act.all fun t => !p t

/-- Identities of the REDUX operations (R150). -/
def reduxIdent (v : Nat) : W32 :=
  match v with
  | 1 => 0x7FFFFFFF#32
  | 2 => 0x80000000#32
  | 3 => 0xFFFFFFFF#32
  | 5 => 0xFFFFFFFF#32
  | 8 => 0x80000000#32
  | 9 => 0x7F800000#32
  | 10 => 0xFF800000#32
  | _ => 0

/-- Two values under one of the operations other than fadd (R149). -/
def reduxPair (v : Nat) (a b : W32) : W32 :=
  match v with
  | 0 => a + b
  | 1 => if b.slt a then b else a
  | 2 => if a.slt b then b else a
  | 3 => if b.ult a then b else a
  | 4 => if a.ult b then b else a
  | 5 => a &&& b
  | 6 => a ||| b
  | 7 => a ^^^ b
  | 9 => BitVec.ofNat 32 (minMaxBits false fmtF32 a.toNat b.toNat)
  | _ => BitVec.ofNat 32 (minMaxBits true fmtF32 a.toNat b.toNat)

/-- The combination of a list of values: fadd is the exact sum rounded once; of none, the identity (R149, R150). A
single fmin or fmax operand that is NaN gives the canonical NaN, as R132's two NaNs do. -/
def reduxAll (v : Nat) (rm : Rm) (sat : Bool) (xs : List W32) : W32 :=
  match xs with
  | [] => reduxIdent v
  | x :: rest =>
    if v = 8 then BitVec.ofNat 32 (encF32 (sumVals rm (xs.map fun w => decF32 w.toNat)) rm sat)
    else if v = 9 ∨ v = 10 then rest.foldl (reduxPair v) (reduxPair v x x)
    else rest.foldl (reduxPair v) x

def execRedux (f : Fields) (s : State) : Host.Outcome State Fault Refusal :=
  let r := reduxAll f.sub.toNat (rmOf (rndOf f)) (satOf f) ((s.active f).map (srcA f s))
  s.varX f 0 fun _ => r

/-- SCAN: the operation is in MOD[63:59]; SUB 1 is the exclusive scan (R150). -/
def execScan (f : Fields) (s : State) : Host.Outcome State Fault Refusal :=
  let act := s.active f
  s.varX f 0 fun t =>
    reduxAll (f.md.toNat / 0x800) (rmOf (rndOf f)) (satOf f)
      ((act.filter fun u => u.lane < t.lane || (f.sub = 0 && u.lane = t.lane)).map (srcA f s))

/-- MATCH (R151): SUB 0 any, 1 all. -/
def execMatchLanes (f : Fields) (s : State) : Host.Outcome State Fault Refusal :=
  let act := s.active f
  s.varX f 0 fun t =>
    let peers := act.filter fun u => srcA f s u = srcA f s t
    if f.sub = 0 then laneMask peers
    else if peers.length = act.length then laneMask act else 0

end Sys2Proof.Machine
end

