-- ==== Sys2Proof/WellFormed.lean ====
section
/-! DEFINITION. Well-formed instructions: those whose fields pass every static check of R47, in the order of R48.
Checks that depend on the machine (roles, the cooperative level of BAR, fork counts) belong to the meanings. -/

namespace Sys2Proof

open Machine

/-- The subcodes of IllegalInstruction (R47). -/
inductive DecErr where
  | length | misplaced | opcode | engine | form | variant | reservedBits | register | scope | format | role
  | specialRegister | fork
deriving DecidableEq, Repr

def DecErr.code : DecErr → Nat
  | .length => 0x01
  | .misplaced => 0x02
  | .opcode => 0x03
  | .engine => 0x04
  | .form => 0x05
  | .variant => 0x06
  | .reservedBits => 0x07
  | .register => 0x08
  | .scope => 0x09
  | .format => 0x0A
  | .role => 0x0B
  | .specialRegister => 0x0C
  | .fork => 0x0D

/-- A field that must be zero, or holds a number below a bound (ReservedBits). -/
def fieldZeroOk (o : Opnd) (n : Nat) : Bool :=
  match o.1 with
  | .z => decide (n = 0)
  | .num k => decide (n < k)
  | _ => true

/-- A register field within its kind's range (R41, R93); `lim` is XREGS on a core and 32 on a sequencer. -/
def fieldRegOk (lim : Nat) (o : Opnd) (n : Nat) : Bool :=
  match o.1 with
  | .x => decide (n < lim)
  | .xp => decide (n % 2 = 0 ∧ n + 1 < lim)
  | .xq => decide (n % 4 = 0 ∧ n + 3 < lim)
  | .p => decide (n < 8)
  | .j => decide (n < 8)
  | .ch => decide (n < 16)
  | _ => true

/-- Numbers inside an extension word's BODY that must lie in a range (R243, R251, R269, R296). -/
def bodyOk (op : Nat) (body : Nat) : Bool :=
  if op = 0x9B then decide (1 ≤ body % 256 ∧ body % 256 ≤ 64)
  else if op = 0xA2 ∨ op = 0xA3 then decide (1 ≤ body / 32 % 256 ∧ body / 32 % 256 ≤ 64)
  else if op = 0xA8 ∨ op = 0xA9 then decide (1 ≤ body / 256 % 64 ∧ body / 256 % 64 ≤ 16)
  else if op = 0xC7 then decide (body % 2 ^ 32 < 16 ^ (body / 2 ^ 32 % 8 + 1))
  else true

/-- ReservedBits (R38, R42). -/
def reservedOk (p : Parts) : Bool :=
  let fm := formOf p.op p.len p.f
  let md := p.f.md.toNat
  (p.f.md &&& ~~~ (BitVec.ofNat 16 fm.md) == 0)
  && (decide (fm.md / 0x4000 % 4 ≠ 3 ∨ opCls p.op = .f) || decide (md / 0x4000 ≠ 3) || decide (p.op = 0x53))
  && fieldZeroOk fm.d p.f.d.toNat && fieldZeroOk fm.a p.f.a.toNat && fieldZeroOk fm.b p.f.b.toNat
  && fieldZeroOk fm.c p.f.c.toNat
  && decide (p.imm.toNat ≤ fm.immMax)
  && (fm.role || decide (p.ext.role = 0))
  && (decide (p.len = 2 ∧ (opDK p.op = 1 ∨ opDK p.op = 2 ∨ opDK p.op = 3)) || decide (p.ext.chan = 0))
  && (p.ext.body &&& ~~~ (BitVec.ofNat 52 fm.body) == 0)
  && (decide (p.len ≠ 2) || bodyOk p.op p.ext.body.toNat)

def registerOk (lim : Nat) (p : Parts) : Bool :=
  let fm := formOf p.op p.len p.f
  fieldRegOk lim fm.d p.f.d.toNat && fieldRegOk lim fm.a p.f.a.toNat && fieldRegOk lim fm.b p.f.b.toNat
  && fieldRegOk lim fm.c p.f.c.toNat

def scopeOf (f : Fields) : Nat := f.md.toNat / 256 % 8

def scopeOk (p : Parts) : Bool :=
  match (formOf p.op p.len p.f).scopes with
  | none => true
  | some l => l.contains (scopeOf p.f)

def formatOk (p : Parts) : Bool :=
  (match (formOf p.op p.len p.f).fmts with
   | none => true
   | some l => l.contains (p.f.md.toNat % 32))
  && (decide (p.op ≠ 0xA8 ∧ p.op ≠ 0xA9) || decide (p.ext.body.toNat % 32 < 16))

def specialOk (p : Parts) : Bool := decide (p.op ≠ 0xE0 ∧ p.op ≠ 0xE1) || srKnown p.f.b.toNat

/-- The first failing check, in the order of R48, of parts whose length code is not 3. -/
def checkParts (e : EngineKind) (lim : Nat) (p : Parts) : Option DecErr :=
  if opReserved p.op then some .opcode
  else if (opEngines p.op).contains e = false then some .engine
  else if (opLens p.op).contains p.len = false then some .form
  else if subOk p.op p.f = false then some .variant
  else if reservedOk p = false then some .reservedBits
  else if registerOk lim p = false then some .register
  else if scopeOk p = false then some .scope
  else if formatOk p = false then some .format
  else if specialOk p = false then some .specialRegister
  else none

/-- A well-formed instruction on engine `e` with `lim` registers: its parts pass every check and are those of this
constructor. An event is well-formed whatever its arguments: a unit that does not exist is refused by its meaning. -/
def Instr.wfOn (e : EngineKind) (lim : Nat) (i : Instr) : Bool :=
  match partsOf i with
  | none => true
  | some p => decide (checkParts e lim p = none) && decide (mkInstr p = some i)

/-- Registers a program of the engine may name at most (R41). -/
def maxRegs : EngineKind → Nat
  | .v => 128
  | _ => 32

/-- Well-formed on some engine. -/
def Instr.wf (i : Instr) : Bool :=
  i.wfOn .v 128 || i.wfOn .m 32 || i.wfOn .g 32

end Sys2Proof
end

