-- ==== Sys2Proof/Decode.lean ====
section
/-! DEFINITION. The decoder (R33, R36, R40, R47, R48), total on any bits and refusing by name, and the encoder. Bit n
of the instruction is bit n of the word given (R33). -/

namespace Sys2Proof

open Machine

/-- Field extraction of the first word (R36). -/
def fieldsOf (w : BitVec 128) : Fields :=
  { sw := w.getLsbD 2, pg := w.extractLsb' 11 3, pn := w.getLsbD 14,
    d := w.extractLsb' 15 7, a := w.extractLsb' 22 7, b := w.extractLsb' 29 7, c := w.extractLsb' 36 7,
    sub := w.extractLsb' 43 5, md := w.extractLsb' 48 16 }

/-- Length code (R33). -/
def lenCode (w : BitVec 128) : Nat := (w.extractLsb' 0 2).toNat

/-- Bytes of an instruction (R34). -/
def instrBytes (lcode : Nat) : Nat := 8 + 4 * lcode

/-- The parts of an instruction whose length code is 0 to 2 (R36, R40). Bits beyond the length are ignored. -/
def partsOfWord (w : BitVec 128) : Parts :=
  let l := lenCode w
  { op := (w.extractLsb' 3 8).toNat, len := l, f := fieldsOf w,
    imm := if l = 1 then w.extractLsb' 64 32 else 0,
    ext := if l = 2 then { role := w.extractLsb' 68 4, chan := w.extractLsb' 72 4, body := w.extractLsb' 76 52 }
           else noExt }

/-- DK of a 128-bit form must match the opcode (R40). -/
def dkOk (w : BitVec 128) : Bool :=
  decide (lenCode w ≠ 2) || decide ((w.extractLsb' 64 4).toNat = opDK (w.extractLsb' 3 8).toNat)

/-- Checks in the order of R48: Length, then (DK counting as Form) those of `checkParts`. -/
def checkWord (e : EngineKind) (lim : Nat) (w : BitVec 128) : Option DecErr :=
  if lenCode w = 3 then some .length
  else
    let p := partsOfWord w
    if opReserved p.op then some .opcode
    else if (opEngines p.op).contains e = false then some .engine
    else if dkOk w = false then some .form
    else checkParts e lim p

/-- Decodes the instruction at the low end of `w` on engine `e`, whose programs may name registers below `lim`. -/
def decodeWord (e : EngineKind) (lim : Nat) (w : BitVec 128) : Except DecErr Instr :=
  match checkWord e lim w with
  | some err => .error err
  | none =>
    match mkInstr (partsOfWord w) with
    | some i => .ok i
    | none => .error .variant

/-! ### The encoder -/

/-- The first word of a form (R36). -/
def encodeFirst (op len : Nat) (f : Fields) : BitVec 64 :=
  f.md ++ f.sub ++ f.c ++ f.b ++ f.a ++ f.d ++ BitVec.ofBool f.pn ++ f.pg ++ BitVec.ofNat 8 op ++ BitVec.ofBool f.sw
    ++ BitVec.ofNat 2 len

/-- The extension word (R40). -/
def encodeExt (op : Nat) (x : Ext) : BitVec 64 := x.body ++ x.chan ++ x.role ++ BitVec.ofNat 4 (opDK op)

/-- The bits of encoded parts, zero above the form's length. -/
def encodeParts (p : Parts) : BitVec 128 :=
  (if p.len = 2 then encodeExt p.op p.ext else (0 : BitVec 32) ++ p.imm) ++ encodeFirst p.op p.len p.f

/-- The bits of an instruction; none for an event. -/
def encode (i : Instr) : Option (BitVec 128) := (partsOf i).map encodeParts

/-- The host's reading of an opcode-table word: bit 0 is the least significant bit of the first word; every bit at or
above `nbits` is zero. The word is tried on a vector core, then on the sequencers. -/
def decodeTableWord (nbits w : Nat) : Option Instr :=
  let v := BitVec.ofNat 128 (w % 2 ^ nbits)
  match decodeWord .v 128 v with
  | .ok i => some i
  | .error _ =>
    match decodeWord .m 32 v with
    | .ok i => some i
    | .error _ =>
      match decodeWord .g 32 v with
      | .ok i => some i
      | .error _ => none

end Sys2Proof
end

