-- ==== Sys2Proof/Machine/Issue.lean ====
section
/-! DEFINITION. What surrounds an instruction's own effect: fetch (R34, R419), decoding, switch points and the run rule
(R44, R45), the scoreboard (R46), marks on registers (R95, R249, R311), closers (R201). -/

namespace Sys2Proof.Machine

/-! ### Who issues -/

/-- Engine kind, and the registers its programs may name (R41, R93). -/
def Eng.kind : Eng → EngineKind
  | .band _ => .v
  | .mat _ => .m
  | .cop _ => .g

def State.regLimit (s : State) : Nat :=
  match s.focus with
  | .band b => (s.wg (b / 32)).xregs
  | _ => 32

/-- The gang the focus engine works for. -/
def State.focusGang (s : State) : Nat :=
  match s.focus with
  | .band b => (s.wg (b / 32)).gang
  | .mat q => (s.wg (s.mseq q).wg).gang
  | .cop c => (s.wg (s.cop c).wg).gang

/-- A gang's launch is being killed (R351), or its die's reset waits for the host (R415). -/
def State.stopping (s : State) (g : Gang) : Bool :=
  (match Map.get s.launches g.share with
    | some l => decide (l.phase = .killed)
    | none => false) || (s.ld (g.quad / 40)).ending.isSome

/-- The focus engine may issue at all: its gang is neither suspended nor halted (a debugger's step lets one band
issue), its share has not ended by a trap, and a sequencer runs. -/
def State.mayIssue (s : State) : Bool :=
  let g := s.gang s.focusGang
  let ended := (s.share g.share).trap.isSome || s.stopping g
  match s.focus with
  | .band b =>
    !ended && !g.suspended && (!g.halted || (match g.stepFib with
      | some k => decide (bandOf k = b)
      | none => false))
  | .mat q => !ended && !g.suspended && !g.halted && decide ((s.mseq q).st = .running)
  | .cop c => !ended && !g.halted && decide ((s.cop c).st = .running)

/-- The band's current batch, chosen first where it has none that can issue (R182); under a debugger's step, the batch
of the focus fibre (R210), which as any change of current batch clears the fairness count (R184). -/
def State.pickBatch (s : State) : State :=
  match s.focus with
  | .band b =>
    match (s.gang s.focusGang).stepFib with
    | some k =>
      match (s.band b).batches.find? fun x => x.mask.getLsbD (laneOf k) with
      | some x => s.updBand b fun bd => if x.id = bd.cur then bd else { bd with cur := x.id, fair := 0 }
      | none => s
    | none =>
      match (s.band b).batch (s.band b).cur with
      | some x => if s.canIssue b x then s else s.choose b
      | none => s.choose b
  | _ => s

/-- A thread of the issuing batch; all of them have one PC (R87). -/
def State.headThr (s : State) : Option Thr := s.threads.head?

/-! ### Fetch (R34, R419) -/

/-- Number of the engine's instruction cache. -/
def State.icacheOf (s : State) : Nat :=
  match s.focus with
  | .band b => (s.band b).core
  | .mat q => 3000 + q
  | .cop c => 4000 + c / 8

/-- Die of an instruction cache, or of a channel engine's multicast buffer. -/
def icDie (ic : Nat) : Nat :=
  if ic < 3000 then ic / 160 else if ic < 4000 then (ic - 3000) / 40 else if ic < 5000 then (ic - 4000) / 4 else ic - 5000

/-- TLB that the engine's fetches use. -/
def State.fetchClient (s : State) : Client :=
  match s.focus with
  | .band b => .core (s.band b).core
  | .mat q => .eng (tlbTile q)
  | .cop c => .eng (tlbCopy (c / 8))

def State.fetchDie (s : State) : Nat :=
  match s.focus with
  | .band b => (s.band b).core / 160
  | .mat q => q / 40
  | .cop c => c / 32

/-- Keeps a fetch block; a 64 KiB cache holds 2,048, and the oldest goes (log entry 12). -/
def keepBlock (s : State) (ic pa : Nat) (v : BitVec 256) : State :=
  { s with icache := Map.put s.icache ic (pushCap 2048 ((Map.getD s.icache ic []).filter fun p => p.1 ≠ pa / 32) (pa / 32, v)) }

def heldBlock (s : State) (ic pa : Nat) : Option (BitVec 256) :=
  ((Map.getD s.icache ic []).find? fun p => p.1 = pa / 32).map (·.2)

/-- The block of a line that holds an address. -/
def blockOf (l : Line) (pa : Nat) : BitVec 256 := l.extractLsb' (pa % 64 / 32 * 256) 256

/-- A die has asked for a block: its request is in flight, or has gone to another package or a pool node. -/
def State.asked (s : State) (die ic blk : Nat) (m : Msg) : Bool :=
  s.fab.fetches.contains (ic, blk) || s.fab.net.any fun p => decide (p.2.msg = m ∧ p.2.src = diePlace s die)

/-- What a fetch gives: a block, a trap of the fetching threads, or that it waits. -/
inductive Fetched where
  | block (v : BitVec 256)
  | fault (c : Cause)
  | wait
deriving DecidableEq, Repr

def fetchProt (code : Nat) (va pc : W64) : Fetched := .fault (precise 0x06 (BitVec.ofNat 32 code) va pc)

def Eng.isBand : Eng → Bool
  | .band _ => true
  | _ => false

/-- The fetch block of an address on the focus engine. A sequencer's fetch waits while its page is not present (R17, R267)
and traps only where the page's service has failed. A remote block is asked for through the die's channel engine,
and REMOTE_FETCH_RESPONSE brings it. -/
def fetchBlock (s : State) (t : Thr) (pc : W64) : State × Fetched :=
  let die := s.fetchDie
  match translate s s.fetchClient die (s.asidOf t) (s.privOf t) pc .fetch with
  | (s1, .error .wait) => (s1, .wait)
  | (s1, .error e) =>
    if !s.focus.isBand && decide (e = .page) then
      (s1, if isUnserv s1 die (s.asidOf t) pc.toNat then .fault (unservable.cause false pc pc) else .wait)
    else (s1, .fault (e.cause false pc pc))
  | (s1, .ok (l, pa)) =>
    if isDev pa then (s1, fetchProt 8 pc pc)
    else match heldBlock s1 s1.icacheOf pa with
      | some v => (s1, .block v)
      | none =>
        match s1.fetchBad.find? fun b => decide (b.1 = s1.icacheOf ∧ b.2.1 = pa / 32) with
        | some b =>
          ({ s1 with fetchBad := s1.fetchBad.erase b },
            if b.2.2 = 0x13 then .fault (precise 0x13 0 pc pc) else fetchProt 5 pc pc)
        | none =>
        if isLocal die pa then
          if homeReady s1 (pa / 64) .read then
            match homeRead (homeUse s1 (pa / 64)) (pa / 64) l.key l.cmps with
            | some (s2, x) => (keepBlock s2 s2.icacheOf pa (blockOf x pa), .block (blockOf x pa))
            | none => (s1, .fault (precise 0x13 0 pc pc))
          else (homeAsk s1 (pa / 64) .read, .wait)
        else
          let m : Msg := .fetch s1.icacheOf (pa / 32 * 32) l.key l.cmps (pa / 32 * 32)
          if s1.asked die s1.icacheOf (pa / 32) m then (s1, .wait)
          else (netSend s1 (diePlace s1 die) (homePlace s1 pa) m, .wait)

/-! ### Checks that depend on the running launch (R14, R17, R22) -/

/-- RoleEntry: the bound entry of a role, where it is valid and of the kind asked for (R20, R22). -/
def roleEntry (s : State) (t : Thr) (role kind : Nat) : Option W64 :=
  let e := Map.getD (s.share (s.wg (s.wgOfThr t)).share).binding role 0
  if e.getLsbD 7 ∧ (e.extractLsb' 0 3).toNat = kind then some e else none

/-- Every role of the instruction is bound and of the kind it accepts. -/
def rolesOk (s : State) (t : Thr) (p : Parts) : Bool :=
  if p.op = 0x98 ∨ p.op = 0x9A ∨ p.op = 0x9B ∨ p.op = 0xC6 ∨ (p.op = 0x6C ∧ p.f.sub = 1) then
    (roleEntry s t p.ext.role.toNat 4).isSome
  else if p.op = 0x90 ∧ p.f.sub = 2 then (roleEntry s t p.ext.role.toNat 6).isSome
  else if p.op = 0xC7 then (castRoles p.ext.body.toNat).all fun r => (roleEntry s t r 1).isSome
  else true

/-- BAR at .die or wider only within the cooperative level, and not in a node workgroup (R14, R318). -/
def barOk (s : State) (t : Thr) (p : Parts) : Bool :=
  decide (p.op ≠ 0x6B) || decide (scopeOf p.f < 3)
    || (decide (scopeOf p.f ≤ ((s.wg (s.wgOfThr t)).ctrl.extractLsb' 8 3).toNat) && (s.wg (s.wgOfThr t)).node.isNone)

/-- No fifth copy program of a fork set (R17). -/
def forkOk (s : State) (t : Thr) (p : Parts) : Bool :=
  decide (p.op ≠ 0x6C) || decide (p.f.sub ≠ 1) || decide ((s.wg (s.wgOfThr t)).forkC.length < 4)

def runChecks (s : State) (t : Thr) (p : Parts) : Option Nat :=
  if !barOk s t p then some 0x09
  else if !rolesOk s t p then some 0x0B
  else if !forkOk s t p then some 0x0D
  else none

/-- Decodes the instruction at a PC from its block: the instruction and its parts, or a subcode (R34, R47, R48). -/
def decodeAt (s : State) (t : Thr) (pc : W64) (block : BitVec 256) : Except Nat (Instr × Parts) :=
  let w := (block >>> (8 * (pc.toNat % 32))).setWidth 128
  let lc := lenCode w
  if lc = 3 then .error 0x01
  else if 32 < pc.toNat % 32 + instrBytes lc then .error 0x02
  else match decodeWord s.focus.kind s.regLimit w with
    | .error e => .error e.code
    | .ok i =>
      let p := partsOfWord w
      match runChecks s t p with
      | some c => .error c
      | none => .ok (i, p)

/-! ### The run rule (R44, R45) -/

def State.wset (s : State) : W128 :=
  match s.focus with
  | .band b => (s.band b).wset
  | .mat q => (s.mseq q).wset.setWidth 128
  | .cop c => (s.cop c).wset.setWidth 128

def State.setRun (s : State) (w : W128) (sp : Bool) : State :=
  match s.focus with
  | .band b => s.updBand b fun bd => { bd with wset := w, sp := sp, last := if sp then bd.last else bd.cur }
  | .mat q => s.updSeq (.mat q) fun m => { m with wset := w.setWidth 32, sp := sp }
  | .cop c => s.updSeq (.cop c) fun m => { m with wset := w.setWidth 32, sp := sp }

/-- The instruction about to issue is at a switch point (R44); IDEM always is (R109). -/
def State.atSwitch (s : State) (p : Parts) : Bool :=
  p.f.sw || decide (p.op = 0x6A) || (match s.focus with
    | .band b => (s.band b).sp || decide ((s.band b).cur ≠ (s.band b).last)
    | .mat q => (s.mseq q).sp
    | .cop c => (s.cop c).sp)

def regSet (l : List Nat) : W128 := l.foldl (fun m n => m ||| (1#128 <<< n)) 0

/-- The hazard of an F instruction: the register and whether it is a write. Reads come first, in the order of the
fields (log entry 13). -/
def hazard (w : W128) (p : Parts) : Option (Nat × Bool) :=
  let fm := formOf p.op p.len p.f
  if opCls p.op ≠ .f then none
  else match (fm.regs .rd p.f).find? fun n => w.getLsbD n with
    | some n => some (n, false)
    | none => ((fm.regs .wr p.f).find? fun n => w.getLsbD n).map fun n => (n, true)

/-- The write-set after issue: F results enter, and what a V instruction writes leaves. -/
def nextWset (w : W128) (p : Parts) : W128 :=
  let ws := regSet ((formOf p.op p.len p.f).regs .wr p.f)
  match opCls p.op with
  | .f => w ||| ws
  | .v => w &&& ~~~ ws
  | .p => w

/-! ### The scoreboard (R46) -/

def State.pends (s : State) (t : Thr) : List Pend :=
  match t with
  | .fib k => (s.fib k).pend
  | _ => (s.seq t).pend

/-- Registers a whole-file or a token-naming instruction touches beside its fields: PMOV reads or writes every
predicate, 31 standing for CVF. -/
def allPreds (p : Parts) : Bool := decide (p.op = 0x21)

/-- Registers that a GGATHER or GSCAT names in its extension word (R251). -/
def bodyRegs (p : Parts) : List Nat :=
  if p.op = 0xA2 ∨ p.op = 0xA3 then
    [p.ext.body.toNat % 32, p.ext.body.toNat / 2 ^ 14 % 32].filter (· ≠ 0)
  else []

/-- A thread must wait for a pending result that the instruction reads or writes. -/
def stalled (s : State) (p : Parts) (t : Thr) : Bool :=
  let fm := formOf p.op p.len p.f
  let rs := fm.regs .rd p.f ++ fm.regs .wr p.f ++ bodyRegs p
  let ps := fm.preds .rd p.f ++ fm.preds .wr p.f
  (s.pends t).any fun x => x.regs.any rs.contains || x.preds.any ps.contains || (allPreds p && !x.preds.isEmpty)

/-- Instructions that access memory: they wait for an outstanding remote acquire of the fibre (R167, R175). -/
def isMemOp (op : Nat) : Bool :=
  decide (0x80 ≤ op ∧ op ≤ 0x9B) || decide (0xB8 ≤ op ∧ op ≤ 0xBA) || decide (0xC0 ≤ op ∧ op ≤ 0xCB)
  || decide (0xD0 ≤ op ∧ op ≤ 0xD5) || decide (op = 0xE3) || decide (0x6B ≤ op ∧ op ≤ 0x6D) || decide (op = 0x67)

/-- A fibre waits before its next instruction: an access for its outstanding remote acquire, and any instruction while the
issue of an operation on a channel stalls (R298). -/
def acqOpen (s : State) (p : Parts) (t : Thr) : Bool :=
  match t with
  | .fib k => (isMemOp p.op && !(s.fib k).acq.isEmpty) || issueStalls s k
  | _ => false

/-- The closers of R201 that are known by their opcode or flags, every stage instruction (R322, log entry 71), and IDEM
(R109). -/
def isCloser (p : Parts) : Bool :=
  let op := p.op
  decide (op = 0x84 ∨ op = 0x85 ∨ op = 0x86 ∨ op = 0x96) || decide (0xC0 ≤ op ∧ op ≤ 0xCB) || decide (0xD0 ≤ op ∧ op ≤ 0xD5)
  || decide (op = 0x6C ∨ op = 0x69 ∨ op = 0x6A ∨ op = 0x6B ∨ op = 0x6D ∨ op = 0x66) || decide (0x98 ≤ op ∧ op ≤ 0x9B)
  || decide (0x90 ≤ op ∧ op ≤ 0x93) || decide (op = 0x97) || decide (0x61 ≤ op ∧ op ≤ 0x64) || decide (op = 0xE4)
  || (decide (op = 0x81 ∨ op = 0x95) && flagREL p.f)

def closerWaits (s : State) (p : Parts) (t : Thr) : Bool :=
  isCloser p && (match t with
    | .fib k => !(s.fib k).latent.isEmpty
    | _ => false)

/-! ### Marks (R95, R249, R311) -/

/-- SHFL: the lane that a lane reads (R147) holds the register lost (R95, R153). Source lanes need not be active. -/
def lostSource (s : State) (p : Parts) (t : Thr) : Bool :=
  decide (p.op = 0x50) && (
    let b := if p.len = 1 then p.imm else srcB p.f s t
    s.threads.any fun u => decide ((u.lane : Int) = shflLane p.f.sub.toNat t.lane b) && (match u with
      | .fib k => decide (p.f.a ≠ 0) && (s.fib k).lost.contains p.f.a.toNat
      | _ => false))

/-- The first marked register that the instruction reads, in the order of its fields, and its trap. -/
def markCause (s : State) (p : Parts) (t : Thr) : Option (Nat × Cause) :=
  match t with
  | .fib k =>
    let f := s.fib k
    let lost (n : Nat) : Nat × Cause := (n, precise 0x13 (BitVec.ofNat 32 (1 + 2 * n)) 0 f.pc)
    let own := ((formOf p.op p.len p.f).regs .rd p.f).findSome? fun n =>
      if f.lost.contains n then some (lost n)
      else match Map.get f.cfault n with
        | some v => some (n, precise 0x12 v 0 f.pc)
        | none => (Map.get f.cherr n).map fun v => (n, precise 0x09 v 0 f.pc)
    match own with
    | some c => some c
    | none => if lostSource s p t then some (lost p.f.a.toNat) else none
  | _ => none

/-- A thread takes the trap of a marked register; a token's or a channel result's mark is then cleared (R249, R311). -/
def takeMark (s : State) (t : Thr) (m : Nat × Cause) : State :=
  (match t with
    | .fib k => s.updFib k fun f => { f with cfault := Map.del f.cfault m.1, cherr := Map.del f.cherr m.1 }
    | _ => s).raiseThr t m.2

/-! ### The step of an engine -/

/-- A trap in every thread of the issuing batch, whatever its guard (R48). -/
def raiseAll (s : State) (c : Thr → Cause) : State :=
  (s.threads.foldl (fun s' t => s'.raiseThr t (c t)) s).settle

/-- Due traps whose results have all arrived are taken before anything issues (R198). -/
def takeDue (s : State) : State :=
  match s.focus with
  | .band b => (List.range 32).foldl (fun s l => s.settleTrap (b * 32 + l)) s
  | _ => s

/-- Number of the focus band's current batch. -/
def State.curBatch (s : State) : Nat :=
  match s.focus with
  | .band b => (s.band b).cur
  | _ => 0

/-- What the engine would issue now. -/
inductive Issue where
  | idle
  | trap (s : State)
  | wait (s : State)
  | run (s : State) (i : Instr)
deriving DecidableEq, Repr

/-- The registers that an instruction names are in the core's register cache (R95). -/
def bringParts (s : State) (p : Parts) : State :=
  let fm := formOf p.op p.len p.f
  bringRegs s s.threads (fm.regs .rd p.f ++ bodyRegs p) (fm.regs .wr p.f)

/-- The threads whose earlier accesses a closer waits for: the active ones; for IDEM all of the batch (R109). -/
def closerThreads (s : State) (p : Parts) : List Thr := if p.op = 0x6A then s.threads else s.active p.f

/-- The state in which a decode fault is reported: the switch point that an `S` = 1 instruction forms is taken first
(R48). -/
def faultAt (s : State) (w : W128) : State := if (partsOfWord w).f.sw then s.setRun 0 false else s

/-- Everything before an instruction's own effect: choosing the batch, fetching, decoding, the run rule, the
scoreboard, the register cache, register marks. `run s i` is the state in which `i` then acts. A RunHazard is raised in
every thread of the batch (log entry 126); a lane with a marked register leaves the batch before the instruction acts (log
entry 127). -/
def prepare (s0 : State) : Issue :=
  let s := (takeDue s0).pickBatch
  match s.headThr with
  | none => .idle
  | some t =>
    let pc := s.pcOf t
    if pc.toNat % 4 ≠ 0 then .trap (raiseAll s fun _ => illegal 0x02 pc)
    else match fetchBlock s t pc with
      | (s1, .wait) => .wait s1
      | (s1, .fault c) => .trap (raiseAll s1 fun _ => c)
      | (s1, .block v) =>
        match decodeAt s1 t pc v with
        | .error sub => .trap (raiseAll (faultAt s1 ((v >>> (8 * (pc.toNat % 32))).setWidth 128)) fun _ => illegal sub pc)
        | .ok (i, p) =>
          let act := s1.active p.f
          if s1.threads.any (stalled s1 p) || act.any (acqOpen s1 p) || (closerThreads s1 p).any (closerWaits s1 p) then
            .wait s1
          else
            let w := if s1.atSwitch p then 0 else s1.wset
            match hazard w p with
            | some (n, wr) =>
              .trap (raiseAll (s1.setRun w false) fun _ => precise 0x02 (BitVec.ofNat 32 (n + if wr then 128 else 0)) 0 pc)
            | none =>
              let s2 := bringParts (s1.setRun (nextWset w p) false) p
              let marked := act.filterMap fun x => (markCause s2 p x).map fun c => (x, c)
              let s3 := marked.foldl (fun s' m => takeMark s' m.1 m.2) s2
              if s3.threads.isEmpty || decide (s3.curBatch ≠ s2.curBatch) then .trap s3.settle else .run s3 i

/-- A debugger's step has been made (R210). -/
def endStep (s : State) : State :=
  match (s.gang s.focusGang).stepFib with
  | some _ => s.updGang s.focusGang fun g => { g with stepFib := none }
  | none => s

end Sys2Proof.Machine
end

