-- ==== Sys2Proof/Machine/Delivery.lean ====
section
/-! DEFINITION. The destination side of the channel engines: delivery at the home (R306, R307, R315), multicast chains
(R385), acknowledgements and errors (R308 to R310), and RESYNC (R312). -/

namespace Sys2Proof.Machine

/-! ### Messages in flight -/

/-- A message that has a path to a die of this package. -/
def arrived (s : State) (n : Nat) : Option NetMsg :=
  match Map.get s.fab.net n with
  | none => none
  | some m =>
    if m.dst < 65536 ∧ m.dst / 16 = s.fab.pkgid ∧ (m.path.isSome ∨ (choosePath s m.src m.dst).isSome) then some m else none

def takeMsg (s : State) (n : Nat) : State := s.updFab fun x => { x with net := Map.del x.net n }

/-- Place of a stream's source. -/
def keyPlace (k : StreamKey) : Nat := k.pkg * 16 + k.die

/-! ### Performing a packet at its home (R155, R306, R315) -/

/-- What a delivery answers: its error code, the bytes read, the old values. -/
structure Deliv where
  err : Nat
  data : Line
  vals : List W64
deriving DecidableEq, Repr

def plainErr (n : Nat) : Deliv := { err := n, data := 0, vals := [] }

def pkWant (pkop : Nat) : Want := if pkop = 1 ∨ pkop = 6 then .read else if 2 ≤ pkop ∧ pkop ≤ 4 then .atomic else .write

/-- A multicast's line lies at the same offset of the same kind of window of each target's die (R301). -/
def castPa (die pa : Nat) : Nat :=
  match decodePa pa with
  | .hbm d => hbmBase die + (pa - hbmBase d)
  | .vault d => vaultBase die + (pa - vaultBase d)
  | _ => pa

/-- The launch whose Peephole checks a packet at an offset: that of its fibres, or for a packet of another package, whose
launch has another number here, that of the ranges that hold its address. -/
def pkLaunch (s : State) (p : Packet) (off : Nat) : Nat := p.launch.getD (rangeLaunch s (p.pa + off))

/-- The Peephole's checks of a packet's lanes (R176, R315): none where one waits for the log buffer's homes, an inner none
where one finds a race in trap mode. -/
def pkPeep (p : Packet) : List (Nat × Nat) → State → Option (Option State)
  | [], s => some (some s)
  | (off, who) :: l, s =>
    match peepCheck s { launch := pkLaunch s p off, who := who, pa := p.pa + off,
                        write := decide (p.pkop ≠ 1), atomic := decide (2 ≤ p.pkop), plain := p.plain, scope := p.scope,
                        va := p.va / 64#64 * 64#64 + BitVec.ofNat 64 off, pc := p.pc } with
    | (_, .wait) => none
    | (_, .trap _) => some none
    | (s1, .go) => pkPeep p l s1

/-- What a packet that waits at its home asks for. -/
def pkAsk (s : State) (p : Packet) : State :=
  let s1 := homeAsk s (p.pa / 64) (pkWant p.pkop)
  match p.who with
  | [] => s1
  | w :: _ => if p.pkop ≤ 4 then askLog (pkLaunch s p w.1) (p.who.map fun x => p.pa + x.1) s1 else s1

/-- Lane operations of an atomic, reduction or CAS, in order. None on an uncorrectable error. -/
def pkLanes (p : Packet) (n : Nat) : List LaneOp → State → Option (State × List W64)
  | [], s => some (s, [])
  | x :: l, s =>
    let g (o : Nat) : Option Nat :=
      if p.pkop = 4 then (if o = x.a.toNat % 2 ^ (8 * n) then some (x.b.toNat % 2 ^ (8 * n)) else none)
      else some (atomOp p.var n o (x.a.toNat % 2 ^ (8 * n)))
    match homeAtomic s agentChan (p.pa + x.off) n p.kid p.cmps g with
    | none => none
    | some (s1, o) => (pkLanes p n l s1).map fun r => (r.1, BitVec.ofNat 64 o :: r.2)

/-- A packet to device register space: each 8-byte word of the line is read or written whole or by an aligned half;
anything else is refused (R28, R309). -/
def pkDev (die off : Nat) (p : Packet) : List Nat → State × Deliv → State × Deliv
  | [], r => r
  | i :: l, (s, d) =>
    let m := (p.mask.extractLsb' (8 * i) 8).toNat
    let o := off + 8 * i
    if m = 0 then pkDev die off p l (s, d)
    else if m ≠ 255 ∧ m ≠ 15 ∧ m ≠ 240 then pkDev die off p l (s, plainErr 1)
    else if p.pkop = 1 then
      let r := devRead s die o
      pkDev die off p l (r.1, { d with data := d.data ||| lineAt (8 * i) 8 r.2.toNat })
    else
      let h := if m = 240 then 4 else 0
      let n := if m = 255 then 8 else 4
      let r := devWrite s die (o + h) n (BitVec.ofNat 64 (lineGet p.data (8 * i + h) n))
      pkDev die off p l (r.1, if r.2 then d else plainErr 1)

/-- What a locked or running TDI refuses (R407): packets of dies not in `HI_PEERMASK`, of other packages and of nodes. -/
def tdiRefuses (s : State) (die pkg src : Nat) : Bool :=
  let l := s.ld die
  (decide (l.tdi = .locked) || decide (l.tdi = .run))
  && (decide (pkg ≠ s.fab.pkgid) || (decide (src ≠ die) && !l.peerMask.getLsbD src))

/-- A die's home refuses a read that another place asks for: the address or its key there (R397, R309), or its TDI's mask
(R407). -/
def homeRefuses (s : State) (die src pa key : Nat) : Bool :=
  decide (memDie pa ≠ some die) || (paFault s die pa key).isSome || tdiRefuses s die (src / 16) (src % 16)

/-- Performs a packet's operations; none where the home makes it wait. -/
def deliver (s : State) (die : Nat) (p0 : Packet) : Option (State × Deliv) :=
  let p := if p0.pkop = 7 then { p0 with pa := castPa die p0.pa } else p0
  let ln := p.pa / 64
  if p.void then some (s, plainErr p.err)
  else if tdiRefuses s die p.key.pkg p.key.die then some (s, plainErr 1)
  else match decodePa p.pa with
    | .dev dd off =>
      if dd = die ∧ p.pkop ≤ 1 then some (pkDev die off p (List.range 8) (s, plainErr 0)) else some (s, plainErr 1)
    | _ =>
      if memDie p.pa ≠ some die ∨ (paFault s die p.pa p.kid).isSome then some (s, plainErr 1)
      else if !homeOpen s agentChan ln (pkWant p.pkop) then none
      else match (if p.pkop ≤ 4 then pkPeep p p.who s else some (some s)) with
        | none => none
        | some none => some (s, plainErr 9)
        | some (some s0) =>
          let s1 := homeUse s0 ln
          let r : Option (State × Deliv) :=
            match pkWant p.pkop with
            | .read => (homeRead s1 ln p.kid p.cmps).map fun x => (x.1, { err := 0, data := x.2, vals := [] })
            | .atomic => (pkLanes p (if p.w64 then 8 else 4) p.lanes s1).map fun x =>
                (x.1, { err := 0, data := 0, vals := if p.pkop = 3 then [] else x.2 })
            | _ => (homeWrite s1 agentChan ln p.mask p.data p.kid p.cmps).map fun x => (x, plainErr 0)
          match r with
          | none => some (s, plainErr 2)
          | some (s2', d) =>
            let s2 := homeServed s2' agentChan ln
            some (s2, if s.irqs.length < s2.irqs.length then { d with err := 6 } else d)

/-! ### Streams, the Sash, chains (R306, R307, R385) -/

/-- Sequence number a is older than b. -/
def seqOlder (a b : Nat) : Bool :=
  let d := (b + 2 ^ 24 - a) % 2 ^ 24
  decide (1 ≤ d) && decide (d < 2 ^ 23)

def ChEng.stream (e : ChEng) (k : StreamKey) : Option Nat := (e.streams.find? fun x => x.key = k).map (·.last)

def ChEng.setStream (e : ChEng) (k : StreamKey) (l : Nat) : ChEng :=
  { e with streams := e.streams.filter (fun x => x.key ≠ k) ++ [⟨k, l⟩] }

/-- What the acknowledgement of a packet carries, with an error code (R308, R379). -/
def ackForm (p : Packet) (err : Nat) : AckForm :=
  if p.void || decide (err ≠ 0 ∧ err ≠ 6) then .bare
  else if p.pkop = 1 ∨ p.pkop = 6 then .line
  else if p.pkop = 2 ∨ p.pkop = 4 then (if p.w64 then .dwords else .words)
  else .bare

def sendAck (s : State) (die : Nat) (p : Packet) (d : Deliv) : State :=
  netSend s (diePlace s die) (keyPlace p.key) (.ack p.key p.seq d.err (ackForm p d.err) d.data d.vals)

/-- Sends a multicast line to target i of its chain and keeps the copy; past the last target the origin is
acknowledged. -/
def sendHop (s : State) (die : Nat) (p : Packet) (i err : Nat) : State :=
  match p.chain[i]? with
  | none => sendAck s die p (plainErr err)
  | some e =>
    let q := { p with dst := e.dst, first := e.first, prev := e.prev, err := err, hop := i, via := diePlace s die }
    let s1 := s.updEng die fun g => { g with
      kept := g.kept.filter (fun k => !(decide (k.1.key = p.key) && decide (k.1.seq = p.seq))) ++ [(q, i, none)] }
    netSend s1 (diePlace s1 die) e.dst (.req q)

/-- The target that a packet has reached tells the one that sent it, and forwards (R385). -/
def chainForward (s : State) (die : Nat) (p : Packet) (err : Nat) : State :=
  let s1 := if p.hop = 0 then s else netSend s (diePlace s die) p.via (.hopAck p.key p.seq p.hop)
  sendHop s1 die p (p.hop + 1) (if p.err ≠ 0 then p.err else err)

/-- What follows a delivery. -/
def delivered (s : State) (die : Nat) (p : Packet) (d : Deliv) : State :=
  let s1 := s.updEng die fun e => e.setStream p.key p.seq
  if p.pkop = 7 ∧ p.void = false then chainForward s1 die p d.err
  else if p.pkop = 7 then chainForward s1 die p p.err
  else sendAck s1 die p d

/-- Delivers the held packets of a stream that follow L, one after the other. One that must wait at its home is taken
out of the Sash and arrives again. -/
def drainSash (die : Nat) (k : StreamKey) : Nat → State → State
  | 0, s => s
  | n + 1, s =>
    let e := s.eng die
    match e.sash.find? fun p => decide (p.key = k) && !p.first && decide (some p.prev = e.stream k) with
    | none => s
    | some p =>
      let s1 := s.updEng die fun e => { e with sash := e.sash.filter (· ≠ p) }
      match deliver s1 die p with
      | some (s2, d) => drainSash die k n (delivered s2 die p d)
      | none => netSend s1 (diePlace s1 die) (diePlace s1 die) (.req p)

/-- What R306 says of an arriving packet; `gone` of one that follows packets which a reset of this die has taken away. -/
inductive Arr where
  | fresh | deliver | dup | heldDup | hold | gone
deriving DecidableEq, Repr

def classify (e : ChEng) (p : Packet) : Arr :=
  match e.stream p.key with
  | none =>
    if p.first then .fresh else if e.lost.contains p.key then .gone else if e.sash.contains p then .heldDup else .hold
  | some l =>
    if p.first then (if seqOlder p.seq l ∨ p.seq = l then .dup else .deliver)
    else if p.prev = l then .deliver
    else if seqOlder p.seq l ∨ p.seq = l then .dup
    else if e.sash.any fun q => decide (q.key = p.key) && decide (q.seq = p.seq) then .heldDup
    else .hold

/-- A newer incarnation of a handle discards the older one's state and held packets. -/
def dropStale (e : ChEng) (k : StreamKey) : ChEng :=
  let stale (j : StreamKey) : Bool := decide (j.pkg = k.pkg ∧ j.die = k.die ∧ j.handle = k.handle ∧ j.epoch ≠ k.epoch)
  { e with streams := e.streams.filter fun x => !stale x.key, sash := e.sash.filter fun p => !stale p.key,
           lost := e.lost.filter fun x => !stale x && decide (x ≠ k) }

def sashCap : Nat := 4096

/-- A duplicate is acknowledged again, a void packet with its code; of a load, an atomic or a CAS the response is then
lost. -/
def dupAck (s : State) (die : Nat) (p : Packet) : State :=
  if p.pkop = 7 then chainForward s die p p.err
  else sendAck s die p (plainErr (if p.void then p.err else if p.pkop = 1 ∨ p.pkop = 2 ∨ p.pkop = 4 ∨ p.pkop = 6 then 3 else 0))

/-- A packet that a die's reset keeps from delivery completes with DestinationReset (R309, R415); a multicast line goes on to
its other targets with that code (R301, R385). -/
def goneAck (die : Nat) (s : State) (p : Packet) : State :=
  if p.pkop = 7 then chainForward s die p 5 else sendAck s die p (plainErr 5)

/-- CHANNEL_REQUEST_ARRIVAL (R306): message n is a packet at its destination. A packet that must wait at its home, or
for which the Sash is full, stays. -/
def execChannelRequestArrival (n : Nat) (s : State) : Host.Outcome State Fault Refusal :=
  match arrived s n with
  | some { dst := dst, msg := .req p, .. } =>
    let die := dst % 16
    let s1 := takeMsg s n
    let go (s0 : State) : Host.Outcome State Fault Refusal :=
      match deliver s0 die p with
      | none => .next (pkAsk s p)
      | some (s2, d) => .next (drainSash die p.key ((s2.eng die).sash.length + 1) (delivered s2 die p d))
    match classify (s.eng die) p with
    | .fresh => go (s1.updEng die fun e => dropStale e p.key)
    | .deliver => go s1
    | .dup => .next (dupAck s1 die p)
    | .heldDup => .next s1
    | .gone => .next (goneAck die s1 p)
    | .hold =>
      if (s.eng die).sash.length < sashCap then .next (s1.updEng die fun e => { e with sash := e.sash ++ [p] }) else .next s
  | _ => .next s

/-- SASH_NACK (R307): message n is a packet to be held at a full Sash, which the port then refuses; or the NACK at the
source, which notes the time. -/
def execSashNack (n : Nat) (s : State) : Host.Outcome State Fault Refusal :=
  match arrived s n with
  | some { dst := dst, msg := .req p, .. } =>
    let die := dst % 16
    if classify (s.eng die) p = .hold ∧ sashCap ≤ (s.eng die).sash.length then
      .next (netSend (takeMsg s n) dst (keyPlace p.key) (.nack p.key p.seq))
    else .next s
  | some { dst := dst, msg := .nack k seq, .. } =>
    .next ((takeMsg s n).updEng (dst % 16) fun e => { e with sent := e.sent.map fun x =>
      if x.p.key = k ∧ x.p.seq = seq then { x with nackAt := some s.cycle } else x })
  | _ => .next s

/-- A noted cycle lies at least n cycles back. -/
def State.passed (s : State) (n : Nat) (since : Option Nat) : Bool :=
  match since with
  | some c => decide (c + n ≤ s.cycle)
  | none => false

/-- NACK_RETRANSMIT (R307): no sooner than 256 cycles after the NACK, on any path. -/
def execNackRetransmit (die handle seq : Nat) (s : State) : Host.Outcome State Fault Refusal :=
  match (s.eng die).sent.find? fun x => decide (x.p.key.handle = handle ∧ x.p.seq = seq) && s.passed 256 x.nackAt with
  | none => .next s
  | some x =>
    let path := (choosePath s (diePlace s die) x.p.dst).getD []
    let s1 := s.updEng die fun e => { e with sent := e.sent.map fun y => if y = x then { y with nackAt := none, path := path } else y }
    .next (netSend s1 (diePlace s1 die) x.p.dst (.req x.p))

/-! ### Acknowledgements (R308 to R311) -/

/-- An acknowledged pull's bytes go to the home of their destination (R300): none where one must wait, an inner none on
an uncorrectable error. -/
def copyBack (data : Line) : List (Nat × Nat × Nat × Nat × Nat) → State → Option (Option State)
  | [], s => some (some s)
  | (off, n, pa, kid, cmps) :: l, s =>
    if !homeOpen s agentCopy (pa / 64) .write then none
    else match homePut (homeUse s (pa / 64)) agentCopy pa n (lineGet data off n) kid cmps with
      | none => some none
      | some s1 => copyBack data l s1

/-- The registers of a result that did not come hold 0 and carry a ChannelError mark (R310). -/
def markChan (s : State) (k id v : Nat) : State :=
  match findPend s (.fib k) id with
  | none => s
  | some p =>
    let s1 := arriveNow s (.fib k) id 0
    s1.updFib k fun f => { f with cherr := p.regs.foldl (fun m r => Map.put m r (BitVec.ofNat 32 v)) f.cherr }

/-- A fibre's value comes, or its mark: with the channel's first error code (R311, R304). -/
def giveVal (s : State) (c : Nat) (err k id : Nat) (v : Nat) : State :=
  let code := if (s.chan c).ecode = 0 then err else (s.chan c).ecode
  let s1 := if err = 0 ∨ err = 6 then arriveNow s (.fib k) id v else markChan s k id (code + 256 * (c % 16))
  (s1.updFib k fun f => { f with acq := f.acq.filter (· ≠ id) }).settleTrap k

/-- What the returns of a packet bring: none where a write must wait; otherwise the state and the error code. -/
def runRets (c : Nat) (data : Line) (vals : List W64) : List Ret → Nat → State → Option (State × Nat)
  | [], err, s => some (s, err)
  | r :: l, err, s =>
    match r with
    | .load k id off n sx => runRets c data vals l err (if Map.has s.fibres k then
        giveVal s c err k id (extend n sx (lineGet data off n)) else s)
    | .val k id i _ => runRets c data vals l err (if Map.has s.fibres k then
        giveVal s c err k id (vals.getD i 0).toNat else s)
    | .copy parts =>
      if err ≠ 0 ∧ err ≠ 6 then runRets c data vals l err s
      else match copyBack data parts s with
        | none => none
        | some none => runRets c data vals l 2 s
        | some (some s1) => runRets c data vals l err s1

/-- The workgroups whose remote acquires these returns end; at .quad or wider the core then self-invalidates (R167,
R297). -/
def acqWgs (s : State) (rets : List Ret) : List Nat :=
  rets.foldl (fun l r => match r with
    | .load k id _ _ _ => if (s.fib k).acq.contains id then insNat (wgOf k) l else l
    | .val k id _ _ => if (s.fib k).acq.contains id then insNat (wgOf k) l else l
    | .copy _ => l) []

def acquireAll : List Nat → State → Option State
  | [], s => some s
  | w :: l, s => (afterAcquire s w).bind (acquireAll l)

/-- Completes a sent packet with an error code (0 none), the bytes and values of its response. -/
def complete (s : State) (die : Nat) (x : Sent) (err : Nat) (data : Line) (vals : List W64) : Option State :=
  match acquireAll (if 2 ≤ x.p.scope then acqWgs s x.ret else []) s with
  | none => none
  | some s0 =>
    match runRets x.chan data vals x.ret err s0 with
    | none => none
    | some (s1, e) =>
      let s2 := s1.updEng die fun g => { g with sent := g.sent.filter fun y => !(decide (y.p.key = x.p.key) && decide (y.p.seq = x.p.seq)) }
      let ds := if x.p.pkop = 7 then x.p.chain.map (·.dst) else [x.p.dst]
      let s3 := if Map.has s2.chans x.chan then
          s2.updChan x.chan fun c => ds.foldl (fun c d => c.updDest d fun t => { t with unack := t.unack - 1 })
            { c with outst := c.outst - 1 }
        else s2
      some (pumpDie (if e = 0 then s3 else breakChan s3 x.chan e) die)

/-- CHANNEL_ACK_ARRIVAL (R308): message n is an acknowledgement at its source. -/
def execChannelAckArrival (n : Nat) (s : State) : Host.Outcome State Fault Refusal :=
  match arrived s n with
  | some { dst := dst, msg := .ack k seq err _ data vals, .. } =>
    let die := dst % 16
    let s1 := takeMsg s n
    match (s.eng die).sent.find? fun x => decide (x.p.key = k ∧ x.p.seq = seq) with
    | none => .next s1
    | some x =>
      match complete s1 die x err data vals with
      | none => .next s
      | some s2 => .next s2
  | _ => .next s

/-! ### Stream releases (R294) -/

/-- STREAM_RELEASE (R294): a release whose PREV is the stream's L ends it and is answered; one whose PREV never comes stays
unanswered (DESIGN CHOICE, log entry 160). -/
def execStreamRelease (n : Nat) (s : State) : Host.Outcome State Fault Refusal :=
  match arrived s n with
  | some { dst := dst, msg := .release k prev, .. } =>
    let die := dst % 16
    match (s.eng die).stream k with
    | some l =>
      if l = prev then
        let s1 := (takeMsg s n).updEng die fun e => { e with streams := e.streams.filter fun x => x.key ≠ k }
        .next (netSend s1 dst (keyPlace k) (.releaseAck k))
      else .next s
    | none => .next (netSend ((takeMsg s n).updEng die fun e => { e with lost := e.lost.filter (· ≠ k) }) dst (keyPlace k) (.releaseAck k))
  | _ => .next s

def execStreamReleaseAck (n : Nat) (s : State) : Host.Outcome State Fault Refusal :=
  match arrived s n with
  | some { src := src, dst := dst, msg := .releaseAck k, .. } =>
    let s1 := takeMsg s n
    match s1.chans.find? fun c => c.2.rels.contains (k, src) with
    | none => .next s1
    | some (c, _) =>
      let s2 := s1.updChan c fun x => { x with rels := x.rels.erase (k, src), dests := x.dests.filter fun d =>
        !(decide (d.dst = src ∧ k.handle = x.handle ∧ k.epoch = x.epoch) && d.rel) }
      .next (pumpDie s2 (dst % 16))
  | _ => .next s

/-! ### Copies: one line after the other (R300, R301) -/

/-- The bytes of line i of a job's line-numbered end: its offset in the copy, and how many. -/
def jobSpan (va : W64) (len i : Nat) : Nat × Nat :=
  let o := va.toNat % 64
  let lo := 64 * i - o
  let hi := min len (64 * (i + 1) - o)
  (if i = 0 then 0 else lo, hi - (if i = 0 then 0 else lo))

/-- Cuts n bytes at the line boundaries of both ends: source, destination and length of each piece. -/
def segments : Nat → W64 → W64 → Nat → List (W64 × W64 × Nat)
  | 0, _, _, _ => []
  | fuel + 1, src, dst, n =>
    if n = 0 then []
    else
      let m := chunk src dst n
      (src, dst, m) :: segments fuel (src + BitVec.ofNat 64 m) (dst + BitVec.ofNat 64 m) (n - m)

def segs (src dst : W64) (n : Nat) : List (W64 × W64 × Nat) := segments (n / 16 + 4) src dst n

/-- Translates one end of a line now: its home must be that of the end's first byte, but a multicast's destination may go on
in any die's memory (DESIGN CHOICE, log entry 161). `error 0` means wait. -/
def jobTr (s : State) (j : CopyJob) (die : Nat) (va : W64) (acc : Acc) (home : Nat) : State × Except Nat (Leaf × Nat) :=
  let cl := if j.cast then Client.eng (tlbChan die) else Client.eng (tlbCopy j.eng)
  match translate s cl die j.asid j.priv va acc with
  | (s1, .error .page) => (s1, .error (if isUnserv s1 die j.asid va.toNat then 7 else 0))
  | (s1, .error .wait) => (s1, .error 0)
  | (s1, .error _) => (s1, .error 7)
  | (s1, .ok (l, pa)) =>
    if j.cast && decide (acc = .write) then (if (memDie pa).isSome then (s1, .ok (l, pa)) else (s1, .error 8))
    else if homePlace s1 pa = home then (s1, .ok (l, pa)) else (s1, .error 8)

/-- Where the channel engine of a die keeps what it has read for a multicast at a home off the package. -/
def castBuf (die : Nat) : Nat := 5000 + die

/-- A die has had no path to a place for the time after which paths count as lost (R312). -/
def pathLost (s : State) (die place : Nat) : Bool := s.passed (2 ^ 24) (Map.get (s.eng die).noPath place)

/-- Reads n bytes of a source within a line at its home (R300, R301): in the package at the L2 home, over a path where it is
another die's, which may refuse it as it refuses a packet (R397, R407); off the package by requests whose answers
REMOTE_FETCH_RESPONSE brings (log entry 64). An error is an `ECODE`, or 0 to wait; without a path it is PathLost in the end. -/
def srcRead (s : State) (die home pa n key cmps : Nat) : State × Except Nat Nat :=
  if home < 65536 ∧ home / 16 = s.fab.pkgid then
    if (choosePath s (diePlace s die) home).isNone then (s, .error (if pathLost s die home then 4 else 0))
    else if decide (home % 16 ≠ die) && homeRefuses s (home % 16) (diePlace s die) pa key then (s, .error 1)
    else if !homeReady s (pa / 64) .read then (homeAsk s (pa / 64) .read, .error 0)
    else match homeGet (homeUse s (pa / 64)) pa n key cmps with
      | none => (s, .error 2)
      | some r => (r.1, .ok r.2)
  else
    let blocks := [pa / 64 * 2, pa / 64 * 2 + 1]
    match s.fetchBad.find? fun b => decide (b.1 = castBuf die) && blocks.contains b.2.1 with
    | some b => ({ s with fetchBad := s.fetchBad.erase b }, .error (if b.2.2 = 0x13 then 2 else if pathLost s die home then 4 else 1))
    | none =>
      match heldBlock s (castBuf die) (pa / 64 * 64), heldBlock s (castBuf die) (pa / 64 * 64 + 32) with
      | some a, some b => (s, .ok (lineGet (b ++ a) (pa % 64) n))
      | _, _ =>
        (blocks.foldl (fun s b =>
          let m : Msg := .fetch (castBuf die) (b * 32) key cmps (b * 32)
          if s.asked die (castBuf die) b m || (heldBlock s (castBuf die) (b * 32)).isSome then s
          else netSend s (diePlace s die) home m) s, .error 0)

/-- The line of a multicast has been formed: what was read for it is no longer kept. -/
def castDone (s : State) (die : Nat) : State := { s with icache := Map.del s.icache (castBuf die) }

/-- Reads the source bytes of a pushed line at their home. A stop keeps what the walk and the reads have asked for. -/
def jobRead (j : CopyJob) (die : Nat) : List (W64 × W64 × Nat) → State → State × Except Nat Line
  | [], s => (s, .ok 0)
  | (a, d, n) :: l, s =>
    match jobTr s j die a .read j.srcHome with
    | (s1, .error e) => (s1, .error e)
    | (s1, .ok (lf, pa)) =>
      if isDev pa then (s1, .error 7)
      else match srcRead s1 die j.srcHome pa n lf.key lf.cmps with
        | (s2, .error e) => (s2, .error e)
        | (s2, .ok v) =>
          match jobRead j die l s2 with
          | (s3, .error e) => (s3, .error e)
          | (s3, .ok x) => (s3, .ok (x ||| lineAt (d.toNat % 64) n v))

/-- The destination pieces of a pulled line. -/
def jobParts (j : CopyJob) (die : Nat) : List (W64 × W64 × Nat) → State → State × Except Nat (List (Nat × Nat × Nat × Nat × Nat))
  | [], s => (s, .ok [])
  | (a, d, n) :: l, s =>
    match jobTr s j die d .write j.dstHome with
    | (s1, .error e) => (s1, .error e)
    | (s1, .ok (lf, pa)) =>
      if isDev pa then (s1, .error 7)
      else match jobParts j die l s1 with
        | (s2, .error e) => (s2, .error e)
        | (s2, .ok x) => (s2, .ok ((a.toNat % 64, n, pa, lf.key, lf.cmps) :: x))

/-- The packet of a line of a job; a stopped job's is void (R300). -/
def jobPacket (s : State) (j : CopyJob) (seq : Nat) (links : List ChainEnt) (pkop pa kid cmps : Nat) (mask : ByteMask)
    (data : Line) (err : Nat) : Packet :=
  let l := links.headD ⟨0, true, 0⟩
  { key := streamKey s j.chan, seq := seq, prev := l.prev, first := l.first, pkop := pkop, var := 0, w64 := false, pa := pa,
    kid := kid, cmps := cmps, dst := l.dst, mask := mask, data := data, lanes := [], chain := if j.cast then links else [], hop := 0, via := 0,
    err := err, void := decide (err ≠ 0), who := [], fibs := [j.fib], scope := 0, plain := false, va := j.dst, pc := 0, launch := none }

/-- Forms the next line of a job: packet and returns, an error code that stops it, or 0 to wait. -/
def jobLine (s : State) (j : CopyJob) (die seq : Nat) (links : List ChainEnt) : State × Except Nat (Packet × List Ret) :=
  let sp := jobSpan (if j.pull then j.src else j.dst) j.len j.done
  let src := j.src + BitVec.ofNat 64 sp.1
  let dst := j.dst + BitVec.ofNat 64 sp.1
  let parts := segs src dst sp.2
  if j.pull then
    match jobTr s j die src .read j.srcHome with
    | (s1, .error e) => (s1, .error e)
    | (s1, .ok (l, pa)) =>
      match jobParts j die parts s1 with
      | (s2, .error e) => (s2, .error e)
      | (s2, .ok ps) =>
        (s2, .ok (jobPacket s2 j seq links 6 (pa / 64 * 64) l.key l.cmps (byteMask (pa % 64) sp.2) 0 0, [.copy ps]))
  else
    match jobTr s j die dst .write j.dstHome with
    | (s1, .error e) => (s1, .error e)
    | (s1, .ok (l, pa)) =>
      match jobRead j die parts s1 with
      | (s2, .error e) => (s2, .error e)
      | (s2, .ok x) =>
        (castDone s2 die,
          .ok (jobPacket s2 j seq links (if j.cast then 7 else 5) (pa / 64 * 64) l.key l.cmps (byteMask (pa % 64) sp.2) x 0, []))

/-- Replaces a job of a die's engine. -/
def setJob (s : State) (die : Nat) (j : CopyJob) : State :=
  s.updEng die fun e => { e with jobs := e.jobs.map fun x => if x.id = j.id then j else x }

/-- The next reserved number of a job whose ends overlap and whose line has still to be read (R245, R300). -/
def toForm (j : CopyJob) : Option (Nat × List ChainEnt) :=
  if j.whole ∧ j.stop = 0 then j.resv[j.formed.length]? else none

/-- One more line of such a job is read and kept. -/
def formLine (s : State) (die : Nat) (j : CopyJob) (seq : Nat) (links : List ChainEnt) : State :=
  match jobLine s { j with done := j.done + j.formed.length } die seq links with
  | (s1, .error 0) => s1
  | (_, .error e) => setJob s die { j with stop := e }
  | (s1, .ok r) => setJob s1 die { j with formed := j.formed ++ [r] }

/-- CCPY_LINE_HANDOVER (R300, R301): the next line of a job is sent with its reserved number; of one whose ends overlap all
lines are read before the first is sent. -/
def execCcpyLineHandover (die job : Nat) (s : State) : Host.Outcome State Fault Refusal :=
  match (s.eng die).jobs.find? fun j => j.id = job with
  | none => .next s
  | some j =>
    match j.resv with
    | [] => .next s
    | (seq, links) :: rest =>
      if 65535 ≤ (s.chan j.chan).outst then .next s
      else match toForm j with
      | some r => .next (formLine s die j r.1 r.2)
      | none =>
        let keep (s : State) (stop : Nat) : State := s.updEng die fun e => { e with
          jobs := if rest.isEmpty then e.jobs.filter fun x => x.id ≠ job
            else e.jobs.map fun x => if x.id = job then { x with resv := rest, done := j.done + 1, stop := stop, formed := j.formed.drop 1 } else x }
        let voidPkt (code : Nat) : Packet := jobPacket s j seq links (if j.cast then 7 else 5) 0 0 0 0 0 code
        match j.formed with
        | (p, ret) :: _ => .next (keep (launchPkt s j.chan j.acc p ret) j.stop)
        | [] =>
        if j.stop ≠ 0 then .next (keep (launchPkt s j.chan j.acc (voidPkt j.stop) []) j.stop)
        else match jobLine s j die seq links with
          | (s1, .error 0) => .next s1
          | (_, .error e) => .next (keep (launchPkt s j.chan j.acc (voidPkt e) []) e)
          | (s1, .ok (p, ret)) => .next (keep (launchPkt s1 j.chan j.acc p ret) 0)

/-! ### RESYNC and lost paths (R312, R385) -/

/-- Peers to which a die's engine has unacknowledged packets. -/
def peersOf (e : ChEng) : List Nat := e.sent.foldl (fun l x => insNat x.p.dst l) []

/-- A packet goes to a peer, first or along its chain (R312, R301). -/
def goesTo (p : Packet) (peer : Nat) : Bool :=
  decide (p.dst = peer) || (decide (p.pkop = 7) && p.chain.any fun e => e.dst = peer)

/-- PATH_FAILURE (R312): the engine asks a peer for its streams, once a path exists: those of the packets it has sent there,
and those of the copies it keeps for it as a forwarder (R385). -/
def execPathFailure (die peer : Nat) (s : State) : Host.Outcome State Fault Refusal :=
  let e := s.eng die
  if !(e.resync.contains peer) then .next s
  else
    let mine := (e.sent.filter fun x => goesTo x.p peer).map fun x => x.p.key
    let kept := (e.kept.filter fun x => x.1.dst = peer).map fun x => x.1.key
    let ks := (mine ++ kept).foldl (fun (l : List StreamKey) k => if l.contains k then l else l ++ [k]) []
    let s1 := s.updEng die fun e => { e with resync := e.resync.filter (· ≠ peer) }
    .next (netSend s1 (diePlace s1 die) peer (.resync ks))

def execResyncRequest (n : Nat) (s : State) : Host.Outcome State Fault Refusal :=
  match arrived s n with
  | some { src := src, dst := dst, msg := .resync ks, .. } =>
    let e := s.eng (dst % 16)
    .next (netSend (takeMsg s n) dst src (.resyncAns (ks.map fun k => (k, e.stream k))))
  | _ => .next s

/-- The peer has delivered a packet, by its answer for the stream. -/
def delivered' (ls : List (StreamKey × Option Nat)) (p : Packet) : Option Bool :=
  (ls.find? fun q => q.1 = p.key).map fun q => match q.2 with
    | some v => seqOlder p.seq v || decide (p.seq = v)
    | none => false

/-- What a RESYNC answer makes of one packet: complete, with ResponseLost where a value was expected and a void packet with
its code; otherwise it is sent again. A multicast line is complete once its last target has it, and else goes again
through its chain (log entry 61). -/
def resyncOne (die peer : Nat) (ls : List (StreamKey × Option Nat)) (s : State) (x : Sent) : Option State :=
  match delivered' ls x.p with
  | none => some s
  | some done =>
    let last := decide (x.p.pkop ≠ 7) || decide ((x.p.chain.getLast?.map fun e => e.dst) = some peer)
    if done && last then complete s die x (if x.p.void then x.p.err else if x.ret.isEmpty then 0 else 3) 0 []
    else
      let s1 := s.updEng die fun e => { e with sent := e.sent.map fun y =>
        if y = x then { y with path := (choosePath s (diePlace s die) x.p.dst).getD [] } else y }
      some (netSend s1 (diePlace s die) x.p.dst (.req x.p))

def resyncAll (die peer : Nat) (ls : List (StreamKey × Option Nat)) : List Sent → State → Option State
  | [], s => some s
  | x :: l, s => (resyncOne die peer ls s x).bind (resyncAll die peer ls l)

/-- The copies that a forwarder keeps for the peer: dropped where it has the line, else sent again (R385). -/
def resyncKept (die peer : Nat) (ls : List (StreamKey × Option Nat)) (s : State) : State :=
  ((s.eng die).kept.filter fun x => x.1.dst = peer).foldl (fun s x =>
    match delivered' ls x.1 with
    | none => s
    | some true => s.updEng die fun e => { e with kept := e.kept.filter (· ≠ x) }
    | some false => netSend s (diePlace s die) peer (.req x.1)) s

def execResyncAnswer (n : Nat) (s : State) : Host.Outcome State Fault Refusal :=
  match arrived s n with
  | some { src := src, dst := dst, msg := .resyncAns ls, .. } =>
    let die := dst % 16
    match resyncAll die src ls ((s.eng die).sent.filter fun x => goesTo x.p src) (takeMsg s n) with
    | some s1 => .next (resyncKept die src ls s1)
    | none => .next s
  | _ => .next s

def completeAll (die err : Nat) : List Sent → State → Option State
  | [], s => some s
  | x :: l, s => (complete s die x err 0 []).bind (completeAll die err l)

/-- PATH_LOST_EXPIRY (R312): a peer without a path for 2^24 cycles. -/
def execPathLostExpiry (die peer : Nat) (s : State) : Host.Outcome State Fault Refusal :=
  match Map.get (s.eng die).noPath peer with
  | none => .next s
  | some c =>
    if s.cycle < c + 2 ^ 24 then .next s
    else match completeAll die 4 ((s.eng die).sent.filter fun x => x.p.dst = peer) s with
      | none => .next s
      | some s1 => .next (s1.updEng die fun e => { e with noPath := Map.del e.noPath peer, resync := e.resync.filter (· ≠ peer) })

/-- CHAIN_HOP_ACK (R385): the forwarder drops its copy. -/
def execChainHopAck (n : Nat) (s : State) : Host.Outcome State Fault Refusal :=
  match arrived s n with
  | some { dst := dst, msg := .hopAck k seq i, .. } =>
    .next ((takeMsg s n).updEng (dst % 16) fun e => { e with
      kept := e.kept.filter fun x => !(decide (x.1.key = k ∧ x.1.seq = seq ∧ x.2.1 = i)) })
  | _ => .next s

/-- The die of a packet's target was reset: of a die of this package as it was, else as the event says (R385). -/
def hopReset (s : State) (p : Packet) (told : Bool) : Bool :=
  if p.dst < 65536 ∧ p.dst / 16 = s.fab.pkgid then (s.eng (p.dst % 16)).lost.contains p.key else told

/-- CHAIN_TARGET_TIMEOUT (R385): a target without a path for 2^24 cycles is passed over. `reset` says of a target off the
package that its die was reset. -/
def execChainTargetTimeout (die handle seq : Nat) (reset : Bool) (s : State) : Host.Outcome State Fault Refusal :=
  match (s.eng die).kept.find? fun x => decide (x.1.key.handle = handle ∧ x.1.seq = seq) && s.passed (2 ^ 24) x.2.2 with
  | none => .next s
  | some x =>
    let s1 := s.updEng die fun e => { e with
      kept := e.kept.filter (· ≠ x) }
    let err := if x.1.err ≠ 0 then x.1.err else if hopReset s x.1 reset then 5 else 4
    .next (sendHop s1 die x.1 (x.2.1 + 1) err)

/-! ### Remote instruction fetch (R419) -/

/-- What a fetch of a die of this package brings: the block, or a code, in its instruction cache or multicast buffer. -/
def fetchCame (s : State) (ic pa code : Nat) (v : BitVec 256) : State :=
  if code = 0 then keepBlock s ic pa v else { s with fetchBad := s.fetchBad ++ [(ic, pa / 32, code)] }

/-- A fetch request is answered: to a die of this package at once, to another package by a message. -/
def fetchAnswer (s : State) (src dst ic pa code : Nat) (v : BitVec 256) : State :=
  if src < 65536 ∧ src / 16 = s.fab.pkgid then fetchCame s ic pa code v else netSend s dst src (.block ic pa code v)

/-- A message has a path to its place. -/
def reaches (s : State) (m : NetMsg) : Bool := m.path.isSome || (choosePath s m.src m.dst).isSome

/-- The home of a fetch request answers it: what it refuses with code 5, an uncorrectable line with 0x13. A locked or running
TDI refuses the request of a die whose packets it refuses (DEDUCED, log entry 136). -/
def fetchAtHome (n : Nat) (src dst ic pa key cmps home : Nat) (s : State) : State :=
  let s1 := takeMsg s n
  if homeRefuses s (dst % 16) src home key then fetchAnswer s1 src dst ic pa 5 0
  else if !homeReady s (home / 64) .read then homeAsk s (home / 64) .read
  else match homeRead (homeUse s1 (home / 64)) (home / 64) key cmps with
    | some (s2, l) => fetchAnswer s2 src dst ic pa 0 (blockOf l home)
    | none => fetchAnswer s1 src dst ic pa 0x13 0

/-- REMOTE_FETCH_RESPONSE: message n is a fetch request or an answer to one. A home in this package answers what it holds; for a
pool node or another package that is asked without its ports in between, `err` and `block` are what came back. A request
without a path fails once paths count as lost (R309, R312). -/
def execRemoteFetchResponse (n err : Nat) (block : BitVec 256) (s : State) : Host.Outcome State Fault Refusal :=
  match Map.get s.fab.net n with
  | some { src := src, dst := dst, msg := .fetch ic pa key cmps home, path := path } =>
    if !reaches s ⟨src, dst, .fetch ic pa key cmps home, path⟩ then
      .next (if src < 65536 ∧ src / 16 = s.fab.pkgid ∧ pathLost s (src % 16) dst = true then fetchCame (takeMsg s n) ic pa 5 0 else s)
    else if dst < 65536 ∧ dst / 16 = s.fab.pkgid then .next (fetchAtHome n src dst ic pa key cmps home s)
    else .next (fetchCame (takeMsg s n) ic pa (if err = 0 then 0 else if err = 2 then 0x13 else 5) block)
  | some { dst := dst, msg := .block ic pa code v, .. } =>
    if (arrived s n).isNone then .next s
    else
      let s1 := (takeMsg s n).updFab fun f => { f with fetches := f.fetches.filter (· ≠ (ic, pa / 32)) }
      .next (if s.fab.fetches.contains (ic, pa / 32) ∧ (icDie ic = dst % 16) then fetchCame s1 ic pa code v else s1)
  | _ => .next s

end Sys2Proof.Machine
end

