-- ==== Sys2Proof/Machine/Matrix.lean ====
section
/-! DEFINITION. The matrix engine: the sequencer's operations, the tile fetch unit, the array, and the vector core's
access to the accumulator (R262 to R291). -/

namespace Sys2Proof.Machine

/-! ### Windows and rows (R263, R264) -/

/-- Position of a workgroup in its gang. -/
def wgPos (s : State) (w : Nat) : Nat := indexIn (s.gang (s.wg w).gang).wgs w

def windowOf (s : State) (w : Nat) : Nat × Nat := (s.gang (s.wg w).gang).wins.getD (wgPos s w) (0, 0)

/-- The first row of [r, r + n) outside a window. -/
def firstOutside (w : Nat × Nat) (r n : Nat) : Option Nat :=
  if n = 0 then none
  else if r < w.1 ∨ w.2 ≤ r then some r
  else if w.2 < r + n then some w.2
  else none

/-- AccumulatorWindow at a row (R199). -/
def accWindow (row : Nat) (pc : W64) : Cause := precise 0x07 (BitVec.ofNat 32 (row % 2048)) 0 pc

def accGet (s : State) (g row col : Nat) : W32 := Map.getD (s.gang g).acc (row * 128 + col) 0

def accPut (s : State) (g row col : Nat) (v : W32) : State :=
  s.updGang g fun x => { x with
    acc := if v = 0 then Map.del x.acc (row * 128 + col) else Map.put x.acc (row * 128 + col) v
    written := x.written ||| (1#16 <<< (row / 128)) }

/-- Writes elements of a row from column 0. -/
def accRow (s : State) (g row : Nat) (vs : List W32) : State :=
  vs.zipIdx.foldl (fun s p => accPut s g row p.2 p.1) s

/-! ### Issue of operations (R266, R274) -/

def MatOp.isSync : MatOp → Bool
  | .sync _ => true
  | _ => false

def matFull (s : State) (q : Nat) : Bool := decide (16 ≤ ((s.mat q).queue.filter fun o => !o.isSync).length)

def queueOp (s : State) (q : Nat) (o : MatOp) : State := s.updMat q fun m => { m with queue := m.queue ++ [o] }

/-- Issues an operation on a sequencer, or its trap; it waits while the queue is full. -/
def matIssue (f : Fields) (len : Nat) (s : State) (mk : Thr → Except Cause (Option MatOp)) :
    Host.Outcome State Fault Refusal :=
  match s.active f with
  | [] => .next (finish s len (s.idle f) false [])
  | t :: _ =>
    if matFull s t.key then .next s
    else match mk t with
      | .error c => .next (s.raiseThr t c)
      | .ok none => .next (s.adv t len)
      | .ok (some o) => .next ((queueOp s t.key o).adv t len)

def fetchOp (b : Nat) (f : Fields) (ext : Ext) (s : State) : Host.Outcome State Fault Refusal :=
  matIssue f 2 s fun t =>
    let x := ext.body.toNat
    .ok (some (.fetch (s.pcOf t) (b + x / 64 % 4) (pairA f s t) (srcB f s t).toNat (x / 256 % 64) (x.testBit 5) (x % 32) false))

def execTfa (f : Fields) (ext : Ext) (s : State) : Host.Outcome State Fault Refusal := fetchOp 0 f ext s
def execTfb (f : Fields) (ext : Ext) (s : State) : Host.Outcome State Fault Refusal := fetchOp 4 f ext s

/-- TileFetchFault (R290). -/
def tileFault (sub slot : Nat) (addr pc : W64) : Cause := precise 0x14 (BitVec.ofNat 32 (sub + 16 * slot)) addr pc

/-- A slot is Empty for the checks at issue: neither full nor to be filled by a queued fetch (R272). -/
def emptyAtIssue (s : State) (q slot : Nat) : Bool :=
  !(Map.getD (s.mat q).slots slot TSlot.reset).full && !((s.mat q).queue.any fun o => match o with
    | .fetch _ t _ _ _ _ _ _ => decide (t = slot)
    | _ => false)

/-- Rows [r, r + 128) of an operation that needs a multiple of 128. -/
def rows128 (s : State) (t : Thr) (r : Nat) : Option Nat :=
  if r % 128 ≠ 0 then some r else firstOutside (windowOf s (s.wgOfThr t)) r 128

/-- MMA and MMAZ at issue (R275). Where both slots are Empty, the fault names the A slot, which R275's test reads first
(DEDUCED, log entry 135). -/
def mmaOp (zero : Bool) (f : Fields) (s : State) : Host.Outcome State Fault Refusal :=
  matIssue f 0 s fun t =>
    let r := (srcA f s t).toNat
    let a := f.b.toNat
    let b := 4 + f.c.toNat
    let pc := s.pcOf t
    match rows128 s t r with
    | some bad => .error (accWindow bad pc)
    | none =>
      if emptyAtIssue s t.key a then .error (tileFault 11 a 0 pc)
      else if emptyAtIssue s t.key b then .error (tileFault 11 b 0 pc)
      else .ok (some (.mma pc zero r a b))

def execMma (f : Fields) (s : State) : Host.Outcome State Fault Refusal := mmaOp false f s
def execMmaz (f : Fields) (s : State) : Host.Outcome State Fault Refusal := mmaOp true f s

def azeroOp (f : Fields) (len : Nat) (s : State) (n : Thr → W32) : Host.Outcome State Fault Refusal :=
  matIssue f len s fun t =>
    let r := (srcA f s t).toNat
    let k := (n t).toNat
    match firstOutside (windowOf s (s.wgOfThr t)) r k with
    | some bad => .error (accWindow bad (s.pcOf t))
    | none => .ok (some (.azero r k))

def execAzero (f : Fields) (s : State) : Host.Outcome State Fault Refusal := azeroOp f 0 s (srcB f s)
def execAzero96 (f : Fields) (imm : W32) (s : State) : Host.Outcome State Fault Refusal := azeroOp f 1 s fun _ => imm

def ascaleOp (f : Fields) (len : Nat) (s : State) (x : Thr → W32) : Host.Outcome State Fault Refusal :=
  matIssue f len s fun t =>
    let r := (srcA f s t).toNat
    match rows128 s t r with
    | some bad => .error (accWindow bad (s.pcOf t))
    | none => .ok (some (.ascale r (x t)))

def execAscale (f : Fields) (s : State) : Host.Outcome State Fault Refusal := ascaleOp f 0 s (srcB f s)
def execAscale96 (f : Fields) (imm : W32) (s : State) : Host.Outcome State Fault Refusal := ascaleOp f 1 s fun _ => imm

def execTrel (f : Fields) (s : State) : Host.Outcome State Fault Refusal :=
  matIssue f 0 s fun _ => .ok (some (.trel f.a.toNat))

/-- MSYNC (R277). -/
def execMsync (f : Fields) (s : State) : Host.Outcome State Fault Refusal :=
  match s.active f with
  | [] => .next (finish s 0 (s.idle f) false [])
  | t :: _ =>
    let d := f.d.toNat
    if (s.mat t.key).queue.isEmpty then .next ((s.arriveX t d (BitVec.ofNat 32 (s.mat t.key).count)).adv t 0)
    else if d = 0 then .next s
    else
      let p := pendLater s t [d]
      .next ((queueOp p.1 t.key (.sync p.2)).adv t 0)

/-! ### Performing (R266, R270 to R277) -/

/-- MSYNCs at the head of the queue get their count (R277). -/
def popSyncs (q : Nat) : Nat → State → State
  | 0, s => s
  | n + 1, s =>
    match (s.mat q).queue with
    | .sync id :: rest =>
      popSyncs q n (arriveNow (s.updMat q fun m => { m with queue := rest }) (.mat q) id ((s.mat q).count % 2 ^ 32))
    | _ => s

/-- Removes the performed head of the queue. -/
def popOp (s : State) (q : Nat) : State :=
  let s1 := s.updMat q fun m => { m with queue := m.queue.drop 1, pinWait := 0 }
  (popSyncs q (s1.mat q).queue.length s1).settleMat q

/-- The gang whose rows a program's operations use. -/
def seqGang (s : State) (q : Nat) : Nat := (s.wg (s.mseq q).wg).gang

/-- The matrix engine may perform the operation at the head of its queue: the gang is not halted, or the operation has
begun (R289). -/
def matRuns (s : State) (q : Nat) : Bool :=
  (!(s.gang (seqGang s q)).halted || ((s.mat q).queue.head?.map MatOp.begun).getD false) && decide ((s.mseq q).st ≠ .free)

def tileErr (s : State) (die asid : Nat) (va : W64) : TErr → Option Nat
  | .page => if isUnserv s die asid va.toNat then some 8 else none
  | .wait => none
  | .ecc => some 9
  | .prot k _ => some (if k = 9 then 8 else if k = 5 ∨ k = 10 then 6 else if k = 7 then 13 else 5)

/-- Reads one line of a tile at its home: the line, a subcode, or wait (with the line that waits). -/
def readTLine (s : State) (q : Nat) (va : W64) : State × Except (Option Nat) TLine :=
  let die := q / 40
  let t : Thr := .mat q
  let asid := s.asidOf t
  match translate s (.eng (tlbTile q)) die asid (s.privOf t) va .read with
  | (s1, .error e) => (s1, .error (tileErr s1 die asid va e))
  | (s1, .ok (l, pa)) =>
    if isDev pa then (s1, .error (some 13))
    else if !isLocal die pa then (s1, .error (some 7))
    else
      let ln := pa / 64
      if !homeReady s1 ln .fetch then (homeAsk s1 ln .fetch, .error none)
      else match (homeUse s1 ln).homeLine ln l.key l.cmps with
        | none => (s1, .error (some 9))
        | some (s2, x) => (s2, .ok ⟨va.toNat / 64, ln, x.data, x.tag, x.side⟩)

/-- The lines of a tile by virtual line number, rising (R270). -/
def tileLines (base : W64) (pitch rb : Nat) : List Nat :=
  (List.range 128).foldl (fun acc n =>
    let a := (base + BitVec.ofNat 64 (n * pitch)).toNat
    (List.range (rb / 64 + 2)).foldl (fun acc i => if a / 64 + i ≤ (a + rb - 1) / 64 then insNat (a / 64 + i) acc else acc) acc) []

def pinnedCount (s : State) (q : Nat) : Nat := (s.mat q).slots.foldl (fun n p => n + p.2.pins.length) 0

def tileSlot (s : State) (q slot : Nat) : TSlot := Map.getD (s.mat q).slots slot TSlot.reset
def setTile (s : State) (q slot : Nat) (x : TSlot) : State := s.updMat q fun m => { m with slots := Map.put m.slots slot x }

/-- A row of a block format that begins in line `x` off a block boundary (R270). -/
def misBlocked (base : W64) (pitch : Nat) (x : TLine) : Bool :=
  (List.range 128).any fun n =>
    let a := (base + BitVec.ofNat 64 (n * pitch)).toNat
    decide (a / 64 = x.vline) && !(x.side.any fun b => decide (b.1 = 64 * x.ln + a % 64))

/-- How far a fetch came. -/
inductive FetchRes where
  | done | wait | pins
  | fault (sub : Nat) (addr : W64)
deriving DecidableEq, Repr

/-- Reads and pins the lines still to come. -/
def fetchLines (q slot : Nat) (base : W64) (pitch fmt : Nat) (tag0 : Option Nat) : List Nat → State → State × FetchRes
  | [], s => (s, .done)
  | v :: l, s =>
    if (tileSlot s q slot).lines.any fun x => x.vline = v then fetchLines q slot base pitch fmt tag0 l s
    else if 512 ≤ pinnedCount s q then (s, .pins)
    else
      let va := BitVec.ofNat 64 (64 * v)
      match readTLine s q va with
      | (s1, .error none) => (s1, .wait)
      | (s1, .error (some sub)) => (s1, .fault sub va)
      | (s1, .ok x) =>
        let y := tileSlot s1 q slot
        let s2 := setTile s1 q slot { y with lines := y.lines ++ [x], pins := y.pins ++ [x.ln] }
        let s3 := s2.setHome x.ln { s2.home x.ln with pins := (s2.home x.ln).pins ++ [(q, slot)] }
        if x.tag ≠ tag0 then (s3, .fault 1 va)
        else if isBlockFmt fmt && misBlocked base pitch x then (s3, .fault 4 base)
        else fetchLines q slot base pitch fmt tag0 l s3

/-- The operation at the head of the queue faults, and the program stops (R267, R290); of a program that has stopped
already only its last fetch is dropped. -/
def stopTile (s : State) (q sub slot : Nat) (addr pc : W64) : State :=
  let s1 := s.updMat q fun m => { m with queue := m.queue.drop 1 }
  if (s.mseq q).st = .stopped then s1.settleMat q else s1.stopProgram (.mat q) (tileFault sub slot addr pc) pc

/-- TILE_FETCH_PERFORM (R270): the fetch at the head of the queue goes on as far as it can. -/
def execTileFetchPerform (quad : Nat) (s : State) : Host.Outcome State Fault Refusal :=
  match (s.mat quad).queue with
  | .fetch pc slot base pitch kb keep dfmt begun :: rest =>
    if !matRuns s quad then .next s
    else
      let s0 := if begun then s else (s.emptySlot quad slot).updMat quad fun m =>
        { m with queue := .fetch pc slot base pitch kb keep dfmt true :: rest }
      if base.toNat % 8 ≠ 0 ∨ pitch % 8 ≠ 0 then .next (stopTile s0 quad 2 slot base pc)
      else
        let va0 := BitVec.ofNat 64 (base.toNat / 64 * 64)
        match readTLine s0 quad va0 with
        | (s1, .error none) => .next s1
        | (s1, .error (some sub)) => .next (stopTile s1 quad sub slot va0 pc)
        | (s1, .ok x0) =>
          let fmt := x0.tag.getD dfmt
          let rb := 32 * kb * fmtBits fmt / 8
          let lines := tileLines base pitch rb
          if pitch < rb then .next (stopTile s1 quad 2 slot base pc)
          else if 256 < lines.length then .next (stopTile s1 quad 3 slot base pc)
          else match fetchLines quad slot base pitch fmt x0.tag lines s1 with
            | (s2, .fault sub addr) => .next (stopTile s2 quad sub slot addr pc)
            | (s2, .done) =>
              let y := tileSlot s2 quad slot
              .next (popOp (setTile s2 quad slot { y with full := true, fmt := fmt, k := 32 * kb, keep := keep, base := base,
                                                          pitch := pitch }) quad)
            | (s2, _) => .next s2
  | _ => .next s

/-- The first line that a fetch has still to pin (R270, R273). -/
def nextPin (x : TSlot) (base : W64) (pitch kb dfmt : Nat) : W64 :=
  let fmt := (x.lines.head?.bind (·.tag)).getD dfmt
  BitVec.ofNat 64 (64 * (((tileLines base pitch (32 * kb * fmtBits fmt / 8)).find? fun v =>
    !(x.lines.any fun y => y.vline = v)).getD (base.toNat / 64)))

/-- PIN_LIMIT_EXPIRY (R273): the fetch at the head has waited W cycles for the pin budget. -/
def execPinLimitExpiry (quad : Nat) (s : State) : Host.Outcome State Fault Refusal :=
  let w := (s.share (s.wg (s.mseq quad).wg).share).watchdog
  match (s.mat quad).queue with
  | .fetch pc slot base pitch kb _ dfmt true :: _ =>
    if w = 0 ∨ (s.mat quad).pinWait < min w (2 ^ 48) then .next s
    else .next (stopTile s quad 10 slot (nextPin (tileSlot s quad slot) base pitch kb dfmt) pc)
  | _ => .next s

/-- n bits from a bit offset of the bytes of row `r`. -/
def tileBits (x : TSlot) (r bit n : Nat) : Nat :=
  let a := (x.base + BitVec.ofNat 64 (r * x.pitch)).toNat + bit / 8
  let byte (i : Nat) : Nat :=
    match x.lines.find? fun l => l.vline = (a + i) / 64 with
    | some l => lineGet l.data ((a + i) % 64) 1
    | none => 0
  (byte 0 + 2 ^ 8 * byte 1 + 2 ^ 16 * byte 2 + 2 ^ 24 * byte 3) / 2 ^ (bit % 8) % 2 ^ n

/-- Scale byte of the block that holds the byte at a row's offset (R80). -/
def tileScale (x : TSlot) (r off : Nat) : Nat :=
  let a := (x.base + BitVec.ofNat 64 (r * x.pitch)).toNat + off
  match x.lines.find? fun l => l.vline = a / 64 with
  | some l =>
    let pa := 64 * l.ln + a % 64
    ((l.side.filter fun b => decide (b.1 ≤ pa)).foldl (fun m b => if m.1 ≤ b.1 then b else m) (0, 0)).2
  | none => 0

/-- Element k of row r of a tile (R275). -/
def tileElem (x : TSlot) (r k : Nat) : FVal :=
  let b := fmtBits x.fmt
  decS x.fmt (tileBits x r (k * b) b) (tileScale x r (k * b / 8))

def tileRow (x : TSlot) (r : Nat) : List FVal := (List.range x.k).map (tileElem x r)

/-- One block of 32 products, added to an accumulator element (R75). -/
def mmaBlock (acc : Nat) (as bs : List FVal) : Nat :=
  let s := sumVals .rne ((as.zip bs).map fun p => p.1.mul p.2)
  let t := match s with
    | .fin _ 0 _ _ => FVal.zero false
    | v => decF32 (encF32 v .rne false)
  encF32 (sumVals .rne [decF32 acc, t]) .rne false

def mmaElem (acc : Nat) : Nat → List FVal → List FVal → Nat
  | 0, _, _ => acc
  | n + 1, as, bs => mmaElem (mmaBlock acc (as.take 32) (bs.take 32)) n (as.drop 32) (bs.drop 32)

/-- The array's result for 128 rows (R275). -/
def mmaRows (s : State) (g row : Nat) (zero : Bool) (a b : TSlot) : State :=
  let cols := (List.range 128).map (tileRow b)
  (List.range 128).foldl (fun s' i =>
    let ra := tileRow a i
    accRow s' g (row + i) (cols.zipIdx.map fun p =>
      BitVec.ofNat 32 (mmaElem (if zero then 0 else (accGet s g (row + i) p.2).toNat) (a.k / 32) ra p.1))) s

/-- MMA_PERFORM (R275, R272): the MMA or MMAZ at the head of the queue. -/
def execMmaPerform (quad : Nat) (s : State) : Host.Outcome State Fault Refusal :=
  match (s.mat quad).queue with
  | .mma pc zero row a b :: _ =>
    if !matRuns s quad then .next s
    else
      let x := tileSlot s quad a
      let y := tileSlot s quad b
      if !x.full then .next (stopTile s quad 11 a 0 pc)
      else if !y.full then .next (stopTile s quad 11 b 0 pc)
      else if x.k ≠ y.k then .next (stopTile s quad 12 (if Config.shapeNamesB a b then b else a) 0 pc)
      else
        let s1 := mmaRows s (seqGang s quad) row zero x y
        let s2 := if x.keep then s1 else s1.emptySlot quad a
        let s3 := if y.keep then s2 else s2.emptySlot quad b
        .next (popOp (s3.updMat quad fun m => { m with count := m.count + 1 }) quad)
  | _ => .next s

/-- AZERO_PERFORM (R276). -/
def execAzeroPerform (quad : Nat) (s : State) : Host.Outcome State Fault Refusal :=
  match (s.mat quad).queue with
  | .azero row n :: _ =>
    if !matRuns s quad then .next s
    else .next (popOp ((List.range n).foldl (fun s' i => accRow s' (seqGang s quad) (row + i) (List.replicate 128 0)) s) quad)
  | _ => .next s

/-- ASCALE_PERFORM (R276). -/
def execAscalePerform (quad : Nat) (s : State) : Host.Outcome State Fault Refusal :=
  match (s.mat quad).queue with
  | .ascale row x :: _ =>
    if !matRuns s quad then .next s
    else
      let g := seqGang s quad
      let scale (e : W32) : W32 := BitVec.ofNat 32 (encF32 ((decF32 e.toNat).mul (decF32 x.toNat)) .rne false)
      .next (popOp ((List.range 128).foldl (fun s' i =>
        accRow s' g (row + i) ((List.range 128).map fun j => scale (accGet s g (row + i) j))) s) quad)
  | _ => .next s

/-- TREL_PERFORM (R277). -/
def execTrelPerform (quad : Nat) (s : State) : Host.Outcome State Fault Refusal :=
  match (s.mat quad).queue with
  | .trel slot :: _ => if !matRuns s quad then .next s else .next (popOp (s.emptySlot quad slot) quad)
  | _ => .next s

/-! ### The vector core's side (R280 to R283) -/

/-- The gang's leader (R10). -/
def leaderOf (s : State) (g : Nat) : Nat := (s.gang g).wgs.headD 0 * 1024

/-- The window word's fault, or the window (R281, R283). -/
def windowWord (s : State) (g w : Nat) (v : W32) : Except Nat (Nat × Nat) :=
  let x := s.gang g
  let n := v.toNat
  let wb := n % 4096
  let wl := n / 2 ^ 16 % 4096
  if x.arows = 0 ∨ x.wgs.length ≤ w ∨ n / 4096 % 16 ≠ 0 ∨ n / 2 ^ 28 ≠ 0 ∨ wl < wb ∨ x.arows < wl ∨ wb % 128 ≠ 0 ∨ wl % 128 ≠ 0
    then .error wb else .ok (wb, wl)

def accWinOp (f : Fields) (len : Nat) (s : State) (v : Thr → W32) : Host.Outcome State Fault Refusal :=
  .next (s.tryActive f len fun s' t =>
    let g := s.gangOf t.key
    let pc := s'.pcOf t
    if t.key ≠ leaderOf s g then .error (precise 0x15 0 0 pc)
    else match windowWord s' g (srcA f s t).toNat (v t) with
      | .error wb => .error (accWindow wb pc)
      | .ok w => .ok ((s'.updGang g fun x => { x with wins := x.wins.set (srcA f s t).toNat w }).adv t len))

def execAccWin (f : Fields) (s : State) : Host.Outcome State Fault Refusal := accWinOp f 0 s (srcB f s)
def execAccWin96 (f : Fields) (imm : W32) (s : State) : Host.Outcome State Fault Refusal := accWinOp f 1 s fun _ => imm

/-- Row and column of an accumulator address, or the fault (R282). -/
def accAddr (s : State) (t : Thr) (a : W32) (pc : W64) : Except Cause (Nat × Nat) :=
  let n := a.toNat
  if n % 16 ≠ 0 then .error (misaligned 16 (a.setWidth 64) pc)
  else match firstOutside (windowOf s (wgOf t.key)) (n / 512) 1 with
    | some _ => .error (accWindow (n / 512) pc)
    | none => .ok (n / 512, n % 512 / 4)

def accRdOp (f : Fields) (disp : W32) (len : Nat) (s : State) : Host.Outcome State Fault Refusal :=
  .next (s.tryActive f len fun s' t =>
    match accAddr s t (srcA f s t + disp) (s'.pcOf t) with
    | .error c => .error c
    | .ok (row, col) =>
      let g := s.gangOf t.key
      .ok ((s'.arriveXQ t f.d.toNat ((List.range 4).map fun i => accGet s g row (col + i))).adv t len))

def execAccRd (f : Fields) (s : State) : Host.Outcome State Fault Refusal := accRdOp f 0 0 s
def execAccRd96 (f : Fields) (imm : W32) (s : State) : Host.Outcome State Fault Refusal := accRdOp f imm 1 s

def accWrOp (f : Fields) (disp : W32) (len : Nat) (s : State) : Host.Outcome State Fault Refusal :=
  .next (s.tryActive f len fun s' t =>
    match accAddr s t (srcA f s t + disp) (s'.pcOf t) with
    | .error c => .error c
    | .ok (row, col) =>
      let g := s.gangOf t.key
      .ok (((s.rxq t f.c.toNat).zipIdx.foldl (fun s p => accPut s g row (col + p.2) p.1) s').adv t len))

def execAccWr (f : Fields) (s : State) : Host.Outcome State Fault Refusal := accWrOp f 0 0 s
def execAccWr96 (f : Fields) (imm : W32) (s : State) : Host.Outcome State Fault Refusal := accWrOp f imm 1 s

end Sys2Proof.Machine
end

