-- ==== Sys2Proof/Machine/Progress.lean ====
section
/-! DEFINITION. Progress and traps: RACE and TLBI, arriving results, late faults, the timers of R181 to R186, service of
page faults (R204), invalidations (R370) and the fills of the register and instruction caches. -/

namespace Sys2Proof.Machine

/-! ### RACE (R177, R195) -/

def State.launchOf (s : State) (k : Nat) : Nat := (s.wg (wgOf k)).share / 16

def peepMode (s : State) (launch : Nat) : Nat := (Map.getD s.mem.peep launch Peep.reset).mode

/-- Clears the shadow words of the sectors that [pa, pa + n) touches. -/
def clearShadow (s : State) (launch pa n : Nat) : State :=
  s.updMem fun m => { m with peep := Map.upd m.peep launch fun p =>
    { p with shadow := p.shadow.filter fun w => !(decide (pa / 32 ≤ w.1) && decide (32 * w.1 < pa + n)) } }

/-- One lane of RACE.annotate, page by page: none where a walk must wait. A later page that faults leaves the earlier
pages' shadow words cleared (DESIGN CHOICE, log entry 132). -/
def annotatePages (t : Thr) : Nat → Nat → W64 → State → Option (State × Fate)
  | 0, _, _, s => some (s, .ok)
  | fuel + 1, len, va, s =>
    if len = 0 then some (s, .ok)
    else match s.trFib t.key va .write with
      | (_, .error .wait) => none
      | (s1, .error e) => some (s1, .prec (e.cause false va (s.pcOf t)))
      | (s1, .ok (l, pa)) =>
        let n := min len (2 ^ l.lg - pa % 2 ^ l.lg)
        let s2 := if isLocal (s.fibDie t.key) pa && decide (peepMode s (s.launchOf t.key) ≠ 0) then
            clearShadow s1 (s.launchOf t.key) pa n else s1
        annotatePages t fuel (len - n) (va + BitVec.ofNat 64 n) s2

def annotateOp (f : Fields) (disp : W32) (len : Nat) (s : State) : Host.Outcome State Fault Refusal :=
  let act := s.active f
  let lane (s' : State) (t : Thr) : Option (State × Fate × Option LaneReq) :=
    let n := (srcB f s t).toNat
    (annotatePages t (n / 4096 + 2) n (memVa f disp s t) s').map fun p => (p.1, p.2, none)
  if !allPerformed s act then .next s
  else match runLanes lane id act s with
    | none => .next (act.foldl (fun s' t => walkPages t .write ((srcB f s t).toNat / 4096 + 2) (srcB f s t).toNat
        (memVa f disp s t) s') s)
    | some (s1, fates, _) =>
      let any := fates.any fun p => p.2 = .ok
      let k := (act.map Thr.key).headD 0
      let s2 := if any && decide (peepMode s (s.launchOf k) ≠ 0) then bumpSync s1 (bandOf k) else s1
      .next (finish s2 len (s.idle f) false fates)

def execRaceAnnotate (f : Fields) (s : State) : Host.Outcome State Fault Refusal := annotateOp f 0 0 s
def execRaceAnnotate96 (f : Fields) (imm : W32) (s : State) : Host.Outcome State Fault Refusal := annotateOp f imm 1 s

/-- One lane of RACE.query. -/
def queryLane (d : Nat) (s : State) (x : Thr × W64 × LaneTr) : Option (State × Fate × Option LaneReq) :=
  match x.2.2 with
  | .fate (.late c _) => let p := loadFault s x.1 d 8 c; some (p.1, p.2, none)
  | .fate ft => some (s, ft, none)
  | .ok _ pa =>
    let v : W64 := if isLocal (s.fibDie x.1.key) pa then
        (match peepOf s (s.launchOf x.1.key) pa with
         | some p => shadowOf p pa
         | none => 0)
      else 0
    some (s.arriveXP x.1 d v, .ok, none)

def queryOp (f : Fields) (disp : W32) (len : Nat) (s : State) : Host.Outcome State Fault Refusal :=
  let act := s.active f
  let va := memVa f disp s
  match trLanes .read 1 va act s with
  | (s1, none) => .next s1
  | (s1, some trs) =>
    match runLanes (queryLane f.d.toNat) (fun x => x.1) (trs.map fun x => (x.1, va x.1, x.2)) s1 with
    | none => .next s1
    | some (s2, fates, _) => .next (finish s2 len (s.idle f) false fates)

def execRaceQuery (f : Fields) (s : State) : Host.Outcome State Fault Refusal := queryOp f 0 0 s
def execRaceQuery96 (f : Fields) (imm : W32) (s : State) : Host.Outcome State Fault Refusal := queryOp f imm 1 s

/-! ### TLBI (R196) -/

/-- Starts the invalidation of a waiting fibre, where it has none yet. -/
def startInv (s : State) (k : Nat) (va : Option Nat) (pkg : Bool) : State :=
  if s.invs.any fun i => i.fib = some k then s
  else { s with invs := s.invs ++ [{ fib := some k, die := s.fibDie k, asid := some (s.asidOf (.fib k)), va := va, pkg := pkg,
                                     drain := false, done := false }] }

/-- The fibres wait until every invalidation has completed. -/
def tlbiOp (f : Fields) (s : State) (va : Thr → Option Nat) : Host.Outcome State Fault Refusal :=
  let act := s.active f
  let denied := act.filter fun t => !s.privOf t
  if !denied.isEmpty then
    .next (finish s 0 (s.idle f) true (act.map fun t => (t, .prec (precise 0x03 0xE4 0 (s.pcOf t)))))
  else if !closerReady s act then .next s
  else
    let s1 := act.foldl (fun s t => startInv s t.key (va t) (decide (scopeFld f = 4))) s
    let mine (i : Inv) : Bool := act.any fun t => i.fib = some t.key
    if (s1.invs.filter mine).all fun i => i.done then
      .next (finish { s1 with invs := s1.invs.filter fun i => !mine i } 0 (s.idle f) true (act.map fun t => (t, .ok)))
    else .next s1

def execTlbiVa (f : Fields) (s : State) : Host.Outcome State Fault Refusal := tlbiOp f s fun t => some (pairA f s t).toNat
def execTlbiAll (f : Fields) (s : State) : Host.Outcome State Fault Refusal := tlbiOp f s fun _ => none

/-! ### Invalidations (R370, R237) -/

/-- A leaf in reach. -/
def Inv.hits (i : Inv) (l : Leaf) : Bool :=
  (match i.asid with
   | some a => decide (l.asid = a)
   | none => true)
  && (match i.va with
      | some v => decide (l.va ≤ v) && decide (v < l.va + 2 ^ l.lg)
      | none => true)

def Inv.inReach (i : Inv) (die : Nat) : Bool := i.pkg || decide (i.die = die)

/-- Die of an engine's TLB. -/
def etlbDie (n : Nat) : Nat :=
  if n < 1000 then n / 4 else if n < 2000 then (n - 1000) / 40 else if n < 2100 then n - 2000 else n - 2100

/-- Leaves in reach, of every cache. -/
def leavesHit (s : State) (i : Inv) : List Leaf :=
  (s.cores.flatMap fun c => if i.inReach (c.1 / 160) then (c.2.tlb ++ c.2.lastPage.map (·.2)).filter i.hits else [])
  ++ (s.etlb.flatMap fun e => if i.inReach (etlbDie e.1) then e.2.filter i.hits else [])
  ++ (s.csms.flatMap fun c => if i.inReach (gangDie s c.1) then
        c.2.slots.flatMap fun p => p.2.sectors.filterMap fun q => match q.2.tr with
          | some l => if i.hits l then some l else none
          | none => none
      else [])

/-- The sweep: every leaf in reach is dropped, and the walker-cache entries of the address space too, so that the next walk
reads the tables at their homes. What PREF has asked for and has not come yet is dropped as well (R173). -/
def sweep (s : State) (i : Inv) : State :=
  let keepSector (x : Sector) : Sector := match x.tr with
    | some l => if i.hits l then { x with tr := none } else x
    | none => x
  { s with
    cores := s.cores.map fun c => if i.inReach (c.1 / 160) then
        (c.1, { c.2 with tlb := c.2.tlb.filter fun l => !i.hits l, pref := [], lastPage := c.2.lastPage.filter fun p => !i.hits p.2 })
      else c
    etlb := s.etlb.map fun e => if i.inReach (etlbDie e.1) then (e.1, e.2.filter fun l => !i.hits l) else e
    csms := s.csms.map fun c => if i.inReach (gangDie s c.1) then
        (c.1, { c.2 with slots := Map.mapVals (fun t => { t with sectors := Map.mapVals keepSector t.sectors }) c.2.slots })
      else c
    mem := { s.mem with prefL2 := s.mem.prefL2.filter fun p => !i.inReach (lineDie p.1) }
    tus := s.tus.map fun t => if i.inReach t.1 then
        (t.1, { t.2 with walk := t.2.walk.filter fun w => match i.asid with
          | some a => decide (w.asid ≠ a)
          | none => false })
      else t }

/-- No access of the address space is on its way from a die in reach: neither a packet, accepted or sent, nor a remote fetch
(log entry 39). -/
def invQuiet (s : State) (i : Inv) : Bool :=
  let reach (asid : Nat) : Bool := i.asid.all fun a => decide (asid = a)
  (s.engs.all fun e => !(i.inReach e.1) || e.2.sent.all fun x => !(reach x.asid))
  && (s.chans.all fun c => !(i.inReach (chanDie s c.1)) || !(reach (s.share (s.wg (chanWg c.1)).share).asid) || c.2.queue.all fun x => match x with
      | .pkt _ _ _ => false
      | _ => true)
  && s.fab.net.all fun m => match m.2.msg with
      | .fetch ic _ _ _ _ => decide (m.2.src / 16 ≠ s.fab.pkgid) || !(i.inReach (icDie ic))
      | _ => true

/-- Lines that `DRAIN` writes back: for a page those of the dropped leaves' frames. -/
def drainLine (i : Inv) (hits : List Leaf) (ln : Nat) : Bool :=
  i.va.isNone || hits.any fun l => decide (l.pa ≤ 64 * ln) && decide (64 * ln < l.pa + 2 ^ l.lg)

def invDrain (s : State) (i : Inv) (hits : List Leaf) : Option State :=
  if !i.drain then some s
  else
    let s1 := s.cores.foldl (fun s' c => if i.inReach (c.1 / 160) then
        coreDrainLines s' c.1 0 (((dirtyLines (s'.core c.1)).map (·.1)).filter (drainLine i hits))
      else s') s
    forAll (fun s g => if i.inReach (gangDie s g) then
        forAll (fun s ln => csmDrain s g 0 (some ln))
          (((dirtySectors (s.csm g)).map fun d => (s.sector g d.1 d.2.1).ln).filter (drainLine i hits)) s
      else some s) s1.csms.keys s1

/-- INVALIDATION_COMPLETION (R370): the n-th invalidation in progress. -/
def execInvalidationCompletion (n : Nat) (s : State) : Host.Outcome State Fault Refusal :=
  match s.invs[n]? with
  | none => .next s
  | some i =>
    if i.done || !invQuiet s i then .next s
    else match invDrain s i (leavesHit s i) with
      | none => .next s
      | some s1 =>
        let s2 := sweep s1 i
        .next { s2 with invs := if i.fib.isNone then s2.invs.eraseIdx n else s2.invs.set n { i with done := true } }

/-- PAGE_WALK (R363): a walk for an address; the walker cache keeps what it read of the tables. -/
def execPageWalk (die asid : Nat) (va : W64) (s : State) : Host.Outcome State Fault Refusal :=
  if !canonical va then .next s else .next (walk s die asid va.toNat).1

/-! ### Results, late faults and traps (R46, R197, R198) -/

/-- A thread by kind: 0 fibre, 1 matrix sequencer, 2 copy context. -/
def thrOf (who key : Nat) : Thr :=
  match who with
  | 0 => .fib key
  | 1 => .mat key
  | _ => .cop key

/-- RESULT_ARRIVAL (R46): a result that its unit has ready is written, to registers that its core's cache holds (R95); for
a suspended gang into the image (R208). -/
def execResultArrival (who key id : Nat) (s : State) : Host.Outcome State Fault Refusal :=
  let t := thrOf who key
  match findPend s t id with
  | none => .next s
  | some p =>
    if !p.ready then .next s
    else
      let s1 := removePend (landRegs s t p.regs fun s => s.writePend t p) t id
      match t with
      | .fib k => .next (if (s.gang (s.gangOf k)).suspended then s1 else s1.settleTrap k)
      | _ => .next s1

/-- LATE_FAULT (R197): the oldest fault that a unit has found in a fibre's accesses is reported; its result will not
arrive. -/
def execLateFault (k : Nat) (s : State) : Host.Outcome State Fault Refusal :=
  let f := s.fib k
  match f.latent with
  | [] => .next s
  | (id, c) :: rest =>
    if f.status = .exited then .next s
    else
      let s1 := (removePend s (.fib k) id).updFib k fun f => { f with latent := rest, due := f.due ++ [c] }
      .next (if (s1.gang (s1.gangOf k)).suspended then s1 else s1.settleTrap k)

/-- TAKE_TRAP (R198, R208): a due trap is taken once nothing is pending, not while the gang is suspended. -/
def execTakeTrap (k : Nat) (s : State) : Host.Outcome State Fault Refusal :=
  if (s.gang (s.gangOf k)).suspended then .next s else .next (s.settleTrap k)

/-! ### Timers of the bands (R181, R184, R185) -/

/-- BAND_PRECEDENCE_EXPIRY (R181): a band that has been a candidate for 64 cycles goes first on its core. -/
def execBandPrecedenceExpiry (band : Nat) (s : State) : Host.Outcome State Fault Refusal :=
  if (s.band band).cand < 64 then .next s else .next (s.updBand band fun b => { b with first := true })

/-- The current batch takes the youngest age and the band chooses anew (R108, R182). -/
def rotate (s : State) (b : Nat) : State :=
  let bd := s.band b
  let mask := bd.curMask
  let s1 := s.setBand b { bd with
    batches := bd.batches.map fun x => if x.id = bd.cur then { x with age := bd.nextAge } else x,
    nextAge := bd.nextAge + 1, fair := 0 }
  ((bitList mask).foldl (fun s l => s.updFib (b * 32 + l) fun x => { x with age := bd.nextAge }) s1).choose b

/-- FAIRNESS_ROTATION (R184). -/
def execFairnessRotation (band : Nat) (s : State) : Host.Outcome State Fault Refusal :=
  let w := s.wg (band / 32)
  if !w.ctrl.getLsbD 0 || decide ((s.band band).fair < 4096) || (s.gang w.gang).suspended || (s.gang w.gang).halted then .next s
  else .next (rotate s band)

def watchdogOf (s : State) (band : Nat) : Nat := limit48 (s.share (s.wg (band / 32)).share).watchdog

/-- A batch whose starvation count has reached the limit; of several the first in the order in which the band holds them
(DESIGN CHOICE, log entry 156). -/
def starved (s : State) (band : Nat) : Option Batch :=
  let w := watchdogOf s band
  if w = 0 then none
  else (s.band band).batches.find? fun x => decide (x.id ≠ (s.band band).cur) && decide (w ≤ x.starve)

def gangRuns (s : State) (band : Nat) : Bool :=
  let g := s.gang (s.wg (band / 32)).gang
  !g.suspended && !g.halted

/-- WATCHDOG_STARVATION (R185): every fibre of the current batch takes WatchdogTimeout. -/
def execWatchdogStarvation (band : Nat) (s : State) : Host.Outcome State Fault Refusal :=
  match starved s band with
  | none => .next s
  | some x =>
    if !gangRuns s band then .next s
    else
      let lanes := bitList (s.band band).curMask
      let s1 := s.updBand band fun b => { b with batches := b.batches.map fun y => { y with starve := 0 } }
      .next (lanes.foldl (fun s l =>
        let k := band * 32 + l
        s.raise k (precise 0x0E x.mask 0 (s.fib k).pc)) s1)

/-- WATCHDOG_REJOIN (R185, R187): the fibres that have arrived at rejoin n take WatchdogTimeout. -/
def execWatchdogRejoin (band n : Nat) (s : State) : Host.Outcome State Fault Refusal :=
  let bd := s.band band
  let w := watchdogOf s band
  let arr := bd.jr n
  if w = 0 ∨ arr = 0 ∨ Map.getD bd.jcount n 0 < w ∨ (starved s band).isSome ∨ gangRuns s band = false then .next s
  else
    let info := bd.j n &&& ~~~ arr
    let s1 := s.setBand band { bd with jarr := Map.put bd.jarr n 0, jcount := Map.del bd.jcount n }
    .next (((bitList arr).foldl (fun s l =>
      let k := band * 32 + l
      let pc := (s.fib k).waitPc
      (s.updFib k fun f => { f with status := .ready, waitOn := .nothing, pc := pc }).raise k
        (precise 0x0E info (BitVec.ofNat 64 (0x10 + n)) pc)) s1).rebatch band)

/-! ### Page faults (R204, R205) -/

/-- Fibres of a die and address space that are parked on a page; of suspended gangs, those not served yet. -/
def parkedAt (s : State) (die asid va lg : Nat) (susp : Bool) : List Nat :=
  (s.fibres.filter fun p => decide (p.2.status = .parked) && decide ((s.wg (wgOf p.1)).core / 160 = die)
    && decide (s.asidOf (.fib p.1) = asid) && decide (p.2.parkVa.toNat / 2 ^ lg = va / 2 ^ lg)
    && decide ((s.gang (s.gangOf p.1)).suspended = susp) && decide (p.2.served = none)).map (·.1)

/-- Fibres of running gangs that a service of the page lets go on. -/
def parkedOn (s : State) (die asid va lg : Nat) : List Nat := parkedAt s die asid va lg false

/-- Fibres of suspended gangs that a service of the page lets go on at their resumption (R205). -/
def heldOn (s : State) (die asid va lg : Nat) : List Nat := parkedAt s die asid va lg true

/-- A service that completes while a gang is suspended is kept for the resumption (R205). -/
def holdService (s : State) (ok : Bool) (ks : List Nat) : State :=
  ks.foldl (fun s k => s.updFib k fun f => { f with served := some ok }) s

/-- Releases parked fibres: those of one band at one region entry and in one mode form one batch with the oldest age (R204). -/
def unpark (s : State) (ks : List Nat) : State :=
  let s1 := ks.foldl (fun s k => s.updFib k fun f =>
    { f with status := if f.handler then .handler else .ready, parkVa := 0, served := none }) s
  (bandsOf ks).foldl (fun s b => s.formBatches b ((ks.filter fun k => bandOf k = b).map laneOf)) s1

/-- Parked fibres whose page could not be served take ProtectionFault (R204). -/
def unservedAll (s : State) (ks : List Nat) : State :=
  ks.foldl (fun s k =>
    let a := (s.fib k).parkVa
    (s.updFib k fun f => { f with status := if f.handler then .handler else .ready, parkVa := 0, served := none }).raise k
      { code := 0x06, info := 9, addr := a, late := true, pfu := true, resume := 0 }) s

/-- At the resumption of a gang, its fibres whose page was served meanwhile are released (R205). -/
def releaseServed (s : State) (ks : List Nat) : State :=
  unservedAll (unpark s (ks.filter fun k => decide ((s.fib k).served = some true)))
    (ks.filter fun k => decide ((s.fib k).served = some false))

/-- PAGE_FAULT_MAPPED (R204): firmware writes the leaf entry at its home and the parked fibres are released. With
`pteAddr` 0 the entry has been written already. -/
def execPageFaultMapped (die asid : Nat) (va : W64) (lg pteAddr : Nat) (pte : W64) (s : State) : Host.Outcome State Fault Refusal :=
  if (s.fe die).recovering then .next s
  else if pteAddr ≠ 0 ∧ !homeReady s (pteAddr / 64) .write then .next (homeAsk s (pteAddr / 64) .write)
  else
    let s1 := if pteAddr = 0 then s
      else (homePut (homeUse s (pteAddr / 64)) agentFe (pteAddr / 8 * 8) 8 pte.toNat 0 0).getD s
    let s2 := { s1 with unserv := s1.unserv.filter fun u => !(decide (u.1 = die ∧ u.2.1 = asid ∧ u.2.2.1 / 2 ^ lg = va.toNat / 2 ^ lg)) }
    .next (holdService (unpark s2 (parkedOn s2 die asid va.toNat lg)) true (heldOn s2 die asid va.toNat lg))

/-- PAGE_FAULT_UNSERVICEABLE (R204, R372): the parked fibres take ProtectionFault; other engines find the page
unserviced from now on. -/
def execPageFaultUnserviceable (die asid : Nat) (va : W64) (lg : Nat) (s : State) : Host.Outcome State Fault Refusal :=
  let s1 := { s with unserv := s.unserv ++ [(die, asid, va.toNat, lg)] }
  if (s.fe die).recovering then .next s
  else .next (holdService (unservedAll s1 (parkedOn s die asid va.toNat lg)) false (heldOn s die asid va.toNat lg))

/-! ### Caches of registers and instructions (R95, R419) -/

/-- REGISTER_LINE_FILL (R95): the line of a register of one slice that the image holds comes to the cache; where it
cannot be read the register is lost in its eight lanes. -/
def execRegisterLineFill (band slice reg : Nat) (s : State) : Host.Outcome State Fault Refusal :=
  let w := s.wg (band / 32)
  if w.nbands ≤ band % 32 ∨ 4 ≤ slice ∨ reg = 0 ∨ w.xregs ≤ reg ∨ (s.band band).isOut (regKey band slice reg) = false
      ∨ (s.gang w.gang).suspended then .next s
  else .next (bringReg false s (regKey band slice reg))

/-- INSTRUCTION_CACHE_FILL (R419): a block read at the home of the die that fetches enters an instruction cache, or its
fetch will fault. -/
def execInstructionCacheFill (ic pa key cmps : Nat) (s : State) : Host.Outcome State Fault Refusal :=
  let die := icDie ic
  if !isLocal die pa || (heldBlock s ic pa).isSome then .next s
  else if !homeReady s (pa / 64) .read then .next (homeAsk s (pa / 64) .read)
  else match homeRead (homeUse s (pa / 64)) (pa / 64) key cmps with
    | some (s1, l) => .next (keepBlock s1 ic pa (blockOf l pa))
    | none => .next { s with fetchBad := s.fetchBad ++ [(ic, pa / 32, 0x13)] }

end Sys2Proof.Machine
end

