-- ==== Sys2Proof/Machine/FeMem.lean ====
section
/-! DEFINITION. How a front end reads and writes memory: ring slots and graph nodes by physical address, descriptors,
records and words by virtual address, always at the homes (R24, R340, R344, R348, R353). -/

namespace Sys2Proof.Machine

/-- Why an access of a front end gives nothing: it waits (for the snoop of a line, where one is named), an uncorrectable
error, or a fault. -/
inductive FeErr where
  | wait (line : Ask)
  | ecc
  | fault
deriving DecidableEq, Repr

/-- An access within a line at its home. Memory of a pool node or another package is out of a front end's reach
(log entry 41). -/
def feHome (s : State) (pa key : Nat) (w : Want) : Except FeErr Unit :=
  match memDie pa with
  | none => .error .fault
  | some d =>
    if (paFault s d pa key).isSome then .error .fault
    else if homeReady s (pa / 64) w then .ok () else .error (.wait (some (pa / 64, w)))

def feGetPa (s : State) (pa n key cmps : Nat) : State × Except FeErr Nat :=
  match feHome s pa key .read with
  | .error e => (s, .error e)
  | .ok _ =>
    match homeGet (homeUse s (pa / 64)) pa n key cmps with
    | some (s1, v) => (s1, .ok v)
    | none => (s, .error .ecc)

def fePutPa (s : State) (pa n v key cmps : Nat) : State × Except FeErr Unit :=
  match feHome s pa key .write with
  | .error e => (s, .error e)
  | .ok _ =>
    match homePut (homeUse s (pa / 64)) agentFe pa n v key cmps with
    | some s1 => (s1, .ok ())
    | none => (s, .error .ecc)

/-- k 8-byte words from an aligned physical address, under the key id of the die's host requests (log entry 42). -/
def fePhys (die : Nat) : Nat → Nat → State → State × Except FeErr (List W64)
  | 0, _, s => (s, .ok [])
  | k + 1, pa, s =>
    match feGetPa s pa 8 (s.ld die).hostKey 0 with
    | (s1, .error e) => (s1, .error e)
    | (s1, .ok v) =>
      match fePhys die k (pa + 8) s1 with
      | (s2, .error e) => (s2, .error e)
      | (s2, .ok l) => (s2, .ok (BitVec.ofNat 64 v :: l))

/-- For whom a front end translates. -/
structure FeCtx where
  die : Nat
  asid : Nat
  priv : Bool
deriving DecidableEq, Repr

def feTr (s : State) (c : FeCtx) (va : W64) (acc : Acc) : State × Except FeErr (Leaf × Nat) :=
  match translate s (.eng (tlbFe c.die)) c.die c.asid c.priv va acc with
  | (s1, .error .page) => (s1, .error (if isUnserv s1 c.die c.asid va.toNat then .fault else .wait none))
  | (s1, .error .wait) => (s1, .error (.wait none))
  | (s1, .error .ecc) => (s1, .error .ecc)
  | (s1, .error (.prot _ _)) => (s1, .error .fault)
  | (s1, .ok r) => (s1, .ok r)

/-- Translation of a page that a launch asks to be present already (R79, R319): an absent page is not serviced first. -/
def feTrPresent (s : State) (c : FeCtx) (va : W64) (acc : Acc) : State × Except FeErr (Leaf × Nat) :=
  match translate s (.eng (tlbFe c.die)) c.die c.asid c.priv va acc with
  | (s1, .error .page) => (s1, .error .fault)
  | (s1, .error .wait) => (s1, .error (.wait none))
  | (s1, .error .ecc) => (s1, .error .ecc)
  | (s1, .error (.prot _ _)) => (s1, .error .fault)
  | (s1, .ok r) => (s1, .ok r)

/-- Reads n bytes as a number, cut at line boundaries; the fuel bounds the number of lines. -/
def feRead (c : FeCtx) : Nat → W64 → Nat → State → State × Except FeErr Nat
  | 0, _, _, s => (s, .ok 0)
  | fuel + 1, va, n, s =>
    if n = 0 then (s, .ok 0)
    else
      let m := min n (64 - va.toNat % 64)
      match feTr s c va .read with
      | (s1, .error e) => (s1, .error e)
      | (s1, .ok (l, pa)) =>
        match feGetPa s1 pa m l.key l.cmps with
        | (s2, .error e) => (s2, .error e)
        | (s2, .ok v) =>
          match feRead c fuel (va + BitVec.ofNat 64 m) (n - m) s2 with
          | (s3, .error e) => (s3, .error e)
          | (s3, .ok w) => (s3, .ok (v + 2 ^ (8 * m) * w))

/-- k words of 8 bytes. -/
def feWords (c : FeCtx) (va : W64) (k : Nat) (s : State) : State × Except FeErr (List W64) :=
  match feRead c (k / 8 + 2) va (8 * k) s with
  | (s1, .error e) => (s1, .error e)
  | (s1, .ok v) => (s1, .ok ((List.range k).map fun i => BitVec.ofNat 64 (v / 2 ^ (64 * i))))

/-- Writes the low n bytes of a number. -/
def feWrite (c : FeCtx) : Nat → W64 → Nat → Nat → State → State × Except FeErr Unit
  | 0, _, _, _, s => (s, .ok ())
  | fuel + 1, va, n, v, s =>
    if n = 0 then (s, .ok ())
    else
      let m := min n (64 - va.toNat % 64)
      match feTr s c va .write with
      | (s1, .error e) => (s1, .error e)
      | (s1, .ok (l, pa)) =>
        match fePutPa s1 pa m (v % 2 ^ (8 * m)) l.key l.cmps with
        | (s2, .error e) => (s2, .error e)
        | (s2, .ok _) => feWrite c fuel (va + BitVec.ofNat 64 m) (n - m) (v / 2 ^ (8 * m)) s2

/-- The error interrupt of a die (R396). -/
def State.errIrq (s : State) (die : Nat) : State := s.irq die 0

/-- Writes a completion record: words 1 to 3, then word 0; none while it must wait. A record that cannot be written
raises the error interrupt (R348). -/
def feRecord (s : State) (c : FeCtx) (va : W64) (w : List W64) : Option State :=
  let rest := (w.getD 1 0).toNat + 2 ^ 64 * (w.getD 2 0).toNat + 2 ^ 128 * (w.getD 3 0).toNat
  match feWrite c 3 (va + 8) 24 rest s with
  | (_, .error (.wait _)) => none
  | (_, .error _) => some (s.errIrq c.die)
  | (s1, .ok _) =>
    match feWrite c 3 va 8 (w.getD 0 0).toNat s1 with
    | (_, .error (.wait _)) => none
    | (_, .error _) => some (s.errIrq c.die)
    | (s2, .ok _) => some s2

end Sys2Proof.Machine
end

