-- ==== Sys2Proof/Machine/LaunchTypes.lean ====
section
/-! DEFINITION. LAUNCH packets and kernel descriptors: their fields (R343, R344) and the checks of the fields
(R349 reason 1). -/

namespace Sys2Proof.Machine

/-! ### Fields of a packet (R343); word 8 i + j is slot i, word j -/

def Launch.wf (l : Launch) (w hi lo : Nat) : Nat := bitsN (l.words.getD w 0).toNat hi lo
def Launch.word (l : Launch) (w : Nat) : W64 := l.words.getD w 0
def Launch.kdesc (l : Launch) : W64 := l.word 1
def Launch.signal (l : Launch) : W64 := l.word 2
def Launch.start (l : Launch) : W64 := l.word 3
def Launch.gridx (l : Launch) : Nat := l.wf 4 31 0
def Launch.gridy (l : Launch) : Nat := l.wf 4 63 32
def Launch.gridz (l : Launch) : Nat := l.wf 5 31 0
def Launch.fair (l : Launch) : Nat := l.wf 5 32 32
def Launch.race (l : Launch) : Nat := l.wf 5 34 33
def Launch.coop (l : Launch) : Nat := l.wf 5 37 35
def Launch.gangSize (l : Launch) : Nat := l.wf 5 40 38
def Launch.dbg (l : Launch) : Nat := l.wf 5 41 41
def Launch.wgSize (l : Launch) : Nat := l.wf 6 10 0 * l.wf 6 21 11 * l.wf 6 32 22
def Launch.psize (l : Launch) : Nat := l.wf 7 31 0
def Launch.dgcount (l : Launch) : Nat := l.wf 7 44 32
def Launch.id (l : Launch) : W64 := l.word 10

/-- k0 to k31. -/
def Launch.ks (l : Launch) : Map W32 :=
  ((List.range 32).map fun n => (n, BitVec.ofNat 32 (l.wf (16 + n / 2) (32 * (n % 2) + 31) (32 * (n % 2))))).filter fun p => p.2 ≠ 0

/-! ### Fields of a descriptor (R344), by word -/

def Launch.df (l : Launch) (w hi lo : Nat) : Nat := bitsN (l.desc.getD w 0).toNat hi lo
def Launch.xregs (l : Launch) : Nat := l.df 2 7 0
def Launch.hnd (l : Launch) : Nat := l.df 2 24 24
def Launch.nroles (l : Launch) : Nat := l.df 2 39 32
def Launch.ncsm (l : Launch) : Nat := l.df 2 47 40
def Launch.nfmt (l : Launch) : Nat := l.df 2 55 48
def Launch.nnodes (l : Launch) : Nat := l.df 2 63 56
def Launch.entry (l : Launch) : W64 := l.kdesc + l.desc.getD 1 0
def Launch.handler (l : Launch) : W64 := l.entry + l.desc.getD 3 0
def Launch.role (l : Launch) (n : Nat) : Nat := l.df (28 + n / 4) (16 * (n % 4) + 15) (16 * (n % 4))

/-- Local store of a gang in 64 KiB, and accumulator rows in blocks of 128 (R343). -/
def Launch.lsize (l : Launch) : Nat := if l.wf 6 37 33 = 0 then l.df 2 15 8 else l.wf 6 37 33
def Launch.arows (l : Launch) : Nat := if l.wf 6 42 38 = 31 then l.df 2 23 16 else l.wf 6 42 38

/-- %ctrl (R189). -/
def Launch.ctrl (l : Launch) : W32 :=
  BitVec.ofNat 32 (l.fair + (if l.priv then 2 else 0) + 4 * l.dbg + 8 * l.race + 32 * l.hnd + 256 * l.coop + 65536 * l.gangSize)

/-- Workgroups, and gangs, of the whole launch (R10). -/
def Launch.totalWgs (l : Launch) : Nat := l.gridx * l.gridy * l.gridz
def Launch.totalGangs (l : Launch) : Nat := (l.totalWgs + l.gangSize - 1) / l.gangSize

/-! ### Checks of reason 1 -/

/-- The words 4 to 7 that packet and set-up share; `setup` for those of a descriptor. -/
def setupOk (w : Nat → W64) (setup : Bool) : Bool :=
  let f (k hi lo : Nat) : Nat := bitsN (w k).toNat hi lo
  let gx := f 4 31 0
  let gy := f 4 63 32
  let gz := f 5 31 0
  let coop := f 5 37 35
  let wg := f 6 10 0 * f 6 21 11 * f 6 32 22
  decide (1 ≤ gx ∧ 1 ≤ gy ∧ 1 ≤ gz ∧ gx * gy * gz < 2 ^ 64)
  && decide (f 5 34 33 ≤ 2) && (decide (coop = 0) || decide (3 ≤ coop ∧ coop ≤ 5))
  && decide (1 ≤ f 5 40 38 ∧ f 5 40 38 ≤ 4) && decide (f 5 63 42 = 0)
  && decide (1 ≤ wg ∧ wg ≤ 1024) && decide (f 6 63 43 = 0)
  && decide (f 7 31 0 % 16 = 0) && decide (f 7 63 45 = 0)
  && (if setup then decide (f 5 41 41 = 0 ∧ f 6 37 33 = 0 ∧ f 6 42 38 = 31 ∧ f 7 44 32 = 0)
      else decide (1 ≤ f 7 44 32 ∧ f 7 44 32 ≤ 4096))

/-- The packet's fields. -/
def Launch.packetOk (l : Launch) : Bool :=
  setupOk l.word false && decide (l.signal.toNat % 32 = 0) && (decide (l.race ≠ 0) || decide (l.word 9 = 0))
  && (decide (l.wf 6 37 33 = 0) || decide (l.df 2 15 8 ≤ l.wf 6 37 33 ∧ l.wf 6 37 33 ≤ 16))
  && (decide (l.wf 6 42 38 = 31) || decide (l.wf 6 42 38 ≤ l.df 2 23 16))

/-- The descriptor but for its tables. -/
def Launch.headOk (l : Launch) : Bool :=
  let d (w : Nat) : W64 := l.desc.getD w 0
  decide (l.df 0 15 0 = 1 ∧ l.df 0 31 16 = 0 ∧ l.df 0 63 32 = 0x700)
  && decide ((d 1).toNat % 4 = 0) && decide (8 ≤ l.xregs ∧ l.xregs ≤ 128 ∧ l.xregs % 8 = 0)
  && decide (l.df 2 15 8 ≤ 16) && decide (l.df 2 23 16 ≤ 16) && decide (l.df 2 31 25 = 0)
  && decide (l.nroles ≤ 16 ∧ l.ncsm ≤ 16 ∧ l.nfmt ≤ 16 ∧ l.nnodes ≤ 32)
  && (decide (l.hnd = 1) || decide (d 3 = 0)) && setupOk d true && decide (d 11 = 0)
  && ((List.range 16).all fun n => decide (n < l.nroles) || decide (l.role n = 0))
  && ((List.range 64).all fun w => decide (w / 4 < l.ncsm) || decide (d (32 + w) = 0))
  && ((List.range 64).all fun w => decide (w / 4 < l.nfmt) || decide (d (96 + w) = 0))
  && ((List.range 64).all fun w => decide (w / 2 < l.nnodes) || decide (d (160 + w) = 0))

/-- A format table entry's fields: address, length, scale address, format, BLK16. -/
structure FmtReq where
  va : W64
  len : Nat
  scale : W64
  fmt : Nat
  blk16 : Bool
deriving DecidableEq, Repr

def Launch.fmtReq (l : Launch) (i : Nat) : FmtReq :=
  { va := l.desc.getD (96 + 4 * i) 0, len := (l.desc.getD (97 + 4 * i) 0).toNat, scale := l.desc.getD (98 + 4 * i) 0,
    fmt := l.df (99 + 4 * i) 4 0, blk16 := decide (l.df (99 + 4 * i) 5 5 = 1) }

def Launch.fmtsOk (l : Launch) : Bool := (List.range l.nfmt).all fun i =>
  let r := l.fmtReq i
  decide (r.len % 4096 = 0) && decide (l.df (99 + 4 * i) 63 6 = 0) && (isBlockFmt r.fmt || decide (r.scale = 0))

/-- A casement table entry as the slot that is opened at gang start, and its number. -/
def Launch.csmEntry (l : Launch) (i : Nat) : Nat × Slot :=
  let w := l.df (32 + 4 * i) 63 0
  (w % 16, openSlot (w / 2 ^ 52 % 4) (w % 2 ^ 52) (w / 2 ^ 54 % 16) (l.desc.getD (33 + 4 * i) 0))

/-- An entry that the opening of its slot, or the layout of R344, does not allow. -/
def Launch.csmBad (l : Launch) (c : Casement) (i : Nat) : Bool :=
  let e := l.csmEntry i
  let w := l.df (32 + 4 * i) 63 0
  (openFault c e.1 e.2).isSome || decide (3 ≤ e.2.mode) || decide (w / 2 ^ 58 ≠ 0) || decide (bitsN w 51 43 ≠ 0)
  || decide (l.desc.getD (34 + 4 * i) 0 ≠ 0) || decide (l.desc.getD (35 + 4 * i) 0 ≠ 0)
  || (if e.2.mode = 2 then decide (l.nroles ≤ e.2.role) || decide (l.role e.2.role % 8 ≠ 6)
      else decide (e.2.hw ≠ 0) || decide (e.2.role ≠ 0))

/-- Opens the casements of the table in order: the gang's casement state, or the first bad entry. -/
def Launch.openAll (l : Launch) : List Nat → Casement → Except Nat Casement
  | [], c => .ok c
  | i :: is, c =>
    if l.csmBad c i then .error i
    else Launch.openAll l is { c with slots := Map.put c.slots (l.csmEntry i).1 (l.csmEntry i).2 }

def Launch.casement (l : Launch) (base : Nat) : Except Nat Casement :=
  l.openAll (List.range l.ncsm) { Casement.reset with base := base * 65536, lsize := l.lsize * 65536 }

/-! ### Roles (R18 to R22) -/

/-- R19's combinations of KIND and MODE. A selector of KIND 0, which R19's table does not list, is an unbound entry with
MODE 0 and refused with another MODE (DESIGN CHOICE, log entry 131). -/
def legalRole (kind mode : Nat) : Bool :=
  match kind with
  | 0 => decide (mode = 0)
  | 1 => decide (mode ≤ 2)
  | 2 => decide (mode ≤ 1)
  | 3 => decide (mode ≤ 1)
  | 4 => decide (mode = 1 ∨ mode = 3)
  | 5 => decide (mode = 0)
  | 6 => decide (mode = 2)
  | _ => false

/-! ### Nodes (R317) -/

/-- Field [hi:lo] of the 128-bit entry of a node. -/
def Launch.nf (l : Launch) (n hi lo : Nat) : Nat :=
  bitsN ((l.desc.getD (160 + 2 * n) 0).toNat + 2 ^ 64 * (l.desc.getD (161 + 2 * n) 0).toNat) hi lo

def Launch.nodeOk (l : Launch) (n : Nat) : Bool :=
  decide (l.nf n 0 0 = 1 ∧ l.nf n 4 1 = 0 ∧ l.nf n 63 28 = 0) && decide (32 ≤ l.nf n 15 5 ∧ l.nf n 15 5 ≤ 1024)
  && decide (1 ≤ l.nf n 27 22) && decide (1 ≤ l.nf n 127 96) && decide (l.nf n 95 64 % 4 = 0)

def Launch.node (l : Launch) (n : Nat) : NodeEnt :=
  { timer := l.nf n 127 96, entry := l.entry + (BitVec.ofNat 32 (l.nf n 95 64)).signExtend 64, maxDepth := l.nf n 27 22,
    recur := decide (l.nf n 21 21 = 1), rec' := (l.nf n 20 16 + 1) * 16, group := l.nf n 15 5 }

/-! ### What the launch needs -/

/-- Bytes of a workgroup's context image (R94). -/
def imageSize (nb xregs : Nat) : Nat := 0x400 * (1 + nb) + 128 * nb * xregs

/-- Resources of one gang: local store and accumulator blocks, the bands of each workgroup, and the bytes of each
workgroup's image and private block. -/
structure Need where
  ls : Nat
  rows : Nat
  nbs : List Nat
  img : Nat
  priv : Nat
deriving DecidableEq, Repr

def bandsFor (n : Nat) : Nat := (n + 31) / 32

/-- Gangs of the die at a position of a group of D. -/
def Launch.shareGangs (l : Launch) (pos d : Nat) : Nat :=
  if pos < l.totalGangs then (l.totalGangs - pos + d - 1) / d else 0

/-- Workgroups of a gang. -/
def Launch.gangWgs (l : Launch) (g : Nat) : List Nat :=
  (List.range l.gangSize).map (g * l.gangSize + ·) |>.filter fun w => decide (w < l.totalWgs)

/-- What a gang of n workgroups of a size needs. -/
def Launch.needOf (l : Launch) (n size : Nat) : Need :=
  { ls := l.lsize, rows := l.arows, nbs := (List.range n).map fun _ => bandsFor size, img := imageSize (bandsFor size) l.xregs,
    priv := l.psize * bandsFor size * 32 }

def Launch.need (l : Launch) (g : Nat) : Need := l.needOf (l.gangWgs g).length l.wgSize
def Launch.nodeNeed (l : Launch) (size : Nat) : Need := l.needOf 1 size

/-- Features of R355 that a launch needs and its front end has not enabled. -/
def Launch.featureOff (l : Launch) (en : W64) (graph away : Bool) : Bool :=
  let off (b : Nat) : Bool := !en.getLsbD b
  (decide (l.race ≠ 0) && off 0) || (decide (l.nnodes ≠ 0) && off 1) || (graph && off 2) || (decide (4 ≤ l.coop) && off 3)
  || (away && off 6) || (decide (l.dbg = 1) && off 7)

end Sys2Proof.Machine
end

