-- ==== Sys2Proof/Machine/Place.lean ====
section
/-! DEFINITION. Room for gangs on a die: what is in use on each quad, and the dispatcher's scan (R12, R347). -/

namespace Sys2Proof.Machine

def State.launch (s : State) (k : Nat) : Option Launch := Map.get s.launches k
def State.setLaunch (s : State) (k : Nat) (l : Launch) : State := { s with launches := Map.put s.launches k l }
def State.updLaunch (s : State) (k : Nat) (g : Launch → Launch) : State := { s with launches := Map.upd s.launches k g }

/-- Physical quads of a die in service (R12). -/
def usableQuads (s : State) (die : Nat) : List Nat := (List.range 40).filter fun q => !(s.unit (unitQuad die q)).retired

/-- What is in use on a quad: gangs, pieces of local store and of the accumulator, for each workgroup its core of the quad and
band slots, context images in the vault above it, and bytes of images that are reserved. -/
structure Used where
  gangs : Nat
  ls : List (Nat × Nat)
  rows : List (Nat × Nat)
  wgs : List (Nat × List Nat)
  imgs : List (Nat × Nat)
  res : Nat
deriving DecidableEq, Repr

def Used.none : Used := { gangs := 0, ls := [], rows := [], wgs := [], imgs := [], res := 0 }

/-- A place of a gang is added to what is in use on its quad. -/
def Used.add (u : Used) (ls rows : Nat) (p : Place) : Used :=
  { u with gangs := u.gangs + 1, ls := (p.base, ls) :: u.ls, rows := (p.abase, rows) :: u.rows, wgs := p.wgs ++ u.wgs }

/-- A place is reserved, with images of `img` bytes for its workgroups. -/
def Used.hold (u : Used) (ls rows img : Nat) (p : Place) : Used :=
  { u.add ls rows p with res := u.res + img * p.wgs.length }

/-- Slots of the core that a workgroup's bands hold. -/
def wgSlots (s : State) (w : Nat) : List Nat :=
  (List.range (s.wg w).nbands).map fun b => (s.band (w * 32 + b)).slot

/-- The place of a gang that is on its quad. -/
def placeOf (s : State) (g : Nat) : Place :=
  let x := s.gang g
  { quad := x.quad, base := (s.csm g).base / 65536, abase := x.abase / 128,
    wgs := (x.wgs.filter fun w => decide ((s.wg w).nbands ≠ 0)).map fun w => ((s.wg w).core % 4, wgSlots s w) }

/-- The vault above a quad. -/
def quadVault (quad : Nat) : Nat := vaultBase (quad / 40) + quad % 40 * 0x2000000
def vaultBytes : Nat := 0x2000000

/-- The vault room that the shadow arrays of launches take (R176). -/
def shadowRoom (s : State) : List (Nat × Nat) := s.mem.peep.flatMap fun p => p.2.arrays

/-- The parts of pieces that lie in [lo, hi). -/
def clipTo (lo hi : Nat) (l : List (Nat × Nat)) : List (Nat × Nat) :=
  (l.map fun t => (max lo t.1, min hi (t.1 + t.2) - max lo t.1)).filter fun t => t.2 ≠ 0

/-- What is allocated of the vault above a quad: images, also of suspended gangs, and shadow arrays. -/
def imagesOn (s : State) (quad : Nat) : List (Nat × Nat) :=
  clipTo (quadVault quad) (quadVault quad + vaultBytes) (shadowRoom s) ++ (s.wgs.filter fun p => decide (p.2.nbands ≠ 0) && decide (quadVault quad ≤ p.2.image.toNat)
    && decide (p.2.image.toNat < quadVault quad + vaultBytes)).map fun p => (p.2.image.toNat, p.2.imageBytes)

/-- The gang that a launch's stage reserve is lent to is on its quad. -/
def reserveBusy (s : State) (p : Proofer) : Bool :=
  match p.resGang with
  | none => false
  | some g => !(s.gang g).suspended

/-- The stage reserves that are set aside whole (R321), with the launch of each; not one lent to gang `but`, which looks for
its own place. -/
def reserves (s : State) (but : Option Nat) : List (Nat × Launch × Place) :=
  s.stages.filterMap fun p => match p.2.reserve, s.launch p.1 with
    | some r, some l => if reserveBusy s p.2 || (but.isSome && decide (p.2.resGang = but)) then none else some (p.1, l, r)
    | _, _ => none

/-- The stage reserve that is lent to a gang: it stays set aside whole while the gang is on its quad, whatever the gang has
still in use of it. -/
def lentReserve (s : State) (g : Nat) : Option Place :=
  let p := s.stage (s.gang g).share
  if p.resGang = some g then p.reserve else none

/-- What a gang on its quad holds of it: its place, or the reserve that is lent to it. -/
def heldPlace (s : State) (g : Nat) : Place :=
  match lentReserve s g with
  | some r => { placeOf s g with wgs := r.wgs }
  | none => placeOf s g

/-- Image bytes of a node workgroup of a launch, by the bands of its place. -/
def placeBands (r : Place) : Nat := r.wgs.foldl (fun n w => max n w.2.length) 0

/-- Workgroups of a gang that have not retired. -/
def liveWgs (s : State) (g : Nat) : List Nat := (s.gang g).wgs.filter fun w => decide ((s.wg w).nbands ≠ 0)

/-- Image bytes of a lent reserve that its gang has no image in. -/
def lentImage (s : State) (g : Nat) : Nat :=
  match lentReserve s g, s.launch (s.gang g).share with
  | some r, some l => imageSize (placeBands r) l.xregs - (liveWgs s g).foldl (fun n w => n + (s.wg w).imageBytes) 0
  | _, _ => 0

/-- What gangs, reservations of cooperative launches and stage reserves use of a quad. Suspended gangs use only room for their
images. -/
def usedFor (s : State) (but : Option Nat) (quad : Nat) : Used :=
  let take (u : Used) (p : Nat × Gang) : Used :=
    let v := u.add ((s.csm p.1).lsize / 65536) (p.2.arows / 128) (heldPlace s p.1)
    { v with res := v.res + lentImage s p.1 }
  let u := s.gangs.foldl (fun u p => if p.2.quad = quad ∧ p.2.suspended = false then take u p else u)
    { Used.none with imgs := imagesOn s quad }
  let hold (l : Launch) (u : Used) (r : Place) : Used :=
    if r.quad = quad then u.hold l.lsize l.arows (imageSize (placeBands r) l.xregs) r else u
  let v := s.launches.foldl (fun u p => p.2.resv.foldl (hold p.2) u) u
  (reserves s but).foldl (fun u p => hold p.2.1 u p.2.2) v

def usedOn (s : State) (quad : Nat) : Used := usedFor s none quad

/-- A free piece of n bytes in [lo, hi), aligned, clear of those taken: the lowest. -/
def freePiece (lo hi align n : Nat) (taken : List (Nat × Nat)) : Option Nat :=
  let up (a : Nat) : Nat := (a + align - 1) / align * align
  ((lo :: taken.map fun t => up (t.1 + t.2)).filter fun a => decide (lo ≤ a ∧ a + n ≤ hi) &&
    taken.all fun t => decide (a + n ≤ t.1) || decide (t.1 + t.2 ≤ a)).foldl (fun m a => match m with
      | some b => some (min a b)
      | none => some a) none

/-- Room for k pieces of n bytes beside those taken and `res` bytes reserved. -/
def roomFor (lo hi align n res : Nat) : Nat → List (Nat × Nat) → Bool
  | 0, taken => decide (taken.foldl (fun a t => a + t.2) res ≤ hi - lo)
  | k + 1, taken =>
    match freePiece lo hi align n taken with
    | some a => roomFor lo hi align n res k ((a, n) :: taken)
    | none => false

/-- Private blocks on a die, and bytes of them that are reserved (R158, R346). -/
def privsOn (s : State) (die : Nat) : List (Nat × Nat) :=
  (s.wgs.filterMap fun p =>
    let n := (s.share p.2.share).psize * p.2.nbands * 32
    if n ≠ 0 ∧ memDie p.2.priv.toNat = some die then some (p.2.priv.toNat, n) else none)

def privsHeld (s : State) (die : Nat) : Nat :=
  let bytes (l : Launch) (r : Place) : Nat := r.wgs.foldl (fun n w => n + l.psize * w.2.length * 32) 0
  let a := s.launches.foldl (fun n p => p.2.resv.foldl (fun n r => if r.quad / 40 = die then n + bytes p.2 r else n) n) 0
  let lent (g : Nat) : Nat :=
    match lentReserve s g, s.launch (s.gang g).share with
    | some r, some l => bytes l r - (liveWgs s g).foldl (fun n w => n + l.psize * (s.wg w).nbands * 32) 0
    | _, _ => 0
  let b := s.gangs.foldl (fun n p => if p.2.quad / 40 = die ∧ p.2.suspended = false then n + lent p.1 else n) a
  (reserves s none).foldl (fun n p => if p.2.2.quad / 40 = die then n + bytes p.2.1 p.2.2 else n) b

/-- First handles of the workgroups of a die (R293). -/
def handleWgs (s : State) (die : Nat) : List Nat :=
  (s.chans.filter fun c => decide (c.1 % 16 = 0) && decide (chanDie s c.1 = die)).map fun c => c.2.handle

/-- The die has room for a gang beside its quads': sixteen handles for each workgroup (R293, log entry 138), and HBM for the
private blocks (R347). -/
def dieRoom (s : State) (die : Nat) (n : Need) : Bool :=
  decide ((handleWgs s die).length + n.nbs.length ≤ 4096) &&
  (decide (n.priv = 0) || roomFor (hbmBase die) (hbmBase die + 2 ^ 36) 128 n.priv (privsHeld s die) n.nbs.length (privsOn s die))

/-- The lowest place for `n` units among `cap`, clear of pieces in use. -/
def firstFit (taken : List (Nat × Nat)) (n cap : Nat) : Option Nat :=
  if n = 0 then some 0
  else (List.range (cap + 1 - n)).find? fun a => taken.all fun t => decide (a + n ≤ t.1) || decide (t.1 + t.2 ≤ a)

/-- The lowest core, not among those given, with room for a workgroup of `nb` bands: core and slots. -/
def coreFit (u : Used) (nb : Nat) (but : List Nat) : Option (Nat × List Nat) :=
  (List.range 4).findSome? fun c =>
    let mine := u.wgs.filter fun w => w.1 = c
    let free := (List.range 64).filter fun b => !(mine.any fun w => w.2.contains b)
    if but.contains c ∨ free.length < nb ∨ 32 ≤ mine.length then none else some (c, free.take nb)

/-- Cores for the workgroups of a gang, in ascending order of position. -/
def coresFit (u : Used) : List Nat → List (Nat × List Nat) → Option (List (Nat × List Nat))
  | [], acc => some acc
  | nb :: l, acc =>
    match coreFit u nb (acc.map (·.1)) with
    | some c => coresFit u l (acc ++ [c])
    | none => none

def quadFit (u : Used) (quad : Nat) (n : Need) : Option Place :=
  if 16 ≤ u.gangs || !roomFor (quadVault quad) (quadVault quad + vaultBytes) 1024 n.img u.res n.nbs.length u.imgs then none
  else match firstFit u.ls n.ls 16, firstFit u.rows n.rows 16, coresFit u n.nbs [] with
    | some b, some r, some ws => some { quad := quad, base := b, abase := r, wgs := ws }
    | _, _, _ => none

/-- The scan of R347 over a launch's usable quads from the placement pointer: the place and the pointer's next value. -/
def scanQuads (use : Nat → Used) (die ptr : Nat) (quads : List Nat) (n : Need) : Option (Place × Nat) :=
  let k := quads.length
  (List.range k).findSome? fun i =>
    let j := (ptr + i) % k
    let q := die * 40 + quads.getD j 0
    (quadFit (use q) q n).map fun p => (p, (j + 1) % k)

/-- The scan on a die as it stands. -/
def findPlace (s : State) (die : Nat) (quads : List Nat) (n : Need) : Option (Place × Nat) :=
  if dieRoom s die n then scanQuads (usedOn s) die (s.fe die).ptr quads n else none

/-- Whether needs fit together on an empty die (R346, R349); the private blocks must fit its HBM. -/
def fitEmpty (die : Nat) (quads : List Nat) : List Need → List (Nat × Used) → Bool
  | [], _ => true
  | n :: l, used =>
    let look (q : Nat) : Used := Map.getD used q Used.none
    match scanQuads look die 0 quads n with
    | none => false
    | some (p, _) => fitEmpty die quads l (Map.put used p.quad ((look p.quad).hold n.ls n.rows n.img p))

/-- Gangs beyond this number never fit a die: 16 barrier slots on each of 40 quads. -/
def dieGangs : Nat := 640

/-- Reason 6 of R349. -/
def shareFits (l : Launch) (die pos d : Nat) (quads : List Nat) : Bool :=
  let count := l.shareGangs pos d
  let n := if l.coop = 0 then min count 1 else count
  let priv := (List.range (min n (dieGangs + 1))).foldl (fun a j =>
    a + (l.need (pos + d * j)).nbs.foldl (fun a nb => a + l.psize * nb * 32) 0) 0
  decide (n ≤ dieGangs) && decide (priv ≤ 2 ^ 36) && fitEmpty die quads ((List.range n).map fun j => l.need (pos + d * j)) []

/-! ### Which launch is served next (R347) -/

/-- The queue or graph of a launch, in the order of the rotation: queues, then graphs. -/
def srcIndex (l : Launch) : Nat :=
  match l.src with
  | .queue q => q % 64
  | .graph g => 64 + g % 32

def shareDieOf (k : Nat) : Nat := k % 16

/-- What a launch has to place next: a formed group of its stage nodes, before its root gangs. -/
inductive Work where
  | gang (g : Nat)
  | group (id : Nat)
deriving DecidableEq, Repr

/-- The first formed group in placement order: highest node, then earliest formation (R326). -/
def firstGroup : List Group → Option Group
  | [] => none
  | g :: l =>
    match firstGroup l with
    | none => some g
    | some h => if g.node < h.node ∨ (g.node = h.node ∧ h.id < g.id) then some h else some g

def dieCount (l : Launch) : Nat := l.group.length

/-- A launch's next work; none where it has nothing to place. -/
def nextWork (s : State) (k : Nat) (l : Launch) : Option Work :=
  if l.phase ≠ .begun ∨ (s.share k).trap.isSome then none
  else match firstGroup (s.stage k).groups with
    | some g => some (.group g.id)
    | none =>
      let pos := (s.share k).dieIndex
      if l.next < l.shareGangs pos (dieCount l) then some (.gang (pos + dieCount l * l.next)) else none

/-- A RALLOC waits on a die's pool of the launch (R321). -/
def rallocWaits (p : Proofer) : Bool := p.reqs.any fun r => r.granted.isNone && !r.expired

/-- The part of a place that a workgroup of `nb` bands takes. -/
def Place.part (p : Place) (nb : Nat) : Place := { p with wgs := p.wgs.map fun w => (w.1, w.2.take nb) }

/-- A place lies in another. -/
def Place.within (p r : Place) : Bool :=
  decide (p.quad = r.quad) && p.wgs.all fun w => r.wgs.any fun v => decide (v.1 = w.1) && w.2.all v.2.contains

/-- Where a launch's next work would go; true where it is the stage reserve, of which a group takes its own bands. -/
def workPlace (s : State) (k : Nat) (l : Launch) : Option (Work × Place × Nat × Bool) :=
  let die := shareDieOf k
  let quads := (s.share k).quads
  match nextWork s k l with
  | none => none
  | some (.gang g) =>
    match l.resv with
    | p :: _ => some (.gang g, p, (s.fe die).ptr, false)
    | [] => (findPlace s die quads (l.need g)).map fun r => (.gang g, r.1, r.2, false)
  | some (.group id) =>
    let p := s.stage k
    let node := match p.groups.find? fun g => g.id = id with
      | some g => g.node
      | none => 0
    match findPlace s die quads (l.nodeNeed (p.groupSize node)) with
    | some r => some (.group id, r.1, r.2, false)
    | none =>
      if rallocWaits p && !reserveBusy s p then
        p.reserve.map fun r => (.group id, r.part (bandsFor (p.groupSize node)), (s.fe die).ptr, true)
      else none

/-- Order of service: higher priority first; among equals those after the source served last. -/
def servedBefore (rr : Nat) (a b : Launch) : Bool :=
  let turn (l : Launch) : Nat := (srcIndex l + 96 - (rr + 1)) % 96
  decide (b.prio < a.prio) || (decide (a.prio = b.prio) && decide (turn a < turn b))

def insertServed (rr : Nat) (x : Nat × Launch) : List (Nat × Launch) → List (Nat × Launch)
  | [] => [x]
  | y :: l => if servedBefore rr x.2 y.2 then x :: y :: l else y :: insertServed rr x l

/-- Launches of a die that have something to place, in the order of service. -/
def servedOrder (s : State) (die : Nat) : List (Nat × Launch) :=
  (s.launches.filter fun p => decide (shareDieOf p.1 = die) && (nextWork s p.1 p.2).isSome).foldr (insertServed (s.fe die).rr) []

/-- A launch that does not fit blocks those of lower priority: from a priority-3 queue, or after 1 ms. -/
def blocks (s : State) (l : Launch) : Bool := decide (l.prio = 3) || decide (l.since + 1000000 ≤ s.timeNs.toNat)

/-- The first launch in order that can be served. -/
def pickServed (s : State) : List (Nat × Launch) → Option Nat → Option (Nat × Launch × Work × Place × Nat × Bool)
  | [], _ => none
  | (k, l) :: rest, bar =>
    if (match bar with
        | some p => decide (l.prio < p)
        | none => false) then none
    else match workPlace s k l with
      | some (w, p, ptr, r) => some (k, l, w, p, ptr, r)
      | none => pickServed s rest (if blocks s l then some l.prio else bar)

/-- The front end dispatches: Ready, its Hinge pair not in recovery (R337, R355), and no reset of the die under way (R415). -/
def feRuns (s : State) (die : Nat) : Bool :=
  decide ((s.fe die).st = 1) && !(s.fe die).recovering && (s.ld die).ending.isNone

def pickWork (s : State) (die : Nat) : Option (Nat × Launch × Work × Place × Nat × Bool) :=
  if feRuns s die then pickServed s (servedOrder s die) none else none

end Sys2Proof.Machine
end

