-- ==== Sys2Proof/Machine/Suspend.lean ====
section
/-! DEFINITION. The end of a gang's stay on its quad: retirement (R105, R293, R329), the context image (R94), suspension
(R206, R236, R286, R288) and discard (R289, R313, R334, R351). -/

namespace Sys2Proof.Machine

/-! ### The context image (R94) -/

/-- A line of 32-bit words, lowest first. -/
def wordLine (ws : List W32) : Line := BitVec.ofNat 512 (ws.foldr (fun w a => w.toNat + 2 ^ 32 * a) 0)
def halves (v : W64) : List W32 := [lo32 v, hi32 v]

/-- The lines of the image that R94 gives a content, but for the registers, as offset and content. -/
def imageLines (s : State) (w : Nat) : List (Nat × Line) :=
  let g := s.wg w
  let fib (b l : Nat) : Fibre := s.fib ((w * 32 + b) * 32 + l)
  let ks (i : Nat) : Line := wordLine ((List.range 16).map fun n => Map.getD g.k (16 * i + n) 0)
  let chs (i : Nat) : Line := wordLine ((List.range 8).flatMap fun n => halves (s.chan (chanKey w (8 * i + n))).reg)
  let band (b : Nat) : List (Nat × Line) :=
    let bd := s.band (w * 32 + b)
    let o := 0x400 + b * 0x400
    ((List.range 4).map fun i => (o + 64 * i, wordLine ((List.range 8).flatMap fun l => halves (fib b (8 * i + l)).pc)))
    ++ ((List.range 2).map fun i => (o + 0x100 + 64 * i, wordLine ((List.range 16).map fun l => (fib b (16 * i + l)).pw)))
    ++ [(o + 0x200, wordLine ((List.range 8).map bd.j ++ (List.range 4).flatMap fun n => halves (bd.ja n))),
        (o + 0x240, wordLine (((List.range 4).flatMap fun n => halves (bd.ja (4 + n))) ++ (List.range 8).map bd.jr))]
  [(0, ks 0), (64, ks 1), (128, chs 0), (192, chs 1)] ++ (List.range g.nbands).flatMap band

/-- Brings a workgroup's image up to date at its home, but for the register lines that its core's cache holds. -/
def writeImage (s : State) (w : Nat) : State :=
  let g := s.wg w
  (imageLines s w).foldl (fun s p =>
    (homeWrite s agentFe ((g.image.toNat + p.1) / 64) (BitVec.allOnes 64) p.2 g.kid 0).getD s) s

/-- The images of suspended gangs follow what still arrives (R206, R208). -/
def refreshImages (s : State) : State :=
  s.gangs.foldl (fun s p => if p.2.suspended then p.2.wgs.foldl writeImage s else s) s

/-! ### Fork sets and copy commands of a gang -/

/-- Copy contexts whose program belongs to a workgroup of the gang. -/
def gangCops (s : State) (g : Nat) : List Nat :=
  (s.cops.filter fun p => decide (p.2.st ≠ .free) && (s.gang g).wgs.contains p.2.wg).map (·.1)

/-- The gang's matrix program holds its quad's sequencer. -/
def gangMat (s : State) (g : Nat) : Bool :=
  let q := (s.gang g).quad
  decide ((s.mseq q).st ≠ .free) && (s.gang g).wgs.contains (s.mseq q).wg

/-- Commands of a workgroup's fibres that are still to be performed. -/
def wgCmds (s : State) (w : Nat) : Bool :=
  s.copyqs.any fun q => q.2.any fun c => match c.owner with
    | .batch k _ => decide (wgOf k = w)
    | .node _ _ => false

/-! ### Retirement (R105) -/

/-- Every operation that a workgroup's fibres issued has been performed, its channels' as well. -/
def wgQuiet (s : State) (w : Nat) : Bool :=
  !wgCmds s w && (List.range 16).all fun n =>
    let c := chanKey w n
    chanIdle s c && (s.chan c).queue.isEmpty && (s.chan c).rels.isEmpty

/-- Streams that are still to be released: of an entry used and not yet released. -/
def openStreams (s : State) (w : Nat) : Bool :=
  (List.range 16).any fun n => (s.chan (chanKey w n)).dests.any fun e => !e.fresh && !e.rel

/-- The L1 lines of a workgroup's private block leave its core, without write-back (R102, R104). -/
def dropPrivLines (s : State) (w : Nat) : State :=
  let g := s.wg w
  let n := (s.share g.share).psize * g.nbands * 32
  s.updCore g.core fun c => { c with l1 := c.l1.filter fun p =>
    !(p.2.priv && decide (g.priv.toNat ≤ 64 * p.1) && decide (64 * p.1 < g.priv.toNat + n)) }

/-- Takes a workgroup's bands with their register lines, its private lines, its fibres and its channels away; its record
stays until its gang retires. The handles are free at once and no stream is released (DESIGN CHOICE, log entry 162). -/
def dropWg (s0 : State) (w : Nat) : State :=
  let s1 := (List.range (s0.wg w).nbands).foldl (fun s b => leaveSlot s (w * 32 + b)) s0
  let s := (List.range ((s0.wg w).nbands * 4)).foldl (fun s i => dropRegs s (w * 32 + i / 4) (i % 4)) (dropPrivLines s1 w)
  { s.updWg w (fun g => { g with nbands := 0 }) with
    fibres := s.fibres.filter fun p => wgOf p.1 ≠ w
    bands := s.bands.filter fun p => p.1 / 32 ≠ w
    chans := s.chans.filter fun p => p.1 / 16 ≠ w
    engs := Map.mapVals (fun e => { e with jobs := e.jobs.filter fun j => j.chan / 16 ≠ w }) s.engs
    invs := s.invs.filter fun i => match i.fib with
      | some k => wgOf k ≠ w
      | none => true }

/-- Channel errors counted beyond each channel's first (R309). -/
def wgErrs (s : State) (w : Nat) : Nat := (List.range 16).foldl (fun a n => a + (s.chan (chanKey w n)).errs) 0

/-- Releases every stream of a workgroup, so that its handles can be freed (R293, R294). -/
def releaseStreams (s : State) (w : Nat) : State :=
  (List.range 16).foldl (fun s n =>
    let c := chanKey w n
    (releaseAll s c).updChan c fun x => { x with dests := x.dests.map fun e => if e.fresh then e else { e with rel := true } }) s

/-- A gang leaves: its casement words go to their homes, its record and its room are gone. None while a write-back must
wait. -/
def retireGang (s : State) (g : Nat) : Option State :=
  (csmDrainAll s g).map fun s1 =>
    let s2 := (slotsOf s1 g).foldl (fun s sl => closeSlot s g sl) s1
    let x := s2.gang g
    let s3 := s2.updStage x.share fun p =>
      if p.resGang = some g then { p with resGang := none } else p
    { s3 with gangs := Map.del s3.gangs g, csms := Map.del s3.csms g, wgs := s3.wgs.filter fun w => !x.wgs.contains w.1 }

/-- WORKGROUP_RETIREMENT (R105): a workgroup all of whose fibres have exited first releases its streams, then retires;
with the gang's last workgroup and program the gang retires. -/
def execWorkgroupRetirement (w : Nat) (s : State) : Host.Outcome State Fault Refusal :=
  let g := (s.wg w).gang
  let gangDone (s : State) : Option State :=
    if ((s.gang g).wgs.all fun v => decide ((s.wg v).nbands = 0)) && !gangMat s g && (gangCops s g).isEmpty then retireGang s g
    else some s
  if !Map.has s.wgs w || !(s.liveFibs w).isEmpty || (s.gang g).suspended then .next s
  else if (s.wg w).nbands = 0 then .next ((gangDone s).getD s)
  else if !wgQuiet s w then .next s
  else if openStreams s w then .next (releaseStreams s w)
  else
    let k := (s.wg w).share
    let s1 := (freeRuns s w).updLaunch k fun l => { l with cherr := l.cherr + wgErrs s w }
    let last := (s.gang g).wgs.all fun v => decide (v = w) || decide ((s.wg v).nbands = 0)
    if last && !gangMat s g && (gangCops s g).isEmpty then
      .next ((retireGang (dropWg s1 w) g).getD s)
    else .next (dropWg s1 w)

/-! ### The matrix program (R286, R288) -/

/-- Pins of suspended gangs are named by the gang. -/
def savedPin (g : Nat) : Nat := 100000 + g

/-- Renames the pins of a program's slots at their homes. -/
def renamePins (s : State) (m : Mat) (old new : Nat) : State :=
  m.slots.foldl (fun s t => t.2.pins.foldl (fun s ln =>
    s.setHome ln { s.home ln with pins := (s.home ln).pins.map fun p => if p = (old, t.1) then (new, t.1) else p }) s) s

def matPins (m : Mat) : Nat := m.slots.foldl (fun n t => n + t.2.pins.length) 0

/-- Lines pinned by suspended gangs of a die. -/
def suspendedPins (s : State) (die : Nat) : Nat :=
  s.gangs.foldl (fun n p => if p.2.quad / 40 = die then (match p.2.saved with
    | some x => n + matPins x.2
    | none => n) else n) 0

/-- The fetch that has begun waits for page service or for the pin budget (R286); any other wait ends by itself. -/
def fetchHeld (s : State) (q : Nat) : Bool :=
  match (s.mat q).queue with
  | .fetch _ slot base pitch kb _ dfmt true :: _ =>
    decide (512 ≤ pinnedCount s q)
    || (match (translate s (.eng (tlbTile q)) (q / 40) (s.asidOf (.mat q)) (s.privOf (.mat q))
          (nextPin (tileSlot s q slot) base pitch kb dfmt) .read).2 with
        | .error .page => true
        | _ => false)
  | _ => true

/-- A fetch that has begun and waits for page service or the pin budget gives back its pins and is saved as not begun. -/
def unbeginFetch (s : State) (q : Nat) : State :=
  match (s.mat q).queue with
  | .fetch pc slot base pitch kb keep dfmt true :: rest =>
    (s.emptySlot q slot).updMat q fun m => { m with queue := .fetch pc slot base pitch kb keep dfmt false :: rest, pinWait := 0 }
  | _ => s

/-- Results of a sequencer that are ready are written: a pending MSYNC completes into the save (R286). -/
def landReady (s : State) (t : Thr) : State :=
  ((s.seq t).pend.filter (·.ready)).foldl (fun s p => removePend (s.writePend t p) t p.id) s

/-- Saves the gang's program; none where its pins do not fit the die's count, or where its begun fetch is still to complete.
An MSYNC behind operations that have not begun stays pending with them (R277, R286; DEDUCED, log entry 137). -/
def saveMat (s : State) (g : Nat) : Option State :=
  if !gangMat s g then some s
  else
    let q := (s.gang g).quad
    let s0 := match (s.mat q).queue with
      | .fetch _ _ _ _ _ _ _ true :: _ =>
        (match execTileFetchPerform q s with
         | .next s1 => s1
         | _ => s)
      | _ => s
    let s1 := unbeginFetch s0 q
    if !gangMat s1 g then some s1
    else if !fetchHeld s0 q then none
    else
      let m := s1.mat q
      if 20480 < suspendedPins s1 (q / 40) + matPins m then none
      else
        let s2 := landReady (renamePins s1 m q (savedPin g)) (.mat q)
        let s3 := s2.updGang g fun x => { x with saved := some (s2.mseq q, m) }
        some { s3.setMseq q Seq.reset with mats := Map.del s3.mats q }

/-- Brings a saved program back to the gang's quad; none while its sequencer is busy. -/
def loadMat (s : State) (g : Nat) : Option State :=
  match (s.gang g).saved with
  | none => some s
  | some (m, x) =>
    let q := (s.gang g).quad
    if (s.mseq q).st ≠ .free then none
    else
      let s1 := renamePins s x (savedPin g) q
      let s2 := { s1.setMseq q { m with sp := true } with mats := Map.put s1.mats q x }
      some (s2.updGang g fun y => { y with saved := none })

/-! ### Suspension (R206, R236) -/

/-- Why a gang leaves its quad: it is suspended, or killed (R350, R351), or its die is reset (R415). A kill does not wait for
pushes, pages or the pin count, a reset for nothing. -/
inductive Leave where
  | suspend | kill | reset
deriving DecidableEq, Repr

/-- A write-back of a sector waits for the service of its page. -/
def pageAwaited (s : State) (g sl k : Nat) : Bool :=
  match (sectorTr s g sl k .write).2 with
  | .error .page => true
  | _ => false

/-- Writes back every dirty casement word of a gang: none where a page's service or a home (R403) is awaited; a fault with the
address of the sector (R420); an uncorrectable error is reported to the storing fibre (R213). -/
def suspendCsm (g : Nat) (how : Leave) : List (Nat × Nat) → State → Option (State × Option W64)
  | [], s => some (s, none)
  | (sl, k) :: l, s =>
    match csmWb s g sl k with
    | (s1, .ok) => suspendCsm g how l s1
    | (s1, .wait) => if how = .reset ∨ (how = .kill ∧ pageAwaited s g sl k) then suspendCsm g how l s1 else none
    | (s1, .fail 0x13 _) => suspendCsm g how l (csmFailed s1 g sl k 0x13 false)
    | (s1, .fail _ _) => (suspendCsm g how l s1).map fun r => (r.1, some (sectorVa s g sl k))

/-- Asks the homes for which the write-backs of a gang's dirty casement words wait (R403). -/
def csmAsks (s : State) (g : Nat) : State :=
  (dirtySectors (s.csm g)).foldl (fun s d => match csmWb s g d.1 d.2.1 with
    | (s1, .wait) => s1
    | _ => s) s

/-- Every sector of every slot becomes absent, and CE, debt and queue are cleared. -/
def clearCsm (s : State) (g : Nat) : State :=
  ((slotsOf s g).foldl (fun s sl => (clearSharers s g sl).updCsm g fun c =>
    { c with slots := Map.upd c.slots sl fun x => { x with sectors := [] } }) s).updCsm g fun c => { c with ce := 0, debt := [], sent := [], queue := [] }

def gangCores (s : State) (g : Nat) : List Nat :=
  (s.gang g).wgs.foldl (fun l w => if (s.wg w).nbands = 0 then l else insNat (s.wg w).core l) []

def gangBands (s : State) (g : Nat) : List Nat :=
  (s.gang g).wgs.flatMap fun w => (List.range (s.wg w).nbands).map fun b => w * 32 + b

/-- Takes a gang from its quad: the state in which it has left, or what it has sent and asked for while it waits. -/
def suspendGang (s : State) (g : Nat) (how : Leave) : State × Bool :=
  let kill := decide (how ≠ .suspend)
  let s1 := if (s.csm g).out.isEmpty then pushSlots s g (slotsOf s g) else s
  if !pushDone s1 g && !kill then (s1, false)
  else match (if kill then some s1 else saveMat s1 g) with
    | none => (s1, false)
    | some s2 =>
      match suspendCsm g how ((dirtySectors (s2.csm g)).map fun d => (d.1, d.2.1)) s2 with
      | none => (csmAsks s1 g, false)
      | some (s3, bad) =>
        let x := s.gang g
        let s4 := match bad with
          | some va =>
            let e : TrapEnd := ⟨3, 6, x.quad % 40, 0, 0, false, 0, 0, va⟩
            if kill then s3 else s3.endLaunch x.share e
          | none => s3
        let s5 := (gangCores s4 g).foldl coreDrainAll (clearCsm s4 g)
        let s6 := (gangBands s5 g).foldl (fun s b => leaveSlot (bumpSync s b) b) s5
        let s7 := s6.updGang g fun x => { x with suspended := true }
        let s8 := (gangBands s7 g).foldl saveRegs s7
        ((s8.gang g).wgs.foldl (fun s w => if (s.wg w).nbands = 0 then s else writeImage s w) s8, true)

/-! ### Discard (R289, R313, R334, R351) -/

/-- A gang's programs end: queued matrix operations are discarded and pins released; copy programs stop. -/
def killPrograms (s : State) (g : Nat) : State :=
  let q := (s.gang g).quad
  let s1 := if gangMat s g then
      let a := (List.range 8).foldl (fun s t => s.emptySlot q t) s
      { a.setMseq q Seq.reset with mats := Map.del a.mats q }
    else s
  let s2 := match (s1.gang g).saved with
    | some (_, m) => m.slots.foldl (fun s t => t.2.pins.foldl (fun s ln => s.unpin ln (savedPin g, t.1)) s) s1
    | none => s1
  (gangCops s2 g).foldl (fun s c => (s.setCop c { s.cop c with st := .stopped, pend := [] }).settleCop c) s2

/-- Slots that a workgroup holds Reserved, and records that its fibres hold, become Free; its requests are withdrawn. -/
def freeRecords (s : State) (w : Nat) : State :=
  freed (s.updStage (s.wg w).share fun p => { p with
    slots := p.slots.filter fun x => match x.st with
      | .reserved v => v ≠ w
      | .consumed k => wgOf k ≠ w
      | _ => true
    reqs := p.reqs.filter fun r => r.wg ≠ w }) (s.wg w).share

/-- A gang that has left its quad is gone, with its programs, records and room. -/
def discarded (s1 : State) (g : Nat) : State :=
  let x := s1.gang g
  let k := x.share
  let s2 := killPrograms s1 g
  let errs := x.wgs.foldl (fun a w => a + wgErrs s2 w) 0
  let s3 := (x.wgs.foldl freeRecords s2).updLaunch k fun l => { l with cherr := l.cherr + errs }
  let s4 := x.wgs.foldl dropWg s3
  let s5 := s4.updStage k fun p => if p.resGang = some g then { p with resGang := none } else p
  { s5 with gangs := Map.del s5.gangs g, csms := Map.del s5.csms g, wgs := s5.wgs.filter fun w => !x.wgs.contains w.1 }

/-- Gangs of a share. -/
def gangsOf (s : State) (k : Nat) : List Nat := (s.gangs.filter fun p => p.2.share = k).map (·.1)

/-- A gang is pre-empted and its image discarded. None while a casement word of it waits for its home. -/
def discardGang (how : Leave) (s : State) (g : Nat) : Option State :=
  let r := if (s.gang g).suspended then (s, true) else suspendGang s g how
  if r.2 then some (discarded r.1 g) else none

def discardShare (s : State) (k : Nat) (how : Leave) : Option State := forAll (discardGang how) (gangsOf s k) s

end Sys2Proof.Machine
end

