-- ==== Sys2Proof/Machine/Launch.lean ====
section
/-! DEFINITION. Launches on a die: reading a packet and its descriptor, the checks of R349, bindings (R18 to R22), format
regions (R77 to R79), cooperative admission (R346), completion records (R348, R350). -/

namespace Sys2Proof.Machine

/-! ### Stops -/

/-- Why a launch does not go on now: it is refused, with STATUS, REASON and DETAIL, or it waits. -/
inductive LStop where
  | refuse (st rs dt : Nat)
  | wait (line : Ask)
deriving DecidableEq, Repr

abbrev LRes (α : Type) := State × Except LStop α

/-- A read of the front end that the launch needs: an error refuses it. -/
def needRead {α : Type} (r : State × Except FeErr α) (st rs dt : Nat) : LRes α :=
  match r with
  | (s, .ok v) => (s, .ok v)
  | (s, .error (.wait l)) => (s, .error (.wait l))
  | (s, .error _) => (s, .error (.refuse st rs dt))

def lThen {α β : Type} (r : LRes α) (g : State → α → LRes β) : LRes β :=
  match r with
  | (s, .ok v) => g s v
  | (s, .error e) => (s, .error e)

/-- A check that refuses. -/
def lCheck (s : State) (ok : Bool) (st rs dt : Nat) : LRes Unit :=
  if ok then (s, .ok ()) else (s, .error (.refuse st rs dt))

/-! ### The die group (R343, R11) -/

/-- The entries of a table of n, read as a number. -/
def groupEnts (n v : Nat) : List Nat := (List.range n).map fun i => v / 2 ^ (32 * i) % 2 ^ 32

/-- The packages and dies that the entries name, in order. -/
def groupOf (n v : Nat) : List (Nat × Nat) :=
  (groupEnts n v).flatMap fun e => ((List.range 16).filter fun d => (e / 2 ^ (12 + d)) % 2 = 1).map fun d => (e % 4096, d)

/-- An entry with a bit of [31:28] set. -/
def groupBad (n v : Nat) : Bool := (groupEnts n v).any fun e => decide (2 ^ 28 ≤ e)

def Launch.pos (l : Launch) (s : State) (die : Nat) : Option Nat :=
  let i := l.group.findIdx fun p => decide (p = (s.fab.pkgid, die))
  if i < l.group.length then some i else none

/-- Logical package index: packages of the group before a position's. -/
def Launch.pkgIdx (l : Launch) (pos : Nat) : Nat :=
  let me := (l.group.getD pos (0, 0)).1
  (((l.group.map (·.1)).take pos).foldl (fun a p => if a.contains p then a else a ++ [p]) []).findIdx (· = me)

/-- The launch spans packages. -/
def Launch.away (l : Launch) (s : State) : Bool := l.group.any fun p => decide (p.1 ≠ s.fab.pkgid)

/-! ### Bindings (R18 to R22) -/

/-- Copy engines in service, in rising order. -/
def usableEngines (s : State) (die : Nat) : List Nat := (List.range 4).filter fun e => !(s.unit (unitCopy die e)).retired

/-- Contexts of an engine that are in use. -/
def busyContexts (s : State) (die e : Nat) : Nat :=
  ((List.range 8).filter fun c => decide ((s.cop ((die * 4 + e) * 8 + c)).st ≠ .free)).length

/-- The engine of MODE 3: fewest busy contexts, lowest index. -/
def idlestEngine (s : State) (die : Nat) : List Nat → Option Nat
  | [] => none
  | e :: l =>
    match idlestEngine s die l with
    | none => some e
    | some f => if busyContexts s die f < busyContexts s die e then some f else some e

/-- A bound entry (R20). -/
def bindWord (kind ring pdie pquad eng lidx pkg : Nat) : W64 :=
  BitVec.ofNat 64 (kind + 128 + ring * 2 ^ 8 + pdie * 2 ^ 16 + pquad * 2 ^ 20 + eng * 2 ^ 32 + lidx * 2 ^ 36 + pkg * 2 ^ 52)

/-- The entry of a selector on a die at a position of the group; none where the binding fails. -/
def bindRole (s : State) (l : Launch) (die pos sel : Nat) : Option W64 :=
  let kind := sel % 8
  let mode := sel / 8 % 4
  let value := sel / 256
  let pkg := s.fab.pkgid
  let quads := usableQuads s die
  if !legalRole kind mode ∨ sel / 32 % 8 ≠ 0 then none
  else match kind with
    | 0 => some 0
    | 1 =>
      let n := l.group.length
      let i : Nat := if mode = 0 then pos else if mode = 1 then value else (((pos : Int) + sext value 8) % (n : Int)).toNat
      if i < n then
        let p := l.group.getD i (0, 0)
        some (bindWord 1 0 p.2 0 0 i p.1)
      else none
    | 4 =>
      if mode = 1 then
        (if value < 4 ∧ (usableEngines s die).contains value then some (bindWord 4 0 die 0 value value pkg) else none)
      else (idlestEngine s die (usableEngines s die)).map fun e => bindWord 4 0 die 0 e e pkg
    | 5 => some (bindWord 5 0 die 0 0 0 pkg)
    | 6 => some (bindWord 6 value die 0 0 0 pkg)
    | k =>
      if mode = 0 then some (bindWord k 0 die 0 0 0 pkg)
      else if value < quads.length then some (bindWord k 0 die (quads.getD value 0) 0 value pkg) else none

/-- The bound table, or the first role that does not bind. -/
def bindAll (s : State) (l : Launch) (die pos : Nat) : List Nat → Map W64 → Except Nat (Map W64)
  | [], m => .ok m
  | n :: ns, m =>
    match bindRole s l die pos (l.role n) with
    | none => .error n
    | some w => bindAll s l die pos ns (if w = 0 then m else Map.put m n w)

/-! ### Format regions (R77 to R79) -/

/-- Blocks of a range. -/
def blockCount (fmt len : Nat) : Nat := (len + blockBytes fmt - 1) / blockBytes fmt

def enabledOn (s : State) (die : Nat) (but : Nat) : List Frr :=
  ((List.range 16).filter fun n => decide (n ≠ but)).map (s.frr die) |>.filter Frr.en

/-- The first check of R78 that a region's registers fail; 0 where none does. -/
def regionCheck (s : State) (die n fmt : Nat) (blk16 : Bool) (base limit scale : Nat) : Nat :=
  let overlap (lo hi : Nat) : Bool := (enabledOn s die n).any fun r => decide (lo < r.limit.toNat) && decide (r.base.toNat < hi)
  let k := blockCount fmt (limit - base)
  if blk16 ≠ decide (fmt = 0x1C ∨ fmt = 0x1D) then 1
  else if limit ≤ base then 2
  else if !inDieMem die base limit then 3
  else if overlap base limit then 4
  else if isBlockFmt fmt && (!inDieMem die scale (scale + k) || overlap scale (scale + k)
      || (decide (scale < limit) && decide (base < scale + k))) then 5
  else 0

/-- FRR_CTL with EN, FORMAT and BLK16. -/
def frrCtl (en : Bool) (ecode fmt : Nat) (blk16 : Bool) : W64 :=
  BitVec.ofNat 64 ((if en then 2 ^ 31 else 0) + (if ecode ≠ 0 then 2 ^ 30 + ecode * 2 ^ 20 else 0) + (if blk16 then 2 ^ 16 else 0) + fmt * 2 ^ 8)

/-- Writes back and invalidates the L2 lines of a range; none while a line must wait. -/
def flushRange (s : State) (lo hi : Nat) : Option State :=
  forAll evictL2 ((s.mem.home.filter fun p => p.2.l2.isSome && decide (lo < 64 * p.1 + 64) && decide (64 * p.1 < hi)).map (·.1)) s

/-- The physical base of a range that is present and contiguous, page by page. -/
def feRange (c : FeCtx) : Nat → W64 → Nat → Option Nat → State → State × Except FeErr Nat
  | 0, _, _, e, s => (s, .ok (e.getD 0))
  | fuel + 1, va, n, expect, s =>
    match feTrPresent s c va .read with
    | (s1, .error e) => (s1, .error e)
    | (s1, .ok (_, pa)) =>
      if expect.isSome ∧ expect ≠ some pa then (s1, .error .fault)
      else
        let m := 4096 - va.toNat % 4096
        if n ≤ m then (s1, .ok pa)
        else match feRange c fuel (va + BitVec.ofNat 64 m) (n - m) (some (pa + m)) s1 with
          | (s2, .error e) => (s2, .error e)
          | (s2, .ok _) => (s2, .ok pa)

def Launch.ctx (l : Launch) (die : Nat) : FeCtx := { die := die, asid := l.asid, priv := l.priv }

/-- Step 1 of R79: every request with the physical addresses of its range and of its scale array. -/
def fmtRanges (l : Launch) (die : Nat) : List Nat → State → LRes (List (Nat × Nat × Nat))
  | [], s => (s, .ok [])
  | i :: is, s =>
    let r := l.fmtReq i
    let c := l.ctx die
    lThen (needRead (feRange c (r.len / 4096 + 2) r.va r.len none s) 4 0 (i * 16 + 6)) fun s1 pa =>
      let k := if isBlockFmt r.fmt then blockCount r.fmt r.len else 0
      let sc : LRes Nat := if isBlockFmt r.fmt then needRead (feRange c (k / 4096 + 2) r.scale k none s1) 4 0 (i * 16 + 6)
        else (s1, .ok 0)
      lThen sc fun s2 spa => lThen (fmtRanges l die is s2) fun s3 rest => (s3, .ok ((i, pa, spa) :: rest))

/-- Step 2 of R79: a request whose first byte is homed on no die of the group in this package. -/
def fmtAway (s : State) (l : Launch) (r : Nat × Nat × Nat) : Bool :=
  match memDie r.2.1 with
  | none => true
  | some d => !l.group.contains (s.fab.pkgid, d)

/-- Steps 1 and 2 of R79: the requests that belong to the die. -/
def fmtPlaces (l : Launch) (die : Nat) (is : List Nat) (s : State) : LRes (List (Nat × Nat × Nat)) :=
  lThen (fmtRanges l die is s) fun s1 rs =>
    match rs.find? (fmtAway s1 l) with
    | some r => (s1, .error (.refuse 4 0 (r.1 * 16 + 7)))
    | none => (s1, .ok (rs.filter fun r => decide (memDie r.2.1 = some die)))

/-- Regions of a die that no launch holds and that are not enabled. -/
def freeRegions (s : State) (die : Nat) : List Nat :=
  (List.range 16).filter fun n => !(s.frr die n).en && (s.frr die n).owner.isNone

def setFrr (s : State) (die n : Nat) (r : Frr) : State := s.updMem fun m => { m with frr := Map.put m.frr (die * 16 + n) r }

/-- Step 4 of R79 for one request: the region is written and enabled. -/
def takeRegion (s : State) (k die n : Nat) (r : FmtReq) (pa spa : Nat) : LRes Unit :=
  match flushRange s pa (pa + r.len) with
  | none => (s, .error (.wait none))
  | some s1 =>
    let base := pa / 4096 * 4096
    let limit := (pa + r.len) / 4096 * 4096
    let scale := spa / 64 * 64
    let e := regionCheck s1 die n r.fmt r.blk16 base limit scale
    (setFrr s1 die n { ctl := frrCtl (decide (e = 0)) e r.fmt r.blk16, base := BitVec.ofNat 64 base, limit := BitVec.ofNat 64 limit,
                       scale := BitVec.ofNat 64 scale, owner := some k }, if e = 0 then .ok () else .error (.refuse 4 0 e))

def takeRegions (l : Launch) (k die : Nat) : List (Nat × Nat × Nat × Nat) → State → LRes Unit
  | [], s => (s, .ok ())
  | (n, i, pa, spa) :: rest, s =>
    let took (s : State) : State := s.updLaunch k fun x => { x with frrs := x.frrs ++ [(n, pa, pa + (l.fmtReq i).len)] }
    match takeRegion s k die n (l.fmtReq i) pa spa with
    | (s1, .error (.refuse a b e)) => (took s1, .error (.refuse a b (i * 16 + e)))
    | (s1, .error e) => (s1, .error e)
    | (s1, .ok _) => takeRegions l k die rest (took s1)

/-- A share's regions are cleared, the lines of the ranges they were taken for flushed, and the regions freed. -/
def freeRegionsOf (die : Nat) : List (Nat × Nat × Nat) → State → Option State
  | [], s => some s
  | (n, lo, hi) :: ns, s =>
    let r := s.frr die n
    let s1 := setFrr s die n { r with ctl := setField r.ctl 31 31 0, owner := none }
    (flushRange s1 lo hi).bind (freeRegionsOf die ns)

/-! ### The Peephole block (R176) -/

/-- Shadow words of sectors homed on a die are zeroed. -/
def zeroShadow (p : Peep) (die : Nat) : Peep := { p with shadow := p.shadow.filter fun w => memDie (32 * w.1) ≠ some die }

def rangesOk (rs : List (Nat × Nat)) : Bool :=
  (rs.all fun r => decide (r.1 % 32 = 0 ∧ r.2 % 32 = 0) && (match memDie r.1 with
    | some d => inDieMem d r.1 (r.1 + r.2)
    | none => false))
  && (rs.zipIdx.all fun a => rs.zipIdx.all fun b =>
    decide (a.2 = b.2) || decide (a.1.1 + a.1.2 ≤ b.1.1) || decide (b.1.1 + b.1.2 ≤ a.1.1))
  && ((List.range 16).all fun d => decide ((rs.foldl (fun n r => if memDie r.1 = some d then n + r.2 else n) 0) ≤ 2 ^ 28))

/-- What is allocated of a die's vault layer. -/
def vaultTaken (s : State) (die : Nat) : List (Nat × Nat) := (List.range 40).flatMap fun q => imagesOn s (die * 40 + q)

/-- Allocates a shadow array for each range in the vault layer of its home die, 8 bytes for each sector: the lowest free
piece (log entry 147). None where one finds no room. -/
def shadowArrays (s : State) : List (Nat × Nat) → List (Nat × Nat) → Option (List (Nat × Nat))
  | [], got => some got
  | r :: rs, got =>
    let lo := vaultBase ((memDie r.1).getD 0)
    match freePiece lo (lo + 40 * vaultBytes) 64 (r.2 / 32 * 8) (vaultTaken s ((memDie r.1).getD 0) ++ got) with
    | some a => shadowArrays s rs (got ++ [(a, r.2 / 32 * 8)])
    | none => none

/-- The Peephole block of a launch is read and checked; its first share on the package allocates the shadow arrays, each die's
share zeroes its own. -/
def peepBlock (l : Launch) (num die : Nat) (s : State) : LRes Unit :=
  if l.race = 0 then (s, .ok ())
  else lThen (needRead (feWords (l.ctx die) (l.word 9) 18 s) 5 4 0) fun s1 ws =>
    let w (i : Nat) : Nat := (ws.getD i 0).toNat
    let rs := ((List.range 8).map fun i => (w (2 * i), w (2 * i + 1))).filter fun r => r.2 ≠ 0
    let put (p : Peep) : LRes Unit := (s1.updMem fun m => { m with peep := Map.put m.peep num p }, .ok ())
    if !rangesOk rs then (s1, .error (.refuse 5 4 0))
    else match Map.get s1.mem.peep num with
      | some p => put (zeroShadow p die)
      | none => match shadowArrays s1 rs [] with
        | some as => put { mode := l.race, ranges := rs, logBase := BitVec.ofNat 64 (w 16), logCap := w 17, logDie := die,
                           logAsid := l.asid, logPriv := l.priv, shadow := [], arrays := as }
        | none => (s1, .error (.refuse 5 4 0))

/-! ### Stage launches (R317, R319, R321) -/

def noNode : Nat := 0xFFFFFFFF

/-- The pool's pages are present, writable and homed on the die; pages are walked by the size of their leaves. -/
def poolPages (c : FeCtx) : Nat → W64 → Nat → State → LRes Unit
  | 0, _, _, s => (s, .ok ())
  | fuel + 1, va, n, s =>
    lThen (needRead (feTrPresent s c va .write) 5 5 noNode) fun s1 (r : Leaf × Nat) =>
      if memDie r.2 ≠ some c.die then (s1, .error (.refuse 5 5 noNode))
      else
        let m := 2 ^ r.1.lg - va.toNat % 2 ^ r.1.lg
        if n ≤ m then (s1, .ok ()) else poolPages c fuel (va + BitVec.ofNat 64 m) (n - m) s1

/-- Node table, pool and stage reserve. -/
def stageSetup (l : Launch) (k die pos : Nat) (s : State) : LRes Unit :=
  if l.nnodes = 0 then (s, .ok ())
  else match (List.range l.nnodes).find? fun n => !l.nodeOk n with
    | some n => (s, .error (.refuse 5 5 n))
    | none =>
      let base := (l.word 11).toNat
      let size := (l.word 12).toNat
      let nodes := (List.range l.nnodes).map l.node
      let mine := base + pos * size
      let floors := nodes.foldl (fun a n => a + n.group * n.rec') 0
      if base = 0 ∨ base % 65536 ≠ 0 ∨ size % 65536 ≠ 0 ∨ size < 65536 ∨ 2 ^ 34 < size ∨ size < floors then (s, .error (.refuse 5 5 noNode))
      else lThen (poolPages (l.ctx die) (size / 4096 + 1) (BitVec.ofNat 64 mine) size s) fun s1 _ =>
        match findPlace s1 die (s1.share k).quads (l.nodeNeed (nodes.foldl (fun a n => max a n.group) 0)) with
        | none => (s1, .error (.refuse 5 5 noNode))
        | some (p, _) => (s1.setStage k { Proofer.reset with nodes := nodes, base := mine, size := size, reserve := some p }, .ok ())

/-- The checks that follow the format regions (R349, reasons 4 to 6). -/
def lateChecks (l : Launch) (k die pos : Nat) (s : State) : LRes Unit :=
  lThen (peepBlock l (k / 16) die s) fun s1 _ =>
    lThen (stageSetup l k die pos s1) fun s2 _ =>
      lCheck s2 (shareFits l die pos l.group.length (s2.share k).quads) 5 6 0

/-! ### Messages between front ends (R345, R346, R350) -/

def posPlace (p : Nat × Nat) : Nat := p.1 * 16 + p.2

def feSend (s : State) (die dst : Nat) (kind : Nat) (id : W64) (pos : Nat) : State :=
  netSend s (diePlace s die) dst (.coord ⟨kind, id, pos⟩)

/-- Positions that are admitted together with a position: at COOP 4 those of its package, at COOP 5 all. -/
def Launch.peers (l : Launch) (pos : Nat) : List Nat :=
  (List.range l.group.length).filter fun i => decide (l.coop = 5 ∨ (l.group.getD i (0, 0)).1 = (l.group.getD pos (0, 0)).1)

/-- The coordinator's position: the lowest of them. -/
def Launch.coordinator (l : Launch) (pos : Nat) : Nat := (l.peers pos).headD 0

/-- Sends a message of a kind to every position admitted together but the die's own. -/
def tellPeers (s : State) (l : Launch) (die pos kind : Nat) : State :=
  ((l.peers pos).filter (· ≠ pos)).foldl (fun s i => feSend s die (posPlace (l.group.getD i (0, 0))) kind l.id pos) s

/-- A die that will not run a coordinated share says so. -/
def tellRefusal (s : State) (l : Launch) (die pos : Nat) : State :=
  if l.coop < 4 then s
  else if l.coordinator pos = pos then tellPeers s l die pos 3
  else feSend s die (posPlace (l.group.getD (l.coordinator pos) (0, 0))) 2 l.id pos

/-! ### The end of a share (R348) -/

/-- Word 0 of a record for an end without a trap; SOURCE is 3, none (log entry 43). -/
def plainWord (st rs cherr : Nat) : W64 := BitVec.ofNat 64 (st + 3 * 2 ^ 34 + rs * 2 ^ 36 + min cherr (2 ^ 24 - 1) * 2 ^ 40)

def trapWord (die : Nat) (t : TrapEnd) (cherr : Nat) : W64 :=
  BitVec.ofNat 64 (2 + t.code % 256 * 2 ^ 8 + die * 2 ^ 16 + t.quad * 2 ^ 20 + t.core % 4 * 2 ^ 26 + t.lane % 32 * 2 ^ 28
    + (if t.inHandler then 2 ^ 33 else 0) + t.who % 4 * 2 ^ 34 + min cherr (2 ^ 24 - 1) * 2 ^ 40)

/-- The words of a share's record. -/
def recordWords (die : Nat) (l : Launch) (trap : Option TrapEnd) (st rs dt : Nat) : List W64 :=
  match trap with
  | some t => [trapWord die t l.cherr, t.pc, t.addr, join64 t.info 0]
  | none => [plainWord st rs l.cherr, 0, 0, join64 0 (BitVec.ofNat 32 dt)]

/-- Writes the record of a die at its position; a die without one raises the error interrupt instead. -/
def putRecord (s : State) (l : Launch) (die : Nat) (trap : Option TrapEnd) (st rs dt : Nat) : Option State :=
  if l.silent then some s
  else match l.pos s die with
    | none => some (s.errIrq die)
    | some p => feRecord s (l.ctx die) (l.signal + BitVec.ofNat 64 (32 * p)) (recordWords die l trap st rs dt)

/-- What the write of a share's record would have to ask its home for (R403). -/
def recordAsk (s : State) (k : Nat) : Ask :=
  match s.launch k with
  | none => none
  | some l =>
    let die := shareDieOf k
    match l.pos s die with
    | none => none
    | some p => match feTr s (l.ctx die) (l.signal + BitVec.ofNat 64 (32 * p)) .write with
      | (_, .ok (_, pa)) => some (pa / 64, .write)
      | _ => none

/-- The end of a share, or its waiting: the homes of its gangs' dirty casement words and of its record are asked (R403). -/
def orAsk (s : State) (k : Nat) (r : Option State) : State :=
  r.getD ((gangsOf s k).foldl csmAsks (askFor s (recordAsk s k)))

/-- A graph's run ends: with an error at its current node, or with none and a run counted; a latched trigger starts the
next run where the graph is still armed (R353, R354). -/
def Graph.endRun (g : Graph) (err : Nat) : Graph :=
  let runs := bitsN g.stat.toNat 31 0
  let c0 := setField (setField g.ctl 2 2 0) 47 40 err
  let c1 := if err = 0 then c0 else setField c0 30 24 g.node
  let h := { g with ctl := setField c1 3 3 0, stat := if err = 0 then setField g.stat 31 0 (runs + 1) else g.stat, wait := .none }
  if !grLatch g.ctl then h else if grArmed g.ctl then h.start else h.drop

/-- What a queue's state becomes as its launches end (R339, R351). A WAITVALUE packet that has begun goes on where the queue is
disabled, and is abandoned where it is destroyed. -/
def settleQueue (s : State) (k : Nat) : State :=
  let q := s.queue k
  let mine := s.launches.any fun p => decide (shareDieOf p.1 = k / 64) && decide (p.2.src = .queue k)
  let st := qState q.ctl
  if st = 3 ∨ q.disabling then
    if mine then s
    else s.setQueue k { q with
      ctl := setField (qSetState q.ctl 0) 0 0 0, disabling := false, kill := false, cur := none
      body := if st = 3 then [] else q.body }
  else if st = 1 ∨ st = 2 then s.setQueue k { q with ctl := qSetState q.ctl (if mine ∨ q.ridx ≠ q.widx ∨ !q.body.isEmpty then 2 else 1) }
  else s

/-- The front end of a source learns that a share has ended; a refusal ends a graph's run with error 4 (R353). -/
def settleSrc (s : State) (src : LaunchSrc) (k : Nat) (refused : Bool) : State :=
  match src with
  | .queue q => settleQueue s q
  | .graph g => if refused ∧ (s.graph g).wait = .launch k then s.updGraph g fun x => x.endRun 4 else s

def dieCores (s : State) (die : Nat) : List Nat := (s.cores.filter fun p => decide (p.1 / 160 = die)).map (·.1)

/-- A share ends: its writes are made visible, its record is written, its regions and its state go. None while something
must wait. -/
def finishShare (s : State) (k : Nat) (trap : Option TrapEnd) (st rs dt : Nat) : Option State :=
  match s.launch k with
  | none => some s
  | some l =>
    let die := shareDieOf k
    let s1 := (dieCores s die).foldl coreDrainAll s
    match freeRegionsOf die l.frrs s1 with
    | none => none
    | some s2 =>
      (putRecord s2 l die trap st rs dt).map fun s3 =>
        let rest := Map.del s3.shares k
        let last := !(rest.any fun p => decide (p.1 / 16 = k / 16))
        let s4 := { s3 with launches := Map.del s3.launches k, shares := rest, stages := Map.del s3.stages k }
        let s5 := if last then s4.updMem fun m => { m with peep := Map.del m.peep (k / 16) } else s4
        settleSrc (s5.updFe die fun f => { f with ended := l.id :: f.ended.filter fun i => decide (i ≠ l.id) }) l.src k
          (decide (3 ≤ st ∧ st ≠ 6))

/-- A refusal (R349), with its consequences for a coordinated launch. -/
def refuseShare (s : State) (k st rs dt : Nat) : Option State :=
  match s.launch k with
  | none => some s
  | some l =>
    let die := shareDieOf k
    (finishShare s k none st rs dt).map fun s1 =>
      match l.pos s1 die with
      | some p => tellRefusal s1 l die p
      | none => s1

/-! ### Reading and checking a packet (R349) -/

/-- Where a launch comes from: its queue or graph, with priority, privilege and address space. -/
structure LFrom where
  src : LaunchSrc
  prio : Nat
  priv : Bool
  asid : Nat
deriving DecidableEq, Repr

def Launch.new (f : LFrom) (words : List W64) : Launch :=
  { src := f.src, prio := f.prio, priv := f.priv, asid := f.asid, words := words, desc := [], group := [], phase := .waiting, next := 0,
    resv := [], frrs := [], fmts := [], formats := false, reports := [], since := 0, status := 0, reason := 0, detail := 0, cherr := 0,
    silent := false }

/-- The number of a launch: that of a live share with the same LAUNCH_ID on another die, else a new one. -/
def launchNo (s : State) (die : Nat) (id : W64) : Nat :=
  match s.launches.find? fun p => decide (p.2.id = id ∧ shareDieOf p.1 ≠ die) && !Map.has s.launches (p.1 / 16 * 16 + die) with
  | some p => p.1 / 16
  | none => s.nextId

/-- The share that a launch begins. -/
def newShare (s : State) (l : Launch) (k die pos : Nat) (b : Map W64) : Share :=
  { launch := k / 16, die := die, asid := l.asid, entry := l.entry, handler := l.handler, watchdog := (l.word 13).toNat,
    bartimeout := (l.word 14).toNat, stall := (l.word 15).toNat, psize := l.psize, gridx := BitVec.ofNat 32 l.gridx,
    gridy := BitVec.ofNat 32 l.gridy, gridz := BitVec.ofNat 32 l.gridz, gangSize := l.gangSize, dieIndex := pos,
    pkgIndex := l.pkgIdx pos, quads := usableQuads s die, binding := b, trap := none }

/-- The early checks of R349, up to the format requests; the launch is entered as share `k`. -/
def earlyChecks (k die : Nat) (graph : Bool) (l0 : Launch) (s0 : State) : LRes Launch :=
  let enter (s : State) (l : Launch) : State :=
    (s.setLaunch k l).updFe die fun f => { f with ended := f.ended.filter fun i => decide (i ≠ l.id) }
  let c := l0.ctx die
  -- the group is needed before a refusal can be recorded
  match needRead (feRead c (l0.dgcount / 16 + 2) (l0.word 8) (4 * min l0.dgcount 4096) s0) 5 1 0 with
  | (s1, .error e) => (enter s1 l0, .error e)
  | (s1, .ok v) =>
    let n := min l0.dgcount 4096
    let l1 := { l0 with group := groupOf n v }
    if groupBad n v then (enter s1 l1, .error (.refuse 5 1 0))
    else
      match needRead (feWords c l1.kdesc 224 s1) 5 1 0 with
      | (s2, .error e) => (enter s2 l1, .error e)
      | (s2, .ok ds) =>
        let l2 := { l1 with desc := ds }
        let s3 := enter s2 l2
        let out : Option LStop :=
          if !l2.packetOk || !l2.headOk || !l2.fmtsOk then some (.refuse 5 1 0)
          else match l2.casement 0 with
            | .error i => some (.refuse 5 1 i)
            | .ok _ =>
              if l2.featureOff (s3.fe die).en0 graph (l2.away s3) then some (.refuse 5 2 0)
              else match l2.pos s3 die with
                | none => some (.refuse 5 3 0)
                | some _ =>
                  if l2.group.any fun p => decide (p.1 = s3.fab.pkgid ∧ (s3.fe p.2).st = 2) then some (.refuse 5 3 0) else none
        match out with
        | some e => (s3, .error e)
        | none =>
          let pos := (l2.pos s3 die).getD 0
          match bindAll s3 l2 die pos (List.range l2.nroles) [] with
          | .error n => (s3, .error (.refuse 3 0 n))
          | .ok b =>
            let s4 := s3.setShare k (newShare s3 l2 k die pos b)
            lThen (fmtPlaces l2 die (List.range l2.nfmt) s4) fun s5 fs =>
              let l3 := { l2 with fmts := fs, formats := fs.isEmpty }
              if fs.isEmpty then lThen (lateChecks l3 k die pos (enter s5 l3)) fun s6 _ => (s6, .ok l3)
              else (enter s5 l3, .ok l3)

/-- What beginning a launch came to. -/
inductive Begun where
  | wait (line : Ask)
  | refused (s : State)
  | begun (s : State) (k : Nat)

/-- Parses and begins a launch on a die; nothing has changed where it waits. -/
def beginLaunch (s : State) (die : Nat) (f : LFrom) (words : List W64) : Begun :=
  let l := Launch.new f words
  let n := launchNo s die l.id
  let k := n * 16 + die
  let graph := match f.src with
    | .graph _ => true
    | .queue _ => false
  match earlyChecks k die graph l { s with nextId := if n = s.nextId then n + 1 else s.nextId } with
  | (s1, .ok _) => .begun s1 k
  | (_, .error (.wait x)) => .wait x
  | (s1, .error (.refuse st rs dt)) =>
    match refuseShare s1 k st rs dt with
    | none => .wait (recordAsk s1 k)
    | some s2 => .refused s2

/-! ### Queues (R340, R342) -/

/-- No slot of a share's pool is used (R332); a group's slots are Grouped. -/
def stageDone (s : State) (k : Nat) : Bool := (s.stage k).slots.isEmpty && (s.stage k).groups.isEmpty

/-- Every gang and node group of a launch has been placed (R340). -/
def dispatched (s : State) (k : Nat) : Bool :=
  match s.launch k with
  | none => true
  | some l =>
    decide (l.phase = .ended) || decide (l.phase = .killed)
    || (decide (l.phase = .begun) && decide (l.shareGangs (s.share k).dieIndex (dieCount l) ≤ l.next)
      && (decide (l.nnodes = 0) || (stageDone s k && (gangsOf s k).isEmpty)))

/-- What stands next in a queue. -/
inductive Pkt where
  | none
  | wait (line : Ask)
  | bad (err : Nat)
  | pkt (type : Nat) (order : Bool) (words : List W64)

def ringAddr (q : Queue) (i : W32) : Nat :=
  bitsN q.base.toNat 51 8 * 256 + 64 * (i.toNat % 2 ^ qSize q.ctl)

/-- Reads n slots from slot i on. -/
def readSlots (die : Nat) (q : Queue) : Nat → W32 → State → State × Except FeErr (List W64)
  | 0, _, s => (s, .ok [])
  | n + 1, i, s =>
    match fePhys die 8 (ringAddr q i) s with
    | (s1, .error e) => (s1, .error e)
    | (s1, .ok a) =>
      match readSlots die q n (i + 1) s1 with
      | (s2, .error e) => (s2, .error e)
      | (s2, .ok b) => (s2, .ok (a ++ b))

/-- The queue's next packet, where it may begin (R340 to R342). -/
def nextPacket (s : State) (k : Nat) : State × Pkt :=
  let q := s.queue k
  let die := k / 64
  let avail := (q.widx - q.ridx).toNat
  let free := match q.cur with
    | some c => dispatched s c
    | none => true
  if !feRuns s die || !qEn q.ctl || q.disabling || !(decide (qState q.ctl = 1 ∨ qState q.ctl = 2)) || decide (avail = 0) || !free || !q.body.isEmpty then
    (s, .none)
  else match readSlots die q 1 q.ridx s with
    | (s1, .error (.wait l)) => (s1, .wait l)
    | (s1, .error .ecc) => (s1, .bad 4)
    | (s1, .error .fault) => (s1, .bad 5)
    | (s1, .ok a) =>
      let h := (a.getD 0 0).toNat
      let ty := h % 256
      let n := if ty = 1 then 4 else 1
      if 4 < ty ∨ h / 256 % 16 ≠ n ∨ h / 8192 ≠ 0 then (s1, .bad 3)
      else if avail < n then (s1, .none)
      else match readSlots die q n q.ridx s1 with
        | (s2, .error (.wait l)) => (s2, .wait l)
        | (s2, .error .ecc) => (s2, .bad 4)
        | (s2, .error .fault) => (s2, .bad 5)
        | (s2, .ok ws) => (s2, .pkt ty (decide (h / 4096 % 2 = 1)) ws)

/-- A launch of the queue is still on the die. -/
def queueBusy (s : State) (k : Nat) : Bool :=
  s.launches.any fun p => decide (shareDieOf p.1 = k / 64) && decide (p.2.src = .queue k)

/-- The packet has begun (R340). -/
def State.takePacket (s : State) (k n : Nat) (cur : Option Nat) : State :=
  settleQueue (s.updQueue k fun q => { q with ridx := q.ridx + BitVec.ofNat 32 n, cur := cur }) k

/-- PACKET_LAUNCH (R343): the next packet of queue q of a die, a LAUNCH, is parsed, checked and begun or refused. -/
def execPacketLaunch (die q : Nat) (s : State) : Host.Outcome State Fault Refusal :=
  let k := die * 64 + q
  match nextPacket s k with
  | (_, .wait l) => .next (askFor s l)
  | (s1, .pkt 1 order ws) =>
    let x := (s.queue k).ctl
    if order ∧ queueBusy s k then .next s
    else match beginLaunch s1 die { src := .queue k, prio := qPrio x, priv := qPriv x, asid := qAsid x } ws with
      | .wait l => .next (askFor s l)
      | .refused s2 => .next (s2.takePacket k 4 none)
      | .begun s2 c => .next (s2.takePacket k 4 (some c))
  | _ => .next s

/-- PACKET_INVALID (R342): the packet that stands next stops its queue. -/
def execPacketInvalid (die q : Nat) (s : State) : Host.Outcome State Fault Refusal :=
  let k := die * 64 + q
  match nextPacket s k with
  | (_, .wait l) => .next (askFor s l)
  | (s1, .bad e) => .next ((s1.updQueue k fun q => { q with ctl := qSetErr (qSetState q.ctl 4) e }).errIrq die)
  | _ => .next s

/-- FORMAT_REGION_TAKE (R79): a share takes the free regions it needs, all at once, and the checks after them follow. -/
def execFormatRegionTake (share : Nat) (s : State) : Host.Outcome State Fault Refusal :=
  match s.launch share with
  | none => .next s
  | some l =>
    let die := shareDieOf share
    let free := freeRegions s die
    if l.formats ∨ l.phase ≠ .waiting ∨ !feRuns s die ∨ free.length < l.fmts.length then .next s
    else
      let r : LRes Unit := lThen (takeRegions l share die (free.zip l.fmts) s) fun s1 _ =>
        lateChecks l share die (s1.share share).dieIndex (s1.updLaunch share fun x => { x with formats := true })
      match r with
      | (s1, .ok _) => .next s1
      | (_, .error (.wait x)) => .next (askFor s x)
      | (s1, .error (.refuse st rs dt)) => .next (match refuseShare s1 share st rs dt with
        | some s2 => s2
        | none => askFor s (recordAsk s1 share))

/-! ### Admission (R346) -/

/-- Reserves places for the gangs of a cooperative share while they fit; the fuel bounds their number. -/
def reserveMore (k : Nat) : Nat → State → State
  | 0, s => s
  | n + 1, s =>
    match s.launch k with
    | none => s
    | some l =>
      let d := dieCount l
      let j := l.resv.length
      let h := s.share k
      if l.shareGangs h.dieIndex d ≤ j then s
      else match findPlace s (shareDieOf k) h.quads (l.need (h.dieIndex + d * j)) with
        | none => s
        | some (p, ptr) =>
          reserveMore k n ((s.updLaunch k fun x => { x with resv := x.resv ++ [p] }).updFe (shareDieOf k) fun f => { f with ptr := ptr })

/-- A coordinator that has every report begins, and tells the others. -/
def coordCheck (s : State) (k : Nat) : State :=
  match s.launch k with
  | none => s
  | some l =>
    let pos := (s.share k).dieIndex
    if l.phase = .whole ∧ l.coordinator pos = pos ∧ (l.peers pos).all fun i => l.reports.contains i then
      tellPeers (s.updLaunch k fun x => { x with phase := .begun }) l (shareDieOf k) pos 1
    else s

/-- A share whose reservation is whole begins, or reports. -/
def whole (s : State) (k : Nat) : State :=
  match s.launch k with
  | none => s
  | some l =>
    let pos := (s.share k).dieIndex
    if l.resv.length < l.shareGangs pos (dieCount l) then s
    else if l.coop = 3 then s.updLaunch k fun x => { x with phase := .begun, since := s.timeNs.toNat }
    else
      let s1 := s.updLaunch k fun x => { x with phase := .whole, reports := insNat pos x.reports }
      if l.coordinator pos = pos then coordCheck s1 k
      else feSend s1 (shareDieOf k) (posPlace (l.group.getD (l.coordinator pos) (0, 0))) 0 l.id pos

/-- LAUNCH_DISPATCH_BEGIN (R346): START is reached; a cooperative share reserves what has become free. -/
def execLaunchDispatchBegin (share : Nat) (s : State) : Host.Outcome State Fault Refusal :=
  match s.launch share with
  | none => .next s
  | some l =>
    let die := shareDieOf share
    if !feRuns s die || !l.formats || decide (s.timeNs < l.start) then .next s
    else if l.phase = .waiting ∧ l.coop = 0 then
      .next (s.updLaunch share fun x => { x with phase := .begun, since := s.timeNs.toNat })
    else if l.phase = .waiting ∨ l.phase = .reserving then
      .next (whole (reserveMore share dieGangs (s.updLaunch share fun x => { x with phase := .reserving })) share)
    else .next s

/-- The share of a die that a LAUNCH_ID names. -/
def shareById (s : State) (die : Nat) (id : W64) : Option (Nat × Launch) :=
  s.launches.find? fun p => decide (shareDieOf p.1 = die ∧ p.2.id = id)

/-- A coordination message of a kind that has arrived, with the share it concerns. -/
def coordMsg (s : State) (n kind : Nat) : Option (Coord × Nat × Launch) :=
  match arrived s n with
  | some { dst := dst, msg := .coord c, .. } =>
    if c.kind = kind then (shareById s (dst % 16) c.launch).map fun p => (c, p.1, p.2) else none
  | _ => none

/-- A coordination message that has arrived for a share that has ended: it changes nothing any more (R350, log entry 86). -/
def dropEnded (s : State) (n : Nat) : State :=
  match arrived s n with
  | some { dst := dst, msg := .coord c, .. } =>
    if (shareById s (dst % 16) c.launch).isNone && (s.fe (dst % 16)).ended.contains c.launch then takeMsg s n else s
  | _ => s

def execCoopReport (n : Nat) (s : State) : Host.Outcome State Fault Refusal :=
  match coordMsg s n 0 with
  | some (c, k, _) => .next (coordCheck ((takeMsg s n).updLaunch k fun x => { x with reports := insNat c.die x.reports }) k)
  | none => .next (dropEnded s n)

def execCoopBegin (n : Nat) (s : State) : Host.Outcome State Fault Refusal :=
  match coordMsg s n 1 with
  | some (_, k, l) =>
    if l.phase = .whole then .next ((takeMsg s n).updLaunch k fun x => { x with phase := .begun, since := s.timeNs.toNat })
    else .next (takeMsg s n)
  | none => .next (dropEnded s n)

/-- A die's share ends with STATUS 7: its reservation is released and what it has placed is discarded. -/
def abandonShare (s : State) (k : Nat) : Option State := (discardShare s k .kill).bind fun s1 => finishShare s1 k none 7 0 0

/-- The coordinator ends the launch on every die it coordinates. -/
def abandonAll (s : State) (k : Nat) (l : Launch) : Option State :=
  (abandonShare s k).map fun s1 => tellPeers s1 l (shareDieOf k) ((l.pos s1 (shareDieOf k)).getD 0) 3

def execCoopRefused (n : Nat) (s : State) : Host.Outcome State Fault Refusal :=
  match coordMsg s n 2 with
  | some (_, k, l) => .next (orAsk s k (abandonAll (takeMsg s n) k l))
  | none => .next (dropEnded s n)

def execCoopAbandon (n : Nat) (s : State) : Host.Outcome State Fault Refusal :=
  match coordMsg s n 3 with
  | some (_, k, _) => .next (orAsk s k (abandonShare (takeMsg s n) k))
  | none => .next (dropEnded s n)

/-- Cycles that a message may lack a path (R346, R312). -/
def pathLimit : Nat := 2 ^ 24

/-- COOP_MESSAGE_TIMEOUT (R346): a report, begin or refused without a path for 2^24 cycles counts as refused at the
coordinator, where that is a die of this package. -/
def execCoopMessageTimeout (n : Nat) (s : State) : Host.Outcome State Fault Refusal :=
  match Map.get s.fab.net n with
  | some { src := src, dst := dst, msg := .coord c, path := none } =>
    let die := src % 16
    if 2 < c.kind ∨ src / 16 ≠ s.fab.pkgid ∨ (choosePath s src dst).isSome then .next s
    else match Map.get (s.eng die).noPath dst with
      | none => .next s
      | some t =>
        if s.cycle < t + pathLimit then .next s
        else
          let coord := if c.kind = 1 then src else dst
          let s1 := takeMsg s n
          if coord / 16 ≠ s.fab.pkgid ∨ 65536 ≤ coord then .next s1
          else match shareById s1 (coord % 16) c.launch with
            | none => .next s1
            | some (k, l) => .next (orAsk s k (abandonAll s1 k l))
  | _ => .next s

/-- TRAP_LAUNCH_ID (R350): another die's share of the launch ended by a trap. -/
def execTrapLaunchId (n : Nat) (s : State) : Host.Outcome State Fault Refusal :=
  match coordMsg s n 4 with
  | some (_, k, _) =>
    if (s.share k).trap.isSome then .next (takeMsg s n)
    else .next (orAsk s k ((discardShare (takeMsg s n) k .kill).bind fun s1 => finishShare s1 k none 6 0 0))
  | none => .next (dropEnded s n)

/-- SHARE_COMPLETION (R348, R350): a die's share ends by success, by a trap, or because it was abandoned. -/
def execShareCompletion (share : Nat) (s : State) : Host.Outcome State Fault Refusal :=
  match s.launch share with
  | none => .next s
  | some l =>
    let die := shareDieOf share
    let h := s.share share
    if !feRuns s die then .next s
    else match h.trap with
      | some t =>
        let others := l.group.filter fun p => decide (p ≠ (s.fab.pkgid, die))
        let tell (s : State) : State := others.foldl (fun s p => feSend s die (posPlace p) 4 l.id h.dieIndex) s
        .next (orAsk s share (((discardShare s share .kill).bind fun s1 => finishShare s1 share (some t) 2 0 0).map tell))
      | none =>
        if l.phase = .killed then
          .next (orAsk s share ((discardShare s share .kill).bind fun s1 => finishShare s1 share none l.status l.reason l.detail))
        else if !(gangsOf s share).isEmpty then .next s
        else if l.phase = .ended then .next (orAsk s share (finishShare s share none l.status l.reason l.detail))
        else if l.phase = .begun ∧ l.shareGangs h.dieIndex (dieCount l) ≤ l.next ∧ stageDone s share then
          .next (orAsk s share (finishShare s share none 1 0 0))
        else .next s

end Sys2Proof.Machine
end

