-- ==== Sys2Proof/Machine/Gangs.lean ====
section
/-! DEFINITION. Gangs come and go: placement of gangs and node groups (R347, R318, R327), suspension and resumption (R206
to R208, R236, R260, R286 to R288, R313, R334), and an idle die's slices (R357). -/

namespace Sys2Proof.Machine

/-! ### Addresses of images and private blocks (R94, R158) -/

/-- [a, a + n) meets no shadow array, and no image and no private block of a workgroup but those listed. -/
def clearOf (s : State) (but : List Nat) (a n : Nat) : Bool :=
  ((shadowRoom s).all fun t => decide (a + n ≤ t.1) || decide (t.1 + t.2 ≤ a))
  && s.wgs.all fun p => but.contains p.1 || decide (p.2.nbands = 0)
    || ((decide (a + n ≤ p.2.image.toNat) || decide (p.2.image.toNat + p.2.imageBytes ≤ a))
      && (let m := (s.share p.2.share).psize * p.2.nbands * 32
          decide (m = 0) || decide (n = 0) || decide (a + n ≤ p.2.priv.toNat) || decide (p.2.priv.toNat + m ≤ a)))

/-- Images and private blocks that do not meet each other. -/
def apart : List (Nat × Nat) → Bool
  | [] => true
  | (a, n) :: l => (l.all fun q => decide (n = 0) || decide (q.2 = 0) || decide (a + n ≤ q.1) || decide (q.1 + q.2 ≤ a)) && apart l

/-- The addresses proposed for workgroups of these band counts may be used on a quad. -/
def addressesOk (s : State) (quad psize xregs : Nat) (but : List Nat) (nbs images privs : List Nat) : Bool :=
  let die := quad / 40
  let v := quadVault quad
  let is := images.zip (nbs.map fun nb => imageSize nb xregs)
  let ps := privs.zip (nbs.map fun nb => psize * nb * 32)
  decide (images.length = nbs.length) && decide (privs.length = nbs.length)
  && (is.all fun p => decide (p.1 % 1024 = 0) && decide (v ≤ p.1) && decide (p.1 + p.2 ≤ v + 0x2000000) && clearOf s but p.1 p.2)
  && (ps.all fun p => decide (p.1 % 128 = 0) && decide (hbmBase die ≤ p.1) && decide (p.1 + p.2 ≤ hbmBase die + 0x1000000000)
      && clearOf s but p.1 p.2)
  && apart (is ++ ps)

/-! ### Start state (R86, R292, R293, R318, R347) -/

/-- What a workgroup is when it is placed: its linear index (all ones for a node group), grid position, size, live
lanes, entry, node, and the records its fibres receive. -/
structure NewWg where
  lin : W64
  x : W32
  y : W32
  z : W32
  size : Nat
  live : Nat
  entry : W64
  node : Option Nat
  recs : List RecSlot
deriving DecidableEq, Repr

/-- The fibre that starts in a place of its workgroup. -/
def startFibre (n : NewWg) (i : Nat) : Fibre :=
  let r := n.recs[i]?
  { Fibre.reset with
    pc := n.entry, rentry := n.entry, status := .ready
    depth := match r with
      | some x => x.depth
      | none => 0
    record := match r with
      | some x => some { addr := BitVec.ofNat 64 x.addr, depth := x.depth, node := x.node, index := i, count := n.recs.length }
      | none => none }

/-- A band whose lanes below `n` are live. -/
def startBand (core slot n : Nat) : Band :=
  let mask : W32 := bitMask (List.range (min n 32))
  { Band.reset with core := core, slot := slot, batches := if n = 0 then [] else [⟨0, mask, 0, 0⟩] }

/-- Sixteen handles that no workgroup of the die holds: the first free ones, in turn, of the 65,536 (R293, log entry
138). -/
def freeHandles (s : State) (die : Nat) : Nat :=
  let held := handleWgs s die
  let h := (s.eng die).nextHandle
  (((List.range (held.length + 1)).map fun i => (h + 16 * i) % 65536).find? fun a => !held.contains a).getD h

def tookHandles (s : State) (die h : Nat) : State := s.updEng die fun e => { e with nextHandle := (h + 16) % 65536 }

/-- Channels of a workgroup at placement: ch0 is open; handles are new on the die. -/
def startChans (s : State) (w die : Nat) : State :=
  let h := freeHandles s die
  let s1 := (List.range 16).foldl (fun s n => s.setChan (chanKey w n) { Chan.reset with opened := decide (n = 0), handle := h + n }) s
  tookHandles s1 die h

/-- Zeroes n lines from `ln` under a key: a private block holds nothing of another launch (R102). -/
def zeroLines (key : Nat) : Nat → Nat → State → State
  | _, 0, s => s
  | ln, n + 1, s => zeroLines key (ln + 1) n (memWrite (s.discardL2 ln) ln key 0 0)

/-- Enters a workgroup of gang `g` on a core; its private block is zero. -/
def startWg (s : State) (k g w core : Nat) (slots : List Nat) (l : Launch) (image priv kid : Nat) (n : NewWg) : State :=
  let wg : Wg := { Wg.reset with
    share := k, gang := g, core := core, lin := n.lin, x := n.x, y := n.y, z := n.z, size := n.size, nbands := slots.length,
    xregs := l.xregs, k := l.ks, ctrl := l.ctrl, node := n.node, image := BitVec.ofNat 64 image, priv := BitVec.ofNat 64 priv, kid := kid }
  let s1 := (zeroLines kid (priv / 64) ((s.share k).psize * slots.length * 32 / 64) s).setWg w wg
  let s2 := slots.zipIdx.foldl (fun s p => s.setBand (w * 32 + p.2) (startBand core p.1 (n.live - 32 * p.2))) s1
  let s3 := (List.range n.live).foldl (fun s i => s.setFib (w * 1024 + i) (startFibre n i)) s2
  startChans s3 w (core / 160)

/-- A core's last-page registers are cleared (R159), and its instruction cache and its quad's lose the blocks, where a gang
of another launch comes to it (log entry 12). -/
def newLaunchOn (s : State) (core num : Nat) : State :=
  if (s.core core).launch = num then s
  else { s.updCore core fun c => { c with launch := num, lastPage := [] } with
    icache := Map.del (Map.del s.icache core) (3000 + core / 4) }

/-- Puts a gang at its place: its cores acquire at .sys, its local store and rows are zero, its casements are opened.
None while an acquire must wait. -/
def startGang (s : State) (k : Nat) (l : Launch) (p : Place) (lin : W64) (images privs : List Nat) (kid : Nat) (ns : List NewWg) :
    Option (State × Nat) :=
  let cores := p.wgs.map fun c => p.quad * 4 + c.1
  (forAll coreFenceAcquire cores s).map fun s1 =>
    let s2 := cores.foldl (fun s c => newLaunchOn s c (k / 16)) s1
    let g := s2.nextId
    let ws := (List.range ns.length).map (g + 1 + ·)
    let csm := match l.casement p.base with
      | .ok c => c
      | .error _ => { Casement.reset with base := p.base * 65536, lsize := l.lsize * 65536 }
    let s3 := ({ s2 with nextId := g + 1 + ns.length }.setGang g { Gang.reset with
      share := k, quad := p.quad, lin := lin, wgs := ws, arows := l.arows * 128, abase := p.abase * 128 }).setCsm g csm
    let s4 := (ns.zipIdx).foldl (fun s q =>
      let c := p.wgs.getD q.2 (0, [])
      startWg s k g (g + 1 + q.2) (p.quad * 4 + c.1) c.2 l (images.getD q.2 0) (privs.getD q.2 0) kid q.1) s3
    (s4, g)

/-- The root workgroup with a linear index (R10). -/
def rootWg (l : Launch) (w : Nat) : NewWg :=
  { lin := BitVec.ofNat 64 w, x := BitVec.ofNat 32 (w % l.gridx), y := BitVec.ofNat 32 (w / l.gridx % l.gridy),
    z := BitVec.ofNat 32 (w / l.gridx / l.gridy), size := l.wgSize, live := l.wgSize, entry := l.entry, node := none, recs := [] }

/-- The node workgroup of a group (R318). -/
def nodeWg (p : Proofer) (x : Group) : NewWg :=
  { lin := BitVec.allOnes 64, x := BitVec.ofNat 32 (Map.getD p.serial x.node 0), y := BitVec.ofNat 32 x.node, z := BitVec.allOnes 32,
    size := p.groupSize x.node, live := x.slots.length, entry := (p.node x.node).entry, node := some x.node,
    recs := x.slots.filterMap fun a => p.slots.find? fun r => r.addr = a }

/-- The dispatcher's pointer, its rotation and the launch's waiting time after a placement. -/
def placed (s : State) (die k ptr : Nat) (l : Launch) : State :=
  (s.updFe die fun f => { f with ptr := ptr, rr := srcIndex l }).updLaunch k fun x => { x with since := s.timeNs.toNat }

/-- GANG_PLACEMENT (R347): the dispatcher of a die places the next gang, with the image and private addresses and the
key that its front end has chosen (log entry 44). -/
def execGangPlacement (die kid : Nat) (images privs : List Nat) (s : State) : Host.Outcome State Fault Refusal :=
  match pickWork s die with
  | some (k, l, .gang g, p, ptr, _) =>
    let h := s.share k
    let ws := l.gangWgs g
    let nbs := ws.map fun _ => bandsFor l.wgSize
    if !keyLoaded s die kid || !addressesOk s p.quad h.psize l.xregs [] nbs images privs then .next s
    else match startGang s k l p (BitVec.ofNat 64 g) images privs kid (ws.map (rootWg l)) with
      | none => .next s
      | some (s1, _) => .next (placed (s1.updLaunch k fun x => { x with next := x.next + 1, resv := x.resv.drop 1 }) die k ptr l)
  | _ => .next s

/-- Records of a group become Consumed by the fibres of its workgroup (R327). -/
def consume (p : Proofer) (x : Group) (w : Nat) : Proofer :=
  { p with
    groups := p.groups.filter fun y => y.id ≠ x.id
    serial := Map.put p.serial x.node (Map.getD p.serial x.node 0 + 1)
    slots := p.slots.map fun r => if x.slots.contains r.addr then { r with st := .consumed (w * 1024 + x.slots.findIdx (· = r.addr)) } else r }

/-- NODE_GROUP_PLACEMENT (R327): the first formed group is placed as a gang of one node workgroup. -/
def execNodeGroupPlacement (die kid : Nat) (images privs : List Nat) (s : State) : Host.Outcome State Fault Refusal :=
  match pickWork s die with
  | some (k, l, .group id, p, ptr, reserve) =>
    let pr := s.stage k
    match pr.groups.find? fun y => y.id = id with
    | none => .next s
    | some x =>
      let h := s.share k
      let nbs := [bandsFor (pr.groupSize x.node)]
      if !keyLoaded s die kid || !addressesOk s p.quad h.psize l.xregs [] nbs images privs then .next s
      else match startGang s k l p (BitVec.allOnes 64) images privs kid [nodeWg pr x] with
        | none => .next s
        | some (s1, g) =>
          let s2 := s1.updStage k fun q =>
            let c := consume q x (g + 1)
            if reserve then { c with resGang := some g } else c
          .next (placed s2 die k ptr l)
  | _ => .next s

/-! ### Suspension (R206, R347) -/

/-- A priority-3 launch of the die has a gang that does not fit. -/
def urgent (s : State) (die : Nat) : Bool :=
  feRuns s die && ((servedOrder s die).any fun p => decide (p.2.prio = 3) && (workPlace s p.1 p.2).isNone)

/-- A gang that may be pre-empted for it: of a lower-priority launch that is not cooperative, with pins that fit. -/
def preemptable (s : State) (die : Nat) (p : Nat × Gang) : Bool :=
  match s.launch p.2.share with
  | none => false
  | some l => decide (p.2.quad / 40 = die ∧ l.prio < 3 ∧ l.coop = 0) && !p.2.suspended
      && (!gangMat s p.1 || decide (suspendedPins s die + matPins (s.mat p.2.quad) ≤ 20480))

/-- GANG_SUSPENSION (R206, R347): to make room for a priority-3 launch the most recently placed gang is pre-empted; to
move a gang (`move`) any gang of a launch that is not cooperative. -/
def execGangSuspension (gang : Nat) (move : Bool) (s : State) : Host.Outcome State Fault Refusal :=
  let x := s.gang gang
  let die := x.quad / 40
  let last := ((s.gangs.filter (preemptable s die)).map (·.1)).foldl max 0
  let coop := match s.launch x.share with
    | some l => decide (l.coop ≠ 0)
    | none => true
  if !Map.has s.gangs gang || x.suspended || coop || !feRuns s die then .next s
  else if !move && !(urgent s die && decide (last = gang)) then .next s
  else .next (suspendGang s gang .suspend).1

/-! ### Resumption (R207, R208) -/

/-- The private blocks that a gang needs on another die. -/
def moveNeed (s : State) (g : Nat) (n : Need) : Need :=
  { n with priv := ((liveWgs s g).map fun w => (s.share (s.wg w).share).psize * (s.wg w).nbands * 32).foldl max 0 }

/-- A place on a quad: the one the gang had, where it is still free or in the reserve lent to it, else the lowest that
fits. -/
def resumePlace (s : State) (g quad : Nat) : Option Place :=
  let x := s.gang g
  let u := usedFor s (some g) quad
  let img := if quad = x.quad then 0 else ((liveWgs s g).map fun w => (s.wg w).imageBytes).foldl max 0
  let n : Need := { ls := (s.csm g).lsize / 65536, rows := x.arows / 128, nbs := (liveWgs s g).map fun w => (s.wg w).nbands,
                    img, priv := 0 }
  let old := placeOf s g
  let free (a k : Nat) (l : List (Nat × Nat)) : Bool := decide (k = 0) || l.all fun t => decide (a + k ≤ t.1) || decide (t.1 + t.2 ≤ a)
  let core (c : Nat × List Nat) : Bool :=
    let mine := u.wgs.filter fun w => w.1 = c.1
    decide (mine.length < 32) && c.2.all fun b => !(mine.any fun w => w.2.contains b)
  if quad = x.quad && decide (u.gangs < 16) && free old.base n.ls u.ls && free old.abase n.rows u.rows && old.wgs.all core then some old
  else if quad / 40 = x.quad / 40 || dieRoom s (quad / 40) (moveNeed s g n) then quadFit (usedOn s quad) quad n
  else none

/-- The acquire scope of a workgroup's move (R207); `away` says that it comes from another package. -/
def moveScope (away : Bool) (old new : Nat) : Nat :=
  if away then 5 else if old = new then 1 else if old / 4 = new / 4 then 2 else if old / 160 = new / 160 then 3 else 4

/-- Private lines of a workgroup that leaves its core go to memory. -/
def flushPrivate (s : State) (w : Nat) : State :=
  let g := s.wg w
  let lo := g.priv.toNat / 64
  let hi := (g.priv.toNat + (s.share g.share).psize * g.nbands * 32) / 64
  let mine := ((s.core g.core).l1.filter fun p => p.2.priv && decide (lo ≤ p.1) && decide (p.1 < hi)).map (·.1)
  mine.foldl (fun s ln => (coreWb s g.core ln).updCore g.core fun c => { c with l1 := Map.del c.l1 ln }) s

/-- Copies lines from one place to another under a key. -/
def copyLines (key src dst : Nat) : Nat → State → Option State
  | 0, s => some s
  | n + 1, s =>
    match homeRead s src key 0 with
    | none => none
    | some (s1, l) => (homeWrite s1 agentFe dst (BitVec.allOnes 64) l key 0).bind (copyLines key (src + 1) (dst + 1) n)

/-- What must hold before a gang goes to another die (R207, R260, R288, R313, R334). -/
def mayLeaveDie (s : State) (g : Nat) : Bool :=
  let ws := liveWgs s g
  let slots := (s.stage (s.gang g).share).slots
  (ws.all fun w => wgQuiet s w && (List.range 16).all fun n => decide ((s.chan (chanKey w n)).outst = 0))
  && ((gangCops s g).all fun c => (match (s.cop c).st with
      | .rdv _ => true
      | .held => true
      | _ => false) && (Map.getD s.ctxs c Ctx.reset).ops.isEmpty)
  && (match (s.gang g).saved with
      | some (_, m) => decide (matPins m = 0) && m.queue.isEmpty
      | none => true)
  && (slots.all fun r => match r.st with
      | .reserved w => !ws.contains w
      | .consumed k => !ws.contains (wgOf k)
      | _ => true)

/-- Moves copy programs to free contexts of the engines with the same index on another die; none while one is short. -/
def moveCops (die : Nat) : List Nat → State → Option State
  | [], s => some s
  | c :: cs, s =>
    let e := die * 4 + c / 8 % 4
    match (List.range 8).find? fun i => decide ((s.cop (e * 8 + i)).st = .free) with
    | none => none
    | some i =>
      let d := e * 8 + i
      let m := s.cop c
      let ren (l : List Nat) : List Nat := l.map fun x => if x = c then d else x
      let s1 := (s.setCop d m).setCop c Seq.reset
      let s2 := { s1 with ctxs := Map.del (Map.put s1.ctxs d (Map.getD s1.ctxs c Ctx.reset)) c }
      moveCops die cs (s2.updWg m.wg fun w =>
        { w with forkC := ren w.forkC, rdvs := Map.mapVals (fun r => { r with cops := ren r.cops }) w.rdvs })

/-- Channels of a workgroup on another die: new handles there, the old die's are free again; empty destination tables
(R313). -/
def moveChans (s : State) (w die : Nat) : State :=
  let h := freeHandles s die
  let s1 := (List.range 16).foldl (fun s n => s.updChan (chanKey w n) fun c => { c with handle := h + n, dests := [] }) s
  tookHandles s1 die h

/-- Moves a workgroup to its core of a place: private lines, image and private block go with it. On another core its register
lines are first all written back (R207). None where a line cannot be moved. -/
def moveWg (s : State) (w core : Nat) (slots : List Nat) (share image priv : Nat) : Option State :=
  let g := s.wg w
  let n := (s.share g.share).psize * g.nbands * 32 / 64
  let bands := (List.range g.nbands).map (w * 32 + ·)
  let s1 := if core = g.core then s else flushPrivate (bands.foldl flushRegs s) w
  let r := if core / 160 = g.core / 160 then some s1 else copyLines g.kid (g.priv.toNat / 64) (priv / 64) n s1
  r.map fun s2 =>
    let sameDie := decide (core / 160 = g.core / 160)
    let put (image : W64) (s : State) : State := s.setWg w { s.wg w with
      core := core, share := share, image := image, priv := if sameDie then g.priv else BitVec.ofNat 64 priv }
    let s3 := if core / 4 = g.core / 4 then put g.image s2
      else writeImage (moveRegs s2 bands (put (BitVec.ofNat 64 image))) w
    slots.zipIdx.foldl (fun s p => (leaveSlot s (w * 32 + p.2)).updBand (w * 32 + p.2) fun b =>
      { b with core := core, slot := p.1, sp := true, fair := if core = g.core && !(s.gang g.gang).away then b.fair else 0 }) s3

def moveWgs (quad share : Nat) : List (Nat × (Nat × List Nat) × Nat × Nat) → State → Option State
  | [], s => some s
  | (w, c, image, priv) :: l, s => (moveWg s w (quad * 4 + c.1) c.2 share image priv).bind (moveWgs quad share l)

/-- Each workgroup's acquire at the scope of its move. -/
def resumeAcquires : List (Nat × Nat) → State → Option State
  | [], s => some s
  | (w, sc) :: l, s => (fenceAcquire s w sc).bind (resumeAcquires l)

/-- A gang that resumes elsewhere than in the stage reserve gives it back (R321); of one that leaves its die the waiting
RALLOCs are withdrawn (R334). -/
def leftReserve (s : State) (share g : Nat) (p : Place) : State :=
  s.updStage share fun q => { q with
    resGang := if q.resGang = some g && !(q.reserve.any fun r => p.within r) then none else q.resGang
    reqs := if p.quad / 40 = share % 16 then q.reqs else q.reqs.filter fun r => !((s.gang g).wgs.contains r.wg) }

/-- A copy program of a gang that resumes: where it had stopped at a rendezvous or was held at its EXIT, its first instruction
from now on is a switch point, and a held one runs on (R44, R260). -/
def resumeCop (s : State) (c : Nat) : State :=
  let m := s.cop c
  match m.st with
  | .rdv _ => s.setCop c { m with sp := true }
  | .held => s.setCop c { m with sp := true, st := .running }
  | _ => s

/-- Puts a suspended gang at a place of a die where its launch has a share. -/
def resumeAt (s : State) (g : Nat) (p : Place) (images privs : List Nat) : Option State :=
  let x := s.gang g
  let ws := liveWgs s g
  let die := p.quad / 40
  let share := x.share / 16 * 16 + die
  let scopes := ws.zipIdx.map fun q => (q.1, moveScope x.away (s.wg q.1).core (p.quad * 4 + (p.wgs.getD q.2 (0, [])).1))
  let r0 := if die = x.quad / 40 then some s
    else (moveCops die (gangCops s g) s).map fun s1 => ws.foldl (fun s w => moveChans s w die) s1
  let r1 := r0.bind (moveWgs p.quad share (ws.zipIdx.map fun q => (q.1, p.wgs.getD q.2 (0, []), images.getD q.2 0, privs.getD q.2 0)))
  let r2 := r1.bind fun s1 =>
    let s2 := (s1.updGang g fun y => { y with quad := p.quad, abase := p.abase * 128, share := share }).updCsm g fun c =>
      { c with base := p.base * 65536 }
    loadMat (leftReserve s2 x.share g p) g
  let r3 := r2.bind fun s1 => resumeAcquires scopes (s1.updGang g fun y => { y with suspended := false, away := false })
  r3.map fun s1 =>
    let s2 := (gangCops s1 g).foldl resumeCop
      (ws.foldl (fun s w => newLaunchOn s (s.wg w).core (share / 16)) s1)
    let ks := (s2.fibres.filter fun f => ws.contains (wgOf f.1)).map (·.1)
    ks.foldl (fun s k => s.settleTrap k) (releaseServed s2 ks)

/-- GANG_RESUMPTION (R207): a suspended gang resumes on a quad; the addresses serve where it changes quad or die. -/
def execGangResumption (gang quad : Nat) (images privs : List Nat) (s : State) : Host.Outcome State Fault Refusal :=
  let x := s.gang gang
  let die := quad / 40
  let away := decide (die ≠ x.quad / 40)
  let share := x.share / 16 * 16 + die
  let ws := liveWgs s gang
  let old (f : Wg → W64) : List Nat := ws.map fun w => (f (s.wg w)).toNat
  let is := if quad = x.quad then old Wg.image else images
  let ps := if away then privs else old Wg.priv
  let h := s.share share
  if !Map.has s.gangs gang || !x.suspended || !feRuns s die || !Map.has s.shares share || h.trap.isSome || 16 ≤ die
      || !h.quads.contains (quad % 40) then .next s
  else if away && (ws.any fun w => openStreams s w) then .next (ws.foldl releaseStreams s)
  else if away && !mayLeaveDie s gang then .next s
  else if !addressesOk s quad h.psize (s.wg (ws.headD 0)).xregs ws (ws.map fun w => (s.wg w).nbands) is ps then .next s
  else match resumePlace s gang quad with
    | none => .next s
    | some p => .next ((resumeAt s gang p is ps).getD s)

/-! ### Other packages (R207) -/

/-- A gang's records are gone, and its contexts are free. -/
def forgetGang (s : State) (g : Nat) : State :=
  let x := s.gang g
  let s1 := (gangCops s g).foldl (fun s c => { s.setCop c Seq.reset with ctxs := Map.del s.ctxs c }) s
  let s2 := (s1.updStage x.share fun p => { p with
    resGang := if p.resGang = some g then none else p.resGang
    reqs := p.reqs.filter fun r => !x.wgs.contains r.wg })
  let s3 := x.wgs.foldl dropWg s2
  { s3 with gangs := Map.del s3.gangs g, csms := Map.del s3.csms g, wgs := s3.wgs.filter fun w => !x.wgs.contains w.1 }

/-- A suspended gang leaves for another package, as it would for another die; its streams are released first. -/
def gangLeaves (g : Nat) (s : State) : State :=
  if !Map.has s.gangs g || !(s.gang g).suspended then s
  else if (liveWgs s g).any fun w => openStreams s w then (liveWgs s g).foldl releaseStreams s
  else if !mayLeaveDie s g then s
  else forgetGang s g

/-- The domain of a barrier key is one of a gang's: a band or a workgroup of it, itself, its share or its launch. -/
def gangBar (g share : Nat) (ws : List Nat) (key : Nat) : Bool :=
  match key % 8 with
  | 0 => ws.contains (key / 8 / 32)
  | 1 => ws.contains (key / 8)
  | 2 => decide (key / 8 = g)
  | 3 => decide (key / 8 = share)
  | _ => decide (key / 8 = share / 16)

/-- What an instance holds for a gang that comes: its fibres that take no part, and its count (R187). -/
def Bar.meet (b x : Bar) : Bar := { b with excl := x.excl.foldl (fun l k => insNat k l) b.excl, count := max b.count x.count }

/-- The numbers that a gang comes under are new, and agree with each other; its launch has a share on the die; its
maps, local bytes and accumulators are in canonical form. -/
def imageFits (s : State) (g : Nat) (x : GangImage) : Bool :=
  let ws := x.wgs.keys
  !Map.has s.gangs g && (ws.all fun w => !Map.has s.wgs w) && decide (x.gang.wgs = ws) && x.gang.suspended
  && (x.wgs.all fun w => decide (w.2.gang = g) && decide (w.2.share = x.gang.share) && decide (w.2.core / 4 = x.gang.quad))
  && (x.bands.all fun b => ws.contains (b.1 / 32)) && (x.fibres.all fun f => ws.contains (wgOf f.1))
  && (x.chans.all fun c => ws.contains (c.1 / 16)) && Map.has s.shares x.gang.share
  && decide (x.gang.share % 16 = x.gang.quad / 40)
  && (x.bars.all fun b => gangBar g x.gang.share ws b.1 && b.2.excl.all fun k => ws.contains (wgOf k)) && (x.cops.all fun c => ws.contains c.2.2.1.wg)
  && (x.gang.saved.all fun m => decide (matPins m.2 = 0)) && Memory.wf x.csm.bytes && Map.wf x.gang.acc
  && Map.wf x.wgs && Map.wf x.bands && Map.wf x.fibres && Map.wf x.chans && Map.wf x.bars

/-- The copy programs of a gang take free contexts of the engines with their index, given with their old ones; none while
one is short. -/
def takeCops (die : Nat) : List (Nat × Nat × Seq × Ctx) → List (Nat × Nat) → State → Option (State × List (Nat × Nat))
  | [], ren, s => some (s, ren)
  | (e, c, m, x) :: l, ren, s =>
    let k := (die * 4 + e % 4) * 8
    match (List.range 8).find? fun i => decide ((s.cop (k + i)).st = .free) with
    | none => none
    | some i => takeCops die l ((c, k + i) :: ren) { s.setCop (k + i) m with ctxs := Map.put s.ctxs (k + i) x }

/-- A workgroup names its copy programs by their new contexts, all at once. -/
def Wg.renameCops (w : Wg) (ren : List (Nat × Nat)) : Wg :=
  let new (l : List Nat) : List Nat := l.foldl (fun m y => insNat (match ren.find? fun r => r.1 = y with
    | some r => r.2
    | none => y) m) []
  { w with forkC := new w.forkC, rdvs := Map.mapVals (fun r => { r with cops := new r.cops }) w.rdvs }

/-- The copy programs of a gang are placed, and its workgroups name them so. -/
def placeCops (die : Nat) (ws : List Nat) (cops : List (Nat × Nat × Seq × Ctx)) (s : State) : Option State :=
  (takeCops die cops [] s).map fun r => ws.foldl (fun s w => s.updWg w fun g => g.renameCops r.2) r.1

/-- A suspended gang comes from another package: its records, its lines, new handles; GANG_RESUMPTION resumes it. -/
def gangArrives (g : Nat) (x : GangImage) (s : State) : State :=
  if !imageFits s g x then s
  else
    let die := x.gang.quad / 40
    let put {α : Type} (m n : Map α) : Map α := n.foldl (fun m p => Map.put m p.1 p.2) m
    let s1 := { s with
      nextId := x.gang.wgs.foldl (fun n w => max n (w + 1)) (max s.nextId (g + 1))
      gangs := Map.put s.gangs g { x.gang with away := true }, csms := Map.put s.csms g x.csm, wgs := put s.wgs x.wgs,
      bars := x.bars.foldl (fun m p => Map.put m p.1 ((s.bar p.1).meet p.2)) s.bars
      bands := put s.bands x.bands, fibres := put s.fibres x.fibres, chans := put s.chans x.chans }
    match placeCops die x.gang.wgs x.cops (x.gang.wgs.foldl (fun s w => moveChans s w die) s1) with
    | none => s
    | some s2 =>
      let kid := ((x.wgs.head?).map fun w => w.2.kid).getD 0
      x.lines.foldl (fun s l => (homeWrite s agentFe l.1 (BitVec.allOnes 64) l.2 kid 0).getD s) s2

/-! ### Retired slices (R357) -/

/-- Nothing of any launch is on the die. -/
def dieIdle (s : State) (die : Nat) : Bool :=
  (s.gangs.all fun p => decide (p.2.quad / 40 ≠ die)) && (s.copyqs.all fun p => decide (p.1 / 4 ≠ die) || p.2.isEmpty)
  && (s.cops.all fun p => decide (p.1 / 32 ≠ die) || decide (p.2.st = .free))
  && (s.ctxs.all fun p => decide (p.1 / 32 ≠ die) || p.2.ops.isEmpty)
  && (s.eng die).sent.isEmpty && (s.eng die).jobs.isEmpty
  && (s.graphs.all fun p => decide (p.1 / 32 ≠ die) || !grRun p.2.ctl)

/-- Slices of a die that are retired and still serve their lines. -/
def leavingSlices (s : State) (die : Nat) : List Nat :=
  ((List.range 40).filter fun h => (s.unit (unitSlice die h)).retired).map (die * 40 + ·) |>.filter fun k => !s.mem.remap.contains k

/-- L2_SLICE_REMAP (R357): on an idle die the retired slices' lines are drained and written to memory, and their
directories cleared. -/
def execL2SliceRemap (die : Nat) (s : State) : Host.Outcome State Fault Refusal :=
  let ks := leavingSlices s die
  if !dieIdle s die || ks.isEmpty then .next s
  else
    let lines := (s.mem.home.filter fun p => decide (lineDie p.1 = die) && ks.contains (sliceKey s p.1)).map (·.1)
    match forAll evictL2 lines s with
    | none => .next s
    | some s1 => .next (s1.updMem fun m => { m with
        remap := m.remap ++ ks
        home := (m.home.filter fun p => !lines.contains p.1 || !p.2.pins.isEmpty || decide (p.2.snoop ≠ .none)) })

end Sys2Proof.Machine
end

