-- ==== Sys2Proof/Machine/Graph.lean ====
section
/-! DEFINITION. Queue packets other than LAUNCH (R341) and the nodes of resident graphs (R352 to R354). -/

namespace Sys2Proof.Machine

/-! ### Words in memory -/

/-- Why a node's or a packet's action does not complete now: it waits, or it ends with an error: 1 address fault,
2 uncorrectable, 3 malformed. -/
inductive NStop where
  | wait (line : Ask)
  | err (e : Nat)
deriving DecidableEq, Repr

def feStop {α : Type} (r : State × Except FeErr α) : State × Except NStop α :=
  match r with
  | (s, .ok v) => (s, .ok v)
  | (s, .error (.wait l)) => (s, .error (.wait l))
  | (s, .error .ecc) => (s, .error (.err 2))
  | (s, .error .fault) => (s, .error (.err 1))

/-- An aligned 64-bit word. -/
def feWord (s : State) (c : FeCtx) (va : W64) : State × Except NStop W64 :=
  if va.toNat % 8 ≠ 0 then (s, .error (.err 1))
  else match feStop (feRead c 2 va 8 s) with
    | (s1, .ok v) => (s1, .ok (BitVec.ofNat 64 v))
    | (s1, .error e) => (s1, .error e)

/-- The condition of WaitValue and Cond. -/
def condHolds (cond : Nat) (w v : W64) : Bool :=
  match cond with
  | 0 => decide (w = v)
  | 1 => decide (w ≠ v)
  | 2 => decide (v.toNat ≤ w.toNat)
  | 3 => decide (w.toNat < v.toNat)
  | _ => decide (w &&& v ≠ 0)

def bodyWord (b : List W64) (i : Nat) : W64 := b.getD i 0

/-- Words 1 to 3 of a WaitValue or Cond body: whether the condition holds now. -/
def condNow (s : State) (c : FeCtx) (b : List W64) : State × Except NStop Bool :=
  let w3 := (bodyWord b 3).toNat
  if 4 < w3 then (s, .error (.err 3))
  else match feWord s c (bodyWord b 1) with
    | (s1, .ok w) => (s1, .ok (condHolds w3 w (bodyWord b 2)))
    | (s1, .error e) => (s1, .error e)

/-- The cores' stores of the die, made visible before a Signal. -/
def drainDie (s : State) (die : Nat) : State := (dieCores s die).foldl coreDrainAll s

/-- The effect of a Signal body. -/
def signalNow (s : State) (c : FeCtx) (b : List W64) : State × Except NStop Unit :=
  let va := bodyWord b 1
  let w3 := (bodyWord b 3).toNat
  if 1 < w3 then (s, .error (.err 3))
  else if va.toNat % 8 ≠ 0 then (s, .error (.err 1))
  else
    let s0 := drainDie s c.die
    if w3 = 0 then feStop (feWrite c 2 va 8 (bodyWord b 2).toNat s0)
    else match feTr s0 c va .write with
      | (s1, .ok (_, pa)) =>
        if !homeReady s1 (pa / 64) .atomic then (s1, .error (.wait (some (pa / 64, .atomic))))
        else match feWord s1 c va with
          | (s2, .error e) => (s2, .error e)
          | (s2, .ok w) => feStop (feWrite c 2 va 8 (w + bodyWord b 2).toNat s2)
      | (s1, .error e) => feStop (s1, .error e)

/-- The graph that an Arm body names, on a die; none where a reserved bit is set (R353). -/
def armGraph (die : Nat) (b : List W64) : Option Nat :=
  let w := (bodyWord b 1).toNat
  if w / 1024 ≠ 0 ∨ w / 32 % 8 ≠ 0 then none else some (die * 32 + w % 32)

/-- An Arm body (R353): sets or clears `ARMED` of a graph of the die, then triggers it if asked. -/
def armNow (s : State) (die : Nat) (b : List W64) : Option State :=
  (armGraph die b).map fun k =>
    let w := (bodyWord b 1).toNat
    let s1 := s.updGraph k fun g => { g with ctl := setField g.ctl 1 1 (1 - w / 256 % 2) }
    if w / 512 % 2 = 1 then s1.updGraph k Graph.trigger else s1

/-! ### Packets (R341) -/

/-- The address space of a queue. -/
def qCtx (s : State) (k : Nat) : FeCtx := { die := k / 64, asid := qAsid (s.queue k).ctl, priv := qPriv (s.queue k).ctl }

/-- The ERR of a queue whose packet's action fails: 3 malformed, 4 uncorrectable, 5 address fault (log entry 45). -/
def packetErr (e : Nat) : Nat := if e = 3 then 3 else if e = 2 then 4 else 5

/-- The queue stops; one that already reads Disabled stays so (R339, log entry 45). -/
def failQueue (s : State) (k e : Nat) : State :=
  (s.updQueue k fun q => { q with
    ctl := if qState q.ctl = 0 then q.ctl else qSetErr (qSetState q.ctl 4) (packetErr e)
    body := [] }).errIrq (k / 64)

/-- The packet of a type that stands next, where it may begin. -/
def packetOf (s : State) (k type : Nat) : State × Option (Except NStop (List W64)) :=
  match nextPacket s k with
  | (_, .wait l) => (s, some (.error (.wait l)))
  | (s1, .pkt t order ws) => if t = type ∧ !(order && queueBusy s k) then (s1, some (.ok ws)) else (s, none)
  | _ => (s, none)

/-- PACKET_NOP (R341): the packet is consumed. -/
def execPacketNop (die q : Nat) (s : State) : Host.Outcome State Fault Refusal :=
  let k := die * 64 + q
  match packetOf s k 0 with
  | (s1, some (.ok _)) => .next (s1.takePacket k 1 none)
  | (s1, some (.error (.wait l))) => .next (askFor s1 l)
  | _ => .next s

/-- The condition of a begun WAITVALUE is tried; a timeout ends the wait (log entry 45). -/
def tryWait (s : State) (k : Nat) : State :=
  let q := s.queue k
  let t := (bodyWord q.body 4).toNat
  match condNow s { die := k / 64, asid := q.bodyAsid, priv := q.bodyPriv } q.body with
  | (s1, .ok true) => settleQueue (s1.updQueue k fun q => { q with body := [] }) k
  | (s1, .ok false) =>
    if t ≠ 0 ∧ q.wait + t ≤ s.timeNs.toNat then settleQueue (s1.updQueue k fun q => { q with body := [] }) k else s1
  | (s1, .error (.wait l)) => askFor s1 l
  | (s1, .error (.err e)) => failQueue s1 k e

/-- PACKET_WAITVALUE (R341): the packet begins, and its queue waits until the word meets the condition. -/
def execPacketWaitvalue (die q : Nat) (s : State) : Host.Outcome State Fault Refusal :=
  let k := die * 64 + q
  if !feRuns s die then .next s
  else if !(s.queue k).body.isEmpty then .next (tryWait s k)
  else match packetOf s k 2 with
    | (s1, some (.ok ws)) =>
      if 4 < (bodyWord ws 3).toNat then .next (failQueue s k 3) else
      .next (tryWait ((s1.takePacket k 1 none).updQueue k fun q =>
        { q with body := ws, wait := s.timeNs.toNat, bodyAsid := qAsid q.ctl, bodyPriv := qPriv q.ctl }) k)
    | (s1, some (.error (.wait l))) => .next (askFor s1 l)
    | _ => .next s

/-- PACKET_SIGNAL (R341): a word is written at its home. -/
def execPacketSignal (die q : Nat) (s : State) : Host.Outcome State Fault Refusal :=
  let k := die * 64 + q
  match packetOf s k 3 with
  | (s1, some (.ok ws)) =>
    match signalNow s1 (qCtx s k) ws with
    | (s2, .ok _) => .next (s2.takePacket k 1 none)
    | (s2, .error (.wait l)) => .next (askFor s2 l)
    | (_, .error (.err e)) => .next (failQueue s k e)
  | (s1, some (.error (.wait l))) => .next (askFor s1 l)
  | _ => .next s

/-- PACKET_GRAPH (R341, R354): a trigger of the graph that the packet's Arm body names; its ARMED stays, and bits [9:8] say
nothing (log entry 46). -/
def execPacketGraph (die q : Nat) (s : State) : Host.Outcome State Fault Refusal :=
  let k := die * 64 + q
  match packetOf s k 4 with
  | (s1, some (.ok ws)) =>
    match armGraph die ws with
    | some g => .next ((s1.updGraph g Graph.trigger).takePacket k 1 none)
    | none => .next (failQueue s k 3)
  | (s1, some (.error (.wait l))) => .next (askFor s1 l)
  | _ => .next s

/-! ### Nodes (R353) -/

def Graph.cur (g : Graph) : List W64 := g.nodes.getD g.node []
def nodeType (b : List W64) : Nat := (bodyWord b 0).toNat % 256
def nodeNext (b : List W64) : Nat := bitsN (bodyWord b 0).toNat 14 8
def nodeEnd (b : List W64) : Bool := (bodyWord b 0).getLsbD 15
def nodeAlt (b : List W64) : Nat := bitsN (bodyWord b 0).toNat 22 16
def nodeWaitDone (b : List W64) : Bool := (bodyWord b 0).getLsbD 23

/-- A node that R353 calls malformed: unknown type, a successor beyond the nodes, reserved bits. -/
def Graph.malformed (g : Graph) (b : List W64) : Bool :=
  let t := nodeType b
  let n := grNodes g.ctl
  let w (i : Nat) : Nat := (bodyWord b i).toNat
  decide (t = 0 ∨ 7 < t) || decide (2 ^ 24 ≤ w 0) || (!nodeEnd b && (decide (n ≤ nodeNext b) || (decide (t = 4 ∨ t = 5) && decide (n ≤ nodeAlt b))))
  || (match t with
    | 2 => decide (2 ^ 34 ≤ w 3)
    | 3 => decide (4 < w 3)
    | 4 => decide (2 ^ 32 ≤ w 1)
    | 5 => decide (4 < w 3) || decide (w 4 ≠ 0)
    | 6 => decide (1 < w 3)
    | 7 => decide (w 1 / 1024 ≠ 0 ∨ w 1 / 32 % 8 ≠ 0)
    | _ => false)

/-- The run goes on at a successor, or ends (R353). -/
def Graph.goTo (g : Graph) (b : List W64) (succ : Nat) : Graph :=
  if nodeEnd b then g.endRun 0 else { g with node := succ, wait := .none }

def grCtx (k : Nat) (g : Graph) : FeCtx := { die := k / 32, asid := grAsid g.ctl, priv := g.ctl.getLsbD 6 }

/-- Ends a run with an error, 2 (uncorrectable) counting as an address fault. -/
def failGraph (s : State) (k e : Nat) : State := s.updGraph k fun g => g.endRun (if e = 2 then 1 else e)

/-- Whether a codeword of the current node has more erroneous symbols than the code corrects (R32). -/
def Graph.lost (g : Graph) : Bool := g.bad.any fun p => decide (p.1 / 16 = g.node) && decide (2 ≤ p.2.length)

/-- The current node's codewords as a read leaves them: corrected (R32). -/
def Graph.scrubbed (g : Graph) : Graph := { g with bad := g.bad.filter fun p => p.1 / 16 ≠ g.node }

/-- Reads the current node: an error of one symbol in a codeword is corrected. -/
def readNode (s : State) (k : Nat) : State :=
  if (s.graph k).bad.any fun p => decide (p.1 / 16 = (s.graph k).node) then s.setGraph k (s.graph k).scrubbed else s

/-- Runs the current node of a graph, where it is of a type and well formed. A node that the code cannot correct ends the run
with error 1 (log entry 144). -/
def atNode (s : State) (die gi type : Nat) (f : State → Nat → Graph → List W64 → State) : Host.Outcome State Fault Refusal :=
  let k := die * 32 + gi
  let g := s.graph k
  let b := g.cur
  if !feRuns s die || !grRun g.ctl then .next s
  else if g.lost then .next (failGraph s k 2)
  else if g.wait = .none ∧ g.malformed b then .next (failGraph (readNode s k) k 3)
  else if nodeType b ≠ type then .next s
  else .next (f (readNode s k) k ((readNode s k).graph k) b)

def onStop (s0 s : State) (k : Nat) (e : NStop) : State :=
  match e with
  | .wait l => askFor s l
  | .err e => failGraph s0 k e

/-- LAUNCH_NODE: dispatches a launch, and continues once it is dispatched or, with WAITDONE, once its record is
written. -/
def execLaunchNode (die g : Nat) (s : State) : Host.Outcome State Fault Refusal :=
  atNode s die g 1 fun s k x b =>
    match x.wait with
    | .launch c =>
      if (if nodeWaitDone b then (s.launch c).isNone else dispatched s c) then s.updGraph k fun y => y.goTo b (nodeNext b) else s
    | _ =>
      match beginLaunch s die { src := .graph k, prio := bitsN x.ctl.toNat 9 8, priv := x.ctl.getLsbD 6, asid := grAsid x.ctl } b with
      | .wait l => askFor s l
      | .refused s1 => failGraph s1 k 4
      | .begun s1 c => s1.updGraph k fun y => { y with wait := .launch c }

/-- COPY_NODE: moves bytes through the named copy engine. -/
def execCopyNode (die g : Nat) (s : State) : Host.Outcome State Fault Refusal :=
  atNode s die g 2 fun s k x b =>
    match x.wait with
    | .copy _ =>
      match s.nodeDone.find? fun d => d.1 = k with
      | none => s
      | some d =>
        let s1 := { s with nodeDone := s.nodeDone.filter fun d => d.1 ≠ k }
        if d.2 = 0 then s1.updGraph k fun y => y.goTo b (nodeNext b) else failGraph s1 k 1
    | _ =>
      let w3 := (bodyWord b 3).toNat
      let ce := die * 4 + w3 / 2 ^ 32
      let c : Xfer := { kind := .plain, dst := bodyWord b 1, src := bodyWord b 2, n := w3 % 2 ^ 32, height := 0, spitch := 0, dpitch := 0,
                        index := 0, bound := 0, elem := 0, idx64 := false, asid := grAsid x.ctl, priv := x.ctl.getLsbD 6 }
      if 64 ≤ (copyq s ce).length then s
      else
        let id := s.nextId
        let cmd : CopyCmd := { id := id, x := c, owner := .node die g }
        ({ s with copyqs := Map.put s.copyqs ce (copyq s ce ++ [cmd]), nextId := id + 1 }).updGraph k fun y =>
          { y with wait := .copy id }

/-- WAITVALUE_NODE: continues once the word meets the condition. -/
def execWaitvalueNode (die g : Nat) (s : State) : Host.Outcome State Fault Refusal :=
  atNode s die g 3 fun s k x b =>
    match condNow s (grCtx k x) b with
    | (s1, .ok true) => s1.updGraph k fun y => y.goTo b (nodeNext b)
    | (s1, .ok false) => s1.updGraph k fun y => match y.wait with
      | .none => { y with wait := .value s.timeNs.toNat }
      | _ => y
    | (s1, .error e) => onStop s s1 k e

/-- WAITVALUE_TIMEOUT: the run ends with error 2. -/
def execWaitvalueTimeout (die g : Nat) (s : State) : Host.Outcome State Fault Refusal :=
  atNode s die g 3 fun s k x b =>
    let t := (bodyWord b 4).toNat
    match x.wait with
    | .value since => if t ≠ 0 ∧ since + t ≤ s.timeNs.toNat then failTimeout s k else s
    | _ => s
where
  failTimeout (s : State) (k : Nat) : State := s.updGraph k fun g => g.endRun 2

/-- LOOP_NODE: counts down and branches. -/
def execLoopNode (die g : Nat) (s : State) : Host.Outcome State Fault Refusal :=
  atNode s die g 4 fun s k x b =>
    let c := match Map.get x.loops x.node with
      | some c => c
      | none => (bodyWord b 1).toNat % 2 ^ 32
    s.updGraph k fun y =>
      if 0 < c then Graph.goTo { y with loops := Map.put y.loops y.node (c - 1) } b (nodeAlt b)
      else Graph.goTo { y with loops := Map.del y.loops y.node } b (nodeNext b)

/-- COND_NODE: branches on a word. -/
def execCondNode (die g : Nat) (s : State) : Host.Outcome State Fault Refusal :=
  atNode s die g 5 fun s k x b =>
    match condNow s (grCtx k x) b with
    | (s1, .ok v) => s1.updGraph k fun y => y.goTo b (if v then nodeAlt b else nodeNext b)
    | (s1, .error e) => onStop s s1 k e

/-- SIGNAL_NODE: writes or adds a word. -/
def execSignalNode (die g : Nat) (s : State) : Host.Outcome State Fault Refusal :=
  atNode s die g 6 fun s k x b =>
    match signalNow s (grCtx k x) b with
    | (s1, .ok _) => s1.updGraph k fun y => y.goTo b (nodeNext b)
    | (s1, .error e) => onStop s s1 k e

/-- ARM_NODE: arms or disarms a graph, then triggers it if asked. -/
def execArmNode (die g : Nat) (s : State) : Host.Outcome State Fault Refusal :=
  atNode s die g 7 fun s k _ b =>
    match armNow s die b with
    | some s1 => s1.updGraph k fun y => y.goTo b (nodeNext b)
    | none => failGraph s k 3

/-- WORKER_PARSE_TIMEOUT (R336): a silent worker is restarted; the packet is parsed again, with the same outcome. -/
def execWorkerParseTimeout (die : Nat) (s : State) : Host.Outcome State Fault Refusal :=
  .next (s.updFe die fun f => { f with restarts := f.restarts + 1 })

end Sys2Proof.Machine
end

