-- ==== Sys2Proof/Machine/Units.lean ====
section
/-! DEFINITION. The 32-byte units that packets travel as (R379, R380, R385): the header, and what follows it. -/

namespace Sys2Proof.Machine

abbrev Unit256 := BitVec 256

/-- A unit of fields, given as lowest bit, width and value. -/
def packUnit (l : List (Nat × Nat × Nat)) : Unit256 :=
  BitVec.ofNat 256 (l.foldl (fun a f => a + f.2.2 % 2 ^ f.2.1 * 2 ^ f.1) 0)

/-- Values of n bits, the first lowest, over as many units as they need. -/
def packValues (n : Nat) (l : List Nat) : List Unit256 :=
  let all := l.foldr (fun v a => v % 2 ^ n + a * 2 ^ n) 0
  (List.range ((n * l.length + 255) / 256)).map fun i => BitVec.ofNat 256 (all / 2 ^ (256 * i))

/-- A line's 64 bytes, in address order. -/
def lineUnits (d : Line) : List Unit256 := [d.extractLsb' 0 256, d.extractLsb' 256 256]

/-- Bytes of a line outside the mask zero. -/
def maskLine (m : ByteMask) (d : Line) : Line :=
  (List.range 64).foldl (fun a i => if m.getLsbD i then a ||| ((d.extractLsb' (8 * i) 8).setWidth 512 <<< (8 * i)) else a) 0

/-- The mask unit of an atomic, a reduction or a CAS: its lanes, and each one's word (doubleword) of the line. -/
def laneUnit (p : Packet) : Unit256 :=
  let size := if p.w64 then 8 else 4
  packUnit ((p.lanes.map fun x => (64 + x.lane, 1, 1)) ++ p.lanes.zipIdx.map fun x => (96 + 4 * x.2, 4, x.1.off / size))

/-- The operands of the lanes; of a CAS the expected value and then the new one. -/
def operandUnits (p : Packet) : List Unit256 :=
  packValues (if p.w64 then 64 else 32) (p.lanes.flatMap fun x => if p.pkop = 4 then [x.a.toNat, x.b.toNat] else [x.a.toNat])

/-- The two units of a chain list (R385). -/
def chainUnits (l : List ChainEnt) : List Unit256 :=
  let all := l.foldr (fun e a => (e.dst / 16 % 4096 + e.dst % 16 * 4096 + e.first.toNat * 65536 + e.prev % 2 ^ 24 * 131072) + a * 2 ^ 48) 0
  [BitVec.ofNat 256 all, BitVec.ofNat 256 (all / 2 ^ 256)]

/-- The units of a request after its header. -/
def requestUnits (p : Packet) : List Unit256 :=
  let mask := packUnit [(0, 64, p.mask.toNat)]
  if p.void then []
  else match p.pkop with
    | 0 | 5 => mask :: lineUnits (maskLine p.mask p.data)
    | 1 | 6 => [mask]
    | 7 => mask :: lineUnits (maskLine p.mask p.data) ++ chainUnits p.chain
    | _ => laneUnit p :: operandUnits p

/-- The units of an acknowledgement after its header. -/
def answerUnits (form : AckForm) (d : Line) (vals : List W64) : List Unit256 :=
  match form with
  | .bare => []
  | .line => lineUnits d
  | .words => packValues 32 (vals.map BitVec.toNat)
  | .dwords => packValues 64 (vals.map BitVec.toNat)

/-- What follows a message's header. The spec lays out the requests and the acknowledgements; of the others only the header
counts here (log entry 141). -/
def unitsAfter : Msg → List Unit256
  | .req p => requestUnits p
  | .ack _ _ _ form d vals => answerUnits form d vals
  | _ => []

/-- Units of a packet, header included (R379). -/
def unitsOf (m : Msg) : Nat := 1 + (unitsAfter m).length

/-- The unit kind (R380); a fetch request and its answer, to which the spec gives none, go as a channel
request and its acknowledgement (log entry 141). -/
def ukind : Msg → Nat
  | .req _ => 0
  | .ack _ _ _ _ _ _ => 1
  | .nack _ _ => 2
  | .resync _ => 3
  | .resyncAns _ => 4
  | .release _ _ => 5
  | .releaseAck _ => 5
  | .hopAck _ _ _ => 6
  | .rcAck _ _ => 7
  | .time _ => 8
  | .coord _ => 9
  | .fetch _ _ _ _ _ => 0
  | .block _ _ _ _ => 1
  | .reserved => 15

/-- Fields of a stream's key in a header. -/
def keyFields (k : StreamKey) : List (Nat × Nat × Nat) := [(8, 12, k.pkg), (20, 4, k.die), (41, 16, k.handle), (57, 16, k.epoch)]

/-- Fields of a header that its message gives. -/
def msgFields : Msg → List (Nat × Nat × Nat)
  | .req p => keyFields p.key ++ [(7, 1, p.first.toNat), (73, 24, p.seq), (97, 24, p.prev), (121, 4, p.pkop), (125, 5, p.var),
      (130, 1, p.w64.toNat), (131, 6, p.kid), (137, 3, p.cmps), (140, 52, p.pa), (224, 6, p.err)]
  | .ack k seq err _ _ _ => keyFields k ++ [(73, 24, seq), (224, 6, err)]
  | .nack k seq => keyFields k ++ [(73, 24, seq)]
  | .release k prev => keyFields k ++ [(97, 24, prev)]
  | .releaseAck k => keyFields k
  | .hopAck k seq _ => keyFields k ++ [(73, 24, seq)]
  | _ => []

/-- A message of a stream, whose key names its source. -/
def keyed : Msg → Bool
  | .req _ => true
  | .ack _ _ _ _ _ _ => true
  | .nack _ _ => true
  | .release _ _ => true
  | .releaseAck _ => true
  | .hopAck _ _ _ => true
  | _ => false

/-- `SRCPKG` and `SRCDIE` of a message without a stream: the package and die that send it. -/
def srcFields (w : WirePkt) : List (Nat × Nat × Nat) :=
  if keyed w.msg then [] else if 65536 ≤ w.src then [(8, 12, w.src - 65536)] else [(8, 12, w.src / 16), (20, 4, w.src % 16)]

/-- The header unit (R379): destination, source, units that follow, kind, connection number, and what the message gives. -/
def headerUnit (w : WirePkt) : Unit256 :=
  let node := decide (65536 ≤ w.dst)
  packUnit ([(0, 4, ukind w.msg), (4, 3, (unitsAfter w.msg).length), (24, 1, node.toNat),
    (25, 12, if node then w.dst - 65536 else w.dst / 16), (37, 4, if node then 0 else w.dst % 16), (192, 32, w.rcseq)] ++ srcFields w ++ msgFields w.msg)

/-- A packet's units as they go out on a port. -/
def wireUnits (w : WirePkt) : List Unit256 := headerUnit w :: unitsAfter w.msg

end Sys2Proof.Machine
end

