-- ==== Sys2Proof/Machine/Fabric.lean ====
section
/-! DEFINITION. The Transom's circuits (R375 to R378), Rutis ports (R386 to R389), reliable connections (R383) and the
package time unit (R391). -/

namespace Sys2Proof.Machine

/-! ### Circuits (R376, R378) -/

def State.setCirc (s : State) (i : Nat) (c : Circ) : State := s.updFab fun f => { f with circs := Map.put f.circs i c }

def Circ.withSt (c : Circ) (st err : Nat) : Circ := { c with reg := setField (setField c.reg 47 45 st) 55 48 err }

/-- Another circuit in Setup, Up or Teardown holds a granule of the entry on the same side of the same site; at site 16 of
the same bank. -/
def granuleTaken (s : State) (i : Nat) (c : Circ) : Bool :=
  (List.range 256).any fun j =>
    let d := s.circ j
    let same (a b : Nat) : Bool := decide (a = b) && (decide (a ≠ 16) || decide (c.bank = d.bank))
    decide (j ≠ i) && decide (1 ≤ d.st ∧ d.st ≤ 3) && decide (c.gmask &&& d.gmask ≠ 0) && (same c.src d.src || same c.dst d.dst)

/-- The first check that an establish command fails. -/
def circErr (s : State) (i : Nat) (c : Circ) : Nat :=
  let failed (x : Nat) : Bool := decide (x < 16) && decide ((s.fe x).st = 2)
  if c.gmask = 0 then 4
  else if 16 < c.src ∨ 16 < c.dst ∨ c.src = c.dst ∨ failed c.src ∨ failed c.dst then 2
  else if granuleTaken s i c then 1
  else 0

/-- A command written to an entry (R376). -/
def circCmd (s : State) (i cmd : Nat) : State :=
  let c := s.circ i
  let idle := decide (c.st = 0 ∨ c.st = 4)
  if idle && decide (cmd = 1) then
    let e := circErr s i c
    s.setCirc i (if e ≠ 0 then c.withSt 4 e else { c.withSt 1 (bitsN c.reg.toNat 55 48) with since := s.timeNs.toNat })
  else if idle && decide (cmd = 2) then s.setCirc i (c.withSt 0 (bitsN c.reg.toNat 55 48))
  else if c.st = 2 ∧ cmd = 2 then s.setCirc i (c.withSt 3 (bitsN c.reg.toNat 55 48))
  else s

/-- CIRCUIT_UP (R376): optical setup is complete, within 20 µs; messages that wait for a path go (R377). -/
def execCircuitUp (i : Nat) (s : State) : Host.Outcome State Fault Refusal :=
  let c := s.circ i
  if c.st = 1 ∧ i < 256 ∧ s.timeNs.toNat < c.since + 20000 then .next (takePaths (s.setCirc i (c.withSt 2 0))) else .next s

/-- CIRCUIT_SETUP_TIMEOUT (R376): not Up within 20 µs. -/
def execCircuitSetupTimeout (i : Nat) (s : State) : Host.Outcome State Fault Refusal :=
  let c := s.circ i
  if c.st = 1 ∧ c.since + 20000 ≤ s.timeNs.toNat then .next (s.setCirc i (c.withSt 4 3)) else .next s

def usesCirc (m : NetMsg) (i : Nat) : Bool :=
  match m.path with
  | some l => l.contains i
  | none => false

/-- TEARDOWN_COMPLETE (R376): nothing is in flight on the circuit. -/
def execTeardownComplete (i : Nat) (s : State) : Host.Outcome State Fault Refusal :=
  let c := s.circ i
  if c.st = 3 ∧ !(s.fab.net.any fun p => usesCirc p.2 i) then .next (s.setCirc i (c.withSt 0 (bitsN c.reg.toNat 55 48))) else .next s

/-- A die of this package resynchronises with a peer (R312); other packages' engines do so themselves. -/
def needResync (s : State) (place peer : Nat) : State :=
  if place < 65536 ∧ place / 16 = s.fab.pkgid then s.updEng (place % 16) fun e => { e with resync := insNat peer e.resync } else s

/-- Every engine resynchronises with the peers of its unacknowledged packets, and of the copies it keeps, that meet a
condition. -/
def resyncWhere (s : State) (sent : Sent → Bool) (kept : Packet → Bool) : State :=
  s.engs.foldl (fun s e =>
    let a := (e.2.sent.filter sent).map fun x => x.p.dst
    let b := (e.2.kept.filter fun x => kept x.1).map fun x => x.1.dst
    (a ++ b).foldl (fun s d => needResync s (diePlace s e.1) d) s) s

/-- A message in flight is lost: packets and their answers are found out by RESYNC, from the die whose stream it is; the
others are sent again by their senders (log entry 47). -/
def loseMsg (s : State) (n : Nat) (m : NetMsg) : State :=
  let gone := s.updFab fun f => { f with net := Map.del f.net n }
  match m.msg with
  | .req p => if keyPlace p.key = m.src then needResync gone m.src m.dst
      else s.updFab fun f => { f with net := Map.put f.net n { m with path := none } }
  | .ack _ _ _ _ _ _ => needResync gone m.dst m.src
  | .nack _ _ => needResync gone m.dst m.src
  | .resync _ => needResync gone m.src m.dst
  | .resyncAns _ => needResync gone m.dst m.src
  | _ => s.updFab fun f => { f with net := Map.put f.net n { m with path := none } }

/-- An Up circuit fails; units in flight on it are lost, and every stream with packets on it that are not acknowledged is
resynchronised (R378). -/
def loseCirc (s : State) (i : Nat) : State :=
  let s1 := s.setCirc i ((s.circ i).withSt 4 5)
  let s2 := resyncWhere s1 (fun x => x.path.contains i) fun p => s1.fab.net.any fun m => usesCirc m.2 i && decide (m.2.msg = .req p)
  (s2.fab.net.filter fun p => usesCirc p.2 i).foldl (fun s p => loseMsg s p.1 p.2) s2

/-- CIRCUIT_LOST (R378). -/
def execCircuitLost (i : Nat) (s : State) : Host.Outcome State Fault Refusal :=
  if (s.circ i).st ≠ 2 then .next s else .next (loseCirc s i)

/-! ### Ports (R387) -/

def State.updPort (s : State) (p : Nat) (g : Port → Port) : State :=
  s.updFab fun f => { f with ports := Map.put f.ports p (g (Map.getD f.ports p Port.reset)) }

def Port.txslot (p : Port) : Nat := bitsN p.stat.toNat 37 37
def Port.rxslot (p : Port) : Nat := bitsN p.stat.toNat 38 38
def Port.txvalid (p : Port) (k : Nat) : Bool := p.stat.getLsbD (35 + k)
def Port.rxvalid (p : Port) (k : Nat) : Bool := p.stat.getLsbD (33 + k)
def Port.limit (p : Port) : Nat := 2 ^ bitsN p.stat.toNat 45 40
def Port.en (p : Port) : Bool := p.stat.getLsbD 39
def Port.setTx (p : Port) (k : Nat) (v : Nat) : Port := { p with stat := setField p.stat (35 + k) (35 + k) v }
def Port.setRx (p : Port) (k : Nat) (v : Nat) : Port := { p with stat := setField p.stat (33 + k) (33 + k) v }

/-- A port goes down with a cause: both slots are cleared in both directions; flits not acknowledged are left to the
reliable connections. -/
def Port.down (p : Port) (cause : Nat) : Port :=
  { Port.reset with
    stat := setField (setField (setField p.stat 32 32 0) 36 33 0) 55 48 cause
    discards := p.discards }

/-- A port goes down; the connections send again what it carried (R383). -/
def portDown (s : State) (p cause : Nat) : State := s.updPort p fun x => x.down cause

/-- The packets of a port's flits that are not acknowledged, and those it has still to send. -/
def Port.carried (p : Port) : List WirePkt := p.unack.flatMap (fun f => f.payload) ++ p.txq

/-- A port goes down after a second authentication failure (R389): the streams whose requests it carried are
resynchronised too (R312). -/
def portFailed (s : State) (port : Nat) : State :=
  (s.port port).carried.foldl (fun s w => match w.msg with
    | .req p => needResync s w.src p.dst
    | _ => s) (portDown s port 1)

/-- A port no longer sends what it holds for a peer, but for a packet whose first units have gone out (R386): the rest of
that follows. -/
def Port.dropTx (peer : Nat) (p : Port) : Port :=
  let keep (w : WirePkt) : Bool := decide (routeIndex w.dst ≠ peer)
  match p.txq with
  | [] => p
  | w :: l => { p with txq := if p.txPart = 0 then (w :: l).filter keep else w :: l.filter keep }

/-- A connection restarts with number 0 as `conn` (R383); what the ports hold of older ones is discarded. -/
def restartRc (s : State) (peer conn : Nat) : State :=
  s.updFab fun f => { f with
    rcs := Map.put f.rcs peer { Rc.reset with conn := conn }
    ports := Map.mapVals (fun p => Port.dropTx peer { p with
      rxq := p.rxq.filter fun w => decide (routeIndex w.src ≠ peer) || decide (conn ≤ w.conn) }) f.ports }

/-- A failed connection restarts where its route holds a port that reaches the peer (R383). -/
def reachedAgain (port : Nat) (s : State) (peer : Nat) : State :=
  let r := Map.getD s.fab.rcs peer Rc.reset
  let e := Map.getD s.fab.routes peer 0
  if r.failed && e.getLsbD 32 && e.getLsbD port && (s.port port).up then restartRc s peer (r.conn + 1) else s

/-- A port reaches the peers of its routes: the failed connections among them restart. -/
def restartBy (s : State) (port : Nat) : State := s.fab.rcs.keys.foldl (reachedAgain port) s

/-- PORT_UP (R387): training has succeeded, with slot 0 loaded in both directions. Failed connections that the port
reaches restart (R383). -/
def execPortUp (port : Nat) (s : State) : Host.Outcome State Fault Refusal :=
  if 32 ≤ port then .refused .noSuchUnit
  else
    let p := s.port port
    if !p.en || p.up || !p.txvalid 0 || !p.rxvalid 0 then .next s
    else
      let stat := setField (setField (setField p.stat 38 37 0) 32 32 1) 55 48 0
      .next (restartBy (s.updPort port fun x => { x with stat := stat, ctr := 0, lseq := 0, rxSeq := 0 }) port)

/-- SIGNAL_LOST (R387). -/
def execSignalLost (port : Nat) (s : State) : Host.Outcome State Fault Refusal :=
  if 32 ≤ port then .refused .noSuchUnit else if (s.port port).up then .next (portDown s port 3) else .next s

/-- LINK_KEY_INSTALL (R388): the security processor loads a slot that is not loaded, for transmit or receive. A transmit
key for the slot not in use is the one whose want is counted. -/
def execLinkKeyInstall (port slot : Nat) (tx : Bool) (s : State) : Host.Outcome State Fault Refusal :=
  let p := s.port port
  if 32 ≤ port then .refused .noSuchUnit
  else if 2 ≤ slot ∨ s.host.phase ≠ 1 ∨ (if tx then p.txvalid slot else p.rxvalid slot) then .next s
  else if tx then
    .next ((s.updPort port fun p => { p.setTx slot 1 with starve := if slot = p.txslot then p.starve else none }).updHost fun h => { h with
      released := h.released.filter (· ≠ (port, slot)) })
  else .next (s.updPort port fun p => p.setRx slot 1)

/-! ### Reliable connections (R383) -/

def State.updRc (s : State) (place : Nat) (g : Rc → Rc) : State :=
  s.updFab fun f => { f with rcs := Map.put f.rcs (routeIndex place) (g (Map.getD f.rcs (routeIndex place) Rc.reset)) }

/-- A line of free values, from a value of `State.free` on. -/
def freeLine (n : Nat) : Line :=
  (List.range 8).foldl (fun l i => l ||| (Config.freeWord (n + i)).setWidth 512 <<< (64 * i)) 0

/-- The spill of a peer's state to its 128 bytes of the spill region (R384). The spec gives them no layout: they are free
values (log entry 110). -/
def spillPeer (s : State) (peer : Nat) : Option State :=
  let ln := bitsN s.fab.rcSpill.toNat 51 12 * 64 + 2 * peer
  let put (s : State) (ln : Nat) : Option State :=
    (homeWrite s agentChan ln (BitVec.allOnes 64) (freeLine s.free) 0 0).map fun s => { s with free := s.free + 8 }
  (put s ln).bind fun s => put s (ln + 1)

/-- A peer's state comes to the SRAM of 1,024 peers, where room is made by the spill of the least recently used peer that
has nothing unacknowledged. None where no peer qualifies, or the spill must wait (R384). -/
def rcTouch (s : State) (place : Nat) : Option State :=
  let i := routeIndex place
  let l := s.fab.rcSram
  let use (s : State) (l : List Nat) : State := s.updFab fun f => { f with rcSram := l.filter (· ≠ i) ++ [i] }
  if l.contains i ∨ l.length < 1024 then some (use s l)
  else (l.find? fun j => (Map.getD s.fab.rcs j Rc.reset).unack.isEmpty).bind fun j =>
    (spillPeer s j).map fun s => use s (l.filter (· ≠ j))

/-- The first message for a place off the package whose route takes a port and whose connection has room. -/
def nextOut (s : State) (port : Nat) : Option (Nat × NetMsg) :=
  s.fab.net.find? fun p =>
    let d := p.2.dst
    decide (siteOf s d = 16) && (p.2.path.isSome || (choosePath s p.2.src d).isSome) && (routePorts s d).contains port
      && rcOpen s d && !(s.rc d).failed && decide ((s.rc d).unack.length < 256) && (rcTouch s d).isSome

/-- The port complex numbers it and gives it to the port. -/
def pullOut (s : State) (port : Nat) : State :=
  match nextOut s port with
  | none => s
  | some (n, m) =>
    let r := s.rc m.dst
    let w : WirePkt := ⟨r.next % 2 ^ 32, r.conn, m.src, m.dst, m.msg⟩
    let s0 := takeMsg ((rcTouch (takePath s n) m.dst).getD s) n
    let s1 := (match m.msg with
      | .fetch ic pa _ _ _ => s0.updFab fun f => { f with fetches := f.fetches ++ [(ic, pa / 32)] }
      | _ => s0).updRc m.dst fun r =>
      { r with next := r.next + 1, unack := r.unack ++ [(w, s.timeNs.toNat)], lastAck := if r.unack.isEmpty then s.cycle else r.lastAck }
    s1.updPort port fun p => { p with txq := p.txq ++ [w] }

/-- Resolves an aperture address that arrives (R29, R381): the die that homes it, or `dst` where none does, and the address. -/
def apertureIn (s : State) (dst pa : Nat) : Nat × Nat :=
  match decodePa pa with
  | .peer _ off =>
    let a := peerBase s.fab.expwin + off
    match memDie a with
    | some d => (diePlace s d, a)
    | none => (dst, a)
  | _ => (dst, pa)

/-- What the port complex makes of a packet that arrives: its place and the message. A fetch request keeps the address that
its asker named beside the resolved one. -/
def resolveIn (s : State) (w : WirePkt) : Nat × Msg :=
  match w.msg with
  | .req p =>
    let r := apertureIn s w.dst p.pa
    (r.1, .req { p with pa := r.2, dst := if r.2 = p.pa then p.dst else r.1, launch := none })
  | .fetch ic pa key cmps home =>
    let r := apertureIn s w.dst home
    (r.1, .fetch ic pa key cmps r.2)
  | m => (w.dst, m)

def sendOn (s : State) (port : Nat) (w : WirePkt) : State := s.updPort port fun p => { p with txq := p.txq ++ [w] }

/-- Sends an answer of the port complex itself by the route to its peer (R382): on the port that asked where the route
holds it, else on the first one that is up; without one it is not sent. -/
def sendAnswer (s : State) (port : Nat) (w : WirePkt) : State :=
  match routePorts s w.dst with
  | [] => s
  | q :: l => sendOn s (if (q :: l).contains port then port else q) w

/-- Accepts a number: the cumulative count moves over those accepted beyond it. -/
def acceptSeq : Nat → Nat → List Nat → Nat × List Nat
  | 0, c, l => (c, l)
  | n + 1, c, l => if l.contains c then acceptSeq n (c + 1) (l.filter (· ≠ c)) else (c, l)

/-- The time unit takes a source's time (R391): one forward step where it is more than 1 ms behind a new source. -/
def syncTime (s : State) (src : Nat) (ns : W64) : State :=
  let c := s.fab.timeCtl
  if bitsN c.toNat 1 0 ≠ src ∨ src = 0 then s
  else
    let now := s.timeNs.toNat
    let step := !s.fab.synced && decide (now + 1000000 < ns.toNat)
    let t := if step then ns.toNat else now
    let off := if t < ns.toNat then ns.toNat - t else t - ns.toNat
    let s1 := if step then { s with timeNs := ns } else s
    s1.updFab fun f => { f with synced := true, timeCtl := setField f.timeCtl 12 12 (if off ≤ 100 then 1 else 0) }

/-- TIME_SYNCHRONISATION (R391): a PTP event message of the selected source brings its time. -/
def execTimeSynchronisation (src port : Nat) (ns : W64) (s : State) : Host.Outcome State Fault Refusal :=
  if src = 2 ∧ (bitsN s.fab.timeCtl.toNat 8 4 ≠ port ∨ !(s.port port).up) then .next s else .next (syncTime s src ns)

/-- What becomes of the packets of a connection that has failed or been restarted: streams are left to RESYNC (R312),
answers to it as well, and other messages are sent again. -/
def resend (l : List (WirePkt × Nat)) (s : State) : State :=
  l.foldl (fun s x => match x.1.msg with
    | .req _ => needResync s x.1.src x.1.dst
    | .resync _ => needResync s x.1.src x.1.dst
    | .ack _ _ _ _ _ _ => s
    | m => netSend s x.1.src x.1.dst m) s

/-- The peer has restarted the connection, which the other end then does too (R383): its own packets not acknowledged are
left to RESYNC (R312), the other messages are sent again. -/
def peerRestarted (s : State) (w : WirePkt) : State :=
  let r := s.rc w.src
  if w.conn ≤ r.conn then s
  else resend r.unack (restartRc s (routeIndex w.src) w.conn)

/-- RC_PACKET_ARRIVAL (R383, R380): the oldest packet received on a port is accepted and passed on, or discarded; every
arrival is acknowledged. A packet of a connection since restarted, or of one that has failed, is discarded; one of a later
connection restarts this end, and one that comes from the peer of a failed connection shows that a port reaches it again. Where the peer's state finds no room in the SRAM the packet waits (R384). -/
def execRcPacketArrival (port : Nat) (s : State) : Host.Outcome State Fault Refusal :=
  match (s.port port).rxq with
  | [] => .next s
  | w :: rest =>
    let s0 := s.updPort port fun p => { p with rxq := rest }
    let drop := s0.updPort port fun p => { p with discards := p.discards + 1 }
    match w.msg with
    | .rcAck _ _ => .next s
    | .reserved => .next drop
    | _ =>
      if w.dst < 65536 ∧ w.dst / 16 ≠ s.fab.pkgid ∨ 65536 ≤ w.dst ∨ !rcOpen s w.src ∨ w.conn < (s.rc w.src).conn then .next drop
      else if (s.rc w.src).failed ∧ w.conn = (s.rc w.src).conn then .next (reachedAgain port drop (routeIndex w.src))
      else match rcTouch (peerRestarted s0 w) w.src with
        | none => .next s
        | some s0 =>
          let r := s0.rc w.src
          let d := (w.rcseq + 2 ^ 32 - r.cum % 2 ^ 32) % 2 ^ 32
          let isNew := decide (d < 256) && !r.beyond.contains (r.cum + d)
          let acc := acceptSeq 257 r.cum (if isNew then r.beyond ++ [r.cum + d] else r.beyond)
          let s1 := s0.updRc w.src fun r => { r with cum := acc.1, beyond := acc.2 }
          let s2 := sendAnswer s1 port ⟨0, r.conn, diePlace s 0, w.src, .rcAck (acc.1 % 2 ^ 32) (acc.2.map (· % 2 ^ 32))⟩
          if !isNew then .next s2
          else match resolveIn s2 w with
            | (_, .time ns) => .next (if bitsN s.fab.timeCtl.toNat 8 4 = port then syncTime s2 2 ns else s2)
            | (dst, m) => .next (netSend s2 w.src dst m)

/-- RC_ACK (R383): the oldest packet received on a port acknowledges packets sent; one of another incarnation of the
connection is discarded. -/
def execRcAck (port : Nat) (s : State) : Host.Outcome State Fault Refusal :=
  match (s.port port).rxq with
  | { src := src, conn := conn, msg := .rcAck cum beyond, .. } :: rest =>
    let s0 := s.updPort port fun p => { p with rxq := rest }
    if conn ≠ (s.rc src).conn ∨ (s.rc src).failed then
      .next (reachedAgain port (s0.updPort port fun p => { p with discards := p.discards + 1 }) (routeIndex src))
    else .next (s0.updRc src fun r =>
      let left := r.unack.filter fun x => !(decide ((cum + 2 ^ 32 - (x.1.rcseq + 1) % 2 ^ 32) % 2 ^ 32 < 2 ^ 31)) && !beyond.contains x.1.rcseq
      { r with unack := left, lastAck := s.cycle })
  | _ => .next s

/-- RC_RETRANSMIT_TIMEOUT (R383): a packet not acknowledged for 10 µs goes out again, on a port of its route that is
up. -/
def execRcRetransmitTimeout (peer seq port : Nat) (s : State) : Host.Outcome State Fault Refusal :=
  let r := Map.getD s.fab.rcs peer Rc.reset
  match r.unack.find? fun x => x.1.rcseq = seq with
  | none => .next s
  | some (w, t) =>
    if s.timeNs.toNat < t + 10000 ∨ !(routePorts s w.dst).contains port then .next s
    else .next (sendOn (s.updRc w.dst fun r => { r with unack := r.unack.map fun x => if x.1.rcseq = seq then (w, s.timeNs.toNat) else x }) port w)

/-- RC_CONNECTION_FAILURE (R383): no acknowledgement for 2^24 cycles; every die resynchronises with the peer's places. -/
def execRcConnectionFailure (peer : Nat) (s : State) : Host.Outcome State Fault Refusal :=
  let r := Map.getD s.fab.rcs peer Rc.reset
  if r.unack.isEmpty ∨ r.failed ∨ s.cycle < r.lastAck + 2 ^ 24 then .next s
  else
    let s1 := s.updFab fun f => { f with
      rcs := Map.put f.rcs peer { Rc.reset with failed := true, conn := r.conn }
      ports := Map.mapVals (Port.dropTx peer) f.ports }
    .next (resend r.unack s1)

/-! ### Flits (R386, R388, R389) -/

/-- Fills the seven units of a data flit: the packets that end in it, those left, and the units of the first of these
already sent. -/
def fillFlit : Nat → List WirePkt → Nat → List WirePkt × List WirePkt × Nat
  | _, [], _ => ([], [], 0)
  | room, w :: l, part =>
    let n := unitsOf w.msg - part
    if n ≤ room then
      let r := fillFlit (room - n) l 0
      (w :: r.1, r.2.1, r.2.2)
    else ([], w :: l, part + room)

/-- A new flit takes the next counter and sequence. -/
def Port.send (p : Port) (ftype : Nat) (pkts : List WirePkt) (ctl : List (Bool × Nat)) (slot : Nat) : Port :=
  { p with ctr := p.ctr + 1, lseq := (p.lseq + 1) % 65536
           unack := p.unack ++ [⟨p.lseq, p.ctr, p.txslot, ftype, pkts, ctl, slot⟩] }

/-- FLIT_SEND (R388): a flit goes out: one to be resent, or the next one, which at the limit is KEYSW or none. -/
def execFlitSend (port : Nat) (s0 : State) : Host.Outcome State Fault Refusal :=
  if !(s0.port port).up then .next s0
  else
    let s := pullOut s0 port
    let p := s.port port
    let set (x : Port) : Host.Outcome State Fault Refusal := .next (s.updPort port fun _ => x)
    match p.resend with
    | _ :: l => set { p with resend := l }
    | [] =>
      if 1024 ≤ p.unack.length then .next s
      else if p.limit ≤ p.ctr + 1 then
        if p.txvalid (1 - p.txslot) && decide (p.ctr + 1 = p.limit) && p.relSlot.isNone then
          let q := p.send 2 [] [] (1 - p.txslot)
          set { q with stat := setField q.stat 37 37 (1 - p.txslot), ctr := 0, relSlot := some p.txslot, starve := none }
        else set { p with starve := match p.starve with
          | some c => some c
          | none => some s.cycle }
      else if !p.ctl.isEmpty then set { p.send 3 [] p.ctl 0 with ctl := [] }
      else if !p.txq.isEmpty then
        let f := fillFlit 7 p.txq p.txPart
        set { p.send 1 f.1 [] 0 with txq := f.2.1, txPart := f.2.2 }
      else set (p.send 0 [] [] 0)

/-- FLIT_ACK (R388): flits up to a sequence are acknowledged; a slot none of whose flits is left is released, and the
security processor is told. -/
def execFlitAck (port lseq : Nat) (s : State) : Host.Outcome State Fault Refusal :=
  let p := s.port port
  if !p.up || !(p.unack.any fun f => f.lseq = lseq) then .next s
  else
    let left := p.unack.drop (p.unack.findIdx (fun f => f.lseq = lseq) + 1)
    let q := { p with unack := left, resend := p.resend.filter fun f => left.contains f }
    match q.relSlot with
    | some k =>
      if left.any fun f => f.kslot = k then .next (s.updPort port fun _ => q)
      else .next ((s.updPort port fun _ => { q.setTx k 0 with relSlot := none }).updHost fun h => { h with
        released := h.released ++ [(port, k)] })
    | none => .next (s.updPort port fun _ => q)

/-- FLIT_NACK (R389): the sender goes back and sends again from that sequence on. -/
def execFlitNack (port lseq : Nat) (s : State) : Host.Outcome State Fault Refusal :=
  let p := s.port port
  if !p.up || !(p.unack.any fun f => f.lseq = lseq) then .next s
  else .next (s.updPort port fun p => { p with resend := p.unack.drop (p.unack.findIdx fun f => f.lseq = lseq) })

/-- FLIT_RECEIVE (R389): a flit arrives; `ok` says that its tag verifies, `slot` is what a KEYSW names, `pkts` are the
packets that end in it. -/
def execFlitReceive (port lseq kslot ftype slot : Nat) (ok : Bool) (pkts : List WirePkt) (s : State) : Host.Outcome State Fault Refusal :=
  let p := s.port port
  if !p.up || decide (lseq ≠ p.rxSeq) then .next s
  else if !ok || !p.rxvalid (kslot % 2) then
    let n := min (bitsN p.stat.toNat 31 0 + 1) (2 ^ 32 - 1)
    let q := { p with stat := setField p.stat 31 0 n }
    let s1 := s.updPort port fun _ => q
    .next (if p.failed then portFailed s1 port else s1.updPort port fun q => { q with failed := true, ctl := q.ctl ++ [(false, lseq)] })
  else
    let q := { p with rxSeq := (p.rxSeq + 1) % 65536, failed := false, ctl := p.ctl ++ [(true, lseq)] }
    .next (s.updPort port fun _ => match ftype with
      | 1 => { q with rxq := q.rxq ++ pkts }
      | 2 => let k := slot % 2
        if k = q.rxslot then q else { q.setRx q.rxslot 0 with stat := setField (q.setRx q.rxslot 0).stat 38 38 k }
      | _ => q)

/-- A flit with an uncorrectable FEC error (R386), of which nothing can be read: the receiver asks for the one it expects
next, and counts no authentication failure. -/
def fecError (port : Nat) (s : State) : State :=
  let p := s.port port
  if 32 ≤ port || !p.up then s else s.updPort port fun p => { p with ctl := p.ctl ++ [(false, p.rxSeq)] }

/-- KEY_STARVATION_EXPIRY (R388): no next key for 2^20 cycles. -/
def execKeyStarvationExpiry (port : Nat) (s : State) : Host.Outcome State Fault Refusal :=
  let p := s.port port
  match p.starve with
  | some c => if p.up && decide (c + 2 ^ 20 ≤ s.cycle) then .next (portDown s port 2) else .next s
  | none => .next s

end Sys2Proof.Machine
end

