-- ==== Sys2Proof/Machine/Reset.lean ====
section
/-! DEFINITION. Destroying a queue (R351), bias flips (R397 to R404), resets of a die (R415) and the Hinge pair's
recovery (R337). -/

namespace Sys2Proof.Machine

/-! ### Destroying a queue -/

/-- A launch of a destroyed source places nothing more and writes no record; in kill mode its gangs issue nothing more and are
discarded, by SHARE_COMPLETION where a casement word waits for its home. -/
def abandonLaunch (kill : Bool) (s : State) (k : Nat) : State :=
  let s1 := s.updLaunch k fun l => { l with phase := if kill then .killed else .ended, silent := true, resv := [] }
  let s2 := s1.updStage k fun p => { p with groups := [], queues := [], slots := p.slots.filter fun r => match r.st with
    | .committed _ => false
    | .grouped _ => false
    | _ => true }
  if kill then (discardShare s2 k .kill).getD s2 else s2

def launchesOf (s : State) (src : LaunchSrc) (die : Nat) : List Nat :=
  (s.launches.filter fun p => decide (shareDieOf p.1 = die ∧ p.2.src = src)).map (·.1)

/-- A write of `DESTROY`: 1 drain, 2 kill; nothing on a queue that reads Disabled. -/
def destroyQueue (s : State) (k mode : Nat) : State :=
  let q := s.queue k
  let st := qState q.ctl
  if st = 0 ∨ (st = 3 ∧ (mode ≠ 2 ∨ q.kill)) then s
  else
    let s1 := s.setQueue k { q with ctl := qSetState q.ctl 3, kill := decide (mode = 2), body := [] }
    settleQueue ((launchesOf s1 (.queue k) (k / 64)).foldl (abandonLaunch (decide (mode = 2))) s1) k

/-! ### Bias (R397 to R401) -/

def biasBase (s : State) (die : Nat) : Nat := ((Map.getD s.mem.biasReg die 0).extractLsb' 21 31).toNat * 2 ^ 21
def biasOn (s : State) (die : Nat) : Bool := (Map.getD s.mem.biasReg die 0).getLsbD 0

/-- Page number of a die's n-th page. -/
def diePage (die n : Nat) : Nat := die * 2 ^ 24 + n

def setBias (s : State) (page v : Nat) : State :=
  s.updMem fun m => { m with bias := if v = 0 then Map.del m.bias page else Map.put m.bias page v }

/-- Host-biased pages that one line of the table names. -/
def tablePages (die base ln : Nat) (l : Line) : List Nat :=
  ((List.range 512).filter fun i => l.getLsbD i).map fun i => diePage die ((64 * ln - base) * 8 + i)

/-- Lines of a range that memory or a home holds. -/
def heldLines (s : State) (lo hi : Nat) : List Nat :=
  let a := s.mem.cells.foldl (fun l c => if decide (lo ≤ c.1) && decide (c.1 < hi) then insNat (c.1 / 64) l else l) []
  s.mem.home.foldl (fun l h => if h.2.l2.isSome && decide (lo ≤ 64 * h.1) && decide (64 * h.1 < hi) then insNat h.1 l else l) a

/-- Turning bias tracking on loads the table (R397). -/
def loadBias (s : State) (die : Nat) : State :=
  let base := biasBase s die
  let content (ln : Nat) : Line := match (s.home ln).l2 with
    | some x => x.data
    | none => (memLine s ln 0).getD 0
  let pages := (heldLines s base (base + 2 ^ 21)).flatMap fun ln => tablePages die base ln (content ln)
  pages.foldl (fun s p => setBias s p 1) s

/-- A page of the die is in host bias. -/
def anyHostPage (s : State) (die : Nat) : Bool := s.mem.bias.any fun p => decide (p.1 / 2 ^ 24 = die)

/-- The home writes a page's table bit. -/
def putTableBit (s : State) (die n : Nat) (v : Bool) : State :=
  let a := biasBase s die + n / 8
  match homeGet s a 1 0 0 with
  | none => s
  | some (s1, b) => (homePut s1 agentFe a 1 (setBitsN b (n % 8) 1 (if v then 1 else 0)) 0 0).getD s

/-- Lines of a page. -/
def pageLines (page : Nat) : List Nat := (List.range 64).map (page * 64 + ·)

/-- Step 2 of R400: the cores and casement units of the die write back what they hold of the page, in order, and drop
it, but for words whose write-back a fault kept (R420). None while a casement write-back waits. -/
def flushPage (s : State) (die page : Nat) : Option State :=
  let lines := pageLines page
  let core (s : State) (c : Nat) : State :=
    let s1 := coreDrainLines s c 0 lines
    let priv := ((s1.core c).l1.filter fun p => lines.contains p.1 && decide (p.2.dirty ≠ 0)).map (·.1)
    (coreWbs s1 c priv).updCore c fun k => { k with l1 := k.l1.filter fun p => !lines.contains p.1 }
  let s1 := (dieCores s die).foldl core s
  let gangs := s.csms.keys.filter fun g => decide (gangDie s g = die)
  let drop (s : State) (g : Nat) : State := s.updCsm g fun c =>
    { c with slots := Map.mapVals (fun t => { t with sectors := t.sectors.filter fun q => !lines.contains q.2.ln || decide (q.2.dirty ≠ 0) }) c.slots }
  (forAll (fun s g => forAll (fun s ln => csmDrain s g 0 (some ln))
    (lines.filter fun ln => (dirtySectors (s.csm g)).any fun d => (s.sector g d.1 d.2.1).ln = ln) s) gangs s1).map fun s2 =>
    gangs.foldl drop s2

/-- A flip ends: STATUS, BUSY and the interrupt (R398). -/
def flipDone (s : State) (die status : Nat) : State :=
  (s.updLd die fun l => { l with flip := none, biasCmd := setField (setField l.biasCmd 63 63 0) 55 48 status }).irq die 1

/-- Starts the flip that `HI_BIASCMD` holds, or finds why not (R398, R400, R401). -/
def startFlip (s : State) (die : Nat) : State :=
  let c := (s.ld die).biasCmd
  let n := bitsN c.toNat 23 0
  let toHost := c.getLsbD 40
  let page := diePage die n
  let now := Map.getD s.mem.bias page 0
  if !biasOn s die then flipDone s die 2
  else if (s.ld die).port.isNone then flipDone s die 3
  else if toHost = decide (now = 1) then flipDone s die 4
  else
    let f : Flip := { page := page, toHost := toHost, step := 0, lines := if toHost then [] else pageLines page, since := s.cycle }
    (setBias s page (if toHost then 2 else 3)).updLd die fun l => { l with flip := some f, biasCmd := setField l.biasCmd 63 63 1 }

/-- BIAS_FLIP_COMPLETE (R398 to R401): the flip of a die does what it can, and ends when its conditions hold. -/
def execBiasFlipComplete (die : Nat) (s : State) : Host.Outcome State Fault Refusal :=
  match (s.ld die).flip with
  | none => .next s
  | some f =>
    let lines := pageLines f.page
    if f.toHost then
      match flushPage s die f.page with
      | none => .next s
      | some s1 =>
        if lines.any fun ln => !(s1.home ln).pins.isEmpty || !(s1.home ln).held.isEmpty then
          .next (s1.updLd die fun l => { l with flip := some { f with step := 1 } })
        else
          let s2 := lines.foldl (fun s ln => s.dropL2 ln) s1
          .next (flipDone (setBias (putTableBit s2 die (f.page % 2 ^ 24) true) f.page 1) die 0)
    else if !f.lines.isEmpty then .next s
    else .next (flipDone (setBias (putTableBit s die (f.page % 2 ^ 24) false) f.page 0) die 0)

/-- Takes a line as answered: of a flip to device bias, the die's reset among them, or the snoop of a device request (R401, R403). -/
def answerLine (s : State) (die ln : Nat) : State :=
  let s1 := s.updLd die fun l => { l with
    flip := l.flip.map fun f => { f with lines := f.lines.filter (· ≠ ln) }
    ending := l.ending.map fun f => { f with lines := f.lines.filter (· ≠ ln) }
    asked := Map.del l.asked ln }
  match (s1.home ln).snoop with
  | .sent inv => s1.setHome ln { s1.home ln with snoop := .answered inv }
  | _ => s1

/-! ### Reset of a die (R415) -/

/-- Every share of a die ends without a record. -/
def killDie (s : State) (die : Nat) : State :=
  let ks := (s.launches.filter fun p => decide (shareDieOf p.1 = die)).map (·.1)
  ks.foldl (fun s k =>
    let t := let u := abandonLaunch true s k; (discardShare u k .reset).getD u
    (finishShare t k none 0 0 0).getD { t with launches := Map.del t.launches k, shares := Map.del t.shares k,
                                               stages := Map.del t.stages k }) s

/-- Dirty L2 lines of the die go to memory; what its homes kept is gone. -/
def flushHomes (s : State) (die : Nat) : State :=
  let s1 := (s.mem.home.filter fun p => decide (lineDie p.1 = die)).foldl (fun s p => s.dropL2 p.1) s
  s1.updMem fun m => { m with
    home := m.home.filter fun p => decide (lineDie p.1 ≠ die)
    msgs := m.msgs.filter fun p => decide (lineDie p.line ≠ die)
    inbox := m.inbox.filter fun p => decide (p.1 / 40 ≠ die)
    prefL2 := m.prefL2.filter fun p => decide (lineDie p.1 ≠ die) }

/-- The vault layer is zeroed, and HBM lines under key 0; lines under other keys stay as ciphertext. -/
def zeroDie (s : State) (die : Nat) : State :=
  s.updMem fun m =>
    let keep (a : Nat) : Bool := decide (memDie a ≠ some die) || (!isVault a && Map.has m.kmat (a / 64))
    { m with
      cells := m.cells.filter fun c => keep c.1
      inl := m.inl.filter fun p => keep (64 * p.1)
      kmat := m.kmat.filter fun p => keep (64 * p.1)
      bad := m.bad.filter fun p => keep (64 * p.1)
      slots := m.slots.filter fun p => decide (p.1 / 64 ≠ die)
      frr := m.frr.filter fun p => decide (p.1 / 16 ≠ die)
      bias := m.bias.filter fun p => decide (p.1 / 2 ^ 24 ≠ die)
      biasReg := Map.del m.biasReg die }

/-- Registers and caches of the die's units. -/
def clearUnits (s : State) (die : Nat) : State :=
  { s with
    queues := s.queues.filter fun p => decide (p.1 / 64 ≠ die)
    graphs := s.graphs.filter fun p => decide (p.1 / 32 ≠ die)
    mseqs := s.mseqs.filter fun p => decide (p.1 / 40 ≠ die)
    mats := s.mats.filter fun p => decide (p.1 / 40 ≠ die)
    cops := s.cops.filter fun p => decide (p.1 / 32 ≠ die)
    ctxs := s.ctxs.filter fun p => decide (p.1 / 32 ≠ die)
    copyqs := s.copyqs.filter fun p => decide (p.1 / 4 ≠ die)
    ready := s.ready.filter fun p => decide (p.1 / 64 ≠ die)
    lastSrc := s.lastSrc.filter fun p => decide (p.1 / 4 ≠ die)
    moves := s.moves.filter fun p =>
      !((s.copyqs.any fun q => decide (q.1 / 4 = die) && q.2.any fun c => decide (c.id = p.1))
        || s.ctxs.any fun c => decide (c.1 / 32 = die) && c.2.ops.any fun o => decide (o.id = p.1))
    cores := s.cores.filter fun p => decide (p.1 / 160 ≠ die)
    etlb := s.etlb.filter fun p => decide (etlbDie p.1 ≠ die)
    tus := Map.del s.tus die
    dbg := Map.del s.dbg die
    icache := s.icache.filter fun p => decide (icDie p.1 ≠ die)
    invs := s.invs.filter fun i => decide (i.die ≠ die)
    unserv := s.unserv.filter fun u => decide (u.1 ≠ die)
    nodeDone := s.nodeDone.filter fun p => decide (p.1 / 32 ≠ die)
    fab := { s.fab with fetches := s.fab.fetches.filter fun p => decide (icDie p.1 ≠ die) }
    engs := Map.upd s.engs die fun e => { ChEng.reset with nextHandle := e.nextHandle } }

/-- The streams of other dies to a die that is reset: those it holds, those of packets on their way to it or at its Sash, and
those of the other dies' engines that have sent to it. -/
def lostStreams (s : State) (die : Nat) : List StreamKey :=
  let here := diePlace s die
  let e := s.eng die
  let flying := s.fab.net.filterMap fun m => match m.2.msg with
    | .req p => if m.2.dst = here then some p.key else none
    | _ => none
  let sent := s.engs.flatMap fun d => ((d.2.sent.filter fun x => goesTo x.p here).map fun x => x.p.key)
    ++ (d.2.kept.filter fun x => x.1.dst = here).map fun x => x.1.key
  let open' := (s.chans.filter fun c => c.2.dests.any fun t => decide (t.dst = here) && !t.fresh).map fun c => streamKey s c.1
  (e.streams.map (·.key) ++ e.lost ++ e.sash.map (·.key) ++ flying ++ sent ++ open').foldl
    (fun l k => if l.contains k || decide (k.pkg = s.fab.pkgid ∧ k.die = die) then l else l ++ [k]) []

/-- What is on its way to the die when it is reset: a packet completes with DestinationReset; a fetch request fails with
ProtectionFault, code 5 (R419); the die's own fetch requests are forgotten. -/
def bounce (die : Nat) (s : State) (p : Nat × NetMsg) : State :=
  let hit := decide (p.2.dst = diePlace s die)
  match p.2.msg with
  | .req q => if hit then goneAck die (takeMsg s p.1) q else s
  | .fetch ic pa _ _ _ =>
    if p.2.src = diePlace s die then takeMsg s p.1
    else if hit then fetchAnswer (takeMsg s p.1) p.2.src p.2.dst ic pa 5 0 else s
  | _ => s

/-- The front end after a reset: Ready, or Failed where every quad is retired. -/
def resetFe (s : State) (die : Nat) : State :=
  s.setFe die { Fe.reset with st := if (usableQuads s die).isEmpty then 2 else 1 }

/-- A die reset (R415) whose pages all are in device bias or count as answered: work is abandoned as kill mode does, caches are
written back and zeroed, keys unloaded. -/
def dieReset (s0 : State) (die : Nat) : State :=
  let s1 := (dieCores s0 die).foldl coreDrainAll (killDie s0 die)
  let s2 := zeroDie (flushHomes s1 die) die
  let s3 := (clearUnits s2 die).updEng die fun e => { e with lost := lostStreams s2 die }
  let s4 := (s2.eng die).sash.foldl (goneAck die) (s3.fab.net.foldl (bounce die) s3)
  resetFe (s4.updLd die fun l => { l with flip := none, ending := none, hostKey := 0, asked := [] }) die

/-- Registers that a locked TDI freezes (R406), as they stand. -/
def frozenVals (s : State) (die : Nat) : List W64 :=
  [Map.getD s.mem.biasReg die 0, (s.tu die).astab, (s.tu die).cbase, (s.tu die).climit, (s.tu die).side, (s.fe die).en0, (s.fe die).en1]

def tdiLocked (s : State) (die : Nat) : Bool := decide ((s.ld die).tdi = .locked ∨ (s.ld die).tdi = .run)

/-- A TDI is in ERROR, with vector 2 (R406). -/
def toError (s : State) (die : Nat) : State := (s.updLd die fun l => { l with tdi := .error }).irq die 2

/-- The reset itself and what follows it. A reset that changes a frozen register of a locked TDI moves it to ERROR (R406);
STOP_INTERFACE reports when the TDI is unlocked. -/
def endReset (s : State) (die : Nat) (after : After) : State :=
  let u := s.setMem { s.mem with bias := s.mem.bias.filter fun p => decide (p.1 / 2 ^ 24 ≠ die) }
  let s1 := dieReset u die
  let s2 := match after with
    | .plain => s1
    | .failed => s1.setFe die { Fe.reset with st := 2 }
    | .stop => (s1.updLd die fun l => { l with tdi := .unlocked, session := none }).answer .stopped
  if tdiLocked s2 die && decide (frozenVals s2 die ≠ frozenVals s die) then toError s2 die else s2

/-- A flip in progress completes without the host (R404), as does what an earlier reset waits for. -/
def flipsDone (s : State) (die : Nat) : State :=
  let s1 := match (s.ld die).flip with
    | some f => flipDone (setBias s f.page 0) die 0
    | none => s
  match (s1.ld die).ending with
  | some e => endReset s1 die e.after
  | none => s1

/-- A die reset (R415): every host-biased page is flipped to device bias as R401 gives, then the reset acts; of an unbound die
at once. While the host has still to answer, the die's engines and front end start nothing. -/
def resetDie (s : State) (die : Nat) (after : After) : State :=
  let s1 := flipsDone s die
  let pages := (s1.mem.bias.filter fun p => decide (p.1 / 2 ^ 24 = die)).map (·.1)
  if (s1.ld die).port.isNone || pages.isEmpty then endReset s1 die after
  else (pages.foldl (fun s p => setBias s p 3) s1).updLd die fun l =>
    { l with ending := some { lines := pages.flatMap pageLines, since := s.cycle, after := after } }

/-- The host has answered for the last line: the reset acts. -/
def settleReset (s : State) (die : Nat) : State :=
  match (s.ld die).ending with
  | some e => if e.lines.isEmpty then endReset s die e.after else s
  | none => s

/-- A TDI moves to ERROR: vector 2 is raised and the die is reset (R406). -/
def tdiError (s : State) (die : Nat) : State := resetDie (toError (flipsDone s die) die) die .plain

/-- BIRSP (R401, R403): the host answers for one line. -/
def execBirsp (line : Nat) (s : State) : Host.Outcome State Fault Refusal :=
  .next (settleReset (answerLine s (lineDie line) line) (lineDie line))

/-- Since when a snoop of a line is unanswered: of a flip, of a reset, or of a device request. -/
def snoopSince (s : State) (line : Nat) : Option Nat :=
  let l := s.ld (lineDie line)
  let flip := l.flip.bind fun f => if f.lines.contains line then some f.since else none
  let ending := l.ending.bind fun f => if f.lines.contains line then some f.since else none
  (flip.or ending).or (Map.get l.asked line)

/-- BISNP_TIMEOUT (R404): a snoop unanswered for 2^24 cycles counts as answered, and vector 0 is raised. -/
def execBisnpTimeout (line : Nat) (s : State) : Host.Outcome State Fault Refusal :=
  let die := lineDie line
  match snoopSince s line with
  | none => .next s
  | some c => if s.cycle < c + 2 ^ 24 then .next s else .next (settleReset ((answerLine s die line).errIrq die) die)

/-! ### The Hinge pair (R337) -/

/-- HINGE_MISMATCH: dispatch stops while the pair recovers; a second mismatch within 10 s fails the die, whose tenant is
reset. -/
def execHingeMismatch (die : Nat) (s : State) : Host.Outcome State Fault Refusal :=
  let f := s.fe die
  let now := s.timeNs.toNat
  let second := match f.mismatch with
    | some t => decide (now ≤ t + 10000000000)
    | none => false
  if 16 ≤ die then .refused .noSuchUnit
  else if f.st ≠ 1 then .next s
  else if second then .next ((resetDie s die .failed).updFe die fun f => { f with st := 2 })
  else .next (s.setFe die { f with recovering := true, mismatch := some now })

/-- HINGE_RECOVERY_RESUME: the pair resumes from the rebuilt scheduler state, which nothing has changed. -/
def execHingeRecoveryResume (die : Nat) (s : State) : Host.Outcome State Fault Refusal :=
  .next (s.updFe die fun f => { f with recovering := false })

end Sys2Proof.Machine
end

