-- ==== Sys2Proof/Machine/HostReg.lean ====
section
/-! DEFINITION. Writes of device registers by front-end firmware and by hosts (R28, R395, R406, R407, R418), with what
each register does. A writer is 0 firmware, 1 and 2 the host on port 0 and 1, 3 and 4 the same hosts on a TDI's IDE
stream with its T bit set. -/

namespace Sys2Proof.Machine

/-! ### Queues and graphs (R339, R351, R352) -/

/-- A write of Q_CTL. -/
def writeQctl (s : State) (k off n : Nat) (v : W64) : State :=
  let q := s.queue k
  let idle := decide (qState q.ctl = 0)
  let d := regData off n v
  let lo := covers off n 31 0
  let c := putFields q.ctl (if idle then [(63, 48), (10, 10), (9, 9), (8, 4), (2, 1)] else [(10, 10)]) off n v
  let destroy := if lo then d / 2 ^ 27 % 4 else 0
  let en := d % 2 = 1
  let s1 := s.setQueue k { q with ctl := c }
  if (destroy = 1 ∨ destroy = 2) ∧ !idle then destroyQueue s1 k destroy
  else if !lo then s1
  else if en ∧ idle then
    if 4 ≤ qSize c ∧ qSize c ≤ 20 then
      s1.setQueue k { Queue.reset with
        base := q.base, ctl := qSetErr (qSetState (setField c 0 0 1) 1) 0
        body := q.body, wait := q.wait, bodyAsid := q.bodyAsid, bodyPriv := q.bodyPriv }
    else s1.setQueue k { q with ctl := qSetErr c 1 }
  else if !en ∧ qEn q.ctl ∧ qState q.ctl ≠ 3 then
    settleQueue (s1.setQueue k { q with ctl := setField c 0 0 0, disabling := true }) k
  else s1

/-- Reads the nodes of a graph from memory (R352). -/
def loadNodes (die base : Nat) : Nat → State → State × Except FeErr (List (List W64))
  | 0, s => (s, .ok [])
  | n + 1, s =>
    match fePhys die 32 base s with
    | (s1, .error e) => (s1, .error e)
    | (s1, .ok w) =>
      match loadNodes die (base + 256) n s1 with
      | (s2, .error e) => (s2, .error e)
      | (s2, .ok l) => (s2, .ok (w :: l))

/-- A write of GR_CTL; setting `RES` loads the nodes. None while that must wait; where the nodes cannot be read the graph
stays not resident, with error 1 (log entry 48). -/
def writeGctl (s : State) (k off n : Nat) (v : W64) : Option State :=
  let g := s.graph k
  let res := grRes g.ctl
  let c := putFields g.ctl (if res then [(7, 7), (1, 1), (0, 0)] else [(63, 48), (16, 10), (9, 8), (7, 7), (6, 6), (1, 1), (0, 0)]) off n v
  if !res && grRes c then
    match loadNodes (k / 32) (bitsN g.base.toNat 51 8 * 256) (grNodes c) s with
    | (s1, .ok l) => some (s1.setGraph k { g with ctl := c, nodes := l, bad := [] })
    | (_, .error (.wait _)) => none
    | (s1, .error _) => some (s1.setGraph k { g with ctl := setField (setField c 0 0 0) 47 40 1 })
  else some (s.setGraph k { g with ctl := c })

/-! ### Format regions (R77, R78) -/

/-- A write of FRR_CTL. EN = 1 written to an enabled region changes nothing (DESIGN CHOICE, log entry 152). -/
def writeFctl (s : State) (die i off n : Nat) (v : W64) : State :=
  let r := s.frr die i
  if !covers off n 31 0 then s
  else
    let d := regData off n v
    let en := d / 2 ^ 31 % 2 = 1
    if r.en then (if en then s else setFrr s die i { r with ctl := setField r.ctl 31 31 0 })
    else
      let fmt := d / 2 ^ 8 % 32
      let blk := decide (d / 2 ^ 16 % 2 = 1)
      let keep := setField (setField r.ctl 12 8 fmt) 16 16 (d / 2 ^ 16 % 2)
      if !en then setFrr s die i { r with ctl := keep }
      else
        let e := regionCheck s die i fmt blk r.base.toNat r.limit.toNat r.scale.toNat
        setFrr s die i { r with ctl := frrCtl (decide (e = 0)) e fmt blk }

/-! ### The debugger (R209, R210) -/

/-- The band at the focus of DBG_CTL. -/
def dbgBand (s : State) (die : Nat) (c : W64) : Option Nat :=
  let core := die * 160 + bitsN c.toNat 37 32 * 4 + bitsN c.toNat 31 30
  (s.bands.find? fun p => decide (bitsN c.toNat 37 32 < 40 ∧ p.2.core = core ∧ p.2.slot = bitsN c.toNat 29 24)
    && !(s.gang (s.wg (p.1 / 32)).gang).suspended).map (·.1)

def setDbg (s : State) (die : Nat) (c : W64) (status : Nat) : State :=
  { s with dbg := Map.put s.dbg die (setField c 55 48 status) }

/-- HALT: every band and sequencer of the focus gang stops. -/
def dbgHalt (s : State) (die : Nat) (c : W64) : State :=
  match dbgBand s die c with
  | none => setDbg s die c 2
  | some b => setDbg (s.updGang (s.wg (b / 32)).gang fun g => { g with halted := true }) die c 0

/-- RESUME: the halted gang runs. -/
def dbgResume (s : State) (die : Nat) (c : W64) : State :=
  match dbgBand s die c with
  | none => setDbg s die c 2
  | some b =>
    let g := (s.wg (b / 32)).gang
    if !(s.gang g).halted then setDbg s die c 3
    else setDbg (s.updGang g fun g => { g with halted := false, stepFib := none }) die c 0

/-- STEP: the batch of the focus fibre is to issue one instruction. -/
def dbgStep (s : State) (die : Nat) (c : W64) : State :=
  match dbgBand s die c with
  | none => setDbg s die c 2
  | some b =>
    let g := (s.wg (b / 32)).gang
    let k := b * 32 + bitsN c.toNat 23 19
    let f := s.fib k
    if !(s.gang g).halted then setDbg s die c 3
    else if !(decide (f.status = .ready ∨ f.status = .handler)) then setDbg s die c 1
    else setDbg (s.updGang g fun g => { g with stepFib := some k }) die c 0

def writeDbg (s : State) (die off n : Nat) (v : W64) : State :=
  if dbgBusy s die then s
  else
    let c := putFields (Map.getD s.dbg die 0) [(37, 32), (31, 30), (29, 24), (23, 19)] off n v
    let d := if covers off n 2 0 then regData off n v else 0
    if d % 2 = 1 then dbgHalt s die c
    else if d / 2 % 2 = 1 then dbgResume s die c
    else if d / 4 % 2 = 1 then dbgStep s die c
    else { s with dbg := Map.put s.dbg die c }

/-! ### Translation, bias, Transom, ports, time, power -/

/-- A write of TU_INV starts one invalidation (R359, R370, R418). The address that TU_INVVA's 57 bits name is the
canonical one (R358). -/
def writeInv (s : State) (die off n : Nat) (v : W64) : State :=
  let t := s.tu die
  let c := putFields t.inv [(63, 48), (47, 46), (45, 45), (44, 44)] off n v
  let kind := bitsN c.toNat 47 46
  if tuBusy s die || !covers off n 63 32 || decide (kind = 3) then s
  else
    let i : Inv := { fib := none, die := die, asid := if kind = 2 then none else some (bitsN c.toNat 63 48),
                     va := if kind = 0 then some ((t.invva.setWidth 57).signExtend 64).toNat else none, pkg := c.getLsbD 45, drain := c.getLsbD 44, done := false }
    { s.setTu die { t with inv := c } with invs := s.invs ++ [i] }

/-- A write of HI_BIASBASE (R397). -/
def writeBias (s : State) (die off n : Nat) (v : W64) : State :=
  let r := Map.getD s.mem.biasReg die 0
  let on := r.getLsbD 0
  let c := putFields r (if on then [(0, 0)] else [(51, 21), (0, 0)]) off n v
  let put (s : State) : State := s.updMem fun m => { m with biasReg := Map.put m.biasReg die c }
  if on && !c.getLsbD 0 then (if anyHostPage s die then s else put s)
  else if !on && c.getLsbD 0 then loadBias (put s) die
  else put s

/-- A write of HI_BIASCMD (R398, R418). -/
def writeBiasCmd (s : State) (die off n : Nat) (v : W64) : State :=
  let l := s.ld die
  if l.biasCmd.getLsbD 63 then s
  else
    let s1 := s.updLd die fun l => { l with biasCmd := putFields l.biasCmd [(40, 40), (23, 0)] off n v }
    if covers off n 63 32 then startFlip s1 die else s1

/-- A write of a connection table entry (R375, R376). -/
def writeCirc (s : State) (i off n : Nat) (v : W64) : State :=
  let c := s.circ i
  let s1 := if c.st = 0 ∨ c.st = 4 then s.setCirc i { c with reg := putFields c.reg [(42, 42), (41, 10), (9, 5), (4, 0)] off n v } else s
  if covers off n 44 43 then circCmd s1 i (regData off n v / 2 ^ 43 % 4) else s1

/-- A write of RP_STAT (R387). -/
def writeRp (s : State) (i off n : Nat) (v : W64) : State :=
  let p := s.port i
  let d := regData off n v
  if !covers off n 63 32 then s
  else
    let lim := d / 2 ^ 40 % 64
    let st0 := if 16 ≤ lim ∧ lim ≤ 32 then setField p.stat 45 40 lim else p.stat
    let en := d / 2 ^ 39 % 2
    let s1 := s.updPort i fun p => { p with stat := setField st0 39 39 en }
    if p.en ∧ en = 0 then portDown s1 i 4 else s1

/-- A write of RT_DATA (R382): a failed connection restarts once a port of the new route is up (R383). -/
def writeRoute (s : State) (e : W64) : State :=
  let i := s.fab.rtIndex
  let s1 := s.updFab fun f => { f with routes := Map.put f.routes i e }
  (List.range 32).foldl (fun s p => reachedAgain p s i) s1

/-- A write of TIME_CTL (R391): a SRC of 3 is ignored; a new source is yet to be acquired. -/
def writeTime (s : State) (off n : Nat) (v : W64) : State :=
  let c := s.fab.timeCtl
  let fields := if covers off n 1 0 ∧ regData off n v % 4 = 3 then [(8, 4)] else [(8, 4), (1, 0)]
  let c1 := putFields c fields off n v
  s.updFab fun f => { f with
    timeCtl := if bitsN c1.toNat 1 0 = bitsN c.toNat 1 0 then c1 else setField c1 12 12 0
    synced := f.synced && decide (bitsN c1.toNat 1 0 = bitsN c.toNat 1 0) }

/-- A write of FE_FEAT_EN0 or 1: the first after a reset counts (R355, R418). -/
def writeFeat (s : State) (die r off n : Nat) (v : W64) : State :=
  let f := s.fe die
  let w : W64 := BitVec.ofNat 64 (regData off n v)
  if r = 3 then (if f.wrote0 then s else s.setFe die { f with en0 := w &&& featCap0, wrote0 := true })
  else if f.wrote1 then s else s.setFe die { f with wrote1 := true }

/-- A write of a register by firmware or by a host that may write it. None while it must wait. -/
def writeReg (s : State) (die : Nat) (r : RegName) (off n : Nat) (v : W64) : Option State :=
  match r with
  | .q i 0 => let k := die * 64 + i
    some (if qState (s.queue k).ctl = 0 then s.updQueue k fun q => { q with base := putFields q.base [(51, 8)] off n v } else s)
  | .q i 1 => some (writeQctl s (die * 64 + i) off n v)
  | .q i 2 => some (if covers off n 31 0 then s.writeWidx (die * 64 + i) (BitVec.ofNat 32 (regData off n v)) else s)
  | .q _ _ => some s
  | .gr i 0 => let k := die * 32 + i
    some (if grRes (s.graph k).ctl then s else s.updGraph k fun g => { g with base := putFields g.base [(51, 8)] off n v })
  | .gr i 1 => writeGctl s (die * 32 + i) off n v
  | .gr i 2 => some (s.updGraph (die * 32 + i) Graph.trigger)
  | .gr _ _ => some s
  | .fe 0 => some (if covers off n 2 2 ∧ regData off n v / 4 % 2 = 1 then resetDie s die .plain else s)
  | .fe 3 => some (writeFeat s die 3 off n v)
  | .fe 4 => some (writeFeat s die 4 off n v)
  | .fe _ => some s
  | .err _ => some s
  | .frr i 0 => some (writeFctl s die i off n v)
  | .frr i j =>
    let x := s.frr die i
    some (if x.en then s
      else if j = 1 then setFrr s die i { x with base := putFields x.base [(51, 12)] off n v }
      else if j = 2 then setFrr s die i { x with limit := putFields x.limit [(51, 12)] off n v }
      else setFrr s die i { x with scale := putFields x.scale [(51, 6)] off n v })
  | .dbg => some (writeDbg s die off n v)
  | .tu 0 => some (s.setTu die { s.tu die with astab := putFields (s.tu die).astab [(51, 19)] off n v })
  | .tu 1 => some (s.setTu die { s.tu die with cbase := putFields (s.tu die).cbase [(51, 12)] off n v })
  | .tu 2 => some (s.setTu die { s.tu die with climit := putFields (s.tu die).climit [(51, 12)] off n v })
  | .tu 3 => some (s.setTu die { s.tu die with side := putFields (s.tu die).side [(51, 6)] off n v })
  | .tu 4 => some (writeInv s die off n v)
  | .tu _ => some (s.setTu die { s.tu die with invva := putFields (s.tu die).invva [(56, 0)] off n v })
  | .bias 0 => some (writeBias s die off n v)
  | .bias 1 => some (writeBiasCmd s die off n v)
  | .bias _ => some (s.updLd die fun l => { l with peerMask := putFields l.peerMask [(15, 0)] off n v })
  | .circ i => some (writeCirc s i off n v)
  | .relay => some (s.updFab fun f => { f with relay := (putFields (f.relay.setWidth 64) [(15, 0)] off n v).setWidth 16 })
  | .px =>
    let c := putFields (regRead s 0 .px) (if covers off n 13 12 ∧ regData off n v / 4096 % 4 = 3 then [(11, 0)] else [(13, 12), (11, 0)]) off n v
    some (s.updFab fun f => { f with expwin := bitsN c.toNat 13 12, pkgid := bitsN c.toNat 11 0 })
  | .rtIndex => some (s.updFab fun f => { f with rtIndex := bitsN (putFields (BitVec.ofNat 64 f.rtIndex) [(12, 0)] off n v).toNat 12 0 })
  | .rtData =>
    some (if s.fab.rtIndex < 6128 then writeRoute s (putFields (Map.getD s.fab.routes s.fab.rtIndex 0) [(32, 32), (31, 0)] off n v) else s)
  | .rcSpill => some (s.updFab fun f => { f with rcSpill := putFields f.rcSpill [(51, 12), (0, 0)] off n v })
  | .rp i => some (writeRp s i off n v)
  | .time => some (writeTime s off n v)
  | .pwrLimit =>
    some (if covers off n 15 0 then s.updHost fun h => { h with limit := max 1500 (min 6000 (regData off n v % 65536)) } else s)
  | .pwrStat => some s
  | .none => some s

/-! ### Who may write (R393, R395, R406, R407) -/

/-- Registers that only the management host writes (R393). -/
def mgmtReg : RegName → Bool
  | .circ _ => true
  | .relay => true
  | .px => true
  | .rtIndex => true
  | .rtData => true
  | .rcSpill => true
  | .rp _ => true
  | .time => true
  | .pwrLimit => true
  | .pwrStat => true
  | _ => false

/-- The host port of a writer. -/
def srcPort (src : Nat) : Nat := (src - 1) % 2

/-- A host's access reaches a die's registers (R393, R407), or those of the management host, which it reaches through
die 0's logical device where that is bound to its port and else through the switch's own. -/
def hostReaches (s : State) (src die : Nat) (r : RegName) : Bool :=
  let l := s.ld die
  let tdi := match l.tdi with
    | .locked => false
    | .run => decide (3 ≤ src)
    | _ => true
  if s.spdm.down.contains (srcPort src) then false
  else if mgmtReg r then decide (srcPort src = s.host.mgmt) && (decide (l.port ≠ some (srcPort src)) || tdi)
  else decide (l.port = some (srcPort src)) && tdi

/-- The registers that a locked TDI freezes (R406). -/
def frozenReg : RegName → Bool
  | .bias i => decide (i = 0)
  | .tu i => decide (i < 4)
  | .fe i => decide (i = 3 ∨ i = 4)
  | _ => false

/-- A write that would change a frozen register moves the TDI to ERROR instead (R406); what a reset changes it has itself
seen to (`endReset`). -/
def frozenWrite (s : State) (die : Nat) (r : RegName) (t : State) : State :=
  if tdiLocked s die && frozenReg r && decide (frozenVals t die ≠ frozenVals s die) then tdiError s die else t

/-- Registers that firmware does not write (R391, R393, R416); the Transom's others it may (R374; log entry 142). -/
def hostOnlyReg : RegName → Bool
  | .time => true
  | .pwrLimit => true
  | .pwrStat => true
  | _ => false

/-- What becomes of a host's MMIO request (R395, R407). -/
inductive Mmio where
  | unsupported | discarded | performed
deriving DecidableEq, Repr

/-- A host's MMIO request of n bytes: of another size or alignment, at a logical device that is not bound to its port, or
filtered by a TDI, it is an Unsupported Request; at the management host's registers that of another host is discarded. -/
def mmio (s : State) (src die off n : Nat) : Mmio :=
  let r := regName die off
  if 16 ≤ die ∨ 4 < src ∨ (n ≠ 4 ∧ n ≠ 8) ∨ off % n ≠ 0 then .unsupported
  else if hostReaches s src die r then .performed
  else if mgmtReg r ∧ srcPort src ≠ s.host.mgmt ∧ hostReaches s src die .none then .discarded
  else .unsupported

/-- A write of n bytes at an offset of a die's window, by firmware or a host; in RUN only a host's writes change
HI_PEERMASK (R407). -/
def hostWrite (s : State) (src die off n : Nat) (v : W64) : State :=
  let r := regName die off
  let write : State := match writeReg s die r off n v with
    | none => s
    | some t => frozenWrite s die r t
  if s.host.phase ≠ 1 then s
  else if src = 0 then
    if 16 ≤ die ∨ (n ≠ 4 ∧ n ≠ 8) ∨ off % n ≠ 0 ∨ hostOnlyReg r ∨ (r = .bias 2 ∧ (s.ld die).tdi = .run) then s else write
  else match mmio s src die off n with
    | .unsupported => s.answer .unsupported
    | .discarded => s
    | .performed => write

/-- A host's MMIO read (R395): of the whole register or of the half that it covers. Before bring-up ends it returns 0, as
`FE_STATE` in Reset does (R414). -/
def hostRead (src die off n : Nat) (s : State) : State :=
  if s.host.phase = 0 then s.answer (.value 0)
  else if s.host.phase ≠ 1 ∨ src = 0 then s.answer .unsupported
  else match mmio s src die off n with
    | .unsupported => s.answer .unsupported
    | .discarded => s.answer (.value 0)
    | .performed => s.answer (.value (BitVec.ofNat 64 (lineGet ((regRead s die (regName die off)).setWidth 512) (off % 8) n)))

/-- A host programs BAR 0 or HDM decoder 0 of a logical device bound to its port, in configuration space (R394): a change
while the TDI is locked moves it to ERROR (R406). -/
def hostConfig (src die : Nat) (g : Ld → Ld) (s : State) : State :=
  let l := s.ld die
  if 16 ≤ die ∨ s.host.phase ≠ 1 ∨ src = 0 ∨ l.port ≠ some (srcPort src) ∨ s.spdm.down.contains (srcPort src) ∨ g l = l then s
  else if tdiLocked s die then tdiError s die
  else s.updLd die g

def hostBar (src die base : Nat) (s : State) : State := hostConfig src die (fun l => { l with bar := base }) s
def hostHdm (src die : Nat) (base : Option Nat) (s : State) : State := hostConfig src die (fun l => { l with hdm := base }) s

/-! ### The events, one for each behaviour -/

/-- A register write that is of the kind an event names. -/
def regEvent (s : State) (src die off n : Nat) (v : W64) (kind : RegName → Nat → Bool) : Host.Outcome State Fault Refusal :=
  if 16 ≤ die then .refused .noSuchUnit
  else if kind (regName die off) (regData off n v) then .next (hostWrite s src die off n v) else .next s

def execQueueEnable (src die off n : Nat) (v : W64) (s : State) : Host.Outcome State Fault Refusal :=
  regEvent s src die off n v fun r d => match r with
    | .q _ 1 => covers off n 0 0 && decide (d % 2 = 1 ∧ d / 2 ^ 27 % 4 % 3 = 0)
    | _ => false

def execQueueDisable (src die off n : Nat) (v : W64) (s : State) : Host.Outcome State Fault Refusal :=
  regEvent s src die off n v fun r d => match r with
    | .q _ 1 => covers off n 0 0 && decide (d % 2 = 0 ∧ d / 2 ^ 27 % 4 % 3 = 0)
    | _ => false

def execDestroyDrain (src die off n : Nat) (v : W64) (s : State) : Host.Outcome State Fault Refusal :=
  regEvent s src die off n v fun r d => match r with
    | .q _ 1 => covers off n 28 27 && decide (d / 2 ^ 27 % 4 = 1)
    | _ => false

def execDestroyKill (src die off n : Nat) (v : W64) (s : State) : Host.Outcome State Fault Refusal :=
  regEvent s src die off n v fun r d => match r with
    | .q _ 1 => covers off n 28 27 && decide (d / 2 ^ 27 % 4 = 2)
    | _ => false

def execQWidx (src die off n : Nat) (v : W64) (s : State) : Host.Outcome State Fault Refusal :=
  regEvent s src die off n v fun r _ => match r with
    | .q _ 2 => true
    | _ => false

def execGrTrig (src die off n : Nat) (v : W64) (s : State) : Host.Outcome State Fault Refusal :=
  regEvent s src die off n v fun r _ => match r with
    | .gr _ 2 => true
    | _ => false

def execGraphLoad (src die off n : Nat) (v : W64) (s : State) : Host.Outcome State Fault Refusal :=
  regEvent s src die off n v fun r d => match r with
    | .gr i 1 => covers off n 0 0 && decide (d % 2 = 1) && !grRes (s.graph (die * 32 + i)).ctl
    | _ => false

def execReset (src die off n : Nat) (v : W64) (s : State) : Host.Outcome State Fault Refusal :=
  regEvent s src die off n v fun r d => match r with
    | .fe 0 => covers off n 2 2 && decide (d / 4 % 2 = 1)
    | _ => false

def execFeFeatEn (src die off n : Nat) (v : W64) (s : State) : Host.Outcome State Fault Refusal :=
  regEvent s src die off n v fun r _ => match r with
    | .fe i => decide (3 ≤ i)
    | _ => false

def execFrrEnable (src die off n : Nat) (v : W64) (s : State) : Host.Outcome State Fault Refusal :=
  regEvent s src die off n v fun r d => match r with
    | .frr _ 0 => covers off n 31 31 && decide (d / 2 ^ 31 % 2 = 1)
    | _ => false

def execFrrDisable (src die off n : Nat) (v : W64) (s : State) : Host.Outcome State Fault Refusal :=
  regEvent s src die off n v fun r d => match r with
    | .frr _ 0 => covers off n 31 31 && decide (d / 2 ^ 31 % 2 = 0)
    | _ => false

/-- A write of TU_INV of a kind. -/
def invEvent (s : State) (src die off n : Nat) (v : W64) (kind : Nat) : Host.Outcome State Fault Refusal :=
  regEvent s src die off n v fun r d => match r with
    | .tu 4 => covers off n 63 32 && decide (d / 2 ^ 46 % 4 = kind)
    | _ => false

def execInvalidatePage (src die off n : Nat) (v : W64) (s : State) : Host.Outcome State Fault Refusal := invEvent s src die off n v 0
def execInvalidateAsid (src die off n : Nat) (v : W64) (s : State) : Host.Outcome State Fault Refusal := invEvent s src die off n v 1
def execInvalidateAll (src die off n : Nat) (v : W64) (s : State) : Host.Outcome State Fault Refusal := invEvent s src die off n v 2

def execBiasTrackingEnable (src die off n : Nat) (v : W64) (s : State) : Host.Outcome State Fault Refusal :=
  regEvent s src die off n v fun r d => match r with
    | .bias 0 => covers off n 0 0 && decide (d % 2 = 1)
    | _ => false

def execBiasTrackingDisable (src die off n : Nat) (v : W64) (s : State) : Host.Outcome State Fault Refusal :=
  regEvent s src die off n v fun r d => match r with
    | .bias 0 => covers off n 0 0 && decide (d % 2 = 0)
    | _ => false

def execFlipToHost (src die off n : Nat) (v : W64) (s : State) : Host.Outcome State Fault Refusal :=
  regEvent s src die off n v fun r d => match r with
    | .bias 1 => covers off n 63 32 && decide (d / 2 ^ 40 % 2 = 1)
    | _ => false

def execFlipToDevice (src die off n : Nat) (v : W64) (s : State) : Host.Outcome State Fault Refusal :=
  regEvent s src die off n v fun r d => match r with
    | .bias 1 => covers off n 63 32 && decide (d / 2 ^ 40 % 2 = 0)
    | _ => false

/-- A write of a connection table entry with a command. -/
def circEvent (s : State) (src die off n : Nat) (v : W64) (cmd : Nat) : Host.Outcome State Fault Refusal :=
  regEvent s src die off n v fun r d => match r with
    | .circ _ => covers off n 44 43 && decide (d / 2 ^ 43 % 4 = cmd)
    | _ => false

def execCircuitEstablish (src die off n : Nat) (v : W64) (s : State) : Host.Outcome State Fault Refusal := circEvent s src die off n v 1
def execCircuitTeardown (src die off n : Nat) (v : W64) (s : State) : Host.Outcome State Fault Refusal := circEvent s src die off n v 2

/-- A write of RP_STAT with a value of EN. -/
def portEvent (s : State) (src die off n : Nat) (v : W64) (en : Nat) : Host.Outcome State Fault Refusal :=
  regEvent s src die off n v fun r d => match r with
    | .rp _ => covers off n 39 39 && decide (d / 2 ^ 39 % 2 = en)
    | _ => false

def execPortEnable (src die off n : Nat) (v : W64) (s : State) : Host.Outcome State Fault Refusal := portEvent s src die off n v 1
def execPortDisable (src die off n : Nat) (v : W64) (s : State) : Host.Outcome State Fault Refusal := portEvent s src die off n v 0

/-- A write of DBG_CTL with one of its actions. -/
def dbgEvent (s : State) (src die off n : Nat) (v : W64) (bit : Nat) : Host.Outcome State Fault Refusal :=
  regEvent s src die off n v fun r d => match r with
    | .dbg => covers off n 2 0 && decide (d / 2 ^ bit % 2 = 1)
    | _ => false

def execHalt (src die off n : Nat) (v : W64) (s : State) : Host.Outcome State Fault Refusal := dbgEvent s src die off n v 0
def execResume (src die off n : Nat) (v : W64) (s : State) : Host.Outcome State Fault Refusal := dbgEvent s src die off n v 1
def execStep (src die off n : Nat) (v : W64) (s : State) : Host.Outcome State Fault Refusal := dbgEvent s src die off n v 2

/-- DEVICE_REGISTER_WRITE (R28): any write. -/
def execDeviceRegisterWrite (src die off n : Nat) (v : W64) (s : State) : Host.Outcome State Fault Refusal :=
  regEvent s src die off n v fun _ _ => true

end Sys2Proof.Machine
end

