-- ==== Sys2Proof/Machine/HostIf.lean ====
section
/-! DEFINITION. The host interface: bring-up and resets (R412 to R415), binding (R393), host accesses to memory (R395,
R402), the security processor (R406 to R411), clock and power (R417). -/

namespace Sys2Proof.Machine

/-! ### Bring-up and resets -/

/-- A cold reset (R414, R415): everything at its reset value but the image, the fuses and what lies outside the package;
an image that passes brings every die to Ready and the identity key is derived (R408); another puts the package in
recovery. -/
def coldReset (s : State) : State :=
  let h := s.host
  let ok := h.image.2.1 && decide (h.minSvn ≤ h.image.2.2)
  { State.reset with
    agenda := s.agenda, focus := s.focus, free := s.free, nextId := s.nextId
    fes := if ok then (List.range 16).map fun d => (d, { Fe.reset with st := 1 }) else []
    host := { HostSt.reset with
      phase := if ok then 1 else 2, mgmt := h.mgmt, answers := h.answers, image := h.image, minSvn := h.minSvn,
      thermal := h.thermal, power := h.power, secret := h.secret, idKey := if ok then some (Config.identityKey h.secret) else none } }

def execColdReset (s : State) : Host.Outcome State Fault Refusal := .next (coldReset s)

/-- RECOVERY_VERIFY (R413): in recovery an image written into the window is checked; one that passes goes to flash and a
cold reset follows. -/
def execRecoveryVerify (image : Nat) (passes : Bool) (svn : Nat) (s : State) : Host.Outcome State Fault Refusal :=
  if s.host.phase = 2 ∧ passes ∧ s.host.minSvn ≤ svn then .next (coldReset (s.updHost fun h => { h with image := (image, passes, svn) }))
  else .next s

/-- SVN_RAISE (R412): the running image raises the fused minimum to its own security version. -/
def execSvnRaise (s : State) : Host.Outcome State Fault Refusal :=
  if s.host.phase = 1 ∧ s.host.minSvn < s.host.image.2.2 then .next (s.updHost fun h => { h with minSvn := h.image.2.2 }) else .next s

def execDieReset (die : Nat) (s : State) : Host.Outcome State Fault Refusal :=
  if 16 ≤ die then .refused .noSuchUnit else if s.host.phase ≠ 1 then .next s else .next (resetDie s die .plain)

/-- FLR (R415). -/
def execFlr (die : Nat) (s : State) : Host.Outcome State Fault Refusal :=
  if 16 ≤ die then .refused .noSuchUnit else if s.host.phase ≠ 1 then .next s else .next (tdiError s die)

/-- LINK_HOT_RESET (R415): flips on the port complete without the host; the link trains again. -/
def execLinkHotReset (port : Nat) (s : State) : Host.Outcome State Fault Refusal :=
  if 2 ≤ port then .refused .noSuchUnit
  else
    let done (l : Ld) : Ld := { l with flip := l.flip.map fun f => { f with lines := [] }
                                       ending := l.ending.map fun f => { f with lines := [] } }
    let s1 : State := { s with
      lds := Map.mapVals (fun l => if l.port = some port then done l else l) s.lds
      spdm := { s.spdm with down := s.spdm.down.filter (· ≠ port) } }
    .next ((List.range 16).foldl settleReset s1)

/-- A change of binding of a locked TDI moves it to ERROR (R406). -/
def rebind (s : State) (die : Nat) (port : Option Nat) : State :=
  let s1 := s.updLd die fun l => { l with port := port }
  if tdiLocked s die then tdiError s1 die else s1

/-- BIND (R393): a logical device that is not bound is bound to a port. -/
def execBind (die port : Nat) (s : State) : Host.Outcome State Fault Refusal :=
  if 16 ≤ die ∨ 2 ≤ port then .refused .noSuchUnit
  else if s.host.phase ≠ 1 ∨ (s.ld die).port.isSome then .next s
  else .next (rebind s die (some port))

/-- UNBIND (R393): acts as a die reset. -/
def execUnbind (die : Nat) (s : State) : Host.Outcome State Fault Refusal :=
  if 16 ≤ die then .refused .noSuchUnit
  else if s.host.phase ≠ 1 ∨ (s.ld die).port.isNone then .next s
  else .next (let s1 := rebind s die none; if tdiLocked s die then s1 else resetDie s1 die .plain)

/-! ### Host accesses to memory (R394, R395, R402, R407) -/

/-- The physical line of a host's line, by HDM decoder 0 as the host has programmed it (R394); none outside it. -/
def hdmLine (s : State) (die line : Nat) : Option Nat :=
  match (s.ld die).hdm with
  | some b => if b ≤ line ∧ line < b + 2 ^ 30 then some (hbmBase die / 64 + (line - b)) else none
  | none => none

/-- A host's memory access reaches the die. -/
def memReaches (s : State) (src die : Nat) : Bool := decide (1 ≤ src ∧ src ≤ 4) && hostReaches s src die .none

/-- No pin's held bytes stand between a host read and the home's bytes (R271). -/
def pinFree (s : State) (ln : Nat) : Bool := (s.home ln).pins.isEmpty || (s.home ln).held.isEmpty

/-- A write-back of the line is still due from a flip's steps 2 or 4 (R402). -/
def flushDue (s : State) (ln : Nat) : Bool :=
  (s.cores.any fun c => match Map.get c.2.l1 ln with
    | some x => decide (x.dirty ≠ 0)
    | none => false)
  || (s.csms.keys.any fun g => (dirtySectors (s.csm g)).any fun d => (s.sector g d.1 d.2.1).ln = ln)
  || (match (s.home ln).l2 with
      | some x => x.dirty
      | none => false)

/-- What the bias of the page lets a host do now: held, at the home, or at HBM. -/
inductive HostHow where
  | held | home | hbm
deriving DecidableEq, Repr

def hostHow (s : State) (ln : Nat) : HostHow :=
  match Map.getD s.mem.bias (pageOf ln) 0 with
  | 0 => .home
  | 1 => .hbm
  | 2 => if flushDue s ln then .held else .home
  | _ => .held

/-- The scale bytes that a fill of the line reads can be read at their homes now (R80, R403). -/
def scaleReady (s : State) (ln : Nat) : Bool := (scaleLines s ln).all fun x => lineReady s x .read
def scaleAsk (s : State) (ln : Nat) : State := (scaleLines s ln).foldl (fun s x => lineAsk s x .read) s

/-- MEMRD (R402): a host reads a line. -/
def execMemrd (src die line : Nat) (s : State) : Host.Outcome State Fault Refusal :=
  if 16 ≤ die then .refused .noSuchUnit
  else if s.host.phase ≠ 1 ∨ !memReaches s src die then .next (s.answer .unsupported)
  else match hdmLine s die line with
    | none => .next (s.answer .unsupported)
    | some ln =>
      let key := (s.ld die).hostKey
      let poison (s : State) : State := (s.answer (.line 0 true false)).errIrq die
      if inBiasTable s die (64 * ln) then .next ((s.answer (.line (BitVec.allOnes 512) false false)).errIrq die)
      else if !keyLoaded s die key then .next (poison s)
      else match hostHow s ln with
        | .held => .next s
        | how =>
          if !pinFree s ln || !homeTurn s agentHost ln then .next s
          else if !scaleReady s ln then .next (scaleAsk s ln)
          else match drainSources s ln none with
            | none => .next s
            | some s1 =>
              if !pinFree s1 ln then .next s
              else match homeRead (homeServed s1 agentHost ln) ln key 0 with
              | none => .next (poison s1)
              | some (s2, l) => .next ((if how = .hbm then s2.yieldL2 ln else s2).answer (.line l false (decide (how = .hbm))))

/-- MEMWR (R402): a host writes bytes of a line; `back` says that it is the write-back before a BIRsp, which is taken at
once. -/
def execMemwr (src die line : Nat) (mask : ByteMask) (data : Line) (back : Bool) (s : State) : Host.Outcome State Fault Refusal :=
  if 16 ≤ die then .refused .noSuchUnit
  else if s.host.phase ≠ 1 ∨ !memReaches s src die then .next (s.answer .unsupported)
  else match hdmLine s die line with
    | none => .next (s.answer .unsupported)
    | some ln =>
      let key := (s.ld die).hostKey
      if inBiasTable s die (64 * ln) then .next ((s.answer .unsupported).errIrq die)
      else if !keyLoaded s die key then .next (s.errIrq die)
      else if (hostHow s ln = .held ∨ !homeTurn s agentHost ln) ∧ !back then .next s
      else if !scaleReady s ln then .next (scaleAsk s ln)
      else match drainSources s ln none with
        | none => .next s
        | some s1 =>
          match homeWrite s1 agentHost ln mask data key 0 with
          | none => .next (s1.errIrq die)
          | some s2 => .next ((if hostHow s ln = .home then s2 else s2.yieldL2 ln).answer .written)

/-! ### SPDM (R408, R409; the order of requests is the standard's, log entry 50) -/

/-- A request that needs the connection to have come so far. -/
def spdmReq (s : State) (stage : Nat) (f : State → State) : Host.Outcome State Fault Refusal :=
  if s.host.phase ≠ 1 then .next s
  else if s.spdm.stage < stage then .next (s.answer .error)
  else .next (f s)

def setStage' (s : State) (n : Nat) : State := { s with spdm := { s.spdm with stage := n } }

def execGetVersion (s : State) : Host.Outcome State Fault Refusal := spdmReq s 0 fun s => (setStage' s 1).answer .version

def execGetCapabilities (s : State) : Host.Outcome State Fault Refusal := spdmReq s 1 fun s => (setStage' s 2).answer .capabilities

/-- `offered`: the requester offers the algorithms of R408. -/
def execNegotiateAlgorithms (offered : Bool) (s : State) : Host.Outcome State Fault Refusal :=
  spdmReq s 2 fun s => if offered then (setStage' s 3).answer .algorithms else s.answer .error

/-- The identity key of the package that has come up. -/
def idKey (s : State) : BitVec 3072 := s.host.idKey.getD 0

/-- A signature with the identity key. -/
def sign (s : State) (request nonce : Nat) : BitVec 3072 := Config.signature s.host.secret s.host.image.1 request nonce

def execGetDigests (s : State) : Host.Outcome State Fault Refusal :=
  spdmReq s 3 fun s => s.answer (.digests (Config.chainDigest (idKey s)))

def execGetCertificate (slot : Nat) (s : State) : Host.Outcome State Fault Refusal :=
  spdmReq s 3 fun s => s.answer (if slot = 0 then .certificate (idKey s) else .error)

def execChallenge (slot nonce : Nat) (s : State) : Host.Outcome State Fault Refusal :=
  spdmReq s 3 fun s => s.answer (if slot = 0 then .challenge (sign s 0 nonce) else .error)

/-- A measurement block (R409): of the boot ROM, of the image, or of its security version. -/
def measurement (s : State) (i : Nat) : Nat × BitVec 256 :=
  (i, if i = 1 then Config.bootRom else Config.digest (if i = 5 then s.host.image.2.2 else s.host.image.1) i)

def execGetMeasurements (index : Nat) (signed : Bool) (nonce : Nat) (s : State) : Host.Outcome State Fault Refusal :=
  spdmReq s 3 fun s =>
    let sig := if signed then some (sign s index nonce) else none
    s.answer (if index = 0xFF then .measurements ((List.range 5).map fun i => measurement s (i + 1)) sig
      else if 1 ≤ index ∧ index ≤ 5 then .measurements [measurement s index] sig
      else .error)

def execKeyExchange (id : Nat) (s : State) : Host.Outcome State Fault Refusal :=
  spdmReq s 3 fun s =>
    if s.spdm.sessions.any fun p => p.1 = id then s.answer .error
    else { s.answer (.session id) with spdm := { s.spdm with sessions := s.spdm.sessions ++ [(id, false)] } }

def execFinish (id : Nat) (s : State) : Host.Outcome State Fault Refusal :=
  spdmReq s 3 fun s =>
    if s.spdm.sessions.contains (id, false) then
      { s.answer .finished with spdm := { s.spdm with sessions := s.spdm.sessions.map fun p => if p.1 = id then (id, true) else p } }
    else s.answer .error

def execEndSession (id : Nat) (s : State) : Host.Outcome State Fault Refusal :=
  spdmReq s 3 fun s =>
    if s.spdm.sessions.any fun p => p.1 = id then
      { s.answer .ended with
        spdm := { s.spdm with sessions := s.spdm.sessions.filter fun p => p.1 ≠ id }
        lds := Map.mapVals (fun l => if l.session = some id then { l with session := none } else l) s.lds }
    else s.answer .error

/-- A request inside an established session. -/
def inSession (s : State) (id : Nat) (f : State → State) : Host.Outcome State Fault Refusal :=
  spdmReq s 3 fun s => if s.spdm.sessions.contains (id, true) then f s else s.answer .error

/-! ### Memory keys (R411) -/

def setKey (s : State) (die id material : Nat) : State :=
  s.updMem fun m => { m with slots := Map.put m.slots (die * 64 + id) material }

/-- KEY_LOAD: a TDI that is locked or runs gets a key, by a request in its own session, that which locked it (log entry
143); in RUN it may make it the default of its host requests. -/
def execKeyLoad (session die id material : Nat) (dflt : Bool) (s : State) : Host.Outcome State Fault Refusal :=
  if 16 ≤ die then .refused .noSuchUnit
  else inSession s session fun s =>
    let t := (s.ld die).tdi
    if !(decide (t = .locked ∨ t = .run)) || decide (id = 0 ∨ 63 < id ∨ (s.ld die).session ≠ some session) then s.answer .error
    else
      let s1 := setKey s die id (2 * material + 1)
      (if dflt ∧ t = .run then s1.updLd die fun l => { l with hostKey := id } else s1).answer .keyLoaded

/-- DRIVER_KEY_REQUEST: a die not in TDISP use gets a key that the security processor generates. -/
def execDriverKeyRequest (die id : Nat) (s : State) : Host.Outcome State Fault Refusal :=
  if 16 ≤ die then .refused .noSuchUnit
  else if s.host.phase ≠ 1 then .next s
  else if (s.ld die).tdi ≠ .unlocked ∨ id = 0 ∨ 63 < id then .next (s.answer .error)
  else .next ({ setKey s die id (2 * s.nextId) with nextId := s.nextId + 1 }.answer .keyLoaded)

/-! ### IDE (R410) -/

/-- A stream of a host port: the link's, or one for each logical device. -/
def streamOk (n : Nat) : Bool := decide (n / 32 < 2 ∧ n % 32 ≤ 16)

def execIdeKmKeyProg (session stream set : Nat) (s : State) : Host.Outcome State Fault Refusal :=
  inSession s session fun s =>
    if !streamOk stream || decide (1 < set) then s.answer .error
    else { s.answer .keyProg with spdm := { s.spdm with keys := Map.put s.spdm.keys stream (setBitsN (Map.getD s.spdm.keys stream 0) set 1 1) } }

/-- K_SET_GO: takes effect at the next packet and drains nothing. -/
def execKSetGo (session stream set : Nat) (s : State) : Host.Outcome State Fault Refusal :=
  inSession s session fun s =>
    if Map.getD s.spdm.keys stream 0 / 2 ^ set % 2 = 1 then
      { s.answer .keyGo with spdm := { s.spdm with inUse := Map.put s.spdm.inUse stream set } }
    else s.answer .error

/-- IDE_INTEGRITY_FAILURE: every TDI that uses the stream moves to ERROR, then the link goes down. -/
def execIdeIntegrityFailure (stream : Nat) (s : State) : Host.Outcome State Fault Refusal :=
  if !streamOk stream || !Map.has s.spdm.inUse stream then .next s
  else
    let port := stream / 32
    let dies := (List.range 16).filter fun d => decide ((s.ld d).port = some port) && (decide (stream % 32 = 0) || decide (stream % 32 = d + 1))
    let s1 := dies.foldl tdiError s
    .next { s1 with spdm := { s1.spdm with down := insNat port s1.spdm.down } }

/-! ### TDISP (R406) -/

def execLockInterface (session die : Nat) (s : State) : Host.Outcome State Fault Refusal :=
  if 16 ≤ die then .refused .noSuchUnit
  else inSession s session fun s =>
    if (s.ld die).tdi = .unlocked then (s.updLd die fun l => { l with tdi := .locked, session := some session }).answer .locked else s.answer .error

def execStartInterface (session die : Nat) (s : State) : Host.Outcome State Fault Refusal :=
  if 16 ≤ die then .refused .noSuchUnit
  else inSession s session fun s =>
    if (s.ld die).tdi = .locked then (s.updLd die fun l => { l with tdi := .run }).answer .started else s.answer .error

def execStopInterface (session die : Nat) (s : State) : Host.Outcome State Fault Refusal :=
  if 16 ≤ die then .refused .noSuchUnit
  else inSession s session fun s => resetDie s die .stop

/-- GET_INTERFACE_REPORT: BAR 0 as one MMIO range, HDM decoder 0 as device memory, as the host has programmed them (R394). -/
def execGetInterfaceReport (session die : Nat) (s : State) : Host.Outcome State Fault Refusal :=
  if 16 ≤ die then .refused .noSuchUnit
  else inSession s session fun s =>
    if (s.ld die).tdi = .locked ∨ (s.ld die).tdi = .run then
      s.answer (.report (s.ld die).bar 0x10000000 ((s.ld die).hdm.map (64 * ·)) 0x1000000000)
    else s.answer .error

/-! ### Clock and power (R416, R417) -/

/-- The highest step of 25 MHz at which the package stays within `PWR_LIMIT` and its thermal limits; 600 MHz where none does,
as a unit is never stopped (R3, R417). -/
def topStep (h : HostSt) : Nat :=
  (((List.range 25).map fun i => 1200 - 25 * i).find? fun m =>
    decide (m ≤ h.thermal) && decide (h.power.getD ((m - 600) / 25) 0 ≤ h.limit)).getD 600

/-- The step was changed less than 10 µs ago. -/
def stepSoon (s : State) : Bool :=
  match s.host.stepNs with
  | some t => decide (s.timeNs.toNat < t + 10000)
  | none => false

/-- The clock moves to a step, now. -/
def HostSt.atStep (h : HostSt) (mhz ns : Nat) : HostSt :=
  { h with mhz := mhz, stepNs := if mhz = h.mhz then h.stepNs else some ns }

/-- CLOCK_STEP: the arithmetic clock moves to the highest step allowed, a change at most once per 10 µs; WATTS is what has
been measured. -/
def execClockStep (mhz watts : Nat) (s : State) : Host.Outcome State Fault Refusal :=
  if mhz ≠ topStep s.host || (stepSoon s && decide (mhz ≠ s.host.mhz)) then .next s
  else .next (s.updHost fun h => { h.atStep mhz s.timeNs.toNat with watts := watts % 65536 })

/-- The power manager holds the highest step as time passes. -/
def holdStep (s : State) : State :=
  if stepSoon s then s else s.updHost fun h => h.atStep (topStep h) s.timeNs.toNat

/-- What each step of the clock would draw at the package's present work. -/
def powerDrawn (watts : List Nat) (s : State) : State := s.updHost fun h => { h with power := watts }

/-- The tray's cooling sets the highest step that the thermal limits allow (R417). -/
def thermalLimit (mhz : Nat) (s : State) : State := s.updHost fun h => { h with thermal := mhz }

/-- THERMAL_TRIP: the package powers off, and returns by a cold reset. -/
def execThermalTrip (s : State) : Host.Outcome State Fault Refusal := .next (s.updHost fun h => { h with phase := 3 })

end Sys2Proof.Machine
end

