-- ==== Sys2Proof/Machine/Integer.lean ====
section
/-! DEFINITION. NOP and the integer, 64-bit address and predicate instructions (R50, R119 to R128). Each has one
computation on words and one meaning per form; on a sequencer the registers are m or g registers (R119). -/

namespace Sys2Proof.Machine

abbrev Out := Host.Outcome State Fault Refusal

/-! ### Computations (R122 to R126) -/

def satS (v : Int) : W32 := BitVec.ofInt 32 (clampInt (intLo true 32) (intHi true 32) v)
def satU (v : Int) : W32 := BitVec.ofInt 32 (clampInt 0 (intHi false 32) v)

def addW (sub : Nat) (a b : W32) : W32 :=
  match sub with
  | 0 => a + b
  | 1 => satS (a.toInt + b.toInt)
  | _ => satU ((a.toNat : Int) + b.toNat)

def subW (sub : Nat) (a b : W32) : W32 :=
  match sub with
  | 0 => a - b
  | 1 => satS (a.toInt - b.toInt)
  | _ => satU ((a.toNat : Int) - b.toNat)

/-- The high word of the exact 64-bit product (R122: floor division). -/
def mulhW (sub : Nat) (a b : W32) : W32 :=
  let p : Int := match sub with
    | 0 => a.toInt * b.toInt
    | 1 => (a.toNat : Int) * b.toNat
    | _ => a.toInt * b.toNat
  BitVec.ofInt 32 (p.fdiv (2 ^ 32))

def madwW (sub : Nat) (a b : W32) (c : W64) : W64 :=
  match sub with
  | 0 => a.signExtend 64 * b.signExtend 64 + c
  | _ => a.zeroExtend 64 * b.zeroExtend 64 + c

/-- DIV: truncated quotient; a zero divisor gives all ones (R123). -/
def divW (sub : Nat) (a b : W32) : W32 :=
  if b = 0 then 0xFFFFFFFF#32
  else match sub with
    | 0 => BitVec.ofInt 32 (a.toInt.tdiv b.toInt)
    | _ => a / b

/-- REM: takes the sign of a; a zero divisor gives a (R123). -/
def remW (sub : Nat) (a b : W32) : W32 :=
  if b = 0 then a
  else match sub with
    | 0 => BitVec.ofInt 32 (a.toInt.tmod b.toInt)
    | _ => a % b

def minW (sub : Nat) (a b : W32) : W32 :=
  match sub with
  | 0 => if a.slt b then a else b
  | _ => if a.ult b then a else b

def maxW (sub : Nat) (a b : W32) : W32 :=
  match sub with
  | 0 => if b.slt a then a else b
  | _ => if b.ult a then a else b

def absW (a : W32) : W32 := if a.getLsbD 31 then -a else a

/-- Shifts by an unsigned amount; the width or more gives 0, or the sign fill for SAR (R124, R126). -/
def shlW {w : Nat} (a : BitVec w) (n : Nat) : BitVec w := if n < w then a <<< n else 0
def shrW {w : Nat} (a : BitVec w) (n : Nat) : BitVec w := if n < w then a >>> n else 0
def sarW {w : Nat} (a : BitVec w) (n : Nat) : BitVec w := a.sshiftRight (if n < w then n else w)

def rotW (sub : Nat) (a : W32) (n : Nat) : W32 :=
  match sub with
  | 0 => a.rotateLeft (n % 32)
  | _ => a.rotateRight (n % 32)

def clzW (a : W32) : W32 := BitVec.ofNat 32 (32 - bitLen a.toNat)
def popcW (a : W32) : W32 := BitVec.ofNat 32 (bitList a).length
def brevW (a : W32) : W32 := a.reverse

/-- Position and width of a bit field descriptor (R124). -/
def fieldPos (b : W32) : Nat := b.toNat % 32
def fieldLen (b : W32) : Nat := Nat.min (b.toNat / 256 % 64) (32 - fieldPos b)

def bfxW (sub : Nat) (a b : W32) : W32 :=
  let w := fieldLen b
  if w = 0 then 0
  else
    let v := bitsN a.toNat (fieldPos b + w - 1) (fieldPos b)
    match sub with
    | 0 => BitVec.ofInt 32 (sext v w)
    | _ => BitVec.ofNat 32 v

def bfiW (a b c : W32) : W32 :=
  BitVec.ofNat 32 (setBitsN c.toNat (fieldPos b) (fieldLen b) a.toNat)

def sh64W (sub : Nat) (p : W64) (n : Nat) : W64 :=
  match sub with
  | 0 => shlW p n
  | 1 => shrW p n
  | _ => sarW p n

/-- LEA: base, index shifted by sh, displacement (R126). -/
def leaW (p : W64) (x : W32) (sh : Nat) (disp : W32) : W64 := p + (x.signExtend 64 <<< sh) + imm64 disp

def plogW (sub : Nat) (a b : Bool) : Bool :=
  match sub with
  | 0 => a && b
  | 1 => a || b
  | 2 => a != b
  | 3 => a && !b
  | 4 => !a
  | 5 => true
  | _ => false

/-! ### NOP (R50): no effect whatever the guard -/

def nopOp (s : State) (len : Nat) : Out := .next (s.threads.foldl (fun s t => s.adv t len) s).settle

def execNop (_ : Fields) (s : State) : Out := nopOp s 0
def execNop96 (_ : Fields) (_ : W32) (s : State) : Out := nopOp s 1
def execNop128 (_ : Fields) (_ : Ext) (s : State) : Out := nopOp s 2

/-! ### 32-bit arithmetic (R122, R123) -/

def binX (f : Fields) (s : State) (op : W32 → W32 → W32) : Out :=
  s.aluX f 0 fun t => op (srcA f s t) (srcB f s t)
def binI (f : Fields) (imm : W32) (s : State) (op : W32 → W32 → W32) : Out :=
  s.aluX f 1 fun t => op (srcA f s t) imm
def unX (f : Fields) (s : State) (op : W32 → W32) : Out := s.aluX f 0 fun t => op (srcA f s t)

def execAdd (f : Fields) (s : State) : Out := binX f s (addW f.sub.toNat)
def execAdd96 (f : Fields) (imm : W32) (s : State) : Out := binI f imm s (addW f.sub.toNat)
def execSub (f : Fields) (s : State) : Out := binX f s (subW f.sub.toNat)
def execSub96 (f : Fields) (imm : W32) (s : State) : Out := binI f imm s (subW f.sub.toNat)
def execMul (f : Fields) (s : State) : Out := binX f s (· * ·)
def execMul96 (f : Fields) (imm : W32) (s : State) : Out := binI f imm s (· * ·)
def execMulh (f : Fields) (s : State) : Out := binX f s (mulhW f.sub.toNat)
def execMulh96 (f : Fields) (imm : W32) (s : State) : Out := binI f imm s (mulhW f.sub.toNat)
def execMad (f : Fields) (s : State) : Out :=
  s.aluX f 0 fun t => srcA f s t * srcB f s t + srcC f s t
def execMad96 (f : Fields) (imm : W32) (s : State) : Out :=
  s.aluX f 1 fun t => srcA f s t * imm + srcC f s t
def execMadw (f : Fields) (s : State) : Out :=
  s.aluXP f 0 fun t => madwW f.sub.toNat (srcA f s t) (srcB f s t) (pairC f s t)
def execMadw96 (f : Fields) (imm : W32) (s : State) : Out :=
  s.aluXP f 1 fun t => madwW f.sub.toNat (srcA f s t) imm (pairC f s t)
def execDiv (f : Fields) (s : State) : Out :=
  s.varX f 0 fun t => divW f.sub.toNat (srcA f s t) (srcB f s t)
def execDiv96 (f : Fields) (imm : W32) (s : State) : Out :=
  s.varX f 1 fun t => divW f.sub.toNat (srcA f s t) imm
def execRem (f : Fields) (s : State) : Out :=
  s.varX f 0 fun t => remW f.sub.toNat (srcA f s t) (srcB f s t)
def execRem96 (f : Fields) (imm : W32) (s : State) : Out :=
  s.varX f 1 fun t => remW f.sub.toNat (srcA f s t) imm
def execMin (f : Fields) (s : State) : Out := binX f s (minW f.sub.toNat)
def execMin96 (f : Fields) (imm : W32) (s : State) : Out := binI f imm s (minW f.sub.toNat)
def execMax (f : Fields) (s : State) : Out := binX f s (maxW f.sub.toNat)
def execMax96 (f : Fields) (imm : W32) (s : State) : Out := binI f imm s (maxW f.sub.toNat)
def execAbs (f : Fields) (s : State) : Out := unX f s absW

/-! ### Logic, shifts, bit fields (R124) -/

def execAnd (f : Fields) (s : State) : Out := binX f s (· &&& ·)
def execAnd96 (f : Fields) (imm : W32) (s : State) : Out := binI f imm s (· &&& ·)
def execOr (f : Fields) (s : State) : Out := binX f s (· ||| ·)
def execOr96 (f : Fields) (imm : W32) (s : State) : Out := binI f imm s (· ||| ·)
def execXor (f : Fields) (s : State) : Out := binX f s (· ^^^ ·)
def execXor96 (f : Fields) (imm : W32) (s : State) : Out := binI f imm s (· ^^^ ·)
def execAndn (f : Fields) (s : State) : Out := binX f s fun a b => a &&& ~~~ b
def execAndn96 (f : Fields) (imm : W32) (s : State) : Out := binI f imm s fun a b => a &&& ~~~ b
def execShl (f : Fields) (s : State) : Out := binX f s fun a b => shlW a b.toNat
def execShl96 (f : Fields) (imm : W32) (s : State) : Out := binI f imm s fun a b => shlW a b.toNat
def execShr (f : Fields) (s : State) : Out := binX f s fun a b => shrW a b.toNat
def execShr96 (f : Fields) (imm : W32) (s : State) : Out := binI f imm s fun a b => shrW a b.toNat
def execSar (f : Fields) (s : State) : Out := binX f s fun a b => sarW a b.toNat
def execSar96 (f : Fields) (imm : W32) (s : State) : Out := binI f imm s fun a b => sarW a b.toNat
def execRot (f : Fields) (s : State) : Out := binX f s fun a b => rotW f.sub.toNat a b.toNat
def execRot96 (f : Fields) (imm : W32) (s : State) : Out := binI f imm s fun a b => rotW f.sub.toNat a b.toNat
def execClz (f : Fields) (s : State) : Out := unX f s clzW
def execPopc (f : Fields) (s : State) : Out := unX f s popcW
def execBrev (f : Fields) (s : State) : Out := unX f s brevW
def execBfx (f : Fields) (s : State) : Out := binX f s (bfxW f.sub.toNat)
def execBfx96 (f : Fields) (imm : W32) (s : State) : Out := binI f imm s (bfxW f.sub.toNat)
def execBfi (f : Fields) (s : State) : Out :=
  s.aluX f 0 fun t => bfiW (srcA f s t) (srcB f s t) (srcC f s t)
def execBfi96 (f : Fields) (imm : W32) (s : State) : Out :=
  s.aluX f 1 fun t => bfiW (srcA f s t) imm (srcC f s t)

/-! ### SEL, CMP, MOV (R125) -/

def execSel (f : Fields) (s : State) : Out :=
  s.aluX f 0 fun t => if s.rp t f.c.toNat then srcA f s t else srcB f s t
def execSel96 (f : Fields) (imm : W32) (s : State) : Out :=
  s.aluX f 1 fun t => if s.rp t f.c.toNat then srcA f s t else imm
def execCmp (f : Fields) (s : State) : Out :=
  s.aluP f 0 fun t => intCond f.sub.toNat (srcA f s t) (srcB f s t)
def execCmp96 (f : Fields) (imm : W32) (s : State) : Out :=
  s.aluP f 1 fun t => intCond f.sub.toNat (srcA f s t) imm
def execMov (f : Fields) (s : State) : Out := unX f s id
def execLi (f : Fields) (imm : W32) (s : State) : Out := s.aluX f 1 fun _ => imm

/-! ### 64-bit (R126) -/

def execCmp64 (f : Fields) (s : State) : Out :=
  s.aluP f 0 fun t => intCond f.sub.toNat (pairA f s t) (pairB f s t)
def execCmp6496 (f : Fields) (imm : W32) (s : State) : Out :=
  s.aluP f 1 fun t => intCond f.sub.toNat (pairA f s t) (imm64 imm)
def execAdd64 (f : Fields) (s : State) : Out := s.aluXP f 0 fun t => pairA f s t + pairB f s t
def execAdd6496 (f : Fields) (imm : W32) (s : State) : Out := s.aluXP f 1 fun t => pairA f s t + imm64 imm
def execSub64 (f : Fields) (s : State) : Out := s.aluXP f 0 fun t => pairA f s t - pairB f s t
def execSub6496 (f : Fields) (imm : W32) (s : State) : Out := s.aluXP f 1 fun t => pairA f s t - imm64 imm
def execLea (f : Fields) (s : State) : Out :=
  s.aluXP f 0 fun t => leaW (pairA f s t) (srcB f s t) f.c.toNat 0
def execLea96 (f : Fields) (imm : W32) (s : State) : Out :=
  s.aluXP f 1 fun t => leaW (pairA f s t) (srcB f s t) f.c.toNat imm
def execSh64 (f : Fields) (s : State) : Out :=
  s.aluXP f 0 fun t => sh64W f.sub.toNat (pairA f s t) (srcB f s t).toNat
def execSh6496 (f : Fields) (imm : W32) (s : State) : Out :=
  s.aluXP f 1 fun t => sh64W f.sub.toNat (pairA f s t) imm.toNat

/-! ### Predicates (R127) -/

def execPlog (f : Fields) (s : State) : Out :=
  s.aluP f 0 fun t => plogW f.sub.toNat (s.rp t f.a.toNat) (s.rp t f.b.toNat)

/-- The predicate word as PMOV.rd gives it: p7 as 1; bit 31 reads 0 on a sequencer (R127). -/
def pmovWord (s : State) (t : Thr) : W32 :=
  let w := setBit32 (s.predWord t) 7 true
  match t with
  | .fib _ => w
  | _ => setBit32 w 31 false

def execPmovRd (f : Fields) (s : State) : Out := s.aluX f 0 fun t => pmovWord s t

/-- p0 to p6 and, on a fibre, CVF from the source; p7 stays 1 and every other bit 0 (R84, R127). -/
def pmovTo (s : State) (t : Thr) (v : W32) : State :=
  s.setPredWord t (match t with
    | .fib _ => (v &&& 0x8000007F#32) ||| 0x80#32
    | _ => (v &&& 0x7F#32) ||| 0x80#32)

def execPmovWr (f : Fields) (s : State) : Out := s.alu f 0 fun t s' => pmovTo s' t (srcA f s t)

end Sys2Proof.Machine
end

