-- ==== Sys2Proof/Machine/Dispatch.lean ====
section
/-! DEFINITION. One arm per constructor of `Instr`: its meaning, or a refusal by name. -/

namespace Sys2Proof.Machine

def exec (i : Instr) (s : State) : Host.Outcome State Fault Refusal :=
  match i with
  | .nop f => Sys2Proof.Machine.execNop f s
  | .nop96 f imm => Sys2Proof.Machine.execNop96 f imm s
  | .nop128 f ext => Sys2Proof.Machine.execNop128 f ext s
  | .add f => Sys2Proof.Machine.execAdd f s
  | .add96 f imm => Sys2Proof.Machine.execAdd96 f imm s
  | .sub f => Sys2Proof.Machine.execSub f s
  | .sub96 f imm => Sys2Proof.Machine.execSub96 f imm s
  | .mul f => Sys2Proof.Machine.execMul f s
  | .mul96 f imm => Sys2Proof.Machine.execMul96 f imm s
  | .mulh f => Sys2Proof.Machine.execMulh f s
  | .mulh96 f imm => Sys2Proof.Machine.execMulh96 f imm s
  | .mad f => Sys2Proof.Machine.execMad f s
  | .mad96 f imm => Sys2Proof.Machine.execMad96 f imm s
  | .madw f => Sys2Proof.Machine.execMadw f s
  | .madw96 f imm => Sys2Proof.Machine.execMadw96 f imm s
  | .div f => Sys2Proof.Machine.execDiv f s
  | .div96 f imm => Sys2Proof.Machine.execDiv96 f imm s
  | .rem f => Sys2Proof.Machine.execRem f s
  | .rem96 f imm => Sys2Proof.Machine.execRem96 f imm s
  | .min f => Sys2Proof.Machine.execMin f s
  | .min96 f imm => Sys2Proof.Machine.execMin96 f imm s
  | .max f => Sys2Proof.Machine.execMax f s
  | .max96 f imm => Sys2Proof.Machine.execMax96 f imm s
  | .abs f => Sys2Proof.Machine.execAbs f s
  | .and f => Sys2Proof.Machine.execAnd f s
  | .and96 f imm => Sys2Proof.Machine.execAnd96 f imm s
  | .or f => Sys2Proof.Machine.execOr f s
  | .or96 f imm => Sys2Proof.Machine.execOr96 f imm s
  | .xor f => Sys2Proof.Machine.execXor f s
  | .xor96 f imm => Sys2Proof.Machine.execXor96 f imm s
  | .andn f => Sys2Proof.Machine.execAndn f s
  | .andn96 f imm => Sys2Proof.Machine.execAndn96 f imm s
  | .shl f => Sys2Proof.Machine.execShl f s
  | .shl96 f imm => Sys2Proof.Machine.execShl96 f imm s
  | .shr f => Sys2Proof.Machine.execShr f s
  | .shr96 f imm => Sys2Proof.Machine.execShr96 f imm s
  | .sar f => Sys2Proof.Machine.execSar f s
  | .sar96 f imm => Sys2Proof.Machine.execSar96 f imm s
  | .rot f => Sys2Proof.Machine.execRot f s
  | .rot96 f imm => Sys2Proof.Machine.execRot96 f imm s
  | .clz f => Sys2Proof.Machine.execClz f s
  | .popc f => Sys2Proof.Machine.execPopc f s
  | .brev f => Sys2Proof.Machine.execBrev f s
  | .bfx f => Sys2Proof.Machine.execBfx f s
  | .bfx96 f imm => Sys2Proof.Machine.execBfx96 f imm s
  | .bfi f => Sys2Proof.Machine.execBfi f s
  | .bfi96 f imm => Sys2Proof.Machine.execBfi96 f imm s
  | .sel f => Sys2Proof.Machine.execSel f s
  | .sel96 f imm => Sys2Proof.Machine.execSel96 f imm s
  | .cmp f => Sys2Proof.Machine.execCmp f s
  | .cmp96 f imm => Sys2Proof.Machine.execCmp96 f imm s
  | .cmp64 f => Sys2Proof.Machine.execCmp64 f s
  | .cmp6496 f imm => Sys2Proof.Machine.execCmp6496 f imm s
  | .mov f => Sys2Proof.Machine.execMov f s
  | .li f imm => Sys2Proof.Machine.execLi f imm s
  | .add64 f => Sys2Proof.Machine.execAdd64 f s
  | .add6496 f imm => Sys2Proof.Machine.execAdd6496 f imm s
  | .sub64 f => Sys2Proof.Machine.execSub64 f s
  | .sub6496 f imm => Sys2Proof.Machine.execSub6496 f imm s
  | .lea f => Sys2Proof.Machine.execLea f s
  | .lea96 f imm => Sys2Proof.Machine.execLea96 f imm s
  | .sh64 f => Sys2Proof.Machine.execSh64 f s
  | .sh6496 f imm => Sys2Proof.Machine.execSh6496 f imm s
  | .plog f => Sys2Proof.Machine.execPlog f s
  | .pmovRd f => Sys2Proof.Machine.execPmovRd f s
  | .pmovWr f => Sys2Proof.Machine.execPmovWr f s
  | .fadd f => Sys2Proof.Machine.execFadd f s
  | .fadd96 f imm => Sys2Proof.Machine.execFadd96 f imm s
  | .fsub f => Sys2Proof.Machine.execFsub f s
  | .fsub96 f imm => Sys2Proof.Machine.execFsub96 f imm s
  | .fmul f => Sys2Proof.Machine.execFmul f s
  | .fmul96 f imm => Sys2Proof.Machine.execFmul96 f imm s
  | .ffma f => Sys2Proof.Machine.execFfma f s
  | .ffma96 f imm => Sys2Proof.Machine.execFfma96 f imm s
  | .fmin f => Sys2Proof.Machine.execFmin f s
  | .fmin96 f imm => Sys2Proof.Machine.execFmin96 f imm s
  | .fmax f => Sys2Proof.Machine.execFmax f s
  | .fmax96 f imm => Sys2Proof.Machine.execFmax96 f imm s
  | .fcmp f => Sys2Proof.Machine.execFcmp f s
  | .fcmp96 f imm => Sys2Proof.Machine.execFcmp96 f imm s
  | .fclass f => Sys2Proof.Machine.execFclass f s
  | .frcp f => Sys2Proof.Machine.execFrcp f s
  | .frsq f => Sys2Proof.Machine.execFrsq f s
  | .fsqrt f => Sys2Proof.Machine.execFsqrt f s
  | .fexp2 f => Sys2Proof.Machine.execFexp2 f s
  | .flog2 f => Sys2Proof.Machine.execFlog2 f s
  | .fsin f => Sys2Proof.Machine.execFsin f s
  | .fcos f => Sys2Proof.Machine.execFcos f s
  | .ftanh f => Sys2Proof.Machine.execFtanh f s
  | .frnd f => Sys2Proof.Machine.execFrnd f s
  | .cvt f => Sys2Proof.Machine.execCvt f s
  | .f2i f => Sys2Proof.Machine.execF2i f s
  | .i2f f => Sys2Proof.Machine.execI2f f s
  | .pack f => Sys2Proof.Machine.execPack f s
  | .unpk f => Sys2Proof.Machine.execUnpk f s
  | .unpkScaled f => Sys2Proof.Machine.execUnpkScaled f s
  | .qblk f => Sys2Proof.Machine.execQblk f s
  | .fdot2 f => Sys2Proof.Machine.execFdot2 f s
  | .fdot296 f imm => Sys2Proof.Machine.execFdot296 f imm s
  | .shfl f => Sys2Proof.Machine.execShfl f s
  | .shfl96 f imm => Sys2Proof.Machine.execShfl96 f imm s
  | .vote f => Sys2Proof.Machine.execVote f s
  | .redux f => Sys2Proof.Machine.execRedux f s
  | .scan f => Sys2Proof.Machine.execScan f s
  | .matchLanes f => Sys2Proof.Machine.execMatchLanes f s
  | .bra f imm => Sys2Proof.Machine.execBra f imm s
  | .brx f => Sys2Proof.Machine.execBrx f s
  | .call f imm => Sys2Proof.Machine.execCall f imm s
  | .callx f => Sys2Proof.Machine.execCallx f s
  | .ret f => Sys2Proof.Machine.execRet f s
  | .join f imm => Sys2Proof.Machine.execJoin f imm s
  | .wait f => Sys2Proof.Machine.execWait f s
  | .exit f => Sys2Proof.Machine.execExit f s
  | .yield f => Sys2Proof.Machine.execYield f s
  | .fibNew f imm => Sys2Proof.Machine.execFibNew f imm s
  | .idem f => Sys2Proof.Machine.execIdem f s
  | .bar f => Sys2Proof.Machine.execBar f s
  | .forkMatrix f ext => Sys2Proof.Machine.execForkMatrix f ext s
  | .forkCopy f ext => Sys2Proof.Machine.execForkCopy f ext s
  | .rdv f => Sys2Proof.Machine.execRdv f s
  | .rdv96 f imm => Sys2Proof.Machine.execRdv96 f imm s
  | .trap f => Sys2Proof.Machine.execTrap f s
  | .trap96 f imm => Sys2Proof.Machine.execTrap96 f imm s
  | .brk f => Sys2Proof.Machine.execBrk f s
  | .ld f => Sys2Proof.Machine.execLd f s
  | .ld96 f imm => Sys2Proof.Machine.execLd96 f imm s
  | .ldp f => Sys2Proof.Machine.execLdp f s
  | .ldp96 f imm => Sys2Proof.Machine.execLdp96 f imm s
  | .st f => Sys2Proof.Machine.execSt f s
  | .st96 f imm => Sys2Proof.Machine.execSt96 f imm s
  | .stp f => Sys2Proof.Machine.execStp f s
  | .stp96 f imm => Sys2Proof.Machine.execStp96 f imm s
  | .atom f => Sys2Proof.Machine.execAtom f s
  | .atom96 f imm => Sys2Proof.Machine.execAtom96 f imm s
  | .cas f => Sys2Proof.Machine.execCas f s
  | .cas96 f imm => Sys2Proof.Machine.execCas96 f imm s
  | .red f => Sys2Proof.Machine.execRed f s
  | .red96 f imm => Sys2Proof.Machine.execRed96 f imm s
  | .fence f => Sys2Proof.Machine.execFence f s
  | .cache f => Sys2Proof.Machine.execCache f s
  | .cache96 f imm => Sys2Proof.Machine.execCache96 f imm s
  | .pref f => Sys2Proof.Machine.execPref f s
  | .pref96 f imm => Sys2Proof.Machine.execPref96 f imm s
  | .csmOpen f ext => Sys2Proof.Machine.execCsmOpen f ext s
  | .csmClose f => Sys2Proof.Machine.execCsmClose f s
  | .csmFlush f => Sys2Proof.Machine.execCsmFlush f s
  | .csmDrop f => Sys2Proof.Machine.execCsmDrop f s
  | .csmPush f => Sys2Proof.Machine.execCsmPush f s
  | .ldl f => Sys2Proof.Machine.execLdl f s
  | .ldl96 f imm => Sys2Proof.Machine.execLdl96 f imm s
  | .stl f => Sys2Proof.Machine.execStl f s
  | .stl96 f imm => Sys2Proof.Machine.execStl96 f imm s
  | .atoml f => Sys2Proof.Machine.execAtoml f s
  | .atoml96 f imm => Sys2Proof.Machine.execAtoml96 f imm s
  | .cpy f ext => Sys2Proof.Machine.execCpy f ext s
  | .cpy2d f ext => Sys2Proof.Machine.execCpy2d f ext s
  | .gath f ext => Sys2Proof.Machine.execGath f ext s
  | .cpySeal f => Sys2Proof.Machine.execCpySeal f s
  | .gld f => Sys2Proof.Machine.execGld f s
  | .gld96 f imm => Sys2Proof.Machine.execGld96 f imm s
  | .gmov f ext => Sys2Proof.Machine.execGmov f ext s
  | .ggather f ext => Sys2Proof.Machine.execGgather f ext s
  | .gscat f ext => Sys2Proof.Machine.execGscat f ext s
  | .gsig f => Sys2Proof.Machine.execGsig f s
  | .gsig96 f imm => Sys2Proof.Machine.execGsig96 f imm s
  | .tfa f ext => Sys2Proof.Machine.execTfa f ext s
  | .tfb f ext => Sys2Proof.Machine.execTfb f ext s
  | .mma f => Sys2Proof.Machine.execMma f s
  | .mmaz f => Sys2Proof.Machine.execMmaz f s
  | .azero f => Sys2Proof.Machine.execAzero f s
  | .azero96 f imm => Sys2Proof.Machine.execAzero96 f imm s
  | .trel f => Sys2Proof.Machine.execTrel f s
  | .msync f => Sys2Proof.Machine.execMsync f s
  | .ascale f => Sys2Proof.Machine.execAscale f s
  | .ascale96 f imm => Sys2Proof.Machine.execAscale96 f imm s
  | .accWin f => Sys2Proof.Machine.execAccWin f s
  | .accWin96 f imm => Sys2Proof.Machine.execAccWin96 f imm s
  | .accRd f => Sys2Proof.Machine.execAccRd f s
  | .accRd96 f imm => Sys2Proof.Machine.execAccRd96 f imm s
  | .accWr f => Sys2Proof.Machine.execAccWr f s
  | .accWr96 f imm => Sys2Proof.Machine.execAccWr96 f imm s
  | .chopen f ext => Sys2Proof.Machine.execChopen f ext s
  | .chclose f => Sys2Proof.Machine.execChclose f s
  | .cst f ext => Sys2Proof.Machine.execCst f ext s
  | .cld f ext => Sys2Proof.Machine.execCld f ext s
  | .catom f ext => Sys2Proof.Machine.execCatom f ext s
  | .cred f ext => Sys2Proof.Machine.execCred f ext s
  | .ccpy f ext => Sys2Proof.Machine.execCcpy f ext s
  | .cmcast f ext => Sys2Proof.Machine.execCmcast f ext s
  | .chjoin f => Sys2Proof.Machine.execChjoin f s
  | .chdrain f => Sys2Proof.Machine.execChdrain f s
  | .chstat f => Sys2Proof.Machine.execChstat f s
  | .chreset f => Sys2Proof.Machine.execChreset f s
  | .ralloc f => Sys2Proof.Machine.execRalloc f s
  | .ralloc96 f imm => Sys2Proof.Machine.execRalloc96 f imm s
  | .rallocTry f => Sys2Proof.Machine.execRallocTry f s
  | .rallocTry96 f imm => Sys2Proof.Machine.execRallocTry96 f imm s
  | .rcommit f => Sys2Proof.Machine.execRcommit f s
  | .rabort f => Sys2Proof.Machine.execRabort f s
  | .rget f => Sys2Proof.Machine.execRget f s
  | .rdone f => Sys2Proof.Machine.execRdone f s
  | .sgstat f => Sys2Proof.Machine.execSgstat f s
  | .sgstat96 f imm => Sys2Proof.Machine.execSgstat96 f imm s
  | .srd f => Sys2Proof.Machine.execSrd f s
  | .swr f => Sys2Proof.Machine.execSwr f s
  | .rft f => Sys2Proof.Machine.execRft f s
  | .raceAnnotate f => Sys2Proof.Machine.execRaceAnnotate f s
  | .raceAnnotate96 f imm => Sys2Proof.Machine.execRaceAnnotate96 f imm s
  | .raceQuery f => Sys2Proof.Machine.execRaceQuery f s
  | .raceQuery96 f imm => Sys2Proof.Machine.execRaceQuery96 f imm s
  | .tlbiVa f => Sys2Proof.Machine.execTlbiVa f s
  | .tlbiAll f => Sys2Proof.Machine.execTlbiAll f s
  | .remoteFetchResponse n err block => Sys2Proof.Machine.execRemoteFetchResponse n err block s
  | .bandPrecedenceExpiry band => Sys2Proof.Machine.execBandPrecedenceExpiry band s
  | .fairnessRotation band => Sys2Proof.Machine.execFairnessRotation band s
  | .watchdogStarvation band => Sys2Proof.Machine.execWatchdogStarvation band s
  | .watchdogRejoin band n => Sys2Proof.Machine.execWatchdogRejoin band n s
  | .barrierTimeout rdv key => Sys2Proof.Machine.execBarrierTimeout rdv key s
  | .resultArrival who key id => Sys2Proof.Machine.execResultArrival who key id s
  | .lateFault k => Sys2Proof.Machine.execLateFault k s
  | .takeTrap k => Sys2Proof.Machine.execTakeTrap k s
  | .barrierCompletion key => Sys2Proof.Machine.execBarrierCompletion key s
  | .rendezvousCompletion w k => Sys2Proof.Machine.execRendezvousCompletion w k s
  | .pageFaultMapped die asid va lg pteAddr pte => Sys2Proof.Machine.execPageFaultMapped die asid va lg pteAddr pte s
  | .pageFaultUnserviceable die asid va lg => Sys2Proof.Machine.execPageFaultUnserviceable die asid va lg s
  | .workgroupRetirement w => Sys2Proof.Machine.execWorkgroupRetirement w s
  | .gangSuspension gang move => Sys2Proof.Machine.execGangSuspension gang move s
  | .gangResumption gang quad images privs => Sys2Proof.Machine.execGangResumption gang quad images privs s
  | .halt src die off n v => Sys2Proof.Machine.execHalt src die off n v s
  | .resume src die off n v => Sys2Proof.Machine.execResume src die off n v s
  | .step src die off n v => Sys2Proof.Machine.execStep src die off n v s
  | .ownershipRequest agent line => Sys2Proof.Machine.execOwnershipRequest agent line s
  | .epochUpdate agent line => Sys2Proof.Machine.execEpochUpdate agent line s
  | .writeBack agent line => Sys2Proof.Machine.execWriteBack agent line s
  | .drain core e line => Sys2Proof.Machine.execDrain core e line s
  | .backgroundDrain core => Sys2Proof.Machine.execBackgroundDrain core s
  | .retry line reqs => Sys2Proof.Machine.execRetry line reqs s
  | .l1Fill core line => Sys2Proof.Machine.execL1Fill core line s
  | .l2Eviction line => Sys2Proof.Machine.execL2Eviction line s
  | .l2Fill line => Sys2Proof.Machine.execL2Fill line s
  | .l2SliceRemap die => Sys2Proof.Machine.execL2SliceRemap die s
  | .casementFillAnswer gang sl k => Sys2Proof.Machine.execCasementFillAnswer gang sl k s
  | .casementNotice quad => Sys2Proof.Machine.execCasementNotice quad s
  | .casementAcquire gang => Sys2Proof.Machine.execCasementAcquire gang s
  | .haloPush gang => Sys2Proof.Machine.execHaloPush gang s
  | .casementDrain quad e line => Sys2Proof.Machine.execCasementDrain quad e line s
  | .casementBackgroundWriteback gang => Sys2Proof.Machine.execCasementBackgroundWriteback gang s
  | .copyCommandPerform ce id => Sys2Proof.Machine.execCopyCommandPerform ce id s
  | .copySourceAging ce => Sys2Proof.Machine.execCopySourceAging ce s
  | .batchCompletion fib batch => Sys2Proof.Machine.execBatchCompletion fib batch s
  | .copyTransferPerform c id => Sys2Proof.Machine.execCopyTransferPerform c id s
  | .tileFetchPerform quad => Sys2Proof.Machine.execTileFetchPerform quad s
  | .mmaPerform quad => Sys2Proof.Machine.execMmaPerform quad s
  | .azeroPerform quad => Sys2Proof.Machine.execAzeroPerform quad s
  | .ascalePerform quad => Sys2Proof.Machine.execAscalePerform quad s
  | .trelPerform quad => Sys2Proof.Machine.execTrelPerform quad s
  | .pinLimitExpiry quad => Sys2Proof.Machine.execPinLimitExpiry quad s
  | .channelRequestArrival n => Sys2Proof.Machine.execChannelRequestArrival n s
  | .channelAckArrival n => Sys2Proof.Machine.execChannelAckArrival n s
  | .sashNack n => Sys2Proof.Machine.execSashNack n s
  | .nackRetransmit die handle seq => Sys2Proof.Machine.execNackRetransmit die handle seq s
  | .streamRelease n => Sys2Proof.Machine.execStreamRelease n s
  | .streamReleaseAck n => Sys2Proof.Machine.execStreamReleaseAck n s
  | .ccpyLineHandover die job => Sys2Proof.Machine.execCcpyLineHandover die job s
  | .pathFailure die peer => Sys2Proof.Machine.execPathFailure die peer s
  | .resyncRequest n => Sys2Proof.Machine.execResyncRequest n s
  | .resyncAnswer n => Sys2Proof.Machine.execResyncAnswer n s
  | .pathLostExpiry die peer => Sys2Proof.Machine.execPathLostExpiry die peer s
  | .chainHopAck n => Sys2Proof.Machine.execChainHopAck n s
  | .chainTargetTimeout die handle seq reset => Sys2Proof.Machine.execChainTargetTimeout die handle seq reset s
  | .coopReport n => Sys2Proof.Machine.execCoopReport n s
  | .coopBegin n => Sys2Proof.Machine.execCoopBegin n s
  | .coopRefused n => Sys2Proof.Machine.execCoopRefused n s
  | .coopAbandon n => Sys2Proof.Machine.execCoopAbandon n s
  | .coopMessageTimeout n => Sys2Proof.Machine.execCoopMessageTimeout n s
  | .trapLaunchId n => Sys2Proof.Machine.execTrapLaunchId n s
  | .circuitEstablish src die off n v => Sys2Proof.Machine.execCircuitEstablish src die off n v s
  | .circuitTeardown src die off n v => Sys2Proof.Machine.execCircuitTeardown src die off n v s
  | .circuitUp c => Sys2Proof.Machine.execCircuitUp c s
  | .circuitSetupTimeout c => Sys2Proof.Machine.execCircuitSetupTimeout c s
  | .teardownComplete c => Sys2Proof.Machine.execTeardownComplete c s
  | .circuitLost c => Sys2Proof.Machine.execCircuitLost c s
  | .rcPacketArrival port => Sys2Proof.Machine.execRcPacketArrival port s
  | .rcAck port => Sys2Proof.Machine.execRcAck port s
  | .rcRetransmitTimeout peer seq port => Sys2Proof.Machine.execRcRetransmitTimeout peer seq port s
  | .rcConnectionFailure peer => Sys2Proof.Machine.execRcConnectionFailure peer s
  | .flitSend port => Sys2Proof.Machine.execFlitSend port s
  | .flitReceive port lseq kslot ftype slot ok pkts => Sys2Proof.Machine.execFlitReceive port lseq kslot ftype slot ok pkts s
  | .flitNack port lseq => Sys2Proof.Machine.execFlitNack port lseq s
  | .flitAck port lseq => Sys2Proof.Machine.execFlitAck port lseq s
  | .keyStarvationExpiry port => Sys2Proof.Machine.execKeyStarvationExpiry port s
  | .portEnable src die off n v => Sys2Proof.Machine.execPortEnable src die off n v s
  | .portDisable src die off n v => Sys2Proof.Machine.execPortDisable src die off n v s
  | .portUp port => Sys2Proof.Machine.execPortUp port s
  | .signalLost port => Sys2Proof.Machine.execSignalLost port s
  | .linkKeyInstall port slot tx => Sys2Proof.Machine.execLinkKeyInstall port slot tx s
  | .timeSynchronisation src port ns => Sys2Proof.Machine.execTimeSynchronisation src port ns s
  | .queueEnable src die off n v => Sys2Proof.Machine.execQueueEnable src die off n v s
  | .queueDisable src die off n v => Sys2Proof.Machine.execQueueDisable src die off n v s
  | .destroyDrain src die off n v => Sys2Proof.Machine.execDestroyDrain src die off n v s
  | .destroyKill src die off n v => Sys2Proof.Machine.execDestroyKill src die off n v s
  | .qWidx src die off n v => Sys2Proof.Machine.execQWidx src die off n v s
  | .packetNop die q => Sys2Proof.Machine.execPacketNop die q s
  | .packetLaunch die q => Sys2Proof.Machine.execPacketLaunch die q s
  | .packetWaitvalue die q => Sys2Proof.Machine.execPacketWaitvalue die q s
  | .packetSignal die q => Sys2Proof.Machine.execPacketSignal die q s
  | .packetGraph die q => Sys2Proof.Machine.execPacketGraph die q s
  | .packetInvalid die q => Sys2Proof.Machine.execPacketInvalid die q s
  | .launchDispatchBegin share => Sys2Proof.Machine.execLaunchDispatchBegin share s
  | .formatRegionTake share => Sys2Proof.Machine.execFormatRegionTake share s
  | .gangPlacement die kid images privs => Sys2Proof.Machine.execGangPlacement die kid images privs s
  | .shareCompletion share => Sys2Proof.Machine.execShareCompletion share s
  | .workerParseTimeout die => Sys2Proof.Machine.execWorkerParseTimeout die s
  | .hingeMismatch die => Sys2Proof.Machine.execHingeMismatch die s
  | .hingeRecoveryResume die => Sys2Proof.Machine.execHingeRecoveryResume die s
  | .grTrig src die off n v => Sys2Proof.Machine.execGrTrig src die off n v s
  | .graphLoad src die off n v => Sys2Proof.Machine.execGraphLoad src die off n v s
  | .launchNode die g => Sys2Proof.Machine.execLaunchNode die g s
  | .copyNode die g => Sys2Proof.Machine.execCopyNode die g s
  | .waitvalueNode die g => Sys2Proof.Machine.execWaitvalueNode die g s
  | .waitvalueTimeout die g => Sys2Proof.Machine.execWaitvalueTimeout die g s
  | .loopNode die g => Sys2Proof.Machine.execLoopNode die g s
  | .condNode die g => Sys2Proof.Machine.execCondNode die g s
  | .signalNode die g => Sys2Proof.Machine.execSignalNode die g s
  | .armNode die g => Sys2Proof.Machine.execArmNode die g s
  | .reset src die off n v => Sys2Proof.Machine.execReset src die off n v s
  | .feFeatEn src die off n v => Sys2Proof.Machine.execFeFeatEn src die off n v s
  | .stageTimerExpiry share n => Sys2Proof.Machine.execStageTimerExpiry share n s
  | .nodeGroupPlacement die kid images privs => Sys2Proof.Machine.execNodeGroupPlacement die kid images privs s
  | .rallocGrant share => Sys2Proof.Machine.execRallocGrant share s
  | .rallocStallExpiry share band => Sys2Proof.Machine.execRallocStallExpiry share band s
  | .frrEnable src die off n v => Sys2Proof.Machine.execFrrEnable src die off n v s
  | .frrDisable src die off n v => Sys2Proof.Machine.execFrrDisable src die off n v s
  | .invalidatePage src die off n v => Sys2Proof.Machine.execInvalidatePage src die off n v s
  | .invalidateAsid src die off n v => Sys2Proof.Machine.execInvalidateAsid src die off n v s
  | .invalidateAll src die off n v => Sys2Proof.Machine.execInvalidateAll src die off n v s
  | .invalidationCompletion n => Sys2Proof.Machine.execInvalidationCompletion n s
  | .pageWalk die asid va => Sys2Proof.Machine.execPageWalk die asid va s
  | .biasTrackingEnable src die off n v => Sys2Proof.Machine.execBiasTrackingEnable src die off n v s
  | .biasTrackingDisable src die off n v => Sys2Proof.Machine.execBiasTrackingDisable src die off n v s
  | .flipToHost src die off n v => Sys2Proof.Machine.execFlipToHost src die off n v s
  | .flipToDevice src die off n v => Sys2Proof.Machine.execFlipToDevice src die off n v s
  | .biasFlipComplete die => Sys2Proof.Machine.execBiasFlipComplete die s
  | .birsp line => Sys2Proof.Machine.execBirsp line s
  | .bisnpTimeout line => Sys2Proof.Machine.execBisnpTimeout line s
  | .memrd src die line => Sys2Proof.Machine.execMemrd src die line s
  | .memwr src die line mask data back => Sys2Proof.Machine.execMemwr src die line mask data back s
  | .deviceRegisterWrite src die off n v => Sys2Proof.Machine.execDeviceRegisterWrite src die off n v s
  | .bind die port => Sys2Proof.Machine.execBind die port s
  | .unbind die => Sys2Proof.Machine.execUnbind die s
  | .flr die => Sys2Proof.Machine.execFlr die s
  | .dieReset die => Sys2Proof.Machine.execDieReset die s
  | .linkHotReset port => Sys2Proof.Machine.execLinkHotReset port s
  | .coldReset => Sys2Proof.Machine.execColdReset s
  | .getVersion => Sys2Proof.Machine.execGetVersion s
  | .getCapabilities => Sys2Proof.Machine.execGetCapabilities s
  | .negotiateAlgorithms offered => Sys2Proof.Machine.execNegotiateAlgorithms offered s
  | .getDigests => Sys2Proof.Machine.execGetDigests s
  | .getCertificate slot => Sys2Proof.Machine.execGetCertificate slot s
  | .challenge slot nonce => Sys2Proof.Machine.execChallenge slot nonce s
  | .getMeasurements index signed nonce => Sys2Proof.Machine.execGetMeasurements index signed nonce s
  | .keyExchange id => Sys2Proof.Machine.execKeyExchange id s
  | .finish id => Sys2Proof.Machine.execFinish id s
  | .endSession id => Sys2Proof.Machine.execEndSession id s
  | .keyLoad session die id material dflt => Sys2Proof.Machine.execKeyLoad session die id material dflt s
  | .driverKeyRequest die id => Sys2Proof.Machine.execDriverKeyRequest die id s
  | .ideKmKeyProg session stream set => Sys2Proof.Machine.execIdeKmKeyProg session stream set s
  | .kSetGo session stream set => Sys2Proof.Machine.execKSetGo session stream set s
  | .ideIntegrityFailure stream => Sys2Proof.Machine.execIdeIntegrityFailure stream s
  | .lockInterface session die => Sys2Proof.Machine.execLockInterface session die s
  | .startInterface session die => Sys2Proof.Machine.execStartInterface session die s
  | .stopInterface session die => Sys2Proof.Machine.execStopInterface session die s
  | .getInterfaceReport session die => Sys2Proof.Machine.execGetInterfaceReport session die s
  | .svnRaise => Sys2Proof.Machine.execSvnRaise s
  | .recoveryVerify image passes svn => Sys2Proof.Machine.execRecoveryVerify image passes svn s
  | .clockStep mhz watts => Sys2Proof.Machine.execClockStep mhz watts s
  | .thermalTrip => Sys2Proof.Machine.execThermalTrip s
  | .registerLineFill band slice reg => Sys2Proof.Machine.execRegisterLineFill band slice reg s
  | .instructionCacheFill ic pa key cmps => Sys2Proof.Machine.execInstructionCacheFill ic pa key cmps s

end Sys2Proof.Machine
end

