-- ==== Sys2Proof/Machine/Clock.lean ====
section
/-! DEFINITION. What happens without an instruction or a named event: time passes and the counters of the timers run
(R181, R184 to R187, R241, R273, R312, R324, R346, R385, R404); a band merges batches (R88); an L1 evicts a line (R163);
a stored symbol goes bad (R32). -/

namespace Sys2Proof.Machine

/-- Whether a workgroup's gang runs: neither suspended nor halted (R187). -/
def wgRuns (s : State) (w : Nat) : Bool :=
  let g := s.gang (s.wg w).gang
  !g.suspended && !g.halted

/-- A batch that holds a Ready fibre. -/
def hasReady (s : State) (b : Nat) (x : Batch) : Bool :=
  (bitList x.mask).any fun l => decide ((s.fib (b * 32 + l)).status = .ready)

/-- The outstanding members of a rejoin (R185). -/
def outstanding (b : Band) (n : Nat) : W32 := b.j n &&& ~~~ b.jr n

/-- Cycles by which a rejoin's count rises: none while an outstanding member is Parked or in Handler status; a cycle in
which one issued does not count. -/
def jTick (s : State) (k n : Nat) (x : Nat × W32) : Nat :=
  let b := s.band k
  let out := outstanding b x.1
  if x.2 = 0 then 0
  else if (bitList out).any fun l =>
      let st := (s.fib (k * 32 + l)).status
      decide (st = .parked) || decide (st = .handler) then 0
  else if b.issued &&& out ≠ 0 then n - 1
  else n

/-- Instructions that may leave a thread at their own address: the transfers of R97, and WAIT, which may go on at once at
its rejoin's address. -/
def mayStay (i : Instr) : Bool :=
  match partsOf i with
  | some p => decide (0x60 ≤ p.op ∧ p.op ≤ 0x64) || decide (p.op = 0x66)
  | none => false

/-- A thread has gone on, trapped, or waits: an instruction that issued for it shows here. -/
def movedOn (s0 s : State) (t : Thr) : Bool :=
  decide (s.pcOf t ≠ s0.pcOf t) || (match t with
    | .fib k =>
      let x := s.fib k
      let y := s0.fib k
      decide (x.status ≠ y.status) || decide (x.handler ≠ y.handler) || decide (x.due ≠ y.due) || decide (x.passBrk ≠ y.passBrk)
    | _ => decide ((s.seq t).st ≠ (s0.seq t).st) || decide ((s.seq t).passBrk ≠ (s0.seq t).passBrk))

/-- The instruction has issued between `s0` and `s`. One that waits before issue (for a closer's accesses, a page walk, a
line's home, a sequencer that is not free) has moved no thread of its batch. -/
def hasIssued (i : Instr) (s0 s : State) : Bool := mayStay i || s0.threads.any (movedOn s0 s)

/-- A candidate of R181: the band could issue in this cycle. One whose instruction would only wait is none (log entry 128). -/
def State.candidate (s : State) (k : Nat) : Bool :=
  let x := { s with focus := .band k }
  x.mayIssue && (match prepare x with
    | .trap _ => true
    | .run s1 i =>
      (match exec i s1 with
        | .next s2 => hasIssued i s1 s2
        | _ => true)
    | _ => false)

/-- A band's counts after `n` cycles (R181, R184, R185). -/
def tickBand (s : State) (n k : Nat) (b : Band) : Band :=
  if !wgRuns s (k / 32) then b
  else
    let w := s.wg (k / 32)
    let others := b.batches.any fun x => decide (x.id ≠ b.cur) && hasReady s k x
    let can := match b.batch b.cur with
      | some x => s.canIssue k x
      | none => false
    { b with
      cand := if s.candidate k then b.cand + n else 0
      fair := if w.ctrl.getLsbD 0 && can && others then b.fair + n else b.fair
      batches := b.batches.map fun x =>
        if x.id ≠ b.cur ∧ hasReady s k x ∧ (b.batch b.cur).isSome then { x with starve := x.starve + n } else x
      jcount := b.jarr.foldl (fun m x => if jTick s k n x = 0 then m else Map.put m x.1 (Map.getD m x.1 0 + jTick s k n x)) b.jcount
      issued := 0 }

def stuck (s : State) (k : Nat) : Bool := decide ((s.fib k).status = .parked) || decide ((s.fib k).status = .handler)

/-- A barrier counts while something has arrived, nobody awaited is Parked or in a handler, and every gang of the domain
runs (R186, R187). -/
def barTicks (s : State) (key : Nat) : Bool :=
  let ps := s.participants key
  let arr := s.arrivedBar key
  !arr.isEmpty && (ps.all fun k => arr.contains k || !stuck s k) && ps.all fun k => wgRuns s (wgOf k)

def rdvTicks (s : State) (w k : Nat) : Bool :=
  let arr := s.rdvArrived w k
  s.rdvAny w k && wgRuns s w && (s.rdvParties w k).all fun j => arr.contains j || !stuck s j

/-- The keys of barriers at which a fibre waits. -/
def barKeys (s : State) : List Nat :=
  s.fibres.foldl (fun l p => match p.2.waitOn with
    | .barrier key => insNat key l
    | _ => l) []

def tickBars (n : Nat) (s : State) : State :=
  { s with bars := (barKeys s).foldl (fun m key =>
      if barTicks s key then Map.put m key { s.bar key with count := (s.bar key).count + n } else m) s.bars }

def tickWg (s : State) (n w : Nat) (g : Wg) : Wg :=
  { g with rdvs := (List.range 16).foldl (fun m k =>
      if rdvTicks s w k then Map.put m k { s.rdv w k with count := (s.rdv w k).count + n } else m) g.rdvs }

/-- A fetch that waits for the pin budget (R273). -/
def tickMat (s : State) (n q : Nat) (m : Mat) : Mat :=
  match m.queue with
  | .fetch _ _ _ _ _ _ _ true :: _ =>
    if wgRuns s (s.mseq q).wg ∧ 512 ≤ pinnedCount s q then { m with pinWait := m.pinWait + n } else m
  | _ => m

/-- Sources of the copy engines that have a line ready (R241). -/
def readySources (s : State) : List Nat :=
  (s.copyqs.filter fun p => sourceReady s p.1 8).map (fun p => p.1 * 16 + 8)
  ++ (s.ctxs.filter fun p => sourceReady s (p.1 / 8) (p.1 % 8)).map fun p => p.1 / 8 * 16 + p.1 % 8

/-- Waiting RALLOCs (R324, R331). -/
def tickStage (s : State) (n : Nat) (p : Proofer) : Proofer :=
  { p with reqs := p.reqs.map fun r =>
      if r.granted = none ∧ wgRuns s r.wg then { r with waited := r.waited + n } else r }

/-- Peers that a die's front end, its channel engine, its multicasts' sources and its instruction fetches have something for. -/
def pathPeers (s : State) (die : Nat) (e : ChEng) : List Nat :=
  (e.sent.map fun x => x.p.dst) ++ ((e.jobs.filter (·.cast)).map (·.srcHome)) ++ s.fab.net.filterMap fun m => match m.2.msg with
    | .coord _ => if m.2.src = diePlace s die then some m.2.dst else none
    | .fetch _ _ _ _ _ => if m.2.src = diePlace s die then some m.2.dst else none
    | _ => none

/-- Since when a peer has had no path, and a kept copy's target (R312, R346, R385). -/
def tickEng (s : State) (die : Nat) (e : ChEng) : ChEng :=
  let here := diePlace s die
  let since (old : Option Nat) (dst : Nat) : Option Nat :=
    if (choosePath s here dst).isSome then none else some (old.getD s.cycle)
  { e with
    noPath := (pathPeers s die e).foldl (fun m d => match since (Map.get e.noPath d) d with
      | some c => Map.put m d c
      | none => m) []
    kept := e.kept.map fun x => match x.1.chain[x.2.1]? with
      | some t => (x.1, x.2.1, since x.2.2 t.dst)
      | none => x }

/-- Dies with a channel engine or a coordination message on its way. -/
def tickEngs (s : State) : State :=
  (List.range 16).foldl (fun s d =>
    if Map.has s.engs d || !(pathPeers s d ChEng.reset).isEmpty then
      { s with engs := Map.put s.engs d (tickEng s d (Map.getD s.engs d ChEng.reset)) }
    else s) s

/-- Since when a snoop of a device request has been unanswered (R404). -/
def tickSnoops (s : State) : State :=
  s.mem.home.foldl (fun s p =>
    if p.2.snoop = .sent true ∨ p.2.snoop = .sent false then
      let d := lineDie p.1
      if Map.has (s.ld d).asked p.1 then s else s.updLd d fun l => { l with asked := Map.put l.asked p.1 s.cycle }
    else s) s

/-- The circuits of relay dies that have failed are lost (R378). -/
def dropRelays (s : State) : State :=
  ((List.range 256).filter fun i =>
    let c := s.circ i
    let failed (x : Nat) : Bool := decide (x < 16) && s.fab.relay.getLsbD x && decide ((s.fe x).st = 2)
    decide (c.st = 2) && (failed c.src || failed c.dst)).foldl loseCirc s

/-- `cycles` of the arithmetic clock and `ns` nanoseconds pass, in which nothing else happens. -/
def tick (cycles ns : Nat) (s : State) : State :=
  let s1 := tickBars cycles { s with
    bands := s.bands.map fun p => (p.1, tickBand s cycles p.1 p.2)
    wgs := s.wgs.map fun p => (p.1, tickWg s cycles p.1 p.2)
    mats := s.mats.map fun p => (p.1, tickMat s cycles p.1 p.2)
    ready := (readySources s).foldl (fun m k => Map.put m k (Map.getD s.ready k 0 + cycles)) []
    stages := s.stages.map fun p => (p.1, tickStage s cycles p.2) }
  let s2 := dueDrains (tickSnoops (tickEngs (takePaths (dropRelays s1)))) (s.cycle + cycles)
  holdStep (refreshImages { s2 with cycle := s2.cycle + cycles, timeNs := s2.timeNs + BitVec.ofNat 64 ns })

/-- The band stands at a switch point of its current batch (R44): one already known, a change of batch, or the instruction
that the batch issues next. -/
def atSwitchPoint (s : State) (k : Nat) : Bool :=
  let x := { s with focus := .band k }
  let b := s.band k
  b.sp || decide (b.cur ≠ b.last) || (match x.headThr with
    | none => false
    | some t => match fetchBlock x t (x.pcOf t) with
      | (y, .block v) => (match decodeAt y t (x.pcOf t) v with
        | .ok (_, p) => y.atSwitch p
        | .error _ => false)
      | _ => false)

/-- A batch waits in a RALLOC that it has issued (R201). -/
def inRalloc (s : State) (k : Nat) (x : Batch) : Bool :=
  s.stages.any fun p => p.2.reqs.any fun r => decide (r.band = k) && r.lanes.any fun l => x.mask.getLsbD l.1

/-- At a switch point of its current batch a band may merge another Ready batch with its PC and mode into it (R88). The
merged batch has the older age (R89). -/
def mergeBatch (k id : Nat) (s : State) : State :=
  let b := s.band k
  match b.batch b.cur, b.batch id with
  | some x, some y =>
    let lane (z : Batch) := k * 32 + lowBit z.mask
    if !atSwitchPoint s k || inRalloc s k x || inRalloc s k y || decide (b.cur = id) || !hasReady s k x || !hasReady s k y
      || decide ((s.fib (lane x)).place ≠ (s.fib (lane y)).place) then s
    else
      let age := Nat.min x.age y.age
      let z := { x with mask := x.mask ||| y.mask, age := age }
      (bitList z.mask).foldl (fun s l => s.updFib (k * 32 + l) fun f => { f with age := age })
        (s.setBand k { b with batches := (b.batches.filter fun w => w.id ≠ id).map fun w => if w.id = x.id then z else w })
  | _, _ => s

/-- A core gives up an L1 line; dirty bytes are written back first, with those that the order rule puts before them (R163,
R165). -/
def evictL1 (c ln : Nat) (s : State) : State :=
  match Map.get (s.core c).l1 ln with
  | none => s
  | some x =>
    if x.dirty = 0 then s.updCore c fun k => { k with l1 := Map.del k.l1 ln }
    else if !homeTurn s c ln then s
    else if !wbReady s ln then homeAsk s ln .write
    else (if x.priv then coreWb (homeUse s ln) c ln else coreDrainLines (homeUse s ln) c 0 [ln]).updCore c fun k => { k with l1 := Map.del k.l1 ln }

/-- Lines that an L1 of 128 KiB, and an L2 slice of 4 MiB, hold (R1). -/
def l1Lines : Nat := 2048
def l2Lines : Nat := 65536

/-- An L1 that holds more than its size gives lines up, the lowest first of those that can leave (log entry 111). -/
def fitL1 (s : State) (c : Nat) : State :=
  (s.core c).l1.keys.foldl (fun s ln => if l1Lines < (s.core c).l1.length then evictL1 c ln s else s) s

/-- Lines that a slice holds in its L2. -/
def sliceHeld (s : State) (k : Nat) : List Nat :=
  (s.mem.home.filter fun p => p.2.l2.isSome && decide (sliceKey s p.1 = k)).map (·.1)

/-- A slice that holds more than its size gives up unpinned lines, the lowest first of those whose sources can be drained. -/
def fitL2 (s : State) (k : Nat) : State :=
  ((sliceHeld s k).filter fun ln => (s.home ln).pins.isEmpty).foldl (fun s ln =>
    if l2Lines < (sliceHeld s k).length then (evictL2 s ln).getD s else s) s

/-- Caches give lines up where an access has filled them beyond their size. -/
def fitCaches (s : State) : State :=
  let s1 := ((s.cores.filter fun c => decide (l1Lines < c.2.l1.length)).map (·.1)).foldl
    fitL1 s
  if s1.mem.home.length ≤ l2Lines then s1
  else (s1.mem.home.foldl (fun l p => insNat (sliceKey s1 p.1) l) []).foldl fitL2 s1

/-- One of the 72 stored symbols of a line's four codewords goes bad, in memory or in its L2 copy (R32). -/
def corruptLine (ln symbol : Nat) (l2 : Bool) (s : State) : State :=
  if l2 then
    match (s.home ln).l2 with
    | some x => s.setHome ln { s.home ln with l2 := some { x with bad := insNat (symbol % 72) x.bad } }
    | none => s
  else s.updMem fun m => { m with bad := Map.put m.bad ln (insNat (symbol % 72) (Map.getD m.bad ln [])) }

/-- One symbol of a codeword of the SRAM that holds a graph's nodes goes bad (R32). -/
def corruptNode (graph word symbol : Nat) (s : State) : State :=
  if Map.has s.graphs graph then
    s.updGraph graph fun g => { g with bad := Map.put g.bad word (insNat (symbol % 18) (Map.getD g.bad word [])) }
  else s

/-- One symbol of a codeword of a gang's local store goes bad (R213). -/
def corruptLocal (gang word symbol : Nat) (s : State) : State :=
  if Map.has s.csms gang then
    s.updCsm gang fun c => { c with bad := Map.put c.bad word (insNat (symbol % 18) (Map.getD c.bad word [])) }
  else s

end Sys2Proof.Machine
end

