-- ==== Sys2Proof/Machine/Cycle.lean ====
section
/-! DEFINITION. One step of the machine: the turn that is next, the issue of one instruction around its own effect
(R181, R185, R210), and the placing of a program that the next step runs. -/

namespace Sys2Proof.Machine

/-! ### Issue -/

/-- The age of a band's current batch. -/
def Band.curAge (b : Band) : Nat := ((b.batch b.cur).map Batch.age).getD 0

/-- A band goes before another of its core (R181): one that has waited 64 cycles as a candidate before those that have
not; of two that have, that of the lower slot. Of others, one that has not issued in this cycle goes first where its
current batch is the older one, and of equal age that of the lower slot (log entry 128). -/
def Band.before (p x : Band) : Bool :=
  if p.first then !x.first || decide (p.slot < x.slot)
  else !x.first && decide (p.issued = 0)
    && (decide (p.curAge < x.curAge) || (decide (p.curAge = x.curAge) && decide (p.slot < x.slot)))

/-- Another band of the core must go first. -/
def preceded (s : State) : Bool :=
  match s.focus with
  | .band b =>
    s.bands.any fun p =>
      decide (p.1 ≠ b) && decide (p.2.core = (s.band b).core) && p.2.before (s.band b) && s.candidate p.1
  | _ => false

/-- The issue is entered in the band's counts (R181, R185): the batch that was current in `s0` has issued. -/
def noteIssue (s0 s : State) : State :=
  match s.focus with
  | .band b => s.updBand b fun x => { x with
      cand := 0, first := false, issued := x.issued ||| (s0.band b).curMask
      batches := x.batches.map fun y => if y.id = (s0.band b).cur then { y with starve := 0 } else y }
  | _ => s

/-- A rejoin's count restarts where its outstanding members have changed since `s0` (R185). -/
def noteRejoins (s0 s : State) : State :=
  match s.focus with
  | .band b => s.updBand b fun x => { x with
      jcount := x.jcount.filter fun p => outstanding x p.1 = outstanding (s0.band b) p.1 }
  | _ => s

/-- What ends a step: the snoop answers it has taken are used up, and caches keep to their sizes. -/
def endTurn (s : State) : State := fitCaches (dropTaken s)

/-- What follows an instruction's own effect: where it has issued, the band's counts, the rejoins' counts and the end of a
debugger's step. -/
def afterIssue (i : Instr) (s0 s : State) : State :=
  endTurn (if hasIssued i s0 s then endStep (noteRejoins s0 (noteIssue s0 s)) else s)

/-- The focus fibre of a debugger's step that is pending has meanwhile become Waiting, Parked or Exited. -/
def stepGone (s : State) : Bool :=
  match (s.gang s.focusGang).stepFib with
  | some k => !(decide ((s.fib k).status = .ready) || decide ((s.fib k).status = .handler))
  | none => false

/-- Such a step ends with `STATUS` 1, and nothing issues (R210). -/
def refuseStep (s : State) : State :=
  let die := (s.gang s.focusGang).quad / 40
  setDbg (endStep s) die (Map.getD s.dbg die 0) 1

/-- The focus engine issues one instruction, where it can; where it cannot, nothing but the waiting itself happens. -/
def issueStep (s : State) : Host.Outcome State Fault Refusal :=
  if !s.mayIssue || preceded s then .next s
  else if stepGone (takeDue s) then .next (refuseStep (takeDue s))
  else match prepare s with
    | .idle => .next s
    | .wait s1 => .next (endTurn s1)
    | .trap s1 => .next (endTurn (endStep (noteIssue s1 s1)))
    | .run s1 i =>
      match exec i s1 with
      | .next s2 => .next (afterIssue i s1 s2)
      | .fault r => .fault r
      | .refused r => .refused r

/-! ### Turns -/

/-- A hardware event: a row of the operation table without an encoding. -/
def eventStep (i : Instr) (s : State) : Host.Outcome State Fault Refusal :=
  match partsOf i with
  | some _ => .refused .notAnEvent
  | none =>
    match exec i s with
    | .next s1 => .next (endTurn s1)
    | r => r

def turnStep (t : Turn) (s : State) : Host.Outcome State Fault Refusal :=
  match t with
  | .issue e => issueStep { s with focus := e }
  | .event i => eventStep i s
  | .tick n ns => .next (tick n ns s)
  | .merge b x => .next (mergeBatch b x s)
  | .evict c ln => .next (evictL1 c ln s)
  | .corrupt ln y l2 => .next (corruptLine ln y l2 s)
  | .corruptLocal g w y => .next (corruptLocal g w y s)
  | .corruptNode g w y => .next (corruptNode g w y s)
  | .evictReg c key => .next (evictReg s c key)
  | .ask ln inv => .next (homeAsk s ln (if inv then .write else .read))
  | .correctCopy ce => .next (if ce < 64 then s.corrected (unitCopy (ce / 4) (ce % 4)) 0 else s)
  | .copyPart id n => .next (copyPart id n s)
  | .peerWindow p w => .next (s.updFab fun f => { f with peerWin := Map.put f.peerWin p (w % 3) })
  | .peerReached p i => .next (reachedAgain p s i)
  | .podArrival l p d => .next (podArrival l p d s)
  | .podTimeout l => .next (podTimeout l s)
  | .gangLeaves g => .next (gangLeaves g s)
  | .gangArrives g x => .next (gangArrives g x s)
  | .fecError p => .next (fecError p s)
  | .hostRead src d off n => .next (hostRead src d off n s)
  | .hostBar src d b => .next (hostBar src d b s)
  | .hostHdm src d b => .next (hostHdm src d b s)
  | .thermal m => .next (thermalLimit m s)
  | .power l => .next (powerDrawn l s)

/-- A powered-off package does nothing but come up again by a cold reset (R417). -/
def poweredTurn (t : Turn) : Bool :=
  match t with
  | .event .coldReset => true
  | _ => false

/-- The head of the agenda, or the focus engine where the agenda is empty. -/
def nextStep (s : State) : Host.Outcome State Fault Refusal :=
  match s.agenda with
  | [] => if s.host.phase = 3 then .fault .poweredOff else issueStep s
  | t :: rest =>
    if s.host.phase = 3 ∧ poweredTurn t = false then .fault .poweredOff else turnStep t { s with agenda := rest }

/-! ### Placing a program -/

/-- Where a placed program stands: virtual address 0, the first line of the vault of die 0. -/
def programBase : Nat := 0x10000000000
def programPc : W64 := 0#64
def programLeaf : Leaf :=
  { asid := 0, va := 0, lg := 16, pa := programBase, x := true, w := true, u := true, key := 0, cmps := 0 }

/-- The program's line in memory, and nothing newer of it anywhere. -/
def placeLine (s : State) (v : BitVec 128) : State :=
  let ln := programBase / 64
  let s1 := (s.setHome ln HomeLine.reset).updMem fun m => { m with
    bias := Map.del m.bias (pageOf ln), bad := Map.del m.bad ln }
  { memWrite s1 ln 0 0 (v.setWidth 512) with
    icache := [], fetchBad := []
    etlb := Map.put (Map.put s.etlb (tlbTile 0) [programLeaf]) (tlbCopy 0) [programLeaf]
    cores := Map.put s.cores 0 { Map.getD s.cores 0 Core.reset with tlb := [programLeaf], lastPage := [] } }

/-- A launch of one workgroup of one fibre, on core 0, with its gang and its share. -/
def placeLaunch (s : State) : State :=
  { s with
    shares := Map.put s.shares 0 { Share.reset with quads := [0], psize := 1, gridx := 1, gridy := 1, gridz := 1 }
    gangs := Map.put s.gangs 0 { Gang.reset with wgs := [0] }
    wgs := Map.put s.wgs 0 { Wg.reset with size := 1, nbands := 1, xregs := 128 }
    csms := Map.put s.csms 0 { Casement.reset with lsize := 65536 }
    bands := Map.put (Map.mapVals (fun b => { b with first := false }) s.bands) 0
      { Band.reset with batches := [⟨1, 1, 0, 0⟩], cur := 1, nextId := 2 }
    fibres := Map.put s.fibres 0 { Fibre.reset with status := .ready, pc := programPc, rentry := programPc }
    mseqs := Map.put s.mseqs 0 { Seq.reset with st := .running, pc := programPc }
    cops := Map.put s.cops 0 { Seq.reset with st := .running, pc := programPc }
    agenda := []
    host := { s.host with phase := 1 } }

/-- The engine that runs a word: a vector band, or the sequencer that decodes it. -/
def programEngine (v : BitVec 128) : Eng :=
  match decodeWord .v 128 v, decodeWord .m 32 v with
  | .ok _, _ => .band 0
  | _, .ok _ => .mat 0
  | _, _ => .cop 0

def placeProgram (s : State) (v : BitVec 128) : State := { placeLaunch (placeLine s v) with focus := programEngine v }

end Sys2Proof.Machine
end

