-- ==== Sys2Proof/Machine/Step.lean ====
section
/-! DEFINITION. The step of the machine, and the placing of an instruction that the next step runs. -/

namespace Sys2Proof.Machine

/-- One step: the next turn of the agenda, or the issue of one instruction by the focus engine. -/
def step (s : State) : Host.Outcome State Fault Refusal := nextStep s

/-- `s` with an instruction of `nbits` bits `w` where the next step fetches. -/
def State.withFetchWord (s : State) (nbits w : Nat) : State := placeProgram s (BitVec.ofNat 128 (w % 2 ^ nbits))

end Sys2Proof.Machine
end

