-- ==== Sys2Proof/Safety.lean ====
section
/-! DEFINITION. The terms in which claims are stated: memory in canonical form, and what an instruction on registers
leaves of the rest of the machine. -/

namespace Sys2Proof.Machine

/-- Memory, every gang's local store and its accumulator elements are in their canonical form. -/
abbrev State.memWf (s : State) : Prop :=
  Memory.wf s.mem.cells = true ∧ (∀ p ∈ s.csms, Memory.wf p.2.bytes = true) ∧ ∀ p ∈ s.gangs, Map.wf p.2.acc = true

/-! ### What register instructions may change -/

/-- A fibre without its PC, predicates, registers, pending results and register marks. -/
def Fibre.kept (f : Fibre) : Fibre :=
  { f with pc := 0, pw := 0, x := [], pend := [], lost := [], cfault := [], cherr := [] }

/-- A sequencer without its PC, predicates, registers and pending results. -/
def Seq.kept (m : Seq) : Seq := { m with pc := 0, pw := 0, regs := [], pend := [] }

/-- A band without what forming batches anew changes (R87, R182, R184). -/
def Band.kept (b : Band) : Band := { b with batches := [], cur := 0, nextId := 0, fair := 0 }

/-- What a pending result will write: registers with values, predicates with values, and whether it has arrived at its
unit (R46). -/
def Pend.what (p : Pend) : List (Nat × W32) × List (Nat × Bool) × Bool := (p.regs.zip p.vals, p.preds.zip p.pvals, p.ready)

/-- `t` is `s` after an instruction of length code `len` that writes registers `regs` and predicates `preds` and leaves
results `pend` on their way, in every thread whose guard is true, and moves every thread of the batch past it
(R37, R46, R119). Every other register, predicate, mark, pending result, special register and everything else in the
machine is as before. -/
structure State.Ran (s t : State) (f : Fields) (len : Nat) (regs : Thr → List (Nat × W32))
    (preds : Thr → List (Nat × Bool)) (pend : Thr → List (List (Nat × W32) × List (Nat × Bool) × Bool)) : Prop where
  reg : ∀ x n, t.rx x n = ((if x ∈ s.active f then regs x else []).lookup n).getD (s.rx x n)
  pred : ∀ x n, n < 32 → (t.predWord x).getLsbD n =
    ((if x ∈ s.active f then preds x else []).lookup n).getD ((s.predWord x).getLsbD n)
  pc : ∀ x, t.pcOf x = if x ∈ s.threads then seqPc (s.pcOf x) len else s.pcOf x
  pends : ∀ x, ∃ l, t.pends x = s.pends x ++ l ∧ l.map Pend.what = (if x ∈ s.active f then pend x else [])
    ∧ ∀ p ∈ l, s.nextId ≤ p.id ∧ p.id < t.nextId
  lost : ∀ k, (t.fib k).lost =
    (s.fib k).lost.filter fun n => ((if .fib k ∈ s.active f then regs (.fib k) else []).lookup n).isNone
  cfault : ∀ k, (t.fib k).cfault =
    (if .fib k ∈ s.active f then regs (.fib k) else []).foldl (fun m p => Map.del m p.1) (s.fib k).cfault
  cherr : ∀ k, (t.fib k).cherr =
    (if .fib k ∈ s.active f then regs (.fib k) else []).foldl (fun m p => Map.del m p.1) (s.fib k).cherr
  fib : ∀ k, (t.fib k).kept = (s.fib k).kept
  mseq : ∀ q, (t.mseq q).kept = (s.mseq q).kept
  cop : ∀ c, (t.cop c).kept = (s.cop c).kept
  band : ∀ b, (t.band b).kept = (s.band b).kept
  rest : { t with fibres := s.fibres, mseqs := s.mseqs, cops := s.cops, bands := s.bands, nextId := s.nextId } = s

/-- Register D takes a value; register 0 takes none (R41). -/
def wrX (f : Fields) (v : Thr → W32) (x : Thr) : List (Nat × W32) := if f.d = 0 then [] else [(f.d.toNat, v x)]

/-- Pair D takes a value, low word first; pair 0 takes none (R41). -/
def wrXP (f : Fields) (v : Thr → W64) (x : Thr) : List (Nat × W32) :=
  if f.d = 0 then [] else [(f.d.toNat, lo32 (v x)), (f.d.toNat + 1, hi32 (v x))]

/-- Predicate D takes a value; p7 takes none (R41). -/
def wrP (f : Fields) (v : Thr → Bool) (x : Thr) : List (Nat × Bool) := if f.d = 7 then [] else [(f.d.toNat, v x)]

/-- Nothing is written, or left on its way. -/
def wrNone {α : Type} (_ : Thr) : List α := []

/-- A result on its way to register D, arrived at its unit; none for register 0 (R46, R128). -/
def onWayX (f : Fields) (v : Thr → W32) (x : Thr) : List (List (Nat × W32) × List (Nat × Bool) × Bool) :=
  if f.d = 0 then [] else [([(f.d.toNat, v x)], [], true)]

/-- A result on its way to predicate D; none for p7. -/
def onWayP (f : Fields) (v : Thr → Bool) (x : Thr) : List (List (Nat × W32) × List (Nat × Bool) × Bool) :=
  if f.d = 7 then [] else [([], [(f.d.toNat, v x)], true)]

/-- `t` is `s` after an instruction that sends every thread of the batch to `dest`, writes registers `regs` in the active
ones and, where it closes their region, starts their new region there (R201). Everything else but the forming of batches
and the switch point is as before. -/
structure State.Went (s t : State) (f : Fields) (regs : Thr → List (Nat × W32)) (dest : Thr → W64) (closes : Bool) :
    Prop where
  reg : ∀ x n, t.rx x n = ((if x ∈ s.active f then regs x else []).lookup n).getD (s.rx x n)
  pred : ∀ x, t.predWord x = s.predWord x
  pends : ∀ x, t.pends x = s.pends x
  pc : ∀ x, t.pcOf x = if x ∈ s.threads then dest x else s.pcOf x
  region : ∀ k, (t.fib k).region =
    if closes = true ∧ .fib k ∈ s.active f then (s.fib k).region + 1 else (s.fib k).region
  rentry : ∀ k, (t.fib k).rentry = if closes = true ∧ .fib k ∈ s.active f then dest (.fib k) else (s.fib k).rentry
  lost : ∀ k, (t.fib k).lost =
    (s.fib k).lost.filter fun n => ((if .fib k ∈ s.active f then regs (.fib k) else []).lookup n).isNone
  cfault : ∀ k, (t.fib k).cfault =
    (if .fib k ∈ s.active f then regs (.fib k) else []).foldl (fun m p => Map.del m p.1) (s.fib k).cfault
  cherr : ∀ k, (t.fib k).cherr =
    (if .fib k ∈ s.active f then regs (.fib k) else []).foldl (fun m p => Map.del m p.1) (s.fib k).cherr
  fib : ∀ k, { (t.fib k).kept with region := 0, rentry := 0 } = { (s.fib k).kept with region := 0, rentry := 0 }
  mseq : ∀ q, { (t.mseq q).kept with sp := false } = { (s.mseq q).kept with sp := false }
  cop : ∀ c, { (t.cop c).kept with sp := false } = { (s.cop c).kept with sp := false }
  band : ∀ b, { (t.band b).kept with sp := false } = { (s.band b).kept with sp := false }
  rest : { t with fibres := s.fibres, mseqs := s.mseqs, cops := s.cops, bands := s.bands } = s

/-- `t` is `u` after every thread of the batch that issued in `s` has moved past an instruction of length code `len`; one
that closes their region starts a new one there in the active fibres (R201). Everything else but the forming of batches
is as in `u`, the state with the instruction's own effect. -/
structure State.Past (s u t : State) (f : Fields) (len : Nat) (closes : Bool) : Prop where
  pc : ∀ x, t.pcOf x = if x ∈ s.threads then seqPc (u.pcOf x) len else u.pcOf x
  region : ∀ k, (t.fib k).region =
    if closes = true ∧ .fib k ∈ s.active f then (u.fib k).region + 1 else (u.fib k).region
  rentry : ∀ k, (t.fib k).rentry =
    if closes = true ∧ .fib k ∈ s.active f then seqPc (u.fib k).pc len else (u.fib k).rentry
  fib : ∀ k, { t.fib k with pc := 0, region := 0, rentry := 0 } = { u.fib k with pc := 0, region := 0, rentry := 0 }
  mseq : ∀ q, { t.mseq q with pc := 0 } = { u.mseq q with pc := 0 }
  cop : ∀ c, { t.cop c with pc := 0 } = { u.cop c with pc := 0 }
  band : ∀ b, (t.band b).kept = (u.band b).kept
  rest : { t with fibres := u.fibres, mseqs := u.mseqs, cops := u.cops, bands := u.bands } = u

/-- The fibres that are not active keep their records, those of the batch moving past the instruction. -/
def State.othersPass (s t : State) (f : Fields) (len : Nat) : Prop :=
  ∀ k, .fib k ∉ s.active f → t.fib k =
    if .fib k ∈ s.threads then { s.fib k with pc := seqPc (s.fib k).pc len } else s.fib k

/-- The byte that a core's L1 holds valid at an address, and whether it is dirty. -/
def State.l1Byte (s : State) (c a : Nat) : Option Nat :=
  match Map.get (s.core c).l1 (a / 64) with
  | some x => if x.valid.getLsbD (a % 64) then some (lineGet x.data (a % 64) 1) else none
  | none => none

def State.l1Dirty (s : State) (c a : Nat) : Bool :=
  match Map.get (s.core c).l1 (a / 64) with
  | some x => x.dirty.getLsbD (a % 64)
  | none => false

/-- A write of n bytes to a device register of a die by a writer that may make it (R28, R393, R395, R406, R407): firmware,
where the register is not a host's alone, or a host that reaches it. -/
abbrev State.mayWrite (s : State) (src die off n : Nat) : Prop :=
  let r := regName die off
  die < 16 ∧ (n = 4 ∨ n = 8) ∧ off % n = 0 ∧ s.host.phase = 1 ∧
    ((src = 0 ∧ hostOnlyReg r = false ∧ ¬(r = .bias 2 ∧ (s.ld die).tdi = .run)) ∨
      (1 ≤ src ∧ src ≤ 4 ∧ hostReaches s src die r = true))

/-- A unit has found a fault of a fibre's access, which LATE_FAULT will report (R197). -/
def State.faultLater (s : State) (k id : Nat) (c : Cause) : State :=
  s.updFib k fun x => { x with latent := x.latent ++ [(id, c)] }

/-- The same of a load: its registers stay pending until the report (R157, R197). -/
def State.loadFaults (s : State) (k : Nat) (regs : List Nat) (c : Cause) : State :=
  let p := pendLater s (.fib k) regs
  p.1.faultLater k p.2 c

/-- A core's draining release can be made at once: no dirty casement word of its gangs waits for a page or a host (R24,
R420). -/
def State.drainsNow (s : State) (c : Nat) : Bool := (drainRelease s c).isSome

/-- No casement sector holds a dirty byte or awaits a fill, and no write-back has received RETRY: no drain or acquire has to
wait for a page, a host, an answer or its turn (R169, R228, R420). -/
abbrev State.csmClean (s : State) : Prop :=
  s.mem.retry = [] ∧ ∀ p ∈ s.csms, ∀ q ∈ p.2.slots, ∀ x ∈ q.2.sectors, x.2.dirty = 0 ∧ x.2.refill = none

/-- A die as a die reset leaves it (R415): its queues and graphs at their reset values, every key but key 0 unloaded, no
flip and no earlier reset under way, and host requests under key 0. -/
def State.dieIsReset (t : State) (die : Nat) : Prop :=
  (∀ q, q < 64 → t.queue (die * 64 + q) = Queue.reset) ∧ (∀ g, g < 32 → t.graph (die * 32 + g) = Graph.reset) ∧
  (∀ i, i < 64 → i ≠ 0 → keyLoaded t die i = false) ∧ (t.ld die).flip = none ∧ (t.ld die).ending = none ∧
  (t.ld die).hostKey = 0

/-- The pages of a die that are not in device bias. -/
def State.hostPages (s : State) (die : Nat) : List Nat := (s.mem.bias.filter fun p => decide (p.1 / 2 ^ 24 = die)).map (·.1)

/-- A fibre's copy commands of a token go into a Limit batch (R246). -/
def Fibre.limited (f : Fibre) (tok : Nat) : Bool :=
  match f.openBatch tok with
  | some b => b.limit
  | none => decide (8 ≤ f.liveBatches)

/-- Nothing but the records of fibres and bands differs. -/
def State.sameButBands (s t : State) : Prop := { t with fibres := s.fibres, bands := s.bands } = s

/-- The next instruction of the focus engine is a switch point (R44). -/
def State.switchNext (s : State) : Bool :=
  match s.focus with
  | .band b => (s.band b).sp
  | .mat q => (s.mseq q).sp
  | .cop c => (s.cop c).sp

/-- A fibre has taken trap `code` into its handler (R198): what is saved, the mode, and where it continues. -/
structure Fibre.InHandler (f old : Fibre) (code : W32) (info : W32) (addr pc entry : W64) : Prop where
  cause : f.tcause = code
  info : f.tinfo = info
  addr : f.taddr = addr
  region : f.tregion = old.region
  saved : f.tpc = pc
  mode : f.handler = true
  status : f.status = .handler
  pc : f.pc = entry
  regs : f.x = old.x ∧ f.pw = old.pw

end Sys2Proof.Machine

namespace Sys2Proof

open Machine

/-- The instruction completes and writes register D with `v` in every active thread. -/
def Instr.givesX (i : Instr) (s : State) (f : Fields) (len : Nat) (v : Thr → W32) : Prop :=
  ∃ t, exec i s = .next t ∧ s.Ran t f len (wrX f v) wrNone wrNone

def Instr.givesXP (i : Instr) (s : State) (f : Fields) (len : Nat) (v : Thr → W64) : Prop :=
  ∃ t, exec i s = .next t ∧ s.Ran t f len (wrXP f v) wrNone wrNone

def Instr.givesP (i : Instr) (s : State) (f : Fields) (len : Nat) (v : Thr → Bool) : Prop :=
  ∃ t, exec i s = .next t ∧ s.Ran t f len wrNone (wrP f v) wrNone

/-- The instruction completes: its own effect makes `u` of `s`, and the batch moves past it. -/
def Instr.does (i : Instr) (s u : State) (f : Fields) (len : Nat) (closes : Bool) : Prop :=
  ∃ t, exec i s = .next t ∧ s.Past u t f len closes

/-- The instruction completes and its result is on its way to register D. -/
def Instr.sendsX (i : Instr) (s : State) (f : Fields) (len : Nat) (v : Thr → W32) : Prop :=
  ∃ t, exec i s = .next t ∧ s.Ran t f len wrNone wrNone (onWayX f v)

def Instr.sendsP (i : Instr) (s : State) (f : Fields) (len : Nat) (v : Thr → Bool) : Prop :=
  ∃ t, exec i s = .next t ∧ s.Ran t f len wrNone wrNone (onWayP f v)

/-- The instruction completes, writes register D, and sets CVF (bit 31 of a fibre's predicate word) where the result's
encoding says so (R74). -/
def Instr.givesEnc (i : Instr) (s : State) (f : Fields) (v : Thr → W32 × Bool) : Prop :=
  ∃ t, exec i s = .next t ∧ s.Ran t f 0 (wrX f fun x => (v x).1)
    (fun x => match x with
      | .fib _ => if (v x).2 then [(31, true)] else []
      | _ => []) wrNone

/-- Every active fibre has a handler, is not in it, and has no result pending: a trap is taken at once (R198). -/
def Machine.State.trapReady (s : State) (f : Fields) : Prop :=
  (∃ b, s.focus = .band b) ∧
    ∀ k, .fib k ∈ s.active f → (s.fib k).pend = [] ∧ (s.fib k).handler = false ∧ s.hasHandler k = true

/-- The instruction's active fibres enter their handlers with the trap registers written. -/
def Instr.enters (i : Instr) (s : State) (f : Fields) (code : W32) (info : Thr → W32) (addr pc : Thr → W64) : Prop :=
  ∃ t, exec i s = .next t ∧ ∀ k, .fib k ∈ s.active f →
    (t.fib k).InHandler (s.fib k) code (info (.fib k)) (addr (.fib k)) (pc (.fib k)) (s.share (s.wg (wgOf k)).share).handler

end Sys2Proof

namespace Sys2Proof.Machine

/-- The words of a loaded value of n bytes (R157): zero- or sign-extended to a register, or a pair or quad. -/
def specLoad (sub v : Nat) : List W32 :=
  match sub with
  | 1 => [(BitVec.ofNat 8 v).signExtend 32]
  | 3 => [(BitVec.ofNat 16 v).signExtend 32]
  | 5 => [BitVec.ofNat 32 v, BitVec.ofNat 32 (v / 2 ^ 32)]
  | 6 => [BitVec.ofNat 32 v, BitVec.ofNat 32 (v / 2 ^ 32), BitVec.ofNat 32 (v / 2 ^ 64), BitVec.ofNat 32 (v / 2 ^ 96)]
  | _ => [BitVec.ofNat 32 v]

/-- The integer atomics of R161 on words of a width: the new value. -/
def specAtom {w : Nat} (sub : Nat) (o v : BitVec w) : BitVec w :=
  match sub with
  | 0 => o + v
  | 1 => if v.toInt < o.toInt then v else o
  | 2 => if o.toInt < v.toInt then v else o
  | 3 => if v.toNat < o.toNat then v else o
  | 4 => if o.toNat < v.toNat then v else o
  | 5 => o &&& v
  | 6 => o ||| v
  | 7 => o ^^^ v
  | 8 => v
  | 9 => if v.toNat ≤ o.toNat then 0 else o + 1
  | _ => if o = 0 ∨ v.toNat < o.toNat then v else o - 1

/-! ### Values as the spec writes them (R51, R52, R122 to R126) -/

/-- An exact value clamped to a range. -/
def clampTo (lo hi v : Int) : Int := max lo (min hi v)

def specAdd (sub : Nat) (a b : W32) : W32 :=
  match sub with
  | 0 => BitVec.ofNat 32 (a.toNat + b.toNat)
  | 1 => BitVec.ofInt 32 (clampTo (-2147483648) 2147483647 (a.toInt + b.toInt))
  | _ => BitVec.ofInt 32 (clampTo 0 4294967295 (a.toNat + b.toNat))

def specSub (sub : Nat) (a b : W32) : W32 :=
  match sub with
  | 0 => BitVec.ofInt 32 ((a.toNat : Int) - b.toNat)
  | 1 => BitVec.ofInt 32 (clampTo (-2147483648) 2147483647 (a.toInt - b.toInt))
  | _ => BitVec.ofInt 32 (clampTo 0 4294967295 ((a.toNat : Int) - b.toNat))

def specMulh (sub : Nat) (a b : W32) : W32 :=
  match sub with
  | 0 => BitVec.ofInt 32 (a.toInt * b.toInt / 4294967296)
  | 1 => BitVec.ofNat 32 (a.toNat * b.toNat / 4294967296)
  | _ => BitVec.ofInt 32 (a.toInt * b.toNat / 4294967296)

def specMadw (sub : Nat) (a b : W32) (c : W64) : W64 :=
  match sub with
  | 0 => BitVec.ofInt 64 (a.toInt * b.toInt + c.toNat)
  | _ => BitVec.ofNat 64 (a.toNat * b.toNat + c.toNat)

def specMin (sub : Nat) (a b : W32) : W32 :=
  match sub with
  | 0 => if a.toInt ≤ b.toInt then a else b
  | _ => if a.toNat ≤ b.toNat then a else b

def specMax (sub : Nat) (a b : W32) : W32 :=
  match sub with
  | 0 => if a.toInt ≤ b.toInt then b else a
  | _ => if a.toNat ≤ b.toNat then b else a

def specDiv (sub : Nat) (a b : W32) : W32 :=
  if b = 0 then 0xFFFFFFFF#32
  else match sub with
    | 0 => BitVec.ofInt 32 (a.toInt.tdiv b.toInt)
    | _ => BitVec.ofNat 32 (a.toNat / b.toNat)

def specRem (sub : Nat) (a b : W32) : W32 :=
  if b = 0 then a
  else match sub with
    | 0 => BitVec.ofInt 32 (a.toInt - b.toInt * a.toInt.tdiv b.toInt)
    | _ => BitVec.ofNat 32 (a.toNat % b.toNat)

/-- Shifts of R124 and R126, by an amount that may reach the width or more. -/
def specShl {w : Nat} (a : BitVec w) (n : Nat) : BitVec w := if n < w then BitVec.ofNat w (a.toNat * 2 ^ n) else 0
def specShr {w : Nat} (a : BitVec w) (n : Nat) : BitVec w := if n < w then BitVec.ofNat w (a.toNat / 2 ^ n) else 0
def specSar {w : Nat} (a : BitVec w) (n : Nat) : BitVec w :=
  if n < w then BitVec.ofInt w (a.toInt / 2 ^ n) else if a.toInt < 0 then BitVec.allOnes w else 0

def specRot (sub : Nat) (a : W32) (n : Nat) : W32 :=
  let k := n % 32
  match sub with
  | 0 => BitVec.ofNat 32 (a.toNat * 2 ^ k + a.toNat / 2 ^ (32 - k))
  | _ => BitVec.ofNat 32 (a.toNat / 2 ^ k + a.toNat * 2 ^ (32 - k))

def specClz (a : W32) : W32 := if a = 0 then 32 else BitVec.ofNat 32 (31 - Nat.log2 a.toNat)
def specPopc (a : W32) : W32 := BitVec.ofNat 32 ((List.range 32).countP fun i => a.getLsbD i)
def specBrev (a : W32) : W32 := bitMask ((List.range 32).filter fun i => a.getLsbD (31 - i))

/-- The field of BFX and BFI: position and width (R124). -/
def specPos (b : W32) : Nat := b.toNat % 32
def specWidth (b : W32) : Nat := min (b.toNat / 256 % 64) (32 - specPos b)

def specBfx (sub : Nat) (a b : W32) : W32 :=
  let w := specWidth b
  let v := a.toNat / 2 ^ specPos b % 2 ^ w
  match sub with
  | 0 => BitVec.ofInt 32 (if 2 ^ w ≤ 2 * v then (v : Int) - 2 ^ w else v)
  | _ => BitVec.ofNat 32 v

def specBfi (a b c : W32) : W32 :=
  let p := specPos b
  let w := specWidth b
  BitVec.ofNat 32 (c.toNat / 2 ^ (p + w) * 2 ^ (p + w) + a.toNat % 2 ^ w * 2 ^ p + c.toNat % 2 ^ p)

/-- The ten conditions of R125, on words read as signed and unsigned numbers. -/
def specCond (n : Nat) {w : Nat} (a b : BitVec w) : Bool :=
  match n with
  | 0 => decide (a.toNat = b.toNat)
  | 1 => decide (a.toNat ≠ b.toNat)
  | 2 => decide (a.toInt < b.toInt)
  | 3 => decide (a.toInt ≤ b.toInt)
  | 4 => decide (b.toInt < a.toInt)
  | 5 => decide (b.toInt ≤ a.toInt)
  | 6 => decide (a.toNat < b.toNat)
  | 7 => decide (a.toNat ≤ b.toNat)
  | 8 => decide (b.toNat < a.toNat)
  | _ => decide (b.toNat ≤ a.toNat)

def specSh64 (sub : Nat) (p : W64) (n : Nat) : W64 :=
  match sub with
  | 0 => specShl p n
  | 1 => specShr p n
  | _ => specSar p n

def specLea (p : W64) (x : W32) (sh : Nat) (disp : W32) : W64 :=
  BitVec.ofInt 64 (p.toNat + x.toInt * 2 ^ sh + disp.toInt)

end Sys2Proof.Machine
end

