-- ==== Sys2Proof/Certificates/Slice0/Obligations.lean ====
section
/-! DEFINITION. The statements for the provers. -/

open Sys2Proof Sys2Proof.Machine

/-! ### Chapter 5: registers -/

/-- R122: the 32-bit arithmetic instructions complete in every state, and each active thread's register D (for MADW
its pair) takes the value of the rule; nothing else changes but the PC. -/
def Claims.IntegerArithmetic : Prop :=
  ∀ (f : Fields) (imm : W32) (s : State),
    (Instr.add f).givesX s f 0 (fun x => specAdd f.sub.toNat (srcA f s x) (srcB f s x)) ∧
    (Instr.add96 f imm).givesX s f 1 (fun x => specAdd f.sub.toNat (srcA f s x) imm) ∧
    (Instr.sub f).givesX s f 0 (fun x => specSub f.sub.toNat (srcA f s x) (srcB f s x)) ∧
    (Instr.sub96 f imm).givesX s f 1 (fun x => specSub f.sub.toNat (srcA f s x) imm) ∧
    (Instr.mul f).givesX s f 0 (fun x => BitVec.ofNat 32 ((srcA f s x).toNat * (srcB f s x).toNat)) ∧
    (Instr.mul96 f imm).givesX s f 1 (fun x => BitVec.ofNat 32 ((srcA f s x).toNat * imm.toNat)) ∧
    (Instr.mulh f).givesX s f 0 (fun x => specMulh f.sub.toNat (srcA f s x) (srcB f s x)) ∧
    (Instr.mulh96 f imm).givesX s f 1 (fun x => specMulh f.sub.toNat (srcA f s x) imm) ∧
    (Instr.mad f).givesX s f 0 (fun x =>
      BitVec.ofNat 32 ((srcA f s x).toNat * (srcB f s x).toNat + (srcC f s x).toNat)) ∧
    (Instr.mad96 f imm).givesX s f 1 (fun x => BitVec.ofNat 32 ((srcA f s x).toNat * imm.toNat + (srcC f s x).toNat)) ∧
    (Instr.madw f).givesXP s f 0 (fun x => specMadw f.sub.toNat (srcA f s x) (srcB f s x) (pairC f s x)) ∧
    (Instr.madw96 f imm).givesXP s f 1 (fun x => specMadw f.sub.toNat (srcA f s x) imm (pairC f s x)) ∧
    (Instr.min f).givesX s f 0 (fun x => specMin f.sub.toNat (srcA f s x) (srcB f s x)) ∧
    (Instr.min96 f imm).givesX s f 1 (fun x => specMin f.sub.toNat (srcA f s x) imm) ∧
    (Instr.max f).givesX s f 0 (fun x => specMax f.sub.toNat (srcA f s x) (srcB f s x)) ∧
    (Instr.max96 f imm).givesX s f 1 (fun x => specMax f.sub.toNat (srcA f s x) imm) ∧
    (Instr.abs f).givesX s f 0 (fun x => BitVec.ofNat 32 (srcA f s x).toInt.natAbs)

/-- R123: DIV and REM complete with the result of the rule's table on its way to register D (V-class); they never
trap. -/
def Claims.DivideRemainder : Prop :=
  ∀ (f : Fields) (imm : W32) (s : State),
    (Instr.div f).sendsX s f 0 (fun x => specDiv f.sub.toNat (srcA f s x) (srcB f s x)) ∧
    (Instr.div96 f imm).sendsX s f 1 (fun x => specDiv f.sub.toNat (srcA f s x) imm) ∧
    (Instr.rem f).sendsX s f 0 (fun x => specRem f.sub.toNat (srcA f s x) (srcB f s x)) ∧
    (Instr.rem96 f imm).sendsX s f 1 (fun x => specRem f.sub.toNat (srcA f s x) imm)

/-- R122, R123: 32-bit integer arithmetic and division. -/
def Obligations.IntegerAndDivision : Prop := Claims.IntegerArithmetic ∧ Claims.DivideRemainder

/-- R124: logic, shifts, rotates, counts and bit fields. -/
def Claims.LogicShiftField : Prop :=
  ∀ (f : Fields) (imm : W32) (s : State),
    (Instr.and f).givesX s f 0 (fun x => srcA f s x &&& srcB f s x) ∧
    (Instr.and96 f imm).givesX s f 1 (fun x => srcA f s x &&& imm) ∧
    (Instr.or f).givesX s f 0 (fun x => srcA f s x ||| srcB f s x) ∧
    (Instr.or96 f imm).givesX s f 1 (fun x => srcA f s x ||| imm) ∧
    (Instr.xor f).givesX s f 0 (fun x => srcA f s x ^^^ srcB f s x) ∧
    (Instr.xor96 f imm).givesX s f 1 (fun x => srcA f s x ^^^ imm) ∧
    (Instr.andn f).givesX s f 0 (fun x => srcA f s x &&& ~~~ srcB f s x) ∧
    (Instr.andn96 f imm).givesX s f 1 (fun x => srcA f s x &&& ~~~ imm) ∧
    (Instr.shl f).givesX s f 0 (fun x => specShl (srcA f s x) (srcB f s x).toNat) ∧
    (Instr.shl96 f imm).givesX s f 1 (fun x => specShl (srcA f s x) imm.toNat) ∧
    (Instr.shr f).givesX s f 0 (fun x => specShr (srcA f s x) (srcB f s x).toNat) ∧
    (Instr.shr96 f imm).givesX s f 1 (fun x => specShr (srcA f s x) imm.toNat) ∧
    (Instr.sar f).givesX s f 0 (fun x => specSar (srcA f s x) (srcB f s x).toNat) ∧
    (Instr.sar96 f imm).givesX s f 1 (fun x => specSar (srcA f s x) imm.toNat) ∧
    (Instr.rot f).givesX s f 0 (fun x => specRot f.sub.toNat (srcA f s x) (srcB f s x).toNat) ∧
    (Instr.rot96 f imm).givesX s f 1 (fun x => specRot f.sub.toNat (srcA f s x) imm.toNat) ∧
    (Instr.clz f).givesX s f 0 (fun x => specClz (srcA f s x)) ∧
    (Instr.popc f).givesX s f 0 (fun x => specPopc (srcA f s x)) ∧
    (Instr.brev f).givesX s f 0 (fun x => specBrev (srcA f s x)) ∧
    (Instr.bfx f).givesX s f 0 (fun x => specBfx f.sub.toNat (srcA f s x) (srcB f s x)) ∧
    (Instr.bfx96 f imm).givesX s f 1 (fun x => specBfx f.sub.toNat (srcA f s x) imm) ∧
    (Instr.bfi f).givesX s f 0 (fun x => specBfi (srcA f s x) (srcB f s x) (srcC f s x)) ∧
    (Instr.bfi96 f imm).givesX s f 1 (fun x => specBfi (srcA f s x) imm (srcC f s x))

/-- R125: CMP writes its predicate with the comparison its variant names; SEL gives a where P(l, C) is 1 and b
otherwise; MOV gives a, and LI gives imm32. -/
def Claims.CompareSelectMove : Prop :=
  ∀ (f : Fields) (imm : W32) (s : State),
    (Instr.cmp f).givesP s f 0 (fun x => specCond f.sub.toNat (srcA f s x) (srcB f s x)) ∧
    (Instr.cmp96 f imm).givesP s f 1 (fun x => specCond f.sub.toNat (srcA f s x) imm) ∧
    (Instr.sel f).givesX s f 0 (fun x => if s.rp x f.c.toNat then srcA f s x else srcB f s x) ∧
    (Instr.sel96 f imm).givesX s f 1 (fun x => if s.rp x f.c.toNat then srcA f s x else imm) ∧
    (Instr.mov f).givesX s f 0 (fun x => srcA f s x) ∧
    (Instr.li f imm).givesX s f 1 (fun _ => imm)

/-- R124, R125: logic, shifts, fields, comparison and selection. -/
def Obligations.LogicShiftsAndSelection : Prop := Claims.LogicShiftField ∧ Claims.CompareSelectMove

/-- R126: the 64-bit instructions on pairs. -/
def Claims.WideArithmetic : Prop :=
  ∀ (f : Fields) (imm : W32) (s : State),
    (Instr.add64 f).givesXP s f 0 (fun x => BitVec.ofNat 64 ((pairA f s x).toNat + (pairB f s x).toNat)) ∧
    (Instr.add6496 f imm).givesXP s f 1 (fun x => BitVec.ofInt 64 ((pairA f s x).toNat + imm.toInt)) ∧
    (Instr.sub64 f).givesXP s f 0 (fun x => BitVec.ofInt 64 ((pairA f s x).toNat - (pairB f s x).toNat)) ∧
    (Instr.sub6496 f imm).givesXP s f 1 (fun x => BitVec.ofInt 64 ((pairA f s x).toNat - imm.toInt)) ∧
    (Instr.sh64 f).givesXP s f 0 (fun x => specSh64 f.sub.toNat (pairA f s x) (srcB f s x).toNat) ∧
    (Instr.sh6496 f imm).givesXP s f 1 (fun x => specSh64 f.sub.toNat (pairA f s x) imm.toNat) ∧
    (Instr.cmp64 f).givesP s f 0 (fun x => specCond f.sub.toNat (pairA f s x) (pairB f s x)) ∧
    (Instr.cmp6496 f imm).givesP s f 1 (fun x => specCond f.sub.toNat (pairA f s x) (imm.signExtend 64)) ∧
    (Instr.lea f).givesXP s f 0 (fun x => specLea (pairA f s x) (srcB f s x) f.c.toNat 0) ∧
    (Instr.lea96 f imm).givesXP s f 1 (fun x => specLea (pairA f s x) (srcB f s x) f.c.toNat imm)

/-- R127: PLOG, PMOV.rd and PMOV.wr. A fibre's CVF is bit 31; on a sequencer it reads 0 and is not written. -/
def Claims.PredicateInstructions : Prop :=
  ∀ (f : Fields) (s : State),
    (Instr.plog f).givesP s f 0 (fun x =>
      let a := s.rp x f.a.toNat
      let b := s.rp x f.b.toNat
      match f.sub.toNat with
      | 0 => a && b
      | 1 => a || b
      | 2 => xor a b
      | 3 => a && !b
      | 4 => !a
      | 5 => true
      | _ => false) ∧
    (Instr.pmovRd f).givesX s f 0 (fun x => match x with
      | .fib _ => s.predWord x ||| 0x80#32
      | _ => (s.predWord x ||| 0x80#32) &&& 0x7FFFFFFF#32) ∧
    ∃ t, exec (.pmovWr f) s = .next t ∧ s.Ran t f 0 wrNone
      (fun x => (List.range 32).map fun n =>
        (n, if n = 7 then true
            else if n < 7 then (srcA f s x).getLsbD n
            else match x with
              | .fib _ => decide (n = 31) && (srcA f s x).getLsbD 31
              | _ => false)) wrNone

/-- R126, R127: 64-bit pairs and predicates. -/
def Obligations.WideAndPredicates : Prop := Claims.WideArithmetic ∧ Claims.PredicateInstructions

/-- R131 to R135, R138: float arithmetic, selection, comparison, classification and rounding complete in every state,
each element being the exact result rounded once (`arithElem`, `fdot2`), the selected operand (`minMaxElem`), the class
mask or the integral value. -/
def Claims.FloatArithmetic : Prop :=
  ∀ (f : Fields) (imm : W32) (s : State),
    (Instr.fadd f).givesX s f 0 (fun x => mapElems (typeOf f) (arithElem .add f) (srcA f s x) (srcB f s x) (srcC f s x)) ∧
    (Instr.fadd96 f imm).givesX s f 1 (fun x => mapElems (typeOf f) (arithElem .add f) (srcA f s x) imm (srcC f s x)) ∧
    (Instr.fsub f).givesX s f 0 (fun x => mapElems (typeOf f) (arithElem .sub f) (srcA f s x) (srcB f s x) (srcC f s x)) ∧
    (Instr.fsub96 f imm).givesX s f 1 (fun x => mapElems (typeOf f) (arithElem .sub f) (srcA f s x) imm (srcC f s x)) ∧
    (Instr.fmul f).givesX s f 0 (fun x => mapElems (typeOf f) (arithElem .mul f) (srcA f s x) (srcB f s x) (srcC f s x)) ∧
    (Instr.fmul96 f imm).givesX s f 1 (fun x => mapElems (typeOf f) (arithElem .mul f) (srcA f s x) imm (srcC f s x)) ∧
    (Instr.ffma f).givesX s f 0 (fun x => mapElems (typeOf f) (arithElem .fma f) (srcA f s x) (srcB f s x) (srcC f s x)) ∧
    (Instr.ffma96 f imm).givesX s f 1 (fun x => mapElems (typeOf f) (arithElem .fma f) (srcA f s x) imm (srcC f s x)) ∧
    (Instr.fmin f).givesX s f 0 (fun x => mapElems (typeOf f) (minMaxElem false f) (srcA f s x) (srcB f s x) 0) ∧
    (Instr.fmin96 f imm).givesX s f 1 (fun x => mapElems (typeOf f) (minMaxElem false f) (srcA f s x) imm 0) ∧
    (Instr.fmax f).givesX s f 0 (fun x => mapElems (typeOf f) (minMaxElem true f) (srcA f s x) (srcB f s x) 0) ∧
    (Instr.fmax96 f imm).givesX s f 1 (fun x => mapElems (typeOf f) (minMaxElem true f) (srcA f s x) imm 0) ∧
    (Instr.fcmp f).givesP s f 0 (fun x => fcmpBits f (srcA f s x) (srcB f s x)) ∧
    (Instr.fcmp96 f imm).givesP s f 1 (fun x => fcmpBits f (srcA f s x) imm) ∧
    (Instr.fclass f).givesX s f 0 (fun x => classWord (typeOf f) (srcA f s x)) ∧
    (Instr.frnd f).givesX s f 0 (fun x => mapElems (typeOf f) (rndElem f) (srcA f s x) (srcB f s x) 0) ∧
    (Instr.fdot2 f).givesX s f 0 (fun x => fdot2 f (srcA f s x) (srcB f s x) (srcC f s x)) ∧
    (Instr.fdot296 f imm).givesX s f 1 (fun x => fdot2 f (srcA f s x) imm (srcC f s x))

/-- R133: FCMP's predicate. A comparison with a NaN holds only for ne and unord; −0 equals +0. -/
def Claims.FloatCompareCases : Prop :=
  ∀ (n : Nat) (a b : W32), n < 8 →
    let u := decF32 a.toNat
    let v := decF32 b.toNat
    ((u = .nan ∨ v = .nan) → floatCond n u v = decide (n = 1 ∨ n = 6)) ∧
    (u ≠ .nan → v ≠ .nan → (floatCond 6 u v = false ∧ floatCond 7 u v = true ∧
      floatCond 1 u v = !floatCond 0 u v ∧ floatCond 3 u v = !floatCond 4 u v ∧ floatCond 5 u v = !floatCond 2 u v ∧
      floatCond 4 u v = floatCond 2 v u)) ∧
    (a &&& 0x7FFFFFFF#32 = 0 → b &&& 0x7FFFFFFF#32 = 0 → floatCond 0 u v = true)

/-- R136: the transcendentals complete with the result on its way to register D. Of the six that the spec bounds by one
ulp, which neighbour is returned is a constant of the configuration (log entry 1, the model's choice of form). -/
def Claims.Transcendentals : Prop :=
  ∀ (f : Fields) (s : State),
    (Instr.frcp f).sendsX s f 0 (fun x => mapElems (typeOf f) (transOp .rcp f) (srcA f s x) 0 0) ∧
    (Instr.frsq f).sendsX s f 0 (fun x => mapElems (typeOf f) (transOp .rsq f) (srcA f s x) 0 0) ∧
    (Instr.fsqrt f).sendsX s f 0 (fun x => mapElems (typeOf f) (transOp .sqrt f) (srcA f s x) 0 0) ∧
    (Instr.fexp2 f).sendsX s f 0 (fun x => mapElems (typeOf f) (transOp .exp2 f) (srcA f s x) 0 0) ∧
    (Instr.flog2 f).sendsX s f 0 (fun x => mapElems (typeOf f) (transOp .log2 f) (srcA f s x) 0 0) ∧
    (Instr.fsin f).sendsX s f 0 (fun x => mapElems (typeOf f) (transOp .sin f) (srcA f s x) 0 0) ∧
    (Instr.fcos f).sendsX s f 0 (fun x => mapElems (typeOf f) (transOp .cos f) (srcA f s x) 0 0) ∧
    (Instr.ftanh f).sendsX s f 0 (fun x => mapElems (typeOf f) (transOp .tanh f) (srcA f s x) 0 0)

/-- R131 to R138: floating point on every float type. -/
def Obligations.FloatingPoint : Prop := Claims.FloatArithmetic ∧ Claims.FloatCompareCases ∧ Claims.Transcendentals

/-- R139 to R145: conversion and packing complete in every state; those that encode set CVF where the encoding says so
(R74), and QBLK's element and flag arrive together. QBLK is a vector core's. -/
def Obligations.Conversions : Prop :=
  ∀ (f : Fields) (s : State),
    (Instr.cvt f).givesEnc s f (fun x => encWord (cvtElem f (srcA f s x))) ∧
    (Instr.f2i f).givesEnc s f (fun x => encWord (f2iElem f (srcA f s x))) ∧
    (Instr.i2f f).givesEnc s f (fun x => encWord (i2fElem f (srcA f s x))) ∧
    (Instr.pack f).givesEnc s f (fun x => packElem f (srcA f s x) (srcB f s x) (srcC f s x)) ∧
    (Instr.unpk f).givesX s f 0 (fun x => unpkPlain f (srcA f s x) (srcB f s x)) ∧
    (Instr.unpkScaled f).givesX s f 0 (fun x => unpkScaled f (srcA f s x) (srcB f s x) (srcC f s x)) ∧
    ∀ b, s.focus = .band b → ∃ t, exec (.qblk f) s = .next t ∧ s.Ran t f 0 wrNone wrNone (fun x =>
      let r := qblkLane f s (s.active f) x
      if f.d = 0 ∧ r.2 = false then []
      else [(if f.d = 0 then [] else [(f.d.toNat, r.1)], if r.2 then [(31, true)] else [], true)])

/-- R147 to R151: the cross-lane instructions complete with their results on the way. SHFL reads the source lane of the
batch, or its own register where that lane is not in it; VOTE, REDUX, SCAN and MATCH combine the active lanes in
ascending order. They are vector cores'. -/
def Obligations.CrossLane : Prop :=
  ∀ (f : Fields) (imm : W32) (s : State) (b : Nat), s.focus = .band b →
    (Instr.shfl f).sendsX s f 0 (fun x => shflVal f s x (srcB f s x)) ∧
    (Instr.shfl96 f imm).sendsX s f 1 (fun x => shflVal f s x imm) ∧
    (f.sub = 2 → (Instr.vote f).sendsX s f 0 (fun _ => laneMask ((s.active f).filter fun x => s.rp x f.a.toNat))) ∧
    (f.sub = 0 → (Instr.vote f).sendsP s f 0 (fun _ => (s.active f).all fun x => s.rp x f.a.toNat)) ∧
    (f.sub = 1 → (Instr.vote f).sendsP s f 0 (fun _ => (s.active f).any fun x => s.rp x f.a.toNat)) ∧
    (f.sub = 3 → (Instr.vote f).sendsP s f 0 (fun _ => (s.active f).all (fun x => s.rp x f.a.toNat) ||
      (s.active f).all fun x => !s.rp x f.a.toNat)) ∧
    (Instr.redux f).sendsX s f 0 (fun _ =>
      reduxAll f.sub.toNat (rmOf (rndOf f)) (satOf f) ((s.active f).map (srcA f s))) ∧
    (f.sub = 0 → (Instr.scan f).sendsX s f 0 (fun x => reduxAll (f.md.toNat / 0x800) (rmOf (rndOf f)) (satOf f)
      (((s.active f).filter fun u => u.lane ≤ x.lane).map (srcA f s)))) ∧
    (f.sub = 1 → (Instr.scan f).sendsX s f 0 (fun x => reduxAll (f.md.toNat / 0x800) (rmOf (rndOf f)) (satOf f)
      (((s.active f).filter fun u => u.lane < x.lane).map (srcA f s)))) ∧
    (f.sub = 0 → (Instr.matchLanes f).sendsX s f 0 (fun x =>
      laneMask ((s.active f).filter fun u => srcA f s u = srcA f s x))) ∧
    (f.sub = 1 → (Instr.matchLanes f).sendsX s f 0 (fun x =>
      if ∀ u ∈ s.active f, srcA f s u = srcA f s x then laneMask (s.active f) else 0))

/-! ### Chapter 4: control -/

/-- R97: BRA, CALL, BRX, CALLX and RET. Every active thread goes to its target, CALL and CALLX leave the next
instruction's address in pair D, every other thread of the batch continues at the next instruction, and a taken
transfer makes the next instruction a switch point. BRX, CALL, CALLX and RET close the region (R201). -/
def Claims.ControlTransfer : Prop :=
  ∀ (f : Fields) (imm : W32) (s : State),
    let seq (len : Nat) (x : Thr) : W64 := seqPc (s.pcOf x) len
    let goes (len : Nat) (tgt : Thr → W64) (x : Thr) : W64 := if x ∈ s.active f then tgt x else seq len x
    let rel (x : Thr) : W64 := s.pcOf x + imm.signExtend 64
    let done (i : Instr) (len : Nat) (link closes : Bool) (tgt : Thr → W64) : Prop :=
      ∃ t, exec i s = .next t ∧ s.Went t f (if link then wrXP f (seq len) else wrNone) (goes len tgt) closes ∧
        ((∃ x ∈ s.active f, tgt x ≠ seq len x) → t.switchNext = true) ∧
        ((∀ x ∈ s.active f, tgt x = seq len x) → t.switchNext = s.switchNext)
    done (.bra f imm) 1 false false rel ∧ done (.call f imm) 1 true true rel ∧
    done (.brx f) 0 false true (pairA f s) ∧ done (.callx f) 0 true true (pairA f s) ∧
    done (.ret f) 0 false true (pairA f s)

/-- R50 and R109: NOP has no effect whatever its guard; IDEM starts a new region at the next instruction in every active
fibre, and nothing else changes. -/
def Claims.NopIdem : Prop :=
  ∀ (f : Fields) (imm : W32) (e : Ext) (s : State),
    (∃ t, exec (.nop f) s = .next t ∧ s.Ran t f 0 wrNone wrNone wrNone) ∧
    (∃ t, exec (.nop96 f imm) s = .next t ∧ s.Ran t f 1 wrNone wrNone wrNone) ∧
    (∃ t, exec (.nop128 f e) s = .next t ∧ s.Ran t f 2 wrNone wrNone wrNone) ∧
    ∃ t, exec (.idem f) s = .next t ∧ s.Went t f wrNone (fun x => seqPc (s.pcOf x) 0) true ∧ t.switchNext = s.switchNext

/-- R50, R97, R98, R109: control transfers, NOP and IDEM. -/
def Obligations.TransfersNopIdem : Prop := Claims.ControlTransfer ∧ Claims.NopIdem

/-- R99: JOIN adds the active lanes to the rejoin mask and replaces its address by the PC-relative target; with every
guard false it changes neither; every fibre of the batch continues at the next instruction. -/
def Claims.JoinMask : Prop :=
  ∀ (f : Fields) (imm : W32) (s : State) (b : Nat), s.focus = .band b →
    let n := f.d.toNat
    ∃ t, exec (.join f imm) s = .next t ∧
      (∀ x, t.pcOf x = if x ∈ s.threads then seqPc (s.pcOf x) 1 else s.pcOf x) ∧
      (∀ m, (t.band b).j m = if m = n then (s.band b).j n ||| laneMask (s.active f) else (s.band b).j m) ∧
      (∀ m, (t.band b).jr m = (s.band b).jr m) ∧
      (∀ m, (t.band b).ja m = match s.active f with
        | [] => (s.band b).ja m
        | x :: _ => if m = n then s.pcOf x + imm.signExtend 64 else (s.band b).ja m) ∧
      (∀ c, c ≠ b → (t.band c).kept = (s.band c).kept) ∧
      (∀ k, (t.fib k).x = (s.fib k).x ∧ (t.fib k).pw = (s.fib k).pw) ∧ s.sameButBands t

/-- R100: when the members of a rejoin mask that is not empty have all arrived, CheckRejoin makes every arrived fibre
Ready at the rejoin address in a new region, clears the mask and the arrived mask and keeps the address; otherwise it
changes nothing. -/
def Claims.CheckRejoin : Prop :=
  ∀ (s : State) (b n : Nat),
    let bd := s.band b
    let t := s.checkRejoin b n
    ((bd.jr n ≠ 0 ∧ bd.j n &&& ~~~ bd.jr n = 0) →
      (∀ l, l < 32 → (bd.jr n).getLsbD l = true → (t.fib (b * 32 + l)).status = .ready ∧
        (t.fib (b * 32 + l)).waitOn = .nothing ∧ (t.fib (b * 32 + l)).pc = bd.ja n ∧
        (t.fib (b * 32 + l)).rentry = bd.ja n ∧ (t.fib (b * 32 + l)).region = (s.fib (b * 32 + l)).region + 1) ∧
      (∀ k, (∀ l, l < 32 → (bd.jr n).getLsbD l = true → k ≠ b * 32 + l) → t.fib k = s.fib k) ∧
      (t.band b).j n = 0 ∧ (t.band b).jr n = 0 ∧ (t.band b).ja n = bd.ja n ∧ s.sameButBands t) ∧
    (¬(bd.jr n ≠ 0 ∧ bd.j n &&& ~~~ bd.jr n = 0) → t = s)

/-- R100: WAIT: each active fibre becomes Waiting on the mask, leaves its batch and joins the arrived mask; then
CheckRejoin runs. A fibre whose guard is false continues at the next instruction. -/
def Claims.WaitArrives : Prop :=
  ∀ (f : Fields) (s : State) (b : Nat), s.focus = .band b →
    let n := f.a.toNat
    ∃ u, exec (.wait f) s = .next ((u.checkRejoin b n).regroup b) ∧
      (u.band b).jr n = (s.band b).jr n ||| laneMask (s.active f) ∧ (∀ m, (u.band b).j m = (s.band b).j m) ∧
      (∀ k, .fib k ∈ s.active f → (u.fib k).status = .waiting ∧ (u.fib k).waitOn = .rejoin n ∧
        (u.fib k).pc = seqPc (s.fib k).pc 0) ∧
      (∀ k, .fib k ∈ s.threads → .fib k ∉ s.active f → u.fib k = { s.fib k with pc := seqPc (s.fib k).pc 0 }) ∧
      (∀ k, .fib k ∉ s.threads → u.fib k = s.fib k) ∧
      (∀ x ∈ (u.band b).batches, ∀ k, .fib k ∈ s.active f → x.mask.getLsbD (laneOf k) = false) ∧ s.sameButBands u

/-- R99, R100: JOIN, WAIT and the rejoin. -/
def Obligations.JoinAndWait : Prop := Claims.JoinMask ∧ Claims.CheckRejoin ∧ Claims.WaitArrives

/-- R108: YIELD with an active fibre gives its batch the youngest age and makes the band's next issue a switch point; it
changes no register and no memory. -/
def Claims.YieldYoungest : Prop :=
  ∀ (f : Fields) (s : State) (b : Nat), s.focus = .band b →
    ∃ t, exec (.yield f) s = .next t ∧
      (∀ x, t.pcOf x = if x ∈ s.threads then seqPc (s.pcOf x) 0 else s.pcOf x) ∧
      (∀ x n, t.rx x n = s.rx x n) ∧ (∀ x, t.predWord x = s.predWord x) ∧ s.sameButBands t ∧
      (∀ x ∈ (s.active f).head?, (t.band b).sp = true ∧ (t.band b).nextAge = (s.band b).nextAge + 1 ∧
        ∃ y ∈ (t.band b).batches, y.mask.getLsbD x.lane = true ∧ y.age = (s.band b).nextAge)

/-- R104, R106: EXIT. On a core, once the fibres' stage records are given up, every active fibre is Exited with nothing
pending, is in no batch and is in no rejoin mask; then every mask is checked. On a sequencer the program ends, and a
copy program leaves its fork set at once; while its gang is suspended it stays at its EXIT, Held (R260). -/
def Claims.ExitEnds : Prop :=
  ∀ (f : Fields) (s : State),
    (∀ (b : Nat) (s1 : State), s.focus = .band b → endRecords (s.active f) ((s.idle f).foldl (fun s t => s.adv t 0) s) = some s1 →
      ∃ u : State, exec (.exit f) s = .next ((u.checkRejoins b).regroup b) ∧
        ∀ k, .fib k ∈ s.active f → (u.fib k).status = .exited ∧ (u.fib k).pend = [] ∧
          (∀ x ∈ (u.band b).batches, x.mask.getLsbD (laneOf k) = false) ∧
          ∀ m, ((u.band b).j m).getLsbD (laneOf k) = false) ∧
    (∀ q, s.focus = .mat q → s.active f = [.mat q] →
      exec (.exit f) s = .next ((s.setMseq q { s.mseq q with st := .ending }).settleMat q)) ∧
    (∀ c, s.focus = .cop c → s.active f = [.cop c] → (s.gang (s.wg (s.cop c).wg).gang).suspended = false →
      exec (.exit f) s = .next (((s.leaveFork (.cop c)).setCop c { s.cop c with st := .ending }).settleCop c)) ∧
    ∀ c, s.focus = .cop c → s.active f = [.cop c] → (s.gang (s.wg (s.cop c).wg).gang).suspended = true →
      exec (.exit f) s = .next (s.setCop c { s.cop c with st := .held })

/-- R104, R106, R108: YIELD and EXIT. -/
def Obligations.YieldAndExit : Prop := Claims.YieldYoungest ∧ Claims.ExitEnds

/-- R102, R103, R89: FIB.NEW completes in every state. Where one fibre k creates and a lane is free, that lane's fibre is
Ready at the PC-relative target with the argument in x1, every other register 0 and only p7 set, and register D will hold
its number in the workgroup; with no lane free D will hold 0xFFFFFFFF. The creator's region closes. -/
def Claims.FibreCreation : Prop :=
  ∀ (f : Fields) (imm : W32) (s : State),
    (∃ t, exec (.fibNew f imm) s = .next t ∧ ∀ x ∈ s.threads, t.pcOf x = seqPc (s.pcOf x) 1) ∧
    ∀ k, s.focus = .band (bandOf k) → s.active f = [.fib k] →
      ∃ t, exec (.fibNew f imm) s = .next t ∧
        (t.fib k).region = (s.fib k).region + 1 ∧ (t.fib k).rentry = seqPc (s.fib k).pc 1 ∧
        (∃ l, (t.fib k).pend = (s.fib k).pend ++ l ∧ l.map Pend.what = onWayX f (fun _ =>
          match freeLane s (bandOf k) with
          | some n => BitVec.ofNat 32 (n % 1024)
          | none => 0xFFFFFFFF#32) (.fib k)) ∧
        (∀ j, freeLane s (bandOf k) ≠ some j → (t.fib j).x = (s.fib j).x ∧ (t.fib j).pw = (s.fib j).pw) ∧
        ∀ n, freeLane s (bandOf k) = some n → (s.fib n).status = .exited ∧ (t.fib n).status = .ready ∧
          (t.fib n).pc = (s.fib k).pc + imm.signExtend 64 ∧ (t.fib n).rentry = (s.fib k).pc + imm.signExtend 64 ∧
          (t.fib n).pw = 0x80#32 ∧ (t.fib n).region = 0 ∧ (t.fib n).handler = false ∧
          ∀ m, t.rx (.fib n) m = if m = 1 then srcA f s (.fib k) else 0

/-- R110, R111: BAR: once the fibres' earlier accesses are performed each active one waits at its barrier with its PC at
the successor, and is in no batch. When every participant has arrived, BARRIER_COMPLETION releases them, each Ready in a
new region at its successor. -/
def Claims.BarrierArrives : Prop :=
  ∀ (f : Fields) (s : State) (b : Nat), s.focus = .band b →
    allPerformed s (s.active f) = true → closerReady s (s.active f) = true →
      ∃ t, exec (.bar f) s = .next t ∧
        (∀ k, .fib k ∈ s.active f → t.fib k = { s.fib k with
          status := .waiting, waitOn := .barrier (s.barKey (scopeFld f) b), waitPc := (s.fib k).pc,
          pc := seqPc (s.fib k).pc 0 } ∧ ∀ y ∈ (t.band b).batches, y.mask.getLsbD (laneOf k) = false) ∧
        s.othersPass t f 0 ∧ s.sameButBands t

/-- R110, R111: when every participant has arrived, BARRIER_COMPLETION drains their cores, acquires for each workgroup and
makes every participant Ready in a new region at its successor, their registers as they were; it does so at once where no
casement sector has to wait. -/
def Claims.BarrierCompletes : Prop :=
  ∀ (key : Nat) (s : State),
    let ks := s.participants key
    let orders := (if 2 ≤ key % 8 then forAll drainRelease (coresOf s ks) s else some s).bind
      (acquireWgs (key % 8) (wgsOf ks))
    let completes (s1 : State) : Prop := ∃ t, exec (.barrierCompletion key) s = .next t ∧ t.bars = Map.del s1.bars key ∧
      (∀ k ∈ ks, (t.fib k).status = .ready ∧ (t.fib k).waitOn = .nothing ∧ (t.fib k).pc = (s1.fib k).pc ∧
        (t.fib k).rentry = (s1.fib k).pc) ∧
      ∀ k, (t.fib k).x = (s1.fib k).x ∧ (t.fib k).pw = (s1.fib k).pw
    ks ≠ [] → (∀ k ∈ ks, (s.fib k).waitOn = .barrier key) → allResident s ks = true → s.peersIn key = true →
      (∀ s1, orders = some s1 → completes s1) ∧ (s.csmClean → ∃ s1, orders = some s1 ∧ completes s1)

/-- R113, R114: FORK.matrix starts the quad's free sequencer, FORK.copy a free context of the role's engine, at the
address in pair A with quad C in its first four registers, after a draining release; the program joins the workgroup's fork
set and the region closes. -/
def Claims.ForkStarts : Prop :=
  ∀ (f : Fields) (ext : Ext) (s s1 : State) (k : Nat) (act : List Thr), s.active f = .fib k :: act →
    drainRelease s (s.fibCore k) = some s1 →
    let w := wgOf k
    let starts (m : Seq) : Prop := m.st = .running ∧ m.wg = w ∧ m.pc = pairA f s (.fib k) ∧ m.pw = 0x80#32 ∧ m.sp = true ∧
      ∀ i, Map.getD m.regs i 0 = if 1 ≤ i ∧ i ≤ 4 then (s.rxq (.fib k) f.c.toNat).getD (i - 1) 0 else 0
    ((s.mseq (s.wgQuad w)).st = .free →
      ∃ u, (Instr.forkMatrix f ext).does s u f 2 true ∧ starts (u.mseq (s.wgQuad w)) ∧
        (u.wg w).forkM = true) ∧
    (∀ c, freeCtx s (roleEngine s (.fib k) ext.role.toNat) = some c →
      ∃ u, (Instr.forkCopy f ext).does s u f 2 true ∧ starts (u.cop c) ∧ c ∈ (u.wg w).forkC ∧
        Map.getD u.ctxs c Ctx.reset = { Ctx.reset with prio := ext.body.toNat % 4 })

/-- R102, R103, R113, R114: fibres and programs are started. -/
def Obligations.FibresAndForks : Prop := Claims.FibreCreation ∧ Claims.ForkStarts

/-- R193: TRAP raises TrapInstruction in each active fibre, with its operand in %tinfo and the next instruction's address
saved; BRK, with no debugger, raises Breakpoint with its own address saved. On a sequencer both stop the program; under
a debugger BRK halts the gang of the sequencer's program, which stays at it, and passes it when it is let on (R210). -/
def Claims.TrapBreak : Prop :=
  ∀ (f : Fields) (imm : W32) (s : State),
    (s.trapReady f →
      (Instr.trap f).enters s f 0x10#32 (srcA f s) (fun _ => 0) (fun x => seqPc (s.pcOf x) 0) ∧
      (Instr.trap96 f imm).enters s f 0x10#32 (fun _ => imm) (fun _ => 0) (fun x => seqPc (s.pcOf x) 1) ∧
      ((∀ b, s.focus = .band b → (s.wg (b / 32)).ctrl.getLsbD 2 = false) →
        (Instr.brk f).enters s f 0x11#32 (fun _ => 0) (fun _ => 0) s.pcOf)) ∧
    ∀ x, s.threads = [x] → s.active f = [x] → (∀ k, x ≠ .fib k) →
      exec (.trap f) s = .next (s.stopProgram x (precise 0x10 (srcA f s x) 0 (seqPc (s.pcOf x) 0)) (s.pcOf x)) ∧
      exec (.trap96 f imm) s = .next (s.stopProgram x (precise 0x10 imm 0 (seqPc (s.pcOf x) 1)) (s.pcOf x)) ∧
      (s.dbgOn x = false → exec (.brk f) s = .next (s.stopProgram x (precise 0x11 0 0 (s.pcOf x)) (s.pcOf x))) ∧
      (s.dbgOn x = true →
        ((s.seq x).passBrk = false → exec (.brk f) s = .next ((s.updSeq x fun m => { m with passBrk := true }).updGang
          (s.wg (s.seq x).wg).gang fun g => { g with halted := true })) ∧
        ((s.seq x).passBrk = true → exec (.brk f) s = .next ((s.updSeq x fun m => { m with passBrk := false }).adv x 0)))

/-- R198, R190, R200, R204: taking a trap. A PageFault parks the fibre at its region entry; without a handler, or in
handler mode, the fibre ends and the launch's share records the ending trap if it has none; otherwise the trap registers
are written (a late fault saves the region entry) and the fibre continues at the handler's address in handler mode. The
fibre's registers keep their values, and no other fibre changes. That the PC of the recorded ending trap is what %tpc would
have been is the model's reading (log entry 102). -/
def Claims.TakingTrap : Prop :=
  ∀ (s : State) (k : Nat) (c : Cause),
    let f := s.fib k
    let t := s.takeTrap k c
    let sh := (s.wg (wgOf k)).share
    (c.code = 5 → (t.fib k).status = .parked ∧ (t.fib k).pc = f.rentry ∧ (t.fib k).parkVa = c.addr) ∧
    (c.code ≠ 5 → (f.handler = true ∨ s.hasHandler k = false) → (t.fib k).status = .exited ∧
      (Map.has s.shares sh = true → (s.share sh).trap = none → ∃ e, (t.share sh).trap = some e ∧ e.code = c.code ∧
        e.info = c.info ∧ e.addr = c.addr ∧ e.lane = laneOf k ∧ e.pc = if c.late then f.rentry else c.resume)) ∧
    (c.code ≠ 5 → f.handler = false → s.hasHandler k = true →
      (t.fib k).InHandler f (BitVec.ofNat 32 (c.code + (if c.late then 256 else 0) + (if c.pfu then 512 else 0))) c.info
        c.addr (if c.late then f.rentry else c.resume) (s.share sh).handler ∧
      ∃ y ∈ (t.band (bandOf k)).batches, y.mask = 1#32 <<< laneOf k ∧ y.age = f.age) ∧
    (t.fib k).x = f.x ∧ (t.fib k).pw = f.pw ∧ (∀ j, j ≠ k → t.fib j = s.fib j) ∧ t.mem = s.mem

/-- R190, R193, R198, R200, R204: TRAP, BRK and taking a trap. -/
def Obligations.Traps : Prop := Claims.TrapBreak ∧ Claims.TakingTrap

/-- R188, R192: SRD. Register numbers 0x20 to 0x26 are a handler's; the others, on any engine, give the register's value,
and %time latches its upper word for %timehi, a sequencer's too (log entry 3, the model's choice). In user mode, and on a
sequencer, a handler's register raises PrivilegedInstruction. -/
def Claims.ReadSpecial : Prop :=
  ∀ (f : Fields) (s : State),
    let n := f.b.toNat
    (n ≠ 0x11 → (¬(0x20 ≤ n ∧ n ≤ 0x26) ∨ ∀ x ∈ s.active f, ∃ k, x = .fib k ∧ (s.fib k).handler = true) →
      (Instr.srd f).givesX s f 0 fun x => srRead s x n) ∧
    (n = 0x11 → ∃ t, exec (.srd f) s = .next t ∧ ∀ k, .fib k ∈ s.active f →
      (t.fib k).timehi = hi32 s.timeNs ∧ t.rx (.fib k) f.d.toNat = if f.d = 0 then 0 else lo32 s.timeNs) ∧
    (n = 0x11 → ∀ x, s.threads = [x] → s.active f = [x] → (∀ k, x ≠ .fib k) → ∃ t, exec (.srd f) s = .next t ∧
      (t.seq x).timehi = hi32 s.timeNs ∧ (t.rx x f.d.toNat = if f.d = 0 then 0 else lo32 s.timeNs) ∧
      t.pcOf x = seqPc (s.pcOf x) 0) ∧
    (0x20 ≤ n ∧ n ≤ 0x26 → ∀ x, s.threads = [x] → s.active f = [x] → (∀ k, x ≠ .fib k) →
      exec (.srd f) s = .next (s.stopProgram x (privSr 0xE0 n (s.pcOf x)) (s.pcOf x))) ∧
    (0x20 ≤ n ∧ n ≤ 0x26 → s.trapReady f →
      (Instr.srd f).enters s f 0x03#32 (fun _ => BitVec.ofNat 32 (0xE0 + 256 * n)) (fun _ => 0) s.pcOf)

/-- R188: what the special registers hold for a fibre and, of a workgroup's, for every engine. -/
def Claims.SpecialValues : Prop :=
  ∀ (s : State) (k : Nat),
    let f := s.fib k
    let b := s.band (bandOf k)
    let j := f.jsel.toNat % 8
    let r := srRead s (.fib k)
    (r 0x00).toNat = k % 32 ∧ (r 0x01).toNat = k / 32 % 32 ∧ (r 0x02).toNat = k % 1024 ∧ r 0x10 = f.region ∧
    r 0x12 = f.timehi ∧ r 0x14 = bitMask ((List.range 32).filter fun l =>
      decide ((s.fib (bandOf k * 32 + l)).status ≠ .exited)) ∧
    r 0x20 = f.tcause ∧ join64 (r 0x21) (r 0x26) = f.tpc ∧ join64 (r 0x22) (r 0x23) = f.taddr ∧ r 0x24 = f.tregion ∧
    r 0x25 = f.tinfo ∧ (r 0x28).toNat = f.jsel.toNat % 8 ∧ r 0x29 = b.j j ∧ join64 (r 0x2A) (r 0x2B) = b.ja j ∧
    r 0x2C = b.jr j ∧
    ∀ x : Thr, let w := s.wg (s.wgOfThr x)
      let r := srRead s x
      r 0x03 = w.x ∧ r 0x04 = w.y ∧ r 0x05 = w.z ∧ (r 0x07).toNat = w.core % 4 ∧ r 0x0C = (s.share w.share).gridx ∧
      r 0x0D = (s.share w.share).gridy ∧ r 0x0E = (s.share w.share).gridz ∧ r 0x11 = lo32 s.timeNs ∧
      join64 (r 0x15) (r 0x17) = w.lin ∧ join64 (r 0x06) (r 0x18) = (s.gang w.gang).lin ∧ r 0x30 = w.ctrl ∧
      ∀ i, i < 32 → r (0x40 + i) = Map.getD w.k i 0

/-- R188, R192: SWR. %jsel takes three bits in either mode; in handler mode %tpc, %tpchi, the rejoin mask (without the
lanes of exited fibres) and the rejoin address are written. Every other write raises PrivilegedInstruction, and any on a
sequencer stops its program. -/
def Claims.WriteSpecial : Prop :=
  ∀ (f : Fields) (s : State),
    let n := f.b.toNat
    let past (k : Nat) : W64 := seqPc (s.fib k).pc 0
    (∀ b, s.focus = .band b → n = 0x28 → ∃ t, exec (.swr f) s = .next t ∧ s.sameButBands t ∧ s.othersPass t f 0 ∧
        ∀ k, .fib k ∈ s.active f →
      t.fib k = { s.fib k with jsel := srcA f s (.fib k) &&& 7#32, pc := past k }) ∧
    (∀ b, s.focus = .band b → (∀ k, .fib k ∈ s.active f → (s.fib k).handler = true) →
      (n = 0x21 → ∃ t, exec (.swr f) s = .next t ∧ s.sameButBands t ∧ s.othersPass t f 0 ∧
        ∀ k, .fib k ∈ s.active f →
        t.fib k = { s.fib k with tpc := join64 (srcA f s (.fib k)) (hi32 (s.fib k).tpc), pc := past k }) ∧
      (n = 0x26 → ∃ t, exec (.swr f) s = .next t ∧ s.sameButBands t ∧ s.othersPass t f 0 ∧
        ∀ k, .fib k ∈ s.active f →
        t.fib k = { s.fib k with tpc := join64 (lo32 (s.fib k).tpc) (srcA f s (.fib k)), pc := past k }) ∧
      ∀ k, s.active f = [.fib k] →
        let j := (s.fib k).jsel.toNat % 8
        let v := srcA f s (.fib k)
        (n = 0x29 → ((s.band b).jr j).getLsbD (laneOf k) = false → ∃ t, exec (.swr f) s = .next t ∧ s.sameButBands t ∧ (t.fib k).pc = past k ∧
          (t.band b).j j = if (s.band b).jr j ≠ 0 ∧ (v &&& liveMask s b) &&& ~~~ (s.band b).jr j = 0 then 0
            else v &&& liveMask s b) ∧
        (n = 0x2A → ∃ t, exec (.swr f) s = .next t ∧ s.sameButBands t ∧ s.othersPass t f 0 ∧
          (t.fib k).pc = past k ∧
          (t.band b).ja j = join64 v (hi32 ((s.band b).ja j))) ∧
        (n = 0x2B → ∃ t, exec (.swr f) s = .next t ∧ s.sameButBands t ∧ s.othersPass t f 0 ∧
          (t.fib k).pc = past k ∧
          (t.band b).ja j = join64 (lo32 ((s.band b).ja j)) v)) ∧
    (n ≠ 0x28 → s.trapReady f →
      (Instr.swr f).enters s f 0x03#32 (fun _ => BitVec.ofNat 32 (0xE1 + 256 * n)) (fun _ => 0) s.pcOf) ∧
    ∀ x, s.threads = [x] → s.active f = [x] → (∀ k, x ≠ .fib k) →
      exec (.swr f) s = .next (s.stopProgram x (privSr 0xE1 n (s.pcOf x)) (s.pcOf x))

/-- R188, R192: the special registers. -/
def Obligations.SpecialRegisters : Prop := Claims.ReadSpecial ∧ Claims.SpecialValues ∧ Claims.WriteSpecial

/-- R194: RFT returns each active fibre from its handler: it continues at the saved PC in user mode, Ready, in a new
region there, and the next instruction is a switch point. Outside a handler it raises PrivilegedInstruction. -/
def Obligations.ReturnFromTrap : Prop :=
  ∀ (f : Fields) (s : State),
    (∀ b, s.focus = .band b → (∀ k, .fib k ∈ s.active f → (s.fib k).handler = true) →
      ∃ t, exec (.rft f) s = .next t ∧ t.switchNext = true ∧ s.sameButBands t ∧
        (∀ k, .fib k ∈ s.active f → t.fib k = { s.fib k with
          pc := (s.fib k).tpc, handler := false, status := .ready, region := (s.fib k).region + 1,
          rentry := (s.fib k).tpc }) ∧
        s.othersPass t f 0) ∧
    (s.trapReady f → (Instr.rft f).enters s f 0x03#32 (fun _ => 0xE2#32) (fun _ => 0) s.pcOf)

/-- R115: RDV. After a draining release each active fibre waits at the rendezvous with its PC at the successor; a matrix
program arrives once its queue is empty, a copy program once its operations are performed. -/
def Claims.RendezvousArrives : Prop :=
  ∀ (f : Fields) (imm : W32) (s : State),
    let arrives (i : Instr) (len : Nat) (n : Thr → Nat) : Prop :=
      (∀ (b k : Nat) (act : List Thr) (u : State), s.focus = .band b → s.active f = .fib k :: act →
        allPerformed s (s.active f) = true → closerReady s (s.active f) = true →
        drainRelease ((s.idle f).foldl (fun s x => s.adv x len) s) (s.fibCore k) = some u →
        ∃ t, exec i s = .next t ∧ ∀ j, t.fib j = if .fib j ∈ s.active f then { u.fib j with
          status := .waiting, waitOn := .rdv (n (.fib j)), waitPc := (u.fib j).pc, pc := seqPc (u.fib j).pc len } else u.fib j) ∧
      (∀ q, s.focus = .mat q → s.active f = [.mat q] → (s.mat q).queue = [] →
        ∃ t, exec i s = .next t ∧ (t.mseq q).st = .rdv (n (.mat q)) ∧ (t.mseq q).pc = seqPc (s.mseq q).pc len ∧
          (t.rdv (s.mseq q).wg (n (.mat q))).mat = true) ∧
      (∀ c, s.focus = .cop c → s.active f = [.cop c] → (Map.getD s.ctxs c Ctx.reset).ops = [] →
        ∃ t, exec i s = .next t ∧ (t.cop c).st = .rdv (n (.cop c)) ∧ (t.cop c).pc = seqPc (s.cop c).pc len ∧
          c ∈ (t.rdv (s.cop c).wg (n (.cop c))).cops)
    arrives (.rdv f) 0 (fun x => (srcA f s x).toNat % 16) ∧ arrives (.rdv96 f imm) 1 (fun _ => imm.toNat % 16)

/-- R115, R17: RENDEZVOUS_COMPLETION. When every live fibre of the workgroup and every program of its fork set has arrived
at k, the programs run on and the fibres are Ready at their successors; at once where no casement sector has to wait. -/
def Claims.RendezvousCompletes : Prop :=
  ∀ (w k : Nat) (s : State),
    let g := s.wg w
    let ks := s.rdvParties w k
    let r := s.rdv w k
    let completes (s1 : State) : Prop := ∃ t, exec (.rendezvousCompletion w k) s = .next t ∧
      (g.forkM = true → (t.mseq (s1.wgQuad w)).st = .running) ∧ (∀ c ∈ g.forkC, (t.cop c).st = .running) ∧
      (∀ j ∈ ks, (t.fib j).status = .ready ∧ (t.fib j).waitOn = .nothing ∧ (t.fib j).pc = (s1.fib j).pc ∧
        (t.fib j).rentry = (s1.fib j).pc) ∧ (t.wg w).rdvs = Map.del (s1.wg w).rdvs k
    (s.gang g.gang).suspended = false → (s.gang g.gang).halted = false → s.rdvAny w k = true → ks ≠ [] →
    (∀ j ∈ ks, (s.fib j).waitOn = .rdv k) → (g.forkM = true → r.mat = true) → (∀ c ∈ g.forkC, c ∈ r.cops) →
      (∀ s1, fenceAcquire s w 3 = some s1 → completes s1) ∧
      (s.csmClean → ∃ s1, fenceAcquire s w 3 = some s1 ∧ completes s1)

/-- R17, R115, R116: rendezvous. -/
def Obligations.Rendezvous : Prop := Claims.RendezvousArrives ∧ Claims.RendezvousCompletes

/-- R46, R197, R198: a ready result of a fibre is written and no longer pending; a late fault becomes due in place of its
result; a due trap is taken once nothing is pending. While the gang is suspended no trap is taken. -/
def Claims.ResultsAndTraps : Prop :=
  ∀ (who key id : Nat) (s : State),
    (∀ p, findPend s (thrOf who key) id = some p → p.ready = true →
      let x := thrOf who key
      let u := removePend (landRegs s x p.regs fun s => s.writePend x p) x id
      exec (.resultArrival who key id) s = .next (match x with
        | .fib k => if (u.gang (u.gangOf k)).suspended then u else u.settleTrap k
        | _ => u)) ∧
    (∀ c rest, (s.fib key).latent = (id, c) :: rest → (s.fib key).status ≠ .exited →
      let u := (removePend s (.fib key) id).updFib key fun f => { f with latent := rest, due := f.due ++ [c] }
      exec (.lateFault key) s = .next (if (u.gang (u.gangOf key)).suspended then u else u.settleTrap key)) ∧
    (∀ c, (s.gang (s.gangOf key)).suspended = false → firstCause (s.fib key).due = some c → (s.fib key).pend = [] →
      exec (.takeTrap key) s = .next (s.takeTrap key c)) ∧
    ∀ l d, firstCause l = some d → d ∈ l ∧ ∀ c ∈ l, d.rank ≤ c.rank

/-- R181, R184, R185, R187: the timers of a band: precedence after 64 cycles as a candidate, fairness after 4,096 cycles,
the watchdog's starvation and rejoin limits. -/
def Claims.BandTimers : Prop :=
  ∀ (b n : Nat) (s : State),
    let g := s.gang (s.wg (b / 32)).gang
    (64 ≤ (s.band b).cand → exec (.bandPrecedenceExpiry b) s = .next (s.updBand b fun x => { x with first := true })) ∧
    ((s.wg (b / 32)).ctrl.getLsbD 0 = true → 4096 ≤ (s.band b).fair → g.suspended = false → g.halted = false →
      ∃ t, exec (.fairnessRotation b) s = .next t ∧ s.sameButBands t ∧ (t.band b).nextAge = (s.band b).nextAge + 1 ∧
        (∀ y ∈ (s.band b).batches, y.id = (s.band b).cur → ∃ z ∈ (t.band b).batches, z.mask = y.mask ∧
          z.age = (s.band b).nextAge)) ∧
    (∀ x, starved s b = some x → gangRuns s b = true →
      exec (.watchdogStarvation b) s = .next ((bitList (s.band b).curMask).foldl
        (fun u l => u.raise (b * 32 + l) (precise 0x0E x.mask 0 (u.fib (b * 32 + l)).pc))
        (s.updBand b fun y => { y with batches := y.batches.map fun z => { z with starve := 0 } }))) ∧
    (starved s b = none → gangRuns s b = true → watchdogOf s b ≠ 0 → (s.band b).jr n ≠ 0 →
      watchdogOf s b ≤ Map.getD (s.band b).jcount n 0 →
      exec (.watchdogRejoin b n) s = .next (((bitList ((s.band b).jr n)).foldl (fun u l =>
        let k := b * 32 + l
        (u.updFib k fun f => { f with status := .ready, waitOn := .nothing, pc := (u.fib k).waitPc }).raise k
          (precise 0x0E ((s.band b).j n &&& ~~~ (s.band b).jr n) (BitVec.ofNat 64 (0x10 + n)) (u.fib k).waitPc))
        (s.setBand b { s.band b with jarr := Map.put (s.band b).jarr n 0, jcount := Map.del (s.band b).jcount n })).rebatch b))

/-- R46, R181, R184, R185, R197, R198: results, late faults and the timers of a band. -/
def Obligations.ResultsAndTimers : Prop := Claims.ResultsAndTraps ∧ Claims.BandTimers

/-- R186: BARRIER_TIMEOUT. When an instance's count reaches the launch's limit, every fibre that has arrived takes
BarrierTimeout at the instruction it waits at, in a batch of its band while it still waits for a result; at a rendezvous with the matrix program arrived, the fibres stalled before
a FORK.matrix take it too. The count starts again at zero. -/
def Claims.BarrierTimesOut : Prop :=
  ∀ (key : Nat) (s : State),
    (∀ j l, s.arrivedBar key = j :: l → (s.share (s.wg (wgOf j)).share).bartimeout ≠ 0 →
      min (s.share (s.wg (wgOf j)).share).bartimeout (2 ^ 48) ≤ (s.bar key).count →
      let u := timeoutFibs (BitVec.ofNat 32 (key % 8)) (j :: l) s
      exec (.barrierTimeout false key) s = .next { u with bars := Map.put u.bars key { u.bar key with count := 0, peers := [] } }) ∧
    (let w := key / 16
     let k := key % 16
     let info := BitVec.ofNat 32 (3 + 256 + k * 4096)
     (s.share (s.wg w).share).bartimeout ≠ 0 →
      min (s.share (s.wg w).share).bartimeout (2 ^ 48) ≤ (s.rdv w k).count →
      let u := timeoutFibs info (s.rdvArrived w k) s
      let v := if (s.rdv w k).mat then (s.wg w).forkWait.foldl (timeoutFork info) u else u
      exec (.barrierTimeout true key) s = .next (v.setRdv w k { v.rdv w k with count := 0 })) ∧
    ∀ info k ks, timeoutFibs info ks s = (bandsOf ks).foldl State.rebatch (ks.foldl (timeoutFib info) s) ∧
      timeoutFib info s k = (s.updFib k fun f => { f with status := .ready, waitOn := .nothing, pc := f.waitPc }).raise k
        (precise 0x0D info 0 (s.fib k).waitPc)

/-- R110 to R112, R186: barriers. -/
def Obligations.Barriers : Prop := Claims.BarrierArrives ∧ Claims.BarrierCompletes ∧ Claims.BarrierTimesOut

/-- R204, R205: service of a page fault while the die's front end is not recovering. Mapped, with the entry already
written, every fibre parked on the page continues at its PC, Ready (or in its handler), and one of a suspended gang is
marked to do so at the resumption; unserviceable, each takes ProtectionFault with the address it parked on, a late trap
marked as a page fault. -/
def Obligations.PageFaultService : Prop :=
  ∀ (die asid lg : Nat) (va pte : W64) (s : State), (s.fe die).recovering = false →
    (∃ t, exec (.pageFaultMapped die asid va lg 0 pte) s = .next t ∧
      ∀ k, if k ∈ parkedOn s die asid va.toNat lg then
          (t.fib k).status = (if (s.fib k).handler then .handler else .ready) ∧ (t.fib k).pc = (s.fib k).pc ∧
          (t.fib k).x = (s.fib k).x
        else if k ∈ heldOn s die asid va.toNat lg then t.fib k = { s.fib k with served := some true }
        else t.fib k = s.fib k) ∧
    (∀ pteAddr u, pteAddr ≠ 0 → homeReady s (pteAddr / 64) .write = true →
      homePut (homeUse s (pteAddr / 64)) agentFe (pteAddr / 8 * 8) 8 pte.toNat 0 0 = some u →
      ∃ t, exec (.pageFaultMapped die asid va lg pteAddr pte) s = .next t ∧ t.mem = u.mem ∧
        ∀ k ∈ parkedOn u die asid va.toNat lg, (t.fib k).status = if (u.fib k).handler then .handler else .ready) ∧
    (∀ k, parkedOn s die asid va.toNat lg = [k] → k ∉ heldOn s die asid va.toNat lg → (s.fib k).pend = [] → (s.fib k).due = [] → (s.fib k).handler = false →
      s.hasHandler k = true → ∃ t, exec (.pageFaultUnserviceable die asid va lg) s = .next t ∧
        (t.fib k).InHandler { s.fib k with status := .ready, parkVa := 0, served := none } 0x306#32 9 (s.fib k).parkVa (s.fib k).rentry
          (s.share (s.wg (wgOf k)).share).handler) ∧
    ∃ t, exec (.pageFaultUnserviceable die asid va lg) s = .next t ∧ (die, asid, va.toNat, lg) ∈ t.unserv

/-- R195, R177: RACE. Annotate completes in each lane with its pages' shadow words cleared, and counts as one releasing
instruction where a detector is on; a query's result is the address's shadow word, on its way to pair D. -/
def Obligations.RaceInstructions : Prop :=
  ∀ (f : Fields) (imm : W32) (s : State),
    let note (i : Instr) (disp : W32) (len : Nat) : Prop :=
      (allPerformed s (s.active f) = true →
        match runLanes (fun s' x => (annotatePages x ((srcB f s x).toNat / 4096 + 2) (srcB f s x).toNat
          (memVa f disp s x) s').map fun p => (p.1, p.2, none)) id (s.active f) s with
        | some (u, fates, _) => exec i s = .next (finish (if (fates.any fun p => p.2 = .ok) &&
              decide (peepMode s (s.launchOf ((s.active f).map Thr.key |>.headD 0)) ≠ 0)
            then bumpSync u (bandOf ((s.active f).map Thr.key |>.headD 0)) else u) len (s.idle f) false fates)
        | none => True) ∧
      (s.active f = [] → i.does s s f len false) ∧
      ∀ k s1 l pa, s.active f = [.fib k] → allPerformed s [.fib k] = true → 0 < (srcB f s (.fib k)).toNat →
        s.trFib k (memVa f disp s (.fib k)) .write = (s1, .ok (l, pa)) →
        (srcB f s (.fib k)).toNat ≤ 2 ^ l.lg - pa % 2 ^ l.lg →
          let on := decide (peepMode s (s.launchOf k) ≠ 0)
          let u := if isLocal (s.fibDie k) pa && on then clearShadow s1 (s.launchOf k) pa (srcB f s (.fib k)).toNat else s1
          i.does s (if on then bumpSync u (bandOf k) else u) f len false
    let ask (i : Instr) (disp : W32) (len : Nat) : Prop := ∀ s1 l pa k, s.active f = [.fib k] →
      s.trFib k (memVa f disp s (.fib k)) .read = (s1, .ok (l, pa)) → isLocal (s1.fibDie k) pa = true →
        i.does s (s1.arriveXP (.fib k) f.d.toNat (match peepOf s1 (s1.launchOf k) pa with
          | some p => shadowOf p pa
          | none => 0)) f len false
    note (.raceAnnotate f) 0 0 ∧ note (.raceAnnotate96 f imm) imm 1 ∧ ask (.raceQuery f) 0 0 ∧ ask (.raceQuery96 f imm) imm 1

/-- R196, R370: TLBI. In a launch without privilege it raises PrivilegedInstruction. With privilege each fibre first starts
an invalidation over its scope and waits, and completes, closing its region, once its invalidation is done. A completed
invalidation leaves no leaf in reach in any core's TLB, and drops every last-page register in reach. -/
def Claims.TlbInvalidation : Prop :=
  ∀ (f : Fields) (s : State) (k : Nat), s.active f = [.fib k] →
    let pkg := decide (scopeFld f = 4)
    let works (i : Instr) (va : Option Nat) : Prop := s.privOf (.fib k) = true → (s.fib k).latent = [] →
      ((∀ j ∈ s.invs, j.fib ≠ some k) → exec i s = .next { s with invs := s.invs ++
        [{ fib := some k, die := s.fibDie k, asid := some (s.asidOf (.fib k)), va := va, pkg := pkg, drain := false,
           done := false }] }) ∧
      ((∃ j ∈ s.invs, j.fib = some k) → (∀ j ∈ s.invs, j.fib = some k → j.done = true) →
        i.does s { s with invs := s.invs.filter fun j => decide (j.fib ≠ some k) } f 0 true)
    works (.tlbiVa f) (some (pairA f s (.fib k)).toNat) ∧ works (.tlbiAll f) none ∧
    (s.privOf (.fib k) = false → s.trapReady f →
      (Instr.tlbiVa f).enters s f 0x03#32 (fun _ => 0xE4#32) (fun _ => 0) s.pcOf ∧
      (Instr.tlbiAll f).enters s f 0x03#32 (fun _ => 0xE4#32) (fun _ => 0) s.pcOf)

/-- R370: an invalidation completes once no access of its address space is on its way and what it hits is written back: no
TLB in reach, of a core or of another client, and no last-page register holds a translation that it hits, and the walker
caches in reach hold nothing of its address space. Nothing has to wait where it drains nothing or no casement sector does. -/
def Claims.InvalidationCompletes : Prop :=
  ∀ (n : Nat) (s : State) (i : Inv), s.invs[n]? = some i → i.done = false → invQuiet s i = true →
    let completes (u : State) : Prop :=
      ∃ t, exec (.invalidationCompletion n) s = .next t ∧
        (∀ c ∈ t.cores, i.inReach (c.1 / 160) = true → ∀ l ∈ c.2.tlb ++ c.2.lastPage.map (·.2), i.hits l = false) ∧
        (∀ e ∈ t.etlb, i.inReach (etlbDie e.1) = true → ∀ l ∈ e.2, i.hits l = false) ∧
        (∀ x ∈ t.tus, i.inReach x.1 = true → ∀ w ∈ x.2.walk, (match i.asid with
          | some a => w.asid ≠ a
          | none => False)) ∧
        t.mem.cells = u.mem.cells ∧ t.mem.home = u.mem.home ∧
        t.invs = if i.fib = none then u.invs.eraseIdx n else u.invs.set n { i with done := true }
    (∀ u, invDrain s i (leavesHit s i) = some u → completes u) ∧
      (i.drain = false ∨ s.csmClean → ∃ u, invDrain s i (leavesHit s i) = some u ∧ completes u)

/-- R196, R370: TLBI and invalidations. -/
def Obligations.Invalidation : Prop := Claims.TlbInvalidation ∧ Claims.InvalidationCompletes

/-- R28, R77, R78, R339, R351 to R355: the events that write registers of queues, graphs, format regions and the front end,
by a writer that may. An enabled queue of 2^4 to 2^20 slots is Idle and empty; a disabled one is Disabled once its launches
have ended, a destroyed one too, whose launches place nothing more and write no record. Q_WIDX moves the write index within
the queue, and else puts it in Error. A trigger starts an armed graph, latches one trigger while it runs, and else is counted
as dropped. A graph load reads its nodes, and where they cannot be read the graph stays not resident with ERR 1 (log entry
48, the model's choice). A format region is enabled where its registers pass the checks. A first write of
FE_FEAT_EN counts, a reset resets the die. -/
def Obligations.QueueAndGraphWrites : Prop :=
  (∀ (src die off n : Nat) (v : W64) (s : State), s.mayWrite src die off n →
    let r := regName die off
    let d := regData off n v
    let ev (i : Nat → Nat → Nat → Nat → W64 → Instr) (u : State) : Prop := exec (i src die off n v) s = .next u
    (∀ i, r = .q i 1 → covers off n 31 0 = true →
      let k := die * 64 + i
      let c := (s.queue k).ctl
      let u := writeQctl s k off n v
      let e := (u.queue k).ctl
      let mode := d / 2 ^ 27 % 4
      let ended : Prop := qState c ≠ 0 → qState c ≠ 3 → queueBusy s k = false → qState e = 0 ∧ qEn e = false
      ((mode = 0 ∨ mode = 3) →
        (d % 2 = 1 → ev .queueEnable u ∧ (qState c = 0 →
          (4 ≤ d / 16 % 32 ∧ d / 16 % 32 ≤ 20 → qState e = 1 ∧ qEn e = true ∧ qErr e = 0 ∧ (u.queue k).widx = 0 ∧
            (u.queue k).ridx = 0 ∧ (u.queue k).base = (s.queue k).base) ∧
          (d / 16 % 32 < 4 ∨ 20 < d / 16 % 32 → qState e = 0 ∧ qErr e = 1))) ∧
        (d % 2 = 0 → ev .queueDisable u ∧ (qEn c = true → ended ∧ (qState c ≠ 0 → qState c ≠ 3 → queueBusy s k = true →
          qState e = qState c ∧ qEn e = false ∧ (u.queue k).disabling = true)))) ∧
      (mode = 1 → ev .destroyDrain u ∧ ended ∧ (qState c ≠ 0 → qState c ≠ 3 → queueBusy s k = true → qState e = 3 ∧
        ∀ h l, s.launch h = some l → shareDieOf h = k / 64 → l.src = .queue k →
          ∃ m, u.launch h = some m ∧ m.phase = .ended ∧ m.silent = true ∧ m.resv = [])) ∧
      (mode = 2 → ev .destroyKill u ∧ ended)) ∧
    (∀ i, r = .q i 2 → let k := die * 64 + i
      let q := s.queue k
      let w := BitVec.ofNat 32 d
      (covers off n 31 0 = false → ev .qWidx s) ∧
      (covers off n 31 0 = true → ev .qWidx (s.writeWidx k w) ∧
        (qState q.ctl = 0 ∨ qState q.ctl = 3 ∨ qEn q.ctl = false → (s.writeWidx k w).queue k = q) ∧
        (qState q.ctl ≠ 0 → qState q.ctl ≠ 3 → qEn q.ctl = true →
          ((w - q.widx).toNat < 2 ^ 31 → (w - q.ridx).toNat ≤ 2 ^ qSize q.ctl → ((s.writeWidx k w).queue k).widx = w) ∧
          (2 ^ 31 ≤ (w - q.widx).toNat ∨ 2 ^ qSize q.ctl < (w - q.ridx).toNat →
            qState ((s.writeWidx k w).queue k).ctl = 4 ∧ qErr ((s.writeWidx k w).queue k).ctl = 2)))) ∧
    (∀ i, r = .gr i 2 → ev .grTrig (s.updGraph (die * 32 + i) Graph.trigger)) ∧
    (∀ i, r = .gr i 1 → covers off n 0 0 = true → d % 2 = 1 → grRes (s.graph (die * 32 + i)).ctl = false →
      let k := die * 32 + i
      let g := s.graph k
      let c := putFields g.ctl [(63, 48), (16, 10), (9, 8), (7, 7), (6, 6), (1, 1), (0, 0)] off n v
      ev .graphLoad (match loadNodes (k / 32) (bitsN g.base.toNat 51 8 * 256) (grNodes c) s with
        | (s1, .ok l) => s1.setGraph k { g with ctl := c, nodes := l }
        | (_, .error (.wait _)) => s
        | (s1, .error _) => s1.setGraph k { g with ctl := setField (setField c 0 0 0) 47 40 1 })) ∧
    (r = .fe 0 → covers off n 2 2 = true → d / 4 % 2 = 1 → ev .reset (dieReset s die)) ∧
    (let f := s.fe die
     (r = .fe 3 → ev .feFeatEn (frozenWrite s die r
       (if f.wrote0 then s else s.setFe die { f with en0 := BitVec.ofNat 64 d &&& featCap0, wrote0 := true }))) ∧
     (r = .fe 4 → ev .feFeatEn (frozenWrite s die r (if f.wrote1 then s else s.setFe die { f with wrote1 := true })))) ∧
    (∀ i, r = .frr i 0 → covers off n 31 31 = true →
      let x := s.frr die i
      let fmt := d / 2 ^ 8 % 32
      let blk := decide (d / 2 ^ 16 % 2 = 1)
      let e := regionCheck s die i fmt blk x.base.toNat x.limit.toNat x.scale.toNat
      (d / 2 ^ 31 % 2 = 1 → ev .frrEnable
        (if x.en then s else setFrr s die i { x with ctl := frrCtl (decide (e = 0)) e fmt blk })) ∧
      (d / 2 ^ 31 % 2 = 0 → ev .frrDisable (setFrr s die i { x with ctl := (if x.en then setField x.ctl 31 31 0
        else setField (setField x.ctl 12 8 fmt) 16 16 (d / 2 ^ 16 % 2)) })))) ∧
  ∀ g : Graph,
    (grRes g.ctl = false ∨ grArmed g.ctl = false → g.trigger = g.drop) ∧
    (grRes g.ctl = true → grArmed g.ctl = true →
      (grRun g.ctl = false → grRun g.trigger.ctl = true ∧ g.trigger.node = 0 ∧ g.trigger.loops = []) ∧
      (grRun g.ctl = true → grLatch g.ctl = false → g.trigger.node = g.node ∧ grLatch g.trigger.ctl = true) ∧
      (grRun g.ctl = true → grLatch g.ctl = true → g.trigger = g.drop)) ∧
    g.drop.ctl = g.ctl ∧ grDropped g.drop.stat = min (grDropped g.stat + 1) 65535

/-- R28 and the rules of each register: the events that write registers of the translation unit, the bias, circuits, ports
and the debugger, by a writer that may, and any register write. TU_INV starts one invalidation; bias tracking goes on, and
off where no page is in host bias; HI_BIASCMD starts a flip; a circuit entry takes its fields and its command; a port is
enabled, or goes down with cause 4; DBG_CTL halts, resumes or steps. A register at work on an earlier command takes none. A
write that would change a frozen register of a locked interface moves that to ERROR instead (R406). The model's choices: the
57 bits of TU_INVVA are made canonical (log entry 58), of several bits of DBG_CTL HALT goes before RESUME before STEP (97), a
port goes down with cause 4 wherever its EN was 1 (115). -/
def Obligations.RegisterWrites : Prop :=
  (∀ (src die off n : Nat) (v : W64) (s : State), s.mayWrite src die off n →
    let r := regName die off
    let d := regData off n v
    let ev (i : Nat → Nat → Nat → Nat → W64 → Instr) (u : State) : Prop := exec (i src die off n v) s = .next u
    (r = .tu 4 → covers off n 63 32 = true →
      let kind := d / 2 ^ 46 % 4
      let starts (i : Nat → Nat → Nat → Nat → W64 → Instr) : Prop :=
        (tuBusy s die = true → ev i s) ∧
        (tuBusy s die = false → ∃ t, ev i t ∧ t.invs = s.invs ++
          [{ fib := none, die := die, asid := if kind = 2 then none else some (d / 2 ^ 48 % 2 ^ 16),
             va := if kind = 0 then some (((s.tu die).invva.setWidth 57).signExtend 64).toNat else none,
             pkg := d.testBit 45, drain := d.testBit 44, done := false }])
      (kind = 0 → starts .invalidatePage) ∧ (kind = 1 → starts .invalidateAsid) ∧ (kind = 2 → starts .invalidateAll)) ∧
    (r = .bias 0 → covers off n 0 0 = true →
      let u := writeBias s die off n v
      (d % 2 = 1 → ev .biasTrackingEnable (frozenWrite s die r u) ∧ biasOn u die = true) ∧
      (d % 2 = 0 → ev .biasTrackingDisable (frozenWrite s die r u) ∧
        (biasOn s die = true → anyHostPage s die = true → u = s) ∧
        (biasOn s die = false ∨ anyHostPage s die = false → biasOn u die = false))) ∧
    (r = .bias 1 → covers off n 63 32 = true →
      let l := s.ld die
      let u := if l.biasCmd.getLsbD 63 then s
        else startFlip (s.updLd die fun l => { l with biasCmd := putFields l.biasCmd [(40, 40), (23, 0)] off n v }) die
      (d / 2 ^ 40 % 2 = 1 → ev .flipToHost u) ∧ (d / 2 ^ 40 % 2 = 0 → ev .flipToDevice u)) ∧
    (∀ i, r = .circ i → covers off n 44 43 = true →
      let c := s.circ i
      let u := if c.st = 0 ∨ c.st = 4 then s.setCirc i { c with reg := putFields c.reg [(42, 42), (41, 10), (9, 5), (4, 0)] off n v } else s
      (d / 2 ^ 43 % 4 = 1 → ev .circuitEstablish (circCmd u i 1)) ∧ (d / 2 ^ 43 % 4 = 2 → ev .circuitTeardown (circCmd u i 2))) ∧
    (∀ i, r = .rp i → covers off n 39 39 = true →
      let lim := d / 2 ^ 40 % 64
      (d / 2 ^ 39 % 2 = 1 → ∃ t, ev .portEnable t ∧ (t.port i).en = true ∧ (t.port i).up = (s.port i).up ∧
        (t.port i).limit = if 16 ≤ lim ∧ lim ≤ 32 then 2 ^ lim else (s.port i).limit) ∧
      (d / 2 ^ 39 % 2 = 0 → ∃ t, ev .portDisable t ∧ (t.port i).en = false ∧ ((s.port i).en = true →
        (t.port i).up = false ∧ ((t.port i).stat.extractLsb' 48 8).toNat = 4))) ∧
    (r = .dbg → covers off n 2 0 = true →
      let c := putFields (Map.getD s.dbg die 0) [(37, 32), (31, 30), (29, 24), (23, 19)] off n v
      let u := if dbgBusy s die then s else if d % 2 = 1 then dbgHalt s die c
        else if d / 2 % 2 = 1 then dbgResume s die c else dbgStep s die c
      (d % 2 = 1 → ev .halt u) ∧ (d / 2 % 2 = 1 → ev .resume u) ∧ (d / 4 % 2 = 1 → ev .step u)) ∧
    ev .deviceRegisterWrite (match writeReg s die r off n v with
      | some t => frozenWrite s die r t
      | none => s) ∧
    (r = .pwrLimit → covers off n 15 0 = true →
      ev .deviceRegisterWrite (s.updHost fun h => { h with limit := max 1500 (min 6000 (d % 65536)) })) ∧
    (r = .bias 2 → ev .deviceRegisterWrite (s.updLd die fun l => { l with peerMask := putFields l.peerMask [(15, 0)] off n v }))) ∧
  ∀ (s t : State) (die : Nat) (r : RegName),
    let locked : Prop := (s.ld die).tdi = .locked ∨ (s.ld die).tdi = .run
    (frozenReg r = true ↔ r ∈ [.bias 0, .tu 0, .tu 1, .tu 2, .tu 3, .fe 3, .fe 4]) ∧
    (¬locked ∨ frozenReg r = false ∨ frozenVals t die = frozenVals s die → frozenWrite s die r t = t) ∧
    (locked → frozenReg r = true → frozenVals t die ≠ frozenVals s die → frozenWrite s die r t = tdiError s die)

/-- R209, R210: the debugger's actions on the gang of the band in focus, and a halted or suspended gang: none of its bands
or matrix programs issues. A BRK under a debugger halts its gang and stays; the fibre then passes it. -/
def Claims.Debugger : Prop :=
  (∀ (s : State) (die b : Nat) (c : W64), dbgBand s die c = some b →
    let g := (s.wg (b / 32)).gang
    let k := b * 32 + bitsN c.toNat 23 19
    ((dbgHalt s die c).gang g).halted = true ∧
    ((s.gang g).halted = true → ((dbgResume s die c).gang g).halted = false ∧ ((dbgResume s die c).gang g).stepFib = none) ∧
    ((s.gang g).halted = true → ((s.fib k).status = .ready ∨ (s.fib k).status = .handler) →
      ((dbgStep s die c).gang g).stepFib = some k ∧ ((dbgStep s die c).gang g).halted = true) ∧
    ((s.gang g).halted = false → dbgResume s die c = setDbg s die c 3 ∧ dbgStep s die c = setDbg s die c 3)) ∧
  (∀ s : State, s.agenda = [] → s.host.phase ≠ 3 → (s.gang s.focusGang).stepFib = none →
    ((s.gang s.focusGang).halted = true ∨ ((s.gang s.focusGang).suspended = true ∧ ∀ c, s.focus ≠ .cop c)) →
      step s = .next s) ∧
  ∀ (f : Fields) (s : State) (k : Nat), s.threads = [.fib k] → s.active f = [.fib k] → s.dbgOn (.fib k) = true →
    ((s.fib k).passBrk = false → ∃ t, exec (.brk f) s = .next t ∧ (t.gang (s.gangOf k)).halted = true ∧
      t.fib k = { s.fib k with passBrk := true }) ∧
    ((s.fib k).passBrk = true → ∃ t, exec (.brk f) s = .next t ∧ t.gangs = s.gangs ∧
      t.fib k = { s.fib k with passBrk := false, pc := seqPc (s.fib k).pc 0 })

/-- R105, R206, R207, R236, R293: a workgroup with no live fibre first releases its streams, then retires: its fibres are
gone. A gang is suspended where its front end may do so: once its pushes are written, its pages served and its pins fit, it
is suspended with every casement sector absent. A suspended gang resumes at a place that fits it, on its own quad, on another
of its die, or on another die once its streams are released and its channels show nothing outstanding; there its workgroups
acquire at the scope of the move, and each band's next instruction is a switch point; on its own die it need not wait where no
casement sector does and its matrix program has a free sequencer. It leaves for another package under the conditions of
another die, and one that comes resumes with acquires at .pod (log entry 148, the model's choice of form). -/
def Claims.GangLife : Prop :=
  (∀ (w : Nat) (s : State), Map.has s.wgs w = true → s.liveFibs w = [] → (s.gang (s.wg w).gang).suspended = false →
    (s.wg w).nbands ≠ 0 → wgQuiet s w = true →
      (openStreams s w = true → exec (.workgroupRetirement w) s = .next (releaseStreams s w)) ∧
      (openStreams s w = false → (∀ v ∈ (s.gang (s.wg w).gang).wgs, v = w ∨ (s.wg v).nbands = 0) →
        gangMat s (s.wg w).gang = false → gangCops s (s.wg w).gang = [] → ∀ u,
        retireGang (dropWg ((freeRuns s w).updLaunch (s.wg w).share fun l => { l with cherr := l.cherr + wgErrs s w }) w)
          (s.wg w).gang = some u →
        ∃ t, exec (.workgroupRetirement w) s = .next t ∧ (∀ k, wgOf k = w → t.fib k = Fibre.reset) ∧ t.gangs = u.gangs) ∧
      (openStreams s w = false → (∃ v ∈ (s.gang (s.wg w).gang).wgs, v ≠ w ∧ (s.wg v).nbands ≠ 0) →
        ∃ t, exec (.workgroupRetirement w) s = .next t ∧ (∀ k, wgOf k = w → t.fib k = Fibre.reset) ∧
          (t.wg w).nbands = 0)) ∧
  (∀ (g : Nat) (s : State) (l : Launch), Map.has s.gangs g = true → (s.gang g).suspended = false →
    s.launch (s.gang g).share = some l → l.coop = 0 → feRuns s ((s.gang g).quad / 40) = true →
      exec (.gangSuspension g true) s = .next (suspendGang s g .suspend).1 ∧
      ((suspendGang s g .suspend).2 = true → ∃ t, exec (.gangSuspension g true) s = .next t ∧ (t.gang g).suspended = true ∧
        (t.csm g).ce = 0 ∧ (t.csm g).debt = [] ∧ (t.csm g).queue = [] ∧
        ∀ n x, Map.get (t.csm g).slots n = some x → x.sectors = []) ∧
      (urgent s ((s.gang g).quad / 40) = true →
        ((s.gangs.filter (preemptable s ((s.gang g).quad / 40))).map (·.1)).foldl max 0 = g →
        exec (.gangSuspension g false) s = .next (suspendGang s g .suspend).1)) ∧
  (∀ (g quad : Nat) (images privs : List Nat) (s : State) (p : Place),
    let x := s.gang g
    let share := x.share / 16 * 16 + quad / 40
    let h := s.share share
    let ws := liveWgs s g
    let away := quad / 40 ≠ x.quad / 40
    let is := if quad = x.quad then ws.map fun w => (s.wg w).image.toNat else images
    let ps := if away then privs else ws.map fun w => (s.wg w).priv.toNat
    let scopes := ws.zipIdx.map fun q => (q.1, moveScope x.away (s.wg q.1).core (quad * 4 + (p.wgs.getD q.2 (0, [])).1))
    Map.has s.gangs g = true → x.suspended = true → feRuns s (quad / 40) = true → quad / 40 < 16 →
    Map.has s.shares share = true → h.trap = none → quad % 40 ∈ h.quads →
    (away → (∃ w ∈ ws, openStreams s w = true) →
      exec (.gangResumption g quad images privs) s = .next (ws.foldl releaseStreams s)) ∧
    (¬away ∨ ((∀ w ∈ ws, openStreams s w = false) ∧ mayLeaveDie s g = true) →
      addressesOk s quad h.psize (s.wg (ws.headD 0)).xregs ws (ws.map fun w => (s.wg w).nbands) is ps = true →
      resumePlace s g quad = some p →
        (∀ t, resumeAt s g p is ps = some t → exec (.gangResumption g quad images privs) s = .next t ∧
          (t.gang g).suspended = false ∧ (t.gang g).away = false ∧ (t.gang g).quad = quad ∧ (t.gang g).share = share ∧
          (t.csm g).base = p.base * 65536 ∧
          (∀ w ∈ ws, ∀ b, b < (s.wg w).nbands → (t.band (w * 32 + b)).sp = true ∧
            (x.away = true → (∀ v ∈ ws, (s.wg v).gang = g) → (t.band (w * 32 + b)).fair = 0)) ∧
          ∃ u v, resumeAcquires scopes u = some v ∧ t.mem = v.mem) ∧
        (s.csmClean → (∀ w ∈ ws, (s.wg w).core / 160 = quad / 40) → x.saved = none ∨ (s.mseq quad).st = .free → ¬away →
          ∃ t, resumeAt s g p is ps = some t))) ∧
  (∀ old new, moveScope true old new = 5 ∧ moveScope false old old = 1 ∧
    (old ≠ new → old / 4 = new / 4 → moveScope false old new = 2) ∧
    (old / 4 ≠ new / 4 → old / 160 = new / 160 → moveScope false old new = 3) ∧
    (old / 160 ≠ new / 160 → moveScope false old new = 4)) ∧
  (∀ (g : Nat) (rest : List Turn) (s : State), s.agenda = .gangLeaves g :: rest → s.host.phase ≠ 3 →
    Map.has s.gangs g = true → (s.gang g).suspended = true →
      let u := { s with agenda := rest }
      ((∃ w ∈ liveWgs s g, openStreams s w = true) → step s = .next ((liveWgs s g).foldl releaseStreams u)) ∧
      ((∀ w ∈ liveWgs s g, openStreams s w = false) → mayLeaveDie s g = true → step s = .next (forgetGang u g))) ∧
  ∀ (g : Nat) (x : GangImage) (rest : List Turn) (s : State), s.agenda = .gangArrives g x :: rest → s.host.phase ≠ 3 →
    imageFits s g x = true → x.cops = [] → x.lines = [] →
      ∃ t, step s = .next t ∧ (t.gang g).suspended = true ∧ (t.gang g).away = true ∧ t.csm g = x.csm ∧
        (∀ k f, Map.get x.fibres k = some f → t.fib k = f) ∧
        ∀ b d, Map.get x.bars b = some d → (t.bar b).count = max (s.bar b).count d.count

/-- R105, R206 to R210: the debugger, and the end, suspension and resumption of gangs. -/
def Obligations.GangsAndDebugger : Prop := Claims.Debugger ∧ Claims.GangLife

/-! ### Chapter 6: memory -/

/-- R157, R160: a plain load by one lane of bytes that its core's L1 holds: the value, extended as its variant says, is on
its way to D, the lane moves on, and nothing else changes but what the translation cached. -/
def Claims.LoadHits : Prop :=
  ∀ (f : Fields) (imm : W32) (s s1 : State) (k pa : Nat) (l : Leaf), s.active f = [.fib k] → f.sub.toNat ≤ 6 →
    let n := ldSize f.sub.toNat
    let loads (i : Instr) (disp : W32) (len : Nat) : Prop :=
      (pairA f s (.fib k) + disp.signExtend 64).toNat % n = 0 →
      s.trFib k (pairA f s (.fib k) + disp.signExtend 64) .read = (s1, .ok (l, pa)) → pa % n = 0 →
      isLocal (s1.fibDie k) pa = true → isDev pa = false → (flagACQ f = false ∨ scopeFld f < 2) →
      checkedPa s1 (.fib k) pa = false → l1Hit s1 (s1.fibCore k) pa n l.key = true →
        ∃ v, (∀ j, j < n → s1.l1Byte (s1.fibCore k) (pa + j) = some (v / 2 ^ (8 * j) % 256)) ∧ v < 2 ^ (8 * n) ∧
          i.does s (s1.pend (.fib k) (destRegs f.d.toNat n) (specLoad f.sub.toNat v) [] [] true) f len false
    loads (.ld f) 0 0 ∧ loads (.ld96 f imm) imm 1

/-- R157, R163: a plain store by one lane to a local, device-biased page that no detector checks and whose line its core
does not hold under another key: in that core's L1 exactly the stored bytes take the data and become valid and dirty.
Every other byte of every L1, the homes and the stored bytes of memory keep their values. -/
def Claims.StoreBytes : Prop :=
  ∀ (f : Fields) (imm : W32) (s s1 : State) (k pa : Nat) (l : Leaf), s.active f = [.fib k] → f.sub.toNat ≤ 4 →
    let n := stSize f.sub.toNat
    let c := s1.fibCore k
    let stores (i : Instr) (disp : W32) (len : Nat) : Prop :=
      (pairA f s (.fib k) + disp.signExtend 64).toNat % n = 0 →
      s.trFib k (pairA f s (.fib k) + disp.signExtend 64) .write = (s1, .ok (l, pa)) → pa % n = 0 →
      isLocal (s1.fibDie k) pa = true → isDev pa = false → flagREL f = false → checkedPa s1 (.fib k) pa = false →
      homeReady s1 (pa / 64) .write = true → hostBiased s1 (pa / 64) = false →
      (∀ x, Map.get (s1.core c).l1 (pa / 64) = some x → x.key = l.key) →
        ∃ u, i.does s u f len false ∧
          (∀ a, u.l1Byte c a = if pa ≤ a ∧ a < pa + n then some (storeData s (.fib k) f.c.toNat n / 2 ^ (8 * (a - pa)) % 256)
            else s1.l1Byte c a) ∧
          (∀ a, u.l1Dirty c a = if pa ≤ a ∧ a < pa + n then true else s1.l1Dirty c a) ∧
          (∀ d, d ≠ c → u.core d = s1.core d) ∧ u.mem.cells = s1.mem.cells ∧ u.mem.home = s1.mem.home ∧
          u.fibres = s1.fibres ∧ u.bands = s1.bands ∧ u.csms = s1.csms
    stores (.st f) 0 0 ∧ stores (.st96 f imm) imm 1

/-- R157, R160, R163: one lane loads and stores. -/
def Obligations.LoadsAndStores : Prop := Claims.LoadHits ∧ Claims.StoreBytes

/-- R161: the integer atomics on 32-bit and 64-bit words. -/
def Claims.AtomicValues : Prop :=
  ∀ (sub : Nat) (o v : W32) (p q : W64), sub ≤ 10 →
    atomOp sub 4 o.toNat v.toNat = (specAtom sub o v).toNat ∧ atomOp sub 8 p.toNat q.toNat = (specAtom sub p q).toNat

/-- R161, R162, R164: an atomic by one lane on a local address that no race detector checks, without REL, and without ACQ or
with it at scope .band or .core. Its core's dirty bytes of the line are at the home and the core is a source of it; the n
bytes at the address as the home then holds them are the old value, which for ATOM and CAS is on its way to D; they become
what the operation gives of it (a CAS that does not match leaves them), every other byte of the line keeps its value, the
core's L1 copy is dropped, and the lane's region closes. -/
def Claims.AtomicCompletes : Prop :=
  ∀ (f : Fields) (imm : W32) (s s1 s2 : State) (k pa : Nat) (l : Leaf) (o : Nat), s.active f = [.fib k] →
    (s.fib k).latent = [] → flagREL f = false → (flagACQ f = false ∨ scopeFld f < 2) →
    let n := if flagW64 f then 8 else 4
    let wide := decide (n = 8)
    let opC := (atomOperand s (.fib k) f.c.toNat wide).toNat
    let opB := (atomOperand s (.fib k) f.b.toNat wide).toNat
    let runs (i : Instr) (disp : W32) (len : Nat) (g : Nat → Option Nat) (dst : Bool) : Prop :=
      (pairA f s (.fib k) + disp.signExtend 64).toNat % n = 0 →
      s.trFib k (pairA f s (.fib k) + disp.signExtend 64) .write = (s1, .ok (l, pa)) →
      pa % n = 0 → isLocal (s1.fibDie k) pa = true → isDev pa = false → checkedPa s1 (.fib k) pa = false →
      homeOpen s1 (s1.fibCore k) (pa / 64) .atomic = true →
      coreAtomic s1 (l1AccOf s1 (.fib k) l (pairA f s (.fib k) + disp.signExtend 64)) pa n false g = some (s2, some o) →
        i.does s (s2.pend (.fib k) (if dst then destRegs f.d.toNat n else [])
          ((List.range (if dst then destRegs f.d.toNat n else []).length).map fun i => BitVec.ofNat 32 (o / 2 ^ (32 * i)))
          [] [] true) f len true ∧
        let ln := pa / 64
        let c := s1.fibCore k
        let drained := coreDrainLines (homeTake s1 ln) c 0 [ln]
        ∃ u w w' old new, addSource drained ln c (drained.core c).ep = some u ∧ (s2.core c).l1 = Map.del (u.core c).l1 ln ∧
          homeRead u ln l.key l.cmps = some (w, old) ∧ homeRead s2 ln l.key l.cmps = some (w', new) ∧
          o = lineGet old (pa % 64) n ∧ lineGet new (pa % 64) n = (match g o with
            | some v => v % 2 ^ (8 * n)
            | none => o) ∧
          ∀ j, j < pa % 64 ∨ pa % 64 + n ≤ j → lineGet new j 1 = lineGet old j 1
    let swap (x : Nat) : Option Nat := if x = opB then some opC else none
    let oper (x : Nat) : Option Nat := some (atomOp f.sub.toNat n x opC)
    runs (.atom f) 0 0 oper true ∧ runs (.atom96 f imm) imm 1 oper true ∧ runs (.cas f) 0 0 swap true ∧
    runs (.cas96 f imm) imm 1 swap true ∧ runs (.red f) 0 0 oper false ∧ runs (.red96 f imm) imm 1 oper false

/-- R161, R162: atomics. -/
def Obligations.Atomics : Prop := Claims.AtomicValues ∧ Claims.AtomicCompletes

/-- R158: private loads and stores by one lane at an aligned offset. Inside its private block, where the lines of the block
are not being moved between biases, a load completes with its value on the way to D, that of the core's L1 where this holds
the bytes, and a store leaves exactly its bytes in the core's L1, valid and dirty; a line that cannot be read or merged is a
late UncorrectableMemoryError. Past the block either is a late ProtectionFault with code 6. -/
def Obligations.PrivateAccess : Prop :=
  ∀ (f : Fields) (imm : W32) (s : State) (k : Nat), s.active f = [.fib k] →
    let ps := (s.share (s.wg (wgOf k)).share).psize
    let c := s.fibCore k
    let loads (i : Instr) (disp : W32) (len : Nat) : Prop :=
      let n := ldSize f.sub.toNat
      let va := pairA f s (.fib k) + disp.signExtend 64
      let regs := destRegs f.d.toNat n
      f.sub.toNat ≤ 6 → va.toNat % n = 0 →
        (va.toNat + n ≤ ps → privReady s true k va.toNat n = true →
          i.does s (match privLoad k va (privParts va.toNat n) s with
            | some (u, v) => u.pend (.fib k) regs (specLoad f.sub.toNat v) [] [] true
            | none => s.loadFaults k regs (lateCause 0x13 0 va)) f len false) ∧
        (va.toNat + n ≤ ps → (s.wg (wgOf k)).priv.toNat % 4 = 0 →
          (∀ p ∈ privParts va.toNat n, l1Hit s c (privAddr s k p.1) p.2 (s.wg (wgOf k)).kid = true) →
          ∃ v, (∀ j, j < n → s.l1Byte c (privAddr s k (va.toNat + j)) = some (v / 2 ^ (8 * j) % 256)) ∧ v < 2 ^ (8 * n) ∧
            i.does s (s.pend (.fib k) regs (specLoad f.sub.toNat v) [] [] true) f len false) ∧
        (ps < va.toNat + n → i.does s (s.loadFaults k regs (lateCause 0x06 6 va)) f len false)
    let stores (i : Instr) (disp : W32) (len : Nat) : Prop :=
      let n := stSize f.sub.toNat
      let va := pairA f s (.fib k) + disp.signExtend 64
      let data := storeData s (.fib k) f.c.toNat n
      f.sub.toNat ≤ 4 → va.toNat % n = 0 →
        (va.toNat + n ≤ ps → privReady s false k va.toNat n = true →
          i.does s (match privStore k va (privParts va.toNat n) data s with
            | some u => u
            | none => s.faultLater k 0 (lateCause 0x13 0 va)) f len false) ∧
        (va.toNat + n ≤ ps → privReady s false k va.toNat n = true → (s.wg (wgOf k)).priv.toNat % 4 = 0 → (s.wg (wgOf k)).nbands ≠ 0 →
          (∀ p ∈ privParts va.toNat n, hostBiased s (privAddr s k p.1 / 64) = false ∧
            ∀ x, Map.get (s.core c).l1 (privAddr s k p.1 / 64) = some x → x.key = (s.wg (wgOf k)).kid) →
          ∃ u, i.does s u f len false ∧ u.mem = s.mem ∧ (∀ d, d ≠ c → u.core d = s.core d) ∧
            (∀ j, j < n → u.l1Byte c (privAddr s k (va.toNat + j)) = some (data / 2 ^ (8 * j) % 256) ∧
              u.l1Dirty c (privAddr s k (va.toNat + j)) = true) ∧
            ∀ a, (∀ j, j < n → a ≠ privAddr s k (va.toNat + j)) → u.l1Byte c a = s.l1Byte c a ∧
              u.l1Dirty c a = s.l1Dirty c a) ∧
        (ps < va.toNat + n → i.does s (s.faultLater k 0 (lateCause 0x06 6 va)) f len false)
    loads (.ldp f) 0 0 ∧ loads (.ldp96 f imm) imm 1 ∧ stores (.stp f) 0 0 ∧ stores (.stp96 f imm) imm 1

/-- R160, R166, R167, R299: loads, stores and atomics over all their lanes, local and remote: once every lane is
translated, a release's order is complete and no lane must wait at its home, the instruction ends with each lane's own
fate, and the remote lanes' requests are on channel 0. -/
def Claims.MemoryLanes : Prop :=
  ∀ (f : Fields) (imm : W32) (s s1 s2 s3 s4 : State) (trs : List (Thr × LaneTr)) (fates : List (Thr × Fate))
    (reqs : List LaneReq),
    let act := s.active f
    let va (disp : W32) (x : Thr) : W64 := pairA f s x + disp.signExtend 64
    let lanes (disp : W32) : List (Thr × W64 × LaneTr) := trs.map fun x => (x.1, va disp x.1, x.2)
    let ch := chanKey (wgOf ((act.map Thr.key).headD 0)) 0
    let locals : Bool := trs.any fun x => match x.2 with
      | .ok _ pa => decide (memDie pa = some (s.fibDie x.1.key))
      | .fate _ => false
    let loads (i : Instr) (disp : W32) (len : Nat) : Prop :=
      let g : LdArg := { d := f.d.toNat, n := ldSize f.sub.toNat, sx := signedLd f.sub.toNat, acq := flagACQ f, scope := scopeFld f }
      trLanes .read g.n (va disp) act s = (s1, some trs) → (trs.any laneDev = true → closerReady s1 act = true) →
      runLanes (ldLane g) (fun x => x.1) (lanes disp) s1 = some (s2, fates, reqs) →
      endAcquire s2 (g.acq && decide (2 ≤ g.scope) && locals) act = some s3 →
        exec i s = .next (finish (chanIssue s3 ch 1 f.sub.toNat false g.sx (!g.acq) g.scope reqs) len (s.idle f) false fates)
    let stores (i : Instr) (disp : W32) (len : Nat) : Prop :=
      let n := stSize f.sub.toNat
      trLanes .write n (va disp) act s = (s1, some trs) →
      (flagREL f = true ∨ trs.any laneDev = true → closerReady s1 act = true) →
      releaseFirst s1 (flagREL f) (scopeFld f) act = (s2, true) →
      runLanes (stLane n (flagREL f) (scopeFld f) f.c.toNat s) (fun x => x.1) (lanes disp) s2 = some (s3, fates, reqs) →
        exec i s = .next (finish (chanIssue s3 ch 0 f.sub.toNat false false (!flagREL f) (scopeFld f) reqs) len (s.idle f) (flagREL f) fates)
    let atoms (i : Instr) (kind : AtomKind) (disp : W32) (len : Nat) : Prop :=
      let g : AtomArg := { kind := kind, sub := f.sub.toNat, n := if flagW64 f then 8 else 4, d := f.d.toNat, b := f.b.toNat,
                           c := f.c.toNat, acq := flagACQ f && decide (kind ≠ .red), scope := scopeFld f }
      closerReady s act = true → trLanes .write g.n (va disp) act s = (s1, some trs) →
      releaseFirst s1 (flagREL f) (scopeFld f) act = (s2, true) →
      runLanes (atomLane g s) (fun x => x.1) (lanes disp) s2 = some (s3, fates, reqs) →
      endAcquire s3 (g.acq && decide (2 ≤ g.scope) && locals) act = some s4 →
        exec i s = .next (finish (chanIssue s4 ch kind.pkop f.sub.toNat (flagW64 f) false false g.scope reqs) len (s.idle f) true fates)
    loads (.ld f) 0 0 ∧ loads (.ld96 f imm) imm 1 ∧ stores (.st f) 0 0 ∧ stores (.st96 f imm) imm 1 ∧
    atoms (.atom f) .atom 0 0 ∧ atoms (.atom96 f imm) .atom imm 1 ∧ atoms (.cas f) .cas 0 0 ∧
    atoms (.cas96 f imm) .cas imm 1 ∧ atoms (.red f) .red 0 0 ∧ atoms (.red96 f imm) .red imm 1

/-- R171 to R173: FENCE completes once its orders are done, in a state that has done them; CACHE once every lane's range
is done, each lane with its own fate; PREF once its lanes' walks are done, each lane only asking for its line; a lane with a
misaligned address does nothing, and which addresses are is left open (log entry 130). -/
def Claims.FenceCachePrefetch : Prop :=
  ∀ (f : Fields) (imm : W32) (s u : State),
    (∀ k act, s.active f = .fib k :: act → allPerformed s (s.active f) = true → closerReady s (s.active f) = true →
      fenceOp s (wgOf k) (bandOf k) f.sub.toNat (scopeFld f) = (u, true) → (Instr.fence f).does s u f 0 false) ∧
    (∀ w b sub, fenceOp s w b sub 0 = (s, true) ∧ fenceOp s w b sub 1 = (s, true)) ∧
    (let cache (i : Instr) (disp : W32) (len : Nat) : Prop := ∀ fates reqs,
      runLanes (fun s' x => (cachePages x f.sub.toNat (decide (3 ≤ scopeFld f)) ((srcB f s x).toNat / 4096 + 2)
        (srcB f s x).toNat (memVa f disp s x) s').map fun p => (p.1, p.2, none)) id (s.active f) s = some (u, fates, reqs) →
      exec i s = .next (finish u len (s.idle f) false fates)
     cache (.cache f) 0 0 ∧ cache (.cache96 f imm) imm 1) ∧
    (let pref (i : Instr) (disp : W32) (len : Nat) : Prop :=
      (∀ s1, prefWalks (memVa f disp s) (s.active f) s = (s1, true) →
        i.does s ((s.active f).foldl (fun s' x => prefLane f.sub.toNat (memVa f disp s x) s' x) s1) f len false) ∧
      ((∀ x ∈ s.active f, prefOdd (memVa f disp s x) = true) → i.does s s f len false)
     pref (.pref f) 0 0 ∧ pref (.pref96 f imm) imm 1)

/-- R160, R166 to R173: memory instructions over all their lanes, and FENCE, CACHE and PREF. -/
def Obligations.MemoryInstructions : Prop := Claims.MemoryLanes ∧ Claims.FenceCachePrefetch

/-- R163 to R169, R173, R80, R400, R403: the events of L1s and homes. An ownership request or epoch update whose turn it is,
to a page that is not changing its bias, leaves its agent a source of the line at its epoch; at a host-biased line it leaves
none. A write-back leaves no dirty byte of the line in its core's L1; drains are those of the order rule, and a background
drain none of whose lines has received RETRY leaves none due. Of requests that meet, the first at or after the slice's pointer
wins, the pointer moves past it, and the others wait until the winner's is served. A line that PREF asked for is filled. An
evicted line leaves its L2, a dirty one for memory; one that cannot be read stays (log entry 164, the model's choice). An idle
die's retired slices no longer serve. Where no casement sector and no write-back has to wait, no drain, release or acquire
does. -/
def Claims.CoherenceEvents : Prop :=
  ∀ (agent line core e die : Nat) (reqs : List Nat) (s u : State),
    (∀ upd m, s.mem.msgs.find? (fun m => decide (m.agent = agent ∧ m.line = line ∧ m.upd = upd)) = some m →
      homeTurn s agent line = true → Map.getD s.mem.bias (pageOf line) 0 < 2 →
      let i : Instr := if upd then .epochUpdate agent line else .ownershipRequest agent line
      (hostBiased s line = true → homeReady s line .write = true → Map.wf s.mem.home = true → ∃ t, exec i s = .next t ∧
        t.mem.msgs = s.mem.msgs.erase m ∧ (t.home line).sources = (s.home line).sources) ∧
      (hostBiased s line = false → (s.home line).sources.length < 4 → ∃ t, exec i s = .next t ∧
        t.mem.msgs = s.mem.msgs.erase m ∧ (agent, m.epoch) ∈ (t.home line).sources) ∧
      (hostBiased s line = false → addSource s line agent m.epoch = some u → ∃ t, exec i s = .next t ∧
        (agent, m.epoch) ∈ (t.home line).sources ∧ t.mem.msgs = u.mem.msgs.erase m)) ∧
    (homeTurn s agent line = true →
      (agent < 2560 → exec (.writeBack agent line) s = .next (coreDrainLines s agent 0 [line]) ∧
        ((∀ x, Map.get (s.core agent).l1 line = some x → x.priv = false) →
          ∀ a, a / 64 = line → (coreDrainLines s agent 0 [line]).l1Dirty agent a = false)) ∧
      (2560 ≤ agent → exec (.writeBack agent line) s = .next ((drainCsm s (agent - 2560) 0 line).getD s))) ∧
    (exec (.drain core e line) s = .next ((drainCore s core e line).getD s) ∧
      (s.csmClean → drainCore s core e line = some (coreDrainLines s core e [line]))) ∧
    (s.csmClean → s.drainsNow core = true ∧ (∀ w scope, (fenceAcquire s w scope).isSome = true) ∧
      ∀ w, (afterAcquire s w).isSome = true) ∧
    (let rels := ((s.core core).l1.filter fun p => match p.2.rel with
        | some r => decide (r ≤ (s.core core).ep)
        | none => false).map (·.1)
     coreTurn s core (drainList s core (s.core core).ep rels) = true → exec (.backgroundDrain core) s = .next
      ((coreDrainLines s core (s.core core).ep rels).updCore core fun k => { k with drainBy := none })) ∧
    (∀ i, i < 43 → Map.has s.mem.retry line = false → let p := Map.getD s.mem.ptrs (sliceKey s line) 0
      (p + i) % 43 ∈ reqs → (∀ j, j < i → (p + j) % 43 ∉ reqs) →
        ∃ t, exec (.retry line reqs) s = .next t ∧
          Map.get t.mem.ptrs (sliceKey s line) = some (((p + i) % 43 + 1) % 43) ∧
          (∀ a, homeTurn t a line = decide (rotIndex a ∉ reqs.filter fun r => r ≠ (p + i) % 43)) ∧
          ∀ a b, rotIndex a = (p + i) % 43 → homeTurn (homeServed t a line) b line = true) ∧
    (∀ key cmps, (s.core core).pref.find? (fun p => p.1 = line) = some (line, key, cmps) → homeReady s line .read = true →
      hostBiased s line = false →
        let s1 := s.updCore core fun k => { k with pref := k.pref.erase (line, key, cmps) }
        exec (.l1Fill core line) s = .next
          ((l1Fill s1 { fib := 0, core := core, kid := key, cmps := cmps, priv := false, va := 0 } line).getD s1)) ∧
    exec (.l2Eviction line) s = .next ((evictL2 s line).getD s) ∧
    (Map.wf s.mem.home = true → (s.home line).pins = [] → (s.home line).sources = [] →
      ∃ t, exec (.l2Eviction line) s = .next t ∧
        ((∀ x, (s.home line).l2 = some x → x.bad = []) → (t.home line).l2 = none) ∧
        ∀ x, (s.home line).l2 = some x → x.dirty = true →
          (x.bad = [] → t.mem.cells = (memWrite s line x.key x.cmps x.data).mem.cells) ∧
          (s.l2Read line x = none → t = s)) ∧
    (∀ key cmps, s.mem.prefL2.find? (fun p => p.1 = line) = some (line, key, cmps) → homeReady s line .read = true →
        let s1 := (homeUse s line).updMem fun m => { m with prefL2 := m.prefL2.erase (line, key, cmps) }
        exec (.l2Fill line) s = .next ((s1.ensure line key cmps).getD s1)) ∧
    (dieIdle s die = true → leavingSlices s die ≠ [] →
      let lines := (s.mem.home.filter fun p => decide (lineDie p.1 = die) &&
        (leavingSlices s die).contains (sliceKey s p.1)).map (·.1)
      (∀ u, forAll evictL2 lines s = some u →
        ∃ t, exec (.l2SliceRemap die) s = .next t ∧ t.mem.remap = u.mem.remap ++ leavingSlices s die) ∧
      (lines = [] → ∃ t, exec (.l2SliceRemap die) s = .next t ∧ t.mem.remap = s.mem.remap ++ leavingSlices s die ∧
        t.mem.cells = s.mem.cells))

/-- R220 to R222, R212: LDL, STL and ATOML by one lane on local bytes that no slot maps and that are sound: the value is on
its way to D; exactly the stored bytes of the gang's local store take the data; the atomic does both, and closes the
region. Nothing else changes, memory included. -/
def Claims.LocalStoreAccess : Prop :=
  ∀ (f : Fields) (imm : W32) (s : State) (k : Nat), s.active f = [.fib k] → s.memWf →
    let g := s.gangOf k
    let c := s.csm g
    let free (n : Nat) (va : W64) : Prop := va.toNat % n = 0 ∧ va.toNat + n ≤ c.lsize ∧ slotAt c va.toNat = none ∧
      csmEcc s g va.toNat n = (s, true) ∧ Map.get c.bad (va.toNat / 16) = none
    let wrote (u : State) (o n v : Nat) : Prop := u = s.setCsm g { c with bytes := (u.csm g).bytes, bad := (u.csm g).bad } ∧
      ∀ a, readCell (u.csm g).bytes a = if o ≤ a ∧ a < o + n then BitVec.ofNat 8 (v / 2 ^ (8 * (a - o))) else readCell c.bytes a
    let va (disp : W32) : W64 := pairA f s (.fib k) + disp.signExtend 64
    let loads (i : Instr) (disp : W32) (len : Nat) : Prop := f.sub.toNat ≤ 6 → flagACQ f = false →
      let n := ldSize f.sub.toNat
      free n (va disp) → i.does s (s.pend (.fib k) (destRegs f.d.toNat n)
        (specLoad f.sub.toNat (readCells c.bytes (va disp).toNat n)) [] [] true) f len false
    let stores (i : Instr) (disp : W32) (len : Nat) : Prop := f.sub.toNat ≤ 4 → flagREL f = false →
      let n := stSize f.sub.toNat
      free n (va disp) → ∃ u, i.does s u f len false ∧ wrote u (va disp).toNat n (storeData s (.fib k) f.c.toNat n)
    let atoms (i : Instr) (disp : W32) (len : Nat) : Prop := flagACQ f = false → flagREL f = false → (s.fib k).latent = [] →
      let n := if flagW64 f then 8 else 4
      let old := readCells c.bytes (va disp).toNat n
      let v := atomOp f.sub.toNat n old (atomOperand s (.fib k) f.c.toNat (decide (n = 8))).toNat
      free n (va disp) → ∃ u, wrote u (va disp).toNat n v ∧
        i.does s (u.pend (.fib k) (destRegs f.d.toNat n) ((List.range (destRegs f.d.toNat n).length).map fun i =>
          BitVec.ofNat 32 (old / 2 ^ (32 * i))) [] [] true) f len true
    loads (.ldl f) 0 0 ∧ loads (.ldl96 f imm) imm 1 ∧ stores (.stl f) 0 0 ∧ stores (.stl96 f imm) imm 1 ∧
    atoms (.atoml f) 0 0 ∧ atoms (.atoml96 f imm) imm 1

/-- R221, R230, R231: LDL, STL and ATOML over all lanes, slots included: when no lane's word is missing and orders are
complete the instruction ends with each lane's own fate; where words are missing their fills are asked for, and the
instruction has had no other effect. -/
def Claims.CasementLanes : Prop :=
  ∀ (f : Fields) (imm : W32) (s s1 s2 s3 : State) (xs : List (Thr × CsmLane)) (fates : List (Thr × Fate))
    (reqs : List LaneReq),
    let act := s.active f
    let w := wgOf ((act.map Thr.key).headD 0)
    let arg (n : Nat) (wr rd : Bool) : CsmArg := { n := n, wr := wr, rd := rd, late := true }
    let loads (i : Instr) (disp : W32) (len : Nat) : Prop :=
      let n := ldSize f.sub.toNat
      csmChecks (arg n false true) (memOff f disp s) act s = (s1, xs) →
      (anyFill xs = true → exec i s = .next (askFills s1 xs)) ∧
      (anyFill xs = false → runLanes (ldlLane f.d.toNat n (signedLd f.sub.toNat) (flagACQ f) (scopeFld f) (memOff f disp s))
        (fun x => x.1) xs s1 = some (s2, fates, reqs) →
        (if flagACQ f then csmEndAcq s2 w (scopeFld f) xs else some s2) = some s3 →
        exec i s = .next (finish (dropFerr s3 (memOff f disp s) xs) len (s.idle f) false fates))
    let stores (i : Instr) (disp : W32) (len : Nat) : Prop :=
      let n := stSize f.sub.toNat
      csmChecks (arg n true false) (memOff f disp s) act s = (s1, xs) →
      (anyFill xs = true → exec i s = .next (askFills s1 xs)) ∧
      (anyFill xs = false → (flagREL f = true → closerReady s act = true) →
        releaseFirst s1 (flagREL f) (scopeFld f) act = (s2, true) →
        runLanes (stlLane f.c.toNat n s (memOff f disp s)) (fun x => x.1) xs s2 = some (s3, fates, reqs) →
        exec i s = .next (finish (dropFerr s3 (memOff f disp s) xs) len (s.idle f) (flagREL f) fates))
    let atoms (i : Instr) (disp : W32) (len : Nat) : Prop :=
      let n := if flagW64 f then 8 else 4
      csmChecks (arg n true true) (memOff f disp s) act s = (s1, xs) →
      (anyFill xs = true → exec i s = .next (askFills s1 xs)) ∧
      (anyFill xs = false → closerReady s act = true → releaseFirst s1 (flagREL f) (scopeFld f) act = (s2, true) →
        ∀ u, runLanes (atomlLane f n s (memOff f disp s)) (fun x => x.1) xs s2 = some (s3, fates, reqs) →
        (if flagACQ f ∧ 2 ≤ scopeFld f ∧ act ≠ [] then afterAcquire s3 w else some s3) = some u →
        exec i s = .next (finish (dropFerr u (memOff f disp s) xs) len (s.idle f) true fates))
    loads (.ldl f) 0 0 ∧ loads (.ldl96 f imm) imm 1 ∧ stores (.stl f) 0 0 ∧ stores (.stl96 f imm) imm 1 ∧
    atoms (.atoml f) 0 0 ∧ atoms (.atoml96 f imm) imm 1

/-- R212, R220 to R222, R230, R231: accesses to the local store. -/
def Obligations.LocalStore : Prop := Claims.LocalStoreAccess ∧ Claims.CasementLanes

/-- R218, R219, R223, R224, R230, R233, R238: the slot instructions. CSM.OPEN opens the slot its extension word describes, with
no sector valid, unless a fault of the rule's list holds, which every active fibre then takes; CLOSE pushes, writes back and
closes; FLUSH pushes and writes back, first what the order rule puts before; DROP closes at once; PUSH pushes, and of a slot
that is no halo takes Mode with the slot's local offset. Each closes the region. That a closed slot reports %taddr 0, and OPEN's
Bounds slot 0, is the model's choice (log entry 68). -/
def Claims.CasementSlots : Prop :=
  ∀ (f : Fields) (ext : Ext) (s : State) (k : Nat) (act : List Thr), s.active f = .fib k :: act →
    let g := s.gangOf k
    let body := ext.body.toNat
    let n := body % 16
    let x : Slot := { lofs := body / 2 ^ 4 % 2 ^ 14, llen := body / 2 ^ 18 % 2 ^ 15, gbase := pairA f s (.fib k),
                      mode := f.sub.toNat, hw := body / 2 ^ 33 % 2 ^ 10, role := ext.role.toNat, sectors := [] }
    let sel := (srcA f s (.fib k)).toNat
    (openFault (s.csm g) n x = none → ∃ u, (Instr.csmOpen f ext).does s u f 2 true ∧ Map.get (u.csm g).slots n = some x ∧
      (∀ m, m ≠ n → Map.get (u.csm g).slots m = Map.get (s.csm g).slots m) ∧ u.mem = s.mem ∧
      (u.csm g).bytes = (s.csm g).bytes) ∧
    (∀ sub, openFault (s.csm g) n x = some sub → s.trapReady f →
      (Instr.csmOpen f ext).enters s f 0x08#32 (fun _ => BitVec.ofNat 32 (sub + 16 * (if sub = 3 then 0 else n) + 256))
        (fun _ => BitVec.ofNat 64 (64 * x.lofs)) (fun _ => s.pcOf (.fib k))) ∧
    (∀ sub, selected s g sel = .error sub → s.trapReady f → ∀ i ∈ [Instr.csmClose f, .csmFlush f, .csmDrop f, .csmPush f],
      i.enters s f 0x08#32 (fun _ => BitVec.ofNat 32 (sub + 16 * (sel % 16) + 256)) (fun _ => 0) fun _ => s.pcOf (.fib k)) ∧
    (∀ y, sel / 16 % 2 = 0 → Map.get (s.csm g).slots (sel % 16) = some y → y.mode ≠ 2 → s.trapReady f →
      (Instr.csmPush f).enters s f 0x08#32 (fun _ => BitVec.ofNat 32 (7 + 16 * (sel % 16) + 256))
        (fun _ => BitVec.ofNat 64 (64 * y.lofs)) fun _ => s.pcOf (.fib k)) ∧
    ∀ sls, selected s g sel = .ok sls →
      (Instr.csmDrop f).does s (sls.foldl (fun u m => closeSlot u g m) s) f 0 true ∧
      (pushDone (pushSlots s g sls) g = true →
        (sel / 16 % 2 = 1 ∨ (∃ y, Map.get (s.csm g).slots (sel % 16) = some y ∧ y.mode = 2) →
          (Instr.csmPush f).does s (pushSlots s g sls) f 0 true) ∧
        ∀ u v, csmTurn (pushSlots s g sls) g = true →
          flushFirst g (slotSectors (pushSlots s g sls) g sls) (pushSlots s g sls) = some v →
          flushSectors g (slotSectors (pushSlots s g sls) g sls) v = (u, .ok ()) →
          (Instr.csmFlush f).does s u f 0 true ∧
          (Instr.csmClose f).does s (sls.foldl (fun u m => closeSlot u g m) u) f 0 true)

/-- R221, R227 to R230, R234: the events of the casement units. A fill answer makes every word of its sector valid, keeps
the words that were valid, and the home records the quad as a sharer; a push that matches no slot is discarded, and one that
arrives brings the lines of the sectors it fills (log entry 150, the model's choice). -/
def Claims.CasementEvents : Prop :=
  ∀ (g sl k quad e line : Nat) (s : State),
    (∀ held s1 s2 s3 l pa x, (s.sector g sl k).refill = some held → sectorTr s g sl k .read = (s1, .ok (l, pa)) →
      homeReady s1 (pa / 64) .read = true → homeRead (homeUse s1 (pa / 64)) (pa / 64) l.key l.cmps = some (s2, x) →
      sectorEcc s2 g sl k = (s3, true) →
      let z := s3.sector g sl k
      let v := (s3.home (pa / 64)).version
      let a := (putSector s3 g sl k (bytesOf (~~~ z.valid)) x).setSector g sl k
        { z with valid := BitVec.allOnes 16, refill := none }
      let b := a.setHome (pa / 64) { a.home (pa / 64) with
        sharers := (a.home (pa / 64)).sharers ||| (1#40 <<< ((s.gang g).quad % 40)) }
      exec (.casementFillAnswer g sl k) s = .next (csmDebt (b.updCsm g fun c => { c with
        queue := c.queue ++ held.filterMap (resolveNotice v (~~~ z.valid)) }) g (pa / 64))) ∧
    exec (.casementNotice quad) s = .next (takeNotice s quad) ∧
    exec (.casementAcquire g) s = .next ((csmAcquire s g false).getD s) ∧
    (s.csmClean → ∃ u, csmAcquire s g false = some u ∧ exec (.casementAcquire g) s = .next u ∧ (u.csm g).queue = []) ∧
    (∀ m rest, (s.csm g).out = m :: rest → pushTarget (s.updCsm g fun c => { c with out := rest }) m = none →
      exec (.haloPush g) s = .next (s.updCsm g fun c => { c with out := rest })) ∧
    (∀ m rest j sec, (s.csm g).out = m :: rest → pushTarget (s.updCsm g fun c => { c with out := rest }) m = some (j, sec) →
      exec (.haloPush g) s = .next (m.words.foldl (fun s w =>
        let k := sec + w.1 / 16
        let y := s.sector j m.slot k
        (putSector s j m.slot k (byteMask (4 * (w.1 % 16)) 4) (BitVec.ofNat 512 (w.2.toNat * 2 ^ (32 * (w.1 % 16))))).setSector
          j m.slot k { y with valid := y.valid ||| (1#16 <<< (w.1 % 16)),
                              ln := if y.tr.isSome then y.ln else Map.getD m.lines (w.1 / 16) y.ln })
        (s.updCsm g fun c => { c with out := rest }))) ∧
    exec (.casementDrain quad e line) s = .next ((drainCsm s quad e line).getD s) ∧
    (s.csmClean → drainCsm s quad e line = some s) ∧
    (∀ u, csmTurn s g = true → csmDrain s g (s.csm g).ce none = some u → exec (.casementBackgroundWriteback g) s =
      .next (u.updCsm g fun c => { c with drainBy := none })) ∧
    (s.csmClean → exec (.casementBackgroundWriteback g) s = .next (s.updCsm g fun c => { c with drainBy := none }))

/-- R218 to R234: casement slots and events. -/
def Obligations.Casements : Prop := Claims.CasementSlots ∧ Claims.CasementEvents

/-! ### Chapters 9 and 10: copy and matrix engines -/

/-- R242 to R247: CPY, CPY.2D and GATH complete where their engine's queue has room for every active fibre: after a
draining release, in ascending lane order, one command with each fibre's operands is queued as a member of the open batch of
its token, which is opened if need be; a fibre with eight live batches opens a Limit batch, and queues nothing. CPY.SEAL seals
each active fibre's open batch of the token, or a new one, with the fibre's next batch number, and makes the token pending.
Each closes the region; with every guard false each only passes. -/
def Obligations.CopyCommands : Prop :=
  ∀ (f : Fields) (ext : Ext) (s : State) (k : Nat) (act : List Thr),
    let tok := f.d.toNat
    let ce := roleEngine s (.fib k) ext.role.toNat
    let q (x : Thr) : List W32 := s.rxq x f.c.toNat
    let base (kind : CopyKind) (n : Nat) (x : Thr) : Xfer :=
      { kind := kind, dst := pairA f s x, src := pairB f s x, n := n, height := 0, spitch := 0, dpitch := 0, index := 0,
        bound := 0, elem := 0, idx64 := false, asid := s.asidOf x, priv := s.privOf x }
    let queues (i : Instr) (op : Thr → Xfer) : Prop :=
      (s.active f = [] → i.does s s f 2 true) ∧
      (s.active f = .fib k :: act → (copyq s ce).length + (s.active f).length ≤ 64 → s.drainsNow (s.fibCore k) = true →
        ∃ s1 u, drainRelease s (s.fibCore k) = some s1 ∧ i.does s u f 2 true ∧
          (∃ l, copyq u ce = copyq s1 ce ++ l ∧
            l.map (·.x) = ((s.active f).filter fun x => !(s1.fib x.key).limited tok).map op) ∧
          (∀ e, e ≠ ce → copyq u e = copyq s1 e) ∧
          ∀ j, .fib j ∈ s.active f → ∃ b ∈ (u.fib j).batches, b.token = tok ∧ b.sealed = false ∧
            b.limit = (s1.fib j).limited tok ∧
            ((s1.fib j).limited tok = false → (∃ c ∈ copyq u ce, c.owner = .batch j b.id ∧ c.x = op (.fib j)) ∧
              b.left = (((s1.fib j).openBatch tok).map (·.left)).getD 0 + 1))
    queues (.cpy f ext) (fun x => base .plain (srcC f s x).toNat x) ∧
    queues (.cpy2d f ext) (fun x => { base .rows ((q x).getD 0 0).toNat x with
      height := ((q x).getD 1 0).toNat, spitch := ((q x).getD 2 0).toNat, dpitch := ((q x).getD 3 0).toNat }) ∧
    queues (.gath f ext) (fun x => { base .gather ((q x).getD 2 0).toNat x with
      index := join64 ((q x).getD 0 0) ((q x).getD 1 0), bound := ((q x).getD 3 0).toNat,
      elem := ext.body.toNat % 256 * 4, idx64 := ext.body.getLsbD 8 }) ∧
    ((∀ x ∈ s.active f, ∃ j, x = .fib j) → ∃ u, (Instr.cpySeal f).does s u f 0 true ∧
      ∀ j, .fib j ∈ s.active f → (u.fib j).bn = (s.fib j).bn + 1 ∧
        ∃ y ∈ (u.fib j).batches, y.token = tok ∧ y.sealed = true ∧ y.number = ((s.fib j).bn + 1).toNat ∧
          (∀ b, (s.fib j).openBatch tok = some b → y.id = b.id ∧ y.left = b.left) ∧
          ((s.fib j).openBatch tok = none → y.left = 0) ∧
          (tok ≠ 0 → ∃ p ∈ (u.fib j).pend, p.id = y.pend ∧ p.regs = [tok] ∧ p.ready = false))

/-- R251 to R254: copy programs. GLD of an aligned word that the engine may read loads it: the word at its home is on its way
to D; misaligned, or at an address that it may not read, it stops the program. GMOV, GGATHER, GSCAT and an aligned GSIG
complete in every state: they post an operation with the operands read at issue behind the context's earlier ones. With a
false guard each only passes. -/
def Obligations.CopyPrograms : Prop :=
  ∀ (f : Fields) (ext : Ext) (imm : W32) (s : State) (c : Nat), s.focus = .cop c →
    let x : Thr := .cop c
    let va (disp : W32) : W64 := pairA f s x + disp.signExtend 64
    let base (kind : CopyKind) (n : Nat) : Xfer :=
      { kind := kind, dst := pairA f s x, src := pairB f s x, n := n, height := 0, spitch := 0, dpitch := 0, index := 0,
        bound := 0, elem := 0, idx64 := false, asid := s.asidOf x, priv := s.privOf x }
    let b := ext.body.toNat
    let passes (i : Instr) (len : Nat) : Prop := s.active f = [] → i.does s s f len false
    let posts (i : Instr) (len : Nat) (o : CopyOp) : Prop := s.active f = [x] →
      ∃ u, i.does s u f len false ∧ (ctxOf u c).ops = (ctxOf s c).ops ++ [o] ∧ u.nextId = s.nextId + 1 ∧
        { u with ctxs := s.ctxs, nextId := s.nextId } = s ∧ ∀ d, d ≠ c → ctxOf u d = ctxOf s d
    let moves (i : Instr) (op : Xfer) : Prop := passes i 2 ∧ posts i 2 (.xfer s.nextId op)
    let by' (kind : CopyKind) : Xfer := { base kind (s.rx x (b % 32)).toNat with
      index := pairC f s x, bound := (s.rx x (b / 2 ^ 14 % 32)).toNat, elem := b / 32 % 256 * 4, idx64 := b.testBit 13 }
    let load (i : Instr) (disp : W32) (len : Nat) : Prop := passes i len ∧ (s.active f = [x] →
      ((va disp).toNat % 4 = 0 →
        match gTr s (s.asidOf x) (s.privOf x) (c / 8) (va disp) (s.pcOf x) .read with
        | (s1, .ok (l, pa)) => homeReady s1 (pa / 64) .read = true →
          match homeGet (homeUse s1 (pa / 64)) pa 4 l.key l.cmps with
          | some (u, v) => i.does s (u.arriveX x f.d.toNat (BitVec.ofNat 32 v)) f len false
          | none => exec i s = .next (s1.raiseThr x (precise 0x13 0 (va disp) (s.pcOf x)))
        | (s1, .error (some cz)) => exec i s = .next (s1.raiseThr x cz)
        | (s1, .error none) => exec i s = .next s1) ∧
      ((va disp).toNat % 4 ≠ 0 → exec i s = .next (s.raiseThr x (precise 0x04 4 (va disp) (s.pcOf x)))))
    let signal (i : Instr) (disp : W32) (len : Nat) : Prop := passes i len ∧
      ((va disp).toNat % 4 = 0 →
        posts i len (.sig s.nextId (va disp) (srcC f s x) (s.asidOf x) (s.privOf x) (s.pcOf x))) ∧
      ((va disp).toNat % 4 ≠ 0 → s.active f = [x] →
        exec i s = .next (s.raiseThr x (precise 0x04 4 (va disp) (s.pcOf x))))
    load (.gld f) 0 0 ∧ load (.gld96 f imm) imm 1 ∧ moves (.gmov f ext) (base .plain (srcC f s x).toNat) ∧
    moves (.ggather f ext) (by' .gather) ∧ moves (.gscat f ext) (by' .scatter) ∧ signal (.gsig f) 0 0 ∧
    signal (.gsig96 f imm) imm 1

/-- R241, R245, R248, R249, R253, R254, R258: performing, line by line. The data path serves the source that has waited 4,096
cycles with a line ready, else one of highest priority; the next line of its transfer moves; a command with nothing left to
move leaves its queue and is counted in its batch with its status, a posted move counts in its context's status byte. A line
may be moved in parts, so that each byte decides on its own between two commands (log entry 19). A signal
writes that byte over its word's top eight bits and clears it. An index at or beyond its bound skips its element with status
7. A batch with nothing left brings its token. -/
def Obligations.CopyPerforms : Prop :=
  ∀ (s : State) (ce c id : Nat),
    let aged (i : Nat) : Prop := sourceReady s ce i = true ∧ sourceAged s ce i = true
    (∀ cmd, (copyq s ce).find? (fun y => y.id = id) = some cmd → nextSource s ce = some 8 →
      match moveNext s ce cmd.id cmd.x with
      | (_, .wait _) => True
      | (s1, .more m) => exec (.copyCommandPerform ce id) s =
          .next (served { s1 with moves := Map.put s1.moves cmd.id m } ce 8)
      | (s1, .done st) => exec (.copyCommandPerform ce id) s =
          .next (served (cmdDone { s1 with moves := Map.del s1.moves cmd.id,
                                           copyqs := Map.put s1.copyqs ce ((copyq s1 ce).filter fun y => y.id ≠ cmd.id) }
            cmd st) ce 8)) ∧
    (∀ j x, (ctxOf s c).ops.find? (fun o => o.id = id) = some (.xfer j x) → nextSource s (c / 8) = some (c % 8) →
      match moveNext s (c / 8) j x with
      | (_, .wait _) => True
      | (s1, .more m) => exec (.copyTransferPerform c id) s =
          .next (served (takeCst { s1 with moves := Map.put s1.moves j m } c m.st) (c / 8) (c % 8))
      | (s1, .done st) => exec (.copyTransferPerform c id) s = .next (served (opDone (takeCst s1 c st) c j) (c / 8) (c % 8))) ∧
    (∀ va val asid priv pc rest s1 l pa, (ctxOf s c).ops = .sig id va val asid priv pc :: rest →
      nextSource s (c / 8) = some (c % 8) → gTr s asid priv (c / 8) va pc .write = (s1, .ok (l, pa)) →
      homeOpen s1 agentCopy (pa / 64) .write = true →
      ∀ u, homePut (homeUse s1 (pa / 64)) agentCopy pa 4 ((ctxOf s1 c).cst * 2 ^ 24 + val.toNat % 2 ^ 24) l.key l.cmps = some u →
      exec (.copyTransferPerform c id) s = .next (served (opDone (setCtx u c { ctxOf u c with cst := 0 }) c id) (c / 8) (c % 8))) ∧
    (∀ (x : Xfer) (m : Moving) (src dst : W64) (n v : Nat) (s1 s2 : State), x.kind = .plain → m.old = [] →
      let line := chunk (src + BitVec.ofNat 64 m.ofs) (dst + BitVec.ofNat 64 m.ofs) (n - m.ofs)
      let k := if m.part = 0 then line else min line m.part
      copyRead s ce x (src + BitVec.ofNat 64 m.ofs) k = .ok (s1, v) →
      copyWrite s1 ce x (dst + BitVec.ofNat 64 m.ofs) k v = .ok s2 →
        moveChunk ce id x m src dst n s = (s2, .ok { m with ofs := m.ofs + k, part := 0 })) ∧
    (∀ n rest, s.agenda = .copyPart id n :: rest → s.host.phase ≠ 3 → isMove s id = true →
      step s = .next { s with agenda := rest, moves := Map.put s.moves id { movingOf s id with part := n } }) ∧
    (∀ (x : Xfer) (m : Moving) (s1 : State) (ix : Nat), m.ix = none → x.bound ≠ 0 → x.bound ≤ ix →
      copyRead s ce x (x.index + BitVec.ofNat 64 ((if x.idx64 then 8 else 4) * m.row)) (if x.idx64 then 8 else 4) = .ok (s1, ix) →
        moveElem ce id x m s = (s1, .more { m with row := m.row + 1, st := if m.st = 0 then 7 else m.st })) ∧
    (∀ k, s.csmClean → ∃ s1, afterAcquire s (wgOf k) = some s1) ∧
    (∀ k bt b s1, (s.fib k).batches.find? (fun y => decide (y.id = bt) && y.sealed && (y.limit || decide (y.left = 0))) = some b →
      afterAcquire s (wgOf k) = some s1 → ∃ t : State, exec (.batchCompletion k bt) s = .next t ∧
        ∃ u : State, t = u.settleTrap k ∧ (∀ y ∈ (u.fib k).batches, y.id ≠ bt) ∧
          ∀ p, findPend s1 (.fib k) b.pend = some p → p.regs = [b.token] → b.token ≠ 0 →
            let st := if b.limit then 8 else b.status
            let v := BitVec.ofNat 32 (st * 2 ^ 24 + b.number)
            u.rx (.fib k) b.token = v ∧ if st = 0 then (u.fib k).cfault = Map.del (s1.fib k).cfault b.token
              else Map.get (u.fib k).cfault b.token = some v) ∧
    (∀ i, i < 9 → aged i → (∀ j, j < i → ¬aged j) → nextSource s ce = some i ∧
      (i = 8 → ∀ cmd, (copyq s ce).find? (fun y => canMove s ce y.id y.x) = some cmd →
        exec (.copySourceAging ce) s = exec (.copyCommandPerform ce cmd.id) s) ∧
      (i < 8 → ∀ o, (ctxOf s (ce * 8 + i)).ops.find? (opReady s (ce * 8 + i)) = some o →
        exec (.copySourceAging ce) s = exec (.copyTransferPerform (ce * 8 + i) o.id) s)) ∧
    ∀ i, nextSource s ce = some i → sourceReady s ce i = true ∧
      ((∀ j, j < 9 → ¬aged j) → ∀ j, j < 9 → sourceReady s ce j = true → sourcePrio s ce j ≤ sourcePrio s ce i)

/-- R266, R270, R274 to R277: a sequencer whose queue has room issues its operation with the operands it reads, and moves
on; a first row that is no multiple of 128, or a row outside the window, stops the program with AccumulatorWindow and the
first such row, an MMA of a slot that is empty at issue with TileFetchFault 11 and the slot, of two the A slot (log entry 135,
the model's choice). MSYNC gives the count of MMAs at
once when the queue is empty, and is queued behind it otherwise, or waits where it names x0. While the queue is full the
program waits. -/
def Obligations.MatrixIssue : Prop :=
  ∀ (f : Fields) (ext : Ext) (imm : W32) (s : State) (q : Nat), s.active f = [.mat q] →
    let x : Thr := .mat q
    let b := ext.body.toNat
    let r := (srcA f s x).toNat
    let w := windowOf s (s.mseq q).wg
    let pc := s.pcOf x
    let queues (i : Instr) (len : Nat) (o : MatOp) : Prop := exec i s = .next ((queueOp s q o).adv x len)
    let stops (i : Instr) (c : Cause) : Prop := exec i s = .next (s.stopProgram x c pc)
    let fetch (n : Nat) : MatOp :=
      .fetch pc (n + b / 64 % 4) (pairA f s x) (srcB f s x).toNat (b / 256 % 64) (b.testBit 5) (b % 32) false
    let inside (n : Nat) : Prop := n = 0 ∨ w.1 ≤ r ∧ r + n ≤ w.2
    let firstOut (n row : Nat) : Prop := r ≤ row ∧ row < r + n ∧ (row < w.1 ∨ w.2 ≤ row) ∧
      ∀ j, r ≤ j → j < row → w.1 ≤ j ∧ j < w.2
    let emptyA : Prop := emptyAtIssue s q f.b.toNat = true
    let emptyB : Prop := emptyAtIssue s q (4 + f.c.toNat) = true
    (matFull s q = true → ∀ i ∈ [Instr.tfa f ext, .tfb f ext, .mma f, .mmaz f, .azero f, .azero96 f imm, .ascale f,
      .ascale96 f imm, .trel f], exec i s = .next s) ∧
    (matFull s q = false → queues (.tfa f ext) 2 (fetch 0) ∧ queues (.tfb f ext) 2 (fetch 4) ∧
      queues (.trel f) 0 (.trel f.a.toNat) ∧
      (r % 128 = 0 → inside 128 →
        (¬emptyA → ¬emptyB → queues (.mma f) 0 (.mma pc false r f.b.toNat (4 + f.c.toNat)) ∧
          queues (.mmaz f) 0 (.mma pc true r f.b.toNat (4 + f.c.toNat))) ∧
        (emptyA → stops (.mma f) (tileFault 11 f.b.toNat 0 pc) ∧ stops (.mmaz f) (tileFault 11 f.b.toNat 0 pc)) ∧
        (¬emptyA → emptyB → stops (.mma f) (tileFault 11 (4 + f.c.toNat) 0 pc) ∧
          stops (.mmaz f) (tileFault 11 (4 + f.c.toNat) 0 pc)) ∧
        queues (.ascale f) 0 (.ascale r (srcB f s x)) ∧ queues (.ascale96 f imm) 1 (.ascale r imm)) ∧
      (∀ row, (r % 128 ≠ 0 ∧ row = r) ∨ (r % 128 = 0 ∧ firstOut 128 row) →
        ∀ i ∈ [Instr.mma f, .mmaz f, .ascale f, .ascale96 f imm], stops i (accWindow row pc)) ∧
      (inside (srcB f s x).toNat → queues (.azero f) 0 (.azero r (srcB f s x).toNat)) ∧
      (inside imm.toNat → queues (.azero96 f imm) 1 (.azero r imm.toNat)) ∧
      (∀ row, firstOut (srcB f s x).toNat row → stops (.azero f) (accWindow row pc)) ∧
      (∀ row, firstOut imm.toNat row → stops (.azero96 f imm) (accWindow row pc))) ∧
    ((s.mat q).queue = [] → exec (.msync f) s =
      .next ((s.arriveX x f.d.toNat (BitVec.ofNat 32 (s.mat q).count)).adv x 0)) ∧
    ((s.mat q).queue ≠ [] → f.d = 0 → exec (.msync f) s = .next s) ∧
    ((s.mat q).queue ≠ [] → f.d ≠ 0 → ∃ t, exec (.msync f) s = .next t ∧
      (t.mat q).queue = (s.mat q).queue ++ [.sync s.nextId] ∧ (t.mseq q).pc = seqPc pc 0 ∧
      ∃ p ∈ (t.mseq q).pend, p.id = s.nextId ∧ p.regs = [f.d.toNat] ∧ p.ready = false)

/-- R270 to R277, R289: the head of a running engine's queue is performed: an MMA of two full tiles of one shape adds its
blocks to 128 rows, counts, and empties the slots not kept; AZERO clears and ASCALE multiplies its rows; TREL empties
its slot; a fetch, which first empties its slot, fills it once its lines are all read, and stops the program with subcode 2
where its base or pitch is no multiple of 8; an MMA of a slot that is not full stops it with subcode 11; a fetch that has
waited the watchdog's limit for pins stops its program with subcode 10. That a fetch reads its lines, and an MMA computes, in one
event is the model's choice (log entry 19), and that of two slots that are not full the A slot is named (log entry 135). -/
def Obligations.MatrixPerforms : Prop :=
  ∀ (s : State) (q : Nat) (rest : List MatOp),
    let g := seqGang s q
    let row (u : State) (i : Nat) (e : Nat → W32) : State := accRow u g i ((List.range 128).map e)
    (∀ pc zero r a b, (s.mat q).queue = .mma pc zero r a b :: rest → matRuns s q = true →
      let x := tileSlot s q a
      let y := tileSlot s q b
      x.full = true → y.full = true →
      (x.k = y.k →
        let u := mmaRows s g r zero x y
        let v := if x.keep then u else u.emptySlot q a
        let v := if y.keep then v else v.emptySlot q b
        exec (.mmaPerform q) s = .next (popOp (v.updMat q fun m => { m with count := m.count + 1 }) q)) ∧
      (x.k ≠ y.k → ∃ sl, (sl = a ∨ sl = b) ∧ exec (.mmaPerform q) s = .next (stopTile s q 12 sl 0 pc))) ∧
    (∀ pc zero r a b, (s.mat q).queue = .mma pc zero r a b :: rest → matRuns s q = true →
      ((tileSlot s q a).full = false → exec (.mmaPerform q) s = .next (stopTile s q 11 a 0 pc)) ∧
      ((tileSlot s q a).full = true → (tileSlot s q b).full = false →
        exec (.mmaPerform q) s = .next (stopTile s q 11 b 0 pc))) ∧
    (∀ r n, (s.mat q).queue = .azero r n :: rest → matRuns s q = true → exec (.azeroPerform q) s =
      .next (popOp ((List.range n).foldl (fun u i => accRow u g (r + i) (List.replicate 128 0)) s) q)) ∧
    (∀ r x, (s.mat q).queue = .ascale r x :: rest → matRuns s q = true → exec (.ascalePerform q) s =
      .next (popOp ((List.range 128).foldl (fun u i => row u (r + i) fun j =>
        BitVec.ofNat 32 (encF32 ((decF32 (accGet s g (r + i) j).toNat).mul (decF32 x.toNat)) .rne false)) s) q)) ∧
    (∀ t, (s.mat q).queue = .trel t :: rest → matRuns s q = true →
      exec (.trelPerform q) s = .next (popOp (s.emptySlot q t) q)) ∧
    (∀ pc t base pitch kb keep dfmt begun, (s.mat q).queue = .fetch pc t base pitch kb keep dfmt begun :: rest →
      matRuns s q = true →
      let s0 := if begun then s else (s.emptySlot q t).updMat q fun m =>
        { m with queue := .fetch pc t base pitch kb keep dfmt true :: rest }
      (base.toNat % 8 ≠ 0 ∨ pitch % 8 ≠ 0 → exec (.tileFetchPerform q) s = .next (stopTile s0 q 2 t base pc)) ∧
      (base.toNat % 8 = 0 → pitch % 8 = 0 →
        let va0 := BitVec.ofNat 64 (base.toNat / 64 * 64)
        let fetches (u : State) : Prop := exec (.tileFetchPerform q) s = .next u
        match readTLine s0 q va0 with
        | (s1, .error none) => fetches s1
        | (s1, .error (some sub)) => fetches (stopTile s1 q sub t va0 pc)
        | (s1, .ok x0) =>
          let fmt := x0.tag.getD dfmt
          let rb := 32 * kb * fmtBits fmt / 8
          (pitch < rb → fetches (stopTile s1 q 2 t base pc)) ∧
          (rb ≤ pitch → 256 < (tileLines base pitch rb).length → fetches (stopTile s1 q 3 t base pc)) ∧
          (rb ≤ pitch → (tileLines base pitch rb).length ≤ 256 →
            match fetchLines q t base pitch fmt x0.tag (tileLines base pitch rb) s1 with
            | (s2, .done) => fetches (popOp (setTile s2 q t { tileSlot s2 q t with
                full := true, fmt := fmt, k := 32 * kb, keep := keep, base := base, pitch := pitch }) q)
            | (s2, .fault sub addr) => fetches (stopTile s2 q sub t addr pc)
            | (s2, _) => fetches s2))) ∧
    ∀ pc t base pitch kb keep dfmt, (s.mat q).queue = .fetch pc t base pitch kb keep dfmt true :: rest →
      (s.share (s.wg (s.mseq q).wg).share).watchdog ≠ 0 →
      min (s.share (s.wg (s.mseq q).wg).share).watchdog (2 ^ 48) ≤ (s.mat q).pinWait →
        exec (.pinLimitExpiry q) s = .next (stopTile s q 10 t (nextPin (tileSlot s q t) base pitch kb dfmt) pc)

/-- R263, R281 to R283: the vector core's side of the accumulator. The gang's leader sets a window that lies in the gang's
rows on multiples of 128, any other fibre takes NotLeader; in an active lane whose address is a multiple of 16 inside its workgroup's window, ACC.RD's
four elements are on their way to quad D, and ACC.WR by one lane writes quad C there and no other element. -/
def Obligations.AccumulatorAccess : Prop :=
  ∀ (f : Fields) (imm : W32) (s : State) (k : Nat),
    let g := s.gangOf k
    let at' (disp : W32) (x : Thr) : Nat := (srcA f s x + disp).toNat
    let ok (disp : W32) (x : Thr) : Prop := at' disp x % 16 = 0 ∧ (windowOf s (wgOf x.key)).1 ≤ at' disp x / 512 ∧
      at' disp x / 512 < (windowOf s (wgOf x.key)).2
    let window (i : Instr) (len : Nat) (v : W32) : Prop := s.active f = [.fib k] → k = leaderOf s g → (s.gang g).arows ≠ 0 →
      (srcA f s (.fib k)).toNat < (s.gang g).wgs.length → v.toNat / 4096 % 16 = 0 → v.toNat / 2 ^ 28 = 0 →
      v.toNat % 4096 ≤ v.toNat / 2 ^ 16 % 4096 → v.toNat / 2 ^ 16 % 4096 ≤ (s.gang g).arows →
      v.toNat % 128 = 0 → v.toNat / 2 ^ 16 % 128 = 0 →
        i.does s (s.updGang g fun y => { y with
          wins := y.wins.set (srcA f s (.fib k)).toNat (v.toNat % 4096, v.toNat / 2 ^ 16 % 4096) }) f len false
    let reads (i : Instr) (disp : W32) (len : Nat) : Prop := (∀ x ∈ s.active f, ok disp x) →
      ∃ t, exec i s = .next t ∧ s.Ran t f len wrNone wrNone fun x =>
        if f.d = 0 then [] else [((List.range 4).map fun j => (f.d.toNat + j,
          accGet s (s.gangOf x.key) (at' disp x / 512) (at' disp x % 512 / 4 + j)), [], true)]
    let writes (i : Instr) (disp : W32) (len : Nat) : Prop := s.active f = [.fib k] → s.memWf → ok disp (.fib k) →
      ∃ u, i.does s u f len false ∧ (∀ r c, c < 128 → accGet u g r c =
        if r = at' disp (.fib k) / 512 ∧ at' disp (.fib k) % 512 / 4 ≤ c ∧ c < at' disp (.fib k) % 512 / 4 + 4
          then (s.rxq (.fib k) f.c.toNat).getD (c - at' disp (.fib k) % 512 / 4) 0 else accGet s g r c) ∧
        u = s.setGang g { s.gang g with acc := (u.gang g).acc, written := (u.gang g).written }
    (s.active f = [.fib k] → k ≠ leaderOf s g → s.trapReady f →
      (Instr.accWin f).enters s f 0x15#32 (fun _ => 0) (fun _ => 0) s.pcOf ∧
      (Instr.accWin96 f imm).enters s f 0x15#32 (fun _ => 0) (fun _ => 0) s.pcOf) ∧
    window (.accWin f) 0 (srcB f s (.fib k)) ∧ window (.accWin96 f imm) 1 imm ∧ reads (.accRd f) 0 0 ∧
    reads (.accRd96 f imm) imm 1 ∧ writes (.accWr f) 0 0 ∧ writes (.accWr96 f imm) imm 1

/-! ### Chapter 11: channels -/

/-- R297, R199: CST, CLD, CATOM and CRED. On a channel that refuses operations (closed, closing, or broken and not
resetting) every active fibre traps with ChannelClosed; otherwise, once every lane is translated and a release's order
is complete, the instruction ends with each lane's own fate and its lanes' packets are accepted on the channel. With one active
lane at an aligned address that translates, and no release to make first, its packet is accepted and its registers are
pending. With every guard false the instruction only passes. -/
def Claims.ChannelMemory : Prop :=
  ∀ (f : Fields) (ext : Ext) (s s1 s2 s3 : State) (t : Thr) (act : List Thr) (trs : List (Thr × LaneTr))
    (fates : List (Thr × Fate)) (reqs : List LaneReq),
    s.active f = t :: act → closerReady s (t :: act) = true →
    let c := chanKey (wgOf t.key) ext.chan.toNat
    let va (x : Thr) : W64 := pairA f s x + (ext.body.extractLsb' 0 32).signExtend 64
    let runs (i : Instr) (g : ChArg) (sx w64 : Bool) (data : Thr → Nat × W64 × W64) : Prop :=
      ((s.chan c).refuses = true → s.trapReady f →
        i.enters s f 0x0A#32 (fun _ => BitVec.ofNat 32 ext.chan.toNat) (fun _ => va t) s.pcOf) ∧
      ((s.chan c).refuses = false → trLanes (if g.wr then .write else .read) g.n va (t :: act) s = (s1, some trs) →
        releaseFirst s1 (flagREL f && decide (g.pkop ≠ 1)) (scopeFld f) (t :: act) = (s2, true) →
        runLanes (chLane { g with ch := ext.chan.toNat } data) (fun x => x.1) (trs.map fun x => (x.1, va x.1, x.2)) s2 =
          some (s3, fates, reqs) →
        exec i s = .next (finish (chanIssue s3 c g.pkop f.sub.toNat w64 sx (decide (g.pkop = 0) && !flagREL f) (scopeFld f) reqs) 2 (s.idle f) true fates)) ∧
      (∀ k pa l u1 u2, t = .fib k → act = [] → (s.chan c).refuses = false → (flagREL f = false ∨ g.pkop = 1) →
        (va t).toNat % g.n = 0 → s.trFib k (va t) (if g.wr then .write else .read) = (u1, .ok (l, pa)) →
        (isDev pa = true → g.dev = true ∧ (g.n = 4 ∨ g.n = 8)) →
        (if g.pkop = 0 then doorDrain u1 (u1.fibCore k) pa else some u1) = some u2 →
          let p := pendAcq u2 t g.regs g.acq
          i.does s (chanIssue p.1 c g.pkop f.sub.toNat w64 sx (decide (g.pkop = 0) && !flagREL f) (scopeFld f)
            [⟨k, pa, g.n, l.key, l.cmps, va t, u1.pcOf t, (data t).1, (data t).2.1, (data t).2.2, p.2⟩]) f 2 true) ∧
      ∀ u : State, u.active f = [] → i.does u u f 2 true
    let n := ldSize f.sub.toNat
    let an := if flagW64 f then 8 else 4
    runs (.cst f ext) { ch := 0, pkop := 0, n := stSize f.sub.toNat, wr := true, dev := true, regs := [], acq := false } false
      false (fun x => (storeData s x f.c.toNat (stSize f.sub.toNat), 0, 0)) ∧
    runs (.cld f ext) { ch := 0, pkop := 1, n := n, wr := false, dev := true, regs := destRegs f.d.toNat n, acq := flagACQ f }
      (signedLd f.sub.toNat) false (fun _ => (0, 0, 0)) ∧
    runs (.catom f ext)
      { ch := 0, pkop := 2, n := an, wr := true, dev := false, regs := destRegs f.d.toNat an, acq := flagACQ f } false
      (flagW64 f) (fun x => (0, atomOperand s x f.c.toNat (flagW64 f), 0)) ∧
    runs (.cred f ext) { ch := 0, pkop := 3, n := an, wr := true, dev := false, regs := [], acq := false } false (flagW64 f)
      (fun x => (0, atomOperand s x f.c.toNat (flagW64 f), 0))

/-- R293, R294, R298: an accepted packet at the head of its channel's queue whose destination has an entry is sent with
the channel's next number; its link is the entry's; OUTSTANDING counts it and the engine keeps it. A destination without
an entry takes a free one. RESET and CLOSE of a channel with nothing outstanding act at once. That a packet takes its number
as it leaves the queue is the model's reading (log entries 59 and 151). -/
def Claims.ChannelOrder : Prop :=
  ∀ (s : State) (c : Nat) (rest : List ChItem),
    let x := s.chan c
    let n := (x.lastseq + 1) % 2 ^ 24
    (∀ acc p ret e, x.queue = .pkt acc p ret :: rest → x.outst < 65535 → x.dest p.dst = some e → e.rel = false →
      ∃ t, pumpOne s c = (t, true) ∧ (t.chan c).queue = rest ∧ (t.chan c).lastseq = n ∧ (t.chan c).outst = x.outst + 1 ∧
        (t.chan c).dest p.dst = some { e with prev := n, fresh := false, unack := e.unack + 1, used := s.nextId } ∧
        (t.eng (chanDie s c)).sent = (s.eng (chanDie s c)).sent ++
          [⟨{ p with key := streamKey s c, seq := n, prev := if e.fresh then 0 else e.prev, first := e.fresh }, c,
            (s.share (s.wg (chanWg c)).share).asid, acc, ret, none, (choosePath s (diePlace s (chanDie s c)) p.dst).getD []⟩]) ∧
    (∀ d, x.dest d = none → x.dests.length < 8 → ∃ t, ensureDest s c d = (t, true) ∧
      (t.chan c).dest d = some ⟨d, 0, true, 0, s.nextId, false⟩) ∧
    (∀ acc, x.queue = .reset acc :: rest → chanIdle s c = true → ∃ t, pumpOne s c = (t, true) ∧ (t.chan c).queue = rest ∧
      (t.chan c).epoch = (x.epoch + 1) % 2 ^ 16 ∧ (t.chan c).lastseq = 0 ∧ (t.chan c).ecode = 0 ∧ (t.chan c).broken = false ∧
      (t.chan c).dests = []) ∧
    (∀ acc, x.queue = .close acc :: rest → chanIdle s c = true → ∃ t, pumpOne s c = (t, true) ∧ (t.chan c).queue = rest ∧
      (t.chan c).opened = false ∧ (t.chan c).dests = [])

/-- R292, R302 to R304: the management instructions. CHOPEN of a closed channel starts an incarnation, and of a broken one
a reset; of an open one, or of channel 0, it does nothing. CHCLOSE, CHRESET and CHJOIN are accepted behind what the
channel has. CHDRAIN completes once nothing is outstanding and, as the model reads R304 (log
entry 70), no accepted operation or copy line is left, and traps with ChannelError where ECODE is set. CHSTAT gives
the channel register. With every guard false each only passes. -/
def Claims.ChannelManagement : Prop :=
  (∀ (f : Fields) (ext : Ext) (s : State) (t : Thr) (act : List Thr), s.active f = t :: act →
    closerReady s (t :: act) = true →
    let ch := ext.chan.toNat
    let c := chanKey (wgOf t.key) ch
    let x := s.chan c
    let a := f.a.toNat % 16
    let ca := chanKey (wgOf t.key) a
    let y := s.chan ca
    (ch = 0 → (Instr.chopen f ext).does s s f 2 true) ∧
    (ch ≠ 0 →
      (x.opened = false → (Instr.chopen f ext).does s (s.setChan c { x with
        epoch := (x.epoch + 1) % 2 ^ 16, lastseq := 0, outst := 0, ecode := 0, broken := false, dests := [], opened := true })
        f 2 true) ∧
      (x.opened = true → x.broken = true →
        (Instr.chopen f ext).does s (acceptItems s.fresh c [.reset s.nextId]) f 2 true) ∧
      (x.opened = true → x.broken = false → (Instr.chopen f ext).does s s f 2 true)) ∧
    (a ≠ 0 → y.opened = true → y.closing = false →
      (Instr.chclose f).does s (acceptItems s.fresh ca [.close s.nextId]) f 0 true) ∧
    ((a = 0 ∨ y.opened = false ∨ y.closing = true) → (Instr.chclose f).does s s f 0 true) ∧
    (Instr.chreset f).does s (acceptItems s.fresh ca [.reset s.nextId]) f 0 true ∧
    (let cd := chanKey (wgOf t.key) (f.d.toNat % 16)
     ((s.chan cd).refuses = false → y.refuses = false →
       (Instr.chjoin f).does s (acceptItems s.fresh cd [.join s.nextId ca]) f 0 true) ∧
     (s.trapReady f → ((s.chan cd).refuses = true →
         (Instr.chjoin f).enters s f 0x0A#32 (fun _ => BitVec.ofNat 32 (f.d.toNat % 16)) (fun _ => 0) s.pcOf) ∧
       ((s.chan cd).refuses = false → y.refuses = true →
         (Instr.chjoin f).enters s f 0x0A#32 (fun _ => BitVec.ofNat 32 a) (fun _ => 0) s.pcOf))) ∧
    (chanIdle s ca = true → y.queue = [] →
      (y.ecode = 0 → (Instr.chdrain f).does s s f 0 true) ∧
      (y.ecode ≠ 0 → s.trapReady f →
        (Instr.chdrain f).enters s f 0x09#32 (fun _ => BitVec.ofNat 32 (y.ecode + 256 * a)) (fun _ => 0) s.pcOf)) ∧
    (chanIdle s ca = false ∨ y.queue ≠ [] → exec (.chdrain f) s = .next s) ∧
    (Instr.chstat f).does s ((t :: act).foldl (fun s' x =>
      s'.arriveXP x f.d.toNat (s.chan (chanKey (wgOf x.key) a)).reg) s) f 0 true) ∧
  (∀ (f : Fields) (ext : Ext) (s : State), s.active f = [] → (Instr.chopen f ext).does s s f 2 true ∧
    ∀ i ∈ [Instr.chclose f, .chreset f, .chjoin f, .chdrain f, .chstat f], i.does s s f 0 true) ∧
  ∀ x : Chan, x.reg.getLsbD 0 = x.opened ∧ x.reg.getLsbD 1 = x.broken ∧ (x.reg.extractLsb' 2 6).toNat = x.ecode % 64 ∧
    (x.reg.extractLsb' 8 24).toNat = x.lastseq % 2 ^ 24 ∧ (x.reg.extractLsb' 32 16).toNat = x.outst % 2 ^ 16 ∧
    (x.reg.extractLsb' 48 16).toNat = x.epoch % 2 ^ 16

/-- R292 to R294, R298, R302 to R304: what a channel sends, and its management. -/
def Obligations.ChannelState : Prop := Claims.ChannelOrder ∧ Claims.ChannelManagement

/-- R300, R301: CCPY and CMCAST. After a draining release each lane with a length of 0 does nothing; otherwise its copy is
accepted on the channel, for the destination's home, the source's where the source is remote, or every target of a CMCAST,
and its lines are then reserved in the channel's order, one number each for all its targets. Where both ends are remote or
the length is above 2^24 the channel breaks with CopyShape. A refusing channel traps. With every guard false each only
passes. -/
def Claims.ChannelCopies : Prop :=
  ∀ (f : Fields) (ext : Ext) (s s1 s2 : State) (t : Thr) (act : List Thr) (fates : List (Thr × Fate)) (reqs : List LaneReq),
    s.active f = t :: act → closerReady s (t :: act) = true →
    let c := chanKey (wgOf t.key) ext.chan.toNat
    let runs (i : Instr) (eng : Nat) (targets : Option (List Nat)) : Prop :=
      ((s.chan c).refuses = true → s.trapReady f →
        i.enters s f 0x0A#32 (fun _ => BitVec.ofNat 32 ext.chan.toNat) (fun _ => pairA f s t) s.pcOf) ∧
      ((s.chan c).refuses = false → drainRelease s (s.fibCore t.key) = some s1 →
        (runLanes (copyLane f c eng targets s) id (t :: act) s1 = some (s2, fates, reqs) →
          exec i s = .next (finish s2 2 (s.idle f) true fates)) ∧
        ((∀ x ∈ t :: act, srcC f s x = 0) → i.does s s1 f 2 true) ∧
        (∀ u v : State, ∀ (ld ls : Leaf) (dpa spa : Nat), act = [] → srcC f s t ≠ 0 →
          let die := s1.fibDie t.key
          let tr (w : State) (va : W64) (acc : Acc) := translate w (.eng (tlbChan die)) die (w.asidOf t) (w.privOf t) va acc
          tr s1 (pairA f s t) .write = (u, .ok (ld, dpa)) → tr u (pairB f s t) .read = (v, .ok (ls, spa)) →
          isDev dpa = false → isDev spa = false → (targets.isSome = true → (memDie dpa).isSome = true) →
          let n := (srcC f s t).toNat
          let here := diePlace v die
          let pull := targets.isNone && decide (homePlace v spa ≠ here)
          let shapeless : Prop := 2 ^ 24 < n ∨ (pull = true ∧ homePlace v dpa ≠ here)
          (shapeless → (v.chan c).resetting = false → i.does s (breakChan v c 8) f 2 true) ∧
          (¬shapeless → i.does s (acceptItems v.fresh c [.copy v.nextId
            { id := v.nextId, chan := c, fib := t.key, acc := v.nextId, eng := eng, src := pairB f s t, dst := pairA f s t,
              len := n, done := 0, pull := pull, cast := targets.isSome, srcHome := homePlace v spa,
              dstHome := homePlace v dpa, asid := v.asidOf t, priv := v.privOf t, resv := [], stop := 0,
              whole := targets.isNone && decide ((pairA f s t - pairB f s t).toNat < n ∨ (pairB f s t - pairA f s t).toNat < n),
              formed := [] }
            (targets.getD [if pull then homePlace v spa else homePlace v dpa])
            (lineCount (if pull then pairB f s t else pairA f s t) n)]) f 2 true))) ∧
      ∀ u : State, u.active f = [] → i.does u u f 2 true
    runs (.ccpy f ext) (roleEngine s t ext.role.toNat) none ∧
    runs (.cmcast f ext) 0 (some ((castRoles ext.body.toNat).map (roleDie s t))) ∧
    ∀ acc j ds lines rest, (s.chan c).queue = .copy acc j ds lines :: rest → ensureDests c ds s = (s1, true) →
      ∃ u, pumpOne s c = (u, true) ∧ (u.chan c).queue = rest ∧
        ∃ resv, (u.eng (chanDie s1 c)).jobs = (s1.eng (chanDie s1 c)).jobs ++ [{ j with resv := resv }] ∧
          resv.map (·.1) = (List.range lines).map fun i => ((s1.chan c).lastseq + 1 + i) % 2 ^ 24

/-- R297, R300, R301: memory instructions and copies on a channel. -/
def Obligations.ChannelOperations : Prop := Claims.ChannelMemory ∧ Claims.ChannelCopies

/-- R306, R307, R309: a packet arrives. In order, or the first of its stream, it is performed at its home, its number becomes
the stream's, it is acknowledged, and the held packets that follow it are performed; where its home makes it wait it stays,
and asks the home for the line. A duplicate is acknowledged again; one that follows packets of a stream which a reset
of this die has lost completes with DestinationReset (log entry 165, the model's reading); one out of order is held while the Sash has room, and refused with a NACK otherwise, to be sent again 256 cycles later. -/
def Claims.ChannelArrivals : Prop :=
  ∀ (n dst src : Nat) (p : Packet) (path : Option (List Nat)) (s : State),
    let die := dst % 16
    let e := s.eng die
    (arrived s n = some ⟨src, dst, .req p, path⟩ →
      (let performed (u : State) : Prop := exec (.channelRequestArrival n) s = .next (match deliver u die p with
          | some (s2, d) => drainSash die p.key ((s2.eng die).sash.length + 1) (delivered s2 die p d)
          | none => pkAsk s p)
       (e.stream p.key = none → p.first = true → performed ((takeMsg s n).updEng die fun e => dropStale e p.key)) ∧
       (∀ l, e.stream p.key = some l → (if p.first then seqOlder p.seq l = false ∧ p.seq ≠ l else p.prev = l) →
          performed (takeMsg s n))) ∧
      (∀ l, e.stream p.key = some l → (p.first = false → p.prev ≠ l) → (seqOlder p.seq l = true ∨ p.seq = l) →
        exec (.channelRequestArrival n) s = .next (dupAck (takeMsg s n) die p)) ∧
      (e.stream p.key = none → p.first = false → p.key ∈ e.lost →
        exec (.channelRequestArrival n) s = .next (if p.pkop = 7 then chainForward (takeMsg s n) die p 5
          else sendAck (takeMsg s n) die p (plainErr 5))) ∧
      ((match e.stream p.key with
          | none => p.first = false ∧ p.key ∉ e.lost ∧ p ∉ e.sash
          | some l => p.first = false ∧ p.prev ≠ l ∧ seqOlder p.seq l = false ∧ p.seq ≠ l ∧
            ∀ q ∈ e.sash, q.key = p.key → q.seq ≠ p.seq) →
        (e.sash.length < 4096 → exec (.channelRequestArrival n) s =
          .next ((takeMsg s n).updEng die fun e => { e with sash := e.sash ++ [p] })) ∧
        (4096 ≤ e.sash.length →
          exec (.sashNack n) s = .next (netSend (takeMsg s n) dst (keyPlace p.key) (.nack p.key p.seq))))) ∧
    (∀ k seq, arrived s n = some ⟨src, dst, .nack k seq, path⟩ → exec (.sashNack n) s =
      .next ((takeMsg s n).updEng die fun e => { e with sent := e.sent.map fun x =>
        if x.p.key = k ∧ x.p.seq = seq then { x with nackAt := some s.cycle } else x })) ∧
    (∀ handle x, e.sent.find? (fun y => decide (y.p.key.handle = handle ∧ y.p.seq = p.seq) && s.passed 256 y.nackAt) = some x →
      exec (.nackRetransmit die handle p.seq) s =
        .next (netSend (s.updEng die fun e => { e with
          sent := e.sent.map fun y => if y = x then { y with nackAt := none, path := (choosePath s (diePlace s die) x.p.dst).getD [] }
            else y }) (diePlace s die) x.p.dst (.req x.p)))

/-- R294, R308 to R312: acknowledgements, stream releases, RESYNC and lost paths. An acknowledged packet completes: it is
no longer outstanding; its first error breaks its channel; later ones are counted. A lost path's peer is asked for its
streams, of the packets that go to it and of the copies kept for it, and its answer completes what it has and sends the rest
again; a peer without a path for 2^24 cycles completes every packet to it with PathLost. -/
def Claims.ChannelAnswers : Prop :=
  ∀ (n dst src die peer : Nat) (path : Option (List Nat)) (s s1 : State) (x : Sent) (k : StreamKey),
    let e := s.eng (dst % 16)
    let got (m : Msg) : Prop := arrived s n = some ⟨src, dst, m, path⟩
    (∀ seq err form data vals, got (.ack k seq err form data vals) →
      (e.sent.find? (fun y => decide (y.p.key = k ∧ y.p.seq = seq)) = some x →
        complete (takeMsg s n) (dst % 16) x err data vals = some s1 →
          exec (.channelAckArrival n) s = .next s1) ∧
      ((∀ y ∈ e.sent, y.p.key = k → y.p.seq ≠ seq) → exec (.channelAckArrival n) s = .next (takeMsg s n))) ∧
    (∀ err data vals, x.ret = [] → x.p.pkop ≠ 7 → Map.has s.chans x.chan = true →
      let u := (s.updEng die fun g => { g with
        sent := g.sent.filter fun y => !(decide (y.p.key = x.p.key) && decide (y.p.seq = x.p.seq)) }).updChan x.chan fun c =>
          { c with outst := c.outst - 1 }.updDest x.p.dst fun t => { t with unack := t.unack - 1 }
      complete s die x err data vals = some (pumpDie (if err = 0 then u else u.updChan x.chan fun c =>
        if c.ecode = 0 then { c with ecode := err, broken := true } else { c with broken := true, errs := c.errs + 1 }) die)) ∧
    (∀ prev, got (.release k prev) →
      (e.stream k = some prev → exec (.streamRelease n) s =
        .next (netSend ((takeMsg s n).updEng (dst % 16) fun e => { e with streams := e.streams.filter fun y => y.key ≠ k })
          dst (keyPlace k) (.releaseAck k))) ∧
      (e.stream k = none → exec (.streamRelease n) s = .next
        (netSend ((takeMsg s n).updEng (dst % 16) fun e => { e with lost := e.lost.filter (· ≠ k) }) dst (keyPlace k) (.releaseAck k)))) ∧
    (∀ c ch, got (.releaseAck k) → s.chans.find? (fun c => c.2.rels.contains (k, src)) = some (c, ch) →
      exec (.streamReleaseAck n) s = .next (pumpDie ((takeMsg s n).updChan c fun y => { y with
        rels := y.rels.erase (k, src), dests := y.dests.filter fun d =>
          !(decide (d.dst = src ∧ k.handle = y.handle ∧ k.epoch = y.epoch) && d.rel) }) (dst % 16))) ∧
    (peer ∈ (s.eng die).resync → ∃ ks, exec (.pathFailure die peer) s =
        .next (netSend (s.updEng die fun e => { e with resync := e.resync.filter (· ≠ peer) }) (diePlace s die) peer
          (.resync ks)) ∧
      ∀ j, j ∈ ks ↔ (∃ y ∈ (s.eng die).sent, goesTo y.p peer = true ∧ y.p.key = j) ∨
        ∃ y ∈ (s.eng die).kept, y.1.dst = peer ∧ y.1.key = j) ∧
    (∀ ks, got (.resync ks) → exec (.resyncRequest n) s =
      .next (netSend (takeMsg s n) dst src (.resyncAns (ks.map fun j => (j, e.stream j))))) ∧
    (∀ ls, got (.resyncAns ls) →
      let again := resyncAll (dst % 16) src ls (e.sent.filter fun y => goesTo y.p src) (takeMsg s n)
      (again = some s1 → exec (.resyncAnswer n) s = .next (resyncKept (dst % 16) src ls s1)) ∧
      ((∀ y ∈ e.sent, goesTo y.p src = true → y.ret = [] ∨ (y.p.scope < 2 ∧ y.p.void = false)) → again.isSome = true)) ∧
    (∀ c, Map.get (s.eng die).noPath peer = some c → c + 2 ^ 24 ≤ s.cycle →
      let ends := completeAll die 4 ((s.eng die).sent.filter fun y => y.p.dst = peer) s
      (ends = some s1 → exec (.pathLostExpiry die peer) s = .next (s1.updEng die fun e =>
        { e with noPath := Map.del e.noPath peer, resync := e.resync.filter (· ≠ peer) })) ∧
      ((∀ y ∈ (s.eng die).sent, y.p.dst = peer → y.p.scope < 2) → ends.isSome = true))

/-- R300, R301, R385, R419: a copy's next line is sent with its reserved number, void where the copy has stopped; of a copy
whose ends overlap (R245) every line is read before the first is sent; a chain's
forwarder drops its copy when the next target has it, and passes over a target without a path for 2^24 cycles, with
DestinationReset where its die was reset and PathLost otherwise; a remote fetch brings its block, or its error: what the home
refuses with code 5, and so does a request whose path is lost; a home in another package answers with a message. That
overlap is judged by virtual address (log entry 157) and that the answer of a home off the package is an input where no port model
stands between (log entry 141) are the model's choices. -/
def Claims.ChannelCopyLines : Prop :=
  ∀ (die n src dst : Nat) (path : Option (List Nat)) (s : State),
    (∀ (j : CopyJob) seq links rest, (s.eng die).jobs.find? (fun y => y.id = j.id) = some j →
      j.resv = (seq, links) :: rest → (s.chan j.chan).outst < 65535 →
      let keep (s : State) (stop : Nat) : State := s.updEng die fun e => { e with
        jobs := if rest = [] then e.jobs.filter fun y => y.id ≠ j.id
          else e.jobs.map fun y => if y.id = j.id then { y with
            resv := rest, done := j.done + 1, stop := stop, formed := j.formed.drop 1 } else y }
      let void (code : Nat) : Packet := jobPacket s j seq links (if j.cast then 7 else 5) 0 0 0 0 0 code
      let unread : Prop := j.whole = true ∧ j.stop = 0 ∧ j.formed.length < j.resv.length
      (∀ r, j.whole = true → j.stop = 0 → j.resv[j.formed.length]? = some r → exec (.ccpyLineHandover die j.id) s =
        .next (match jobLine s { j with done := j.done + j.formed.length } die r.1 r.2 with
          | (u, .ok l) => setJob u die { j with formed := j.formed ++ [l] }
          | (u, .error 0) => u
          | (_, .error code) => setJob s die { j with stop := code })) ∧
      (∀ p ret more, ¬unread → j.formed = (p, ret) :: more →
        exec (.ccpyLineHandover die j.id) s = .next (keep (launchPkt s j.chan j.acc p ret) j.stop)) ∧
      (j.stop ≠ 0 → j.formed = [] →
        exec (.ccpyLineHandover die j.id) s = .next (keep (launchPkt s j.chan j.acc (void j.stop) []) j.stop)) ∧
      (j.stop = 0 → j.whole = false → j.formed = [] → exec (.ccpyLineHandover die j.id) s = .next (match jobLine s j die seq links with
        | (u, .ok (p, ret)) => keep (launchPkt u j.chan j.acc p ret) 0
        | (u, .error 0) => u
        | (_, .error code) => keep (launchPkt s j.chan j.acc (void code) []) code))) ∧
    (∀ k seq i, arrived s n = some ⟨src, dst, .hopAck k seq i, path⟩ → exec (.chainHopAck n) s =
      .next ((takeMsg s n).updEng (dst % 16) fun e => { e with
        kept := e.kept.filter fun y => !(decide (y.1.key = k ∧ y.1.seq = seq ∧ y.2.1 = i)) })) ∧
    (∀ handle seq reset p i c, (s.eng die).kept.find? (fun y => decide (y.1.key.handle = handle ∧ y.1.seq = seq) && s.passed (2 ^ 24) y.2.2) =
        some (p, i, some c) →
      let gone : Bool := if p.dst < 65536 ∧ p.dst / 16 = s.fab.pkgid then (s.eng (p.dst % 16)).lost.contains p.key else reset
      exec (.chainTargetTimeout die handle seq reset) s = .next (sendHop (s.updEng die fun e => { e with
        kept := e.kept.filter (· ≠ (p, i, some c)) }) die p (i + 1)
          (if p.err ≠ 0 then p.err else if gone then 5 else 4))) ∧
    let own (place : Nat) : Prop := place < 65536 ∧ place / 16 = s.fab.pkgid
    (∀ err ic pa key cmps home block, Map.get s.fab.net n = some ⟨src, dst, .fetch ic pa key cmps home, path⟩ →
      let reach : Prop := path.isSome = true ∨ (choosePath s src dst).isSome = true
      let lost : Prop := own src ∧ pathLost s (src % 16) dst = true
      let u := takeMsg s n
      (¬reach → (lost → exec (.remoteFetchResponse n err block) s = .next (fetchCame u ic pa 5 0)) ∧
        (¬lost → exec (.remoteFetchResponse n err block) s = .next s)) ∧
      (reach → ¬own dst → exec (.remoteFetchResponse n err block) s =
        .next (fetchCame u ic pa (if err = 0 then 0 else if err = 2 then 0x13 else 5) block)) ∧
      (reach → own dst →
        (homeRefuses s (dst % 16) src home key = true →
          exec (.remoteFetchResponse n err block) s = .next (fetchAnswer u src dst ic pa 5 0)) ∧
        (homeRefuses s (dst % 16) src home key = false →
          (homeReady s (home / 64) .read = false →
            exec (.remoteFetchResponse n err block) s = .next (homeAsk s (home / 64) .read)) ∧
          (homeReady s (home / 64) .read = true → exec (.remoteFetchResponse n err block) s =
            .next (match homeRead (homeUse u (home / 64)) (home / 64) key cmps with
              | some (s2, l) => fetchAnswer s2 src dst ic pa 0 (blockOf l home)
              | none => fetchAnswer u src dst ic pa 0x13 0))))) ∧
    (∀ err ic pa code block v, arrived s n = some ⟨src, dst, .block ic pa code v, path⟩ →
      let u := (takeMsg s n).updFab fun f => { f with fetches := f.fetches.filter (· ≠ (ic, pa / 32)) }
      ((ic, pa / 32) ∈ s.fab.fetches → icDie ic = dst % 16 →
        exec (.remoteFetchResponse n err block) s = .next (fetchCame u ic pa code v)) ∧
      (¬((ic, pa / 32) ∈ s.fab.fetches ∧ icDie ic = dst % 16) → exec (.remoteFetchResponse n err block) s = .next u)) ∧
    ∀ ic pa code v, (own src → fetchAnswer s src dst ic pa code v = fetchCame s ic pa code v) ∧
      (¬own src → fetchAnswer s src dst ic pa code v = netSend s dst src (.block ic pa code v)) ∧
      fetchCame s ic pa code v =
        if code = 0 then keepBlock s ic pa v else { s with fetchBad := s.fetchBad ++ [(ic, pa / 32, code)] }

/-- R294, R300, R306 to R312, R385, R419: packets, answers and copy lines. -/
def Obligations.ChannelDelivery : Prop := Claims.ChannelArrivals ∧ Claims.ChannelAnswers ∧ Claims.ChannelCopyLines

/-! ### Chapter 14: the fabric -/

/-- R376, R378: circuits. A command to a Free or Failed entry begins setup, or fails with the first check's error; set up
within 20 µs, it is Up; not within 20 µs, or lost, it is Failed; the streams with unacknowledged packets on a lost one are to
be resynchronised; torn down with nothing in flight, it is Free. -/
def Claims.Circuits : Prop :=
  ∀ (i : Nat) (s : State),
    let c := s.circ i
    let becomes (t : State) (st err : Nat) : Prop := (t.circ i).st = st ∧ ((t.circ i).reg.extractLsb' 48 8).toNat = err ∧
      (∀ b, b < 45 ∨ 56 ≤ b → (t.circ i).reg.getLsbD b = c.reg.getLsbD b) ∧ ∀ j, j ≠ i → t.circ j = s.circ j
    let err := (c.reg.extractLsb' 48 8).toNat
    (c.st = 0 ∨ c.st = 4 → becomes (circCmd s i 1) (if circErr s i c = 0 then 1 else 4) (if circErr s i c = 0 then err else circErr s i c) ∧
      becomes (circCmd s i 2) 0 err) ∧
    (c.st = 2 → becomes (circCmd s i 2) 3 err ∧ circCmd s i 1 = s) ∧
    (c.st = 1 → i < 256 → s.timeNs.toNat < c.since + 20000 → ∃ t, exec (.circuitUp i) s = .next t ∧ becomes t 2 0) ∧
    (c.since + 20000 ≤ s.timeNs.toNat → exec (.circuitUp i) s = .next s) ∧
    (c.st = 1 → c.since + 20000 ≤ s.timeNs.toNat → ∃ t, exec (.circuitSetupTimeout i) s = .next t ∧ becomes t 4 3) ∧
    (c.st = 1 → s.timeNs.toNat < c.since + 20000 → exec (.circuitSetupTimeout i) s = .next s) ∧
    (c.st = 3 → (∀ p ∈ s.fab.net, usesCirc p.2 i = false) →
      ∃ t, exec (.teardownComplete i) s = .next t ∧ becomes t 0 err) ∧
    (c.st = 2 → ∃ t, exec (.circuitLost i) s = .next t ∧ becomes t 4 5 ∧ t = loseCirc s i ∧
      (s.fab.pkgid < 4096 → ∀ d x, d < 16 → x ∈ (s.eng d).sent → x.path.contains i = true → x.p.dst ∈ (t.eng d).resync))

/-- R380, R383, R384: reliable connections. A packet in order, with room for its peer in the SRAM, is acknowledged and passed
on; a repeated one is only acknowledged; a reserved one, one for another package, one of an older incarnation of the
connection or of a failed one is discarded and counted; one of a later incarnation restarts this end, and so does anything that
comes over a port of the peer's route while this end has failed. The port complex's answer goes by a port of the route that is
up (R382). An acknowledgement frees
what it covers; a packet without one for 10 µs is sent again; a connection without one for 2^24 cycles fails. What a failed
connection takes, and how incarnations are told apart, is the model's reading (log entries 52, 139). -/
def Obligations.ReliableConnections : Prop :=
  ∀ (port : Nat) (s : State), (∀ (w : WirePkt) (rest : List WirePkt), (s.port port).rxq = w :: rest →
    let s0 := s.updPort port fun p => { p with rxq := rest }
    let r := s.rc w.src
    let i := routeIndex w.src
    let room : Prop := i ∈ s.fab.rcSram ∨ s.fab.rcSram.length < 1024
    let s1 := s0.updFab fun f => { f with rcSram := f.rcSram.filter (· ≠ i) ++ [i] }
    let mine : Prop := w.dst < 65536 ∧ w.dst / 16 = s.fab.pkgid ∧ rcOpen s w.src = true
    let plain : Prop := (∀ a b, w.msg ≠ .rcAck a b) ∧ w.msg ≠ .reserved
    let discarded := s0.updPort port fun p => { p with discards := p.discards + 1 }
    let route := Map.getD s.fab.routes i 0
    let reached (x : Instr) : Prop :=
      (route.getLsbD 32 = true ∧ route.getLsbD port = true ∧ (s.port port).up = true → ∃ t, exec x s = .next t ∧
        t.rc w.src = { Rc.reset with conn := r.conn + 1 } ∧ (t.port port).discards = (s.port port).discards + 1) ∧
      (¬(route.getLsbD 32 = true ∧ route.getLsbD port = true ∧ (s.port port).up = true) → exec x s = .next discarded)
    (∀ u x, (port ∈ routePorts u x.dst → sendAnswer u port x = sendOn u port x) ∧
      (routePorts u x.dst = [] → sendAnswer u port x = u) ∧
      ∀ q l, routePorts u x.dst = q :: l → port ∉ q :: l → sendAnswer u port x = sendOn u q x) ∧
    (plain → mine → room → w.conn = r.conn → r.failed = false →
      (w.rcseq = r.cum % 2 ^ 32 → r.beyond = [] →
        let s2 := sendAnswer (s1.updRc w.src fun _ => { r with cum := r.cum + 1, beyond := [] }) port
          ⟨0, r.conn, diePlace s 0, w.src, .rcAck ((r.cum + 1) % 2 ^ 32) []⟩
        (∀ dst m, resolveIn s2 w = (dst, m) → (∀ ns, m ≠ .time ns) →
          exec (.rcPacketArrival port) s = .next (netSend s2 w.src dst m)) ∧
        (∀ p, w.msg = .req p → (∀ pkg off, decodePa p.pa ≠ .peer pkg off) →
          exec (.rcPacketArrival port) s = .next (netSend s2 w.src w.dst (.req { p with launch := none })))) ∧
      (256 ≤ (w.rcseq + 2 ^ 32 - r.cum % 2 ^ 32) % 2 ^ 32 → r.beyond = [] → exec (.rcPacketArrival port) s =
        .next (sendAnswer (s1.updRc w.src fun _ => r) port ⟨0, r.conn, diePlace s 0, w.src, .rcAck (r.cum % 2 ^ 32) []⟩))) ∧
    (plain → mine → room → r.conn < w.conn → w.rcseq = 0 → ∃ t, exec (.rcPacketArrival port) s = .next t ∧
      t.rc w.src = { Rc.reset with conn := w.conn, cum := 1 }) ∧
    ((w.msg = .reserved ∨ (plain ∧ (¬mine ∨ w.conn < r.conn))) → exec (.rcPacketArrival port) s = .next discarded) ∧
    (plain → mine → r.failed = true → w.conn = r.conn → reached (.rcPacketArrival port)) ∧
    (∀ cum beyond, w.msg = .rcAck cum beyond →
      (w.conn = r.conn → r.failed = false → exec (.rcAck port) s = .next (s0.updRc w.src fun r => { r with
        unack := r.unack.filter fun x =>
          !decide ((cum + 2 ^ 32 - (x.1.rcseq + 1) % 2 ^ 32) % 2 ^ 32 < 2 ^ 31) && !beyond.contains x.1.rcseq
        lastAck := s.cycle })) ∧
      (w.conn ≠ r.conn → r.failed = false → exec (.rcAck port) s = .next discarded) ∧
      (r.failed = true → reached (.rcAck port)))) ∧
    (∀ peer seq v at', (Map.getD s.fab.rcs peer Rc.reset).unack.find? (fun x => x.1.rcseq = seq) = some (v, at') →
      at' + 10000 ≤ s.timeNs.toNat → port ∈ routePorts s v.dst → ∃ u, exec (.rcRetransmitTimeout peer seq port) s = .next u ∧
        (u.port port).txq = (s.port port).txq ++ [v]) ∧
    ∀ peer, let q := Map.getD s.fab.rcs peer Rc.reset
      q.unack ≠ [] → q.failed = false → q.lastAck + 2 ^ 24 ≤ s.cycle → ∃ t, exec (.rcConnectionFailure peer) s = .next t ∧
        Map.getD t.fab.rcs peer Rc.reset = { Rc.reset with failed := true, conn := q.conn } ∧
        ∀ x ∈ q.unack, x.1.src < 65536 → x.1.src / 16 = s.fab.pkgid → ∀ p, x.1.msg = .req p →
          x.1.dst ∈ (t.eng (x.1.src % 16)).resync

/-- R386, R388, R389: flits. An up port sends what is to be resent first, then control, then packets, then an idle flit,
each with the next counter and sequence number; at its counter's limit only the switch to the other loaded slot. A flit
whose tag verifies in order is taken and acknowledged; one that does not is refused, and a second time in a row brings
the port down, the streams whose requests it carried being resynchronised. A slot whose flits are all acknowledged after a
switch is released, and the security processor is told. -/
def Obligations.Flits : Prop :=
  ∀ (port : Nat) (s : State), (s.port port).up = true →
    (let u := pullOut s port
     let p := u.port port
     let sends (q : Port) : Prop := exec (.flitSend port) s = .next (u.updPort port fun _ => q)
     let next (ftype : Nat) (pkts : List WirePkt) (ctl : List (Bool × Nat)) (slot : Nat) : Port :=
       { p with ctr := p.ctr + 1, lseq := (p.lseq + 1) % 65536,
                unack := p.unack ++ [⟨p.lseq, p.ctr, p.txslot, ftype, pkts, ctl, slot⟩] }
     (∀ x l, p.resend = x :: l → sends { p with resend := l }) ∧
     (p.resend = [] → p.unack.length < 1024 →
       (p.ctr + 1 < p.limit →
         (p.ctl ≠ [] → sends { next 3 [] p.ctl 0 with ctl := [] }) ∧
         (p.ctl = [] → p.txq ≠ [] → sends { next 1 (fillFlit 7 p.txq p.txPart).1 [] 0 with
           txq := (fillFlit 7 p.txq p.txPart).2.1, txPart := (fillFlit 7 p.txq p.txPart).2.2 }) ∧
         (p.ctl = [] → p.txq = [] → sends (next 0 [] [] 0))) ∧
       (p.ctr + 1 = p.limit → p.txvalid (1 - p.txslot) = true → p.relSlot = none → ∃ q, sends q ∧
         q.txslot = 1 - p.txslot ∧ q.ctr = 0 ∧ q.relSlot = some p.txslot ∧
         q.unack = (next 2 [] [] (1 - p.txslot)).unack) ∧
       (p.limit ≤ p.ctr + 1 → p.txvalid (1 - p.txslot) = false →
         sends { p with starve := some (p.starve.getD s.cycle) }))) ∧
    let p := s.port port
    let gets (i : Instr) (q : Port) : Prop := exec i s = .next (s.updPort port fun _ => q)
    let n := min ((p.stat.extractLsb' 0 32).toNat + 1) (2 ^ 32 - 1)
    (∀ lseq kslot ftype slot ok pkts, lseq = p.rxSeq →
      (ok = true → p.rxvalid (kslot % 2) = true →
        let q := { p with rxSeq := (p.rxSeq + 1) % 65536, failed := false, ctl := p.ctl ++ [(true, lseq)] }
        (ftype = 1 → gets (.flitReceive port lseq kslot ftype slot ok pkts) { q with rxq := q.rxq ++ pkts }) ∧
        (ftype ≠ 1 → ftype ≠ 2 → gets (.flitReceive port lseq kslot ftype slot ok pkts) q) ∧
        (ftype = 2 → slot % 2 ≠ p.rxslot → ∃ x, gets (.flitReceive port lseq kslot ftype slot ok pkts) x ∧
          x.rxslot = slot % 2 ∧ x.rxvalid p.rxslot = false ∧ x.rxSeq = q.rxSeq ∧ x.ctl = q.ctl)) ∧
      ((ok = false ∨ p.rxvalid (kslot % 2) = false) →
        (p.failed = false → ∃ x, gets (.flitReceive port lseq kslot ftype slot ok pkts) x ∧ (x.stat.extractLsb' 0 32).toNat = n ∧
          x.failed = true ∧ x.ctl = p.ctl ++ [(false, lseq)] ∧ x.up = true) ∧
        (p.failed = true → ∃ t, exec (.flitReceive port lseq kslot ftype slot ok pkts) s = .next t ∧
          ((t.port port).stat.extractLsb' 0 32).toNat = n ∧ (t.port port).up = false ∧
          ((t.port port).stat.extractLsb' 48 8).toNat = 1 ∧
          ∀ w ∈ p.carried, ∀ r, w.msg = .req r → w.src < 65536 → w.src / 16 = s.fab.pkgid →
            r.dst ∈ (t.eng (w.src % 16)).resync))) ∧
    (∀ lseq i, (p.unack.findIdx? fun x => x.lseq = lseq) = some i →
      let left := p.unack.drop (i + 1)
      let q := { p with unack := left, resend := p.resend.filter fun x => left.contains x }
      gets (.flitNack port lseq) { p with resend := p.unack.drop i } ∧
      (p.relSlot = none → gets (.flitAck port lseq) q) ∧
      ∀ k, p.relSlot = some k → ((∃ x ∈ left, x.kslot = k) → gets (.flitAck port lseq) q) ∧
        ((∀ x ∈ left, x.kslot ≠ k) → exec (.flitAck port lseq) s =
          .next ((s.updPort port fun _ => { q.setTx k 0 with relSlot := none }).updHost fun h =>
            { h with released := h.released ++ [(port, k)] }))) ∧
    (∀ c, p.starve = some c → c + 2 ^ 20 ≤ s.cycle → gets (.keyStarvationExpiry port) (p.down 2))

/-- R387, R388, R391: a port trained with slot 0 loaded both ways comes up on slot 0 with its counters at 0, and the failed
connections of its routes restart; without a signal it goes down, both slots cleared. A key installed loads its slot, where it is not loaded.
Package time steps forward once to a new source more than 1 ms ahead; LOCKED says whether it is within 100 ns. -/
def Claims.PortsAndTime : Prop :=
  ∀ (port : Nat) (s : State), port < 32 →
    let p := s.port port
    (p.en = true → p.up = false → p.txvalid 0 = true → p.rxvalid 0 = true → ∃ t, exec (.portUp port) s = .next t ∧
      let q := t.port port
      q.up = true ∧ q.txslot = 0 ∧ q.rxslot = 0 ∧ q.ctr = 0 ∧ q.lseq = 0 ∧ q.rxSeq = 0 ∧
      (Map.wf s.fab.rcs = true → ∀ peer, let r := Map.getD s.fab.rcs peer Rc.reset
        r.failed = true → (Map.getD s.fab.routes peer 0).getLsbD 32 = true → (Map.getD s.fab.routes peer 0).getLsbD port = true →
          Map.getD t.fab.rcs peer Rc.reset = { Rc.reset with conn := r.conn + 1 })) ∧
    (p.up = true → ∃ t, exec (.signalLost port) s = .next t ∧ let q := t.port port
      q.up = false ∧ (∀ k, k < 2 → q.txvalid k = false ∧ q.rxvalid k = false) ∧ (q.stat.extractLsb' 48 8).toNat = 3 ∧
        q.unack = [] ∧ q.discards = p.discards) ∧
    (∀ slot, slot < 2 → s.host.phase = 1 →
      (p.txvalid slot = false → ∃ t, exec (.linkKeyInstall port slot true) s = .next t ∧ (t.port port).txvalid slot = true ∧
        (t.port port).starve = (if slot = p.txslot then p.starve else none) ∧ (port, slot) ∉ t.host.released ∧
        ∀ k, (t.port port).rxvalid k = p.rxvalid k ∨ 2 ≤ k) ∧
      (p.rxvalid slot = false → ∃ t, exec (.linkKeyInstall port slot false) s = .next t ∧ (t.port port).rxvalid slot = true ∧
        ∀ k, (t.port port).txvalid k = p.txvalid k ∨ 2 ≤ k) ∧
      ∀ tx, (if tx then p.txvalid slot else p.rxvalid slot) = true → exec (.linkKeyInstall port slot tx) s = .next s) ∧
    ∀ (src : Nat) (ns : W64), src ≠ 0 → (s.fab.timeCtl.extractLsb' 0 2).toNat = src →
      (src = 2 → (s.fab.timeCtl.extractLsb' 4 5).toNat = port ∧ p.up = true) →
      ∃ t, exec (.timeSynchronisation src port ns) s = .next t ∧
        t.timeNs = (if s.fab.synced = false ∧ s.timeNs.toNat + 1000000 < ns.toNat then ns else s.timeNs) ∧
        t.fab.synced = true ∧
        t.fab.timeCtl.getLsbD 12 = decide ((t.timeNs.toNat - ns.toNat) + (ns.toNat - t.timeNs.toNat) ≤ 100) ∧
        t.fab.ports = s.fab.ports

/-- R376, R378, R387, R388, R391: circuits, ports and package time. -/
def Obligations.CircuitsAndPorts : Prop := Claims.Circuits ∧ Claims.PortsAndTime

/-! ### Chapter 13: front ends -/

/-- R340 to R343: queue packets. The packet that stands next begins where its order allows, and RIDX moves past it: NOP;
LAUNCH, begun or refused; WAITVALUE, which then waits for its word; SIGNAL; GRAPH, which triggers its graph. A malformed or
unreadable one puts its queue in Error with vector 0; one that must wait for a host's answer asks for the line. The ERR codes of malformed and failing WAITVALUE, SIGNAL and GRAPH
bodies (log entry 45) and that bits [9:8] of a GRAPH body say nothing (log entry 46) are the model's choices. -/
def Obligations.QueuePackets : Prop :=
  ∀ (die q : Nat) (s : State),
    let k := die * 64 + q
    let takes (i : Instr) (s2 : State) (n : Nat) (cur : Option Nat) : Prop := exec i s = .next (s2.takePacket k n cur)
    (∀ s1 ty order ws, nextPacket s k = (s1, .pkt ty order ws) → (order = false ∨ queueBusy s k = false) →
      (ty = 0 → takes (.packetNop die q) s1 1 none) ∧
      (ty = 1 → let c := (s.queue k).ctl
        let from' : LFrom := { src := .queue k, prio := qPrio c, priv := qPriv c, asid := qAsid c }
        exec (.packetLaunch die q) s = .next (match beginLaunch s1 die from' ws with
          | .refused s2 => s2.takePacket k 4 none
          | .begun s2 h => s2.takePacket k 4 (some h)
          | .wait x => askFor s x)) ∧
      (ty = 2 → feRuns s die = true → (s.queue k).body = [] → exec (.packetWaitvalue die q) s = .next (
        if 4 < (bodyWord ws 3).toNat then failQueue s k 3
        else tryWait ((s1.takePacket k 1 none).updQueue k fun x => { x with
          body := ws, wait := s.timeNs.toNat, bodyAsid := qAsid x.ctl, bodyPriv := qPriv x.ctl }) k)) ∧
      (ty = 3 → exec (.packetSignal die q) s = .next (match signalNow s1 (qCtx s k) ws with
        | (s2, .ok _) => s2.takePacket k 1 none
        | (_, .error (.err e)) => failQueue s k e
        | (s2, .error (.wait x)) => askFor s2 x)) ∧
      (ty = 4 → let w := (bodyWord ws 1).toNat
        (w / 1024 = 0 ∧ w / 32 % 8 = 0 → takes (.packetGraph die q) (s1.updGraph (die * 32 + w % 32) Graph.trigger) 1 none) ∧
        (¬(w / 1024 = 0 ∧ w / 32 % 8 = 0) → exec (.packetGraph die q) s = .next (failQueue s k 3)))) ∧
    (∀ s1 e, nextPacket s k = (s1, .bad e) → e < 256 → ∃ t, exec (.packetInvalid die q) s = .next t ∧
      qState (t.queue k).ctl = 4 ∧ qErr (t.queue k).ctl = e ∧ t.irqs = s1.irqs ++ [(die, 0)]) ∧
    (feRuns s die = true → (s.queue k).body ≠ [] →
      let x := s.queue k
      let c : FeCtx := { die := k / 64, asid := x.bodyAsid, priv := x.bodyPriv }
      (∀ s1, condNow s c x.body = (s1, .ok true) → exec (.packetWaitvalue die q) s =
        .next (settleQueue (s1.updQueue k fun x => { x with body := [] }) k)) ∧
      (∀ s1, condNow s c x.body = (s1, .ok false) → bodyWord x.body 4 = 0 → exec (.packetWaitvalue die q) s = .next s1) ∧
      ∀ s1 e, condNow s c x.body = (s1, .error (.err e)) → exec (.packetWaitvalue die q) s = .next (failQueue s1 k e)) ∧
    (∀ n cur, ((s.takePacket k n cur).queue k).ridx = (s.queue k).ridx + BitVec.ofNat 32 n) ∧
    (∀ s1 a, feRuns s die = true → q < 64 → qEn (s.queue k).ctl = true → (s.queue k).disabling = false →
      (qState (s.queue k).ctl = 1 ∨ qState (s.queue k).ctl = 2) → (s.queue k).widx ≠ (s.queue k).ridx →
      (s.queue k).cur = none → (s.queue k).body = [] → readSlots die (s.queue k) 1 (s.queue k).ridx s = (s1, .ok a) →
        let h := (a.getD 0 0).toNat
        (4 < h % 256 ∨ h / 256 % 16 ≠ (if h % 256 = 1 then 4 else 1) ∨ h / 8192 ≠ 0) → nextPacket s k = (s1, .bad 3))

/-- R345 to R347, R350: a launch on its die. Format regions are taken all at once, and the checks after them refuse it or
not; dispatch begins at START, after the reservation where the launch is cooperative; the coordinator begins it when every
position has reported, and a refusal or a message without a path for 2^24 cycles ends it everywhere. -/
def Claims.LaunchAdmission : Prop :=
  ∀ (share n : Nat) (s : State) (l : Launch) (c : Coord),
    let die := share % 16
    let begun (u : State) : State := u.updLaunch share fun x => { x with phase := .begun, since := s.timeNs.toNat }
    (s.launch share = some l → l.formats = false → l.phase = .waiting → feRuns s die = true →
      l.fmts.length ≤ (freeRegions s die).length →
      let r : LRes Unit := lThen (takeRegions l share die ((freeRegions s die).zip l.fmts) s) fun s1 _ =>
        lateChecks l share die (s1.share share).dieIndex (s1.updLaunch share fun x => { x with formats := true })
      exec (.formatRegionTake share) s = .next (match r with
        | (s1, .ok _) => s1
        | (s1, .error (.refuse st rs dt)) => (refuseShare s1 share st rs dt).getD (askFor s (recordAsk s1 share))
        | (_, .error (.wait x)) => askFor s x)) ∧
    (s.launch share = some l → feRuns s die = true → l.formats = true → l.start ≤ s.timeNs →
      (l.phase = .waiting → l.coop = 0 → exec (.launchDispatchBegin share) s = .next (begun s)) ∧
      (((l.phase = .waiting ∧ l.coop ≠ 0) ∨ l.phase = .reserving) → exec (.launchDispatchBegin share) s =
        .next (whole (reserveMore share 640 (s.updLaunch share fun x => { x with phase := .reserving })) share))) ∧
    (s.launch share = some l → feRuns s die = true → s.timeNs < l.start →
      exec (.launchDispatchBegin share) s = .next s) ∧
    (coordMsg s n 0 = some (c, share, l) → exec (.coopReport n) s =
      .next (coordCheck ((takeMsg s n).updLaunch share fun x => { x with reports := insNat c.die x.reports }) share)) ∧
    (coordMsg s n 1 = some (c, share, l) →
      (l.phase = .whole → exec (.coopBegin n) s = .next (begun (takeMsg s n))) ∧
      (l.phase ≠ .whole → exec (.coopBegin n) s = .next (takeMsg s n))) ∧
    (coordMsg s n 2 = some (c, share, l) →
      exec (.coopRefused n) s = .next (orAsk s share (abandonAll (takeMsg s n) share l))) ∧
    (coordMsg s n 3 = some (c, share, l) →
      exec (.coopAbandon n) s = .next (orAsk s share (abandonShare (takeMsg s n) share))) ∧
    (∀ src dst since, Map.get s.fab.net n = some ⟨src, dst, .coord c, none⟩ → c.kind ≤ 2 → src / 16 = s.fab.pkgid →
      choosePath s src dst = none → Map.get (s.eng (src % 16)).noPath dst = some since → since + 2 ^ 24 ≤ s.cycle →
      let at' := if c.kind = 1 then src else dst
      at' / 16 = s.fab.pkgid → at' < 65536 → shareById s (at' % 16) c.launch = some (share, l) →
      exec (.coopMessageTimeout n) s = .next (orAsk s share (abandonAll (takeMsg s n) share l)))

/-- R10, R318, R327, R347: placement. The work that the dispatcher serves next is placed with the addresses and the key that
its front end chose, where those may be used; each live lane of a new workgroup starts at its entry with registers 0,
and channel 0 alone is open. It is placed at once where its cores' acquires need not wait. That the event names the addresses and the key is the model's choice (log entry 44). -/
def Obligations.GangPlacements : Prop :=
  (∀ (die kid : Nat) (images privs : List Nat) (s : State) (k : Nat) (l : Launch) (p : Place) (ptr : Nat) (b : Bool),
    let fits (nbs : List Nat) : Prop := keyLoaded s die kid = true ∧
      addressesOk s p.quad (s.share k).psize l.xregs [] nbs images privs = true
    let acquired : Prop := (forAll coreFenceAcquire (p.wgs.map fun c => p.quad * 4 + c.1) s).isSome = true
    (∀ g, pickWork s die = some (k, l, .gang g, p, ptr, b) →
      fits ((l.gangWgs g).map fun _ => bandsFor l.wgSize) → acquired →
      ∃ s1 g', startGang s k l p (BitVec.ofNat 64 g) images privs kid ((l.gangWgs g).map (rootWg l)) = some (s1, g') ∧
        exec (.gangPlacement die kid images privs) s = .next (placed (s1.updLaunch k fun x => { x with
          next := x.next + 1, resv := x.resv.drop 1 }) die k ptr l)) ∧
    (∀ id x, pickWork s die = some (k, l, .group id, p, ptr, b) →
      (s.stage k).groups.find? (fun y => y.id = id) = some x →
      fits [bandsFor ((s.stage k).groupSize x.node)] → acquired →
      ∃ s1 g', startGang s k l p (BitVec.allOnes 64) images privs kid [nodeWg (s.stage k) x] = some (s1, g') ∧
        exec (.nodeGroupPlacement die kid images privs) s = .next (placed (s1.updStage k fun q =>
          let c := consume q x (g' + 1)
          if b then { c with resGang := some g' } else c) die k ptr l))) ∧
  ∀ (s t : State) (k g kid image priv : Nat) (l : Launch) (p : Place) (lin : W64) (n : NewWg),
    startGang s k l p lin [image] [priv] kid [n] = some (t, g) →
      (t.gang g).wgs = [g + 1] ∧ (t.gang g).share = k ∧ (t.wg (g + 1)).gang = g ∧ (t.wg (g + 1)).size = n.size ∧
      (∀ i, i < n.live → (t.fib ((g + 1) * 1024 + i)).pc = n.entry ∧ (t.fib ((g + 1) * 1024 + i)).status = .ready ∧
        (t.fib ((g + 1) * 1024 + i)).x = [] ∧ (t.fib ((g + 1) * 1024 + i)).handler = false) ∧
      ∀ j, j < 16 → ((t.chan (chanKey (g + 1) j)).opened = decide (j = 0) ∧ (t.chan (chanKey (g + 1) j)).epoch = 0)

/-- R348, R350: a share ends. With nothing left to place or run its status is 1 (Done); by a trap 2, and the other dies of
its group are told, whose shares end with 6; one that is killed, with the status of its end, once its gangs are discarded. A
share that has ended is gone with its launch and its stage; one whose record, or whose gangs' casement words (log entry 76, the
model's reading), must wait for a host's answer asks for the lines. That the record's PC is what %tpc would have been is the
model's reading (log entry 102). The record's first word holds status, reason and the count of channel errors;
a trap's, its code and its place. -/
def Claims.ShareEnds : Prop :=
  (∀ (share : Nat) (s : State) (l : Launch), s.launch share = some l → feRuns s (share % 16) = true →
    let h := s.share share
    (h.trap = none → gangsOf s share = [] →
      (l.phase = .begun → l.shareGangs h.dieIndex l.group.length ≤ l.next → stageDone s share = true →
        exec (.shareCompletion share) s = .next (orAsk s share (finishShare s share none 1 0 0))) ∧
      (l.phase = .ended →
        exec (.shareCompletion share) s = .next (orAsk s share (finishShare s share none l.status l.reason l.detail)))) ∧
    (h.trap = none → l.phase = .killed → exec (.shareCompletion share) s = .next (orAsk s share
      ((discardShare s share .kill).bind fun u => finishShare u share none l.status l.reason l.detail))) ∧
    ∀ tr, h.trap = some tr → exec (.shareCompletion share) s = .next (orAsk s share
      (((discardShare s share .kill).bind fun u => finishShare u share (some tr) 2 0 0).map fun t =>
        (l.group.filter fun p => decide (p ≠ (s.fab.pkgid, share % 16))).foldl
          (fun u p => feSend u (share % 16) (posPlace p) 4 l.id h.dieIndex) t))) ∧
  (∀ (share st rs dt : Nat) (tr : Option TrapEnd) (s t : State) (l : Launch), s.launch share = some l →
    finishShare s share tr st rs dt = some t → ∃ u : State, t.launches = Map.del u.launches share ∧
      t.shares = Map.del u.shares share ∧ t.stages = Map.del u.stages share) ∧
  (∀ (n share : Nat) (s : State) (l : Launch) (c : Coord), coordMsg s n 4 = some (c, share, l) →
    (∀ tr, (s.share share).trap = some tr → exec (.trapLaunchId n) s = .next (takeMsg s n)) ∧
    ((s.share share).trap = none → exec (.trapLaunchId n) s =
      .next (orAsk s share ((discardShare (takeMsg s n) share .kill).bind fun u => finishShare u share none 6 0 0)))) ∧
  (∀ st rs cherr : Nat, st < 256 → rs < 16 → ((plainWord st rs cherr).extractLsb' 0 8).toNat = st ∧
    ((plainWord st rs cherr).extractLsb' 36 4).toNat = rs ∧
    ((plainWord st rs cherr).extractLsb' 40 24).toNat = min cherr (2 ^ 24 - 1)) ∧
  ∀ (die cherr : Nat) (t : TrapEnd), die < 16 → t.quad < 64 →
    let w := trapWord die t cherr
    (w.extractLsb' 0 8).toNat = 2 ∧ (w.extractLsb' 8 8).toNat = t.code % 256 ∧ (w.extractLsb' 16 4).toNat = die ∧
    (w.extractLsb' 20 6).toNat = t.quad ∧ (w.extractLsb' 26 2).toNat = t.core % 4 ∧
    (w.extractLsb' 28 5).toNat = t.lane % 32 ∧ w.getLsbD 33 = t.inHandler

/-- R345 to R350: a launch is admitted and ends. -/
def Obligations.LaunchesOnDies : Prop := Claims.LaunchAdmission ∧ Claims.ShareEnds

/-- R352 to R354: the nodes of a running graph. Each node's event does its work and goes on at its successor, or ends the
run, which an error ends uncounted in RUNS; a malformed node ends it with error 3 (which bits make one malformed, and that
count, are the model's reading, log entry 100), and one that the code of the front end's SRAM cannot correct with error 1 (that
code is the model's choice, log entry 144); a node that it can correct is read as it was (R32). -/
def Obligations.GraphNodes : Prop :=
  ∀ (die gi : Nat) (s : State), feRuns s die = true →
    let k := die * 32 + gi
    let x := s.graph k
    let b := x.cur
    let c : FeCtx := { die := k / 32, asid := grAsid x.ctl, priv := x.ctl.getLsbD 6 }
    let on (u : State) : State := u.updGraph k fun y => y.goTo b (nodeNext b)
    grRun x.ctl = true →
      (∀ e ∈ [(1, Instr.launchNode die gi), (2, .copyNode die gi), (3, .waitvalueNode die gi), (3, .waitvalueTimeout die gi),
          (4, .loopNode die gi), (5, .condNode die gi), (6, .signalNode die gi), (7, .armNode die gi)],
        (∀ p ∈ x.bad, p.1 / 16 = x.node → 2 ≤ p.2.length → exec e.2 s = .next (s.updGraph k fun g => g.endRun 1)) ∧
        ((∀ p ∈ x.bad, p.1 / 16 = x.node → p.2.length < 2) → (∃ p ∈ x.bad, p.1 / 16 = x.node) → nodeType b = e.1 →
          exec e.2 s = exec e.2 (s.setGraph k { x with bad := x.bad.filter fun p => p.1 / 16 ≠ x.node }))) ∧
      ((∀ p ∈ x.bad, p.1 / 16 ≠ x.node) → x.wait = .none → x.malformed b = true → ∀ i ∈ [Instr.launchNode die gi,
          .copyNode die gi, .waitvalueNode die gi, .loopNode die gi, .condNode die gi, .signalNode die gi, .armNode die gi],
        exec i s = .next (s.updGraph k fun g => g.endRun 3)) ∧
      ((∀ p ∈ x.bad, p.1 / 16 ≠ x.node) → x.malformed b = false →
        (nodeType b = 1 →
          (x.wait = .none → exec (.launchNode die gi) s = .next (match beginLaunch s die
              { src := .graph k, prio := bitsN x.ctl.toNat 9 8, priv := x.ctl.getLsbD 6, asid := grAsid x.ctl } b with
            | .begun s1 h => s1.updGraph k fun y => { y with wait := .launch h }
            | .refused s1 => s1.updGraph k fun g => g.endRun 4
            | .wait l => askFor s l)) ∧
          (∀ h, x.wait = .launch h → (if nodeWaitDone b then (s.launch h).isNone = true else dispatched s h = true) →
            exec (.launchNode die gi) s = .next (on s))) ∧
        (nodeType b = 2 →
          let ce := die * 4 + (bodyWord b 3).toNat / 2 ^ 32
          (x.wait = .none → (copyq s ce).length < 64 → ∃ t cmd, exec (.copyNode die gi) s = .next t ∧
            copyq t ce = copyq s ce ++ [cmd] ∧ cmd.x.dst = bodyWord b 1 ∧ cmd.x.src = bodyWord b 2 ∧
            cmd.x.n = (bodyWord b 3).toNat % 2 ^ 32 ∧ (t.graph k).wait = .copy cmd.id) ∧
          ∀ id st, x.wait = .copy id → s.nodeDone.find? (fun d => d.1 = k) = some (k, st) →
            let s1 := { s with nodeDone := s.nodeDone.filter fun d => d.1 ≠ k }
            exec (.copyNode die gi) s = .next (if st = 0 then on s1 else s1.updGraph k fun g => g.endRun 1)) ∧
        (nodeType b = 3 →
          (∀ s1, condNow s c b = (s1, .ok true) → exec (.waitvalueNode die gi) s = .next (on s1)) ∧
          (∀ s1, condNow s c b = (s1, .ok false) → x.wait = .none →
            exec (.waitvalueNode die gi) s = .next (s1.updGraph k fun y => match y.wait with
              | .none => { y with wait := .value s.timeNs.toNat }
              | _ => y)) ∧
          (∀ since, x.wait = .value since → bodyWord b 4 ≠ 0 → since + (bodyWord b 4).toNat ≤ s.timeNs.toNat →
            exec (.waitvalueTimeout die gi) s = .next (s.updGraph k fun g => g.endRun 2))) ∧
        (nodeType b = 4 →
          let n := (Map.get x.loops x.node).getD ((bodyWord b 1).toNat % 2 ^ 32)
          exec (.loopNode die gi) s = .next (s.setGraph k (if 0 < n then
            Graph.goTo { x with loops := Map.put x.loops x.node (n - 1) } b (nodeAlt b)
            else Graph.goTo { x with loops := Map.del x.loops x.node } b (nodeNext b)))) ∧
        (nodeType b = 5 → ∀ s1 v, condNow s c b = (s1, .ok v) → exec (.condNode die gi) s =
          .next (s1.updGraph k fun y => y.goTo b (if v then nodeAlt b else nodeNext b))) ∧
        (nodeType b = 6 → ∀ s1, signalNow s c b = (s1, .ok ()) → exec (.signalNode die gi) s = .next (on s1)) ∧
        (nodeType b = 7 → ∀ s1, armNow s die b = some s1 → exec (.armNode die gi) s = .next (on s1))) ∧
      ∀ (g : Graph) (err : Nat), grLatch g.ctl = false → err < 256 → grRun (g.endRun err).ctl = false ∧
        (g.endRun err).wait = .none ∧ ((g.endRun err).ctl.extractLsb' 40 8).toNat = err ∧
        ((g.endRun err).stat.extractLsb' 0 32).toNat =
          ((g.stat.extractLsb' 0 32).toNat + if err = 0 then 1 else 0) % 2 ^ 32

/-- R336, R337: a front end's Hinge pair. A first mismatch stops dispatch until recovery resumes; a second within 10 s
fails the die and resets it as R415 does: where no host-biased page is to be flipped first, the die's queues, graphs and keys
are at reset at once; else the reset waits for the host (log entry 93), and nothing runs. That the restart of a worker is counted
(log entry 92) and that the 10 s are package time (log entry 116) is the model's choice. -/
def Obligations.FrontEndPair : Prop :=
  ∀ (die : Nat) (s : State), die < 16 →
    let f := s.fe die
    let now := s.timeNs.toNat
    (f.st = 1 →
      ((∀ at', f.mismatch = some at' → at' + 10000000000 < now) →
        exec (.hingeMismatch die) s = .next (s.setFe die { f with recovering := true, mismatch := some now })) ∧
      (∀ at', f.mismatch = some at' → now ≤ at' + 10000000000 → ∃ t, exec (.hingeMismatch die) s = .next t ∧
        (t.fe die).st = 2 ∧ feRuns t die = false ∧
        ((s.ld die).flip = none → (s.ld die).ending = none →
          (((s.ld die).port = none ∨ s.hostPages die = []) → t.dieIsReset die) ∧
          ((s.ld die).port ≠ none → s.hostPages die ≠ [] →
            ∃ e, (t.ld die).ending = some e ∧ e.after = .failed ∧ ∀ n, n ∈ e.lines ↔ n / 64 ∈ s.hostPages die)))) ∧
    (∀ after, (endReset s die after).dieIsReset die) ∧
    exec (.hingeRecoveryResume die) s = .next (s.setFe die { f with recovering := false }) ∧
    exec (.workerParseTimeout die) s = .next (s.setFe die { f with restarts := f.restarts + 1 })

/-! ### Chapter 12: stage launches -/

/-- R323, R324: RALLOC and RALLOC.try by one lane. A count of 0 gives address 0. A node or count beyond the launch's
declaration, or a depth beyond the node's, is a late trap. A grant sends the run's address to pair D, and the try form's
predicate 1, after the requests that already wait have been tried (R324); where no run fits, RALLOC leaves a request and waits, and the try form gives 0 and 0. A waiting RALLOC ends with
the addresses that a grant gave it, or, its stall bound expired, with RecordPoolExhausted. The trap of a depth of 64 holds its
low six bits, which is the model's choice (log entry 133). With every guard false either only passes. -/
def Obligations.RecordAllocation : Prop :=
  ∀ (f : Fields) (imm : W32) (s s1 : State) (k : Nat), s.active f = [.fib k] →
    let x : Thr := .fib k
    let sh := s.fibShare k
    let p := s.stage sh
    let s0 := freed s sh
    let n := (srcA f s x).toNat
    let e := p.node n
    let band := bandOf k
    let depth := if e.recur then (s.fib k).depth + 1 else 0
    let put (u : State) (a : Nat) : State := u.arriveXP x f.d.toNat (BitVec.ofNat 64 a)
    let putTry (u : State) (a : Nat) (b : Bool) : State := (put u a).arriveP x f.c.toNat b
    let ok (c : Nat) : Prop := c ≠ 0 ∧ n < p.nodes.length ∧ c ≤ p.groupSize n ∧ (e.recur = true → depth ≤ e.maxDepth)
    let both (i try' : Instr) (c len : Nat) : Prop :=
      (ok c → (∀ a, recGrant s0 sh (wgOf k) [(laneOf k, n, c, depth)] = some (s1, [(laneOf k, a)]) →
          try'.does s (putTry s1 a true) f len true ∧
          ((∀ r ∈ p.reqs, r.isOf band [x] = false) → i.does s (put s1 a) f len true)) ∧
        (recGrant s0 sh (wgOf k) [(laneOf k, n, c, depth)] = none → try'.does s (putTry s0 0 false) f len true ∧
          ((∀ r ∈ p.reqs, r.isOf band [x] = false) → let r : RecReq := ⟨band, wgOf k, [(laneOf k, n, c, depth)], 0, none, false⟩
            exec i s = .next (State.settle (s0.updStage sh fun q => { q with reqs := q.reqs ++ [r] }))))) ∧
      (c = 0 → let s2 : State := { s0.updStage sh (fun _ => s0.stage sh) with nextId := s0.nextId + 32, free := s0.free + 32 }
        try'.does s (putTry s2 0 true) f len true ∧ ((∀ r ∈ p.reqs, r.isOf band [x] = false) → i.does s (put s2 0) f len true)) ∧
      ((∀ r ∈ p.reqs, r.isOf band [x] = false) → s.trapReady f → c ≠ 0 → (p.nodes.length ≤ n ∨ p.groupSize n < c) →
        i.enters s f 0x10B#32 (fun _ => BitVec.ofNat 32 (n % 32)) (fun _ => 0) (fun _ => (s.fib k).rentry)) ∧
      (s.trapReady f → c ≠ 0 → n < p.nodes.length → c ≤ p.groupSize n → e.recur = true → e.maxDepth < depth →
        try'.enters s f 0x10C#32 (fun _ => BitVec.ofNat 32 (n % 32 + 256 * (depth % 64))) (fun _ => 0)
          (fun _ => (s.fib k).rentry)) ∧
      (∀ u : State, u.active f = [] → i.does u u f len true ∧ try'.does u u f len true) ∧
      ∀ r, p.reqs.find? (fun r => r.isOf band [x]) = some r →
        let drop := s.updStage sh fun q => { q with reqs := q.reqs.filter fun y => decide (y ≠ r) }
        (∀ a, r.granted = some [(laneOf k, a)] → i.does s (put drop a) f len true) ∧
        (r.granted = none → r.expired = false → exec i s = .next s) ∧
        (∀ c' d, r.granted = none → r.expired = true → r.lanes = [(laneOf k, n, c' + 1, d)] → s.trapReady f →
          i.enters s f 0x10B#32 (fun _ => BitVec.ofNat 32 (n % 32)) (fun _ => 0) (fun _ => (s.fib k).rentry))
    both (.ralloc f) (.rallocTry f) (srcB f s x).toNat 0 ∧ both (.ralloc96 f imm) (.rallocTry96 f imm) imm.toNat 1

/-- R319, R320, R323 to R326: the Proofer. A grant's run of Reserved slots was free and lies in the shared region or its
node's floor; a commit makes a Reserved slot Committed, last in its node's queue; a group takes the oldest records, in
order. The waiting requests are tried in the order of their arrival, and each that fits is granted; the stall bound expires a
request; the timer forms a smaller group. -/
def Claims.Proofers : Prop :=
  (∀ (p q : Proofer) (wg n c depth run pick a : Nat), p.place wg n c depth run pick = some (q, a) →
    p.isFree a (c * p.recBytes n) = true ∧
    ((p.shared ≤ a ∧ a + c * p.recBytes n ≤ p.base + p.size) ∨ (∃ i, i + c ≤ p.groupSize n ∧ a = p.floorBase n + i * p.recBytes n)) ∧
    q = { p with slots := p.slots ++ (List.range c).map fun i =>
      { addr := a + i * p.recBytes n, node := n, depth := depth, st := .reserved wg, run := run } }) ∧
  (∀ (p : Proofer) (now a : Nat) (x : RecSlot), p.slots.find? (fun y => y.addr = a) = some x →
    let q := commitSlot now p a
    q.queues = Map.put p.queues x.node (Map.getD p.queues x.node [] ++ [a]) ∧
    (∀ y ∈ q.slots, y.addr = a → y.st = .committed now) ∧ ∀ y, y.addr ≠ a → (y ∈ q.slots ↔ y ∈ p.slots)) ∧
  (∀ (p : Proofer) (id n k : Nat), let q := p.form id n k
    Map.getD q.queues n [] = (Map.getD p.queues n []).drop k ∧
    q.groups = p.groups ++ [⟨id, n, (Map.getD p.queues n []).take k⟩] ∧
    ∀ y ∈ q.slots, y.addr ∈ (Map.getD p.queues n []).take k → y.st = .grouped id) ∧
  ∀ (share n band : Nat) (s : State),
    (∀ r rest, (s.stage share).reqs = r :: rest → r.granted = none → r.expired = false →
      exec (.rallocGrant share) s = .next (grantWaiting share rest (match recGrant s share r.wg r.lanes with
        | some (s1, as) => s1.updStage share fun p => { p with reqs := p.reqs.map fun x =>
            if x.band = r.band ∧ x.lanes = r.lanes then { x with granted := some as } else x }
        | none => s))) ∧
    ((s.stage share).reqs = [] → exec (.rallocGrant share) s = .next s) ∧
    (Map.has s.stages share = true → ∃ t, exec (.rallocStallExpiry share band) s = .next t ∧
      (t.stage share).reqs = (s.stage share).reqs.map fun r =>
        if r.band = band ∧ r.granted = none ∧ (s.share share).stall ≠ 0 ∧ min (s.share share).stall (2 ^ 48) ≤ r.waited
          then { r with expired := true } else r) ∧
    ∀ a rest at', let s1 := s.formGroups share
      let p := s1.stage share
      Map.getD p.queues n [] = a :: rest → commitTime p a = some at' → (p.node n).timer ≤ s.cycle - at' →
        ∃ t, exec (.stageTimerExpiry share n) s = .next t ∧ t.stage share = p.form s1.nextId n (rest.length + 1)

/-- R325, R328 to R330: RCOMMIT commits the lane's Reserved slots behind a draining release and forms what groups are full;
RABORT frees them, and what waits for slots is tried; RGET sends the fibre's record to quad D after an acquire; RDONE ends the
fibre's hold on it once its accesses are performed and its slot's lines written back, and at once where it holds none; SGSTAT
sends the launcher's count to pair D. Each closes the region (R322; R201's list of closers has no SGSTAT: log entry 71);
with every guard false each only passes. -/
def Claims.RecordInstructions : Prop :=
  ∀ (f : Fields) (imm : W32) (s s1 : State) (k : Nat), s.active f = [.fib k] →
    let x : Thr := .fib k
    let sh := s.fibShare k
    let slots (p : Proofer) : List Nat := laneSlots p (wgOf k) (pairA f s x).toNat (srcB f s x).toNat
    let stat (sel : Nat) : State := s.arriveXP x f.d.toNat (BitVec.ofNat 64 (sgValue s sh (srcA f s x).toNat sel))
    let commits (s1 : State) : Prop := (Instr.rcommit f).does s
      ((s1.updStage sh fun p => (slots p).foldl (commitSlot s.cycle) p).formGroups sh) f 0 true
    let gets (s1 : State) : Prop := (Instr.rget f).does s (s1.arriveXQ x f.d.toNat (match (s.fib k).record with
      | none => [0, 0, 0, 0]
      | some r => [lo32 r.addr, hi32 r.addr, BitVec.ofNat 32 (r.depth + 256 * r.node + 65536 * r.index),
          BitVec.ofNat 32 r.count])) f 0 true
    (drainRelease s (s.fibCore k) = some s1 → commits s1) ∧
    (s.csmClean → ∃ u, drainRelease s (s.fibCore k) = some u ∧ commits u) ∧
    (Instr.rabort f).does s (freed (s.updStage sh fun p => { p with slots := p.slots.filter fun y => !(slots p).contains y.addr })
      sh) f 0 true ∧
    (afterAcquire s (wgOf k) = some s1 → gets s1) ∧ (s.csmClean → ∃ u, afterAcquire s (wgOf k) = some u ∧ gets u) ∧
    (fibPerformed s k = true → endRecord s k = some s1 → (Instr.rdone f).does s s1 f 0 true ∧
      ∀ r, (s.fib k).record = some r → (s1.fib k).record = none) ∧
    ((s.fib k).record = none → fibPerformed s k = true → (Instr.rdone f).does s s f 0 true) ∧
    (Instr.sgstat f).does s (stat (srcB f s x).toNat) f 0 true ∧ (Instr.sgstat96 f imm).does s (stat imm.toNat) f 1 true ∧
    ∀ u : State, u.active f = [] → (Instr.sgstat96 f imm).does u u f 1 true ∧
      ∀ i ∈ [Instr.rcommit f, .rabort f, .rget f, .rdone f, .sgstat f], i.does u u f 0 true

/-- R319 to R330: slots, groups and the record instructions. -/
def Obligations.StageRecords : Prop := Claims.Proofers ∧ Claims.RecordInstructions

/-! ### Chapter 15: the host interface -/

/-- R394, R395, R402: a host's reads and writes of device memory. An access that does not reach the die, or lies outside HDM
decoder 0, is Unsupported; one of a page whose flush is under way is held; otherwise, when it is the host's turn at the home,
the newest bytes of the line answer, and a write merges its bytes; a line that cannot be read is answered with poison, and a
host-biased line does not stay in L2 but where a pin holds it. A read waits while bytes are held at a pinned line (R271), and
either while a scale byte of the line's fill must be asked for (R80, R403). The write-back before a BIRsp is taken at once. -/
def Obligations.HostMemory : Prop :=
  ∀ (src die line : Nat) (mask : ByteMask) (data : Line) (s s1 s2 : State), die < 16 → s.host.phase = 1 →
    let replies (u : State) (a : Answer) : State := u.updHost fun h => { h with answers := h.answers ++ [a] }
    let rd := Instr.memrd src die line
    let wr (back : Bool) := Instr.memwr src die line mask data back
    let key := (s.ld die).hostKey
    let mapped : Prop := ∃ b, (s.ld die).hdm = some b ∧ b ≤ line ∧ line < b + 2 ^ 30
    (memReaches s src die = false ∨ ¬mapped → exec rd s = .next (replies s .unsupported) ∧
      ∀ b, exec (wr b) s = .next (replies s .unsupported)) ∧
    ∀ base, memReaches s src die = true → (s.ld die).hdm = some base → base ≤ line → line < base + 2 ^ 30 →
      let ln := hbmBase die / 64 + (line - base)
      let bias := Map.getD s.mem.bias (pageOf ln) 0
      let turn : Prop := homeTurn s agentHost ln = true
      (inBiasTable s die (64 * ln) = true →
        exec rd s = .next ((replies s (.line (BitVec.allOnes 512) false false)).errIrq die) ∧
        ∀ b, exec (wr b) s = .next ((replies s .unsupported).errIrq die)) ∧
      (inBiasTable s die (64 * ln) = false →
        (keyLoaded s die key = false → exec rd s = .next ((replies s (.line 0 true false)).errIrq die) ∧
          ∀ b, exec (wr b) s = .next (s.errIrq die)) ∧
        (keyLoaded s die key = true →
          (bias = 3 ∨ (bias = 2 ∧ flushDue s ln = true) ∨ ¬turn → exec rd s = .next s ∧ exec (wr false) s = .next s) ∧
          (pinFree s ln = false → exec rd s = .next s) ∧
          (scaleReady s ln = false →
            (bias ≤ 1 → turn → pinFree s ln = true → exec rd s = .next (scaleAsk s ln)) ∧
            exec (wr true) s = .next (scaleAsk s ln)) ∧
          (scaleReady s ln = true → drainSources s ln none = some s1 → pinFree s1 ln = false →
            exec rd s = .next s) ∧
          (scaleReady s ln = true → (bias = 0 ∨ (bias = 2 ∧ flushDue s ln = false)) → drainSources s ln none = some s1 →
            (turn → pinFree s ln = true → pinFree s1 ln = true →
              exec rd s = .next (match homeRead (homeServed s1 agentHost ln) ln key 0 with
              | some (t, l) => replies t (.line l false false)
              | none => (replies s1 (.line 0 true false)).errIrq die)) ∧
            (∀ b, (b = true ∨ turn) → homeWrite s1 agentHost ln mask data key 0 = some s2 →
              exec (wr b) s = .next (replies s2 .written))) ∧
          (scaleReady s ln = true → bias = 1 → drainSources s ln none = some s1 →
            (turn → pinFree s ln = true → pinFree s1 ln = true →
              exec rd s = .next (match homeRead (homeServed s1 agentHost ln) ln key 0 with
              | some (t, l) => replies (t.yieldL2 ln) (.line l false true)
              | none => (replies s1 (.line 0 true false)).errIrq die)) ∧
            (∀ b, (b = true ∨ turn) → homeWrite s1 agentHost ln mask data key 0 = some s2 →
              exec (wr b) s = .next (replies (s2.yieldL2 ln) .written)))))

/-- R397 to R401, R403, R404: bias flips. A flip starts where tracking is on, the device is bound and the page has the other
bias, and else reports 2, 3 or 4. To host bias it ends once the die's copies are written back and nothing of the page is
pinned, and waits in its step 1 meanwhile; to device bias once the host has answered for every line, or for 2^24 cycles has
not. An answer ends the snoop of its line; the last one that a die reset waits for lets the reset act (R415). That a reset
waits so for its host-biased pages is the model's reading (log entry 93). -/
def Obligations.BiasFlips : Prop :=
  ∀ (die line : Nat) (s s1 : State),
    let c := (s.ld die).biasCmd
    let page := diePage die (bitsN c.toNat 23 0)
    let toHost := c.getLsbD 40
    let ends (u : State) (st : Nat) : State := (u.updLd die fun l => { l with
      flip := none, biasCmd := setField (setField l.biasCmd 63 63 0) 55 48 st }).irq die 1
    (biasOn s die = false → startFlip s die = ends s 2) ∧
    (biasOn s die = true → (s.ld die).port = none → startFlip s die = ends s 3) ∧
    (biasOn s die = true → (s.ld die).port ≠ none →
      (toHost = decide (Map.getD s.mem.bias page 0 = 1) → startFlip s die = ends s 4) ∧
      (toHost ≠ decide (Map.getD s.mem.bias page 0 = 1) → ∃ f, ((startFlip s die).ld die).flip = some f ∧ f.page = page ∧
        f.toHost = toHost ∧ (∀ n, n ∈ f.lines ↔ toHost = false ∧ n / 64 = page) ∧
        ((startFlip s die).ld die).biasCmd.getLsbD 63 = true ∧
        Map.get (startFlip s die).mem.bias page = some (if toHost then 2 else 3))) ∧
    (∀ f, (s.ld die).flip = some f →
      (f.toHost = true → flushPage s die f.page = some s1 →
        (∀ n ∈ pageLines f.page, (s1.home n).pins = [] ∧ (s1.home n).held = []) →
        exec (.biasFlipComplete die) s = .next (ends (setBias (putTableBit
          ((pageLines f.page).foldl (fun u n => u.dropL2 n) s1) die (f.page % 2 ^ 24) true) f.page 1) 0)) ∧
      (f.toHost = true → flushPage s die f.page = some s1 →
        (∃ n ∈ pageLines f.page, (s1.home n).pins ≠ [] ∨ (s1.home n).held ≠ []) →
        exec (.biasFlipComplete die) s = .next (s1.updLd die fun l => { l with flip := some { f with step := 1 } })) ∧
      (f.toHost = false → f.lines = [] → exec (.biasFlipComplete die) s =
        .next (ends (setBias (putTableBit s die (f.page % 2 ^ 24) false) f.page 0) 0)) ∧
      (f.toHost = false → f.lines ≠ [] → exec (.biasFlipComplete die) s = .next s)) ∧
    (let d := lineDie line
     let settled (u : State) : State := match (u.ld d).ending with
       | some e => if e.lines = [] then endReset u d e.after else u
       | none => u
     exec (.birsp line) s = .next (settled (answerLine s d line)) ∧
     (∀ e, (s.ld d).ending = some e → ((answerLine s d line).ld d).ending = some { e with lines := e.lines.filter (· ≠ line) }) ∧
     (∀ f, (s.ld d).flip = some f → ∃ g, ((answerLine s d line).ld d).flip = some g ∧ g.lines = f.lines.filter (· ≠ line)) ∧
     (∀ inv, (s.home line).snoop = .sent inv → ((answerLine s d line).home line).snoop = .answered inv) ∧
     ∀ c, ((∃ f, (s.ld d).flip = some f ∧ line ∈ f.lines ∧ c = f.since) ∨
           ((∀ f, (s.ld d).flip = some f → line ∉ f.lines) ∧ ∃ e, (s.ld d).ending = some e ∧ line ∈ e.lines ∧ c = e.since) ∨
           ((∀ f, (s.ld d).flip = some f → line ∉ f.lines) ∧ (∀ e, (s.ld d).ending = some e → line ∉ e.lines) ∧
             Map.get (s.ld d).asked line = some c)) → c + 2 ^ 24 ≤ s.cycle →
       exec (.bisnpTimeout line) s = .next (settled ((answerLine s d line).errIrq d)))

/-- R393, R406, R412 to R415: bring-up, binding and resets. A die reset flips the die's host-biased pages to device bias
first, which waits for the bound host (log entry 93), and then empties the die's queues and keys and leaves its front end Ready;
STOP_INTERFACE does so and unlocks. FLR and a change of binding of a locked interface are also TDISP errors (from any state, and
of a locked one, as the model reads R406, log entry 113). A hot reset of a link lets flips on it complete and brings it back (log entry 99).
A cold reset brings up every
die under an image that passes, and recovery otherwise; that memory is then empty is the model's choice (logs 8, 95). -/
def Claims.BringUpAndResets : Prop :=
  (∀ (die port : Nat) (s : State), die < 16 → s.host.phase = 1 →
    let locked := (s.ld die).tdi = .locked ∨ (s.ld die).tdi = .run
    (exec (.dieReset die) s = .next (resetDie s die .plain) ∧
      ((s.ld die).flip = none → (s.ld die).ending = none → ∀ after,
        (((s.ld die).port = none ∨ s.hostPages die = []) → resetDie s die after = endReset s die after) ∧
        ((s.ld die).port ≠ none → s.hostPages die ≠ [] → let t := resetDie s die after
          (∃ e, (t.ld die).ending = some e ∧ e.after = after ∧ e.since = s.cycle ∧
            ∀ n, n ∈ e.lines ↔ n / 64 ∈ s.hostPages die) ∧
          (∀ p ∈ s.hostPages die, Map.get t.mem.bias p = some 3) ∧ feRuns t die = false)) ∧
      (∀ after, (endReset s die after).dieIsReset die) ∧
      ((endReset s die .plain).fe die).st = (if usableQuads (endReset s die .plain) die = [] then 2 else 1) ∧
      ((endReset s die .failed).fe die).st = 2 ∧
      let u := endReset s die .stop
      (u.ld die).tdi = .unlocked ∧ (u.ld die).session = none ∧ .stopped ∈ u.host.answers) ∧
    (exec (.flr die) s = .next (tdiError s die) ∧ ((tdiError s die).ld die).tdi = .error ∧
      (die, 2) ∈ (tdiError s die).irqs) ∧
    (port < 2 → (s.ld die).port = none → ∃ t, exec (.bind die port) s = .next t ∧ (t.ld die).port = some port ∧
      (locked → (t.ld die).tdi = .error) ∧ (¬ locked → t = s.setLd die { s.ld die with port := some port })) ∧
    ((s.ld die).port ≠ none → ∃ t, exec (.unbind die) s = .next t ∧ (t.ld die).port = none ∧
      ∀ q, q < 64 → t.queue (die * 64 + q) = Queue.reset)) ∧
  (∀ (port : Nat) (s : State), port < 2 → ∃ u : State, exec (.linkHotReset port) s = .next ((List.range 16).foldl settleReset u) ∧
    u.spdm = { s.spdm with down := s.spdm.down.filter (· ≠ port) } ∧
    (∀ p ∈ u.lds, p.2.port = some port →
      (∀ f, p.2.flip = some f → f.lines = []) ∧ ∀ e, p.2.ending = some e → e.lines = []) ∧
    ∀ (v : State) (d : Nat), settleReset v d = match (v.ld d).ending with
      | some e => if e.lines = [] then endReset v d e.after else v
      | none => v) ∧
  (∀ s : State, let h := s.host
    let ok := h.image.2.1 = true ∧ h.minSvn ≤ h.image.2.2
    ∃ t, exec .coldReset s = .next t ∧ t.mem = State.reset.mem ∧ t.fibres = State.reset.fibres ∧ t.queues = [] ∧
      t.host.image = h.image ∧ t.host.minSvn = h.minSvn ∧ (ok → t.host.phase = 1 ∧ ∀ d, d < 16 → (t.fe d).st = 1) ∧
      (¬ ok → t.host.phase = 2 ∧ ∀ d, (t.fe d).st = 0)) ∧
  ∀ (s : State) (image svn : Nat) (passes : Bool),
    (s.host.phase = 2 → passes = true → s.host.minSvn ≤ svn → exec (.recoveryVerify image passes svn) s =
      exec .coldReset (s.updHost fun h => { h with image := (image, passes, svn) })) ∧
    ((passes = false ∨ svn < s.host.minSvn) → exec (.recoveryVerify image passes svn) s = .next s) ∧
    (s.host.phase = 1 → s.host.minSvn < s.host.image.2.2 →
      exec .svnRaise s = .next (s.updHost fun h => { h with minSvn := h.image.2.2 }))

/-- R408 to R411, R406: the security processor. A request that comes before the connection has come so far answers Error;
otherwise each has its effect: the connection advances, a session opens, establishes and ends, keys are loaded, an
interface is locked, run and stopped. What needs a session answers Error outside one; a key is loaded by the session that
locked the interface. The order of the requests, the opaque digests and signatures and whose session is an interface's own are
the model's choice (log entries 49, 50 and 143). -/
def Obligations.SecurityProcessor : Prop :=
  ∀ (s : State) (id die : Nat), s.host.phase = 1 → die < 16 →
    let replies (u : State) (a : Answer) : State := u.updHost fun h => { h with answers := h.answers ++ [a] }
    let needs (n : Nat) (i : Instr) (u : State) : Prop :=
      exec i s = .next (if s.spdm.stage < n then replies s .error else u)
    let atStage (n : Nat) : State := { s with spdm := { s.spdm with stage := n } }
    let img := s.host.image.1
    let key := s.host.idKey.getD 0
    let sign (request nonce : Nat) : BitVec 3072 := Config.signature s.host.secret img request nonce
    let block (i : Nat) : Nat × BitVec 256 :=
      (i, if i = 1 then Config.bootRom else Config.digest (if i = 5 then s.host.image.2.2 else img) i)
    let within (i : Instr) (u : State) : Prop :=
      needs 3 i (if (id, true) ∈ s.spdm.sessions then u else replies s .error)
    let tdi := (s.ld die).tdi
    let slot (n m : Nat) : State := s.updMem fun x => { x with slots := Map.put x.slots (die * 64 + n) m }
    needs 0 .getVersion (replies (atStage 1) .version) ∧ needs 1 .getCapabilities (replies (atStage 2) .capabilities) ∧
    (∀ b, needs 2 (.negotiateAlgorithms b) (if b then replies (atStage 3) .algorithms else replies s .error)) ∧
    needs 3 .getDigests (replies s (.digests (Config.chainDigest key))) ∧
    (∀ n, needs 3 (.getCertificate n) (replies s (if n = 0 then .certificate key else .error))) ∧
    (∀ n nonce, needs 3 (.challenge n nonce) (replies s (if n = 0 then .challenge (sign 0 nonce) else .error))) ∧
    (∀ n signed nonce, let sig := if signed then some (sign n nonce) else none
      needs 3 (.getMeasurements n signed nonce) (replies s (if n = 255 then .measurements ([1, 2, 3, 4, 5].map block) sig
        else if 1 ≤ n ∧ n ≤ 5 then .measurements [block n] sig else .error))) ∧
    needs 3 (.keyExchange id) (if ∃ p ∈ s.spdm.sessions, p.1 = id then replies s .error else
      { replies s (.session id) with spdm := { s.spdm with sessions := s.spdm.sessions ++ [(id, false)] } }) ∧
    needs 3 (.finish id) (if (id, false) ∈ s.spdm.sessions then { replies s .finished with
      spdm := { s.spdm with sessions := s.spdm.sessions.map fun p => if p.1 = id then (id, true) else p } } else replies s .error) ∧
    needs 3 (.endSession id) (if ∃ p ∈ s.spdm.sessions, p.1 = id then { replies s .ended with
      spdm := { s.spdm with sessions := s.spdm.sessions.filter fun p => p.1 ≠ id },
      lds := Map.mapVals (fun l => if l.session = some id then { l with session := none } else l) s.lds }
      else replies s .error) ∧
    (∀ n m dflt, within (.keyLoad id die n m dflt) (if (tdi = .locked ∨ tdi = .run) ∧ n ≠ 0 ∧ n ≤ 63 ∧
        (s.ld die).session = some id then
      replies (if dflt = true ∧ tdi = .run then (slot n (2 * m + 1)).updLd die fun l => { l with hostKey := n }
        else slot n (2 * m + 1)) .keyLoaded else replies s .error)) ∧
    (∀ n, exec (.driverKeyRequest die n) s = .next (if tdi = .unlocked ∧ n ≠ 0 ∧ n ≤ 63 then
      replies { slot n (2 * s.nextId) with nextId := s.nextId + 1 } .keyLoaded else replies s .error)) ∧
    (∀ stream set, streamOk stream = true → set ≤ 1 → within (.ideKmKeyProg id stream set) { replies s .keyProg with
      spdm := { s.spdm with keys := Map.put s.spdm.keys stream (setBitsN (Map.getD s.spdm.keys stream 0) set 1 1) } }) ∧
    (∀ stream set, within (.kSetGo id stream set) (if Map.getD s.spdm.keys stream 0 / 2 ^ set % 2 = 1 then
      { replies s .keyGo with spdm := { s.spdm with inUse := Map.put s.spdm.inUse stream set } } else replies s .error)) ∧
    within (.lockInterface id die) (if tdi = .unlocked then replies (s.updLd die fun l => { l with tdi := .locked, session := some id }) .locked
      else replies s .error) ∧
    within (.startInterface id die) (if tdi = .locked then replies (s.updLd die fun l => { l with tdi := .run }) .started
      else replies s .error) ∧
    within (.stopInterface id die) (resetDie s die .stop) ∧
    within (.getInterfaceReport id die) (replies s (if tdi = .locked ∨ tdi = .run then
      .report (s.ld die).bar 0x10000000 ((s.ld die).hdm.map (64 * ·)) 0x1000000000 else .error))

/-- R3, R410, R416, R417: an IDE integrity failure takes its link down and every interface that uses the stream to ERROR. The
clock moves to the highest step of 25 MHz between 600 and 1,200 that the thermal limits allow and whose power, which is an input,
is within the limit, and to 600 where none is; at most once in 10 µs (log entry 119). A
thermal trip powers the package off: every step
then faults but a cold reset. -/
def Claims.LinkClockPower : Prop :=
  (∀ (stream : Nat) (s : State), streamOk stream = true → Map.has s.spdm.inUse stream = true →
    let u := ((List.range 16).filter fun d => decide ((s.ld d).port = some (stream / 32)) &&
      (decide (stream % 32 = 0) || decide (stream % 32 = d + 1))).foldl tdiError s
    exec (.ideIntegrityFailure stream) s = .next { u with spdm := { u.spdm with down := insNat (stream / 32) u.spdm.down } }) ∧
  (∀ (mhz watts : Nat) (s : State),
    let h := s.host
    let soon : Prop := ∃ n, h.stepNs = some n ∧ s.timeNs.toNat < n + 10000
    let fits (m : Nat) : Prop := m % 25 = 0 ∧ 600 ≤ m ∧ m ≤ 1200 ∧ m ≤ h.thermal ∧ h.power.getD ((m - 600) / 25) 0 ≤ h.limit
    let highest (m : Nat) : Prop := (fits m ∧ ∀ n, fits n → n ≤ m) ∨ ((∀ n, ¬fits n) ∧ m = 600)
    (highest mhz → ¬soon ∨ mhz = h.mhz → exec (.clockStep mhz watts) s = .next (s.updHost fun h => { h with
      mhz := mhz, watts := watts % 65536, stepNs := if mhz = h.mhz then h.stepNs else some s.timeNs.toNat })) ∧
    (¬(highest mhz ∧ (¬soon ∨ mhz = h.mhz)) → exec (.clockStep mhz watts) s = .next s) ∧
    (¬soon → highest (holdStep s).host.mhz) ∧ (soon → holdStep s = s) ∧
    ∀ cycles ns, ∃ u, tick cycles ns s = holdStep u) ∧
  (∀ s : State, exec .thermalTrip s = .next (s.updHost fun h => { h with phase := 3 })) ∧
  ∀ s : State, s.host.phase = 3 →
    ((∀ rest, s.agenda ≠ .event .coldReset :: rest) → step s = .fault .poweredOff) ∧
    ∀ rest, s.agenda = .event .coldReset :: rest → ∃ t, exec .coldReset { s with agenda := rest } = .next t ∧
      step s = .next (endTurn t)

/-- R393, R406, R410 to R417: bring-up, resets, links, clock and power. -/
def Obligations.ResetsClockPower : Prop := Claims.BringUpAndResets ∧ Claims.LinkClockPower

/-! ### Caches -/

/-- R95, R363, R419: a page walk leaves in the walker cache what it read. A register line that the image holds and the cache
does not comes to the cache, with the image's words in its live fibres where the line can be read at its home, and lost in its
eight lanes where it cannot. An instruction block enters the cache, or is noted as unreadable. -/
def Claims.CacheFills : Prop :=
  (∀ (die asid : Nat) (va : W64) (s : State), (canonical va = true → exec (.pageWalk die asid va) s =
      .next (walk s die asid va.toNat).1) ∧
    (canonical va = false → exec (.pageWalk die asid va) s = .next s)) ∧
  (∀ (band slice reg : Nat) (s : State),
    let w := s.wg (band / 32)
    let c := (s.band band).core
    let key := regKey band slice reg
    let pa := regLineAddr w band slice reg
    band % 32 < w.nbands → slice < 4 → reg ≠ 0 → reg < w.xregs → reg < 128 → (s.gang w.gang).suspended = false →
      (s.band band).isOut key = true → (∀ p ∈ (s.core c).rlines, p.1 ≠ key) → (s.core c).rlines.length < 8192 →
      ∃ t, exec (.registerLineFill band slice reg) s = .next t ∧ (key, false) ∈ (t.core c).rlines ∧
        (t.band band).isOut key = false ∧
        let s0 := s.clearOut key
        let inLine (k : Nat) : Prop := band * 32 + 8 * slice ≤ k ∧ k < band * 32 + 8 * slice + 8
        (∀ k, ¬inLine k → t.fib k = s.fib k) ∧
        (homeGet s0 pa 32 w.kid 0 = none → ∀ k, inLine k → (s.fib k).status ≠ .exited →
          t.fib k = { s.fib k with lost := insNat reg (s.fib k).lost }) ∧
        ∀ u v, homeGet s0 pa 32 w.kid 0 = some (u, v) → u.fibres = s.fibres → ∀ k, inLine k → (s.fib k).status ≠ .exited →
          t.rx (.fib k) reg = BitVec.ofNat 32 (v / 2 ^ (32 * (k % 8)))) ∧
  ∀ (ic pa key cmps : Nat) (s : State),
    let die := icDie ic
    isLocal die pa = true → heldBlock s ic pa = none →
      (homeReady s (pa / 64) .read = true → exec (.instructionCacheFill ic pa key cmps) s =
        .next (match homeRead (homeUse s (pa / 64)) (pa / 64) key cmps with
          | some (s1, l) => keepBlock s1 ic pa (blockOf l pa)
          | none => { s with fetchBad := s.fetchBad ++ [(ic, pa / 32, 0x13)] })) ∧
      (homeReady s (pa / 64) .read = false → exec (.instructionCacheFill ic pa key cmps) s =
        .next (homeAsk s (pa / 64) .read))

/-- R95, R163 to R169, R363, R419: coherence events and fills. -/
def Obligations.CoherenceAndFills : Prop := Claims.CoherenceEvents ∧ Claims.CacheFills

/-! ### The machine -/

/-- R33, R36, R40: decode and encode agree: every well-formed instruction, with every operand its encoding admits, decodes
from its own words on the engine it is well-formed for. -/
def Obligations.DecodeOfEncode : Prop :=
  ∀ (e : EngineKind) (lim : Nat) (i : Instr) (w : W128), i.wfOn e lim = true → encode i = some w →
    decodeWord e lim w = .ok i

/-- R33, R34, R36, R40, R47: the other way: what decodes is well-formed on its engine, and its words are those of the
instruction, no bit of its length dropped. -/
def Obligations.EncodeOfDecode : Prop :=
  ∀ (e : EngineKind) (lim : Nat) (w : W128) (i : Instr), decodeWord e lim w = .ok i →
    i.wfOn e lim = true ∧ lenCode w ≤ 2 ∧ encode i = some (w &&& BitVec.ofNat 128 (2 ^ (64 + 32 * lenCode w) - 1))

/-- R36, R40, R49, R191: words written out from the spec's encodings decode to the instructions they stand for. -/
def Obligations.DecodeWords : Prop :=
  let z : Fields := ⟨false, 0, false, 0, 0, 0, 0, 0, 0⟩
  decodeWord .v 128 0x0000000800013F00#128 = .ok (.srd { z with pg := 7, d := 2, b := 0x40 }) ∧
  decodeWord .v 128 0x0000000000003F10#128 = .ok (.rft { z with pg := 7 }) ∧
  decodeWord .v 128 0x0000000000003B78#128 = .ok (.brk { z with pg := 7 }) ∧
  decodeWord .v 128 0xFFFFFFFB000010000100B8D1#128 = .ok (.cmp96 { z with pg := 7, d := 1, a := 4, sub := 2 } 0xFFFFFFFB#32)

/-- R181, R34: a step runs the decoded instruction. Where no turn is scheduled, the focus engine may issue, the block at its
PC is fetched and the word there decodes to an instruction that nothing delays, the step is that instruction's own effect
on the state with its write-set and its registers in the register cache, followed by what ends every issue: where the
instruction has issued, and not only waited, the band's counts and a debugger's step (R185, R210). A fault or a refusal is the
instruction's. -/
def Claims.StepRuns : Prop :=
  ∀ (s s1 : State) (t : Thr) (v : BitVec 256) (i : Instr), s.agenda = [] → s.host.phase ≠ 3 → s.mayIssue = true →
    preceded s = false → stepGone (takeDue s) = false →
    let u := (takeDue s).pickBatch
    let pc := u.pcOf t
    let w : W128 := (v >>> (8 * (pc.toNat % 32))).setWidth 128
    let p := partsOfWord w
    let ws := if s1.atSwitch p then 0 else s1.wset
    let s2 := bringParts (s1.setRun (nextWset ws p) false) p
    u.headThr = some t → pc.toNat % 4 = 0 → fetchBlock u t pc = (s1, .block v) →
    pc.toNat % 32 + instrBytes (lenCode w) ≤ 32 → decodeWord s1.focus.kind s1.regLimit w = .ok i →
    runChecks s1 t p = none →
    (∀ x ∈ s1.threads, stalled s1 p x = false) →
    (∀ x ∈ s1.active p.f, acqOpen s1 p x = false ∧ markCause s2 p x = none) →
    (∀ x ∈ closerThreads s1 p, closerWaits s1 p x = false) →
    hazard ws p = none → s2.threads ≠ [] →
      step s = match exec i s2 with
        | .next s3 => .next (afterIssue i s2 s3)
        | .fault r => .fault r
        | .refused r => .refused r

/-- R48, R34, R45: what does not decode, or breaks the run rule, traps in every thread of its batch, whatever its guard; a
switch point that an `S` = 1 instruction forms is taken first. That a RunHazard is raised also where the guard is false is
the model's choice (log entry 126). -/
def Claims.IssueTraps : Prop :=
  ∀ (s s1 : State) (t : Thr) (v : BitVec 256), s.agenda = [] → s.host.phase ≠ 3 → s.mayIssue = true →
    preceded s = false → stepGone (takeDue s) = false →
    let u := (takeDue s).pickBatch
    let pc := u.pcOf t
    let w : W128 := (v >>> (8 * (pc.toNat % 32))).setWidth 128
    let p := partsOfWord w
    let traps (u : State) (c : Cause) : Prop :=
      let v := raiseAll u fun _ => c
      step s = .next (endTurn (endStep (noteIssue v v)))
    let at1 := if p.f.sw then s1.setRun 0 false else s1
    u.headThr = some t →
      (pc.toNat % 4 ≠ 0 → traps u (precise 1 2 0 pc)) ∧
      (∀ c, pc.toNat % 4 = 0 → fetchBlock u t pc = (s1, .fault c) → traps s1 c) ∧
      (pc.toNat % 4 = 0 → fetchBlock u t pc = (s1, .wait) → step s = .next (endTurn s1)) ∧
      (pc.toNat % 4 = 0 → fetchBlock u t pc = (s1, .block v) →
        (lenCode w = 3 → traps at1 (precise 1 1 0 pc)) ∧
        (lenCode w ≠ 3 → 32 < pc.toNat % 32 + instrBytes (lenCode w) → traps at1 (precise 1 2 0 pc)) ∧
        (lenCode w ≠ 3 → pc.toNat % 32 + instrBytes (lenCode w) ≤ 32 →
          (∀ e, decodeWord s1.focus.kind s1.regLimit w = .error e →
            traps at1 (precise 1 (BitVec.ofNat 32 e.code) 0 pc)) ∧
          ∀ i, decodeWord s1.focus.kind s1.regLimit w = .ok i →
            (∀ c, runChecks s1 t p = some c → traps at1 (precise 1 (BitVec.ofNat 32 c) 0 pc)) ∧
            (runChecks s1 t p = none → (∃ x ∈ s1.threads, stalled s1 p x = true) → step s = .next (endTurn s1)) ∧
            (runChecks s1 t p = none → (∀ x ∈ s1.threads, stalled s1 p x = false) →
              (∀ x ∈ s1.active p.f, acqOpen s1 p x = false) → (∀ x ∈ closerThreads s1 p, closerWaits s1 p x = false) →
              let ws := if s1.atSwitch p then 0 else s1.wset
              ∀ n wr, hazard ws p = some (n, wr) →
                traps (s1.setRun ws false) (precise 2 (BitVec.ofNat 32 (n + if wr then 128 else 0)) 0 pc))))

/-- R34, R45, R48, R181: a step runs the decoded instruction, or traps. Which engine issues is the model's choice (log entry 20). -/
def Obligations.StepDecodesAndTraps : Prop := Claims.StepRuns ∧ Claims.IssueTraps

/-- Every step keeps memory, every gang's local store and its accumulator elements in canonical form: addresses rising, no
byte listed that an unlisted address reads as. -/
def Obligations.StepKeepsMemory : Prop := ∀ s t : State, s.memWf → step s = .next t → t.memWf

/-- The state after reset is canonical; every channel and queue is at rest, the relay mask names all dies (R377), the clock
is 1,200 MHz and the power limit 6,000 W (R416). That memory lists nothing and registers read 0 is the model's choice (log
entries 8 and 18). -/
def Obligations.ResetState : Prop :=
  State.reset.memWf ∧ State.reset.mem.cells = [] ∧ State.reset.cycle = 0 ∧ State.reset.timeNs = 0 ∧
    State.reset.fab.relay = 0xFFFF#16 ∧ State.reset.host.limit = 6000 ∧ State.reset.host.mhz = 1200 ∧
    (∀ t n, State.reset.rx t n = 0) ∧ (∀ k, (State.reset.queue k).ctl = 0) ∧ (∀ d, (State.reset.fe d).st = 0) ∧
    ∀ c, (State.reset.chan c).opened = false

/-- R41: register 0 reads 0 and discards writes; p7 reads true and discards writes; a write of another register or
predicate is read back, and changes no other. -/
def Obligations.HardWiredRegisters : Prop :=
  ∀ (s : State) (t : Thr) (n m : Nat) (v : W32) (b : Bool),
    s.rx t 0 = 0 ∧ s.rxp t 0 = 0 ∧ s.rxq t 0 = [0, 0, 0, 0] ∧ s.wx t 0 v = s ∧ s.rp t 7 = true ∧ s.wp t 7 b = s ∧
    (n ≠ 0 → (s.wx t n v).rx t m = if m = n then v else s.rx t m) ∧
    (n < 32 → n ≠ 7 → m < 32 → (s.wp t n b).rp t m = if m = n then b else s.rp t m)

/-- R4, R155: memory by bytes. A byte written is read back, no other byte changes, and the canonical form is kept; a line
is its 64 bytes, lowest address first. -/
def Obligations.MemoryBytes : Prop :=
  ∀ (m : List Host.Cell) (a b n v : Nat) (x : Byte), Memory.wf m = true →
    Memory.wf (writeCell m a x) = true ∧ readCell (writeCell m a x) b = (if b = a then x else readCell m b) ∧
    Memory.wf (writeCells m a v n) = true ∧
    (∀ c, readCell (writeCells m a v n) c =
      if a ≤ c ∧ c < a + n then BitVec.ofNat 8 (v / 2 ^ (8 * (c - a))) else readCell m c) ∧
    readCells (writeCells m a v n) a n = v % 2 ^ (8 * n)
end

