-- ==== Sys2Proof/Laws/Maps.lean ====
section
/-! SUPPORT. Laws of the maps: reading after writing, and the canonical form. -/

namespace Sys2Proof.Machine

-- One proof at a time: a kernel evaluation in each of many threads would exhaust the memory.
set_option Elab.async false

variable {α : Type}

@[simp] theorem Map.get_nil (k : Nat) : Map.get ([] : Map α) k = none := rfl

@[simp] theorem Map.get_put_self (m : Map α) (k : Nat) (v : α) : Map.get (Map.put m k v) k = some v := by
  induction m with
  | nil => simp [Map.put, Map.get]
  | cons p m ih =>
    obtain ⟨j, w⟩ := p
    unfold Map.put
    split
    · simp [Map.get]
    · split
      · simp [Map.get]
      · simp only [Map.get]
        rw [if_neg (by omega), ih]

theorem Map.get_put_of_ne (m : Map α) {k j : Nat} (v : α) (h : j ≠ k) : Map.get (Map.put m k v) j = Map.get m j := by
  induction m with
  | nil => simp [Map.put, Map.get, Ne.symm h]
  | cons p m ih =>
    obtain ⟨i, w⟩ := p
    unfold Map.put
    split
    · simp [Map.get, Ne.symm h]
    · split
      · subst_vars; simp [Map.get, Ne.symm h]
      · simp only [Map.get, ih]

theorem Map.get_put (m : Map α) (k j : Nat) (v : α) :
    Map.get (Map.put m k v) j = if j = k then some v else Map.get m j := by
  split
  · subst_vars; simp
  · exact Map.get_put_of_ne m v ‹_›

theorem Map.getD_put (m : Map α) (k j : Nat) (v d : α) :
    Map.getD (Map.put m k v) j d = if j = k then v else Map.getD m j d := by
  unfold Map.getD; rw [Map.get_put]; split <;> rfl

@[simp] theorem Map.getD_put_self (m : Map α) (k : Nat) (v d : α) : Map.getD (Map.put m k v) k d = v := by
  simp [Map.getD]

theorem Map.getD_put_of_ne (m : Map α) {k j : Nat} (v d : α) (h : j ≠ k) :
    Map.getD (Map.put m k v) j d = Map.getD m j d := by
  unfold Map.getD; rw [Map.get_put_of_ne m v h]

theorem Map.get_del_of_ne (m : Map α) {k j : Nat} (h : j ≠ k) : Map.get (Map.del m k) j = Map.get m j := by
  induction m with
  | nil => rfl
  | cons p m ih =>
    obtain ⟨i, w⟩ := p
    unfold Map.del
    split
    · subst_vars; simp [Map.get, Ne.symm h]
    · simp only [Map.get, ih]

theorem Map.wfFrom_mono {m : Map α} {a b : Nat} (h : a ≤ b) (w : Map.wfFrom b m = true) : Map.wfFrom a m = true := by
  cases m with
  | nil => rfl
  | cons p m =>
    simp only [Map.wfFrom, Bool.and_eq_true, decide_eq_true_eq] at *
    exact ⟨Nat.le_trans h w.1, w.2⟩

theorem Map.get_of_lt {m : Map α} {a k : Nat} (h : k < a) (w : Map.wfFrom a m = true) : Map.get m k = none := by
  induction m generalizing a with
  | nil => rfl
  | cons p m ih =>
    simp only [Map.wfFrom, Bool.and_eq_true, decide_eq_true_eq] at w
    simp only [Map.get]
    rw [if_neg (by omega)]
    exact ih (by omega) w.2

theorem Map.wfFrom_put {m : Map α} {a k : Nat} (v : α) (h : a ≤ k) (w : Map.wfFrom a m = true) :
    Map.wfFrom a (Map.put m k v) = true := by
  induction m generalizing a with
  | nil => simp [Map.put, Map.wfFrom, h]
  | cons p m ih =>
    obtain ⟨j, x⟩ := p
    simp only [Map.wfFrom, Bool.and_eq_true, decide_eq_true_eq] at w
    unfold Map.put
    split
    · simp only [Map.wfFrom, Bool.and_eq_true, decide_eq_true_eq]
      exact ⟨h, by omega, w.2⟩
    · split
      · subst_vars; simp only [Map.wfFrom, Bool.and_eq_true, decide_eq_true_eq]; exact ⟨h, w.2⟩
      · simp only [Map.wfFrom, Bool.and_eq_true, decide_eq_true_eq]
        exact ⟨w.1, ih (by omega) w.2⟩

theorem Map.wfFrom_del {m : Map α} {a k : Nat} (w : Map.wfFrom a m = true) : Map.wfFrom a (Map.del m k) = true := by
  induction m generalizing a with
  | nil => rfl
  | cons p m ih =>
    obtain ⟨j, x⟩ := p
    simp only [Map.wfFrom, Bool.and_eq_true, decide_eq_true_eq] at w
    unfold Map.del
    split
    · exact Map.wfFrom_mono (by omega) w.2
    · simp only [Map.wfFrom, Bool.and_eq_true, decide_eq_true_eq]
      exact ⟨w.1, ih w.2⟩

theorem Map.wf_put {m : Map α} (k : Nat) (v : α) (w : Map.wf m = true) : Map.wf (Map.put m k v) = true :=
  Map.wfFrom_put v (Nat.zero_le k) w

theorem Map.wf_del {m : Map α} (k : Nat) (w : Map.wf m = true) : Map.wf (Map.del m k) = true := Map.wfFrom_del w

theorem Map.get_del_self {m : Map α} {a k : Nat} (w : Map.wfFrom a m = true) : Map.get (Map.del m k) k = none := by
  induction m generalizing a with
  | nil => rfl
  | cons p m ih =>
    obtain ⟨j, x⟩ := p
    simp only [Map.wfFrom, Bool.and_eq_true, decide_eq_true_eq] at w
    unfold Map.del
    split
    · subst_vars; exact Map.get_of_lt (Nat.lt_succ_self _) w.2
    · simp only [Map.get]
      rw [if_neg ‹_›]
      exact ih w.2

theorem Map.wf_upd {m : Map α} (k : Nat) (g : α → α) (w : Map.wf m = true) : Map.wf (Map.upd m k g) = true := by
  unfold Map.upd
  split
  · exact Map.wf_put _ _ w
  · exact w

end Sys2Proof.Machine
end

