-- ==== Sys2Proof/Laws/State.lean ====
section
/-! SUPPORT. One lemma for each field and each update of the state: reading a component after writing it, and every
other field as it was. An update by a function is the write of its value. -/

namespace Sys2Proof.Machine

-- One proof at a time: a kernel evaluation in each of many threads would exhaust the memory.
set_option Elab.async false

theorem State.fib_setFib (s : State) (k : Nat) (x : Fibre) (j : Nat) : (s.setFib k x).fib j = if j = k then x else s.fib j :=
  Map.getD_put s.fibres k j x _
@[simp] theorem State.fib_setFib_self (s : State) (k : Nat) (x : Fibre) : (s.setFib k x).fib k = x := Map.getD_put_self s.fibres k x _
@[simp] theorem State.updFib_eq (s : State) (k : Nat) (f : Fibre → Fibre) : s.updFib k f = s.setFib k (f (s.fib k)) := rfl
@[simp] theorem State.fibres_setFib_eq (s : State) (k : Nat) (x : Fibre) : (s.setFib k x).fibres = Map.put s.fibres k x := rfl
@[simp] theorem State.agenda_setFib (s : State) (k : Nat) (x : Fibre) : (s.setFib k x).agenda = s.agenda := rfl
@[simp] theorem State.focus_setFib (s : State) (k : Nat) (x : Fibre) : (s.setFib k x).focus = s.focus := rfl
@[simp] theorem State.free_setFib (s : State) (k : Nat) (x : Fibre) : (s.setFib k x).free = s.free := rfl
@[simp] theorem State.nextId_setFib (s : State) (k : Nat) (x : Fibre) : (s.setFib k x).nextId = s.nextId := rfl
@[simp] theorem State.cycle_setFib (s : State) (k : Nat) (x : Fibre) : (s.setFib k x).cycle = s.cycle := rfl
@[simp] theorem State.timeNs_setFib (s : State) (k : Nat) (x : Fibre) : (s.setFib k x).timeNs = s.timeNs := rfl
@[simp] theorem State.bands_setFib (s : State) (k : Nat) (x : Fibre) : (s.setFib k x).bands = s.bands := rfl
@[simp] theorem State.wgs_setFib (s : State) (k : Nat) (x : Fibre) : (s.setFib k x).wgs = s.wgs := rfl
@[simp] theorem State.gangs_setFib (s : State) (k : Nat) (x : Fibre) : (s.setFib k x).gangs = s.gangs := rfl
@[simp] theorem State.shares_setFib (s : State) (k : Nat) (x : Fibre) : (s.setFib k x).shares = s.shares := rfl
@[simp] theorem State.mseqs_setFib (s : State) (k : Nat) (x : Fibre) : (s.setFib k x).mseqs = s.mseqs := rfl
@[simp] theorem State.cops_setFib (s : State) (k : Nat) (x : Fibre) : (s.setFib k x).cops = s.cops := rfl
@[simp] theorem State.bars_setFib (s : State) (k : Nat) (x : Fibre) : (s.setFib k x).bars = s.bars := rfl
@[simp] theorem State.dbg_setFib (s : State) (k : Nat) (x : Fibre) : (s.setFib k x).dbg = s.dbg := rfl
@[simp] theorem State.mem_setFib (s : State) (k : Nat) (x : Fibre) : (s.setFib k x).mem = s.mem := rfl
@[simp] theorem State.tus_setFib (s : State) (k : Nat) (x : Fibre) : (s.setFib k x).tus = s.tus := rfl
@[simp] theorem State.cores_setFib (s : State) (k : Nat) (x : Fibre) : (s.setFib k x).cores = s.cores := rfl
@[simp] theorem State.etlb_setFib (s : State) (k : Nat) (x : Fibre) : (s.setFib k x).etlb = s.etlb := rfl
@[simp] theorem State.csmsF_setFib (s : State) (k : Nat) (x : Fibre) : (s.setFib k x).csms = s.csms := rfl
@[simp] theorem State.invs_setFib (s : State) (k : Nat) (x : Fibre) : (s.setFib k x).invs = s.invs := rfl
@[simp] theorem State.irqs_setFib (s : State) (k : Nat) (x : Fibre) : (s.setFib k x).irqs = s.irqs := rfl
@[simp] theorem State.chans_setFib (s : State) (k : Nat) (x : Fibre) : (s.setFib k x).chans = s.chans := rfl
@[simp] theorem State.engs_setFib (s : State) (k : Nat) (x : Fibre) : (s.setFib k x).engs = s.engs := rfl
@[simp] theorem State.fab_setFib (s : State) (k : Nat) (x : Fibre) : (s.setFib k x).fab = s.fab := rfl
@[simp] theorem State.icache_setFib (s : State) (k : Nat) (x : Fibre) : (s.setFib k x).icache = s.icache := rfl
@[simp] theorem State.copyqs_setFib (s : State) (k : Nat) (x : Fibre) : (s.setFib k x).copyqs = s.copyqs := rfl
@[simp] theorem State.ctxs_setFib (s : State) (k : Nat) (x : Fibre) : (s.setFib k x).ctxs = s.ctxs := rfl
@[simp] theorem State.ready_setFib (s : State) (k : Nat) (x : Fibre) : (s.setFib k x).ready = s.ready := rfl
@[simp] theorem State.lastSrc_setFib (s : State) (k : Nat) (x : Fibre) : (s.setFib k x).lastSrc = s.lastSrc := rfl
@[simp] theorem State.moves_setFib (s : State) (k : Nat) (x : Fibre) : (s.setFib k x).moves = s.moves := rfl
@[simp] theorem State.mats_setFib (s : State) (k : Nat) (x : Fibre) : (s.setFib k x).mats = s.mats := rfl
@[simp] theorem State.unserv_setFib (s : State) (k : Nat) (x : Fibre) : (s.setFib k x).unserv = s.unserv := rfl
@[simp] theorem State.nodeDone_setFib (s : State) (k : Nat) (x : Fibre) : (s.setFib k x).nodeDone = s.nodeDone := rfl
@[simp] theorem State.fetchBad_setFib (s : State) (k : Nat) (x : Fibre) : (s.setFib k x).fetchBad = s.fetchBad := rfl
@[simp] theorem State.queues_setFib (s : State) (k : Nat) (x : Fibre) : (s.setFib k x).queues = s.queues := rfl
@[simp] theorem State.graphs_setFib (s : State) (k : Nat) (x : Fibre) : (s.setFib k x).graphs = s.graphs := rfl
@[simp] theorem State.launches_setFib (s : State) (k : Nat) (x : Fibre) : (s.setFib k x).launches = s.launches := rfl
@[simp] theorem State.stages_setFib (s : State) (k : Nat) (x : Fibre) : (s.setFib k x).stages = s.stages := rfl
@[simp] theorem State.fes_setFib (s : State) (k : Nat) (x : Fibre) : (s.setFib k x).fes = s.fes := rfl
@[simp] theorem State.lds_setFib (s : State) (k : Nat) (x : Fibre) : (s.setFib k x).lds = s.lds := rfl
@[simp] theorem State.spdm_setFib (s : State) (k : Nat) (x : Fibre) : (s.setFib k x).spdm = s.spdm := rfl
@[simp] theorem State.host_setFib (s : State) (k : Nat) (x : Fibre) : (s.setFib k x).host = s.host := rfl
@[simp] theorem State.band_setFib (s : State) (k : Nat) (x : Fibre) (j : Nat) : (s.setFib k x).band j = s.band j := rfl
@[simp] theorem State.wg_setFib (s : State) (k : Nat) (x : Fibre) (j : Nat) : (s.setFib k x).wg j = s.wg j := rfl
@[simp] theorem State.gang_setFib (s : State) (k : Nat) (x : Fibre) (j : Nat) : (s.setFib k x).gang j = s.gang j := rfl
@[simp] theorem State.share_setFib (s : State) (k : Nat) (x : Fibre) (j : Nat) : (s.setFib k x).share j = s.share j := rfl
@[simp] theorem State.mseq_setFib (s : State) (k : Nat) (x : Fibre) (j : Nat) : (s.setFib k x).mseq j = s.mseq j := rfl
@[simp] theorem State.cop_setFib (s : State) (k : Nat) (x : Fibre) (j : Nat) : (s.setFib k x).cop j = s.cop j := rfl
@[simp] theorem State.mat_setFib (s : State) (k : Nat) (x : Fibre) (j : Nat) : (s.setFib k x).mat j = s.mat j := rfl
@[simp] theorem State.chan_setFib (s : State) (k : Nat) (x : Fibre) (j : Nat) : (s.setFib k x).chan j = s.chan j := rfl
@[simp] theorem State.eng_setFib (s : State) (k : Nat) (x : Fibre) (j : Nat) : (s.setFib k x).eng j = s.eng j := rfl
@[simp] theorem State.csm_setFib (s : State) (k : Nat) (x : Fibre) (j : Nat) : (s.setFib k x).csm j = s.csm j := rfl
@[simp] theorem State.queue_setFib (s : State) (k : Nat) (x : Fibre) (j : Nat) : (s.setFib k x).queue j = s.queue j := rfl
@[simp] theorem State.graph_setFib (s : State) (k : Nat) (x : Fibre) (j : Nat) : (s.setFib k x).graph j = s.graph j := rfl
@[simp] theorem State.fe_setFib (s : State) (k : Nat) (x : Fibre) (j : Nat) : (s.setFib k x).fe j = s.fe j := rfl
@[simp] theorem State.ld_setFib (s : State) (k : Nat) (x : Fibre) (j : Nat) : (s.setFib k x).ld j = s.ld j := rfl
@[simp] theorem State.stage_setFib (s : State) (k : Nat) (x : Fibre) (j : Nat) : (s.setFib k x).stage j = s.stage j := rfl
@[simp] theorem State.core_setFib (s : State) (k : Nat) (x : Fibre) (j : Nat) : (s.setFib k x).core j = s.core j := rfl
@[simp] theorem State.tu_setFib (s : State) (k : Nat) (x : Fibre) (j : Nat) : (s.setFib k x).tu j = s.tu j := rfl
@[simp] theorem State.home_setFib (s : State) (k : Nat) (x : Fibre) (j : Nat) : (s.setFib k x).home j = s.home j := rfl
@[simp] theorem State.launch_setFib (s : State) (k : Nat) (x : Fibre) (j : Nat) : (s.setFib k x).launch j = s.launch j := rfl

theorem State.band_setBand (s : State) (k : Nat) (x : Band) (j : Nat) : (s.setBand k x).band j = if j = k then x else s.band j :=
  Map.getD_put s.bands k j x _
@[simp] theorem State.band_setBand_self (s : State) (k : Nat) (x : Band) : (s.setBand k x).band k = x := Map.getD_put_self s.bands k x _
@[simp] theorem State.updBand_eq (s : State) (k : Nat) (f : Band → Band) : s.updBand k f = s.setBand k (f (s.band k)) := rfl
@[simp] theorem State.bands_setBand_eq (s : State) (k : Nat) (x : Band) : (s.setBand k x).bands = Map.put s.bands k x := rfl
@[simp] theorem State.agenda_setBand (s : State) (k : Nat) (x : Band) : (s.setBand k x).agenda = s.agenda := rfl
@[simp] theorem State.focus_setBand (s : State) (k : Nat) (x : Band) : (s.setBand k x).focus = s.focus := rfl
@[simp] theorem State.free_setBand (s : State) (k : Nat) (x : Band) : (s.setBand k x).free = s.free := rfl
@[simp] theorem State.nextId_setBand (s : State) (k : Nat) (x : Band) : (s.setBand k x).nextId = s.nextId := rfl
@[simp] theorem State.cycle_setBand (s : State) (k : Nat) (x : Band) : (s.setBand k x).cycle = s.cycle := rfl
@[simp] theorem State.timeNs_setBand (s : State) (k : Nat) (x : Band) : (s.setBand k x).timeNs = s.timeNs := rfl
@[simp] theorem State.fibres_setBand (s : State) (k : Nat) (x : Band) : (s.setBand k x).fibres = s.fibres := rfl
@[simp] theorem State.wgs_setBand (s : State) (k : Nat) (x : Band) : (s.setBand k x).wgs = s.wgs := rfl
@[simp] theorem State.gangs_setBand (s : State) (k : Nat) (x : Band) : (s.setBand k x).gangs = s.gangs := rfl
@[simp] theorem State.shares_setBand (s : State) (k : Nat) (x : Band) : (s.setBand k x).shares = s.shares := rfl
@[simp] theorem State.mseqs_setBand (s : State) (k : Nat) (x : Band) : (s.setBand k x).mseqs = s.mseqs := rfl
@[simp] theorem State.cops_setBand (s : State) (k : Nat) (x : Band) : (s.setBand k x).cops = s.cops := rfl
@[simp] theorem State.bars_setBand (s : State) (k : Nat) (x : Band) : (s.setBand k x).bars = s.bars := rfl
@[simp] theorem State.dbg_setBand (s : State) (k : Nat) (x : Band) : (s.setBand k x).dbg = s.dbg := rfl
@[simp] theorem State.mem_setBand (s : State) (k : Nat) (x : Band) : (s.setBand k x).mem = s.mem := rfl
@[simp] theorem State.tus_setBand (s : State) (k : Nat) (x : Band) : (s.setBand k x).tus = s.tus := rfl
@[simp] theorem State.cores_setBand (s : State) (k : Nat) (x : Band) : (s.setBand k x).cores = s.cores := rfl
@[simp] theorem State.etlb_setBand (s : State) (k : Nat) (x : Band) : (s.setBand k x).etlb = s.etlb := rfl
@[simp] theorem State.csmsF_setBand (s : State) (k : Nat) (x : Band) : (s.setBand k x).csms = s.csms := rfl
@[simp] theorem State.invs_setBand (s : State) (k : Nat) (x : Band) : (s.setBand k x).invs = s.invs := rfl
@[simp] theorem State.irqs_setBand (s : State) (k : Nat) (x : Band) : (s.setBand k x).irqs = s.irqs := rfl
@[simp] theorem State.chans_setBand (s : State) (k : Nat) (x : Band) : (s.setBand k x).chans = s.chans := rfl
@[simp] theorem State.engs_setBand (s : State) (k : Nat) (x : Band) : (s.setBand k x).engs = s.engs := rfl
@[simp] theorem State.fab_setBand (s : State) (k : Nat) (x : Band) : (s.setBand k x).fab = s.fab := rfl
@[simp] theorem State.icache_setBand (s : State) (k : Nat) (x : Band) : (s.setBand k x).icache = s.icache := rfl
@[simp] theorem State.copyqs_setBand (s : State) (k : Nat) (x : Band) : (s.setBand k x).copyqs = s.copyqs := rfl
@[simp] theorem State.ctxs_setBand (s : State) (k : Nat) (x : Band) : (s.setBand k x).ctxs = s.ctxs := rfl
@[simp] theorem State.ready_setBand (s : State) (k : Nat) (x : Band) : (s.setBand k x).ready = s.ready := rfl
@[simp] theorem State.lastSrc_setBand (s : State) (k : Nat) (x : Band) : (s.setBand k x).lastSrc = s.lastSrc := rfl
@[simp] theorem State.moves_setBand (s : State) (k : Nat) (x : Band) : (s.setBand k x).moves = s.moves := rfl
@[simp] theorem State.mats_setBand (s : State) (k : Nat) (x : Band) : (s.setBand k x).mats = s.mats := rfl
@[simp] theorem State.unserv_setBand (s : State) (k : Nat) (x : Band) : (s.setBand k x).unserv = s.unserv := rfl
@[simp] theorem State.nodeDone_setBand (s : State) (k : Nat) (x : Band) : (s.setBand k x).nodeDone = s.nodeDone := rfl
@[simp] theorem State.fetchBad_setBand (s : State) (k : Nat) (x : Band) : (s.setBand k x).fetchBad = s.fetchBad := rfl
@[simp] theorem State.queues_setBand (s : State) (k : Nat) (x : Band) : (s.setBand k x).queues = s.queues := rfl
@[simp] theorem State.graphs_setBand (s : State) (k : Nat) (x : Band) : (s.setBand k x).graphs = s.graphs := rfl
@[simp] theorem State.launches_setBand (s : State) (k : Nat) (x : Band) : (s.setBand k x).launches = s.launches := rfl
@[simp] theorem State.stages_setBand (s : State) (k : Nat) (x : Band) : (s.setBand k x).stages = s.stages := rfl
@[simp] theorem State.fes_setBand (s : State) (k : Nat) (x : Band) : (s.setBand k x).fes = s.fes := rfl
@[simp] theorem State.lds_setBand (s : State) (k : Nat) (x : Band) : (s.setBand k x).lds = s.lds := rfl
@[simp] theorem State.spdm_setBand (s : State) (k : Nat) (x : Band) : (s.setBand k x).spdm = s.spdm := rfl
@[simp] theorem State.host_setBand (s : State) (k : Nat) (x : Band) : (s.setBand k x).host = s.host := rfl
@[simp] theorem State.fib_setBand (s : State) (k : Nat) (x : Band) (j : Nat) : (s.setBand k x).fib j = s.fib j := rfl
@[simp] theorem State.wg_setBand (s : State) (k : Nat) (x : Band) (j : Nat) : (s.setBand k x).wg j = s.wg j := rfl
@[simp] theorem State.gang_setBand (s : State) (k : Nat) (x : Band) (j : Nat) : (s.setBand k x).gang j = s.gang j := rfl
@[simp] theorem State.share_setBand (s : State) (k : Nat) (x : Band) (j : Nat) : (s.setBand k x).share j = s.share j := rfl
@[simp] theorem State.mseq_setBand (s : State) (k : Nat) (x : Band) (j : Nat) : (s.setBand k x).mseq j = s.mseq j := rfl
@[simp] theorem State.cop_setBand (s : State) (k : Nat) (x : Band) (j : Nat) : (s.setBand k x).cop j = s.cop j := rfl
@[simp] theorem State.mat_setBand (s : State) (k : Nat) (x : Band) (j : Nat) : (s.setBand k x).mat j = s.mat j := rfl
@[simp] theorem State.chan_setBand (s : State) (k : Nat) (x : Band) (j : Nat) : (s.setBand k x).chan j = s.chan j := rfl
@[simp] theorem State.eng_setBand (s : State) (k : Nat) (x : Band) (j : Nat) : (s.setBand k x).eng j = s.eng j := rfl
@[simp] theorem State.csm_setBand (s : State) (k : Nat) (x : Band) (j : Nat) : (s.setBand k x).csm j = s.csm j := rfl
@[simp] theorem State.queue_setBand (s : State) (k : Nat) (x : Band) (j : Nat) : (s.setBand k x).queue j = s.queue j := rfl
@[simp] theorem State.graph_setBand (s : State) (k : Nat) (x : Band) (j : Nat) : (s.setBand k x).graph j = s.graph j := rfl
@[simp] theorem State.fe_setBand (s : State) (k : Nat) (x : Band) (j : Nat) : (s.setBand k x).fe j = s.fe j := rfl
@[simp] theorem State.ld_setBand (s : State) (k : Nat) (x : Band) (j : Nat) : (s.setBand k x).ld j = s.ld j := rfl
@[simp] theorem State.stage_setBand (s : State) (k : Nat) (x : Band) (j : Nat) : (s.setBand k x).stage j = s.stage j := rfl
@[simp] theorem State.core_setBand (s : State) (k : Nat) (x : Band) (j : Nat) : (s.setBand k x).core j = s.core j := rfl
@[simp] theorem State.tu_setBand (s : State) (k : Nat) (x : Band) (j : Nat) : (s.setBand k x).tu j = s.tu j := rfl
@[simp] theorem State.home_setBand (s : State) (k : Nat) (x : Band) (j : Nat) : (s.setBand k x).home j = s.home j := rfl
@[simp] theorem State.launch_setBand (s : State) (k : Nat) (x : Band) (j : Nat) : (s.setBand k x).launch j = s.launch j := rfl

theorem State.wg_setWg (s : State) (k : Nat) (x : Wg) (j : Nat) : (s.setWg k x).wg j = if j = k then x else s.wg j :=
  Map.getD_put s.wgs k j x _
@[simp] theorem State.wg_setWg_self (s : State) (k : Nat) (x : Wg) : (s.setWg k x).wg k = x := Map.getD_put_self s.wgs k x _
@[simp] theorem State.updWg_eq (s : State) (k : Nat) (f : Wg → Wg) : s.updWg k f = s.setWg k (f (s.wg k)) := rfl
@[simp] theorem State.wgs_setWg_eq (s : State) (k : Nat) (x : Wg) : (s.setWg k x).wgs = Map.put s.wgs k x := rfl
@[simp] theorem State.agenda_setWg (s : State) (k : Nat) (x : Wg) : (s.setWg k x).agenda = s.agenda := rfl
@[simp] theorem State.focus_setWg (s : State) (k : Nat) (x : Wg) : (s.setWg k x).focus = s.focus := rfl
@[simp] theorem State.free_setWg (s : State) (k : Nat) (x : Wg) : (s.setWg k x).free = s.free := rfl
@[simp] theorem State.nextId_setWg (s : State) (k : Nat) (x : Wg) : (s.setWg k x).nextId = s.nextId := rfl
@[simp] theorem State.cycle_setWg (s : State) (k : Nat) (x : Wg) : (s.setWg k x).cycle = s.cycle := rfl
@[simp] theorem State.timeNs_setWg (s : State) (k : Nat) (x : Wg) : (s.setWg k x).timeNs = s.timeNs := rfl
@[simp] theorem State.fibres_setWg (s : State) (k : Nat) (x : Wg) : (s.setWg k x).fibres = s.fibres := rfl
@[simp] theorem State.bands_setWg (s : State) (k : Nat) (x : Wg) : (s.setWg k x).bands = s.bands := rfl
@[simp] theorem State.gangs_setWg (s : State) (k : Nat) (x : Wg) : (s.setWg k x).gangs = s.gangs := rfl
@[simp] theorem State.shares_setWg (s : State) (k : Nat) (x : Wg) : (s.setWg k x).shares = s.shares := rfl
@[simp] theorem State.mseqs_setWg (s : State) (k : Nat) (x : Wg) : (s.setWg k x).mseqs = s.mseqs := rfl
@[simp] theorem State.cops_setWg (s : State) (k : Nat) (x : Wg) : (s.setWg k x).cops = s.cops := rfl
@[simp] theorem State.bars_setWg (s : State) (k : Nat) (x : Wg) : (s.setWg k x).bars = s.bars := rfl
@[simp] theorem State.dbg_setWg (s : State) (k : Nat) (x : Wg) : (s.setWg k x).dbg = s.dbg := rfl
@[simp] theorem State.mem_setWg (s : State) (k : Nat) (x : Wg) : (s.setWg k x).mem = s.mem := rfl
@[simp] theorem State.tus_setWg (s : State) (k : Nat) (x : Wg) : (s.setWg k x).tus = s.tus := rfl
@[simp] theorem State.cores_setWg (s : State) (k : Nat) (x : Wg) : (s.setWg k x).cores = s.cores := rfl
@[simp] theorem State.etlb_setWg (s : State) (k : Nat) (x : Wg) : (s.setWg k x).etlb = s.etlb := rfl
@[simp] theorem State.csmsF_setWg (s : State) (k : Nat) (x : Wg) : (s.setWg k x).csms = s.csms := rfl
@[simp] theorem State.invs_setWg (s : State) (k : Nat) (x : Wg) : (s.setWg k x).invs = s.invs := rfl
@[simp] theorem State.irqs_setWg (s : State) (k : Nat) (x : Wg) : (s.setWg k x).irqs = s.irqs := rfl
@[simp] theorem State.chans_setWg (s : State) (k : Nat) (x : Wg) : (s.setWg k x).chans = s.chans := rfl
@[simp] theorem State.engs_setWg (s : State) (k : Nat) (x : Wg) : (s.setWg k x).engs = s.engs := rfl
@[simp] theorem State.fab_setWg (s : State) (k : Nat) (x : Wg) : (s.setWg k x).fab = s.fab := rfl
@[simp] theorem State.icache_setWg (s : State) (k : Nat) (x : Wg) : (s.setWg k x).icache = s.icache := rfl
@[simp] theorem State.copyqs_setWg (s : State) (k : Nat) (x : Wg) : (s.setWg k x).copyqs = s.copyqs := rfl
@[simp] theorem State.ctxs_setWg (s : State) (k : Nat) (x : Wg) : (s.setWg k x).ctxs = s.ctxs := rfl
@[simp] theorem State.ready_setWg (s : State) (k : Nat) (x : Wg) : (s.setWg k x).ready = s.ready := rfl
@[simp] theorem State.lastSrc_setWg (s : State) (k : Nat) (x : Wg) : (s.setWg k x).lastSrc = s.lastSrc := rfl
@[simp] theorem State.moves_setWg (s : State) (k : Nat) (x : Wg) : (s.setWg k x).moves = s.moves := rfl
@[simp] theorem State.mats_setWg (s : State) (k : Nat) (x : Wg) : (s.setWg k x).mats = s.mats := rfl
@[simp] theorem State.unserv_setWg (s : State) (k : Nat) (x : Wg) : (s.setWg k x).unserv = s.unserv := rfl
@[simp] theorem State.nodeDone_setWg (s : State) (k : Nat) (x : Wg) : (s.setWg k x).nodeDone = s.nodeDone := rfl
@[simp] theorem State.fetchBad_setWg (s : State) (k : Nat) (x : Wg) : (s.setWg k x).fetchBad = s.fetchBad := rfl
@[simp] theorem State.queues_setWg (s : State) (k : Nat) (x : Wg) : (s.setWg k x).queues = s.queues := rfl
@[simp] theorem State.graphs_setWg (s : State) (k : Nat) (x : Wg) : (s.setWg k x).graphs = s.graphs := rfl
@[simp] theorem State.launches_setWg (s : State) (k : Nat) (x : Wg) : (s.setWg k x).launches = s.launches := rfl
@[simp] theorem State.stages_setWg (s : State) (k : Nat) (x : Wg) : (s.setWg k x).stages = s.stages := rfl
@[simp] theorem State.fes_setWg (s : State) (k : Nat) (x : Wg) : (s.setWg k x).fes = s.fes := rfl
@[simp] theorem State.lds_setWg (s : State) (k : Nat) (x : Wg) : (s.setWg k x).lds = s.lds := rfl
@[simp] theorem State.spdm_setWg (s : State) (k : Nat) (x : Wg) : (s.setWg k x).spdm = s.spdm := rfl
@[simp] theorem State.host_setWg (s : State) (k : Nat) (x : Wg) : (s.setWg k x).host = s.host := rfl
@[simp] theorem State.fib_setWg (s : State) (k : Nat) (x : Wg) (j : Nat) : (s.setWg k x).fib j = s.fib j := rfl
@[simp] theorem State.band_setWg (s : State) (k : Nat) (x : Wg) (j : Nat) : (s.setWg k x).band j = s.band j := rfl
@[simp] theorem State.gang_setWg (s : State) (k : Nat) (x : Wg) (j : Nat) : (s.setWg k x).gang j = s.gang j := rfl
@[simp] theorem State.share_setWg (s : State) (k : Nat) (x : Wg) (j : Nat) : (s.setWg k x).share j = s.share j := rfl
@[simp] theorem State.mseq_setWg (s : State) (k : Nat) (x : Wg) (j : Nat) : (s.setWg k x).mseq j = s.mseq j := rfl
@[simp] theorem State.cop_setWg (s : State) (k : Nat) (x : Wg) (j : Nat) : (s.setWg k x).cop j = s.cop j := rfl
@[simp] theorem State.mat_setWg (s : State) (k : Nat) (x : Wg) (j : Nat) : (s.setWg k x).mat j = s.mat j := rfl
@[simp] theorem State.chan_setWg (s : State) (k : Nat) (x : Wg) (j : Nat) : (s.setWg k x).chan j = s.chan j := rfl
@[simp] theorem State.eng_setWg (s : State) (k : Nat) (x : Wg) (j : Nat) : (s.setWg k x).eng j = s.eng j := rfl
@[simp] theorem State.csm_setWg (s : State) (k : Nat) (x : Wg) (j : Nat) : (s.setWg k x).csm j = s.csm j := rfl
@[simp] theorem State.queue_setWg (s : State) (k : Nat) (x : Wg) (j : Nat) : (s.setWg k x).queue j = s.queue j := rfl
@[simp] theorem State.graph_setWg (s : State) (k : Nat) (x : Wg) (j : Nat) : (s.setWg k x).graph j = s.graph j := rfl
@[simp] theorem State.fe_setWg (s : State) (k : Nat) (x : Wg) (j : Nat) : (s.setWg k x).fe j = s.fe j := rfl
@[simp] theorem State.ld_setWg (s : State) (k : Nat) (x : Wg) (j : Nat) : (s.setWg k x).ld j = s.ld j := rfl
@[simp] theorem State.stage_setWg (s : State) (k : Nat) (x : Wg) (j : Nat) : (s.setWg k x).stage j = s.stage j := rfl
@[simp] theorem State.core_setWg (s : State) (k : Nat) (x : Wg) (j : Nat) : (s.setWg k x).core j = s.core j := rfl
@[simp] theorem State.tu_setWg (s : State) (k : Nat) (x : Wg) (j : Nat) : (s.setWg k x).tu j = s.tu j := rfl
@[simp] theorem State.home_setWg (s : State) (k : Nat) (x : Wg) (j : Nat) : (s.setWg k x).home j = s.home j := rfl
@[simp] theorem State.launch_setWg (s : State) (k : Nat) (x : Wg) (j : Nat) : (s.setWg k x).launch j = s.launch j := rfl

theorem State.gang_setGang (s : State) (k : Nat) (x : Gang) (j : Nat) : (s.setGang k x).gang j = if j = k then x else s.gang j :=
  Map.getD_put s.gangs k j x _
@[simp] theorem State.gang_setGang_self (s : State) (k : Nat) (x : Gang) : (s.setGang k x).gang k = x := Map.getD_put_self s.gangs k x _
@[simp] theorem State.updGang_eq (s : State) (k : Nat) (f : Gang → Gang) : s.updGang k f = s.setGang k (f (s.gang k)) := rfl
@[simp] theorem State.gangs_setGang_eq (s : State) (k : Nat) (x : Gang) : (s.setGang k x).gangs = Map.put s.gangs k x := rfl
@[simp] theorem State.agenda_setGang (s : State) (k : Nat) (x : Gang) : (s.setGang k x).agenda = s.agenda := rfl
@[simp] theorem State.focus_setGang (s : State) (k : Nat) (x : Gang) : (s.setGang k x).focus = s.focus := rfl
@[simp] theorem State.free_setGang (s : State) (k : Nat) (x : Gang) : (s.setGang k x).free = s.free := rfl
@[simp] theorem State.nextId_setGang (s : State) (k : Nat) (x : Gang) : (s.setGang k x).nextId = s.nextId := rfl
@[simp] theorem State.cycle_setGang (s : State) (k : Nat) (x : Gang) : (s.setGang k x).cycle = s.cycle := rfl
@[simp] theorem State.timeNs_setGang (s : State) (k : Nat) (x : Gang) : (s.setGang k x).timeNs = s.timeNs := rfl
@[simp] theorem State.fibres_setGang (s : State) (k : Nat) (x : Gang) : (s.setGang k x).fibres = s.fibres := rfl
@[simp] theorem State.bands_setGang (s : State) (k : Nat) (x : Gang) : (s.setGang k x).bands = s.bands := rfl
@[simp] theorem State.wgs_setGang (s : State) (k : Nat) (x : Gang) : (s.setGang k x).wgs = s.wgs := rfl
@[simp] theorem State.shares_setGang (s : State) (k : Nat) (x : Gang) : (s.setGang k x).shares = s.shares := rfl
@[simp] theorem State.mseqs_setGang (s : State) (k : Nat) (x : Gang) : (s.setGang k x).mseqs = s.mseqs := rfl
@[simp] theorem State.cops_setGang (s : State) (k : Nat) (x : Gang) : (s.setGang k x).cops = s.cops := rfl
@[simp] theorem State.bars_setGang (s : State) (k : Nat) (x : Gang) : (s.setGang k x).bars = s.bars := rfl
@[simp] theorem State.dbg_setGang (s : State) (k : Nat) (x : Gang) : (s.setGang k x).dbg = s.dbg := rfl
@[simp] theorem State.mem_setGang (s : State) (k : Nat) (x : Gang) : (s.setGang k x).mem = s.mem := rfl
@[simp] theorem State.tus_setGang (s : State) (k : Nat) (x : Gang) : (s.setGang k x).tus = s.tus := rfl
@[simp] theorem State.cores_setGang (s : State) (k : Nat) (x : Gang) : (s.setGang k x).cores = s.cores := rfl
@[simp] theorem State.etlb_setGang (s : State) (k : Nat) (x : Gang) : (s.setGang k x).etlb = s.etlb := rfl
@[simp] theorem State.csmsF_setGang (s : State) (k : Nat) (x : Gang) : (s.setGang k x).csms = s.csms := rfl
@[simp] theorem State.invs_setGang (s : State) (k : Nat) (x : Gang) : (s.setGang k x).invs = s.invs := rfl
@[simp] theorem State.irqs_setGang (s : State) (k : Nat) (x : Gang) : (s.setGang k x).irqs = s.irqs := rfl
@[simp] theorem State.chans_setGang (s : State) (k : Nat) (x : Gang) : (s.setGang k x).chans = s.chans := rfl
@[simp] theorem State.engs_setGang (s : State) (k : Nat) (x : Gang) : (s.setGang k x).engs = s.engs := rfl
@[simp] theorem State.fab_setGang (s : State) (k : Nat) (x : Gang) : (s.setGang k x).fab = s.fab := rfl
@[simp] theorem State.icache_setGang (s : State) (k : Nat) (x : Gang) : (s.setGang k x).icache = s.icache := rfl
@[simp] theorem State.copyqs_setGang (s : State) (k : Nat) (x : Gang) : (s.setGang k x).copyqs = s.copyqs := rfl
@[simp] theorem State.ctxs_setGang (s : State) (k : Nat) (x : Gang) : (s.setGang k x).ctxs = s.ctxs := rfl
@[simp] theorem State.ready_setGang (s : State) (k : Nat) (x : Gang) : (s.setGang k x).ready = s.ready := rfl
@[simp] theorem State.lastSrc_setGang (s : State) (k : Nat) (x : Gang) : (s.setGang k x).lastSrc = s.lastSrc := rfl
@[simp] theorem State.moves_setGang (s : State) (k : Nat) (x : Gang) : (s.setGang k x).moves = s.moves := rfl
@[simp] theorem State.mats_setGang (s : State) (k : Nat) (x : Gang) : (s.setGang k x).mats = s.mats := rfl
@[simp] theorem State.unserv_setGang (s : State) (k : Nat) (x : Gang) : (s.setGang k x).unserv = s.unserv := rfl
@[simp] theorem State.nodeDone_setGang (s : State) (k : Nat) (x : Gang) : (s.setGang k x).nodeDone = s.nodeDone := rfl
@[simp] theorem State.fetchBad_setGang (s : State) (k : Nat) (x : Gang) : (s.setGang k x).fetchBad = s.fetchBad := rfl
@[simp] theorem State.queues_setGang (s : State) (k : Nat) (x : Gang) : (s.setGang k x).queues = s.queues := rfl
@[simp] theorem State.graphs_setGang (s : State) (k : Nat) (x : Gang) : (s.setGang k x).graphs = s.graphs := rfl
@[simp] theorem State.launches_setGang (s : State) (k : Nat) (x : Gang) : (s.setGang k x).launches = s.launches := rfl
@[simp] theorem State.stages_setGang (s : State) (k : Nat) (x : Gang) : (s.setGang k x).stages = s.stages := rfl
@[simp] theorem State.fes_setGang (s : State) (k : Nat) (x : Gang) : (s.setGang k x).fes = s.fes := rfl
@[simp] theorem State.lds_setGang (s : State) (k : Nat) (x : Gang) : (s.setGang k x).lds = s.lds := rfl
@[simp] theorem State.spdm_setGang (s : State) (k : Nat) (x : Gang) : (s.setGang k x).spdm = s.spdm := rfl
@[simp] theorem State.host_setGang (s : State) (k : Nat) (x : Gang) : (s.setGang k x).host = s.host := rfl
@[simp] theorem State.fib_setGang (s : State) (k : Nat) (x : Gang) (j : Nat) : (s.setGang k x).fib j = s.fib j := rfl
@[simp] theorem State.band_setGang (s : State) (k : Nat) (x : Gang) (j : Nat) : (s.setGang k x).band j = s.band j := rfl
@[simp] theorem State.wg_setGang (s : State) (k : Nat) (x : Gang) (j : Nat) : (s.setGang k x).wg j = s.wg j := rfl
@[simp] theorem State.share_setGang (s : State) (k : Nat) (x : Gang) (j : Nat) : (s.setGang k x).share j = s.share j := rfl
@[simp] theorem State.mseq_setGang (s : State) (k : Nat) (x : Gang) (j : Nat) : (s.setGang k x).mseq j = s.mseq j := rfl
@[simp] theorem State.cop_setGang (s : State) (k : Nat) (x : Gang) (j : Nat) : (s.setGang k x).cop j = s.cop j := rfl
@[simp] theorem State.mat_setGang (s : State) (k : Nat) (x : Gang) (j : Nat) : (s.setGang k x).mat j = s.mat j := rfl
@[simp] theorem State.chan_setGang (s : State) (k : Nat) (x : Gang) (j : Nat) : (s.setGang k x).chan j = s.chan j := rfl
@[simp] theorem State.eng_setGang (s : State) (k : Nat) (x : Gang) (j : Nat) : (s.setGang k x).eng j = s.eng j := rfl
@[simp] theorem State.csm_setGang (s : State) (k : Nat) (x : Gang) (j : Nat) : (s.setGang k x).csm j = s.csm j := rfl
@[simp] theorem State.queue_setGang (s : State) (k : Nat) (x : Gang) (j : Nat) : (s.setGang k x).queue j = s.queue j := rfl
@[simp] theorem State.graph_setGang (s : State) (k : Nat) (x : Gang) (j : Nat) : (s.setGang k x).graph j = s.graph j := rfl
@[simp] theorem State.fe_setGang (s : State) (k : Nat) (x : Gang) (j : Nat) : (s.setGang k x).fe j = s.fe j := rfl
@[simp] theorem State.ld_setGang (s : State) (k : Nat) (x : Gang) (j : Nat) : (s.setGang k x).ld j = s.ld j := rfl
@[simp] theorem State.stage_setGang (s : State) (k : Nat) (x : Gang) (j : Nat) : (s.setGang k x).stage j = s.stage j := rfl
@[simp] theorem State.core_setGang (s : State) (k : Nat) (x : Gang) (j : Nat) : (s.setGang k x).core j = s.core j := rfl
@[simp] theorem State.tu_setGang (s : State) (k : Nat) (x : Gang) (j : Nat) : (s.setGang k x).tu j = s.tu j := rfl
@[simp] theorem State.home_setGang (s : State) (k : Nat) (x : Gang) (j : Nat) : (s.setGang k x).home j = s.home j := rfl
@[simp] theorem State.launch_setGang (s : State) (k : Nat) (x : Gang) (j : Nat) : (s.setGang k x).launch j = s.launch j := rfl

theorem State.share_setShare (s : State) (k : Nat) (x : Share) (j : Nat) : (s.setShare k x).share j = if j = k then x else s.share j :=
  Map.getD_put s.shares k j x _
@[simp] theorem State.share_setShare_self (s : State) (k : Nat) (x : Share) : (s.setShare k x).share k = x := Map.getD_put_self s.shares k x _
@[simp] theorem State.updShare_eq (s : State) (k : Nat) (f : Share → Share) : s.updShare k f = s.setShare k (f (s.share k)) := rfl
@[simp] theorem State.shares_setShare_eq (s : State) (k : Nat) (x : Share) : (s.setShare k x).shares = Map.put s.shares k x := rfl
@[simp] theorem State.agenda_setShare (s : State) (k : Nat) (x : Share) : (s.setShare k x).agenda = s.agenda := rfl
@[simp] theorem State.focus_setShare (s : State) (k : Nat) (x : Share) : (s.setShare k x).focus = s.focus := rfl
@[simp] theorem State.free_setShare (s : State) (k : Nat) (x : Share) : (s.setShare k x).free = s.free := rfl
@[simp] theorem State.nextId_setShare (s : State) (k : Nat) (x : Share) : (s.setShare k x).nextId = s.nextId := rfl
@[simp] theorem State.cycle_setShare (s : State) (k : Nat) (x : Share) : (s.setShare k x).cycle = s.cycle := rfl
@[simp] theorem State.timeNs_setShare (s : State) (k : Nat) (x : Share) : (s.setShare k x).timeNs = s.timeNs := rfl
@[simp] theorem State.fibres_setShare (s : State) (k : Nat) (x : Share) : (s.setShare k x).fibres = s.fibres := rfl
@[simp] theorem State.bands_setShare (s : State) (k : Nat) (x : Share) : (s.setShare k x).bands = s.bands := rfl
@[simp] theorem State.wgs_setShare (s : State) (k : Nat) (x : Share) : (s.setShare k x).wgs = s.wgs := rfl
@[simp] theorem State.gangs_setShare (s : State) (k : Nat) (x : Share) : (s.setShare k x).gangs = s.gangs := rfl
@[simp] theorem State.mseqs_setShare (s : State) (k : Nat) (x : Share) : (s.setShare k x).mseqs = s.mseqs := rfl
@[simp] theorem State.cops_setShare (s : State) (k : Nat) (x : Share) : (s.setShare k x).cops = s.cops := rfl
@[simp] theorem State.bars_setShare (s : State) (k : Nat) (x : Share) : (s.setShare k x).bars = s.bars := rfl
@[simp] theorem State.dbg_setShare (s : State) (k : Nat) (x : Share) : (s.setShare k x).dbg = s.dbg := rfl
@[simp] theorem State.mem_setShare (s : State) (k : Nat) (x : Share) : (s.setShare k x).mem = s.mem := rfl
@[simp] theorem State.tus_setShare (s : State) (k : Nat) (x : Share) : (s.setShare k x).tus = s.tus := rfl
@[simp] theorem State.cores_setShare (s : State) (k : Nat) (x : Share) : (s.setShare k x).cores = s.cores := rfl
@[simp] theorem State.etlb_setShare (s : State) (k : Nat) (x : Share) : (s.setShare k x).etlb = s.etlb := rfl
@[simp] theorem State.csmsF_setShare (s : State) (k : Nat) (x : Share) : (s.setShare k x).csms = s.csms := rfl
@[simp] theorem State.invs_setShare (s : State) (k : Nat) (x : Share) : (s.setShare k x).invs = s.invs := rfl
@[simp] theorem State.irqs_setShare (s : State) (k : Nat) (x : Share) : (s.setShare k x).irqs = s.irqs := rfl
@[simp] theorem State.chans_setShare (s : State) (k : Nat) (x : Share) : (s.setShare k x).chans = s.chans := rfl
@[simp] theorem State.engs_setShare (s : State) (k : Nat) (x : Share) : (s.setShare k x).engs = s.engs := rfl
@[simp] theorem State.fab_setShare (s : State) (k : Nat) (x : Share) : (s.setShare k x).fab = s.fab := rfl
@[simp] theorem State.icache_setShare (s : State) (k : Nat) (x : Share) : (s.setShare k x).icache = s.icache := rfl
@[simp] theorem State.copyqs_setShare (s : State) (k : Nat) (x : Share) : (s.setShare k x).copyqs = s.copyqs := rfl
@[simp] theorem State.ctxs_setShare (s : State) (k : Nat) (x : Share) : (s.setShare k x).ctxs = s.ctxs := rfl
@[simp] theorem State.ready_setShare (s : State) (k : Nat) (x : Share) : (s.setShare k x).ready = s.ready := rfl
@[simp] theorem State.lastSrc_setShare (s : State) (k : Nat) (x : Share) : (s.setShare k x).lastSrc = s.lastSrc := rfl
@[simp] theorem State.moves_setShare (s : State) (k : Nat) (x : Share) : (s.setShare k x).moves = s.moves := rfl
@[simp] theorem State.mats_setShare (s : State) (k : Nat) (x : Share) : (s.setShare k x).mats = s.mats := rfl
@[simp] theorem State.unserv_setShare (s : State) (k : Nat) (x : Share) : (s.setShare k x).unserv = s.unserv := rfl
@[simp] theorem State.nodeDone_setShare (s : State) (k : Nat) (x : Share) : (s.setShare k x).nodeDone = s.nodeDone := rfl
@[simp] theorem State.fetchBad_setShare (s : State) (k : Nat) (x : Share) : (s.setShare k x).fetchBad = s.fetchBad := rfl
@[simp] theorem State.queues_setShare (s : State) (k : Nat) (x : Share) : (s.setShare k x).queues = s.queues := rfl
@[simp] theorem State.graphs_setShare (s : State) (k : Nat) (x : Share) : (s.setShare k x).graphs = s.graphs := rfl
@[simp] theorem State.launches_setShare (s : State) (k : Nat) (x : Share) : (s.setShare k x).launches = s.launches := rfl
@[simp] theorem State.stages_setShare (s : State) (k : Nat) (x : Share) : (s.setShare k x).stages = s.stages := rfl
@[simp] theorem State.fes_setShare (s : State) (k : Nat) (x : Share) : (s.setShare k x).fes = s.fes := rfl
@[simp] theorem State.lds_setShare (s : State) (k : Nat) (x : Share) : (s.setShare k x).lds = s.lds := rfl
@[simp] theorem State.spdm_setShare (s : State) (k : Nat) (x : Share) : (s.setShare k x).spdm = s.spdm := rfl
@[simp] theorem State.host_setShare (s : State) (k : Nat) (x : Share) : (s.setShare k x).host = s.host := rfl
@[simp] theorem State.fib_setShare (s : State) (k : Nat) (x : Share) (j : Nat) : (s.setShare k x).fib j = s.fib j := rfl
@[simp] theorem State.band_setShare (s : State) (k : Nat) (x : Share) (j : Nat) : (s.setShare k x).band j = s.band j := rfl
@[simp] theorem State.wg_setShare (s : State) (k : Nat) (x : Share) (j : Nat) : (s.setShare k x).wg j = s.wg j := rfl
@[simp] theorem State.gang_setShare (s : State) (k : Nat) (x : Share) (j : Nat) : (s.setShare k x).gang j = s.gang j := rfl
@[simp] theorem State.mseq_setShare (s : State) (k : Nat) (x : Share) (j : Nat) : (s.setShare k x).mseq j = s.mseq j := rfl
@[simp] theorem State.cop_setShare (s : State) (k : Nat) (x : Share) (j : Nat) : (s.setShare k x).cop j = s.cop j := rfl
@[simp] theorem State.mat_setShare (s : State) (k : Nat) (x : Share) (j : Nat) : (s.setShare k x).mat j = s.mat j := rfl
@[simp] theorem State.chan_setShare (s : State) (k : Nat) (x : Share) (j : Nat) : (s.setShare k x).chan j = s.chan j := rfl
@[simp] theorem State.eng_setShare (s : State) (k : Nat) (x : Share) (j : Nat) : (s.setShare k x).eng j = s.eng j := rfl
@[simp] theorem State.csm_setShare (s : State) (k : Nat) (x : Share) (j : Nat) : (s.setShare k x).csm j = s.csm j := rfl
@[simp] theorem State.queue_setShare (s : State) (k : Nat) (x : Share) (j : Nat) : (s.setShare k x).queue j = s.queue j := rfl
@[simp] theorem State.graph_setShare (s : State) (k : Nat) (x : Share) (j : Nat) : (s.setShare k x).graph j = s.graph j := rfl
@[simp] theorem State.fe_setShare (s : State) (k : Nat) (x : Share) (j : Nat) : (s.setShare k x).fe j = s.fe j := rfl
@[simp] theorem State.ld_setShare (s : State) (k : Nat) (x : Share) (j : Nat) : (s.setShare k x).ld j = s.ld j := rfl
@[simp] theorem State.stage_setShare (s : State) (k : Nat) (x : Share) (j : Nat) : (s.setShare k x).stage j = s.stage j := rfl
@[simp] theorem State.core_setShare (s : State) (k : Nat) (x : Share) (j : Nat) : (s.setShare k x).core j = s.core j := rfl
@[simp] theorem State.tu_setShare (s : State) (k : Nat) (x : Share) (j : Nat) : (s.setShare k x).tu j = s.tu j := rfl
@[simp] theorem State.home_setShare (s : State) (k : Nat) (x : Share) (j : Nat) : (s.setShare k x).home j = s.home j := rfl
@[simp] theorem State.launch_setShare (s : State) (k : Nat) (x : Share) (j : Nat) : (s.setShare k x).launch j = s.launch j := rfl

theorem State.mseq_setMseq (s : State) (k : Nat) (x : Seq) (j : Nat) : (s.setMseq k x).mseq j = if j = k then x else s.mseq j :=
  Map.getD_put s.mseqs k j x _
@[simp] theorem State.mseq_setMseq_self (s : State) (k : Nat) (x : Seq) : (s.setMseq k x).mseq k = x := Map.getD_put_self s.mseqs k x _
@[simp] theorem State.mseqs_setMseq_eq (s : State) (k : Nat) (x : Seq) : (s.setMseq k x).mseqs = Map.put s.mseqs k x := rfl
@[simp] theorem State.agenda_setMseq (s : State) (k : Nat) (x : Seq) : (s.setMseq k x).agenda = s.agenda := rfl
@[simp] theorem State.focus_setMseq (s : State) (k : Nat) (x : Seq) : (s.setMseq k x).focus = s.focus := rfl
@[simp] theorem State.free_setMseq (s : State) (k : Nat) (x : Seq) : (s.setMseq k x).free = s.free := rfl
@[simp] theorem State.nextId_setMseq (s : State) (k : Nat) (x : Seq) : (s.setMseq k x).nextId = s.nextId := rfl
@[simp] theorem State.cycle_setMseq (s : State) (k : Nat) (x : Seq) : (s.setMseq k x).cycle = s.cycle := rfl
@[simp] theorem State.timeNs_setMseq (s : State) (k : Nat) (x : Seq) : (s.setMseq k x).timeNs = s.timeNs := rfl
@[simp] theorem State.fibres_setMseq (s : State) (k : Nat) (x : Seq) : (s.setMseq k x).fibres = s.fibres := rfl
@[simp] theorem State.bands_setMseq (s : State) (k : Nat) (x : Seq) : (s.setMseq k x).bands = s.bands := rfl
@[simp] theorem State.wgs_setMseq (s : State) (k : Nat) (x : Seq) : (s.setMseq k x).wgs = s.wgs := rfl
@[simp] theorem State.gangs_setMseq (s : State) (k : Nat) (x : Seq) : (s.setMseq k x).gangs = s.gangs := rfl
@[simp] theorem State.shares_setMseq (s : State) (k : Nat) (x : Seq) : (s.setMseq k x).shares = s.shares := rfl
@[simp] theorem State.cops_setMseq (s : State) (k : Nat) (x : Seq) : (s.setMseq k x).cops = s.cops := rfl
@[simp] theorem State.bars_setMseq (s : State) (k : Nat) (x : Seq) : (s.setMseq k x).bars = s.bars := rfl
@[simp] theorem State.dbg_setMseq (s : State) (k : Nat) (x : Seq) : (s.setMseq k x).dbg = s.dbg := rfl
@[simp] theorem State.mem_setMseq (s : State) (k : Nat) (x : Seq) : (s.setMseq k x).mem = s.mem := rfl
@[simp] theorem State.tus_setMseq (s : State) (k : Nat) (x : Seq) : (s.setMseq k x).tus = s.tus := rfl
@[simp] theorem State.cores_setMseq (s : State) (k : Nat) (x : Seq) : (s.setMseq k x).cores = s.cores := rfl
@[simp] theorem State.etlb_setMseq (s : State) (k : Nat) (x : Seq) : (s.setMseq k x).etlb = s.etlb := rfl
@[simp] theorem State.csmsF_setMseq (s : State) (k : Nat) (x : Seq) : (s.setMseq k x).csms = s.csms := rfl
@[simp] theorem State.invs_setMseq (s : State) (k : Nat) (x : Seq) : (s.setMseq k x).invs = s.invs := rfl
@[simp] theorem State.irqs_setMseq (s : State) (k : Nat) (x : Seq) : (s.setMseq k x).irqs = s.irqs := rfl
@[simp] theorem State.chans_setMseq (s : State) (k : Nat) (x : Seq) : (s.setMseq k x).chans = s.chans := rfl
@[simp] theorem State.engs_setMseq (s : State) (k : Nat) (x : Seq) : (s.setMseq k x).engs = s.engs := rfl
@[simp] theorem State.fab_setMseq (s : State) (k : Nat) (x : Seq) : (s.setMseq k x).fab = s.fab := rfl
@[simp] theorem State.icache_setMseq (s : State) (k : Nat) (x : Seq) : (s.setMseq k x).icache = s.icache := rfl
@[simp] theorem State.copyqs_setMseq (s : State) (k : Nat) (x : Seq) : (s.setMseq k x).copyqs = s.copyqs := rfl
@[simp] theorem State.ctxs_setMseq (s : State) (k : Nat) (x : Seq) : (s.setMseq k x).ctxs = s.ctxs := rfl
@[simp] theorem State.ready_setMseq (s : State) (k : Nat) (x : Seq) : (s.setMseq k x).ready = s.ready := rfl
@[simp] theorem State.lastSrc_setMseq (s : State) (k : Nat) (x : Seq) : (s.setMseq k x).lastSrc = s.lastSrc := rfl
@[simp] theorem State.moves_setMseq (s : State) (k : Nat) (x : Seq) : (s.setMseq k x).moves = s.moves := rfl
@[simp] theorem State.mats_setMseq (s : State) (k : Nat) (x : Seq) : (s.setMseq k x).mats = s.mats := rfl
@[simp] theorem State.unserv_setMseq (s : State) (k : Nat) (x : Seq) : (s.setMseq k x).unserv = s.unserv := rfl
@[simp] theorem State.nodeDone_setMseq (s : State) (k : Nat) (x : Seq) : (s.setMseq k x).nodeDone = s.nodeDone := rfl
@[simp] theorem State.fetchBad_setMseq (s : State) (k : Nat) (x : Seq) : (s.setMseq k x).fetchBad = s.fetchBad := rfl
@[simp] theorem State.queues_setMseq (s : State) (k : Nat) (x : Seq) : (s.setMseq k x).queues = s.queues := rfl
@[simp] theorem State.graphs_setMseq (s : State) (k : Nat) (x : Seq) : (s.setMseq k x).graphs = s.graphs := rfl
@[simp] theorem State.launches_setMseq (s : State) (k : Nat) (x : Seq) : (s.setMseq k x).launches = s.launches := rfl
@[simp] theorem State.stages_setMseq (s : State) (k : Nat) (x : Seq) : (s.setMseq k x).stages = s.stages := rfl
@[simp] theorem State.fes_setMseq (s : State) (k : Nat) (x : Seq) : (s.setMseq k x).fes = s.fes := rfl
@[simp] theorem State.lds_setMseq (s : State) (k : Nat) (x : Seq) : (s.setMseq k x).lds = s.lds := rfl
@[simp] theorem State.spdm_setMseq (s : State) (k : Nat) (x : Seq) : (s.setMseq k x).spdm = s.spdm := rfl
@[simp] theorem State.host_setMseq (s : State) (k : Nat) (x : Seq) : (s.setMseq k x).host = s.host := rfl
@[simp] theorem State.fib_setMseq (s : State) (k : Nat) (x : Seq) (j : Nat) : (s.setMseq k x).fib j = s.fib j := rfl
@[simp] theorem State.band_setMseq (s : State) (k : Nat) (x : Seq) (j : Nat) : (s.setMseq k x).band j = s.band j := rfl
@[simp] theorem State.wg_setMseq (s : State) (k : Nat) (x : Seq) (j : Nat) : (s.setMseq k x).wg j = s.wg j := rfl
@[simp] theorem State.gang_setMseq (s : State) (k : Nat) (x : Seq) (j : Nat) : (s.setMseq k x).gang j = s.gang j := rfl
@[simp] theorem State.share_setMseq (s : State) (k : Nat) (x : Seq) (j : Nat) : (s.setMseq k x).share j = s.share j := rfl
@[simp] theorem State.cop_setMseq (s : State) (k : Nat) (x : Seq) (j : Nat) : (s.setMseq k x).cop j = s.cop j := rfl
@[simp] theorem State.mat_setMseq (s : State) (k : Nat) (x : Seq) (j : Nat) : (s.setMseq k x).mat j = s.mat j := rfl
@[simp] theorem State.chan_setMseq (s : State) (k : Nat) (x : Seq) (j : Nat) : (s.setMseq k x).chan j = s.chan j := rfl
@[simp] theorem State.eng_setMseq (s : State) (k : Nat) (x : Seq) (j : Nat) : (s.setMseq k x).eng j = s.eng j := rfl
@[simp] theorem State.csm_setMseq (s : State) (k : Nat) (x : Seq) (j : Nat) : (s.setMseq k x).csm j = s.csm j := rfl
@[simp] theorem State.queue_setMseq (s : State) (k : Nat) (x : Seq) (j : Nat) : (s.setMseq k x).queue j = s.queue j := rfl
@[simp] theorem State.graph_setMseq (s : State) (k : Nat) (x : Seq) (j : Nat) : (s.setMseq k x).graph j = s.graph j := rfl
@[simp] theorem State.fe_setMseq (s : State) (k : Nat) (x : Seq) (j : Nat) : (s.setMseq k x).fe j = s.fe j := rfl
@[simp] theorem State.ld_setMseq (s : State) (k : Nat) (x : Seq) (j : Nat) : (s.setMseq k x).ld j = s.ld j := rfl
@[simp] theorem State.stage_setMseq (s : State) (k : Nat) (x : Seq) (j : Nat) : (s.setMseq k x).stage j = s.stage j := rfl
@[simp] theorem State.core_setMseq (s : State) (k : Nat) (x : Seq) (j : Nat) : (s.setMseq k x).core j = s.core j := rfl
@[simp] theorem State.tu_setMseq (s : State) (k : Nat) (x : Seq) (j : Nat) : (s.setMseq k x).tu j = s.tu j := rfl
@[simp] theorem State.home_setMseq (s : State) (k : Nat) (x : Seq) (j : Nat) : (s.setMseq k x).home j = s.home j := rfl
@[simp] theorem State.launch_setMseq (s : State) (k : Nat) (x : Seq) (j : Nat) : (s.setMseq k x).launch j = s.launch j := rfl

theorem State.cop_setCop (s : State) (k : Nat) (x : Seq) (j : Nat) : (s.setCop k x).cop j = if j = k then x else s.cop j :=
  Map.getD_put s.cops k j x _
@[simp] theorem State.cop_setCop_self (s : State) (k : Nat) (x : Seq) : (s.setCop k x).cop k = x := Map.getD_put_self s.cops k x _
@[simp] theorem State.cops_setCop_eq (s : State) (k : Nat) (x : Seq) : (s.setCop k x).cops = Map.put s.cops k x := rfl
@[simp] theorem State.agenda_setCop (s : State) (k : Nat) (x : Seq) : (s.setCop k x).agenda = s.agenda := rfl
@[simp] theorem State.focus_setCop (s : State) (k : Nat) (x : Seq) : (s.setCop k x).focus = s.focus := rfl
@[simp] theorem State.free_setCop (s : State) (k : Nat) (x : Seq) : (s.setCop k x).free = s.free := rfl
@[simp] theorem State.nextId_setCop (s : State) (k : Nat) (x : Seq) : (s.setCop k x).nextId = s.nextId := rfl
@[simp] theorem State.cycle_setCop (s : State) (k : Nat) (x : Seq) : (s.setCop k x).cycle = s.cycle := rfl
@[simp] theorem State.timeNs_setCop (s : State) (k : Nat) (x : Seq) : (s.setCop k x).timeNs = s.timeNs := rfl
@[simp] theorem State.fibres_setCop (s : State) (k : Nat) (x : Seq) : (s.setCop k x).fibres = s.fibres := rfl
@[simp] theorem State.bands_setCop (s : State) (k : Nat) (x : Seq) : (s.setCop k x).bands = s.bands := rfl
@[simp] theorem State.wgs_setCop (s : State) (k : Nat) (x : Seq) : (s.setCop k x).wgs = s.wgs := rfl
@[simp] theorem State.gangs_setCop (s : State) (k : Nat) (x : Seq) : (s.setCop k x).gangs = s.gangs := rfl
@[simp] theorem State.shares_setCop (s : State) (k : Nat) (x : Seq) : (s.setCop k x).shares = s.shares := rfl
@[simp] theorem State.mseqs_setCop (s : State) (k : Nat) (x : Seq) : (s.setCop k x).mseqs = s.mseqs := rfl
@[simp] theorem State.bars_setCop (s : State) (k : Nat) (x : Seq) : (s.setCop k x).bars = s.bars := rfl
@[simp] theorem State.dbg_setCop (s : State) (k : Nat) (x : Seq) : (s.setCop k x).dbg = s.dbg := rfl
@[simp] theorem State.mem_setCop (s : State) (k : Nat) (x : Seq) : (s.setCop k x).mem = s.mem := rfl
@[simp] theorem State.tus_setCop (s : State) (k : Nat) (x : Seq) : (s.setCop k x).tus = s.tus := rfl
@[simp] theorem State.cores_setCop (s : State) (k : Nat) (x : Seq) : (s.setCop k x).cores = s.cores := rfl
@[simp] theorem State.etlb_setCop (s : State) (k : Nat) (x : Seq) : (s.setCop k x).etlb = s.etlb := rfl
@[simp] theorem State.csmsF_setCop (s : State) (k : Nat) (x : Seq) : (s.setCop k x).csms = s.csms := rfl
@[simp] theorem State.invs_setCop (s : State) (k : Nat) (x : Seq) : (s.setCop k x).invs = s.invs := rfl
@[simp] theorem State.irqs_setCop (s : State) (k : Nat) (x : Seq) : (s.setCop k x).irqs = s.irqs := rfl
@[simp] theorem State.chans_setCop (s : State) (k : Nat) (x : Seq) : (s.setCop k x).chans = s.chans := rfl
@[simp] theorem State.engs_setCop (s : State) (k : Nat) (x : Seq) : (s.setCop k x).engs = s.engs := rfl
@[simp] theorem State.fab_setCop (s : State) (k : Nat) (x : Seq) : (s.setCop k x).fab = s.fab := rfl
@[simp] theorem State.icache_setCop (s : State) (k : Nat) (x : Seq) : (s.setCop k x).icache = s.icache := rfl
@[simp] theorem State.copyqs_setCop (s : State) (k : Nat) (x : Seq) : (s.setCop k x).copyqs = s.copyqs := rfl
@[simp] theorem State.ctxs_setCop (s : State) (k : Nat) (x : Seq) : (s.setCop k x).ctxs = s.ctxs := rfl
@[simp] theorem State.ready_setCop (s : State) (k : Nat) (x : Seq) : (s.setCop k x).ready = s.ready := rfl
@[simp] theorem State.lastSrc_setCop (s : State) (k : Nat) (x : Seq) : (s.setCop k x).lastSrc = s.lastSrc := rfl
@[simp] theorem State.moves_setCop (s : State) (k : Nat) (x : Seq) : (s.setCop k x).moves = s.moves := rfl
@[simp] theorem State.mats_setCop (s : State) (k : Nat) (x : Seq) : (s.setCop k x).mats = s.mats := rfl
@[simp] theorem State.unserv_setCop (s : State) (k : Nat) (x : Seq) : (s.setCop k x).unserv = s.unserv := rfl
@[simp] theorem State.nodeDone_setCop (s : State) (k : Nat) (x : Seq) : (s.setCop k x).nodeDone = s.nodeDone := rfl
@[simp] theorem State.fetchBad_setCop (s : State) (k : Nat) (x : Seq) : (s.setCop k x).fetchBad = s.fetchBad := rfl
@[simp] theorem State.queues_setCop (s : State) (k : Nat) (x : Seq) : (s.setCop k x).queues = s.queues := rfl
@[simp] theorem State.graphs_setCop (s : State) (k : Nat) (x : Seq) : (s.setCop k x).graphs = s.graphs := rfl
@[simp] theorem State.launches_setCop (s : State) (k : Nat) (x : Seq) : (s.setCop k x).launches = s.launches := rfl
@[simp] theorem State.stages_setCop (s : State) (k : Nat) (x : Seq) : (s.setCop k x).stages = s.stages := rfl
@[simp] theorem State.fes_setCop (s : State) (k : Nat) (x : Seq) : (s.setCop k x).fes = s.fes := rfl
@[simp] theorem State.lds_setCop (s : State) (k : Nat) (x : Seq) : (s.setCop k x).lds = s.lds := rfl
@[simp] theorem State.spdm_setCop (s : State) (k : Nat) (x : Seq) : (s.setCop k x).spdm = s.spdm := rfl
@[simp] theorem State.host_setCop (s : State) (k : Nat) (x : Seq) : (s.setCop k x).host = s.host := rfl
@[simp] theorem State.fib_setCop (s : State) (k : Nat) (x : Seq) (j : Nat) : (s.setCop k x).fib j = s.fib j := rfl
@[simp] theorem State.band_setCop (s : State) (k : Nat) (x : Seq) (j : Nat) : (s.setCop k x).band j = s.band j := rfl
@[simp] theorem State.wg_setCop (s : State) (k : Nat) (x : Seq) (j : Nat) : (s.setCop k x).wg j = s.wg j := rfl
@[simp] theorem State.gang_setCop (s : State) (k : Nat) (x : Seq) (j : Nat) : (s.setCop k x).gang j = s.gang j := rfl
@[simp] theorem State.share_setCop (s : State) (k : Nat) (x : Seq) (j : Nat) : (s.setCop k x).share j = s.share j := rfl
@[simp] theorem State.mseq_setCop (s : State) (k : Nat) (x : Seq) (j : Nat) : (s.setCop k x).mseq j = s.mseq j := rfl
@[simp] theorem State.mat_setCop (s : State) (k : Nat) (x : Seq) (j : Nat) : (s.setCop k x).mat j = s.mat j := rfl
@[simp] theorem State.chan_setCop (s : State) (k : Nat) (x : Seq) (j : Nat) : (s.setCop k x).chan j = s.chan j := rfl
@[simp] theorem State.eng_setCop (s : State) (k : Nat) (x : Seq) (j : Nat) : (s.setCop k x).eng j = s.eng j := rfl
@[simp] theorem State.csm_setCop (s : State) (k : Nat) (x : Seq) (j : Nat) : (s.setCop k x).csm j = s.csm j := rfl
@[simp] theorem State.queue_setCop (s : State) (k : Nat) (x : Seq) (j : Nat) : (s.setCop k x).queue j = s.queue j := rfl
@[simp] theorem State.graph_setCop (s : State) (k : Nat) (x : Seq) (j : Nat) : (s.setCop k x).graph j = s.graph j := rfl
@[simp] theorem State.fe_setCop (s : State) (k : Nat) (x : Seq) (j : Nat) : (s.setCop k x).fe j = s.fe j := rfl
@[simp] theorem State.ld_setCop (s : State) (k : Nat) (x : Seq) (j : Nat) : (s.setCop k x).ld j = s.ld j := rfl
@[simp] theorem State.stage_setCop (s : State) (k : Nat) (x : Seq) (j : Nat) : (s.setCop k x).stage j = s.stage j := rfl
@[simp] theorem State.core_setCop (s : State) (k : Nat) (x : Seq) (j : Nat) : (s.setCop k x).core j = s.core j := rfl
@[simp] theorem State.tu_setCop (s : State) (k : Nat) (x : Seq) (j : Nat) : (s.setCop k x).tu j = s.tu j := rfl
@[simp] theorem State.home_setCop (s : State) (k : Nat) (x : Seq) (j : Nat) : (s.setCop k x).home j = s.home j := rfl
@[simp] theorem State.launch_setCop (s : State) (k : Nat) (x : Seq) (j : Nat) : (s.setCop k x).launch j = s.launch j := rfl

theorem State.mat_setMat (s : State) (k : Nat) (x : Mat) (j : Nat) : (s.setMat k x).mat j = if j = k then x else s.mat j :=
  Map.getD_put s.mats k j x _
@[simp] theorem State.mat_setMat_self (s : State) (k : Nat) (x : Mat) : (s.setMat k x).mat k = x := Map.getD_put_self s.mats k x _
@[simp] theorem State.updMat_eq (s : State) (k : Nat) (f : Mat → Mat) : s.updMat k f = s.setMat k (f (s.mat k)) := rfl
@[simp] theorem State.mats_setMat_eq (s : State) (k : Nat) (x : Mat) : (s.setMat k x).mats = Map.put s.mats k x := rfl
@[simp] theorem State.agenda_setMat (s : State) (k : Nat) (x : Mat) : (s.setMat k x).agenda = s.agenda := rfl
@[simp] theorem State.focus_setMat (s : State) (k : Nat) (x : Mat) : (s.setMat k x).focus = s.focus := rfl
@[simp] theorem State.free_setMat (s : State) (k : Nat) (x : Mat) : (s.setMat k x).free = s.free := rfl
@[simp] theorem State.nextId_setMat (s : State) (k : Nat) (x : Mat) : (s.setMat k x).nextId = s.nextId := rfl
@[simp] theorem State.cycle_setMat (s : State) (k : Nat) (x : Mat) : (s.setMat k x).cycle = s.cycle := rfl
@[simp] theorem State.timeNs_setMat (s : State) (k : Nat) (x : Mat) : (s.setMat k x).timeNs = s.timeNs := rfl
@[simp] theorem State.fibres_setMat (s : State) (k : Nat) (x : Mat) : (s.setMat k x).fibres = s.fibres := rfl
@[simp] theorem State.bands_setMat (s : State) (k : Nat) (x : Mat) : (s.setMat k x).bands = s.bands := rfl
@[simp] theorem State.wgs_setMat (s : State) (k : Nat) (x : Mat) : (s.setMat k x).wgs = s.wgs := rfl
@[simp] theorem State.gangs_setMat (s : State) (k : Nat) (x : Mat) : (s.setMat k x).gangs = s.gangs := rfl
@[simp] theorem State.shares_setMat (s : State) (k : Nat) (x : Mat) : (s.setMat k x).shares = s.shares := rfl
@[simp] theorem State.mseqs_setMat (s : State) (k : Nat) (x : Mat) : (s.setMat k x).mseqs = s.mseqs := rfl
@[simp] theorem State.cops_setMat (s : State) (k : Nat) (x : Mat) : (s.setMat k x).cops = s.cops := rfl
@[simp] theorem State.bars_setMat (s : State) (k : Nat) (x : Mat) : (s.setMat k x).bars = s.bars := rfl
@[simp] theorem State.dbg_setMat (s : State) (k : Nat) (x : Mat) : (s.setMat k x).dbg = s.dbg := rfl
@[simp] theorem State.mem_setMat (s : State) (k : Nat) (x : Mat) : (s.setMat k x).mem = s.mem := rfl
@[simp] theorem State.tus_setMat (s : State) (k : Nat) (x : Mat) : (s.setMat k x).tus = s.tus := rfl
@[simp] theorem State.cores_setMat (s : State) (k : Nat) (x : Mat) : (s.setMat k x).cores = s.cores := rfl
@[simp] theorem State.etlb_setMat (s : State) (k : Nat) (x : Mat) : (s.setMat k x).etlb = s.etlb := rfl
@[simp] theorem State.csmsF_setMat (s : State) (k : Nat) (x : Mat) : (s.setMat k x).csms = s.csms := rfl
@[simp] theorem State.invs_setMat (s : State) (k : Nat) (x : Mat) : (s.setMat k x).invs = s.invs := rfl
@[simp] theorem State.irqs_setMat (s : State) (k : Nat) (x : Mat) : (s.setMat k x).irqs = s.irqs := rfl
@[simp] theorem State.chans_setMat (s : State) (k : Nat) (x : Mat) : (s.setMat k x).chans = s.chans := rfl
@[simp] theorem State.engs_setMat (s : State) (k : Nat) (x : Mat) : (s.setMat k x).engs = s.engs := rfl
@[simp] theorem State.fab_setMat (s : State) (k : Nat) (x : Mat) : (s.setMat k x).fab = s.fab := rfl
@[simp] theorem State.icache_setMat (s : State) (k : Nat) (x : Mat) : (s.setMat k x).icache = s.icache := rfl
@[simp] theorem State.copyqs_setMat (s : State) (k : Nat) (x : Mat) : (s.setMat k x).copyqs = s.copyqs := rfl
@[simp] theorem State.ctxs_setMat (s : State) (k : Nat) (x : Mat) : (s.setMat k x).ctxs = s.ctxs := rfl
@[simp] theorem State.ready_setMat (s : State) (k : Nat) (x : Mat) : (s.setMat k x).ready = s.ready := rfl
@[simp] theorem State.lastSrc_setMat (s : State) (k : Nat) (x : Mat) : (s.setMat k x).lastSrc = s.lastSrc := rfl
@[simp] theorem State.moves_setMat (s : State) (k : Nat) (x : Mat) : (s.setMat k x).moves = s.moves := rfl
@[simp] theorem State.unserv_setMat (s : State) (k : Nat) (x : Mat) : (s.setMat k x).unserv = s.unserv := rfl
@[simp] theorem State.nodeDone_setMat (s : State) (k : Nat) (x : Mat) : (s.setMat k x).nodeDone = s.nodeDone := rfl
@[simp] theorem State.fetchBad_setMat (s : State) (k : Nat) (x : Mat) : (s.setMat k x).fetchBad = s.fetchBad := rfl
@[simp] theorem State.queues_setMat (s : State) (k : Nat) (x : Mat) : (s.setMat k x).queues = s.queues := rfl
@[simp] theorem State.graphs_setMat (s : State) (k : Nat) (x : Mat) : (s.setMat k x).graphs = s.graphs := rfl
@[simp] theorem State.launches_setMat (s : State) (k : Nat) (x : Mat) : (s.setMat k x).launches = s.launches := rfl
@[simp] theorem State.stages_setMat (s : State) (k : Nat) (x : Mat) : (s.setMat k x).stages = s.stages := rfl
@[simp] theorem State.fes_setMat (s : State) (k : Nat) (x : Mat) : (s.setMat k x).fes = s.fes := rfl
@[simp] theorem State.lds_setMat (s : State) (k : Nat) (x : Mat) : (s.setMat k x).lds = s.lds := rfl
@[simp] theorem State.spdm_setMat (s : State) (k : Nat) (x : Mat) : (s.setMat k x).spdm = s.spdm := rfl
@[simp] theorem State.host_setMat (s : State) (k : Nat) (x : Mat) : (s.setMat k x).host = s.host := rfl
@[simp] theorem State.fib_setMat (s : State) (k : Nat) (x : Mat) (j : Nat) : (s.setMat k x).fib j = s.fib j := rfl
@[simp] theorem State.band_setMat (s : State) (k : Nat) (x : Mat) (j : Nat) : (s.setMat k x).band j = s.band j := rfl
@[simp] theorem State.wg_setMat (s : State) (k : Nat) (x : Mat) (j : Nat) : (s.setMat k x).wg j = s.wg j := rfl
@[simp] theorem State.gang_setMat (s : State) (k : Nat) (x : Mat) (j : Nat) : (s.setMat k x).gang j = s.gang j := rfl
@[simp] theorem State.share_setMat (s : State) (k : Nat) (x : Mat) (j : Nat) : (s.setMat k x).share j = s.share j := rfl
@[simp] theorem State.mseq_setMat (s : State) (k : Nat) (x : Mat) (j : Nat) : (s.setMat k x).mseq j = s.mseq j := rfl
@[simp] theorem State.cop_setMat (s : State) (k : Nat) (x : Mat) (j : Nat) : (s.setMat k x).cop j = s.cop j := rfl
@[simp] theorem State.chan_setMat (s : State) (k : Nat) (x : Mat) (j : Nat) : (s.setMat k x).chan j = s.chan j := rfl
@[simp] theorem State.eng_setMat (s : State) (k : Nat) (x : Mat) (j : Nat) : (s.setMat k x).eng j = s.eng j := rfl
@[simp] theorem State.csm_setMat (s : State) (k : Nat) (x : Mat) (j : Nat) : (s.setMat k x).csm j = s.csm j := rfl
@[simp] theorem State.queue_setMat (s : State) (k : Nat) (x : Mat) (j : Nat) : (s.setMat k x).queue j = s.queue j := rfl
@[simp] theorem State.graph_setMat (s : State) (k : Nat) (x : Mat) (j : Nat) : (s.setMat k x).graph j = s.graph j := rfl
@[simp] theorem State.fe_setMat (s : State) (k : Nat) (x : Mat) (j : Nat) : (s.setMat k x).fe j = s.fe j := rfl
@[simp] theorem State.ld_setMat (s : State) (k : Nat) (x : Mat) (j : Nat) : (s.setMat k x).ld j = s.ld j := rfl
@[simp] theorem State.stage_setMat (s : State) (k : Nat) (x : Mat) (j : Nat) : (s.setMat k x).stage j = s.stage j := rfl
@[simp] theorem State.core_setMat (s : State) (k : Nat) (x : Mat) (j : Nat) : (s.setMat k x).core j = s.core j := rfl
@[simp] theorem State.tu_setMat (s : State) (k : Nat) (x : Mat) (j : Nat) : (s.setMat k x).tu j = s.tu j := rfl
@[simp] theorem State.home_setMat (s : State) (k : Nat) (x : Mat) (j : Nat) : (s.setMat k x).home j = s.home j := rfl
@[simp] theorem State.launch_setMat (s : State) (k : Nat) (x : Mat) (j : Nat) : (s.setMat k x).launch j = s.launch j := rfl

theorem State.chan_setChan (s : State) (k : Nat) (x : Chan) (j : Nat) : (s.setChan k x).chan j = if j = k then x else s.chan j :=
  Map.getD_put s.chans k j x _
@[simp] theorem State.chan_setChan_self (s : State) (k : Nat) (x : Chan) : (s.setChan k x).chan k = x := Map.getD_put_self s.chans k x _
@[simp] theorem State.updChan_eq (s : State) (k : Nat) (f : Chan → Chan) : s.updChan k f = s.setChan k (f (s.chan k)) := rfl
@[simp] theorem State.chans_setChan_eq (s : State) (k : Nat) (x : Chan) : (s.setChan k x).chans = Map.put s.chans k x := rfl
@[simp] theorem State.agenda_setChan (s : State) (k : Nat) (x : Chan) : (s.setChan k x).agenda = s.agenda := rfl
@[simp] theorem State.focus_setChan (s : State) (k : Nat) (x : Chan) : (s.setChan k x).focus = s.focus := rfl
@[simp] theorem State.free_setChan (s : State) (k : Nat) (x : Chan) : (s.setChan k x).free = s.free := rfl
@[simp] theorem State.nextId_setChan (s : State) (k : Nat) (x : Chan) : (s.setChan k x).nextId = s.nextId := rfl
@[simp] theorem State.cycle_setChan (s : State) (k : Nat) (x : Chan) : (s.setChan k x).cycle = s.cycle := rfl
@[simp] theorem State.timeNs_setChan (s : State) (k : Nat) (x : Chan) : (s.setChan k x).timeNs = s.timeNs := rfl
@[simp] theorem State.fibres_setChan (s : State) (k : Nat) (x : Chan) : (s.setChan k x).fibres = s.fibres := rfl
@[simp] theorem State.bands_setChan (s : State) (k : Nat) (x : Chan) : (s.setChan k x).bands = s.bands := rfl
@[simp] theorem State.wgs_setChan (s : State) (k : Nat) (x : Chan) : (s.setChan k x).wgs = s.wgs := rfl
@[simp] theorem State.gangs_setChan (s : State) (k : Nat) (x : Chan) : (s.setChan k x).gangs = s.gangs := rfl
@[simp] theorem State.shares_setChan (s : State) (k : Nat) (x : Chan) : (s.setChan k x).shares = s.shares := rfl
@[simp] theorem State.mseqs_setChan (s : State) (k : Nat) (x : Chan) : (s.setChan k x).mseqs = s.mseqs := rfl
@[simp] theorem State.cops_setChan (s : State) (k : Nat) (x : Chan) : (s.setChan k x).cops = s.cops := rfl
@[simp] theorem State.bars_setChan (s : State) (k : Nat) (x : Chan) : (s.setChan k x).bars = s.bars := rfl
@[simp] theorem State.dbg_setChan (s : State) (k : Nat) (x : Chan) : (s.setChan k x).dbg = s.dbg := rfl
@[simp] theorem State.mem_setChan (s : State) (k : Nat) (x : Chan) : (s.setChan k x).mem = s.mem := rfl
@[simp] theorem State.tus_setChan (s : State) (k : Nat) (x : Chan) : (s.setChan k x).tus = s.tus := rfl
@[simp] theorem State.cores_setChan (s : State) (k : Nat) (x : Chan) : (s.setChan k x).cores = s.cores := rfl
@[simp] theorem State.etlb_setChan (s : State) (k : Nat) (x : Chan) : (s.setChan k x).etlb = s.etlb := rfl
@[simp] theorem State.csmsF_setChan (s : State) (k : Nat) (x : Chan) : (s.setChan k x).csms = s.csms := rfl
@[simp] theorem State.invs_setChan (s : State) (k : Nat) (x : Chan) : (s.setChan k x).invs = s.invs := rfl
@[simp] theorem State.irqs_setChan (s : State) (k : Nat) (x : Chan) : (s.setChan k x).irqs = s.irqs := rfl
@[simp] theorem State.engs_setChan (s : State) (k : Nat) (x : Chan) : (s.setChan k x).engs = s.engs := rfl
@[simp] theorem State.fab_setChan (s : State) (k : Nat) (x : Chan) : (s.setChan k x).fab = s.fab := rfl
@[simp] theorem State.icache_setChan (s : State) (k : Nat) (x : Chan) : (s.setChan k x).icache = s.icache := rfl
@[simp] theorem State.copyqs_setChan (s : State) (k : Nat) (x : Chan) : (s.setChan k x).copyqs = s.copyqs := rfl
@[simp] theorem State.ctxs_setChan (s : State) (k : Nat) (x : Chan) : (s.setChan k x).ctxs = s.ctxs := rfl
@[simp] theorem State.ready_setChan (s : State) (k : Nat) (x : Chan) : (s.setChan k x).ready = s.ready := rfl
@[simp] theorem State.lastSrc_setChan (s : State) (k : Nat) (x : Chan) : (s.setChan k x).lastSrc = s.lastSrc := rfl
@[simp] theorem State.moves_setChan (s : State) (k : Nat) (x : Chan) : (s.setChan k x).moves = s.moves := rfl
@[simp] theorem State.mats_setChan (s : State) (k : Nat) (x : Chan) : (s.setChan k x).mats = s.mats := rfl
@[simp] theorem State.unserv_setChan (s : State) (k : Nat) (x : Chan) : (s.setChan k x).unserv = s.unserv := rfl
@[simp] theorem State.nodeDone_setChan (s : State) (k : Nat) (x : Chan) : (s.setChan k x).nodeDone = s.nodeDone := rfl
@[simp] theorem State.fetchBad_setChan (s : State) (k : Nat) (x : Chan) : (s.setChan k x).fetchBad = s.fetchBad := rfl
@[simp] theorem State.queues_setChan (s : State) (k : Nat) (x : Chan) : (s.setChan k x).queues = s.queues := rfl
@[simp] theorem State.graphs_setChan (s : State) (k : Nat) (x : Chan) : (s.setChan k x).graphs = s.graphs := rfl
@[simp] theorem State.launches_setChan (s : State) (k : Nat) (x : Chan) : (s.setChan k x).launches = s.launches := rfl
@[simp] theorem State.stages_setChan (s : State) (k : Nat) (x : Chan) : (s.setChan k x).stages = s.stages := rfl
@[simp] theorem State.fes_setChan (s : State) (k : Nat) (x : Chan) : (s.setChan k x).fes = s.fes := rfl
@[simp] theorem State.lds_setChan (s : State) (k : Nat) (x : Chan) : (s.setChan k x).lds = s.lds := rfl
@[simp] theorem State.spdm_setChan (s : State) (k : Nat) (x : Chan) : (s.setChan k x).spdm = s.spdm := rfl
@[simp] theorem State.host_setChan (s : State) (k : Nat) (x : Chan) : (s.setChan k x).host = s.host := rfl
@[simp] theorem State.fib_setChan (s : State) (k : Nat) (x : Chan) (j : Nat) : (s.setChan k x).fib j = s.fib j := rfl
@[simp] theorem State.band_setChan (s : State) (k : Nat) (x : Chan) (j : Nat) : (s.setChan k x).band j = s.band j := rfl
@[simp] theorem State.wg_setChan (s : State) (k : Nat) (x : Chan) (j : Nat) : (s.setChan k x).wg j = s.wg j := rfl
@[simp] theorem State.gang_setChan (s : State) (k : Nat) (x : Chan) (j : Nat) : (s.setChan k x).gang j = s.gang j := rfl
@[simp] theorem State.share_setChan (s : State) (k : Nat) (x : Chan) (j : Nat) : (s.setChan k x).share j = s.share j := rfl
@[simp] theorem State.mseq_setChan (s : State) (k : Nat) (x : Chan) (j : Nat) : (s.setChan k x).mseq j = s.mseq j := rfl
@[simp] theorem State.cop_setChan (s : State) (k : Nat) (x : Chan) (j : Nat) : (s.setChan k x).cop j = s.cop j := rfl
@[simp] theorem State.mat_setChan (s : State) (k : Nat) (x : Chan) (j : Nat) : (s.setChan k x).mat j = s.mat j := rfl
@[simp] theorem State.eng_setChan (s : State) (k : Nat) (x : Chan) (j : Nat) : (s.setChan k x).eng j = s.eng j := rfl
@[simp] theorem State.csm_setChan (s : State) (k : Nat) (x : Chan) (j : Nat) : (s.setChan k x).csm j = s.csm j := rfl
@[simp] theorem State.queue_setChan (s : State) (k : Nat) (x : Chan) (j : Nat) : (s.setChan k x).queue j = s.queue j := rfl
@[simp] theorem State.graph_setChan (s : State) (k : Nat) (x : Chan) (j : Nat) : (s.setChan k x).graph j = s.graph j := rfl
@[simp] theorem State.fe_setChan (s : State) (k : Nat) (x : Chan) (j : Nat) : (s.setChan k x).fe j = s.fe j := rfl
@[simp] theorem State.ld_setChan (s : State) (k : Nat) (x : Chan) (j : Nat) : (s.setChan k x).ld j = s.ld j := rfl
@[simp] theorem State.stage_setChan (s : State) (k : Nat) (x : Chan) (j : Nat) : (s.setChan k x).stage j = s.stage j := rfl
@[simp] theorem State.core_setChan (s : State) (k : Nat) (x : Chan) (j : Nat) : (s.setChan k x).core j = s.core j := rfl
@[simp] theorem State.tu_setChan (s : State) (k : Nat) (x : Chan) (j : Nat) : (s.setChan k x).tu j = s.tu j := rfl
@[simp] theorem State.home_setChan (s : State) (k : Nat) (x : Chan) (j : Nat) : (s.setChan k x).home j = s.home j := rfl
@[simp] theorem State.launch_setChan (s : State) (k : Nat) (x : Chan) (j : Nat) : (s.setChan k x).launch j = s.launch j := rfl

theorem State.eng_setEng (s : State) (k : Nat) (x : ChEng) (j : Nat) : (s.setEng k x).eng j = if j = k then x else s.eng j :=
  Map.getD_put s.engs k j x _
@[simp] theorem State.eng_setEng_self (s : State) (k : Nat) (x : ChEng) : (s.setEng k x).eng k = x := Map.getD_put_self s.engs k x _
@[simp] theorem State.updEng_eq (s : State) (k : Nat) (f : ChEng → ChEng) : s.updEng k f = s.setEng k (f (s.eng k)) := rfl
@[simp] theorem State.engs_setEng_eq (s : State) (k : Nat) (x : ChEng) : (s.setEng k x).engs = Map.put s.engs k x := rfl
@[simp] theorem State.agenda_setEng (s : State) (k : Nat) (x : ChEng) : (s.setEng k x).agenda = s.agenda := rfl
@[simp] theorem State.focus_setEng (s : State) (k : Nat) (x : ChEng) : (s.setEng k x).focus = s.focus := rfl
@[simp] theorem State.free_setEng (s : State) (k : Nat) (x : ChEng) : (s.setEng k x).free = s.free := rfl
@[simp] theorem State.nextId_setEng (s : State) (k : Nat) (x : ChEng) : (s.setEng k x).nextId = s.nextId := rfl
@[simp] theorem State.cycle_setEng (s : State) (k : Nat) (x : ChEng) : (s.setEng k x).cycle = s.cycle := rfl
@[simp] theorem State.timeNs_setEng (s : State) (k : Nat) (x : ChEng) : (s.setEng k x).timeNs = s.timeNs := rfl
@[simp] theorem State.fibres_setEng (s : State) (k : Nat) (x : ChEng) : (s.setEng k x).fibres = s.fibres := rfl
@[simp] theorem State.bands_setEng (s : State) (k : Nat) (x : ChEng) : (s.setEng k x).bands = s.bands := rfl
@[simp] theorem State.wgs_setEng (s : State) (k : Nat) (x : ChEng) : (s.setEng k x).wgs = s.wgs := rfl
@[simp] theorem State.gangs_setEng (s : State) (k : Nat) (x : ChEng) : (s.setEng k x).gangs = s.gangs := rfl
@[simp] theorem State.shares_setEng (s : State) (k : Nat) (x : ChEng) : (s.setEng k x).shares = s.shares := rfl
@[simp] theorem State.mseqs_setEng (s : State) (k : Nat) (x : ChEng) : (s.setEng k x).mseqs = s.mseqs := rfl
@[simp] theorem State.cops_setEng (s : State) (k : Nat) (x : ChEng) : (s.setEng k x).cops = s.cops := rfl
@[simp] theorem State.bars_setEng (s : State) (k : Nat) (x : ChEng) : (s.setEng k x).bars = s.bars := rfl
@[simp] theorem State.dbg_setEng (s : State) (k : Nat) (x : ChEng) : (s.setEng k x).dbg = s.dbg := rfl
@[simp] theorem State.mem_setEng (s : State) (k : Nat) (x : ChEng) : (s.setEng k x).mem = s.mem := rfl
@[simp] theorem State.tus_setEng (s : State) (k : Nat) (x : ChEng) : (s.setEng k x).tus = s.tus := rfl
@[simp] theorem State.cores_setEng (s : State) (k : Nat) (x : ChEng) : (s.setEng k x).cores = s.cores := rfl
@[simp] theorem State.etlb_setEng (s : State) (k : Nat) (x : ChEng) : (s.setEng k x).etlb = s.etlb := rfl
@[simp] theorem State.csmsF_setEng (s : State) (k : Nat) (x : ChEng) : (s.setEng k x).csms = s.csms := rfl
@[simp] theorem State.invs_setEng (s : State) (k : Nat) (x : ChEng) : (s.setEng k x).invs = s.invs := rfl
@[simp] theorem State.irqs_setEng (s : State) (k : Nat) (x : ChEng) : (s.setEng k x).irqs = s.irqs := rfl
@[simp] theorem State.chans_setEng (s : State) (k : Nat) (x : ChEng) : (s.setEng k x).chans = s.chans := rfl
@[simp] theorem State.fab_setEng (s : State) (k : Nat) (x : ChEng) : (s.setEng k x).fab = s.fab := rfl
@[simp] theorem State.icache_setEng (s : State) (k : Nat) (x : ChEng) : (s.setEng k x).icache = s.icache := rfl
@[simp] theorem State.copyqs_setEng (s : State) (k : Nat) (x : ChEng) : (s.setEng k x).copyqs = s.copyqs := rfl
@[simp] theorem State.ctxs_setEng (s : State) (k : Nat) (x : ChEng) : (s.setEng k x).ctxs = s.ctxs := rfl
@[simp] theorem State.ready_setEng (s : State) (k : Nat) (x : ChEng) : (s.setEng k x).ready = s.ready := rfl
@[simp] theorem State.lastSrc_setEng (s : State) (k : Nat) (x : ChEng) : (s.setEng k x).lastSrc = s.lastSrc := rfl
@[simp] theorem State.moves_setEng (s : State) (k : Nat) (x : ChEng) : (s.setEng k x).moves = s.moves := rfl
@[simp] theorem State.mats_setEng (s : State) (k : Nat) (x : ChEng) : (s.setEng k x).mats = s.mats := rfl
@[simp] theorem State.unserv_setEng (s : State) (k : Nat) (x : ChEng) : (s.setEng k x).unserv = s.unserv := rfl
@[simp] theorem State.nodeDone_setEng (s : State) (k : Nat) (x : ChEng) : (s.setEng k x).nodeDone = s.nodeDone := rfl
@[simp] theorem State.fetchBad_setEng (s : State) (k : Nat) (x : ChEng) : (s.setEng k x).fetchBad = s.fetchBad := rfl
@[simp] theorem State.queues_setEng (s : State) (k : Nat) (x : ChEng) : (s.setEng k x).queues = s.queues := rfl
@[simp] theorem State.graphs_setEng (s : State) (k : Nat) (x : ChEng) : (s.setEng k x).graphs = s.graphs := rfl
@[simp] theorem State.launches_setEng (s : State) (k : Nat) (x : ChEng) : (s.setEng k x).launches = s.launches := rfl
@[simp] theorem State.stages_setEng (s : State) (k : Nat) (x : ChEng) : (s.setEng k x).stages = s.stages := rfl
@[simp] theorem State.fes_setEng (s : State) (k : Nat) (x : ChEng) : (s.setEng k x).fes = s.fes := rfl
@[simp] theorem State.lds_setEng (s : State) (k : Nat) (x : ChEng) : (s.setEng k x).lds = s.lds := rfl
@[simp] theorem State.spdm_setEng (s : State) (k : Nat) (x : ChEng) : (s.setEng k x).spdm = s.spdm := rfl
@[simp] theorem State.host_setEng (s : State) (k : Nat) (x : ChEng) : (s.setEng k x).host = s.host := rfl
@[simp] theorem State.fib_setEng (s : State) (k : Nat) (x : ChEng) (j : Nat) : (s.setEng k x).fib j = s.fib j := rfl
@[simp] theorem State.band_setEng (s : State) (k : Nat) (x : ChEng) (j : Nat) : (s.setEng k x).band j = s.band j := rfl
@[simp] theorem State.wg_setEng (s : State) (k : Nat) (x : ChEng) (j : Nat) : (s.setEng k x).wg j = s.wg j := rfl
@[simp] theorem State.gang_setEng (s : State) (k : Nat) (x : ChEng) (j : Nat) : (s.setEng k x).gang j = s.gang j := rfl
@[simp] theorem State.share_setEng (s : State) (k : Nat) (x : ChEng) (j : Nat) : (s.setEng k x).share j = s.share j := rfl
@[simp] theorem State.mseq_setEng (s : State) (k : Nat) (x : ChEng) (j : Nat) : (s.setEng k x).mseq j = s.mseq j := rfl
@[simp] theorem State.cop_setEng (s : State) (k : Nat) (x : ChEng) (j : Nat) : (s.setEng k x).cop j = s.cop j := rfl
@[simp] theorem State.mat_setEng (s : State) (k : Nat) (x : ChEng) (j : Nat) : (s.setEng k x).mat j = s.mat j := rfl
@[simp] theorem State.chan_setEng (s : State) (k : Nat) (x : ChEng) (j : Nat) : (s.setEng k x).chan j = s.chan j := rfl
@[simp] theorem State.csm_setEng (s : State) (k : Nat) (x : ChEng) (j : Nat) : (s.setEng k x).csm j = s.csm j := rfl
@[simp] theorem State.queue_setEng (s : State) (k : Nat) (x : ChEng) (j : Nat) : (s.setEng k x).queue j = s.queue j := rfl
@[simp] theorem State.graph_setEng (s : State) (k : Nat) (x : ChEng) (j : Nat) : (s.setEng k x).graph j = s.graph j := rfl
@[simp] theorem State.fe_setEng (s : State) (k : Nat) (x : ChEng) (j : Nat) : (s.setEng k x).fe j = s.fe j := rfl
@[simp] theorem State.ld_setEng (s : State) (k : Nat) (x : ChEng) (j : Nat) : (s.setEng k x).ld j = s.ld j := rfl
@[simp] theorem State.stage_setEng (s : State) (k : Nat) (x : ChEng) (j : Nat) : (s.setEng k x).stage j = s.stage j := rfl
@[simp] theorem State.core_setEng (s : State) (k : Nat) (x : ChEng) (j : Nat) : (s.setEng k x).core j = s.core j := rfl
@[simp] theorem State.tu_setEng (s : State) (k : Nat) (x : ChEng) (j : Nat) : (s.setEng k x).tu j = s.tu j := rfl
@[simp] theorem State.home_setEng (s : State) (k : Nat) (x : ChEng) (j : Nat) : (s.setEng k x).home j = s.home j := rfl
@[simp] theorem State.launch_setEng (s : State) (k : Nat) (x : ChEng) (j : Nat) : (s.setEng k x).launch j = s.launch j := rfl

theorem State.csm_setCsm (s : State) (k : Nat) (x : Casement) (j : Nat) : (s.setCsm k x).csm j = if j = k then x else s.csm j :=
  Map.getD_put s.csms k j x _
@[simp] theorem State.csm_setCsm_self (s : State) (k : Nat) (x : Casement) : (s.setCsm k x).csm k = x := Map.getD_put_self s.csms k x _
@[simp] theorem State.updCsm_eq (s : State) (k : Nat) (f : Casement → Casement) : s.updCsm k f = s.setCsm k (f (s.csm k)) := rfl
@[simp] theorem State.csms_setCsm_eq (s : State) (k : Nat) (x : Casement) : (s.setCsm k x).csms = Map.put s.csms k x := rfl
@[simp] theorem State.agenda_setCsm (s : State) (k : Nat) (x : Casement) : (s.setCsm k x).agenda = s.agenda := rfl
@[simp] theorem State.focus_setCsm (s : State) (k : Nat) (x : Casement) : (s.setCsm k x).focus = s.focus := rfl
@[simp] theorem State.free_setCsm (s : State) (k : Nat) (x : Casement) : (s.setCsm k x).free = s.free := rfl
@[simp] theorem State.nextId_setCsm (s : State) (k : Nat) (x : Casement) : (s.setCsm k x).nextId = s.nextId := rfl
@[simp] theorem State.cycle_setCsm (s : State) (k : Nat) (x : Casement) : (s.setCsm k x).cycle = s.cycle := rfl
@[simp] theorem State.timeNs_setCsm (s : State) (k : Nat) (x : Casement) : (s.setCsm k x).timeNs = s.timeNs := rfl
@[simp] theorem State.fibres_setCsm (s : State) (k : Nat) (x : Casement) : (s.setCsm k x).fibres = s.fibres := rfl
@[simp] theorem State.bands_setCsm (s : State) (k : Nat) (x : Casement) : (s.setCsm k x).bands = s.bands := rfl
@[simp] theorem State.wgs_setCsm (s : State) (k : Nat) (x : Casement) : (s.setCsm k x).wgs = s.wgs := rfl
@[simp] theorem State.gangs_setCsm (s : State) (k : Nat) (x : Casement) : (s.setCsm k x).gangs = s.gangs := rfl
@[simp] theorem State.shares_setCsm (s : State) (k : Nat) (x : Casement) : (s.setCsm k x).shares = s.shares := rfl
@[simp] theorem State.mseqs_setCsm (s : State) (k : Nat) (x : Casement) : (s.setCsm k x).mseqs = s.mseqs := rfl
@[simp] theorem State.cops_setCsm (s : State) (k : Nat) (x : Casement) : (s.setCsm k x).cops = s.cops := rfl
@[simp] theorem State.bars_setCsm (s : State) (k : Nat) (x : Casement) : (s.setCsm k x).bars = s.bars := rfl
@[simp] theorem State.dbg_setCsm (s : State) (k : Nat) (x : Casement) : (s.setCsm k x).dbg = s.dbg := rfl
@[simp] theorem State.mem_setCsm (s : State) (k : Nat) (x : Casement) : (s.setCsm k x).mem = s.mem := rfl
@[simp] theorem State.tus_setCsm (s : State) (k : Nat) (x : Casement) : (s.setCsm k x).tus = s.tus := rfl
@[simp] theorem State.cores_setCsm (s : State) (k : Nat) (x : Casement) : (s.setCsm k x).cores = s.cores := rfl
@[simp] theorem State.etlb_setCsm (s : State) (k : Nat) (x : Casement) : (s.setCsm k x).etlb = s.etlb := rfl
@[simp] theorem State.invs_setCsm (s : State) (k : Nat) (x : Casement) : (s.setCsm k x).invs = s.invs := rfl
@[simp] theorem State.irqs_setCsm (s : State) (k : Nat) (x : Casement) : (s.setCsm k x).irqs = s.irqs := rfl
@[simp] theorem State.chans_setCsm (s : State) (k : Nat) (x : Casement) : (s.setCsm k x).chans = s.chans := rfl
@[simp] theorem State.engs_setCsm (s : State) (k : Nat) (x : Casement) : (s.setCsm k x).engs = s.engs := rfl
@[simp] theorem State.fab_setCsm (s : State) (k : Nat) (x : Casement) : (s.setCsm k x).fab = s.fab := rfl
@[simp] theorem State.icache_setCsm (s : State) (k : Nat) (x : Casement) : (s.setCsm k x).icache = s.icache := rfl
@[simp] theorem State.copyqs_setCsm (s : State) (k : Nat) (x : Casement) : (s.setCsm k x).copyqs = s.copyqs := rfl
@[simp] theorem State.ctxs_setCsm (s : State) (k : Nat) (x : Casement) : (s.setCsm k x).ctxs = s.ctxs := rfl
@[simp] theorem State.ready_setCsm (s : State) (k : Nat) (x : Casement) : (s.setCsm k x).ready = s.ready := rfl
@[simp] theorem State.lastSrc_setCsm (s : State) (k : Nat) (x : Casement) : (s.setCsm k x).lastSrc = s.lastSrc := rfl
@[simp] theorem State.moves_setCsm (s : State) (k : Nat) (x : Casement) : (s.setCsm k x).moves = s.moves := rfl
@[simp] theorem State.mats_setCsm (s : State) (k : Nat) (x : Casement) : (s.setCsm k x).mats = s.mats := rfl
@[simp] theorem State.unserv_setCsm (s : State) (k : Nat) (x : Casement) : (s.setCsm k x).unserv = s.unserv := rfl
@[simp] theorem State.nodeDone_setCsm (s : State) (k : Nat) (x : Casement) : (s.setCsm k x).nodeDone = s.nodeDone := rfl
@[simp] theorem State.fetchBad_setCsm (s : State) (k : Nat) (x : Casement) : (s.setCsm k x).fetchBad = s.fetchBad := rfl
@[simp] theorem State.queues_setCsm (s : State) (k : Nat) (x : Casement) : (s.setCsm k x).queues = s.queues := rfl
@[simp] theorem State.graphs_setCsm (s : State) (k : Nat) (x : Casement) : (s.setCsm k x).graphs = s.graphs := rfl
@[simp] theorem State.launches_setCsm (s : State) (k : Nat) (x : Casement) : (s.setCsm k x).launches = s.launches := rfl
@[simp] theorem State.stages_setCsm (s : State) (k : Nat) (x : Casement) : (s.setCsm k x).stages = s.stages := rfl
@[simp] theorem State.fes_setCsm (s : State) (k : Nat) (x : Casement) : (s.setCsm k x).fes = s.fes := rfl
@[simp] theorem State.lds_setCsm (s : State) (k : Nat) (x : Casement) : (s.setCsm k x).lds = s.lds := rfl
@[simp] theorem State.spdm_setCsm (s : State) (k : Nat) (x : Casement) : (s.setCsm k x).spdm = s.spdm := rfl
@[simp] theorem State.host_setCsm (s : State) (k : Nat) (x : Casement) : (s.setCsm k x).host = s.host := rfl
@[simp] theorem State.fib_setCsm (s : State) (k : Nat) (x : Casement) (j : Nat) : (s.setCsm k x).fib j = s.fib j := rfl
@[simp] theorem State.band_setCsm (s : State) (k : Nat) (x : Casement) (j : Nat) : (s.setCsm k x).band j = s.band j := rfl
@[simp] theorem State.wg_setCsm (s : State) (k : Nat) (x : Casement) (j : Nat) : (s.setCsm k x).wg j = s.wg j := rfl
@[simp] theorem State.gang_setCsm (s : State) (k : Nat) (x : Casement) (j : Nat) : (s.setCsm k x).gang j = s.gang j := rfl
@[simp] theorem State.share_setCsm (s : State) (k : Nat) (x : Casement) (j : Nat) : (s.setCsm k x).share j = s.share j := rfl
@[simp] theorem State.mseq_setCsm (s : State) (k : Nat) (x : Casement) (j : Nat) : (s.setCsm k x).mseq j = s.mseq j := rfl
@[simp] theorem State.cop_setCsm (s : State) (k : Nat) (x : Casement) (j : Nat) : (s.setCsm k x).cop j = s.cop j := rfl
@[simp] theorem State.mat_setCsm (s : State) (k : Nat) (x : Casement) (j : Nat) : (s.setCsm k x).mat j = s.mat j := rfl
@[simp] theorem State.chan_setCsm (s : State) (k : Nat) (x : Casement) (j : Nat) : (s.setCsm k x).chan j = s.chan j := rfl
@[simp] theorem State.eng_setCsm (s : State) (k : Nat) (x : Casement) (j : Nat) : (s.setCsm k x).eng j = s.eng j := rfl
@[simp] theorem State.queue_setCsm (s : State) (k : Nat) (x : Casement) (j : Nat) : (s.setCsm k x).queue j = s.queue j := rfl
@[simp] theorem State.graph_setCsm (s : State) (k : Nat) (x : Casement) (j : Nat) : (s.setCsm k x).graph j = s.graph j := rfl
@[simp] theorem State.fe_setCsm (s : State) (k : Nat) (x : Casement) (j : Nat) : (s.setCsm k x).fe j = s.fe j := rfl
@[simp] theorem State.ld_setCsm (s : State) (k : Nat) (x : Casement) (j : Nat) : (s.setCsm k x).ld j = s.ld j := rfl
@[simp] theorem State.stage_setCsm (s : State) (k : Nat) (x : Casement) (j : Nat) : (s.setCsm k x).stage j = s.stage j := rfl
@[simp] theorem State.core_setCsm (s : State) (k : Nat) (x : Casement) (j : Nat) : (s.setCsm k x).core j = s.core j := rfl
@[simp] theorem State.tu_setCsm (s : State) (k : Nat) (x : Casement) (j : Nat) : (s.setCsm k x).tu j = s.tu j := rfl
@[simp] theorem State.home_setCsm (s : State) (k : Nat) (x : Casement) (j : Nat) : (s.setCsm k x).home j = s.home j := rfl
@[simp] theorem State.launch_setCsm (s : State) (k : Nat) (x : Casement) (j : Nat) : (s.setCsm k x).launch j = s.launch j := rfl

theorem State.queue_setQueue (s : State) (k : Nat) (x : Queue) (j : Nat) : (s.setQueue k x).queue j = if j = k then x else s.queue j :=
  Map.getD_put s.queues k j x _
@[simp] theorem State.queue_setQueue_self (s : State) (k : Nat) (x : Queue) : (s.setQueue k x).queue k = x := Map.getD_put_self s.queues k x _
@[simp] theorem State.updQueue_eq (s : State) (k : Nat) (f : Queue → Queue) : s.updQueue k f = s.setQueue k (f (s.queue k)) := rfl
@[simp] theorem State.queues_setQueue_eq (s : State) (k : Nat) (x : Queue) : (s.setQueue k x).queues = Map.put s.queues k x := rfl
@[simp] theorem State.agenda_setQueue (s : State) (k : Nat) (x : Queue) : (s.setQueue k x).agenda = s.agenda := rfl
@[simp] theorem State.focus_setQueue (s : State) (k : Nat) (x : Queue) : (s.setQueue k x).focus = s.focus := rfl
@[simp] theorem State.free_setQueue (s : State) (k : Nat) (x : Queue) : (s.setQueue k x).free = s.free := rfl
@[simp] theorem State.nextId_setQueue (s : State) (k : Nat) (x : Queue) : (s.setQueue k x).nextId = s.nextId := rfl
@[simp] theorem State.cycle_setQueue (s : State) (k : Nat) (x : Queue) : (s.setQueue k x).cycle = s.cycle := rfl
@[simp] theorem State.timeNs_setQueue (s : State) (k : Nat) (x : Queue) : (s.setQueue k x).timeNs = s.timeNs := rfl
@[simp] theorem State.fibres_setQueue (s : State) (k : Nat) (x : Queue) : (s.setQueue k x).fibres = s.fibres := rfl
@[simp] theorem State.bands_setQueue (s : State) (k : Nat) (x : Queue) : (s.setQueue k x).bands = s.bands := rfl
@[simp] theorem State.wgs_setQueue (s : State) (k : Nat) (x : Queue) : (s.setQueue k x).wgs = s.wgs := rfl
@[simp] theorem State.gangs_setQueue (s : State) (k : Nat) (x : Queue) : (s.setQueue k x).gangs = s.gangs := rfl
@[simp] theorem State.shares_setQueue (s : State) (k : Nat) (x : Queue) : (s.setQueue k x).shares = s.shares := rfl
@[simp] theorem State.mseqs_setQueue (s : State) (k : Nat) (x : Queue) : (s.setQueue k x).mseqs = s.mseqs := rfl
@[simp] theorem State.cops_setQueue (s : State) (k : Nat) (x : Queue) : (s.setQueue k x).cops = s.cops := rfl
@[simp] theorem State.bars_setQueue (s : State) (k : Nat) (x : Queue) : (s.setQueue k x).bars = s.bars := rfl
@[simp] theorem State.dbg_setQueue (s : State) (k : Nat) (x : Queue) : (s.setQueue k x).dbg = s.dbg := rfl
@[simp] theorem State.mem_setQueue (s : State) (k : Nat) (x : Queue) : (s.setQueue k x).mem = s.mem := rfl
@[simp] theorem State.tus_setQueue (s : State) (k : Nat) (x : Queue) : (s.setQueue k x).tus = s.tus := rfl
@[simp] theorem State.cores_setQueue (s : State) (k : Nat) (x : Queue) : (s.setQueue k x).cores = s.cores := rfl
@[simp] theorem State.etlb_setQueue (s : State) (k : Nat) (x : Queue) : (s.setQueue k x).etlb = s.etlb := rfl
@[simp] theorem State.csmsF_setQueue (s : State) (k : Nat) (x : Queue) : (s.setQueue k x).csms = s.csms := rfl
@[simp] theorem State.invs_setQueue (s : State) (k : Nat) (x : Queue) : (s.setQueue k x).invs = s.invs := rfl
@[simp] theorem State.irqs_setQueue (s : State) (k : Nat) (x : Queue) : (s.setQueue k x).irqs = s.irqs := rfl
@[simp] theorem State.chans_setQueue (s : State) (k : Nat) (x : Queue) : (s.setQueue k x).chans = s.chans := rfl
@[simp] theorem State.engs_setQueue (s : State) (k : Nat) (x : Queue) : (s.setQueue k x).engs = s.engs := rfl
@[simp] theorem State.fab_setQueue (s : State) (k : Nat) (x : Queue) : (s.setQueue k x).fab = s.fab := rfl
@[simp] theorem State.icache_setQueue (s : State) (k : Nat) (x : Queue) : (s.setQueue k x).icache = s.icache := rfl
@[simp] theorem State.copyqs_setQueue (s : State) (k : Nat) (x : Queue) : (s.setQueue k x).copyqs = s.copyqs := rfl
@[simp] theorem State.ctxs_setQueue (s : State) (k : Nat) (x : Queue) : (s.setQueue k x).ctxs = s.ctxs := rfl
@[simp] theorem State.ready_setQueue (s : State) (k : Nat) (x : Queue) : (s.setQueue k x).ready = s.ready := rfl
@[simp] theorem State.lastSrc_setQueue (s : State) (k : Nat) (x : Queue) : (s.setQueue k x).lastSrc = s.lastSrc := rfl
@[simp] theorem State.moves_setQueue (s : State) (k : Nat) (x : Queue) : (s.setQueue k x).moves = s.moves := rfl
@[simp] theorem State.mats_setQueue (s : State) (k : Nat) (x : Queue) : (s.setQueue k x).mats = s.mats := rfl
@[simp] theorem State.unserv_setQueue (s : State) (k : Nat) (x : Queue) : (s.setQueue k x).unserv = s.unserv := rfl
@[simp] theorem State.nodeDone_setQueue (s : State) (k : Nat) (x : Queue) : (s.setQueue k x).nodeDone = s.nodeDone := rfl
@[simp] theorem State.fetchBad_setQueue (s : State) (k : Nat) (x : Queue) : (s.setQueue k x).fetchBad = s.fetchBad := rfl
@[simp] theorem State.graphs_setQueue (s : State) (k : Nat) (x : Queue) : (s.setQueue k x).graphs = s.graphs := rfl
@[simp] theorem State.launches_setQueue (s : State) (k : Nat) (x : Queue) : (s.setQueue k x).launches = s.launches := rfl
@[simp] theorem State.stages_setQueue (s : State) (k : Nat) (x : Queue) : (s.setQueue k x).stages = s.stages := rfl
@[simp] theorem State.fes_setQueue (s : State) (k : Nat) (x : Queue) : (s.setQueue k x).fes = s.fes := rfl
@[simp] theorem State.lds_setQueue (s : State) (k : Nat) (x : Queue) : (s.setQueue k x).lds = s.lds := rfl
@[simp] theorem State.spdm_setQueue (s : State) (k : Nat) (x : Queue) : (s.setQueue k x).spdm = s.spdm := rfl
@[simp] theorem State.host_setQueue (s : State) (k : Nat) (x : Queue) : (s.setQueue k x).host = s.host := rfl
@[simp] theorem State.fib_setQueue (s : State) (k : Nat) (x : Queue) (j : Nat) : (s.setQueue k x).fib j = s.fib j := rfl
@[simp] theorem State.band_setQueue (s : State) (k : Nat) (x : Queue) (j : Nat) : (s.setQueue k x).band j = s.band j := rfl
@[simp] theorem State.wg_setQueue (s : State) (k : Nat) (x : Queue) (j : Nat) : (s.setQueue k x).wg j = s.wg j := rfl
@[simp] theorem State.gang_setQueue (s : State) (k : Nat) (x : Queue) (j : Nat) : (s.setQueue k x).gang j = s.gang j := rfl
@[simp] theorem State.share_setQueue (s : State) (k : Nat) (x : Queue) (j : Nat) : (s.setQueue k x).share j = s.share j := rfl
@[simp] theorem State.mseq_setQueue (s : State) (k : Nat) (x : Queue) (j : Nat) : (s.setQueue k x).mseq j = s.mseq j := rfl
@[simp] theorem State.cop_setQueue (s : State) (k : Nat) (x : Queue) (j : Nat) : (s.setQueue k x).cop j = s.cop j := rfl
@[simp] theorem State.mat_setQueue (s : State) (k : Nat) (x : Queue) (j : Nat) : (s.setQueue k x).mat j = s.mat j := rfl
@[simp] theorem State.chan_setQueue (s : State) (k : Nat) (x : Queue) (j : Nat) : (s.setQueue k x).chan j = s.chan j := rfl
@[simp] theorem State.eng_setQueue (s : State) (k : Nat) (x : Queue) (j : Nat) : (s.setQueue k x).eng j = s.eng j := rfl
@[simp] theorem State.csm_setQueue (s : State) (k : Nat) (x : Queue) (j : Nat) : (s.setQueue k x).csm j = s.csm j := rfl
@[simp] theorem State.graph_setQueue (s : State) (k : Nat) (x : Queue) (j : Nat) : (s.setQueue k x).graph j = s.graph j := rfl
@[simp] theorem State.fe_setQueue (s : State) (k : Nat) (x : Queue) (j : Nat) : (s.setQueue k x).fe j = s.fe j := rfl
@[simp] theorem State.ld_setQueue (s : State) (k : Nat) (x : Queue) (j : Nat) : (s.setQueue k x).ld j = s.ld j := rfl
@[simp] theorem State.stage_setQueue (s : State) (k : Nat) (x : Queue) (j : Nat) : (s.setQueue k x).stage j = s.stage j := rfl
@[simp] theorem State.core_setQueue (s : State) (k : Nat) (x : Queue) (j : Nat) : (s.setQueue k x).core j = s.core j := rfl
@[simp] theorem State.tu_setQueue (s : State) (k : Nat) (x : Queue) (j : Nat) : (s.setQueue k x).tu j = s.tu j := rfl
@[simp] theorem State.home_setQueue (s : State) (k : Nat) (x : Queue) (j : Nat) : (s.setQueue k x).home j = s.home j := rfl
@[simp] theorem State.launch_setQueue (s : State) (k : Nat) (x : Queue) (j : Nat) : (s.setQueue k x).launch j = s.launch j := rfl

theorem State.graph_setGraph (s : State) (k : Nat) (x : Graph) (j : Nat) : (s.setGraph k x).graph j = if j = k then x else s.graph j :=
  Map.getD_put s.graphs k j x _
@[simp] theorem State.graph_setGraph_self (s : State) (k : Nat) (x : Graph) : (s.setGraph k x).graph k = x := Map.getD_put_self s.graphs k x _
@[simp] theorem State.updGraph_eq (s : State) (k : Nat) (f : Graph → Graph) : s.updGraph k f = s.setGraph k (f (s.graph k)) := rfl
@[simp] theorem State.graphs_setGraph_eq (s : State) (k : Nat) (x : Graph) : (s.setGraph k x).graphs = Map.put s.graphs k x := rfl
@[simp] theorem State.agenda_setGraph (s : State) (k : Nat) (x : Graph) : (s.setGraph k x).agenda = s.agenda := rfl
@[simp] theorem State.focus_setGraph (s : State) (k : Nat) (x : Graph) : (s.setGraph k x).focus = s.focus := rfl
@[simp] theorem State.free_setGraph (s : State) (k : Nat) (x : Graph) : (s.setGraph k x).free = s.free := rfl
@[simp] theorem State.nextId_setGraph (s : State) (k : Nat) (x : Graph) : (s.setGraph k x).nextId = s.nextId := rfl
@[simp] theorem State.cycle_setGraph (s : State) (k : Nat) (x : Graph) : (s.setGraph k x).cycle = s.cycle := rfl
@[simp] theorem State.timeNs_setGraph (s : State) (k : Nat) (x : Graph) : (s.setGraph k x).timeNs = s.timeNs := rfl
@[simp] theorem State.fibres_setGraph (s : State) (k : Nat) (x : Graph) : (s.setGraph k x).fibres = s.fibres := rfl
@[simp] theorem State.bands_setGraph (s : State) (k : Nat) (x : Graph) : (s.setGraph k x).bands = s.bands := rfl
@[simp] theorem State.wgs_setGraph (s : State) (k : Nat) (x : Graph) : (s.setGraph k x).wgs = s.wgs := rfl
@[simp] theorem State.gangs_setGraph (s : State) (k : Nat) (x : Graph) : (s.setGraph k x).gangs = s.gangs := rfl
@[simp] theorem State.shares_setGraph (s : State) (k : Nat) (x : Graph) : (s.setGraph k x).shares = s.shares := rfl
@[simp] theorem State.mseqs_setGraph (s : State) (k : Nat) (x : Graph) : (s.setGraph k x).mseqs = s.mseqs := rfl
@[simp] theorem State.cops_setGraph (s : State) (k : Nat) (x : Graph) : (s.setGraph k x).cops = s.cops := rfl
@[simp] theorem State.bars_setGraph (s : State) (k : Nat) (x : Graph) : (s.setGraph k x).bars = s.bars := rfl
@[simp] theorem State.dbg_setGraph (s : State) (k : Nat) (x : Graph) : (s.setGraph k x).dbg = s.dbg := rfl
@[simp] theorem State.mem_setGraph (s : State) (k : Nat) (x : Graph) : (s.setGraph k x).mem = s.mem := rfl
@[simp] theorem State.tus_setGraph (s : State) (k : Nat) (x : Graph) : (s.setGraph k x).tus = s.tus := rfl
@[simp] theorem State.cores_setGraph (s : State) (k : Nat) (x : Graph) : (s.setGraph k x).cores = s.cores := rfl
@[simp] theorem State.etlb_setGraph (s : State) (k : Nat) (x : Graph) : (s.setGraph k x).etlb = s.etlb := rfl
@[simp] theorem State.csmsF_setGraph (s : State) (k : Nat) (x : Graph) : (s.setGraph k x).csms = s.csms := rfl
@[simp] theorem State.invs_setGraph (s : State) (k : Nat) (x : Graph) : (s.setGraph k x).invs = s.invs := rfl
@[simp] theorem State.irqs_setGraph (s : State) (k : Nat) (x : Graph) : (s.setGraph k x).irqs = s.irqs := rfl
@[simp] theorem State.chans_setGraph (s : State) (k : Nat) (x : Graph) : (s.setGraph k x).chans = s.chans := rfl
@[simp] theorem State.engs_setGraph (s : State) (k : Nat) (x : Graph) : (s.setGraph k x).engs = s.engs := rfl
@[simp] theorem State.fab_setGraph (s : State) (k : Nat) (x : Graph) : (s.setGraph k x).fab = s.fab := rfl
@[simp] theorem State.icache_setGraph (s : State) (k : Nat) (x : Graph) : (s.setGraph k x).icache = s.icache := rfl
@[simp] theorem State.copyqs_setGraph (s : State) (k : Nat) (x : Graph) : (s.setGraph k x).copyqs = s.copyqs := rfl
@[simp] theorem State.ctxs_setGraph (s : State) (k : Nat) (x : Graph) : (s.setGraph k x).ctxs = s.ctxs := rfl
@[simp] theorem State.ready_setGraph (s : State) (k : Nat) (x : Graph) : (s.setGraph k x).ready = s.ready := rfl
@[simp] theorem State.lastSrc_setGraph (s : State) (k : Nat) (x : Graph) : (s.setGraph k x).lastSrc = s.lastSrc := rfl
@[simp] theorem State.moves_setGraph (s : State) (k : Nat) (x : Graph) : (s.setGraph k x).moves = s.moves := rfl
@[simp] theorem State.mats_setGraph (s : State) (k : Nat) (x : Graph) : (s.setGraph k x).mats = s.mats := rfl
@[simp] theorem State.unserv_setGraph (s : State) (k : Nat) (x : Graph) : (s.setGraph k x).unserv = s.unserv := rfl
@[simp] theorem State.nodeDone_setGraph (s : State) (k : Nat) (x : Graph) : (s.setGraph k x).nodeDone = s.nodeDone := rfl
@[simp] theorem State.fetchBad_setGraph (s : State) (k : Nat) (x : Graph) : (s.setGraph k x).fetchBad = s.fetchBad := rfl
@[simp] theorem State.queues_setGraph (s : State) (k : Nat) (x : Graph) : (s.setGraph k x).queues = s.queues := rfl
@[simp] theorem State.launches_setGraph (s : State) (k : Nat) (x : Graph) : (s.setGraph k x).launches = s.launches := rfl
@[simp] theorem State.stages_setGraph (s : State) (k : Nat) (x : Graph) : (s.setGraph k x).stages = s.stages := rfl
@[simp] theorem State.fes_setGraph (s : State) (k : Nat) (x : Graph) : (s.setGraph k x).fes = s.fes := rfl
@[simp] theorem State.lds_setGraph (s : State) (k : Nat) (x : Graph) : (s.setGraph k x).lds = s.lds := rfl
@[simp] theorem State.spdm_setGraph (s : State) (k : Nat) (x : Graph) : (s.setGraph k x).spdm = s.spdm := rfl
@[simp] theorem State.host_setGraph (s : State) (k : Nat) (x : Graph) : (s.setGraph k x).host = s.host := rfl
@[simp] theorem State.fib_setGraph (s : State) (k : Nat) (x : Graph) (j : Nat) : (s.setGraph k x).fib j = s.fib j := rfl
@[simp] theorem State.band_setGraph (s : State) (k : Nat) (x : Graph) (j : Nat) : (s.setGraph k x).band j = s.band j := rfl
@[simp] theorem State.wg_setGraph (s : State) (k : Nat) (x : Graph) (j : Nat) : (s.setGraph k x).wg j = s.wg j := rfl
@[simp] theorem State.gang_setGraph (s : State) (k : Nat) (x : Graph) (j : Nat) : (s.setGraph k x).gang j = s.gang j := rfl
@[simp] theorem State.share_setGraph (s : State) (k : Nat) (x : Graph) (j : Nat) : (s.setGraph k x).share j = s.share j := rfl
@[simp] theorem State.mseq_setGraph (s : State) (k : Nat) (x : Graph) (j : Nat) : (s.setGraph k x).mseq j = s.mseq j := rfl
@[simp] theorem State.cop_setGraph (s : State) (k : Nat) (x : Graph) (j : Nat) : (s.setGraph k x).cop j = s.cop j := rfl
@[simp] theorem State.mat_setGraph (s : State) (k : Nat) (x : Graph) (j : Nat) : (s.setGraph k x).mat j = s.mat j := rfl
@[simp] theorem State.chan_setGraph (s : State) (k : Nat) (x : Graph) (j : Nat) : (s.setGraph k x).chan j = s.chan j := rfl
@[simp] theorem State.eng_setGraph (s : State) (k : Nat) (x : Graph) (j : Nat) : (s.setGraph k x).eng j = s.eng j := rfl
@[simp] theorem State.csm_setGraph (s : State) (k : Nat) (x : Graph) (j : Nat) : (s.setGraph k x).csm j = s.csm j := rfl
@[simp] theorem State.queue_setGraph (s : State) (k : Nat) (x : Graph) (j : Nat) : (s.setGraph k x).queue j = s.queue j := rfl
@[simp] theorem State.fe_setGraph (s : State) (k : Nat) (x : Graph) (j : Nat) : (s.setGraph k x).fe j = s.fe j := rfl
@[simp] theorem State.ld_setGraph (s : State) (k : Nat) (x : Graph) (j : Nat) : (s.setGraph k x).ld j = s.ld j := rfl
@[simp] theorem State.stage_setGraph (s : State) (k : Nat) (x : Graph) (j : Nat) : (s.setGraph k x).stage j = s.stage j := rfl
@[simp] theorem State.core_setGraph (s : State) (k : Nat) (x : Graph) (j : Nat) : (s.setGraph k x).core j = s.core j := rfl
@[simp] theorem State.tu_setGraph (s : State) (k : Nat) (x : Graph) (j : Nat) : (s.setGraph k x).tu j = s.tu j := rfl
@[simp] theorem State.home_setGraph (s : State) (k : Nat) (x : Graph) (j : Nat) : (s.setGraph k x).home j = s.home j := rfl
@[simp] theorem State.launch_setGraph (s : State) (k : Nat) (x : Graph) (j : Nat) : (s.setGraph k x).launch j = s.launch j := rfl

theorem State.fe_setFe (s : State) (k : Nat) (x : Fe) (j : Nat) : (s.setFe k x).fe j = if j = k then x else s.fe j :=
  Map.getD_put s.fes k j x _
@[simp] theorem State.fe_setFe_self (s : State) (k : Nat) (x : Fe) : (s.setFe k x).fe k = x := Map.getD_put_self s.fes k x _
@[simp] theorem State.updFe_eq (s : State) (k : Nat) (f : Fe → Fe) : s.updFe k f = s.setFe k (f (s.fe k)) := rfl
@[simp] theorem State.fes_setFe_eq (s : State) (k : Nat) (x : Fe) : (s.setFe k x).fes = Map.put s.fes k x := rfl
@[simp] theorem State.agenda_setFe (s : State) (k : Nat) (x : Fe) : (s.setFe k x).agenda = s.agenda := rfl
@[simp] theorem State.focus_setFe (s : State) (k : Nat) (x : Fe) : (s.setFe k x).focus = s.focus := rfl
@[simp] theorem State.free_setFe (s : State) (k : Nat) (x : Fe) : (s.setFe k x).free = s.free := rfl
@[simp] theorem State.nextId_setFe (s : State) (k : Nat) (x : Fe) : (s.setFe k x).nextId = s.nextId := rfl
@[simp] theorem State.cycle_setFe (s : State) (k : Nat) (x : Fe) : (s.setFe k x).cycle = s.cycle := rfl
@[simp] theorem State.timeNs_setFe (s : State) (k : Nat) (x : Fe) : (s.setFe k x).timeNs = s.timeNs := rfl
@[simp] theorem State.fibres_setFe (s : State) (k : Nat) (x : Fe) : (s.setFe k x).fibres = s.fibres := rfl
@[simp] theorem State.bands_setFe (s : State) (k : Nat) (x : Fe) : (s.setFe k x).bands = s.bands := rfl
@[simp] theorem State.wgs_setFe (s : State) (k : Nat) (x : Fe) : (s.setFe k x).wgs = s.wgs := rfl
@[simp] theorem State.gangs_setFe (s : State) (k : Nat) (x : Fe) : (s.setFe k x).gangs = s.gangs := rfl
@[simp] theorem State.shares_setFe (s : State) (k : Nat) (x : Fe) : (s.setFe k x).shares = s.shares := rfl
@[simp] theorem State.mseqs_setFe (s : State) (k : Nat) (x : Fe) : (s.setFe k x).mseqs = s.mseqs := rfl
@[simp] theorem State.cops_setFe (s : State) (k : Nat) (x : Fe) : (s.setFe k x).cops = s.cops := rfl
@[simp] theorem State.bars_setFe (s : State) (k : Nat) (x : Fe) : (s.setFe k x).bars = s.bars := rfl
@[simp] theorem State.dbg_setFe (s : State) (k : Nat) (x : Fe) : (s.setFe k x).dbg = s.dbg := rfl
@[simp] theorem State.mem_setFe (s : State) (k : Nat) (x : Fe) : (s.setFe k x).mem = s.mem := rfl
@[simp] theorem State.tus_setFe (s : State) (k : Nat) (x : Fe) : (s.setFe k x).tus = s.tus := rfl
@[simp] theorem State.cores_setFe (s : State) (k : Nat) (x : Fe) : (s.setFe k x).cores = s.cores := rfl
@[simp] theorem State.etlb_setFe (s : State) (k : Nat) (x : Fe) : (s.setFe k x).etlb = s.etlb := rfl
@[simp] theorem State.csmsF_setFe (s : State) (k : Nat) (x : Fe) : (s.setFe k x).csms = s.csms := rfl
@[simp] theorem State.invs_setFe (s : State) (k : Nat) (x : Fe) : (s.setFe k x).invs = s.invs := rfl
@[simp] theorem State.irqs_setFe (s : State) (k : Nat) (x : Fe) : (s.setFe k x).irqs = s.irqs := rfl
@[simp] theorem State.chans_setFe (s : State) (k : Nat) (x : Fe) : (s.setFe k x).chans = s.chans := rfl
@[simp] theorem State.engs_setFe (s : State) (k : Nat) (x : Fe) : (s.setFe k x).engs = s.engs := rfl
@[simp] theorem State.fab_setFe (s : State) (k : Nat) (x : Fe) : (s.setFe k x).fab = s.fab := rfl
@[simp] theorem State.icache_setFe (s : State) (k : Nat) (x : Fe) : (s.setFe k x).icache = s.icache := rfl
@[simp] theorem State.copyqs_setFe (s : State) (k : Nat) (x : Fe) : (s.setFe k x).copyqs = s.copyqs := rfl
@[simp] theorem State.ctxs_setFe (s : State) (k : Nat) (x : Fe) : (s.setFe k x).ctxs = s.ctxs := rfl
@[simp] theorem State.ready_setFe (s : State) (k : Nat) (x : Fe) : (s.setFe k x).ready = s.ready := rfl
@[simp] theorem State.lastSrc_setFe (s : State) (k : Nat) (x : Fe) : (s.setFe k x).lastSrc = s.lastSrc := rfl
@[simp] theorem State.moves_setFe (s : State) (k : Nat) (x : Fe) : (s.setFe k x).moves = s.moves := rfl
@[simp] theorem State.mats_setFe (s : State) (k : Nat) (x : Fe) : (s.setFe k x).mats = s.mats := rfl
@[simp] theorem State.unserv_setFe (s : State) (k : Nat) (x : Fe) : (s.setFe k x).unserv = s.unserv := rfl
@[simp] theorem State.nodeDone_setFe (s : State) (k : Nat) (x : Fe) : (s.setFe k x).nodeDone = s.nodeDone := rfl
@[simp] theorem State.fetchBad_setFe (s : State) (k : Nat) (x : Fe) : (s.setFe k x).fetchBad = s.fetchBad := rfl
@[simp] theorem State.queues_setFe (s : State) (k : Nat) (x : Fe) : (s.setFe k x).queues = s.queues := rfl
@[simp] theorem State.graphs_setFe (s : State) (k : Nat) (x : Fe) : (s.setFe k x).graphs = s.graphs := rfl
@[simp] theorem State.launches_setFe (s : State) (k : Nat) (x : Fe) : (s.setFe k x).launches = s.launches := rfl
@[simp] theorem State.stages_setFe (s : State) (k : Nat) (x : Fe) : (s.setFe k x).stages = s.stages := rfl
@[simp] theorem State.lds_setFe (s : State) (k : Nat) (x : Fe) : (s.setFe k x).lds = s.lds := rfl
@[simp] theorem State.spdm_setFe (s : State) (k : Nat) (x : Fe) : (s.setFe k x).spdm = s.spdm := rfl
@[simp] theorem State.host_setFe (s : State) (k : Nat) (x : Fe) : (s.setFe k x).host = s.host := rfl
@[simp] theorem State.fib_setFe (s : State) (k : Nat) (x : Fe) (j : Nat) : (s.setFe k x).fib j = s.fib j := rfl
@[simp] theorem State.band_setFe (s : State) (k : Nat) (x : Fe) (j : Nat) : (s.setFe k x).band j = s.band j := rfl
@[simp] theorem State.wg_setFe (s : State) (k : Nat) (x : Fe) (j : Nat) : (s.setFe k x).wg j = s.wg j := rfl
@[simp] theorem State.gang_setFe (s : State) (k : Nat) (x : Fe) (j : Nat) : (s.setFe k x).gang j = s.gang j := rfl
@[simp] theorem State.share_setFe (s : State) (k : Nat) (x : Fe) (j : Nat) : (s.setFe k x).share j = s.share j := rfl
@[simp] theorem State.mseq_setFe (s : State) (k : Nat) (x : Fe) (j : Nat) : (s.setFe k x).mseq j = s.mseq j := rfl
@[simp] theorem State.cop_setFe (s : State) (k : Nat) (x : Fe) (j : Nat) : (s.setFe k x).cop j = s.cop j := rfl
@[simp] theorem State.mat_setFe (s : State) (k : Nat) (x : Fe) (j : Nat) : (s.setFe k x).mat j = s.mat j := rfl
@[simp] theorem State.chan_setFe (s : State) (k : Nat) (x : Fe) (j : Nat) : (s.setFe k x).chan j = s.chan j := rfl
@[simp] theorem State.eng_setFe (s : State) (k : Nat) (x : Fe) (j : Nat) : (s.setFe k x).eng j = s.eng j := rfl
@[simp] theorem State.csm_setFe (s : State) (k : Nat) (x : Fe) (j : Nat) : (s.setFe k x).csm j = s.csm j := rfl
@[simp] theorem State.queue_setFe (s : State) (k : Nat) (x : Fe) (j : Nat) : (s.setFe k x).queue j = s.queue j := rfl
@[simp] theorem State.graph_setFe (s : State) (k : Nat) (x : Fe) (j : Nat) : (s.setFe k x).graph j = s.graph j := rfl
@[simp] theorem State.ld_setFe (s : State) (k : Nat) (x : Fe) (j : Nat) : (s.setFe k x).ld j = s.ld j := rfl
@[simp] theorem State.stage_setFe (s : State) (k : Nat) (x : Fe) (j : Nat) : (s.setFe k x).stage j = s.stage j := rfl
@[simp] theorem State.core_setFe (s : State) (k : Nat) (x : Fe) (j : Nat) : (s.setFe k x).core j = s.core j := rfl
@[simp] theorem State.tu_setFe (s : State) (k : Nat) (x : Fe) (j : Nat) : (s.setFe k x).tu j = s.tu j := rfl
@[simp] theorem State.home_setFe (s : State) (k : Nat) (x : Fe) (j : Nat) : (s.setFe k x).home j = s.home j := rfl
@[simp] theorem State.launch_setFe (s : State) (k : Nat) (x : Fe) (j : Nat) : (s.setFe k x).launch j = s.launch j := rfl

theorem State.ld_setLd (s : State) (k : Nat) (x : Ld) (j : Nat) : (s.setLd k x).ld j = if j = k then x else s.ld j :=
  Map.getD_put s.lds k j x _
@[simp] theorem State.ld_setLd_self (s : State) (k : Nat) (x : Ld) : (s.setLd k x).ld k = x := Map.getD_put_self s.lds k x _
@[simp] theorem State.updLd_eq (s : State) (k : Nat) (f : Ld → Ld) : s.updLd k f = s.setLd k (f (s.ld k)) := rfl
@[simp] theorem State.lds_setLd_eq (s : State) (k : Nat) (x : Ld) : (s.setLd k x).lds = Map.put s.lds k x := rfl
@[simp] theorem State.agenda_setLd (s : State) (k : Nat) (x : Ld) : (s.setLd k x).agenda = s.agenda := rfl
@[simp] theorem State.focus_setLd (s : State) (k : Nat) (x : Ld) : (s.setLd k x).focus = s.focus := rfl
@[simp] theorem State.free_setLd (s : State) (k : Nat) (x : Ld) : (s.setLd k x).free = s.free := rfl
@[simp] theorem State.nextId_setLd (s : State) (k : Nat) (x : Ld) : (s.setLd k x).nextId = s.nextId := rfl
@[simp] theorem State.cycle_setLd (s : State) (k : Nat) (x : Ld) : (s.setLd k x).cycle = s.cycle := rfl
@[simp] theorem State.timeNs_setLd (s : State) (k : Nat) (x : Ld) : (s.setLd k x).timeNs = s.timeNs := rfl
@[simp] theorem State.fibres_setLd (s : State) (k : Nat) (x : Ld) : (s.setLd k x).fibres = s.fibres := rfl
@[simp] theorem State.bands_setLd (s : State) (k : Nat) (x : Ld) : (s.setLd k x).bands = s.bands := rfl
@[simp] theorem State.wgs_setLd (s : State) (k : Nat) (x : Ld) : (s.setLd k x).wgs = s.wgs := rfl
@[simp] theorem State.gangs_setLd (s : State) (k : Nat) (x : Ld) : (s.setLd k x).gangs = s.gangs := rfl
@[simp] theorem State.shares_setLd (s : State) (k : Nat) (x : Ld) : (s.setLd k x).shares = s.shares := rfl
@[simp] theorem State.mseqs_setLd (s : State) (k : Nat) (x : Ld) : (s.setLd k x).mseqs = s.mseqs := rfl
@[simp] theorem State.cops_setLd (s : State) (k : Nat) (x : Ld) : (s.setLd k x).cops = s.cops := rfl
@[simp] theorem State.bars_setLd (s : State) (k : Nat) (x : Ld) : (s.setLd k x).bars = s.bars := rfl
@[simp] theorem State.dbg_setLd (s : State) (k : Nat) (x : Ld) : (s.setLd k x).dbg = s.dbg := rfl
@[simp] theorem State.mem_setLd (s : State) (k : Nat) (x : Ld) : (s.setLd k x).mem = s.mem := rfl
@[simp] theorem State.tus_setLd (s : State) (k : Nat) (x : Ld) : (s.setLd k x).tus = s.tus := rfl
@[simp] theorem State.cores_setLd (s : State) (k : Nat) (x : Ld) : (s.setLd k x).cores = s.cores := rfl
@[simp] theorem State.etlb_setLd (s : State) (k : Nat) (x : Ld) : (s.setLd k x).etlb = s.etlb := rfl
@[simp] theorem State.csmsF_setLd (s : State) (k : Nat) (x : Ld) : (s.setLd k x).csms = s.csms := rfl
@[simp] theorem State.invs_setLd (s : State) (k : Nat) (x : Ld) : (s.setLd k x).invs = s.invs := rfl
@[simp] theorem State.irqs_setLd (s : State) (k : Nat) (x : Ld) : (s.setLd k x).irqs = s.irqs := rfl
@[simp] theorem State.chans_setLd (s : State) (k : Nat) (x : Ld) : (s.setLd k x).chans = s.chans := rfl
@[simp] theorem State.engs_setLd (s : State) (k : Nat) (x : Ld) : (s.setLd k x).engs = s.engs := rfl
@[simp] theorem State.fab_setLd (s : State) (k : Nat) (x : Ld) : (s.setLd k x).fab = s.fab := rfl
@[simp] theorem State.icache_setLd (s : State) (k : Nat) (x : Ld) : (s.setLd k x).icache = s.icache := rfl
@[simp] theorem State.copyqs_setLd (s : State) (k : Nat) (x : Ld) : (s.setLd k x).copyqs = s.copyqs := rfl
@[simp] theorem State.ctxs_setLd (s : State) (k : Nat) (x : Ld) : (s.setLd k x).ctxs = s.ctxs := rfl
@[simp] theorem State.ready_setLd (s : State) (k : Nat) (x : Ld) : (s.setLd k x).ready = s.ready := rfl
@[simp] theorem State.lastSrc_setLd (s : State) (k : Nat) (x : Ld) : (s.setLd k x).lastSrc = s.lastSrc := rfl
@[simp] theorem State.moves_setLd (s : State) (k : Nat) (x : Ld) : (s.setLd k x).moves = s.moves := rfl
@[simp] theorem State.mats_setLd (s : State) (k : Nat) (x : Ld) : (s.setLd k x).mats = s.mats := rfl
@[simp] theorem State.unserv_setLd (s : State) (k : Nat) (x : Ld) : (s.setLd k x).unserv = s.unserv := rfl
@[simp] theorem State.nodeDone_setLd (s : State) (k : Nat) (x : Ld) : (s.setLd k x).nodeDone = s.nodeDone := rfl
@[simp] theorem State.fetchBad_setLd (s : State) (k : Nat) (x : Ld) : (s.setLd k x).fetchBad = s.fetchBad := rfl
@[simp] theorem State.queues_setLd (s : State) (k : Nat) (x : Ld) : (s.setLd k x).queues = s.queues := rfl
@[simp] theorem State.graphs_setLd (s : State) (k : Nat) (x : Ld) : (s.setLd k x).graphs = s.graphs := rfl
@[simp] theorem State.launches_setLd (s : State) (k : Nat) (x : Ld) : (s.setLd k x).launches = s.launches := rfl
@[simp] theorem State.stages_setLd (s : State) (k : Nat) (x : Ld) : (s.setLd k x).stages = s.stages := rfl
@[simp] theorem State.fes_setLd (s : State) (k : Nat) (x : Ld) : (s.setLd k x).fes = s.fes := rfl
@[simp] theorem State.spdm_setLd (s : State) (k : Nat) (x : Ld) : (s.setLd k x).spdm = s.spdm := rfl
@[simp] theorem State.host_setLd (s : State) (k : Nat) (x : Ld) : (s.setLd k x).host = s.host := rfl
@[simp] theorem State.fib_setLd (s : State) (k : Nat) (x : Ld) (j : Nat) : (s.setLd k x).fib j = s.fib j := rfl
@[simp] theorem State.band_setLd (s : State) (k : Nat) (x : Ld) (j : Nat) : (s.setLd k x).band j = s.band j := rfl
@[simp] theorem State.wg_setLd (s : State) (k : Nat) (x : Ld) (j : Nat) : (s.setLd k x).wg j = s.wg j := rfl
@[simp] theorem State.gang_setLd (s : State) (k : Nat) (x : Ld) (j : Nat) : (s.setLd k x).gang j = s.gang j := rfl
@[simp] theorem State.share_setLd (s : State) (k : Nat) (x : Ld) (j : Nat) : (s.setLd k x).share j = s.share j := rfl
@[simp] theorem State.mseq_setLd (s : State) (k : Nat) (x : Ld) (j : Nat) : (s.setLd k x).mseq j = s.mseq j := rfl
@[simp] theorem State.cop_setLd (s : State) (k : Nat) (x : Ld) (j : Nat) : (s.setLd k x).cop j = s.cop j := rfl
@[simp] theorem State.mat_setLd (s : State) (k : Nat) (x : Ld) (j : Nat) : (s.setLd k x).mat j = s.mat j := rfl
@[simp] theorem State.chan_setLd (s : State) (k : Nat) (x : Ld) (j : Nat) : (s.setLd k x).chan j = s.chan j := rfl
@[simp] theorem State.eng_setLd (s : State) (k : Nat) (x : Ld) (j : Nat) : (s.setLd k x).eng j = s.eng j := rfl
@[simp] theorem State.csm_setLd (s : State) (k : Nat) (x : Ld) (j : Nat) : (s.setLd k x).csm j = s.csm j := rfl
@[simp] theorem State.queue_setLd (s : State) (k : Nat) (x : Ld) (j : Nat) : (s.setLd k x).queue j = s.queue j := rfl
@[simp] theorem State.graph_setLd (s : State) (k : Nat) (x : Ld) (j : Nat) : (s.setLd k x).graph j = s.graph j := rfl
@[simp] theorem State.fe_setLd (s : State) (k : Nat) (x : Ld) (j : Nat) : (s.setLd k x).fe j = s.fe j := rfl
@[simp] theorem State.stage_setLd (s : State) (k : Nat) (x : Ld) (j : Nat) : (s.setLd k x).stage j = s.stage j := rfl
@[simp] theorem State.core_setLd (s : State) (k : Nat) (x : Ld) (j : Nat) : (s.setLd k x).core j = s.core j := rfl
@[simp] theorem State.tu_setLd (s : State) (k : Nat) (x : Ld) (j : Nat) : (s.setLd k x).tu j = s.tu j := rfl
@[simp] theorem State.home_setLd (s : State) (k : Nat) (x : Ld) (j : Nat) : (s.setLd k x).home j = s.home j := rfl
@[simp] theorem State.launch_setLd (s : State) (k : Nat) (x : Ld) (j : Nat) : (s.setLd k x).launch j = s.launch j := rfl

theorem State.stage_setStage (s : State) (k : Nat) (x : Proofer) (j : Nat) : (s.setStage k x).stage j = if j = k then x else s.stage j :=
  Map.getD_put s.stages k j x _
@[simp] theorem State.stage_setStage_self (s : State) (k : Nat) (x : Proofer) : (s.setStage k x).stage k = x := Map.getD_put_self s.stages k x _
@[simp] theorem State.stages_setStage_eq (s : State) (k : Nat) (x : Proofer) : (s.setStage k x).stages = Map.put s.stages k x := rfl
@[simp] theorem State.agenda_setStage (s : State) (k : Nat) (x : Proofer) : (s.setStage k x).agenda = s.agenda := rfl
@[simp] theorem State.focus_setStage (s : State) (k : Nat) (x : Proofer) : (s.setStage k x).focus = s.focus := rfl
@[simp] theorem State.free_setStage (s : State) (k : Nat) (x : Proofer) : (s.setStage k x).free = s.free := rfl
@[simp] theorem State.nextId_setStage (s : State) (k : Nat) (x : Proofer) : (s.setStage k x).nextId = s.nextId := rfl
@[simp] theorem State.cycle_setStage (s : State) (k : Nat) (x : Proofer) : (s.setStage k x).cycle = s.cycle := rfl
@[simp] theorem State.timeNs_setStage (s : State) (k : Nat) (x : Proofer) : (s.setStage k x).timeNs = s.timeNs := rfl
@[simp] theorem State.fibres_setStage (s : State) (k : Nat) (x : Proofer) : (s.setStage k x).fibres = s.fibres := rfl
@[simp] theorem State.bands_setStage (s : State) (k : Nat) (x : Proofer) : (s.setStage k x).bands = s.bands := rfl
@[simp] theorem State.wgs_setStage (s : State) (k : Nat) (x : Proofer) : (s.setStage k x).wgs = s.wgs := rfl
@[simp] theorem State.gangs_setStage (s : State) (k : Nat) (x : Proofer) : (s.setStage k x).gangs = s.gangs := rfl
@[simp] theorem State.shares_setStage (s : State) (k : Nat) (x : Proofer) : (s.setStage k x).shares = s.shares := rfl
@[simp] theorem State.mseqs_setStage (s : State) (k : Nat) (x : Proofer) : (s.setStage k x).mseqs = s.mseqs := rfl
@[simp] theorem State.cops_setStage (s : State) (k : Nat) (x : Proofer) : (s.setStage k x).cops = s.cops := rfl
@[simp] theorem State.bars_setStage (s : State) (k : Nat) (x : Proofer) : (s.setStage k x).bars = s.bars := rfl
@[simp] theorem State.dbg_setStage (s : State) (k : Nat) (x : Proofer) : (s.setStage k x).dbg = s.dbg := rfl
@[simp] theorem State.mem_setStage (s : State) (k : Nat) (x : Proofer) : (s.setStage k x).mem = s.mem := rfl
@[simp] theorem State.tus_setStage (s : State) (k : Nat) (x : Proofer) : (s.setStage k x).tus = s.tus := rfl
@[simp] theorem State.cores_setStage (s : State) (k : Nat) (x : Proofer) : (s.setStage k x).cores = s.cores := rfl
@[simp] theorem State.etlb_setStage (s : State) (k : Nat) (x : Proofer) : (s.setStage k x).etlb = s.etlb := rfl
@[simp] theorem State.csmsF_setStage (s : State) (k : Nat) (x : Proofer) : (s.setStage k x).csms = s.csms := rfl
@[simp] theorem State.invs_setStage (s : State) (k : Nat) (x : Proofer) : (s.setStage k x).invs = s.invs := rfl
@[simp] theorem State.irqs_setStage (s : State) (k : Nat) (x : Proofer) : (s.setStage k x).irqs = s.irqs := rfl
@[simp] theorem State.chans_setStage (s : State) (k : Nat) (x : Proofer) : (s.setStage k x).chans = s.chans := rfl
@[simp] theorem State.engs_setStage (s : State) (k : Nat) (x : Proofer) : (s.setStage k x).engs = s.engs := rfl
@[simp] theorem State.fab_setStage (s : State) (k : Nat) (x : Proofer) : (s.setStage k x).fab = s.fab := rfl
@[simp] theorem State.icache_setStage (s : State) (k : Nat) (x : Proofer) : (s.setStage k x).icache = s.icache := rfl
@[simp] theorem State.copyqs_setStage (s : State) (k : Nat) (x : Proofer) : (s.setStage k x).copyqs = s.copyqs := rfl
@[simp] theorem State.ctxs_setStage (s : State) (k : Nat) (x : Proofer) : (s.setStage k x).ctxs = s.ctxs := rfl
@[simp] theorem State.ready_setStage (s : State) (k : Nat) (x : Proofer) : (s.setStage k x).ready = s.ready := rfl
@[simp] theorem State.lastSrc_setStage (s : State) (k : Nat) (x : Proofer) : (s.setStage k x).lastSrc = s.lastSrc := rfl
@[simp] theorem State.moves_setStage (s : State) (k : Nat) (x : Proofer) : (s.setStage k x).moves = s.moves := rfl
@[simp] theorem State.mats_setStage (s : State) (k : Nat) (x : Proofer) : (s.setStage k x).mats = s.mats := rfl
@[simp] theorem State.unserv_setStage (s : State) (k : Nat) (x : Proofer) : (s.setStage k x).unserv = s.unserv := rfl
@[simp] theorem State.nodeDone_setStage (s : State) (k : Nat) (x : Proofer) : (s.setStage k x).nodeDone = s.nodeDone := rfl
@[simp] theorem State.fetchBad_setStage (s : State) (k : Nat) (x : Proofer) : (s.setStage k x).fetchBad = s.fetchBad := rfl
@[simp] theorem State.queues_setStage (s : State) (k : Nat) (x : Proofer) : (s.setStage k x).queues = s.queues := rfl
@[simp] theorem State.graphs_setStage (s : State) (k : Nat) (x : Proofer) : (s.setStage k x).graphs = s.graphs := rfl
@[simp] theorem State.launches_setStage (s : State) (k : Nat) (x : Proofer) : (s.setStage k x).launches = s.launches := rfl
@[simp] theorem State.fes_setStage (s : State) (k : Nat) (x : Proofer) : (s.setStage k x).fes = s.fes := rfl
@[simp] theorem State.lds_setStage (s : State) (k : Nat) (x : Proofer) : (s.setStage k x).lds = s.lds := rfl
@[simp] theorem State.spdm_setStage (s : State) (k : Nat) (x : Proofer) : (s.setStage k x).spdm = s.spdm := rfl
@[simp] theorem State.host_setStage (s : State) (k : Nat) (x : Proofer) : (s.setStage k x).host = s.host := rfl
@[simp] theorem State.fib_setStage (s : State) (k : Nat) (x : Proofer) (j : Nat) : (s.setStage k x).fib j = s.fib j := rfl
@[simp] theorem State.band_setStage (s : State) (k : Nat) (x : Proofer) (j : Nat) : (s.setStage k x).band j = s.band j := rfl
@[simp] theorem State.wg_setStage (s : State) (k : Nat) (x : Proofer) (j : Nat) : (s.setStage k x).wg j = s.wg j := rfl
@[simp] theorem State.gang_setStage (s : State) (k : Nat) (x : Proofer) (j : Nat) : (s.setStage k x).gang j = s.gang j := rfl
@[simp] theorem State.share_setStage (s : State) (k : Nat) (x : Proofer) (j : Nat) : (s.setStage k x).share j = s.share j := rfl
@[simp] theorem State.mseq_setStage (s : State) (k : Nat) (x : Proofer) (j : Nat) : (s.setStage k x).mseq j = s.mseq j := rfl
@[simp] theorem State.cop_setStage (s : State) (k : Nat) (x : Proofer) (j : Nat) : (s.setStage k x).cop j = s.cop j := rfl
@[simp] theorem State.mat_setStage (s : State) (k : Nat) (x : Proofer) (j : Nat) : (s.setStage k x).mat j = s.mat j := rfl
@[simp] theorem State.chan_setStage (s : State) (k : Nat) (x : Proofer) (j : Nat) : (s.setStage k x).chan j = s.chan j := rfl
@[simp] theorem State.eng_setStage (s : State) (k : Nat) (x : Proofer) (j : Nat) : (s.setStage k x).eng j = s.eng j := rfl
@[simp] theorem State.csm_setStage (s : State) (k : Nat) (x : Proofer) (j : Nat) : (s.setStage k x).csm j = s.csm j := rfl
@[simp] theorem State.queue_setStage (s : State) (k : Nat) (x : Proofer) (j : Nat) : (s.setStage k x).queue j = s.queue j := rfl
@[simp] theorem State.graph_setStage (s : State) (k : Nat) (x : Proofer) (j : Nat) : (s.setStage k x).graph j = s.graph j := rfl
@[simp] theorem State.fe_setStage (s : State) (k : Nat) (x : Proofer) (j : Nat) : (s.setStage k x).fe j = s.fe j := rfl
@[simp] theorem State.ld_setStage (s : State) (k : Nat) (x : Proofer) (j : Nat) : (s.setStage k x).ld j = s.ld j := rfl
@[simp] theorem State.core_setStage (s : State) (k : Nat) (x : Proofer) (j : Nat) : (s.setStage k x).core j = s.core j := rfl
@[simp] theorem State.tu_setStage (s : State) (k : Nat) (x : Proofer) (j : Nat) : (s.setStage k x).tu j = s.tu j := rfl
@[simp] theorem State.home_setStage (s : State) (k : Nat) (x : Proofer) (j : Nat) : (s.setStage k x).home j = s.home j := rfl
@[simp] theorem State.launch_setStage (s : State) (k : Nat) (x : Proofer) (j : Nat) : (s.setStage k x).launch j = s.launch j := rfl

theorem State.core_setCore (s : State) (k : Nat) (x : Core) (j : Nat) : (s.setCore k x).core j = if j = k then x else s.core j :=
  Map.getD_put s.cores k j x _
@[simp] theorem State.core_setCore_self (s : State) (k : Nat) (x : Core) : (s.setCore k x).core k = x := Map.getD_put_self s.cores k x _
@[simp] theorem State.updCore_eq (s : State) (k : Nat) (f : Core → Core) : s.updCore k f = s.setCore k (f (s.core k)) := rfl
@[simp] theorem State.cores_setCore_eq (s : State) (k : Nat) (x : Core) : (s.setCore k x).cores = Map.put s.cores k x := rfl
@[simp] theorem State.agenda_setCore (s : State) (k : Nat) (x : Core) : (s.setCore k x).agenda = s.agenda := rfl
@[simp] theorem State.focus_setCore (s : State) (k : Nat) (x : Core) : (s.setCore k x).focus = s.focus := rfl
@[simp] theorem State.free_setCore (s : State) (k : Nat) (x : Core) : (s.setCore k x).free = s.free := rfl
@[simp] theorem State.nextId_setCore (s : State) (k : Nat) (x : Core) : (s.setCore k x).nextId = s.nextId := rfl
@[simp] theorem State.cycle_setCore (s : State) (k : Nat) (x : Core) : (s.setCore k x).cycle = s.cycle := rfl
@[simp] theorem State.timeNs_setCore (s : State) (k : Nat) (x : Core) : (s.setCore k x).timeNs = s.timeNs := rfl
@[simp] theorem State.fibres_setCore (s : State) (k : Nat) (x : Core) : (s.setCore k x).fibres = s.fibres := rfl
@[simp] theorem State.bands_setCore (s : State) (k : Nat) (x : Core) : (s.setCore k x).bands = s.bands := rfl
@[simp] theorem State.wgs_setCore (s : State) (k : Nat) (x : Core) : (s.setCore k x).wgs = s.wgs := rfl
@[simp] theorem State.gangs_setCore (s : State) (k : Nat) (x : Core) : (s.setCore k x).gangs = s.gangs := rfl
@[simp] theorem State.shares_setCore (s : State) (k : Nat) (x : Core) : (s.setCore k x).shares = s.shares := rfl
@[simp] theorem State.mseqs_setCore (s : State) (k : Nat) (x : Core) : (s.setCore k x).mseqs = s.mseqs := rfl
@[simp] theorem State.cops_setCore (s : State) (k : Nat) (x : Core) : (s.setCore k x).cops = s.cops := rfl
@[simp] theorem State.bars_setCore (s : State) (k : Nat) (x : Core) : (s.setCore k x).bars = s.bars := rfl
@[simp] theorem State.dbg_setCore (s : State) (k : Nat) (x : Core) : (s.setCore k x).dbg = s.dbg := rfl
@[simp] theorem State.mem_setCore (s : State) (k : Nat) (x : Core) : (s.setCore k x).mem = s.mem := rfl
@[simp] theorem State.tus_setCore (s : State) (k : Nat) (x : Core) : (s.setCore k x).tus = s.tus := rfl
@[simp] theorem State.etlb_setCore (s : State) (k : Nat) (x : Core) : (s.setCore k x).etlb = s.etlb := rfl
@[simp] theorem State.csmsF_setCore (s : State) (k : Nat) (x : Core) : (s.setCore k x).csms = s.csms := rfl
@[simp] theorem State.invs_setCore (s : State) (k : Nat) (x : Core) : (s.setCore k x).invs = s.invs := rfl
@[simp] theorem State.irqs_setCore (s : State) (k : Nat) (x : Core) : (s.setCore k x).irqs = s.irqs := rfl
@[simp] theorem State.chans_setCore (s : State) (k : Nat) (x : Core) : (s.setCore k x).chans = s.chans := rfl
@[simp] theorem State.engs_setCore (s : State) (k : Nat) (x : Core) : (s.setCore k x).engs = s.engs := rfl
@[simp] theorem State.fab_setCore (s : State) (k : Nat) (x : Core) : (s.setCore k x).fab = s.fab := rfl
@[simp] theorem State.icache_setCore (s : State) (k : Nat) (x : Core) : (s.setCore k x).icache = s.icache := rfl
@[simp] theorem State.copyqs_setCore (s : State) (k : Nat) (x : Core) : (s.setCore k x).copyqs = s.copyqs := rfl
@[simp] theorem State.ctxs_setCore (s : State) (k : Nat) (x : Core) : (s.setCore k x).ctxs = s.ctxs := rfl
@[simp] theorem State.ready_setCore (s : State) (k : Nat) (x : Core) : (s.setCore k x).ready = s.ready := rfl
@[simp] theorem State.lastSrc_setCore (s : State) (k : Nat) (x : Core) : (s.setCore k x).lastSrc = s.lastSrc := rfl
@[simp] theorem State.moves_setCore (s : State) (k : Nat) (x : Core) : (s.setCore k x).moves = s.moves := rfl
@[simp] theorem State.mats_setCore (s : State) (k : Nat) (x : Core) : (s.setCore k x).mats = s.mats := rfl
@[simp] theorem State.unserv_setCore (s : State) (k : Nat) (x : Core) : (s.setCore k x).unserv = s.unserv := rfl
@[simp] theorem State.nodeDone_setCore (s : State) (k : Nat) (x : Core) : (s.setCore k x).nodeDone = s.nodeDone := rfl
@[simp] theorem State.fetchBad_setCore (s : State) (k : Nat) (x : Core) : (s.setCore k x).fetchBad = s.fetchBad := rfl
@[simp] theorem State.queues_setCore (s : State) (k : Nat) (x : Core) : (s.setCore k x).queues = s.queues := rfl
@[simp] theorem State.graphs_setCore (s : State) (k : Nat) (x : Core) : (s.setCore k x).graphs = s.graphs := rfl
@[simp] theorem State.launches_setCore (s : State) (k : Nat) (x : Core) : (s.setCore k x).launches = s.launches := rfl
@[simp] theorem State.stages_setCore (s : State) (k : Nat) (x : Core) : (s.setCore k x).stages = s.stages := rfl
@[simp] theorem State.fes_setCore (s : State) (k : Nat) (x : Core) : (s.setCore k x).fes = s.fes := rfl
@[simp] theorem State.lds_setCore (s : State) (k : Nat) (x : Core) : (s.setCore k x).lds = s.lds := rfl
@[simp] theorem State.spdm_setCore (s : State) (k : Nat) (x : Core) : (s.setCore k x).spdm = s.spdm := rfl
@[simp] theorem State.host_setCore (s : State) (k : Nat) (x : Core) : (s.setCore k x).host = s.host := rfl
@[simp] theorem State.fib_setCore (s : State) (k : Nat) (x : Core) (j : Nat) : (s.setCore k x).fib j = s.fib j := rfl
@[simp] theorem State.band_setCore (s : State) (k : Nat) (x : Core) (j : Nat) : (s.setCore k x).band j = s.band j := rfl
@[simp] theorem State.wg_setCore (s : State) (k : Nat) (x : Core) (j : Nat) : (s.setCore k x).wg j = s.wg j := rfl
@[simp] theorem State.gang_setCore (s : State) (k : Nat) (x : Core) (j : Nat) : (s.setCore k x).gang j = s.gang j := rfl
@[simp] theorem State.share_setCore (s : State) (k : Nat) (x : Core) (j : Nat) : (s.setCore k x).share j = s.share j := rfl
@[simp] theorem State.mseq_setCore (s : State) (k : Nat) (x : Core) (j : Nat) : (s.setCore k x).mseq j = s.mseq j := rfl
@[simp] theorem State.cop_setCore (s : State) (k : Nat) (x : Core) (j : Nat) : (s.setCore k x).cop j = s.cop j := rfl
@[simp] theorem State.mat_setCore (s : State) (k : Nat) (x : Core) (j : Nat) : (s.setCore k x).mat j = s.mat j := rfl
@[simp] theorem State.chan_setCore (s : State) (k : Nat) (x : Core) (j : Nat) : (s.setCore k x).chan j = s.chan j := rfl
@[simp] theorem State.eng_setCore (s : State) (k : Nat) (x : Core) (j : Nat) : (s.setCore k x).eng j = s.eng j := rfl
@[simp] theorem State.csm_setCore (s : State) (k : Nat) (x : Core) (j : Nat) : (s.setCore k x).csm j = s.csm j := rfl
@[simp] theorem State.queue_setCore (s : State) (k : Nat) (x : Core) (j : Nat) : (s.setCore k x).queue j = s.queue j := rfl
@[simp] theorem State.graph_setCore (s : State) (k : Nat) (x : Core) (j : Nat) : (s.setCore k x).graph j = s.graph j := rfl
@[simp] theorem State.fe_setCore (s : State) (k : Nat) (x : Core) (j : Nat) : (s.setCore k x).fe j = s.fe j := rfl
@[simp] theorem State.ld_setCore (s : State) (k : Nat) (x : Core) (j : Nat) : (s.setCore k x).ld j = s.ld j := rfl
@[simp] theorem State.stage_setCore (s : State) (k : Nat) (x : Core) (j : Nat) : (s.setCore k x).stage j = s.stage j := rfl
@[simp] theorem State.tu_setCore (s : State) (k : Nat) (x : Core) (j : Nat) : (s.setCore k x).tu j = s.tu j := rfl
@[simp] theorem State.home_setCore (s : State) (k : Nat) (x : Core) (j : Nat) : (s.setCore k x).home j = s.home j := rfl
@[simp] theorem State.launch_setCore (s : State) (k : Nat) (x : Core) (j : Nat) : (s.setCore k x).launch j = s.launch j := rfl

theorem State.tu_setTu (s : State) (k : Nat) (x : Tu) (j : Nat) : (s.setTu k x).tu j = if j = k then x else s.tu j :=
  Map.getD_put s.tus k j x _
@[simp] theorem State.tu_setTu_self (s : State) (k : Nat) (x : Tu) : (s.setTu k x).tu k = x := Map.getD_put_self s.tus k x _
@[simp] theorem State.tus_setTu_eq (s : State) (k : Nat) (x : Tu) : (s.setTu k x).tus = Map.put s.tus k x := rfl
@[simp] theorem State.agenda_setTu (s : State) (k : Nat) (x : Tu) : (s.setTu k x).agenda = s.agenda := rfl
@[simp] theorem State.focus_setTu (s : State) (k : Nat) (x : Tu) : (s.setTu k x).focus = s.focus := rfl
@[simp] theorem State.free_setTu (s : State) (k : Nat) (x : Tu) : (s.setTu k x).free = s.free := rfl
@[simp] theorem State.nextId_setTu (s : State) (k : Nat) (x : Tu) : (s.setTu k x).nextId = s.nextId := rfl
@[simp] theorem State.cycle_setTu (s : State) (k : Nat) (x : Tu) : (s.setTu k x).cycle = s.cycle := rfl
@[simp] theorem State.timeNs_setTu (s : State) (k : Nat) (x : Tu) : (s.setTu k x).timeNs = s.timeNs := rfl
@[simp] theorem State.fibres_setTu (s : State) (k : Nat) (x : Tu) : (s.setTu k x).fibres = s.fibres := rfl
@[simp] theorem State.bands_setTu (s : State) (k : Nat) (x : Tu) : (s.setTu k x).bands = s.bands := rfl
@[simp] theorem State.wgs_setTu (s : State) (k : Nat) (x : Tu) : (s.setTu k x).wgs = s.wgs := rfl
@[simp] theorem State.gangs_setTu (s : State) (k : Nat) (x : Tu) : (s.setTu k x).gangs = s.gangs := rfl
@[simp] theorem State.shares_setTu (s : State) (k : Nat) (x : Tu) : (s.setTu k x).shares = s.shares := rfl
@[simp] theorem State.mseqs_setTu (s : State) (k : Nat) (x : Tu) : (s.setTu k x).mseqs = s.mseqs := rfl
@[simp] theorem State.cops_setTu (s : State) (k : Nat) (x : Tu) : (s.setTu k x).cops = s.cops := rfl
@[simp] theorem State.bars_setTu (s : State) (k : Nat) (x : Tu) : (s.setTu k x).bars = s.bars := rfl
@[simp] theorem State.dbg_setTu (s : State) (k : Nat) (x : Tu) : (s.setTu k x).dbg = s.dbg := rfl
@[simp] theorem State.mem_setTu (s : State) (k : Nat) (x : Tu) : (s.setTu k x).mem = s.mem := rfl
@[simp] theorem State.cores_setTu (s : State) (k : Nat) (x : Tu) : (s.setTu k x).cores = s.cores := rfl
@[simp] theorem State.etlb_setTu (s : State) (k : Nat) (x : Tu) : (s.setTu k x).etlb = s.etlb := rfl
@[simp] theorem State.csmsF_setTu (s : State) (k : Nat) (x : Tu) : (s.setTu k x).csms = s.csms := rfl
@[simp] theorem State.invs_setTu (s : State) (k : Nat) (x : Tu) : (s.setTu k x).invs = s.invs := rfl
@[simp] theorem State.irqs_setTu (s : State) (k : Nat) (x : Tu) : (s.setTu k x).irqs = s.irqs := rfl
@[simp] theorem State.chans_setTu (s : State) (k : Nat) (x : Tu) : (s.setTu k x).chans = s.chans := rfl
@[simp] theorem State.engs_setTu (s : State) (k : Nat) (x : Tu) : (s.setTu k x).engs = s.engs := rfl
@[simp] theorem State.fab_setTu (s : State) (k : Nat) (x : Tu) : (s.setTu k x).fab = s.fab := rfl
@[simp] theorem State.icache_setTu (s : State) (k : Nat) (x : Tu) : (s.setTu k x).icache = s.icache := rfl
@[simp] theorem State.copyqs_setTu (s : State) (k : Nat) (x : Tu) : (s.setTu k x).copyqs = s.copyqs := rfl
@[simp] theorem State.ctxs_setTu (s : State) (k : Nat) (x : Tu) : (s.setTu k x).ctxs = s.ctxs := rfl
@[simp] theorem State.ready_setTu (s : State) (k : Nat) (x : Tu) : (s.setTu k x).ready = s.ready := rfl
@[simp] theorem State.lastSrc_setTu (s : State) (k : Nat) (x : Tu) : (s.setTu k x).lastSrc = s.lastSrc := rfl
@[simp] theorem State.moves_setTu (s : State) (k : Nat) (x : Tu) : (s.setTu k x).moves = s.moves := rfl
@[simp] theorem State.mats_setTu (s : State) (k : Nat) (x : Tu) : (s.setTu k x).mats = s.mats := rfl
@[simp] theorem State.unserv_setTu (s : State) (k : Nat) (x : Tu) : (s.setTu k x).unserv = s.unserv := rfl
@[simp] theorem State.nodeDone_setTu (s : State) (k : Nat) (x : Tu) : (s.setTu k x).nodeDone = s.nodeDone := rfl
@[simp] theorem State.fetchBad_setTu (s : State) (k : Nat) (x : Tu) : (s.setTu k x).fetchBad = s.fetchBad := rfl
@[simp] theorem State.queues_setTu (s : State) (k : Nat) (x : Tu) : (s.setTu k x).queues = s.queues := rfl
@[simp] theorem State.graphs_setTu (s : State) (k : Nat) (x : Tu) : (s.setTu k x).graphs = s.graphs := rfl
@[simp] theorem State.launches_setTu (s : State) (k : Nat) (x : Tu) : (s.setTu k x).launches = s.launches := rfl
@[simp] theorem State.stages_setTu (s : State) (k : Nat) (x : Tu) : (s.setTu k x).stages = s.stages := rfl
@[simp] theorem State.fes_setTu (s : State) (k : Nat) (x : Tu) : (s.setTu k x).fes = s.fes := rfl
@[simp] theorem State.lds_setTu (s : State) (k : Nat) (x : Tu) : (s.setTu k x).lds = s.lds := rfl
@[simp] theorem State.spdm_setTu (s : State) (k : Nat) (x : Tu) : (s.setTu k x).spdm = s.spdm := rfl
@[simp] theorem State.host_setTu (s : State) (k : Nat) (x : Tu) : (s.setTu k x).host = s.host := rfl
@[simp] theorem State.fib_setTu (s : State) (k : Nat) (x : Tu) (j : Nat) : (s.setTu k x).fib j = s.fib j := rfl
@[simp] theorem State.band_setTu (s : State) (k : Nat) (x : Tu) (j : Nat) : (s.setTu k x).band j = s.band j := rfl
@[simp] theorem State.wg_setTu (s : State) (k : Nat) (x : Tu) (j : Nat) : (s.setTu k x).wg j = s.wg j := rfl
@[simp] theorem State.gang_setTu (s : State) (k : Nat) (x : Tu) (j : Nat) : (s.setTu k x).gang j = s.gang j := rfl
@[simp] theorem State.share_setTu (s : State) (k : Nat) (x : Tu) (j : Nat) : (s.setTu k x).share j = s.share j := rfl
@[simp] theorem State.mseq_setTu (s : State) (k : Nat) (x : Tu) (j : Nat) : (s.setTu k x).mseq j = s.mseq j := rfl
@[simp] theorem State.cop_setTu (s : State) (k : Nat) (x : Tu) (j : Nat) : (s.setTu k x).cop j = s.cop j := rfl
@[simp] theorem State.mat_setTu (s : State) (k : Nat) (x : Tu) (j : Nat) : (s.setTu k x).mat j = s.mat j := rfl
@[simp] theorem State.chan_setTu (s : State) (k : Nat) (x : Tu) (j : Nat) : (s.setTu k x).chan j = s.chan j := rfl
@[simp] theorem State.eng_setTu (s : State) (k : Nat) (x : Tu) (j : Nat) : (s.setTu k x).eng j = s.eng j := rfl
@[simp] theorem State.csm_setTu (s : State) (k : Nat) (x : Tu) (j : Nat) : (s.setTu k x).csm j = s.csm j := rfl
@[simp] theorem State.queue_setTu (s : State) (k : Nat) (x : Tu) (j : Nat) : (s.setTu k x).queue j = s.queue j := rfl
@[simp] theorem State.graph_setTu (s : State) (k : Nat) (x : Tu) (j : Nat) : (s.setTu k x).graph j = s.graph j := rfl
@[simp] theorem State.fe_setTu (s : State) (k : Nat) (x : Tu) (j : Nat) : (s.setTu k x).fe j = s.fe j := rfl
@[simp] theorem State.ld_setTu (s : State) (k : Nat) (x : Tu) (j : Nat) : (s.setTu k x).ld j = s.ld j := rfl
@[simp] theorem State.stage_setTu (s : State) (k : Nat) (x : Tu) (j : Nat) : (s.setTu k x).stage j = s.stage j := rfl
@[simp] theorem State.core_setTu (s : State) (k : Nat) (x : Tu) (j : Nat) : (s.setTu k x).core j = s.core j := rfl
@[simp] theorem State.home_setTu (s : State) (k : Nat) (x : Tu) (j : Nat) : (s.setTu k x).home j = s.home j := rfl
@[simp] theorem State.launch_setTu (s : State) (k : Nat) (x : Tu) (j : Nat) : (s.setTu k x).launch j = s.launch j := rfl

@[simp] theorem State.agenda_updMem (s : State) (g : MemSt → MemSt) : (s.updMem g).agenda = s.agenda := rfl
@[simp] theorem State.focus_updMem (s : State) (g : MemSt → MemSt) : (s.updMem g).focus = s.focus := rfl
@[simp] theorem State.free_updMem (s : State) (g : MemSt → MemSt) : (s.updMem g).free = s.free := rfl
@[simp] theorem State.nextId_updMem (s : State) (g : MemSt → MemSt) : (s.updMem g).nextId = s.nextId := rfl
@[simp] theorem State.cycle_updMem (s : State) (g : MemSt → MemSt) : (s.updMem g).cycle = s.cycle := rfl
@[simp] theorem State.timeNs_updMem (s : State) (g : MemSt → MemSt) : (s.updMem g).timeNs = s.timeNs := rfl
@[simp] theorem State.fibres_updMem (s : State) (g : MemSt → MemSt) : (s.updMem g).fibres = s.fibres := rfl
@[simp] theorem State.bands_updMem (s : State) (g : MemSt → MemSt) : (s.updMem g).bands = s.bands := rfl
@[simp] theorem State.wgs_updMem (s : State) (g : MemSt → MemSt) : (s.updMem g).wgs = s.wgs := rfl
@[simp] theorem State.gangs_updMem (s : State) (g : MemSt → MemSt) : (s.updMem g).gangs = s.gangs := rfl
@[simp] theorem State.shares_updMem (s : State) (g : MemSt → MemSt) : (s.updMem g).shares = s.shares := rfl
@[simp] theorem State.mseqs_updMem (s : State) (g : MemSt → MemSt) : (s.updMem g).mseqs = s.mseqs := rfl
@[simp] theorem State.cops_updMem (s : State) (g : MemSt → MemSt) : (s.updMem g).cops = s.cops := rfl
@[simp] theorem State.bars_updMem (s : State) (g : MemSt → MemSt) : (s.updMem g).bars = s.bars := rfl
@[simp] theorem State.dbg_updMem (s : State) (g : MemSt → MemSt) : (s.updMem g).dbg = s.dbg := rfl
@[simp] theorem State.mem_updMem (s : State) (g : MemSt → MemSt) : (s.updMem g).mem = g s.mem := rfl
@[simp] theorem State.tus_updMem (s : State) (g : MemSt → MemSt) : (s.updMem g).tus = s.tus := rfl
@[simp] theorem State.cores_updMem (s : State) (g : MemSt → MemSt) : (s.updMem g).cores = s.cores := rfl
@[simp] theorem State.etlb_updMem (s : State) (g : MemSt → MemSt) : (s.updMem g).etlb = s.etlb := rfl
@[simp] theorem State.csms_updMem (s : State) (g : MemSt → MemSt) : (s.updMem g).csms = s.csms := rfl
@[simp] theorem State.invs_updMem (s : State) (g : MemSt → MemSt) : (s.updMem g).invs = s.invs := rfl
@[simp] theorem State.irqs_updMem (s : State) (g : MemSt → MemSt) : (s.updMem g).irqs = s.irqs := rfl
@[simp] theorem State.chans_updMem (s : State) (g : MemSt → MemSt) : (s.updMem g).chans = s.chans := rfl
@[simp] theorem State.engs_updMem (s : State) (g : MemSt → MemSt) : (s.updMem g).engs = s.engs := rfl
@[simp] theorem State.fab_updMem (s : State) (g : MemSt → MemSt) : (s.updMem g).fab = s.fab := rfl
@[simp] theorem State.icache_updMem (s : State) (g : MemSt → MemSt) : (s.updMem g).icache = s.icache := rfl
@[simp] theorem State.copyqs_updMem (s : State) (g : MemSt → MemSt) : (s.updMem g).copyqs = s.copyqs := rfl
@[simp] theorem State.ctxs_updMem (s : State) (g : MemSt → MemSt) : (s.updMem g).ctxs = s.ctxs := rfl
@[simp] theorem State.ready_updMem (s : State) (g : MemSt → MemSt) : (s.updMem g).ready = s.ready := rfl
@[simp] theorem State.lastSrc_updMem (s : State) (g : MemSt → MemSt) : (s.updMem g).lastSrc = s.lastSrc := rfl
@[simp] theorem State.moves_updMem (s : State) (g : MemSt → MemSt) : (s.updMem g).moves = s.moves := rfl
@[simp] theorem State.mats_updMem (s : State) (g : MemSt → MemSt) : (s.updMem g).mats = s.mats := rfl
@[simp] theorem State.unserv_updMem (s : State) (g : MemSt → MemSt) : (s.updMem g).unserv = s.unserv := rfl
@[simp] theorem State.nodeDone_updMem (s : State) (g : MemSt → MemSt) : (s.updMem g).nodeDone = s.nodeDone := rfl
@[simp] theorem State.fetchBad_updMem (s : State) (g : MemSt → MemSt) : (s.updMem g).fetchBad = s.fetchBad := rfl
@[simp] theorem State.queues_updMem (s : State) (g : MemSt → MemSt) : (s.updMem g).queues = s.queues := rfl
@[simp] theorem State.graphs_updMem (s : State) (g : MemSt → MemSt) : (s.updMem g).graphs = s.graphs := rfl
@[simp] theorem State.launches_updMem (s : State) (g : MemSt → MemSt) : (s.updMem g).launches = s.launches := rfl
@[simp] theorem State.stages_updMem (s : State) (g : MemSt → MemSt) : (s.updMem g).stages = s.stages := rfl
@[simp] theorem State.fes_updMem (s : State) (g : MemSt → MemSt) : (s.updMem g).fes = s.fes := rfl
@[simp] theorem State.lds_updMem (s : State) (g : MemSt → MemSt) : (s.updMem g).lds = s.lds := rfl
@[simp] theorem State.spdm_updMem (s : State) (g : MemSt → MemSt) : (s.updMem g).spdm = s.spdm := rfl
@[simp] theorem State.host_updMem (s : State) (g : MemSt → MemSt) : (s.updMem g).host = s.host := rfl
@[simp] theorem State.fib_updMem (s : State) (g : MemSt → MemSt) (j : Nat) : (s.updMem g).fib j = s.fib j := rfl
@[simp] theorem State.band_updMem (s : State) (g : MemSt → MemSt) (j : Nat) : (s.updMem g).band j = s.band j := rfl
@[simp] theorem State.wg_updMem (s : State) (g : MemSt → MemSt) (j : Nat) : (s.updMem g).wg j = s.wg j := rfl
@[simp] theorem State.gang_updMem (s : State) (g : MemSt → MemSt) (j : Nat) : (s.updMem g).gang j = s.gang j := rfl
@[simp] theorem State.share_updMem (s : State) (g : MemSt → MemSt) (j : Nat) : (s.updMem g).share j = s.share j := rfl
@[simp] theorem State.mseq_updMem (s : State) (g : MemSt → MemSt) (j : Nat) : (s.updMem g).mseq j = s.mseq j := rfl
@[simp] theorem State.cop_updMem (s : State) (g : MemSt → MemSt) (j : Nat) : (s.updMem g).cop j = s.cop j := rfl
@[simp] theorem State.mat_updMem (s : State) (g : MemSt → MemSt) (j : Nat) : (s.updMem g).mat j = s.mat j := rfl
@[simp] theorem State.chan_updMem (s : State) (g : MemSt → MemSt) (j : Nat) : (s.updMem g).chan j = s.chan j := rfl
@[simp] theorem State.eng_updMem (s : State) (g : MemSt → MemSt) (j : Nat) : (s.updMem g).eng j = s.eng j := rfl
@[simp] theorem State.csm_updMem (s : State) (g : MemSt → MemSt) (j : Nat) : (s.updMem g).csm j = s.csm j := rfl
@[simp] theorem State.queue_updMem (s : State) (g : MemSt → MemSt) (j : Nat) : (s.updMem g).queue j = s.queue j := rfl
@[simp] theorem State.graph_updMem (s : State) (g : MemSt → MemSt) (j : Nat) : (s.updMem g).graph j = s.graph j := rfl
@[simp] theorem State.fe_updMem (s : State) (g : MemSt → MemSt) (j : Nat) : (s.updMem g).fe j = s.fe j := rfl
@[simp] theorem State.ld_updMem (s : State) (g : MemSt → MemSt) (j : Nat) : (s.updMem g).ld j = s.ld j := rfl
@[simp] theorem State.stage_updMem (s : State) (g : MemSt → MemSt) (j : Nat) : (s.updMem g).stage j = s.stage j := rfl
@[simp] theorem State.core_updMem (s : State) (g : MemSt → MemSt) (j : Nat) : (s.updMem g).core j = s.core j := rfl
@[simp] theorem State.tu_updMem (s : State) (g : MemSt → MemSt) (j : Nat) : (s.updMem g).tu j = s.tu j := rfl
@[simp] theorem State.launch_updMem (s : State) (g : MemSt → MemSt) (j : Nat) : (s.updMem g).launch j = s.launch j := rfl

@[simp] theorem State.agenda_updFab (s : State) (g : Fab → Fab) : (s.updFab g).agenda = s.agenda := rfl
@[simp] theorem State.focus_updFab (s : State) (g : Fab → Fab) : (s.updFab g).focus = s.focus := rfl
@[simp] theorem State.free_updFab (s : State) (g : Fab → Fab) : (s.updFab g).free = s.free := rfl
@[simp] theorem State.nextId_updFab (s : State) (g : Fab → Fab) : (s.updFab g).nextId = s.nextId := rfl
@[simp] theorem State.cycle_updFab (s : State) (g : Fab → Fab) : (s.updFab g).cycle = s.cycle := rfl
@[simp] theorem State.timeNs_updFab (s : State) (g : Fab → Fab) : (s.updFab g).timeNs = s.timeNs := rfl
@[simp] theorem State.fibres_updFab (s : State) (g : Fab → Fab) : (s.updFab g).fibres = s.fibres := rfl
@[simp] theorem State.bands_updFab (s : State) (g : Fab → Fab) : (s.updFab g).bands = s.bands := rfl
@[simp] theorem State.wgs_updFab (s : State) (g : Fab → Fab) : (s.updFab g).wgs = s.wgs := rfl
@[simp] theorem State.gangs_updFab (s : State) (g : Fab → Fab) : (s.updFab g).gangs = s.gangs := rfl
@[simp] theorem State.shares_updFab (s : State) (g : Fab → Fab) : (s.updFab g).shares = s.shares := rfl
@[simp] theorem State.mseqs_updFab (s : State) (g : Fab → Fab) : (s.updFab g).mseqs = s.mseqs := rfl
@[simp] theorem State.cops_updFab (s : State) (g : Fab → Fab) : (s.updFab g).cops = s.cops := rfl
@[simp] theorem State.bars_updFab (s : State) (g : Fab → Fab) : (s.updFab g).bars = s.bars := rfl
@[simp] theorem State.dbg_updFab (s : State) (g : Fab → Fab) : (s.updFab g).dbg = s.dbg := rfl
@[simp] theorem State.mem_updFab (s : State) (g : Fab → Fab) : (s.updFab g).mem = s.mem := rfl
@[simp] theorem State.tus_updFab (s : State) (g : Fab → Fab) : (s.updFab g).tus = s.tus := rfl
@[simp] theorem State.cores_updFab (s : State) (g : Fab → Fab) : (s.updFab g).cores = s.cores := rfl
@[simp] theorem State.etlb_updFab (s : State) (g : Fab → Fab) : (s.updFab g).etlb = s.etlb := rfl
@[simp] theorem State.csms_updFab (s : State) (g : Fab → Fab) : (s.updFab g).csms = s.csms := rfl
@[simp] theorem State.invs_updFab (s : State) (g : Fab → Fab) : (s.updFab g).invs = s.invs := rfl
@[simp] theorem State.irqs_updFab (s : State) (g : Fab → Fab) : (s.updFab g).irqs = s.irqs := rfl
@[simp] theorem State.chans_updFab (s : State) (g : Fab → Fab) : (s.updFab g).chans = s.chans := rfl
@[simp] theorem State.engs_updFab (s : State) (g : Fab → Fab) : (s.updFab g).engs = s.engs := rfl
@[simp] theorem State.fab_updFab (s : State) (g : Fab → Fab) : (s.updFab g).fab = g s.fab := rfl
@[simp] theorem State.icache_updFab (s : State) (g : Fab → Fab) : (s.updFab g).icache = s.icache := rfl
@[simp] theorem State.copyqs_updFab (s : State) (g : Fab → Fab) : (s.updFab g).copyqs = s.copyqs := rfl
@[simp] theorem State.ctxs_updFab (s : State) (g : Fab → Fab) : (s.updFab g).ctxs = s.ctxs := rfl
@[simp] theorem State.ready_updFab (s : State) (g : Fab → Fab) : (s.updFab g).ready = s.ready := rfl
@[simp] theorem State.lastSrc_updFab (s : State) (g : Fab → Fab) : (s.updFab g).lastSrc = s.lastSrc := rfl
@[simp] theorem State.moves_updFab (s : State) (g : Fab → Fab) : (s.updFab g).moves = s.moves := rfl
@[simp] theorem State.mats_updFab (s : State) (g : Fab → Fab) : (s.updFab g).mats = s.mats := rfl
@[simp] theorem State.unserv_updFab (s : State) (g : Fab → Fab) : (s.updFab g).unserv = s.unserv := rfl
@[simp] theorem State.nodeDone_updFab (s : State) (g : Fab → Fab) : (s.updFab g).nodeDone = s.nodeDone := rfl
@[simp] theorem State.fetchBad_updFab (s : State) (g : Fab → Fab) : (s.updFab g).fetchBad = s.fetchBad := rfl
@[simp] theorem State.queues_updFab (s : State) (g : Fab → Fab) : (s.updFab g).queues = s.queues := rfl
@[simp] theorem State.graphs_updFab (s : State) (g : Fab → Fab) : (s.updFab g).graphs = s.graphs := rfl
@[simp] theorem State.launches_updFab (s : State) (g : Fab → Fab) : (s.updFab g).launches = s.launches := rfl
@[simp] theorem State.stages_updFab (s : State) (g : Fab → Fab) : (s.updFab g).stages = s.stages := rfl
@[simp] theorem State.fes_updFab (s : State) (g : Fab → Fab) : (s.updFab g).fes = s.fes := rfl
@[simp] theorem State.lds_updFab (s : State) (g : Fab → Fab) : (s.updFab g).lds = s.lds := rfl
@[simp] theorem State.spdm_updFab (s : State) (g : Fab → Fab) : (s.updFab g).spdm = s.spdm := rfl
@[simp] theorem State.host_updFab (s : State) (g : Fab → Fab) : (s.updFab g).host = s.host := rfl
@[simp] theorem State.fib_updFab (s : State) (g : Fab → Fab) (j : Nat) : (s.updFab g).fib j = s.fib j := rfl
@[simp] theorem State.band_updFab (s : State) (g : Fab → Fab) (j : Nat) : (s.updFab g).band j = s.band j := rfl
@[simp] theorem State.wg_updFab (s : State) (g : Fab → Fab) (j : Nat) : (s.updFab g).wg j = s.wg j := rfl
@[simp] theorem State.gang_updFab (s : State) (g : Fab → Fab) (j : Nat) : (s.updFab g).gang j = s.gang j := rfl
@[simp] theorem State.share_updFab (s : State) (g : Fab → Fab) (j : Nat) : (s.updFab g).share j = s.share j := rfl
@[simp] theorem State.mseq_updFab (s : State) (g : Fab → Fab) (j : Nat) : (s.updFab g).mseq j = s.mseq j := rfl
@[simp] theorem State.cop_updFab (s : State) (g : Fab → Fab) (j : Nat) : (s.updFab g).cop j = s.cop j := rfl
@[simp] theorem State.mat_updFab (s : State) (g : Fab → Fab) (j : Nat) : (s.updFab g).mat j = s.mat j := rfl
@[simp] theorem State.chan_updFab (s : State) (g : Fab → Fab) (j : Nat) : (s.updFab g).chan j = s.chan j := rfl
@[simp] theorem State.eng_updFab (s : State) (g : Fab → Fab) (j : Nat) : (s.updFab g).eng j = s.eng j := rfl
@[simp] theorem State.csm_updFab (s : State) (g : Fab → Fab) (j : Nat) : (s.updFab g).csm j = s.csm j := rfl
@[simp] theorem State.queue_updFab (s : State) (g : Fab → Fab) (j : Nat) : (s.updFab g).queue j = s.queue j := rfl
@[simp] theorem State.graph_updFab (s : State) (g : Fab → Fab) (j : Nat) : (s.updFab g).graph j = s.graph j := rfl
@[simp] theorem State.fe_updFab (s : State) (g : Fab → Fab) (j : Nat) : (s.updFab g).fe j = s.fe j := rfl
@[simp] theorem State.ld_updFab (s : State) (g : Fab → Fab) (j : Nat) : (s.updFab g).ld j = s.ld j := rfl
@[simp] theorem State.stage_updFab (s : State) (g : Fab → Fab) (j : Nat) : (s.updFab g).stage j = s.stage j := rfl
@[simp] theorem State.core_updFab (s : State) (g : Fab → Fab) (j : Nat) : (s.updFab g).core j = s.core j := rfl
@[simp] theorem State.tu_updFab (s : State) (g : Fab → Fab) (j : Nat) : (s.updFab g).tu j = s.tu j := rfl
@[simp] theorem State.launch_updFab (s : State) (g : Fab → Fab) (j : Nat) : (s.updFab g).launch j = s.launch j := rfl

@[simp] theorem State.agenda_updHost (s : State) (g : HostSt → HostSt) : (s.updHost g).agenda = s.agenda := rfl
@[simp] theorem State.focus_updHost (s : State) (g : HostSt → HostSt) : (s.updHost g).focus = s.focus := rfl
@[simp] theorem State.free_updHost (s : State) (g : HostSt → HostSt) : (s.updHost g).free = s.free := rfl
@[simp] theorem State.nextId_updHost (s : State) (g : HostSt → HostSt) : (s.updHost g).nextId = s.nextId := rfl
@[simp] theorem State.cycle_updHost (s : State) (g : HostSt → HostSt) : (s.updHost g).cycle = s.cycle := rfl
@[simp] theorem State.timeNs_updHost (s : State) (g : HostSt → HostSt) : (s.updHost g).timeNs = s.timeNs := rfl
@[simp] theorem State.fibres_updHost (s : State) (g : HostSt → HostSt) : (s.updHost g).fibres = s.fibres := rfl
@[simp] theorem State.bands_updHost (s : State) (g : HostSt → HostSt) : (s.updHost g).bands = s.bands := rfl
@[simp] theorem State.wgs_updHost (s : State) (g : HostSt → HostSt) : (s.updHost g).wgs = s.wgs := rfl
@[simp] theorem State.gangs_updHost (s : State) (g : HostSt → HostSt) : (s.updHost g).gangs = s.gangs := rfl
@[simp] theorem State.shares_updHost (s : State) (g : HostSt → HostSt) : (s.updHost g).shares = s.shares := rfl
@[simp] theorem State.mseqs_updHost (s : State) (g : HostSt → HostSt) : (s.updHost g).mseqs = s.mseqs := rfl
@[simp] theorem State.cops_updHost (s : State) (g : HostSt → HostSt) : (s.updHost g).cops = s.cops := rfl
@[simp] theorem State.bars_updHost (s : State) (g : HostSt → HostSt) : (s.updHost g).bars = s.bars := rfl
@[simp] theorem State.dbg_updHost (s : State) (g : HostSt → HostSt) : (s.updHost g).dbg = s.dbg := rfl
@[simp] theorem State.mem_updHost (s : State) (g : HostSt → HostSt) : (s.updHost g).mem = s.mem := rfl
@[simp] theorem State.tus_updHost (s : State) (g : HostSt → HostSt) : (s.updHost g).tus = s.tus := rfl
@[simp] theorem State.cores_updHost (s : State) (g : HostSt → HostSt) : (s.updHost g).cores = s.cores := rfl
@[simp] theorem State.etlb_updHost (s : State) (g : HostSt → HostSt) : (s.updHost g).etlb = s.etlb := rfl
@[simp] theorem State.csms_updHost (s : State) (g : HostSt → HostSt) : (s.updHost g).csms = s.csms := rfl
@[simp] theorem State.invs_updHost (s : State) (g : HostSt → HostSt) : (s.updHost g).invs = s.invs := rfl
@[simp] theorem State.irqs_updHost (s : State) (g : HostSt → HostSt) : (s.updHost g).irqs = s.irqs := rfl
@[simp] theorem State.chans_updHost (s : State) (g : HostSt → HostSt) : (s.updHost g).chans = s.chans := rfl
@[simp] theorem State.engs_updHost (s : State) (g : HostSt → HostSt) : (s.updHost g).engs = s.engs := rfl
@[simp] theorem State.fab_updHost (s : State) (g : HostSt → HostSt) : (s.updHost g).fab = s.fab := rfl
@[simp] theorem State.icache_updHost (s : State) (g : HostSt → HostSt) : (s.updHost g).icache = s.icache := rfl
@[simp] theorem State.copyqs_updHost (s : State) (g : HostSt → HostSt) : (s.updHost g).copyqs = s.copyqs := rfl
@[simp] theorem State.ctxs_updHost (s : State) (g : HostSt → HostSt) : (s.updHost g).ctxs = s.ctxs := rfl
@[simp] theorem State.ready_updHost (s : State) (g : HostSt → HostSt) : (s.updHost g).ready = s.ready := rfl
@[simp] theorem State.lastSrc_updHost (s : State) (g : HostSt → HostSt) : (s.updHost g).lastSrc = s.lastSrc := rfl
@[simp] theorem State.moves_updHost (s : State) (g : HostSt → HostSt) : (s.updHost g).moves = s.moves := rfl
@[simp] theorem State.mats_updHost (s : State) (g : HostSt → HostSt) : (s.updHost g).mats = s.mats := rfl
@[simp] theorem State.unserv_updHost (s : State) (g : HostSt → HostSt) : (s.updHost g).unserv = s.unserv := rfl
@[simp] theorem State.nodeDone_updHost (s : State) (g : HostSt → HostSt) : (s.updHost g).nodeDone = s.nodeDone := rfl
@[simp] theorem State.fetchBad_updHost (s : State) (g : HostSt → HostSt) : (s.updHost g).fetchBad = s.fetchBad := rfl
@[simp] theorem State.queues_updHost (s : State) (g : HostSt → HostSt) : (s.updHost g).queues = s.queues := rfl
@[simp] theorem State.graphs_updHost (s : State) (g : HostSt → HostSt) : (s.updHost g).graphs = s.graphs := rfl
@[simp] theorem State.launches_updHost (s : State) (g : HostSt → HostSt) : (s.updHost g).launches = s.launches := rfl
@[simp] theorem State.stages_updHost (s : State) (g : HostSt → HostSt) : (s.updHost g).stages = s.stages := rfl
@[simp] theorem State.fes_updHost (s : State) (g : HostSt → HostSt) : (s.updHost g).fes = s.fes := rfl
@[simp] theorem State.lds_updHost (s : State) (g : HostSt → HostSt) : (s.updHost g).lds = s.lds := rfl
@[simp] theorem State.spdm_updHost (s : State) (g : HostSt → HostSt) : (s.updHost g).spdm = s.spdm := rfl
@[simp] theorem State.host_updHost (s : State) (g : HostSt → HostSt) : (s.updHost g).host = g s.host := rfl
@[simp] theorem State.fib_updHost (s : State) (g : HostSt → HostSt) (j : Nat) : (s.updHost g).fib j = s.fib j := rfl
@[simp] theorem State.band_updHost (s : State) (g : HostSt → HostSt) (j : Nat) : (s.updHost g).band j = s.band j := rfl
@[simp] theorem State.wg_updHost (s : State) (g : HostSt → HostSt) (j : Nat) : (s.updHost g).wg j = s.wg j := rfl
@[simp] theorem State.gang_updHost (s : State) (g : HostSt → HostSt) (j : Nat) : (s.updHost g).gang j = s.gang j := rfl
@[simp] theorem State.share_updHost (s : State) (g : HostSt → HostSt) (j : Nat) : (s.updHost g).share j = s.share j := rfl
@[simp] theorem State.mseq_updHost (s : State) (g : HostSt → HostSt) (j : Nat) : (s.updHost g).mseq j = s.mseq j := rfl
@[simp] theorem State.cop_updHost (s : State) (g : HostSt → HostSt) (j : Nat) : (s.updHost g).cop j = s.cop j := rfl
@[simp] theorem State.mat_updHost (s : State) (g : HostSt → HostSt) (j : Nat) : (s.updHost g).mat j = s.mat j := rfl
@[simp] theorem State.chan_updHost (s : State) (g : HostSt → HostSt) (j : Nat) : (s.updHost g).chan j = s.chan j := rfl
@[simp] theorem State.eng_updHost (s : State) (g : HostSt → HostSt) (j : Nat) : (s.updHost g).eng j = s.eng j := rfl
@[simp] theorem State.csm_updHost (s : State) (g : HostSt → HostSt) (j : Nat) : (s.updHost g).csm j = s.csm j := rfl
@[simp] theorem State.queue_updHost (s : State) (g : HostSt → HostSt) (j : Nat) : (s.updHost g).queue j = s.queue j := rfl
@[simp] theorem State.graph_updHost (s : State) (g : HostSt → HostSt) (j : Nat) : (s.updHost g).graph j = s.graph j := rfl
@[simp] theorem State.fe_updHost (s : State) (g : HostSt → HostSt) (j : Nat) : (s.updHost g).fe j = s.fe j := rfl
@[simp] theorem State.ld_updHost (s : State) (g : HostSt → HostSt) (j : Nat) : (s.updHost g).ld j = s.ld j := rfl
@[simp] theorem State.stage_updHost (s : State) (g : HostSt → HostSt) (j : Nat) : (s.updHost g).stage j = s.stage j := rfl
@[simp] theorem State.core_updHost (s : State) (g : HostSt → HostSt) (j : Nat) : (s.updHost g).core j = s.core j := rfl
@[simp] theorem State.tu_updHost (s : State) (g : HostSt → HostSt) (j : Nat) : (s.updHost g).tu j = s.tu j := rfl
@[simp] theorem State.launch_updHost (s : State) (g : HostSt → HostSt) (j : Nat) : (s.updHost g).launch j = s.launch j := rfl

end Sys2Proof.Machine
end

