-- ==== Sys2Proof/Laws/Registers.lean ====
section
/-! SUPPORT. What the shared register operations do: a change of one thread's own record, and what a pass over the
threads of a batch leaves. -/

namespace Sys2Proof.Machine

-- One proof at a time: a kernel evaluation in each of many threads would exhaust the memory.
set_option Elab.async false

theorem Map.put_put {α : Type} (m : Map α) (k : Nat) (v w : α) : Map.put (Map.put m k v) k w = Map.put m k w := by
  induction m with
  | nil => simp [Map.put]
  | cons p m ih =>
    obtain ⟨j, x⟩ := p
    by_cases h1 : k < j
    · simp [Map.put, h1]
    · by_cases h2 : k = j
      · simp [Map.put, h2]
      · simp [Map.put, h1, h2, ih]

theorem State.setFib_setFib (s : State) (k : Nat) (x y : Fibre) : (s.setFib k x).setFib k y = s.setFib k y := by
  simp only [State.setFib, Map.put_put]

theorem State.setMseq_setMseq (s : State) (k : Nat) (x y : Seq) : (s.setMseq k x).setMseq k y = s.setMseq k y := by
  simp only [State.setMseq, Map.put_put]

theorem State.setCop_setCop (s : State) (k : Nat) (x y : Seq) : (s.setCop k x).setCop k y = s.setCop k y := by
  simp only [State.setCop, Map.put_put]

/-- Changes a thread's own record. -/
def State.onThr (s : State) (t : Thr) (u : Fibre → Fibre) (v : Seq → Seq) : State :=
  match t with
  | .fib k => s.setFib k (u (s.fib k))
  | .mat q => s.setMseq q (v (s.mseq q))
  | .cop c => s.setCop c (v (s.cop c))

theorem State.onThr_onThr (s : State) (t : Thr) (u u' : Fibre → Fibre) (v v' : Seq → Seq) :
    (s.onThr t u v).onThr t u' v' = s.onThr t (u' ∘ u) (v' ∘ v) := by
  cases t <;> simp only [State.onThr, State.fib_setFib_self, State.mseq_setMseq_self, State.cop_setCop_self,
    Function.comp, State.setFib_setFib, State.setMseq_setMseq, State.setCop_setCop]

theorem State.fib_onThr (s : State) (t : Thr) (u : Fibre → Fibre) (v : Seq → Seq) (k : Nat) :
    (s.onThr t u v).fib k = if t = .fib k then u (s.fib k) else s.fib k := by
  cases t with
  | fib j => simp only [State.onThr, State.fib_setFib, Thr.fib.injEq, eq_comm (a := k)]; split <;> simp_all
  | mat q => rfl
  | cop c => rfl

theorem State.mseq_onThr (s : State) (t : Thr) (u : Fibre → Fibre) (v : Seq → Seq) (q : Nat) :
    (s.onThr t u v).mseq q = if t = .mat q then v (s.mseq q) else s.mseq q := by
  cases t with
  | mat j => simp only [State.onThr, State.mseq_setMseq, Thr.mat.injEq, eq_comm (a := q)]; split <;> simp_all
  | fib k => rfl
  | cop c => rfl

theorem State.cop_onThr (s : State) (t : Thr) (u : Fibre → Fibre) (v : Seq → Seq) (c : Nat) :
    (s.onThr t u v).cop c = if t = .cop c then v (s.cop c) else s.cop c := by
  cases t with
  | cop j => simp only [State.onThr, State.cop_setCop, Thr.cop.injEq, eq_comm (a := c)]; split <;> simp_all
  | fib k => rfl
  | mat q => rfl

/-- Two states that differ at most in the records of threads. -/
def State.EqButThr (s t : State) : Prop := { t with fibres := s.fibres, mseqs := s.mseqs, cops := s.cops } = s

theorem State.EqButThr.rfl' (s : State) : State.EqButThr s s := rfl

theorem State.EqButThr.trans {a b c : State} (h : State.EqButThr a b) (g : State.EqButThr b c) :
    State.EqButThr a c := by
  cases a; cases b; cases c
  simp only [State.EqButThr, State.mk.injEq] at *
  grind

theorem State.onThr_eqBut (s : State) (t : Thr) (u : Fibre → Fibre) (v : Seq → Seq) :
    State.EqButThr s (s.onThr t u v) := by cases t <;> rfl

/-- A pass over distinct threads, each changing its own record only. -/
theorem foldl_onThr (l : List Thr) (hn : l.Nodup) (u : Thr → Fibre → Fibre) (v : Thr → Seq → Seq) (s : State) :
    let t := l.foldl (fun s t => s.onThr t (u t) (v t)) s
    (∀ k, t.fib k = if .fib k ∈ l then u (.fib k) (s.fib k) else s.fib k) ∧
    (∀ q, t.mseq q = if .mat q ∈ l then v (.mat q) (s.mseq q) else s.mseq q) ∧
    (∀ c, t.cop c = if .cop c ∈ l then v (.cop c) (s.cop c) else s.cop c) ∧ State.EqButThr s t := by
  induction l generalizing s with
  | nil => simp [State.EqButThr]
  | cons a l ih =>
    obtain ⟨h1, h2⟩ := List.nodup_cons.mp hn
    obtain ⟨hf, hm, hc, he⟩ := ih h2 (s.onThr a (u a) (v a))
    refine ⟨fun k => ?_, fun k => ?_, fun k => ?_, (State.onThr_eqBut ..).trans he⟩
    · rw [List.foldl_cons, hf k, State.fib_onThr]
      by_cases h : a = .fib k
      · subst h; simp [h1]
      · simp [h, Ne.symm h]
    · rw [List.foldl_cons, hm k, State.mseq_onThr]
      by_cases h : a = .mat k
      · subst h; simp [h1]
      · simp [h, Ne.symm h]
    · rw [List.foldl_cons, hc k, State.cop_onThr]
      by_cases h : a = .cop k
      · subst h; simp [h1]
      · simp [h, Ne.symm h]

/-! ### The threads of a batch are distinct -/

theorem bitList_nodup (m : W32) : (bitList m).Nodup := List.Pairwise.filter _ List.nodup_range

theorem State.threads_nodup (s : State) : s.threads.Nodup := by
  unfold State.threads
  split
  · refine List.Pairwise.map _ ?_ (List.Pairwise.filter _ (bitList_nodup _))
    intro x y h e
    exact h (by simpa using e)
  · simp
  · simp

theorem State.active_nodup (s : State) (f : Fields) : (s.active f).Nodup := List.Pairwise.filter _ s.threads_nodup
theorem State.idle_nodup (s : State) (f : Fields) : (s.threads.filter fun t => !s.guard f t).Nodup :=
  List.Pairwise.filter _ s.threads_nodup

/-! ### Settling changes bands only -/


/-- Two states that differ at most in the batches of bands. -/
def State.EqButBands (s t : State) : Prop := { t with bands := s.bands } = s ∧ ∀ b, (t.band b).kept = (s.band b).kept

theorem State.EqButBands.rfl' (s : State) : State.EqButBands s s := ⟨rfl, fun _ => rfl⟩

theorem State.EqButBands.trans {a b c : State} (h : State.EqButBands a b) (g : State.EqButBands b c) :
    State.EqButBands a c := by
  refine ⟨?_, fun k => (g.2 k).trans (h.2 k)⟩
  obtain ⟨h, -⟩ := h
  obtain ⟨g, -⟩ := g
  cases a; cases b; cases c
  simp only [State.mk.injEq] at *
  grind

theorem State.setBand_eqBut (s : State) (b : Nat) (x : Band) (h : x.kept = (s.band b).kept) :
    State.EqButBands s (s.setBand b x) := by
  refine ⟨rfl, fun k => ?_⟩
  rw [State.band_setBand]
  split
  · subst_vars; exact h
  · rfl

theorem State.choose_eqBut (s : State) (b : Nat) : State.EqButBands s (s.choose b) := by
  unfold State.choose
  simp only
  split
  · exact .rfl' s
  · apply State.setBand_eqBut
    split <;> rfl

theorem State.regroup_eqBut (s : State) (b : Nat) : State.EqButBands s (s.regroup b) := by
  unfold State.regroup
  simp only
  split
  · exact .trans (State.setBand_eqBut s b _ (by rfl)) (State.choose_eqBut _ _)
  · split
    · exact .trans (State.setBand_eqBut s b _ (by rfl)) (State.choose_eqBut _ _)
    · exact State.setBand_eqBut _ _ _ rfl
    · exact .trans (State.setBand_eqBut s b _ (by rfl)) (State.choose_eqBut _ _)

theorem State.settle_eqBut (s : State) : State.EqButBands s s.settle := by
  unfold State.settle
  split
  · exact State.regroup_eqBut _ _
  · exact .rfl' s

theorem State.EqButBands.fib {s t : State} (h : State.EqButBands s t) (k : Nat) : t.fib k = s.fib k := by
  have := congrArg (fun x => State.fib x k) h.1; exact this

theorem State.EqButBands.mseq {s t : State} (h : State.EqButBands s t) (k : Nat) : t.mseq k = s.mseq k := by
  have := congrArg (fun x => State.mseq x k) h.1; exact this

theorem State.EqButBands.cop {s t : State} (h : State.EqButBands s t) (k : Nat) : t.cop k = s.cop k := by
  have := congrArg (fun x => State.cop x k) h.1; exact this

/-! ### The small operations as changes of a thread's record -/

theorem State.setPc_eq (s : State) (t : Thr) (pc : W64) :
    s.setPc t pc = s.onThr t (fun f => { f with pc := pc }) (fun m => { m with pc := pc }) := by cases t <;> rfl

theorem State.setPredWord_eq (s : State) (t : Thr) (w : W32) :
    s.setPredWord t w = s.onThr t (fun f => { f with pw := w }) (fun m => { m with pw := w }) := by cases t <;> rfl

/-- A fibre whose register n takes a value. -/
def Fibre.putX (f : Fibre) (n : Nat) (v : W32) : Fibre :=
  { f with x := Map.put f.x n v, lost := f.lost.filter (· ≠ n), cfault := Map.del f.cfault n, cherr := Map.del f.cherr n }

def Seq.putX (m : Seq) (n : Nat) (v : W32) : Seq := { m with regs := Map.put m.regs n v }

theorem State.wx_eq (s : State) (t : Thr) (n : Nat) (v : W32) :
    s.wx t n v = if n = 0 then s else s.onThr t (fun f => f.putX n v) (fun m => m.putX n v) := by
  unfold State.wx
  split
  · rfl
  · cases t <;> rfl

end Sys2Proof.Machine
end

