-- ==== Sys2Proof/Laws/Alu.lean ====
section
/-! SUPPORT. What an instruction on registers does: every shape of result, stated once for the batch. -/

namespace Sys2Proof.Machine

-- One proof at a time: a kernel evaluation in each of many threads would exhaust the memory.
set_option Elab.async false

/-- A change of one thread's record that may take result numbers. -/
def State.putThr (s : State) (t : Thr) (u : Nat → Fibre → Fibre) (v : Nat → Seq → Seq) (c : Nat) : State :=
  { s.onThr t (u s.nextId) (v s.nextId) with nextId := s.nextId + c }

theorem State.fib_putThr (s : State) (t : Thr) (u : Nat → Fibre → Fibre) (v : Nat → Seq → Seq) (c k : Nat) :
    (s.putThr t u v c).fib k = if t = .fib k then u s.nextId (s.fib k) else s.fib k := State.fib_onThr ..

theorem State.mseq_putThr (s : State) (t : Thr) (u : Nat → Fibre → Fibre) (v : Nat → Seq → Seq) (c k : Nat) :
    (s.putThr t u v c).mseq k = if t = .mat k then v s.nextId (s.mseq k) else s.mseq k := State.mseq_onThr ..

theorem State.cop_putThr (s : State) (t : Thr) (u : Nat → Fibre → Fibre) (v : Nat → Seq → Seq) (c k : Nat) :
    (s.putThr t u v c).cop k = if t = .cop k then v s.nextId (s.cop k) else s.cop k := State.cop_onThr ..

/-- Two states that differ at most in the records of threads and the next result number. -/
def State.EqButRegs (s t : State) : Prop :=
  { t with fibres := s.fibres, mseqs := s.mseqs, cops := s.cops, nextId := s.nextId } = s

theorem State.EqButRegs.trans {a b c : State} (h : State.EqButRegs a b) (g : State.EqButRegs b c) :
    State.EqButRegs a c := by
  cases a; cases b; cases c
  simp only [State.EqButRegs, State.mk.injEq] at *
  grind

theorem State.putThr_eqBut (s : State) (t : Thr) (u : Nat → Fibre → Fibre) (v : Nat → Seq → Seq) (c : Nat) :
    State.EqButRegs s (s.putThr t u v c) := by cases t <;> rfl

/-- A pass over distinct threads, each changing its own record and taking result numbers. -/
theorem foldl_putThr (l : List Thr) (hn : l.Nodup) (u : Thr → Nat → Fibre → Fibre) (v : Thr → Nat → Seq → Seq)
    (c : Thr → Nat) (s : State) :
    let t := l.foldl (fun s t => s.putThr t (u t) (v t) (c t)) s
    s.nextId ≤ t.nextId ∧
    (∀ k, ∃ n, t.fib k = (if .fib k ∈ l then u (.fib k) n (s.fib k) else s.fib k) ∧
      (.fib k ∈ l → s.nextId ≤ n ∧ n + c (.fib k) ≤ t.nextId)) ∧
    (∀ k, ∃ n, t.mseq k = (if .mat k ∈ l then v (.mat k) n (s.mseq k) else s.mseq k) ∧
      (.mat k ∈ l → s.nextId ≤ n ∧ n + c (.mat k) ≤ t.nextId)) ∧
    (∀ k, ∃ n, t.cop k = (if .cop k ∈ l then v (.cop k) n (s.cop k) else s.cop k) ∧
      (.cop k ∈ l → s.nextId ≤ n ∧ n + c (.cop k) ≤ t.nextId)) ∧ State.EqButRegs s t := by
  induction l generalizing s with
  | nil => simp [State.EqButRegs]
  | cons a l ih =>
    obtain ⟨h1, h2⟩ := List.nodup_cons.mp hn
    obtain ⟨hi, hf, hm, hc, he⟩ := ih h2 (s.putThr a (u a) (v a) (c a))
    simp only [List.foldl_cons]
    have hid : (s.putThr a (u a) (v a) (c a)).nextId = s.nextId + c a := rfl
    rw [hid] at hi
    refine ⟨by omega, fun k => ?_, fun k => ?_, fun k => ?_, (State.putThr_eqBut ..).trans he⟩
    · obtain ⟨n, e, b⟩ := hf k
      rw [e, State.fib_putThr]
      by_cases h : a = .fib k
      · subst h; exact ⟨s.nextId, by simp [h1], fun _ => ⟨Nat.le_refl _, hi⟩⟩
      · refine ⟨n, by simp [h, Ne.symm h], fun m => ?_⟩
        have := b (by simpa [Ne.symm h] using m)
        rw [hid] at this
        exact ⟨by omega, this.2⟩
    · obtain ⟨n, e, b⟩ := hm k
      rw [e, State.mseq_putThr]
      by_cases h : a = .mat k
      · subst h; exact ⟨s.nextId, by simp [h1], fun _ => ⟨Nat.le_refl _, hi⟩⟩
      · refine ⟨n, by simp [h, Ne.symm h], fun m => ?_⟩
        have := b (by simpa [Ne.symm h] using m)
        rw [hid] at this
        exact ⟨by omega, this.2⟩
    · obtain ⟨n, e, b⟩ := hc k
      rw [e, State.cop_putThr]
      by_cases h : a = .cop k
      · subst h; exact ⟨s.nextId, by simp [h1], fun _ => ⟨Nat.le_refl _, hi⟩⟩
      · refine ⟨n, by simp [h, Ne.symm h], fun m => ?_⟩
        have := b (by simpa [Ne.symm h] using m)
        rw [hid] at this
        exact ⟨by omega, this.2⟩

/-! ### One record before and after -/

/-- The parts of a thread's record that instructions on registers touch. -/
structure Rec where
  pc : W64
  pw : W32
  regs : Map W32
  pend : List Pend
  lost : List Nat
  cfault : Map W32
  cherr : Map W32

def Fibre.rec' (f : Fibre) : Rec := ⟨f.pc, f.pw, f.x, f.pend, f.lost, f.cfault, f.cherr⟩
def Seq.rec' (m : Seq) : Rec := ⟨m.pc, m.pw, m.regs, m.pend, [], [], []⟩

/-- The record after an instruction but for its PC; `marks` where the record has register marks. -/
structure Rec.Did (r r' : Rec) (n c : Nat) (marks : Bool) (regs : List (Nat × W32)) (preds : List (Nat × Bool))
    (pend : List (List (Nat × W32) × List (Nat × Bool) × Bool)) : Prop where
  zero : regs.lookup 0 = none
  reg : ∀ m, Map.getD r'.regs m 0 = (regs.lookup m).getD (Map.getD r.regs m 0)
  pred : ∀ m, m < 32 → r'.pw.getLsbD m = (preds.lookup m).getD (r.pw.getLsbD m)
  pc : r'.pc = r.pc
  pends : ∃ l, r'.pend = r.pend ++ l ∧ l.map Pend.what = pend ∧ ∀ p ∈ l, n ≤ p.id ∧ p.id < n + c
  lost : marks = true → r'.lost = r.lost.filter fun m => (regs.lookup m).isNone
  cfault : marks = true → r'.cfault = regs.foldl (fun m p => Map.del m p.1) r.cfault
  cherr : marks = true → r'.cherr = regs.foldl (fun m p => Map.del m p.1) r.cherr

theorem Rec.Did.refl (r : Rec) (n : Nat) (marks : Bool) : Rec.Did r r n 0 marks [] [] [] where
  zero := rfl
  reg _ := rfl
  pred _ _ := rfl
  pc := rfl
  pends := ⟨[], by simp⟩
  lost _ := (List.filter_eq_self.mpr fun _ _ => rfl).symm
  cfault _ := rfl
  cherr _ := rfl

def State.thrRec (s : State) : Thr → Rec
  | .fib k => (s.fib k).rec'
  | .mat q => (s.mseq q).rec'
  | .cop c => (s.cop c).rec'

def Thr.isFib : Thr → Bool
  | .fib _ => true
  | _ => false

theorem State.rx_rec (s : State) (x : Thr) (n : Nat) : s.rx x n = if n = 0 then 0 else Map.getD (s.thrRec x).regs n 0 := by
  cases x <;> rfl
theorem State.predWord_rec (s : State) (x : Thr) : s.predWord x = (s.thrRec x).pw := by cases x <;> rfl
theorem State.pcOf_rec (s : State) (x : Thr) : s.pcOf x = (s.thrRec x).pc := by cases x <;> rfl

/-- Pending results of a thread. -/
theorem State.pends_rec (s : State) (x : Thr) : s.pends x = (s.thrRec x).pend := by cases x <;> rfl

/-- What a thread's record is after the pass, before bands settle. -/
def ranRec (s t : State) (f : Fields) (len : Nat) (regs : Thr → List (Nat × W32))
    (preds : Thr → List (Nat × Bool)) (pend : Thr → List (List (Nat × W32) × List (Nat × Bool) × Bool)) (x : Thr) : Prop :=
  ∃ r n k, Rec.Did (s.thrRec x) r n k x.isFib (if x ∈ s.active f then regs x else [])
      (if x ∈ s.active f then preds x else []) (if x ∈ s.active f then pend x else []) ∧
    s.nextId ≤ n ∧ n + k ≤ t.nextId ∧
    t.thrRec x = { r with pc := if x ∈ s.threads then seqPc r.pc len else r.pc }

theorem State.ran_of_rec {s t : State} {f : Fields} {len : Nat} {regs : Thr → List (Nat × W32)}
    {preds : Thr → List (Nat × Bool)} {pend : Thr → List (List (Nat × W32) × List (Nat × Bool) × Bool)}
    (h : ∀ x, ranRec s t f len regs preds pend x) (hf : ∀ k, (t.fib k).kept = (s.fib k).kept)
    (hm : ∀ k, (t.mseq k).kept = (s.mseq k).kept) (hc : ∀ k, (t.cop k).kept = (s.cop k).kept)
    (hb : ∀ b, (t.band b).kept = (s.band b).kept)
    (hr : { t with fibres := s.fibres, mseqs := s.mseqs, cops := s.cops, bands := s.bands, nextId := s.nextId } = s) :
    s.Ran t f len regs preds pend where
  reg x n := by
    obtain ⟨r, m, k, d, -, -, e⟩ := h x
    rw [State.rx_rec, State.rx_rec, e, d.reg n]
    by_cases hn : n = 0
    · subst hn; simp [d.zero]
    · simp [hn]
  pred x n hn := by
    obtain ⟨r, m, k, d, -, -, e⟩ := h x
    rw [State.predWord_rec, State.predWord_rec, e]
    exact d.pred n hn
  pc x := by
    obtain ⟨r, m, k, d, -, -, e⟩ := h x
    rw [State.pcOf_rec, State.pcOf_rec, e, ← d.pc]
  pends x := by
    obtain ⟨r, m, k, d, h1, h2, e⟩ := h x
    obtain ⟨l, e1, e2, e3⟩ := d.pends
    rw [State.pends_rec, State.pends_rec, e]
    exact ⟨l, e1, e2, fun p hp => ⟨by have := e3 p hp; omega, by have := e3 p hp; omega⟩⟩
  lost k := by
    obtain ⟨r, m, j, d, -, -, e⟩ := h (.fib k)
    exact (congrArg Rec.lost e).trans (d.lost rfl)
  cfault k := by
    obtain ⟨r, m, j, d, -, -, e⟩ := h (.fib k)
    exact (congrArg Rec.cfault e).trans (d.cfault rfl)
  cherr k := by
    obtain ⟨r, m, j, d, -, -, e⟩ := h (.fib k)
    exact (congrArg Rec.cherr e).trans (d.cherr rfl)
  fib := hf
  mseq := hm
  cop := hc
  band := hb
  rest := hr

theorem State.mem_active {s : State} {f : Fields} {x : Thr} : x ∈ s.active f ↔ x ∈ s.threads ∧ s.guard f x = true :=
  List.mem_filter

theorem State.ran_rest {s s1 s2 s3 : State} (e1 : State.EqButThr s s1) (e2 : State.EqButRegs s1 s2)
    (h3 : { s3 with bands := s2.bands } = s2) :
    { s3 with fibres := s.fibres, mseqs := s.mseqs, cops := s.cops, bands := s.bands, nextId := s.nextId } = s := by
  cases s; cases s1; cases s2; cases s3
  simp only [State.EqButThr, State.EqButRegs, State.mk.injEq] at *
  grind

/-- What an instruction does that changes each active thread's own record. -/
theorem State.alu_ran (s : State) (f : Fields) (len : Nat) (g : Thr → State → State)
    (u : Thr → Nat → Fibre → Fibre) (v : Thr → Nat → Seq → Seq) (c : Thr → Nat)
    (regs : Thr → List (Nat × W32)) (preds : Thr → List (Nat × Bool))
    (pend : Thr → List (List (Nat × W32) × List (Nat × Bool) × Bool))
    (hg : ∀ s' t, g t s' = s'.putThr t (u t) (v t) (c t))
    (hu : ∀ k n F, Rec.Did F.rec' (u (.fib k) n F).rec' n (c (.fib k)) true (regs (.fib k)) (preds (.fib k)) (pend (.fib k))
      ∧ (u (.fib k) n F).kept = F.kept)
    (hv : ∀ x n M, x.isFib = false →
      Rec.Did M.rec' (v x n M).rec' n (c x) false (regs x) (preds x) (pend x) ∧ (v x n M).kept = M.kept) :
    ∃ t, s.alu f len g = .next t ∧ s.Ran t f len regs preds pend := by
  refine ⟨_, rfl, ?_⟩
  have hidle : ∀ l : List Thr, ∀ s : State, l.foldl (fun s t => s.adv t len) s
      = l.foldl (fun s t => s.onThr t (fun f => { f with pc := seqPc f.pc len }) (fun m => { m with pc := seqPc m.pc len })) s := by
    intro l s
    congr 1; funext s t; cases t <;> rfl
  have hact : (fun (s' : State) t => (g t s').adv t len) = fun s' t =>
      s'.putThr t (fun n F => { u t n F with pc := seqPc (u t n F).pc len })
        (fun n M => { v t n M with pc := seqPc (v t n M).pc len }) (c t) := by
    funext s' t
    rw [hg]
    cases t <;> simp only [State.putThr, State.adv, State.setPc, State.pcOf, State.onThr, State.updFib, State.updSeq,
      State.setSeq, State.seq, State.setFib, State.setMseq, State.setCop, State.fib, State.mseq, State.cop,
      Map.getD_put_self, Map.put_put]
  unfold State.forActive
  rw [hact]
  simp only [hidle]
  obtain ⟨f1, m1, c1, e1⟩ := foldl_onThr (s.threads.filter fun t => !s.guard f t) (s.idle_nodup f)
    (fun _ f => { f with pc := seqPc f.pc len }) (fun _ m => { m with pc := seqPc m.pc len }) s
  revert f1 m1 c1 e1
  generalize List.foldl _ s (s.threads.filter fun t => !s.guard f t) = s1
  intro f1 m1 c1 e1
  obtain ⟨i2, f2, m2, c2, e2⟩ := foldl_putThr (s.active f) (s.active_nodup f)
    (fun t n F => { u t n F with pc := seqPc (u t n F).pc len })
    (fun t n M => { v t n M with pc := seqPc (v t n M).pc len }) c s1
  revert i2 f2 m2 c2 e2
  generalize List.foldl _ s1 (s.active f) = s2
  intro i2 f2 m2 c2 e2
  have hid : s1.nextId = s.nextId := by
    have := congrArg State.nextId e1; exact this
  have hset := State.settle_eqBut s2
  have hoff : ∀ x, (x ∈ s.threads.filter fun t => !s.guard f t) ↔ x ∈ s.threads ∧ s.guard f x = false := by
    intro x; simp [List.mem_filter]
  have hidt : s2.settle.nextId = s2.nextId := by
    have := congrArg State.nextId hset.1; exact this
  apply State.ran_of_rec
  · intro x
    unfold ranRec
    rw [hidt]
    cases x with
    | fib k =>
      obtain ⟨n, h1, h2⟩ := f2 k
      have e : s2.settle.thrRec (.fib k) = (s2.fib k).rec' := congrArg Fibre.rec' (hset.fib k)
      by_cases ha : .fib k ∈ s.active f
      · have hk : s1.fib k = s.fib k := by
          rw [f1 k, if_neg]; rw [hoff]; have := (State.mem_active.mp ha).2; simp [this]
        refine ⟨(u (.fib k) n (s.fib k)).rec', n, c (.fib k), ?_, ?_, ?_, ?_⟩
        · rw [if_pos ha, if_pos ha, if_pos ha]; exact (hu k n (s.fib k)).1
        · have := h2 ha; omega
        · have := h2 ha; omega
        · rw [e, h1, hk]; simp [ha, (State.mem_active.mp ha).1, Fibre.rec']
      · refine ⟨(s.fib k).rec', s.nextId, 0, ?_, Nat.le_refl _, by omega, ?_⟩
        · rw [if_neg ha, if_neg ha, if_neg ha]; exact Rec.Did.refl _ _ _
        · rw [e, h1, if_neg ha, f1 k]
          by_cases ht : .fib k ∈ s.threads
          · have : s.guard f (.fib k) = false :=
              Bool.eq_false_iff.mpr fun hh => ha (State.mem_active.mpr ⟨ht, hh⟩)
            rw [if_pos ((hoff _).mpr ⟨ht, this⟩)]; simp [ht, Fibre.rec']
          · rw [if_neg (fun h => ht ((hoff _).mp h).1)]; simp [ht]
    | mat k =>
      obtain ⟨n, h1, h2⟩ := m2 k
      have e : s2.settle.thrRec (.mat k) = (s2.mseq k).rec' := congrArg Seq.rec' (hset.mseq k)
      by_cases ha : .mat k ∈ s.active f
      · have hk : s1.mseq k = s.mseq k := by
          rw [m1 k, if_neg]; rw [hoff]; have := (State.mem_active.mp ha).2; simp [this]
        refine ⟨(v (.mat k) n (s.mseq k)).rec', n, c (.mat k), ?_, ?_, ?_, ?_⟩
        · rw [if_pos ha, if_pos ha, if_pos ha]; exact (hv (.mat k) n (s.mseq k) rfl).1
        · have := h2 ha; omega
        · have := h2 ha; omega
        · rw [e, h1, hk]; simp [ha, (State.mem_active.mp ha).1, Seq.rec']
      · refine ⟨(s.mseq k).rec', s.nextId, 0, ?_, Nat.le_refl _, by omega, ?_⟩
        · rw [if_neg ha, if_neg ha, if_neg ha]; exact Rec.Did.refl _ _ _
        · rw [e, h1, if_neg ha, m1 k]
          by_cases ht : .mat k ∈ s.threads
          · have : s.guard f (.mat k) = false :=
              Bool.eq_false_iff.mpr fun hh => ha (State.mem_active.mpr ⟨ht, hh⟩)
            rw [if_pos ((hoff _).mpr ⟨ht, this⟩)]; simp [ht, Seq.rec']
          · rw [if_neg (fun h => ht ((hoff _).mp h).1)]; simp [ht]
    | cop k =>
      obtain ⟨n, h1, h2⟩ := c2 k
      have e : s2.settle.thrRec (.cop k) = (s2.cop k).rec' := congrArg Seq.rec' (hset.cop k)
      by_cases ha : .cop k ∈ s.active f
      · have hk : s1.cop k = s.cop k := by
          rw [c1 k, if_neg]; rw [hoff]; have := (State.mem_active.mp ha).2; simp [this]
        refine ⟨(v (.cop k) n (s.cop k)).rec', n, c (.cop k), ?_, ?_, ?_, ?_⟩
        · rw [if_pos ha, if_pos ha, if_pos ha]; exact (hv (.cop k) n (s.cop k) rfl).1
        · have := h2 ha; omega
        · have := h2 ha; omega
        · rw [e, h1, hk]; simp [ha, (State.mem_active.mp ha).1, Seq.rec']
      · refine ⟨(s.cop k).rec', s.nextId, 0, ?_, Nat.le_refl _, by omega, ?_⟩
        · rw [if_neg ha, if_neg ha, if_neg ha]; exact Rec.Did.refl _ _ _
        · rw [e, h1, if_neg ha, c1 k]
          by_cases ht : .cop k ∈ s.threads
          · have : s.guard f (.cop k) = false :=
              Bool.eq_false_iff.mpr fun hh => ha (State.mem_active.mpr ⟨ht, hh⟩)
            rw [if_pos ((hoff _).mpr ⟨ht, this⟩)]; simp [ht, Seq.rec']
          · rw [if_neg (fun h => ht ((hoff _).mp h).1)]; simp [ht]
  · intro k
    obtain ⟨n, h1, -⟩ := f2 k
    rw [hset.fib, h1]
    have hk : (s1.fib k).kept = (s.fib k).kept := by rw [f1 k]; split <;> rfl
    split
    · have := (hu k n (s1.fib k)).2
      exact (congrArg (fun F : Fibre => { F with pc := 0 }) this).trans hk
    · exact hk
  · intro k
    obtain ⟨n, h1, -⟩ := m2 k
    rw [hset.mseq, h1]
    have hk : (s1.mseq k).kept = (s.mseq k).kept := by rw [m1 k]; split <;> rfl
    split
    · have := (hv (.mat k) n (s1.mseq k) rfl).2
      exact (congrArg (fun F : Seq => { F with pc := 0 }) this).trans hk
    · exact hk
  · intro k
    obtain ⟨n, h1, -⟩ := c2 k
    rw [hset.cop, h1]
    have hk : (s1.cop k).kept = (s.cop k).kept := by rw [c1 k]; split <;> rfl
    split
    · have := (hv (.cop k) n (s1.cop k) rfl).2
      exact (congrArg (fun F : Seq => { F with pc := 0 }) this).trans hk
    · exact hk
  · intro b
    rw [hset.2 b]
    have h1 := congrArg (fun x => State.band x b) e1
    have h2 := congrArg (fun x => State.band x b) e2
    exact congrArg Band.kept ((show s2.band b = s1.band b from h2).trans h1)
  · exact State.ran_rest e1 e2 hset.1

/-! ### The shapes of results -/

theorem seqUpd_kept (M : Seq) (n : Nat) (v : W32) : (M.putX n v).kept = M.kept := rfl
theorem fibUpd_kept (F : Fibre) (n : Nat) (v : W32) : (F.putX n v).kept = F.kept := rfl

theorem lookup_one {α : Type} (m d : Nat) (v : α) : List.lookup m [(d, v)] = if m = d then some v else none := by
  by_cases h : m = d
  · simp [List.lookup, h]
  · have : (m == d) = false := by simpa using h
    simp [List.lookup, this, h]

theorem lookup_two {α : Type} (m d e : Nat) (v w : α) :
    List.lookup m [(d, v), (e, w)] = if m = d then some v else if m = e then some w else none := by
  by_cases h : m = d
  · simp [List.lookup, h]
  · have : (m == d) = false := by simpa using h
    rw [if_neg h, ← lookup_one]
    simp [List.lookup, this]

theorem onThr_putThr (s : State) (t : Thr) (u : Fibre → Fibre) (v : Seq → Seq) :
    s.onThr t u v = s.putThr t (fun _ => u) (fun _ => v) 0 := by cases t <;> rfl

theorem Rec.Did.putX (F : Fibre) {d : Nat} (hd : d ≠ 0) (v : W32) (n : Nat) :
    Rec.Did F.rec' (F.putX d v).rec' n 0 true [(d, v)] [] [] where
  zero := by rw [lookup_one, if_neg hd.symm]
  reg m := by
    show Map.getD (Map.put F.x d v) m 0 = _
    rw [Map.getD_put]
    rw [lookup_one]; split <;> rfl
  pred _ _ := rfl
  pc := rfl
  pends := ⟨[], by simp [Fibre.rec', Fibre.putX]⟩
  lost _ := by
    simp only [Fibre.rec', Fibre.putX]
    refine List.filter_congr fun m _ => ?_
    rw [lookup_one]
    by_cases h : m = d <;> simp [h]
  cfault _ := rfl
  cherr _ := rfl

theorem Rec.Did.putXS (M : Seq) {d : Nat} (hd : d ≠ 0) (v : W32) (n : Nat) :
    Rec.Did M.rec' (M.putX d v).rec' n 0 false [(d, v)] [] [] where
  zero := by rw [lookup_one, if_neg hd.symm]
  reg m := by
    show Map.getD (Map.put M.regs d v) m 0 = _
    rw [Map.getD_put]
    rw [lookup_one]; split <;> rfl
  pred _ _ := rfl
  pc := rfl
  pends := ⟨[], by simp [Seq.rec', Seq.putX]⟩
  lost h := by simp at h
  cfault h := by simp at h
  cherr h := by simp at h

theorem d_ne {f : Fields} (h : f.d ≠ 0) : f.d.toNat ≠ 0 := fun e => h (BitVec.eq_of_toNat_eq (by simpa using e))
theorem d_eq {f : Fields} (h : f.d = 0) : f.d.toNat = 0 := by simp [h]

/-- An instruction that writes nothing. -/
theorem State.alu_same (s : State) (f : Fields) (len : Nat) (g : Thr → State → State) (hg : ∀ s' t, g t s' = s') :
    ∃ t, s.alu f len g = .next t ∧ s.Ran t f len wrNone wrNone wrNone := by
  have key : s.alu f len g = s.alu f len fun t s' => s'.putThr t (fun _ F => F) (fun _ M => M) 0 := by
    unfold State.alu State.forActive
    have : (fun (s' : State) t => (g t s').adv t len) = fun s' t => (s'.putThr t (fun _ F => F) (fun _ M => M) 0).adv t len := by
      funext s' t
      rw [hg]
      cases t <;> simp only [State.putThr, State.adv, State.setPc, State.pcOf, State.onThr, State.updFib, State.updSeq,
        State.setSeq, State.seq, State.setFib, State.setMseq, State.setCop, State.fib, State.mseq, State.cop,
        Map.getD_put_self, Map.put_put] <;> rfl
    rw [this]
  rw [key]
  exact State.alu_ran s f len _ (fun _ _ F => F) (fun _ _ M => M) (fun _ => 0) wrNone wrNone wrNone (fun _ _ => rfl)
    (fun k n F => ⟨Rec.Did.refl _ _ _, rfl⟩) (fun x n M _ => ⟨Rec.Did.refl _ _ _, rfl⟩)

theorem State.aluX_ran (s : State) (f : Fields) (len : Nat) (v : Thr → W32) :
    ∃ t, s.aluX f len v = .next t ∧ s.Ran t f len (wrX f v) wrNone wrNone := by
  by_cases h : f.d = 0
  · have e : wrX f v = wrNone := by funext x; simp [wrX, h, wrNone]
    rw [e]
    exact State.alu_same s f len _ fun s' t => by simp [State.wx, d_eq h]
  · have e : wrX f v = fun x => [(f.d.toNat, v x)] := by funext x; exact if_neg h
    rw [e]
    refine State.alu_ran s f len _ (fun x _ F => F.putX f.d.toNat (v x)) (fun x _ M => M.putX f.d.toNat (v x)) (fun _ => 0)
      _ wrNone wrNone ?_ ?_ ?_
    · intro s' t; rw [State.wx_eq, if_neg (d_ne h), onThr_putThr]
    · intro k n F; exact ⟨Rec.Did.putX F (d_ne h) _ n, rfl⟩
    · intro x n M _; exact ⟨Rec.Did.putXS M (d_ne h) _ n, rfl⟩

theorem Rec.Did.trans {r r1 r2 : Rec} {n : Nat} {b : Bool} {d e : Nat} {v w : W32} (hde : d ≠ e)
    (h : Rec.Did r r1 n 0 b [(d, v)] [] []) (g : Rec.Did r1 r2 n 0 b [(e, w)] [] []) :
    Rec.Did r r2 n 0 b [(d, v), (e, w)] [] [] where
  zero := by
    have h0 := h.zero
    have g0 := g.zero
    rw [lookup_one] at h0 g0
    rw [lookup_two]
    split
    · simp_all
    · split <;> simp_all
  reg m := by
    rw [g.reg, h.reg, lookup_one, lookup_one, lookup_two]
    by_cases h1 : m = d
    · subst h1; simp [hde]
    · by_cases h2 : m = e <;> simp [h1, h2, Ne.symm hde]
  pred m hm := by rw [g.pred m hm, h.pred m hm]; rfl
  pc := g.pc.trans h.pc
  pends := by
    obtain ⟨l, e1, e2, -⟩ := h.pends
    obtain ⟨l', e1', e2', -⟩ := g.pends
    have : l = [] := by simpa using e2
    have : l' = [] := by simpa using e2'
    subst_vars
    exact ⟨[], by simp_all⟩
  lost hb := by
    rw [g.lost hb, h.lost hb, List.filter_filter]
    refine List.filter_congr fun m _ => ?_
    rw [lookup_one, lookup_one, lookup_two]
    by_cases h1 : m = d
    · subst h1; simp [hde]
    · by_cases h2 : m = e <;> simp [h1, h2, Ne.symm hde]
  cfault hb := by rw [g.cfault hb, h.cfault hb]; rfl
  cherr hb := by rw [g.cherr hb, h.cherr hb]; rfl

theorem State.wx_wx_eq (s : State) (t : Thr) {n : Nat} (h : n ≠ 0) (v w : W32) :
    (s.wx t n v).wx t (n + 1) w = s.onThr t (fun f => (f.putX n v).putX (n + 1) w) (fun m => (m.putX n v).putX (n + 1) w) := by
  rw [State.wx_eq, State.wx_eq, if_neg h, if_neg (by omega), State.onThr_onThr]; rfl

theorem State.aluXP_ran (s : State) (f : Fields) (len : Nat) (v : Thr → W64) :
    ∃ t, s.aluXP f len v = .next t ∧ s.Ran t f len (wrXP f v) wrNone wrNone := by
  by_cases h : f.d = 0
  · have e : wrXP f v = wrNone := by funext x; simp [wrXP, h, wrNone]
    rw [e]
    exact State.alu_same s f len _ fun s' t => by simp [State.wxp, d_eq h]
  · have e : wrXP f v = fun x => [(f.d.toNat, lo32 (v x)), (f.d.toNat + 1, hi32 (v x))] := by funext x; exact if_neg h
    rw [e]
    refine State.alu_ran s f len _ (fun x _ F => (F.putX f.d.toNat (lo32 (v x))).putX (f.d.toNat + 1) (hi32 (v x)))
      (fun x _ M => (M.putX f.d.toNat (lo32 (v x))).putX (f.d.toNat + 1) (hi32 (v x))) (fun _ => 0) _ wrNone wrNone ?_ ?_ ?_
    · intro s' t; unfold State.wxp; rw [if_neg (d_ne h), State.wx_wx_eq s' t (d_ne h), onThr_putThr]
    · intro k n F
      exact ⟨Rec.Did.trans (by omega) (Rec.Did.putX F (d_ne h) _ n) (Rec.Did.putX _ (by omega) _ n), rfl⟩
    · intro x n M _
      exact ⟨Rec.Did.trans (by omega) (Rec.Did.putXS M (d_ne h) _ n) (Rec.Did.putXS _ (by omega) _ n), rfl⟩

/-! ### Predicates -/

theorem setBit32_getLsbD (w : W32) (n m : Nat) (b : Bool) (hm : m < 32) :
    (setBit32 w n b).getLsbD m = if m = n then b else w.getLsbD m := by
  have hs : (1#32 <<< n).getLsbD m = decide (m = n) := by
    rw [BitVec.getLsbD_shiftLeft]
    by_cases h : m = n
    · subst h; simp [hm]
    · simp only [hm, decide_true, Bool.true_and, h, decide_false]
      by_cases h2 : m < n
      · simp [h2]
      · have : m - n ≠ 0 := by omega
        simp [this]
  unfold setBit32
  cases b
  · simp only [Bool.false_eq_true, if_false, BitVec.getLsbD_and, BitVec.getLsbD_not, hm, decide_true, Bool.true_and, hs]
    by_cases h : m = n <;> simp [h]
  · simp only [if_true, BitVec.getLsbD_or, hs]
    by_cases h : m = n <;> simp [h]

theorem Rec.Did.pw {r r' : Rec} {n : Nat} {b : Bool} {ps : List (Nat × Bool)}
    (h : ∀ m, m < 32 → r'.pw.getLsbD m = (ps.lookup m).getD (r.pw.getLsbD m)) (he : { r' with pw := r.pw } = r) :
    Rec.Did r r' n 0 b [] ps [] where
  zero := rfl
  reg m := by rw [← he]; rfl
  pred := h
  pc := by rw [← he]
  pends := ⟨[], by rw [← he]; simp⟩
  lost _ := by rw [← he]; exact (List.filter_eq_self.mpr fun _ _ => rfl).symm
  cfault _ := by rw [← he]; rfl
  cherr _ := by rw [← he]; rfl

theorem State.alu_pw (s : State) (f : Fields) (len : Nat) (g : Thr → State → State) (w : Thr → W32 → W32)
    (ps : Thr → List (Nat × Bool))
    (hg : ∀ s' t, g t s' = s'.onThr t (fun F => { F with pw := w t F.pw }) (fun M => { M with pw := w t M.pw }))
    (hw : ∀ x p m, m < 32 → (w x p).getLsbD m = ((ps x).lookup m).getD (p.getLsbD m)) :
    ∃ t, s.alu f len g = .next t ∧ s.Ran t f len wrNone ps wrNone := by
  refine State.alu_ran s f len _ (fun x _ F => { F with pw := w x F.pw }) (fun x _ M => { M with pw := w x M.pw })
    (fun _ => 0) _ _ _ ?_ ?_ ?_
  · intro s' t; rw [hg, onThr_putThr]
  · intro k n F; exact ⟨Rec.Did.pw (fun m hm => hw _ _ m hm) rfl, rfl⟩
  · intro x n M _; exact ⟨Rec.Did.pw (fun m hm => hw _ _ m hm) rfl, rfl⟩

theorem State.wp_eq (s : State) (t : Thr) (n : Nat) (b : Bool) :
    s.wp t n b = if n = 7 then s else s.onThr t (fun F => { F with pw := setBit32 F.pw n b })
      (fun M => { M with pw := setBit32 M.pw n b }) := by
  unfold State.wp
  split
  · rfl
  · cases t <;> rfl

theorem State.aluP_ran (s : State) (f : Fields) (len : Nat) (v : Thr → Bool) :
    ∃ t, s.aluP f len v = .next t ∧ s.Ran t f len wrNone (wrP f v) wrNone := by
  by_cases h : f.d = 7
  · have e : wrP f v = wrNone := by funext x; simp [wrP, h, wrNone]
    rw [e]
    exact State.alu_same s f len _ fun s' t => by simp [State.wp, h]
  · have h' : f.d.toNat ≠ 7 := fun e => h (BitVec.eq_of_toNat_eq (by simpa using e))
    have e : wrP f v = fun x => [(f.d.toNat, v x)] := by funext x; exact if_neg h
    rw [e]
    refine State.alu_pw s f len _ (fun x p => setBit32 p f.d.toNat (v x)) _ ?_ ?_
    · intro s' t; rw [State.wp_eq, if_neg h']
    · intro x p m hm
      rw [setBit32_getLsbD _ _ _ _ hm]
      rw [lookup_one]; split <;> rfl

/-! ### Results on their way -/

theorem Rec.Did.onWay {r r' : Rec} {n : Nat} {b : Bool} (p : Pend) (hp : p.id = n) (h : r'.pend = r.pend ++ [p])
    (he : { r' with pend := r.pend } = r) : Rec.Did r r' n 1 b [] [] [p.what] where
  zero := rfl
  reg m := by rw [← he]; rfl
  pred m _ := by rw [← he]; rfl
  pc := by rw [← he]
  pends := ⟨[p], h, rfl, by simp [hp]⟩
  lost _ := by rw [← he]; exact (List.filter_eq_self.mpr fun _ _ => rfl).symm
  cfault _ := by rw [← he]; rfl
  cherr _ := by rw [← he]; rfl

theorem State.pend_eq (s : State) (t : Thr) (d : Nat) (hd : d ≠ 0) (v : W32) :
    s.pend t [d] [v] [] [] true = s.putThr t (fun n F => { F with pend := F.pend ++ [⟨n, [d], [v], [], [], true⟩] })
      (fun n M => { M with pend := M.pend ++ [⟨n, [d], [v], [], [], true⟩] }) 1 := by
  cases t <;>
    simp [State.pend, State.pendFib, hd, State.putThr, State.onThr, State.setFib, State.setMseq, State.setCop,
      State.updFib, State.updSeq, State.setSeq, State.seq]

theorem State.varX_ran (s : State) (f : Fields) (len : Nat) (v : Thr → W32) :
    ∃ t, s.varX f len v = .next t ∧ s.Ran t f len wrNone wrNone (onWayX f v) := by
  by_cases h : f.d = 0
  · have e : onWayX f v = wrNone := by funext x; simp [onWayX, h, wrNone]
    rw [e]
    refine State.alu_same s f len _ fun s' t => ?_
    cases t <;> simp [State.arriveX, State.pend, State.pendFib, d_eq h]
  · have e : onWayX f v = fun x => [([(f.d.toNat, v x)], [], true)] := by funext x; exact if_neg h
    rw [e]
    refine State.alu_ran s f len _ (fun x n F => { F with pend := F.pend ++ [⟨n, [f.d.toNat], [v x], [], [], true⟩] })
      (fun x n M => { M with pend := M.pend ++ [⟨n, [f.d.toNat], [v x], [], [], true⟩] }) (fun _ => 1) _ _ _ ?_ ?_ ?_
    · intro s' t; exact State.pend_eq s' t _ (d_ne h) _
    · intro k n F; exact ⟨Rec.Did.onWay ⟨n, [f.d.toNat], [v _], [], [], true⟩ rfl rfl rfl, rfl⟩
    · intro x n M _; exact ⟨Rec.Did.onWay ⟨n, [f.d.toNat], [v _], [], [], true⟩ rfl rfl rfl, rfl⟩

theorem State.focus_band {s : State} {b : Nat} (h : s.focus = .band b) {x : Thr} (hx : x ∈ s.threads) :
    ∃ k, x = .fib k := by
  simp only [State.threads, h, List.mem_map] at hx
  obtain ⟨l, -, e⟩ := hx
  exact ⟨_, e.symm⟩

/-- An instruction of the vector cores whose results, registers or predicates, are on their way. -/
theorem State.alu_pend (s : State) (f : Fields) (len : Nat) (g : Thr → State → State) (what : Thr → Option Pend) {b : Nat}
    (hb : s.focus = .band b)
    (hg : ∀ k s', Thr.fib k ∈ s.threads → g (.fib k) s' = match what (.fib k) with
      | none => s'
      | some p => { s'.setFib k { s'.fib k with pend := (s'.fib k).pend ++ [{ p with id := s'.nextId }] } with
          nextId := s'.nextId + 1 }) :
    ∃ t, s.alu f len g = .next t ∧ s.Ran t f len wrNone wrNone fun x => (what x).toList.map Pend.what := by
  have key : s.alu f len g = s.alu f len fun t s' => s'.putThr t
      (fun n F => match what t with
        | none => F
        | some p => { F with pend := F.pend ++ [{ p with id := n }] })
      (fun n M => match what t with
        | none => M
        | some p => { M with pend := M.pend ++ [{ p with id := n }] }) (if (what t).isSome then 1 else 0) := by
    unfold State.alu State.forActive
    refine congrArg (fun x => Host.Outcome.next (State.settle x)) ?_
    have hfib : ∀ x ∈ s.active f, ∃ k, x = .fib k ∧ x ∈ s.threads := fun x hx =>
      have h1 := (State.mem_active.mp hx).1
      (State.focus_band hb h1).imp fun k e => ⟨e, h1⟩
    generalize s.active f = l at hfib
    generalize List.foldl _ s (s.threads.filter fun t => !s.guard f t) = s1
    clear hb
    induction l generalizing s1 with
    | nil => rfl
    | cons x l ih =>
      obtain ⟨k, e, hx⟩ := hfib x (List.mem_cons_self ..)
      subst e
      rw [List.foldl_cons, List.foldl_cons, hg _ _ hx, ih fun y hy => hfib y (List.mem_cons_of_mem _ hy)]
      congr 1
      cases hw : what (.fib k)
      · simp only [hw, State.adv, State.setPc, State.pcOf, State.putThr, State.onThr, State.setFib, State.updFib, State.fib,
          Map.put_put, Map.getD_put_self]
        rfl
      · simp only [hw, State.adv, State.setPc, State.pcOf, State.putThr, State.onThr, State.setFib, State.updFib, State.fib,
          Map.put_put, Map.getD_put_self]
        rfl
  rw [key]
  refine State.alu_ran s f len _ (fun x n F => match what x with
        | none => F
        | some p => { F with pend := F.pend ++ [{ p with id := n }] }) (fun x n M => match what x with
        | none => M
        | some p => { M with pend := M.pend ++ [{ p with id := n }] }) (fun x => if (what x).isSome then 1 else 0) _ _ _
        (fun _ _ => rfl) ?_ ?_
  · intro k n F
    cases what (.fib k) with
    | none => exact ⟨Rec.Did.refl _ _ _, rfl⟩
    | some p => exact ⟨Rec.Did.onWay { p with id := n } rfl rfl rfl, rfl⟩
  · intro x n M _
    cases what x with
    | none => exact ⟨Rec.Did.refl _ _ _, rfl⟩
    | some p => exact ⟨Rec.Did.onWay { p with id := n } rfl rfl rfl, rfl⟩

theorem State.varP_ran (s : State) (f : Fields) (len : Nat) (v : Thr → Bool) {b : Nat} (hb : s.focus = .band b) :
    ∃ t, s.varP f len v = .next t ∧ s.Ran t f len wrNone wrNone (onWayP f v) := by
  have := State.alu_pend s f len (fun t s' => s'.arriveP t f.d.toNat (v t))
    (fun x => if f.d = 7 then none else some ⟨0, [], [], [f.d.toNat], [v x], true⟩) hb ?_
  · obtain ⟨t, h1, h2⟩ := this
    refine ⟨t, h1, ?_⟩
    have e : (fun x => ((if f.d = 7 then none else some (⟨0, [], [], [f.d.toNat], [v x], true⟩ : Pend)).toList.map Pend.what))
        = onWayP f v := by
      funext x; unfold onWayP; split <;> rfl
    rwa [e] at h2
  · intro k s' _
    by_cases h : f.d = 7
    · simp [State.arriveP, State.pend, State.pendFib, h]
    · have h' : f.d.toNat ≠ 7 := fun e => h (BitVec.eq_of_toNat_eq (by simpa using e))
      rw [if_neg h]
      simp [State.arriveP, State.pend, State.pendFib, h']

theorem Rec.Did.addPw {r r1 r2 : Rec} {n : Nat} {b : Bool} {l : List (Nat × W32)} {ps : List (Nat × Bool)}
    (h : Rec.Did r r1 n 0 b l [] []) (g : Rec.Did r1 r2 n 0 b [] ps []) : Rec.Did r r2 n 0 b l ps [] where
  zero := h.zero
  reg m := by rw [g.reg, h.reg]; rfl
  pred m hm := by rw [g.pred m hm, h.pred m hm]; rfl
  pc := g.pc.trans h.pc
  pends := by
    obtain ⟨l, e1, e2, -⟩ := h.pends
    obtain ⟨l', e1', e2', -⟩ := g.pends
    have : l = [] := by simpa using e2
    have : l' = [] := by simpa using e2'
    subst_vars
    exact ⟨[], by simp_all⟩
  lost hb := by rw [g.lost hb, h.lost hb]; exact List.filter_eq_self.mpr fun _ _ => rfl
  cfault hb := by rw [g.cfault hb, h.cfault hb]; rfl
  cherr hb := by rw [g.cherr hb, h.cherr hb]; rfl

theorem Rec.Did.regOf (F : Fibre) (d : Nat) (v : W32) (n : Nat) :
    Rec.Did F.rec' (if d = 0 then F else F.putX d v).rec' n 0 true (if d = 0 then [] else [(d, v)]) [] [] := by
  split
  · exact Rec.Did.refl _ _ _
  · exact Rec.Did.putX F ‹_› v n

theorem Rec.Did.regOfS (M : Seq) (d : Nat) (v : W32) (n : Nat) :
    Rec.Did M.rec' (if d = 0 then M else M.putX d v).rec' n 0 false (if d = 0 then [] else [(d, v)]) [] [] := by
  split
  · exact Rec.Did.refl _ _ _
  · exact Rec.Did.putXS M ‹_› v n

theorem d_zero_iff {f : Fields} : f.d.toNat = 0 ↔ f.d = 0 := ⟨fun e => BitVec.eq_of_toNat_eq (by simpa using e), d_eq⟩

end Sys2Proof.Machine
end

