-- ==== Sys2Proof/Laws/Finish.lean ====
section
/-! SUPPORT. What ends an instruction whose lanes all go on: every thread of the batch moves past it. -/

namespace Sys2Proof.Machine

-- One proof at a time: a kernel evaluation in each of many threads would exhaust the memory.
set_option Elab.async false

/-- An active lane that goes on. -/
def passLane (len : Nat) (closes : Bool) (s : State) (x : Thr) : State :=
  if closes then (s.adv x len).closeRegion x else s.adv x len

theorem State.adv_eq (s : State) (t : Thr) (len : Nat) :
    s.adv t len = s.onThr t (fun f => { f with pc := seqPc f.pc len }) (fun m => { m with pc := seqPc m.pc len }) := by
  cases t <;> rfl

theorem passLane_eq (len : Nat) (closes : Bool) (s : State) (x : Thr) : passLane len closes s x = s.onThr x
    (fun f => if closes then { f with pc := seqPc f.pc len, region := f.region + 1, rentry := seqPc f.pc len }
      else { f with pc := seqPc f.pc len })
    (fun m => { m with pc := seqPc m.pc len }) := by
  unfold passLane
  cases closes
  · simp [State.adv_eq]
  · cases x <;> simp [State.adv_eq, State.closeRegion, State.onThr, State.updFib, State.setFib, State.fib,
      Map.getD_put_self, Map.put_put]

theorem finish_ok (u : State) (len : Nat) (off : List Thr) (closes : Bool) (act : List Thr) :
    finish u len off closes (act.map fun t => (t, .ok)) =
      (act.foldl (passLane len closes) (off.foldl (fun s t => s.adv t len) u)).settle := by
  unfold finish
  simp only [List.foldl_map]
  rfl

theorem State.mem_idle {s : State} {f : Fields} {x : Thr} : x ∈ s.idle f ↔ x ∈ s.threads ∧ s.guard f x = false := by
  simp [State.idle, List.mem_filter]

theorem State.mem_active' {s : State} {f : Fields} {x : Thr} : x ∈ s.active f ↔ x ∈ s.threads ∧ s.guard f x = true :=
  List.mem_filter

/-- The whole of it: nothing is asked of the state `u` with the instruction's own effect. -/
theorem finish_past (s u : State) (f : Fields) (len : Nat) (closes : Bool) :
    s.Past u (finish u len (s.idle f) closes ((s.active f).map fun t => (t, .ok))) f len closes := by
  rw [finish_ok]
  have hoff : (s.idle f).foldl (fun s t => s.adv t len) u = (s.idle f).foldl (fun s t => s.onThr t
      (fun f => { f with pc := seqPc f.pc len }) (fun m => { m with pc := seqPc m.pc len })) u := by
    congr 1; funext s t; exact State.adv_eq ..
  rw [hoff]
  obtain ⟨f1, m1, c1, e1⟩ := foldl_onThr (s.idle f) (s.idle_nodup f)
    (fun _ f => { f with pc := seqPc f.pc len }) (fun _ m => { m with pc := seqPc m.pc len }) u
  revert f1 m1 c1 e1
  generalize List.foldl _ u (s.idle f) = s1
  intro f1 m1 c1 e1
  have hact : passLane len closes = fun s x => s.onThr x
    ((fun _ f => if closes then { f with pc := seqPc f.pc len, region := f.region + 1, rentry := seqPc f.pc len }
      else { f with pc := seqPc f.pc len }) x) ((fun _ m => { m with pc := seqPc m.pc len }) x) := by
    funext s x; exact passLane_eq ..
  rw [hact]
  obtain ⟨f2, m2, c2, e2⟩ := foldl_onThr (s.active f) (s.active_nodup f)
    (fun _ f => if closes then { f with pc := seqPc f.pc len, region := f.region + 1, rentry := seqPc f.pc len }
      else { f with pc := seqPc f.pc len }) (fun _ m => { m with pc := seqPc m.pc len }) s1
  revert f2 m2 c2 e2
  generalize List.foldl _ s1 (s.active f) = s2
  intro f2 m2 c2 e2
  have hset := State.settle_eqBut s2
  have key : ∀ x, (x ∈ s.active f → x ∉ s.idle f ∧ x ∈ s.threads) ∧ (x ∉ s.active f → (x ∈ s.idle f ↔ x ∈ s.threads)) := by
    intro x
    rw [State.mem_active', State.mem_idle]
    cases s.guard f x <;> simp
  have hfib : ∀ k, s2.settle.fib k = if .fib k ∈ s.active f then
      (if closes then { u.fib k with pc := seqPc (u.fib k).pc len, region := (u.fib k).region + 1,
                                     rentry := seqPc (u.fib k).pc len }
       else { u.fib k with pc := seqPc (u.fib k).pc len })
      else if .fib k ∈ s.threads then { u.fib k with pc := seqPc (u.fib k).pc len } else u.fib k := by
    intro k
    rw [hset.fib, f2 k, f1 k]
    obtain ⟨k1, k2⟩ := key (.fib k)
    by_cases h : .fib k ∈ s.active f
    · simp [h, (k1 h).1]
    · simp only [h, if_false, k2 h]
  have hmat : ∀ k, s2.settle.mseq k = if .mat k ∈ s.threads then { u.mseq k with pc := seqPc (u.mseq k).pc len }
      else u.mseq k := by
    intro k
    rw [hset.mseq, m2 k, m1 k]
    obtain ⟨k1, k2⟩ := key (.mat k)
    by_cases h : .mat k ∈ s.active f
    · simp [h, (k1 h).1, (k1 h).2]
    · simp only [h, if_false, k2 h]
  have hcop : ∀ k, s2.settle.cop k = if .cop k ∈ s.threads then { u.cop k with pc := seqPc (u.cop k).pc len }
      else u.cop k := by
    intro k
    rw [hset.cop, c2 k, c1 k]
    obtain ⟨k1, k2⟩ := key (.cop k)
    by_cases h : .cop k ∈ s.active f
    · simp [h, (k1 h).1, (k1 h).2]
    · simp only [h, if_false, k2 h]
  constructor
  · intro x
    cases x with
    | fib k =>
      show (s2.settle.fib k).pc = _
      rw [hfib k]
      by_cases h : .fib k ∈ s.active f
      · simp only [h, if_true, ((key _).1 h).2]; cases closes <;> rfl
      · simp only [h, if_false]; split <;> rfl
    | mat k => show (s2.settle.mseq k).pc = _; rw [hmat k]; split <;> rfl
    | cop k => show (s2.settle.cop k).pc = _; rw [hcop k]; split <;> rfl
  · intro k
    rw [hfib k]
    by_cases h : .fib k ∈ s.active f
    · cases closes <;> simp [h]
    · simp only [h, if_false, and_false]; split <;> rfl
  · intro k
    rw [hfib k]
    by_cases h : .fib k ∈ s.active f
    · cases closes <;> simp [h]
    · simp only [h, if_false, and_false]; split <;> rfl
  · intro k
    rw [hfib k]
    by_cases h : .fib k ∈ s.active f
    · cases closes <;> simp [h]
    · simp only [h, if_false]; split <;> rfl
  · intro k; rw [hmat k]; split <;> rfl
  · intro k; rw [hcop k]; split <;> rfl
  · intro b
    have h1 : s1.band b = u.band b := by
      have := congrArg (fun x => State.band x b) e1; exact this
    have h2 : s2.band b = s1.band b := by
      have := congrArg (fun x => State.band x b) e2; exact this
    rw [hset.2 b, h2, h1]
  · have h3 := hset.1
    have h4 := e1.trans e2
    revert h3 h4
    generalize s2.settle = s3
    intro h3 h4
    cases u; cases s2; cases s3
    simp only [State.EqButThr, State.mk.injEq] at *
    grind

end Sys2Proof.Machine
end

