-- ==== Sys2Proof/Laws/Memory.lean ====
section
/-! SUPPORT. Laws of memory: reading after writing, and the canonical form, which every operation that writes memory, a
gang's local store or its accumulator keeps. -/

namespace Sys2Proof.Machine

-- One proof at a time: a kernel evaluation in each of many threads would exhaust the memory.
set_option Elab.async false

/-! ### Cells -/

variable {α : Type}

theorem Map.mem_of_get {m : Map α} {k : Nat} {v : α} (h : Map.get m k = some v) : (k, v) ∈ m := by
  induction m with
  | nil => simp at h
  | cons p m ih =>
    obtain ⟨j, w⟩ := p
    simp only [Map.get] at h
    split at h
    · subst_vars; simp_all
    · exact List.mem_cons_of_mem _ (ih h)

theorem Map.mem_put {m : Map α} {k : Nat} {v : α} {p : Nat × α} (h : p ∈ Map.put m k v) : p = (k, v) ∨ p ∈ m := by
  induction m with
  | nil => simp_all [Map.put]
  | cons q m ih =>
    obtain ⟨j, w⟩ := q
    unfold Map.put at h
    split at h
    · simpa using h
    · split at h
      · rcases List.mem_cons.1 h with h | h <;> simp [h]
      · rcases List.mem_cons.1 h with h | h
        · simp [h]
        · rcases ih h with h | h <;> simp [h]

theorem Map.mem_del {m : Map α} {k : Nat} {p : Nat × α} (h : p ∈ Map.del m k) : p ∈ m := by
  induction m with
  | nil => simp [Map.del] at h
  | cons q m ih =>
    obtain ⟨j, w⟩ := q
    unfold Map.del at h
    split at h
    · exact List.mem_cons_of_mem _ h
    · rcases List.mem_cons.1 h with h | h
      · simp [h]
      · exact List.mem_cons_of_mem _ (ih h)

theorem Map.wfFrom_filter {m : Map α} {a : Nat} (q : Nat × α → Bool) (w : Map.wfFrom a m = true) :
    Map.wfFrom a (m.filter q) = true := by
  induction m generalizing a with
  | nil => rfl
  | cons p m ih =>
    obtain ⟨j, v⟩ := p
    simp only [Map.wfFrom, Bool.and_eq_true, decide_eq_true_eq] at w
    rw [List.filter_cons]
    split
    · simp only [Map.wfFrom, Bool.and_eq_true, decide_eq_true_eq]; exact ⟨w.1, ih w.2⟩
    · exact Map.wfFrom_mono (by omega) (ih w.2)

/-- A byte written reads back, also the byte that unlisted addresses read as. -/
theorem readCell_writeCell (m : List Host.Cell) (w : Memory.wf m = true) (a b : Nat) (v : Byte) :
    readCell (writeCell m a v) b = if b = a then v else readCell m b := by
  have w' : Map.wf m = true := by simp only [Memory.wf, Bool.and_eq_true] at w; exact w.1
  unfold readCell writeCell
  split
  · next h =>
    split
    · next e => subst e; simp [Map.getD, Map.get_del_self (a := 0) w', h]
    · next e => simp [Map.getD, Map.get_del_of_ne m e]
  · rw [Map.getD_put]

theorem Memory.wf_nil : Memory.wf [] = true := rfl

theorem Memory.wf_writeCell {m : List Host.Cell} (w : Memory.wf m = true) (a : Nat) (v : Byte) :
    Memory.wf (writeCell m a v) = true := by
  simp only [Memory.wf, Bool.and_eq_true, List.all_eq_true, decide_eq_true_eq] at w ⊢
  unfold writeCell
  split
  · exact ⟨Map.wf_del a w.1, fun p hp => w.2 p (Map.mem_del hp)⟩
  · next h =>
    refine ⟨Map.wf_put a v w.1, fun p hp => ?_⟩
    rcases Map.mem_put hp with rfl | hp
    · exact h
    · exact w.2 p hp

theorem Memory.wf_filter {m : List Host.Cell} (w : Memory.wf m = true) (q : Host.Cell → Bool) :
    Memory.wf (m.filter q) = true := by
  simp only [Memory.wf, Bool.and_eq_true, List.all_eq_true, decide_eq_true_eq] at w ⊢
  exact ⟨Map.wfFrom_filter q w.1, fun p hp => w.2 p (List.mem_filter.1 hp).1⟩

theorem Memory.wf_writeCells {m : List Host.Cell} (w : Memory.wf m = true) (a v n : Nat) :
    Memory.wf (writeCells m a v n) = true := by
  induction n generalizing m a v with
  | zero => exact w
  | succ n ih => exact ih (Memory.wf_writeCell w a _) _ _

theorem Memory.wf_putLine {m : List Host.Cell} (w : Memory.wf m = true) (ln : Nat) (l : Line) :
    Memory.wf (putLine m ln l) = true := Memory.wf_writeCells w _ _ _

/-- The bytes written read back, the lowest address holding the lowest byte; every other byte reads as before. -/
theorem readCell_writeCells (m : List Host.Cell) (w : Memory.wf m = true) (a v n b : Nat) :
    readCell (writeCells m a v n) b =
      if a ≤ b ∧ b < a + n then BitVec.ofNat 8 (v / 256 ^ (b - a)) else readCell m b := by
  induction n generalizing m a v with
  | zero => rw [if_neg (by omega)]; rfl
  | succ n ih =>
    rw [writeCells, ih _ (Memory.wf_writeCell w a _), readCell_writeCell m w]
    by_cases h1 : b = a
    · subst h1; rw [if_neg (by omega), if_pos rfl, if_pos (by omega)]; simp
    · rw [if_neg h1]
      by_cases h2 : a ≤ b ∧ b < a + (n + 1)
      · rw [if_pos (by omega), if_pos h2, Nat.div_div_eq_div_mul]
        have e : b - a = (b - (a + 1)) + 1 := by omega
        rw [e, Nat.pow_succ, Nat.mul_comm 256]
      · rw [if_neg (by omega), if_neg h2]

/-! ### The state's memories -/

theorem State.memWf_reset : State.reset.memWf := by
  refine ⟨rfl, ?_, ?_⟩ <;> intro p hp <;> cases hp

/-- A local store, also one not listed, is canonical. -/
theorem State.memWf.csm {s : State} (h : s.memWf) (g : Nat) : Memory.wf (s.csm g).bytes = true := by
  unfold State.csm Map.getD
  cases e : Map.get s.csms g with
  | none => rfl
  | some c => exact h.2.1 _ (Map.mem_of_get e)

theorem State.memWf.acc {s : State} (h : s.memWf) (g : Nat) : Map.wf (s.gang g).acc = true := by
  unfold State.gang Map.getD
  cases e : Map.get s.gangs g with
  | none => rfl
  | some c => exact h.2.2 _ (Map.mem_of_get e)

theorem State.memWf.updMem {s : State} (h : s.memWf) (g : MemSt → MemSt) (hg : Memory.wf (g s.mem).cells = true) :
    (s.updMem g).memWf := ⟨hg, h.2⟩

theorem State.memWf.setCsm {s : State} (h : s.memWf) (g : Nat) {c : Casement} (hc : Memory.wf c.bytes = true) :
    (s.setCsm g c).memWf := by
  refine ⟨h.1, fun p hp => ?_, h.2.2⟩
  rcases Map.mem_put hp with rfl | hp
  · exact hc
  · exact h.2.1 p hp

theorem State.memWf.updCsm {s : State} (h : s.memWf) (g : Nat) (f : Casement → Casement)
    (hf : Memory.wf (f (s.csm g)).bytes = true) : (s.updCsm g f).memWf := h.setCsm g hf

theorem State.memWf.setGang {s : State} (h : s.memWf) (g : Nat) {c : Gang} (hc : Map.wf c.acc = true) :
    (s.setGang g c).memWf := by
  refine ⟨h.1, h.2.1, fun p hp => ?_⟩
  rcases Map.mem_put hp with rfl | hp
  · exact hc
  · exact h.2.2 p hp

theorem State.memWf.updGang {s : State} (h : s.memWf) (g : Nat) (f : Gang → Gang)
    (hf : Map.wf (f (s.gang g)).acc = true) : (s.updGang g f).memWf := h.setGang g hf

/-- A raw write of a line keeps the form. -/
theorem wf_putRaw (s : State) {m : MemSt} (h : Memory.wf m.cells = true) (la : Nat) (l : Line) :
    Memory.wf (putRaw s m la l).cells = true := by
  unfold putRaw
  split
  · exact Memory.wf_putLine h _ _
  · split
    · exact h
    · exact Memory.wf_putLine h _ _

/-- A write of a line by the memory controller (R366 to R368), the side array's byte with it, keeps the form. -/
theorem State.memWf.memWrite {s : State} (h : s.memWf) (ln key cmps : Nat) (l : Line) :
    (Machine.memWrite s ln key cmps l).memWf := by
  refine ⟨?_, h.2⟩
  unfold Machine.memWrite
  dsimp only [State.setMem]
  split
  · exact wf_putRaw s (Memory.wf_putLine h.1 _ _) _ _
  · exact Memory.wf_putLine h.1 _ _

theorem State.memWf.setSector {s : State} (h : s.memWf) (g sl k : Nat) (x : Sector) : (s.setSector g sl k x).memWf := by
  unfold State.setSector
  exact h.updCsm g _ (h.csm g)

theorem State.memWf.queueMsg {s : State} (h : s.memWf) (m : OwnMsg) : (Machine.queueMsg s m).memWf :=
  h.updMem _ h.1

/-- A store into a local store, through a casement or not, keeps the form. -/
theorem State.memWf.csmPut {s : State} (h : s.memWf) (fib gang o n v : Nat) (sec : Option (Nat × Nat)) :
    (Machine.csmPut s fib gang o n v sec).memWf := by
  have h1 := h.updCsm gang (fun c => { c with
    bytes := writeCells c.bytes o v n, bad := if n = 16 then Map.del c.bad (o / 16) else c.bad })
    (Memory.wf_writeCells (h.csm gang) o v n)
  unfold Machine.csmPut
  revert h1
  generalize s.updCsm gang (fun c => { c with
    bytes := writeCells c.bytes o v n, bad := if n = 16 then Map.del c.bad (o / 16) else c.bad }) = u
  intro h1
  cases sec with
  | none => exact h1
  | some p =>
    have h2 := fun x => h1.setSector gang p.1 p.2 x
    dsimp only
    split
    · exact (h2 _).queueMsg _
    · split
      · exact (h2 _).queueMsg _
      · exact h2 _

theorem State.memWf.putSector {s : State} (h : s.memWf) (g sl k : Nat) (m : ByteMask) (l : Line) :
    (Machine.putSector s g sl k m l).memWf := by
  unfold Machine.putSector
  split
  · refine h.updCsm g _ ?_
    suffices ∀ (r : List Nat) (b : List Host.Cell), Memory.wf b = true →
        Memory.wf (r.foldl (fun b i => if m.getLsbD i then writeCell b (64 * (_ + k) + i) (l.extractLsb' (8 * i) 8)
          else b) b) = true from this _ _ (h.csm g)
    intro r
    induction r with
    | nil => exact fun b hb => hb
    | cons i r ih =>
      intro b hb
      refine ih _ ?_
      dsimp only
      split
      · exact Memory.wf_writeCell hb _ _
      · exact hb
  · exact h

theorem State.memWf.accPut {s : State} (h : s.memWf) (g row col : Nat) (v : W32) :
    (Machine.accPut s g row col v).memWf := by
  refine h.updGang g _ ?_
  show Map.wf (if v = 0 then _ else _) = true
  split
  · exact Map.wf_del _ (h.acc g)
  · exact Map.wf_put _ _ (h.acc g)

/-- The power-on clearing of a die's memory keeps the form. -/
theorem State.memWf.updCells {s : State} (h : s.memWf) (q : Host.Cell → Bool) :
    (s.updMem fun m => { m with cells := m.cells.filter q }).memWf := h.updMem _ (Memory.wf_filter h.1 q)

end Sys2Proof.Machine
end

