-- ==== Sys2Proof/Laws/PerInstr.lean ====
section
/-! SUPPORT. One law per instruction: what its encoded parts are, as the encoder and the decoder need it. -/

namespace Sys2Proof.Laws

-- One proof at a time: a kernel evaluation in each of many threads would exhaust the memory.
set_option Elab.async false

open Sys2Proof Machine

/-- The opcode of an encoded instruction has eight bits, its length code is 0 to 2 (R33), and it has an imm32 only in the
96-bit form and an extension word only in the 128-bit form (R36, R40). An event has no encoding. -/
def Encodable.Statement (i : Instr) : Prop :=
  ∀ p, partsOf i = some p → p.op < 256 ∧ p.len < 3 ∧ (p.len ≠ 1 → p.imm = 0) ∧ (p.len ≠ 2 → p.ext = noExt)

theorem encodable_of_none {i : Instr} (h : partsOf i = none) : Encodable.Statement i := by
  intro p hp; rw [h] at hp; cases hp

theorem encodable_of_64 {i : Instr} {op : Nat} {f : Fields} (hop : op < 256)
    (h : partsOf i = some ⟨op, 0, f, 0, noExt⟩) : Encodable.Statement i := by
  intro p hp; rw [h] at hp; cases hp; exact ⟨hop, by simp, fun _ => rfl, fun _ => rfl⟩

theorem encodable_of_96 {i : Instr} {op : Nat} {f : Fields} {imm : BitVec 32} (hop : op < 256)
    (h : partsOf i = some ⟨op, 1, f, imm, noExt⟩) : Encodable.Statement i := by
  intro p hp; rw [h] at hp; cases hp; exact ⟨hop, by simp, fun c => absurd rfl c, fun _ => rfl⟩

theorem encodable_of_128 {i : Instr} {op : Nat} {f : Fields} {ext : Ext} (hop : op < 256)
    (h : partsOf i = some ⟨op, 2, f, 0, ext⟩) : Encodable.Statement i := by
  intro p hp; rw [h] at hp; cases hp; exact ⟨hop, by simp, fun _ => rfl, fun c => absurd rfl c⟩

theorem Encodable.nop (f : Fields) : Encodable.Statement (.nop f) := encodable_of_64 (by decide) rfl
theorem Encodable.nop96 (f : Fields) (imm : BitVec 32) : Encodable.Statement (.nop96 f imm) := encodable_of_96 (by decide) rfl
theorem Encodable.nop128 (f : Fields) (ext : Ext) : Encodable.Statement (.nop128 f ext) := encodable_of_128 (by decide) rfl
theorem Encodable.add (f : Fields) : Encodable.Statement (.add f) := encodable_of_64 (by decide) rfl
theorem Encodable.add96 (f : Fields) (imm : BitVec 32) : Encodable.Statement (.add96 f imm) := encodable_of_96 (by decide) rfl
theorem Encodable.sub (f : Fields) : Encodable.Statement (.sub f) := encodable_of_64 (by decide) rfl
theorem Encodable.sub96 (f : Fields) (imm : BitVec 32) : Encodable.Statement (.sub96 f imm) := encodable_of_96 (by decide) rfl
theorem Encodable.mul (f : Fields) : Encodable.Statement (.mul f) := encodable_of_64 (by decide) rfl
theorem Encodable.mul96 (f : Fields) (imm : BitVec 32) : Encodable.Statement (.mul96 f imm) := encodable_of_96 (by decide) rfl
theorem Encodable.mulh (f : Fields) : Encodable.Statement (.mulh f) := encodable_of_64 (by decide) rfl
theorem Encodable.mulh96 (f : Fields) (imm : BitVec 32) : Encodable.Statement (.mulh96 f imm) := encodable_of_96 (by decide) rfl
theorem Encodable.mad (f : Fields) : Encodable.Statement (.mad f) := encodable_of_64 (by decide) rfl
theorem Encodable.mad96 (f : Fields) (imm : BitVec 32) : Encodable.Statement (.mad96 f imm) := encodable_of_96 (by decide) rfl
theorem Encodable.madw (f : Fields) : Encodable.Statement (.madw f) := encodable_of_64 (by decide) rfl
theorem Encodable.madw96 (f : Fields) (imm : BitVec 32) : Encodable.Statement (.madw96 f imm) := encodable_of_96 (by decide) rfl
theorem Encodable.div (f : Fields) : Encodable.Statement (.div f) := encodable_of_64 (by decide) rfl
theorem Encodable.div96 (f : Fields) (imm : BitVec 32) : Encodable.Statement (.div96 f imm) := encodable_of_96 (by decide) rfl
theorem Encodable.rem (f : Fields) : Encodable.Statement (.rem f) := encodable_of_64 (by decide) rfl
theorem Encodable.rem96 (f : Fields) (imm : BitVec 32) : Encodable.Statement (.rem96 f imm) := encodable_of_96 (by decide) rfl
theorem Encodable.min (f : Fields) : Encodable.Statement (.min f) := encodable_of_64 (by decide) rfl
theorem Encodable.min96 (f : Fields) (imm : BitVec 32) : Encodable.Statement (.min96 f imm) := encodable_of_96 (by decide) rfl
theorem Encodable.max (f : Fields) : Encodable.Statement (.max f) := encodable_of_64 (by decide) rfl
theorem Encodable.max96 (f : Fields) (imm : BitVec 32) : Encodable.Statement (.max96 f imm) := encodable_of_96 (by decide) rfl
theorem Encodable.abs (f : Fields) : Encodable.Statement (.abs f) := encodable_of_64 (by decide) rfl
theorem Encodable.and (f : Fields) : Encodable.Statement (.and f) := encodable_of_64 (by decide) rfl
theorem Encodable.and96 (f : Fields) (imm : BitVec 32) : Encodable.Statement (.and96 f imm) := encodable_of_96 (by decide) rfl
theorem Encodable.or (f : Fields) : Encodable.Statement (.or f) := encodable_of_64 (by decide) rfl
theorem Encodable.or96 (f : Fields) (imm : BitVec 32) : Encodable.Statement (.or96 f imm) := encodable_of_96 (by decide) rfl
theorem Encodable.xor (f : Fields) : Encodable.Statement (.xor f) := encodable_of_64 (by decide) rfl
theorem Encodable.xor96 (f : Fields) (imm : BitVec 32) : Encodable.Statement (.xor96 f imm) := encodable_of_96 (by decide) rfl
theorem Encodable.andn (f : Fields) : Encodable.Statement (.andn f) := encodable_of_64 (by decide) rfl
theorem Encodable.andn96 (f : Fields) (imm : BitVec 32) : Encodable.Statement (.andn96 f imm) := encodable_of_96 (by decide) rfl
theorem Encodable.shl (f : Fields) : Encodable.Statement (.shl f) := encodable_of_64 (by decide) rfl
theorem Encodable.shl96 (f : Fields) (imm : BitVec 32) : Encodable.Statement (.shl96 f imm) := encodable_of_96 (by decide) rfl
theorem Encodable.shr (f : Fields) : Encodable.Statement (.shr f) := encodable_of_64 (by decide) rfl
theorem Encodable.shr96 (f : Fields) (imm : BitVec 32) : Encodable.Statement (.shr96 f imm) := encodable_of_96 (by decide) rfl
theorem Encodable.sar (f : Fields) : Encodable.Statement (.sar f) := encodable_of_64 (by decide) rfl
theorem Encodable.sar96 (f : Fields) (imm : BitVec 32) : Encodable.Statement (.sar96 f imm) := encodable_of_96 (by decide) rfl
theorem Encodable.rot (f : Fields) : Encodable.Statement (.rot f) := encodable_of_64 (by decide) rfl
theorem Encodable.rot96 (f : Fields) (imm : BitVec 32) : Encodable.Statement (.rot96 f imm) := encodable_of_96 (by decide) rfl
theorem Encodable.clz (f : Fields) : Encodable.Statement (.clz f) := encodable_of_64 (by decide) rfl
theorem Encodable.popc (f : Fields) : Encodable.Statement (.popc f) := encodable_of_64 (by decide) rfl
theorem Encodable.brev (f : Fields) : Encodable.Statement (.brev f) := encodable_of_64 (by decide) rfl
theorem Encodable.bfx (f : Fields) : Encodable.Statement (.bfx f) := encodable_of_64 (by decide) rfl
theorem Encodable.bfx96 (f : Fields) (imm : BitVec 32) : Encodable.Statement (.bfx96 f imm) := encodable_of_96 (by decide) rfl
theorem Encodable.bfi (f : Fields) : Encodable.Statement (.bfi f) := encodable_of_64 (by decide) rfl
theorem Encodable.bfi96 (f : Fields) (imm : BitVec 32) : Encodable.Statement (.bfi96 f imm) := encodable_of_96 (by decide) rfl
theorem Encodable.sel (f : Fields) : Encodable.Statement (.sel f) := encodable_of_64 (by decide) rfl
theorem Encodable.sel96 (f : Fields) (imm : BitVec 32) : Encodable.Statement (.sel96 f imm) := encodable_of_96 (by decide) rfl
theorem Encodable.cmp (f : Fields) : Encodable.Statement (.cmp f) := encodable_of_64 (by decide) rfl
theorem Encodable.cmp96 (f : Fields) (imm : BitVec 32) : Encodable.Statement (.cmp96 f imm) := encodable_of_96 (by decide) rfl
theorem Encodable.cmp64 (f : Fields) : Encodable.Statement (.cmp64 f) := encodable_of_64 (by decide) rfl
theorem Encodable.cmp6496 (f : Fields) (imm : BitVec 32) : Encodable.Statement (.cmp6496 f imm) := encodable_of_96 (by decide) rfl
theorem Encodable.mov (f : Fields) : Encodable.Statement (.mov f) := encodable_of_64 (by decide) rfl
theorem Encodable.li (f : Fields) (imm : BitVec 32) : Encodable.Statement (.li f imm) := encodable_of_96 (by decide) rfl
theorem Encodable.add64 (f : Fields) : Encodable.Statement (.add64 f) := encodable_of_64 (by decide) rfl
theorem Encodable.add6496 (f : Fields) (imm : BitVec 32) : Encodable.Statement (.add6496 f imm) := encodable_of_96 (by decide) rfl
theorem Encodable.sub64 (f : Fields) : Encodable.Statement (.sub64 f) := encodable_of_64 (by decide) rfl
theorem Encodable.sub6496 (f : Fields) (imm : BitVec 32) : Encodable.Statement (.sub6496 f imm) := encodable_of_96 (by decide) rfl
theorem Encodable.lea (f : Fields) : Encodable.Statement (.lea f) := encodable_of_64 (by decide) rfl
theorem Encodable.lea96 (f : Fields) (imm : BitVec 32) : Encodable.Statement (.lea96 f imm) := encodable_of_96 (by decide) rfl
theorem Encodable.sh64 (f : Fields) : Encodable.Statement (.sh64 f) := encodable_of_64 (by decide) rfl
theorem Encodable.sh6496 (f : Fields) (imm : BitVec 32) : Encodable.Statement (.sh6496 f imm) := encodable_of_96 (by decide) rfl
theorem Encodable.plog (f : Fields) : Encodable.Statement (.plog f) := encodable_of_64 (by decide) rfl
theorem Encodable.pmovRd (f : Fields) : Encodable.Statement (.pmovRd f) := encodable_of_64 (by decide) rfl
theorem Encodable.pmovWr (f : Fields) : Encodable.Statement (.pmovWr f) := encodable_of_64 (by decide) rfl
theorem Encodable.fadd (f : Fields) : Encodable.Statement (.fadd f) := encodable_of_64 (by decide) rfl
theorem Encodable.fadd96 (f : Fields) (imm : BitVec 32) : Encodable.Statement (.fadd96 f imm) := encodable_of_96 (by decide) rfl
theorem Encodable.fsub (f : Fields) : Encodable.Statement (.fsub f) := encodable_of_64 (by decide) rfl
theorem Encodable.fsub96 (f : Fields) (imm : BitVec 32) : Encodable.Statement (.fsub96 f imm) := encodable_of_96 (by decide) rfl
theorem Encodable.fmul (f : Fields) : Encodable.Statement (.fmul f) := encodable_of_64 (by decide) rfl
theorem Encodable.fmul96 (f : Fields) (imm : BitVec 32) : Encodable.Statement (.fmul96 f imm) := encodable_of_96 (by decide) rfl
theorem Encodable.ffma (f : Fields) : Encodable.Statement (.ffma f) := encodable_of_64 (by decide) rfl
theorem Encodable.ffma96 (f : Fields) (imm : BitVec 32) : Encodable.Statement (.ffma96 f imm) := encodable_of_96 (by decide) rfl
theorem Encodable.fmin (f : Fields) : Encodable.Statement (.fmin f) := encodable_of_64 (by decide) rfl
theorem Encodable.fmin96 (f : Fields) (imm : BitVec 32) : Encodable.Statement (.fmin96 f imm) := encodable_of_96 (by decide) rfl
theorem Encodable.fmax (f : Fields) : Encodable.Statement (.fmax f) := encodable_of_64 (by decide) rfl
theorem Encodable.fmax96 (f : Fields) (imm : BitVec 32) : Encodable.Statement (.fmax96 f imm) := encodable_of_96 (by decide) rfl
theorem Encodable.fcmp (f : Fields) : Encodable.Statement (.fcmp f) := encodable_of_64 (by decide) rfl
theorem Encodable.fcmp96 (f : Fields) (imm : BitVec 32) : Encodable.Statement (.fcmp96 f imm) := encodable_of_96 (by decide) rfl
theorem Encodable.fclass (f : Fields) : Encodable.Statement (.fclass f) := encodable_of_64 (by decide) rfl
theorem Encodable.frcp (f : Fields) : Encodable.Statement (.frcp f) := encodable_of_64 (by decide) rfl
theorem Encodable.frsq (f : Fields) : Encodable.Statement (.frsq f) := encodable_of_64 (by decide) rfl
theorem Encodable.fsqrt (f : Fields) : Encodable.Statement (.fsqrt f) := encodable_of_64 (by decide) rfl
theorem Encodable.fexp2 (f : Fields) : Encodable.Statement (.fexp2 f) := encodable_of_64 (by decide) rfl
theorem Encodable.flog2 (f : Fields) : Encodable.Statement (.flog2 f) := encodable_of_64 (by decide) rfl
theorem Encodable.fsin (f : Fields) : Encodable.Statement (.fsin f) := encodable_of_64 (by decide) rfl
theorem Encodable.fcos (f : Fields) : Encodable.Statement (.fcos f) := encodable_of_64 (by decide) rfl
theorem Encodable.ftanh (f : Fields) : Encodable.Statement (.ftanh f) := encodable_of_64 (by decide) rfl
theorem Encodable.frnd (f : Fields) : Encodable.Statement (.frnd f) := encodable_of_64 (by decide) rfl
theorem Encodable.cvt (f : Fields) : Encodable.Statement (.cvt f) := encodable_of_64 (by decide) rfl
theorem Encodable.f2i (f : Fields) : Encodable.Statement (.f2i f) := encodable_of_64 (by decide) rfl
theorem Encodable.i2f (f : Fields) : Encodable.Statement (.i2f f) := encodable_of_64 (by decide) rfl
theorem Encodable.pack (f : Fields) : Encodable.Statement (.pack f) := encodable_of_64 (by decide) rfl
theorem Encodable.unpk (f : Fields) : Encodable.Statement (.unpk f) := encodable_of_64 (by decide) rfl
theorem Encodable.unpkScaled (f : Fields) : Encodable.Statement (.unpkScaled f) := encodable_of_64 (by decide) rfl
theorem Encodable.qblk (f : Fields) : Encodable.Statement (.qblk f) := encodable_of_64 (by decide) rfl
theorem Encodable.fdot2 (f : Fields) : Encodable.Statement (.fdot2 f) := encodable_of_64 (by decide) rfl
theorem Encodable.fdot296 (f : Fields) (imm : BitVec 32) : Encodable.Statement (.fdot296 f imm) := encodable_of_96 (by decide) rfl
theorem Encodable.shfl (f : Fields) : Encodable.Statement (.shfl f) := encodable_of_64 (by decide) rfl
theorem Encodable.shfl96 (f : Fields) (imm : BitVec 32) : Encodable.Statement (.shfl96 f imm) := encodable_of_96 (by decide) rfl
theorem Encodable.vote (f : Fields) : Encodable.Statement (.vote f) := encodable_of_64 (by decide) rfl
theorem Encodable.redux (f : Fields) : Encodable.Statement (.redux f) := encodable_of_64 (by decide) rfl
theorem Encodable.scan (f : Fields) : Encodable.Statement (.scan f) := encodable_of_64 (by decide) rfl
theorem Encodable.matchLanes (f : Fields) : Encodable.Statement (.matchLanes f) := encodable_of_64 (by decide) rfl
theorem Encodable.bra (f : Fields) (imm : BitVec 32) : Encodable.Statement (.bra f imm) := encodable_of_96 (by decide) rfl
theorem Encodable.brx (f : Fields) : Encodable.Statement (.brx f) := encodable_of_64 (by decide) rfl
theorem Encodable.call (f : Fields) (imm : BitVec 32) : Encodable.Statement (.call f imm) := encodable_of_96 (by decide) rfl
theorem Encodable.callx (f : Fields) : Encodable.Statement (.callx f) := encodable_of_64 (by decide) rfl
theorem Encodable.ret (f : Fields) : Encodable.Statement (.ret f) := encodable_of_64 (by decide) rfl
theorem Encodable.join (f : Fields) (imm : BitVec 32) : Encodable.Statement (.join f imm) := encodable_of_96 (by decide) rfl
theorem Encodable.wait (f : Fields) : Encodable.Statement (.wait f) := encodable_of_64 (by decide) rfl
theorem Encodable.exit (f : Fields) : Encodable.Statement (.exit f) := encodable_of_64 (by decide) rfl
theorem Encodable.yield (f : Fields) : Encodable.Statement (.yield f) := encodable_of_64 (by decide) rfl
theorem Encodable.fibNew (f : Fields) (imm : BitVec 32) : Encodable.Statement (.fibNew f imm) := encodable_of_96 (by decide) rfl
theorem Encodable.idem (f : Fields) : Encodable.Statement (.idem f) := encodable_of_64 (by decide) rfl
theorem Encodable.bar (f : Fields) : Encodable.Statement (.bar f) := encodable_of_64 (by decide) rfl
theorem Encodable.forkMatrix (f : Fields) (ext : Ext) : Encodable.Statement (.forkMatrix f ext) := encodable_of_128 (by decide) rfl
theorem Encodable.forkCopy (f : Fields) (ext : Ext) : Encodable.Statement (.forkCopy f ext) := encodable_of_128 (by decide) rfl
theorem Encodable.rdv (f : Fields) : Encodable.Statement (.rdv f) := encodable_of_64 (by decide) rfl
theorem Encodable.rdv96 (f : Fields) (imm : BitVec 32) : Encodable.Statement (.rdv96 f imm) := encodable_of_96 (by decide) rfl
theorem Encodable.trap (f : Fields) : Encodable.Statement (.trap f) := encodable_of_64 (by decide) rfl
theorem Encodable.trap96 (f : Fields) (imm : BitVec 32) : Encodable.Statement (.trap96 f imm) := encodable_of_96 (by decide) rfl
theorem Encodable.brk (f : Fields) : Encodable.Statement (.brk f) := encodable_of_64 (by decide) rfl
theorem Encodable.ld (f : Fields) : Encodable.Statement (.ld f) := encodable_of_64 (by decide) rfl
theorem Encodable.ld96 (f : Fields) (imm : BitVec 32) : Encodable.Statement (.ld96 f imm) := encodable_of_96 (by decide) rfl
theorem Encodable.ldp (f : Fields) : Encodable.Statement (.ldp f) := encodable_of_64 (by decide) rfl
theorem Encodable.ldp96 (f : Fields) (imm : BitVec 32) : Encodable.Statement (.ldp96 f imm) := encodable_of_96 (by decide) rfl
theorem Encodable.st (f : Fields) : Encodable.Statement (.st f) := encodable_of_64 (by decide) rfl
theorem Encodable.st96 (f : Fields) (imm : BitVec 32) : Encodable.Statement (.st96 f imm) := encodable_of_96 (by decide) rfl
theorem Encodable.stp (f : Fields) : Encodable.Statement (.stp f) := encodable_of_64 (by decide) rfl
theorem Encodable.stp96 (f : Fields) (imm : BitVec 32) : Encodable.Statement (.stp96 f imm) := encodable_of_96 (by decide) rfl
theorem Encodable.atom (f : Fields) : Encodable.Statement (.atom f) := encodable_of_64 (by decide) rfl
theorem Encodable.atom96 (f : Fields) (imm : BitVec 32) : Encodable.Statement (.atom96 f imm) := encodable_of_96 (by decide) rfl
theorem Encodable.cas (f : Fields) : Encodable.Statement (.cas f) := encodable_of_64 (by decide) rfl
theorem Encodable.cas96 (f : Fields) (imm : BitVec 32) : Encodable.Statement (.cas96 f imm) := encodable_of_96 (by decide) rfl
theorem Encodable.red (f : Fields) : Encodable.Statement (.red f) := encodable_of_64 (by decide) rfl
theorem Encodable.red96 (f : Fields) (imm : BitVec 32) : Encodable.Statement (.red96 f imm) := encodable_of_96 (by decide) rfl
theorem Encodable.fence (f : Fields) : Encodable.Statement (.fence f) := encodable_of_64 (by decide) rfl
theorem Encodable.cache (f : Fields) : Encodable.Statement (.cache f) := encodable_of_64 (by decide) rfl
theorem Encodable.cache96 (f : Fields) (imm : BitVec 32) : Encodable.Statement (.cache96 f imm) := encodable_of_96 (by decide) rfl
theorem Encodable.pref (f : Fields) : Encodable.Statement (.pref f) := encodable_of_64 (by decide) rfl
theorem Encodable.pref96 (f : Fields) (imm : BitVec 32) : Encodable.Statement (.pref96 f imm) := encodable_of_96 (by decide) rfl
theorem Encodable.csmOpen (f : Fields) (ext : Ext) : Encodable.Statement (.csmOpen f ext) := encodable_of_128 (by decide) rfl
theorem Encodable.csmClose (f : Fields) : Encodable.Statement (.csmClose f) := encodable_of_64 (by decide) rfl
theorem Encodable.csmFlush (f : Fields) : Encodable.Statement (.csmFlush f) := encodable_of_64 (by decide) rfl
theorem Encodable.csmDrop (f : Fields) : Encodable.Statement (.csmDrop f) := encodable_of_64 (by decide) rfl
theorem Encodable.csmPush (f : Fields) : Encodable.Statement (.csmPush f) := encodable_of_64 (by decide) rfl
theorem Encodable.ldl (f : Fields) : Encodable.Statement (.ldl f) := encodable_of_64 (by decide) rfl
theorem Encodable.ldl96 (f : Fields) (imm : BitVec 32) : Encodable.Statement (.ldl96 f imm) := encodable_of_96 (by decide) rfl
theorem Encodable.stl (f : Fields) : Encodable.Statement (.stl f) := encodable_of_64 (by decide) rfl
theorem Encodable.stl96 (f : Fields) (imm : BitVec 32) : Encodable.Statement (.stl96 f imm) := encodable_of_96 (by decide) rfl
theorem Encodable.atoml (f : Fields) : Encodable.Statement (.atoml f) := encodable_of_64 (by decide) rfl
theorem Encodable.atoml96 (f : Fields) (imm : BitVec 32) : Encodable.Statement (.atoml96 f imm) := encodable_of_96 (by decide) rfl
theorem Encodable.cpy (f : Fields) (ext : Ext) : Encodable.Statement (.cpy f ext) := encodable_of_128 (by decide) rfl
theorem Encodable.cpy2d (f : Fields) (ext : Ext) : Encodable.Statement (.cpy2d f ext) := encodable_of_128 (by decide) rfl
theorem Encodable.gath (f : Fields) (ext : Ext) : Encodable.Statement (.gath f ext) := encodable_of_128 (by decide) rfl
theorem Encodable.cpySeal (f : Fields) : Encodable.Statement (.cpySeal f) := encodable_of_64 (by decide) rfl
theorem Encodable.gld (f : Fields) : Encodable.Statement (.gld f) := encodable_of_64 (by decide) rfl
theorem Encodable.gld96 (f : Fields) (imm : BitVec 32) : Encodable.Statement (.gld96 f imm) := encodable_of_96 (by decide) rfl
theorem Encodable.gmov (f : Fields) (ext : Ext) : Encodable.Statement (.gmov f ext) := encodable_of_128 (by decide) rfl
theorem Encodable.ggather (f : Fields) (ext : Ext) : Encodable.Statement (.ggather f ext) := encodable_of_128 (by decide) rfl
theorem Encodable.gscat (f : Fields) (ext : Ext) : Encodable.Statement (.gscat f ext) := encodable_of_128 (by decide) rfl
theorem Encodable.gsig (f : Fields) : Encodable.Statement (.gsig f) := encodable_of_64 (by decide) rfl
theorem Encodable.gsig96 (f : Fields) (imm : BitVec 32) : Encodable.Statement (.gsig96 f imm) := encodable_of_96 (by decide) rfl
theorem Encodable.tfa (f : Fields) (ext : Ext) : Encodable.Statement (.tfa f ext) := encodable_of_128 (by decide) rfl
theorem Encodable.tfb (f : Fields) (ext : Ext) : Encodable.Statement (.tfb f ext) := encodable_of_128 (by decide) rfl
theorem Encodable.mma (f : Fields) : Encodable.Statement (.mma f) := encodable_of_64 (by decide) rfl
theorem Encodable.mmaz (f : Fields) : Encodable.Statement (.mmaz f) := encodable_of_64 (by decide) rfl
theorem Encodable.azero (f : Fields) : Encodable.Statement (.azero f) := encodable_of_64 (by decide) rfl
theorem Encodable.azero96 (f : Fields) (imm : BitVec 32) : Encodable.Statement (.azero96 f imm) := encodable_of_96 (by decide) rfl
theorem Encodable.trel (f : Fields) : Encodable.Statement (.trel f) := encodable_of_64 (by decide) rfl
theorem Encodable.msync (f : Fields) : Encodable.Statement (.msync f) := encodable_of_64 (by decide) rfl
theorem Encodable.ascale (f : Fields) : Encodable.Statement (.ascale f) := encodable_of_64 (by decide) rfl
theorem Encodable.ascale96 (f : Fields) (imm : BitVec 32) : Encodable.Statement (.ascale96 f imm) := encodable_of_96 (by decide) rfl
theorem Encodable.accWin (f : Fields) : Encodable.Statement (.accWin f) := encodable_of_64 (by decide) rfl
theorem Encodable.accWin96 (f : Fields) (imm : BitVec 32) : Encodable.Statement (.accWin96 f imm) := encodable_of_96 (by decide) rfl
theorem Encodable.accRd (f : Fields) : Encodable.Statement (.accRd f) := encodable_of_64 (by decide) rfl
theorem Encodable.accRd96 (f : Fields) (imm : BitVec 32) : Encodable.Statement (.accRd96 f imm) := encodable_of_96 (by decide) rfl
theorem Encodable.accWr (f : Fields) : Encodable.Statement (.accWr f) := encodable_of_64 (by decide) rfl
theorem Encodable.accWr96 (f : Fields) (imm : BitVec 32) : Encodable.Statement (.accWr96 f imm) := encodable_of_96 (by decide) rfl
theorem Encodable.chopen (f : Fields) (ext : Ext) : Encodable.Statement (.chopen f ext) := encodable_of_128 (by decide) rfl
theorem Encodable.chclose (f : Fields) : Encodable.Statement (.chclose f) := encodable_of_64 (by decide) rfl
theorem Encodable.cst (f : Fields) (ext : Ext) : Encodable.Statement (.cst f ext) := encodable_of_128 (by decide) rfl
theorem Encodable.cld (f : Fields) (ext : Ext) : Encodable.Statement (.cld f ext) := encodable_of_128 (by decide) rfl
theorem Encodable.catom (f : Fields) (ext : Ext) : Encodable.Statement (.catom f ext) := encodable_of_128 (by decide) rfl
theorem Encodable.cred (f : Fields) (ext : Ext) : Encodable.Statement (.cred f ext) := encodable_of_128 (by decide) rfl
theorem Encodable.ccpy (f : Fields) (ext : Ext) : Encodable.Statement (.ccpy f ext) := encodable_of_128 (by decide) rfl
theorem Encodable.cmcast (f : Fields) (ext : Ext) : Encodable.Statement (.cmcast f ext) := encodable_of_128 (by decide) rfl
theorem Encodable.chjoin (f : Fields) : Encodable.Statement (.chjoin f) := encodable_of_64 (by decide) rfl
theorem Encodable.chdrain (f : Fields) : Encodable.Statement (.chdrain f) := encodable_of_64 (by decide) rfl
theorem Encodable.chstat (f : Fields) : Encodable.Statement (.chstat f) := encodable_of_64 (by decide) rfl
theorem Encodable.chreset (f : Fields) : Encodable.Statement (.chreset f) := encodable_of_64 (by decide) rfl
theorem Encodable.ralloc (f : Fields) : Encodable.Statement (.ralloc f) := encodable_of_64 (by decide) rfl
theorem Encodable.ralloc96 (f : Fields) (imm : BitVec 32) : Encodable.Statement (.ralloc96 f imm) := encodable_of_96 (by decide) rfl
theorem Encodable.rallocTry (f : Fields) : Encodable.Statement (.rallocTry f) := encodable_of_64 (by decide) rfl
theorem Encodable.rallocTry96 (f : Fields) (imm : BitVec 32) : Encodable.Statement (.rallocTry96 f imm) := encodable_of_96 (by decide) rfl
theorem Encodable.rcommit (f : Fields) : Encodable.Statement (.rcommit f) := encodable_of_64 (by decide) rfl
theorem Encodable.rabort (f : Fields) : Encodable.Statement (.rabort f) := encodable_of_64 (by decide) rfl
theorem Encodable.rget (f : Fields) : Encodable.Statement (.rget f) := encodable_of_64 (by decide) rfl
theorem Encodable.rdone (f : Fields) : Encodable.Statement (.rdone f) := encodable_of_64 (by decide) rfl
theorem Encodable.sgstat (f : Fields) : Encodable.Statement (.sgstat f) := encodable_of_64 (by decide) rfl
theorem Encodable.sgstat96 (f : Fields) (imm : BitVec 32) : Encodable.Statement (.sgstat96 f imm) := encodable_of_96 (by decide) rfl
theorem Encodable.srd (f : Fields) : Encodable.Statement (.srd f) := encodable_of_64 (by decide) rfl
theorem Encodable.swr (f : Fields) : Encodable.Statement (.swr f) := encodable_of_64 (by decide) rfl
theorem Encodable.rft (f : Fields) : Encodable.Statement (.rft f) := encodable_of_64 (by decide) rfl
theorem Encodable.raceAnnotate (f : Fields) : Encodable.Statement (.raceAnnotate f) := encodable_of_64 (by decide) rfl
theorem Encodable.raceAnnotate96 (f : Fields) (imm : BitVec 32) : Encodable.Statement (.raceAnnotate96 f imm) := encodable_of_96 (by decide) rfl
theorem Encodable.raceQuery (f : Fields) : Encodable.Statement (.raceQuery f) := encodable_of_64 (by decide) rfl
theorem Encodable.raceQuery96 (f : Fields) (imm : BitVec 32) : Encodable.Statement (.raceQuery96 f imm) := encodable_of_96 (by decide) rfl
theorem Encodable.tlbiVa (f : Fields) : Encodable.Statement (.tlbiVa f) := encodable_of_64 (by decide) rfl
theorem Encodable.tlbiAll (f : Fields) : Encodable.Statement (.tlbiAll f) := encodable_of_64 (by decide) rfl
theorem Encodable.remoteFetchResponse (n err : Nat) (block : BitVec 256) : Encodable.Statement (.remoteFetchResponse n err block) := encodable_of_none rfl
theorem Encodable.bandPrecedenceExpiry (band : Nat) : Encodable.Statement (.bandPrecedenceExpiry band) := encodable_of_none rfl
theorem Encodable.fairnessRotation (band : Nat) : Encodable.Statement (.fairnessRotation band) := encodable_of_none rfl
theorem Encodable.watchdogStarvation (band : Nat) : Encodable.Statement (.watchdogStarvation band) := encodable_of_none rfl
theorem Encodable.watchdogRejoin (band n : Nat) : Encodable.Statement (.watchdogRejoin band n) := encodable_of_none rfl
theorem Encodable.barrierTimeout (rdv : Bool) (key : Nat) : Encodable.Statement (.barrierTimeout rdv key) := encodable_of_none rfl
theorem Encodable.resultArrival (who key id : Nat) : Encodable.Statement (.resultArrival who key id) := encodable_of_none rfl
theorem Encodable.lateFault (k : Nat) : Encodable.Statement (.lateFault k) := encodable_of_none rfl
theorem Encodable.takeTrap (k : Nat) : Encodable.Statement (.takeTrap k) := encodable_of_none rfl
theorem Encodable.barrierCompletion (key : Nat) : Encodable.Statement (.barrierCompletion key) := encodable_of_none rfl
theorem Encodable.rendezvousCompletion (w k : Nat) : Encodable.Statement (.rendezvousCompletion w k) := encodable_of_none rfl
theorem Encodable.pageFaultMapped (die asid : Nat) (va : W64) (lg pteAddr : Nat) (pte : W64) : Encodable.Statement (.pageFaultMapped die asid va lg pteAddr pte) := encodable_of_none rfl
theorem Encodable.pageFaultUnserviceable (die asid : Nat) (va : W64) (lg : Nat) : Encodable.Statement (.pageFaultUnserviceable die asid va lg) := encodable_of_none rfl
theorem Encodable.workgroupRetirement (w : Nat) : Encodable.Statement (.workgroupRetirement w) := encodable_of_none rfl
theorem Encodable.gangSuspension (gang : Nat) (move : Bool) : Encodable.Statement (.gangSuspension gang move) := encodable_of_none rfl
theorem Encodable.gangResumption (gang quad : Nat) (images privs : List Nat) : Encodable.Statement (.gangResumption gang quad images privs) := encodable_of_none rfl
theorem Encodable.halt (src die off n : Nat) (v : W64) : Encodable.Statement (.halt src die off n v) := encodable_of_none rfl
theorem Encodable.resume (src die off n : Nat) (v : W64) : Encodable.Statement (.resume src die off n v) := encodable_of_none rfl
theorem Encodable.step (src die off n : Nat) (v : W64) : Encodable.Statement (.step src die off n v) := encodable_of_none rfl
theorem Encodable.ownershipRequest (agent line : Nat) : Encodable.Statement (.ownershipRequest agent line) := encodable_of_none rfl
theorem Encodable.epochUpdate (agent line : Nat) : Encodable.Statement (.epochUpdate agent line) := encodable_of_none rfl
theorem Encodable.writeBack (agent line : Nat) : Encodable.Statement (.writeBack agent line) := encodable_of_none rfl
theorem Encodable.drain (core e line : Nat) : Encodable.Statement (.drain core e line) := encodable_of_none rfl
theorem Encodable.backgroundDrain (core : Nat) : Encodable.Statement (.backgroundDrain core) := encodable_of_none rfl
theorem Encodable.retry (line : Nat) (reqs : List Nat) : Encodable.Statement (.retry line reqs) := encodable_of_none rfl
theorem Encodable.l1Fill (core line : Nat) : Encodable.Statement (.l1Fill core line) := encodable_of_none rfl
theorem Encodable.l2Eviction (line : Nat) : Encodable.Statement (.l2Eviction line) := encodable_of_none rfl
theorem Encodable.l2Fill (line : Nat) : Encodable.Statement (.l2Fill line) := encodable_of_none rfl
theorem Encodable.l2SliceRemap (die : Nat) : Encodable.Statement (.l2SliceRemap die) := encodable_of_none rfl
theorem Encodable.casementFillAnswer (gang sl k : Nat) : Encodable.Statement (.casementFillAnswer gang sl k) := encodable_of_none rfl
theorem Encodable.casementNotice (quad : Nat) : Encodable.Statement (.casementNotice quad) := encodable_of_none rfl
theorem Encodable.casementAcquire (gang : Nat) : Encodable.Statement (.casementAcquire gang) := encodable_of_none rfl
theorem Encodable.haloPush (gang : Nat) : Encodable.Statement (.haloPush gang) := encodable_of_none rfl
theorem Encodable.casementDrain (quad e line : Nat) : Encodable.Statement (.casementDrain quad e line) := encodable_of_none rfl
theorem Encodable.casementBackgroundWriteback (gang : Nat) : Encodable.Statement (.casementBackgroundWriteback gang) := encodable_of_none rfl
theorem Encodable.copyCommandPerform (ce id : Nat) : Encodable.Statement (.copyCommandPerform ce id) := encodable_of_none rfl
theorem Encodable.copySourceAging (ce : Nat) : Encodable.Statement (.copySourceAging ce) := encodable_of_none rfl
theorem Encodable.batchCompletion (fib batch : Nat) : Encodable.Statement (.batchCompletion fib batch) := encodable_of_none rfl
theorem Encodable.copyTransferPerform (c id : Nat) : Encodable.Statement (.copyTransferPerform c id) := encodable_of_none rfl
theorem Encodable.tileFetchPerform (quad : Nat) : Encodable.Statement (.tileFetchPerform quad) := encodable_of_none rfl
theorem Encodable.mmaPerform (quad : Nat) : Encodable.Statement (.mmaPerform quad) := encodable_of_none rfl
theorem Encodable.azeroPerform (quad : Nat) : Encodable.Statement (.azeroPerform quad) := encodable_of_none rfl
theorem Encodable.ascalePerform (quad : Nat) : Encodable.Statement (.ascalePerform quad) := encodable_of_none rfl
theorem Encodable.trelPerform (quad : Nat) : Encodable.Statement (.trelPerform quad) := encodable_of_none rfl
theorem Encodable.pinLimitExpiry (quad : Nat) : Encodable.Statement (.pinLimitExpiry quad) := encodable_of_none rfl
theorem Encodable.channelRequestArrival (n : Nat) : Encodable.Statement (.channelRequestArrival n) := encodable_of_none rfl
theorem Encodable.channelAckArrival (n : Nat) : Encodable.Statement (.channelAckArrival n) := encodable_of_none rfl
theorem Encodable.sashNack (n : Nat) : Encodable.Statement (.sashNack n) := encodable_of_none rfl
theorem Encodable.nackRetransmit (die handle seq : Nat) : Encodable.Statement (.nackRetransmit die handle seq) := encodable_of_none rfl
theorem Encodable.streamRelease (n : Nat) : Encodable.Statement (.streamRelease n) := encodable_of_none rfl
theorem Encodable.streamReleaseAck (n : Nat) : Encodable.Statement (.streamReleaseAck n) := encodable_of_none rfl
theorem Encodable.ccpyLineHandover (die job : Nat) : Encodable.Statement (.ccpyLineHandover die job) := encodable_of_none rfl
theorem Encodable.pathFailure (die peer : Nat) : Encodable.Statement (.pathFailure die peer) := encodable_of_none rfl
theorem Encodable.resyncRequest (n : Nat) : Encodable.Statement (.resyncRequest n) := encodable_of_none rfl
theorem Encodable.resyncAnswer (n : Nat) : Encodable.Statement (.resyncAnswer n) := encodable_of_none rfl
theorem Encodable.pathLostExpiry (die peer : Nat) : Encodable.Statement (.pathLostExpiry die peer) := encodable_of_none rfl
theorem Encodable.chainHopAck (n : Nat) : Encodable.Statement (.chainHopAck n) := encodable_of_none rfl
theorem Encodable.chainTargetTimeout (die handle seq : Nat) (reset : Bool) : Encodable.Statement (.chainTargetTimeout die handle seq reset) := encodable_of_none rfl
theorem Encodable.coopReport (n : Nat) : Encodable.Statement (.coopReport n) := encodable_of_none rfl
theorem Encodable.coopBegin (n : Nat) : Encodable.Statement (.coopBegin n) := encodable_of_none rfl
theorem Encodable.coopRefused (n : Nat) : Encodable.Statement (.coopRefused n) := encodable_of_none rfl
theorem Encodable.coopAbandon (n : Nat) : Encodable.Statement (.coopAbandon n) := encodable_of_none rfl
theorem Encodable.coopMessageTimeout (n : Nat) : Encodable.Statement (.coopMessageTimeout n) := encodable_of_none rfl
theorem Encodable.trapLaunchId (n : Nat) : Encodable.Statement (.trapLaunchId n) := encodable_of_none rfl
theorem Encodable.circuitEstablish (src die off n : Nat) (v : W64) : Encodable.Statement (.circuitEstablish src die off n v) := encodable_of_none rfl
theorem Encodable.circuitTeardown (src die off n : Nat) (v : W64) : Encodable.Statement (.circuitTeardown src die off n v) := encodable_of_none rfl
theorem Encodable.circuitUp (c : Nat) : Encodable.Statement (.circuitUp c) := encodable_of_none rfl
theorem Encodable.circuitSetupTimeout (c : Nat) : Encodable.Statement (.circuitSetupTimeout c) := encodable_of_none rfl
theorem Encodable.teardownComplete (c : Nat) : Encodable.Statement (.teardownComplete c) := encodable_of_none rfl
theorem Encodable.circuitLost (c : Nat) : Encodable.Statement (.circuitLost c) := encodable_of_none rfl
theorem Encodable.rcPacketArrival (port : Nat) : Encodable.Statement (.rcPacketArrival port) := encodable_of_none rfl
theorem Encodable.rcAck (port : Nat) : Encodable.Statement (.rcAck port) := encodable_of_none rfl
theorem Encodable.rcRetransmitTimeout (peer seq port : Nat) : Encodable.Statement (.rcRetransmitTimeout peer seq port) := encodable_of_none rfl
theorem Encodable.rcConnectionFailure (peer : Nat) : Encodable.Statement (.rcConnectionFailure peer) := encodable_of_none rfl
theorem Encodable.flitSend (port : Nat) : Encodable.Statement (.flitSend port) := encodable_of_none rfl
theorem Encodable.flitReceive (port lseq kslot ftype slot : Nat) (ok : Bool) (pkts : List WirePkt) : Encodable.Statement (.flitReceive port lseq kslot ftype slot ok pkts) := encodable_of_none rfl
theorem Encodable.flitNack (port lseq : Nat) : Encodable.Statement (.flitNack port lseq) := encodable_of_none rfl
theorem Encodable.flitAck (port lseq : Nat) : Encodable.Statement (.flitAck port lseq) := encodable_of_none rfl
theorem Encodable.keyStarvationExpiry (port : Nat) : Encodable.Statement (.keyStarvationExpiry port) := encodable_of_none rfl
theorem Encodable.portEnable (src die off n : Nat) (v : W64) : Encodable.Statement (.portEnable src die off n v) := encodable_of_none rfl
theorem Encodable.portDisable (src die off n : Nat) (v : W64) : Encodable.Statement (.portDisable src die off n v) := encodable_of_none rfl
theorem Encodable.portUp (port : Nat) : Encodable.Statement (.portUp port) := encodable_of_none rfl
theorem Encodable.signalLost (port : Nat) : Encodable.Statement (.signalLost port) := encodable_of_none rfl
theorem Encodable.linkKeyInstall (port slot : Nat) (tx : Bool) : Encodable.Statement (.linkKeyInstall port slot tx) := encodable_of_none rfl
theorem Encodable.timeSynchronisation (src port : Nat) (ns : W64) : Encodable.Statement (.timeSynchronisation src port ns) := encodable_of_none rfl
theorem Encodable.queueEnable (src die off n : Nat) (v : W64) : Encodable.Statement (.queueEnable src die off n v) := encodable_of_none rfl
theorem Encodable.queueDisable (src die off n : Nat) (v : W64) : Encodable.Statement (.queueDisable src die off n v) := encodable_of_none rfl
theorem Encodable.destroyDrain (src die off n : Nat) (v : W64) : Encodable.Statement (.destroyDrain src die off n v) := encodable_of_none rfl
theorem Encodable.destroyKill (src die off n : Nat) (v : W64) : Encodable.Statement (.destroyKill src die off n v) := encodable_of_none rfl
theorem Encodable.qWidx (src die off n : Nat) (v : W64) : Encodable.Statement (.qWidx src die off n v) := encodable_of_none rfl
theorem Encodable.packetNop (die q : Nat) : Encodable.Statement (.packetNop die q) := encodable_of_none rfl
theorem Encodable.packetLaunch (die q : Nat) : Encodable.Statement (.packetLaunch die q) := encodable_of_none rfl
theorem Encodable.packetWaitvalue (die q : Nat) : Encodable.Statement (.packetWaitvalue die q) := encodable_of_none rfl
theorem Encodable.packetSignal (die q : Nat) : Encodable.Statement (.packetSignal die q) := encodable_of_none rfl
theorem Encodable.packetGraph (die q : Nat) : Encodable.Statement (.packetGraph die q) := encodable_of_none rfl
theorem Encodable.packetInvalid (die q : Nat) : Encodable.Statement (.packetInvalid die q) := encodable_of_none rfl
theorem Encodable.launchDispatchBegin (share : Nat) : Encodable.Statement (.launchDispatchBegin share) := encodable_of_none rfl
theorem Encodable.formatRegionTake (share : Nat) : Encodable.Statement (.formatRegionTake share) := encodable_of_none rfl
theorem Encodable.gangPlacement (die kid : Nat) (images privs : List Nat) : Encodable.Statement (.gangPlacement die kid images privs) := encodable_of_none rfl
theorem Encodable.shareCompletion (share : Nat) : Encodable.Statement (.shareCompletion share) := encodable_of_none rfl
theorem Encodable.workerParseTimeout (die : Nat) : Encodable.Statement (.workerParseTimeout die) := encodable_of_none rfl
theorem Encodable.hingeMismatch (die : Nat) : Encodable.Statement (.hingeMismatch die) := encodable_of_none rfl
theorem Encodable.hingeRecoveryResume (die : Nat) : Encodable.Statement (.hingeRecoveryResume die) := encodable_of_none rfl
theorem Encodable.grTrig (src die off n : Nat) (v : W64) : Encodable.Statement (.grTrig src die off n v) := encodable_of_none rfl
theorem Encodable.graphLoad (src die off n : Nat) (v : W64) : Encodable.Statement (.graphLoad src die off n v) := encodable_of_none rfl
theorem Encodable.launchNode (die g : Nat) : Encodable.Statement (.launchNode die g) := encodable_of_none rfl
theorem Encodable.copyNode (die g : Nat) : Encodable.Statement (.copyNode die g) := encodable_of_none rfl
theorem Encodable.waitvalueNode (die g : Nat) : Encodable.Statement (.waitvalueNode die g) := encodable_of_none rfl
theorem Encodable.waitvalueTimeout (die g : Nat) : Encodable.Statement (.waitvalueTimeout die g) := encodable_of_none rfl
theorem Encodable.loopNode (die g : Nat) : Encodable.Statement (.loopNode die g) := encodable_of_none rfl
theorem Encodable.condNode (die g : Nat) : Encodable.Statement (.condNode die g) := encodable_of_none rfl
theorem Encodable.signalNode (die g : Nat) : Encodable.Statement (.signalNode die g) := encodable_of_none rfl
theorem Encodable.armNode (die g : Nat) : Encodable.Statement (.armNode die g) := encodable_of_none rfl
theorem Encodable.reset (src die off n : Nat) (v : W64) : Encodable.Statement (.reset src die off n v) := encodable_of_none rfl
theorem Encodable.feFeatEn (src die off n : Nat) (v : W64) : Encodable.Statement (.feFeatEn src die off n v) := encodable_of_none rfl
theorem Encodable.stageTimerExpiry (share n : Nat) : Encodable.Statement (.stageTimerExpiry share n) := encodable_of_none rfl
theorem Encodable.nodeGroupPlacement (die kid : Nat) (images privs : List Nat) : Encodable.Statement (.nodeGroupPlacement die kid images privs) := encodable_of_none rfl
theorem Encodable.rallocGrant (share : Nat) : Encodable.Statement (.rallocGrant share) := encodable_of_none rfl
theorem Encodable.rallocStallExpiry (share band : Nat) : Encodable.Statement (.rallocStallExpiry share band) := encodable_of_none rfl
theorem Encodable.frrEnable (src die off n : Nat) (v : W64) : Encodable.Statement (.frrEnable src die off n v) := encodable_of_none rfl
theorem Encodable.frrDisable (src die off n : Nat) (v : W64) : Encodable.Statement (.frrDisable src die off n v) := encodable_of_none rfl
theorem Encodable.invalidatePage (src die off n : Nat) (v : W64) : Encodable.Statement (.invalidatePage src die off n v) := encodable_of_none rfl
theorem Encodable.invalidateAsid (src die off n : Nat) (v : W64) : Encodable.Statement (.invalidateAsid src die off n v) := encodable_of_none rfl
theorem Encodable.invalidateAll (src die off n : Nat) (v : W64) : Encodable.Statement (.invalidateAll src die off n v) := encodable_of_none rfl
theorem Encodable.invalidationCompletion (n : Nat) : Encodable.Statement (.invalidationCompletion n) := encodable_of_none rfl
theorem Encodable.pageWalk (die asid : Nat) (va : W64) : Encodable.Statement (.pageWalk die asid va) := encodable_of_none rfl
theorem Encodable.biasTrackingEnable (src die off n : Nat) (v : W64) : Encodable.Statement (.biasTrackingEnable src die off n v) := encodable_of_none rfl
theorem Encodable.biasTrackingDisable (src die off n : Nat) (v : W64) : Encodable.Statement (.biasTrackingDisable src die off n v) := encodable_of_none rfl
theorem Encodable.flipToHost (src die off n : Nat) (v : W64) : Encodable.Statement (.flipToHost src die off n v) := encodable_of_none rfl
theorem Encodable.flipToDevice (src die off n : Nat) (v : W64) : Encodable.Statement (.flipToDevice src die off n v) := encodable_of_none rfl
theorem Encodable.biasFlipComplete (die : Nat) : Encodable.Statement (.biasFlipComplete die) := encodable_of_none rfl
theorem Encodable.birsp (line : Nat) : Encodable.Statement (.birsp line) := encodable_of_none rfl
theorem Encodable.bisnpTimeout (line : Nat) : Encodable.Statement (.bisnpTimeout line) := encodable_of_none rfl
theorem Encodable.memrd (src die line : Nat) : Encodable.Statement (.memrd src die line) := encodable_of_none rfl
theorem Encodable.memwr (src die line : Nat) (mask : ByteMask) (data : Line) (back : Bool) : Encodable.Statement (.memwr src die line mask data back) := encodable_of_none rfl
theorem Encodable.deviceRegisterWrite (src die off n : Nat) (v : W64) : Encodable.Statement (.deviceRegisterWrite src die off n v) := encodable_of_none rfl
theorem Encodable.bind (die port : Nat) : Encodable.Statement (.bind die port) := encodable_of_none rfl
theorem Encodable.unbind (die : Nat) : Encodable.Statement (.unbind die) := encodable_of_none rfl
theorem Encodable.flr (die : Nat) : Encodable.Statement (.flr die) := encodable_of_none rfl
theorem Encodable.dieReset (die : Nat) : Encodable.Statement (.dieReset die) := encodable_of_none rfl
theorem Encodable.linkHotReset (port : Nat) : Encodable.Statement (.linkHotReset port) := encodable_of_none rfl
theorem Encodable.coldReset : Encodable.Statement (.coldReset) := encodable_of_none rfl
theorem Encodable.getVersion : Encodable.Statement (.getVersion) := encodable_of_none rfl
theorem Encodable.getCapabilities : Encodable.Statement (.getCapabilities) := encodable_of_none rfl
theorem Encodable.negotiateAlgorithms (offered : Bool) : Encodable.Statement (.negotiateAlgorithms offered) := encodable_of_none rfl
theorem Encodable.getDigests : Encodable.Statement (.getDigests) := encodable_of_none rfl
theorem Encodable.getCertificate (slot : Nat) : Encodable.Statement (.getCertificate slot) := encodable_of_none rfl
theorem Encodable.challenge (slot nonce : Nat) : Encodable.Statement (.challenge slot nonce) := encodable_of_none rfl
theorem Encodable.getMeasurements (index : Nat) (signed : Bool) (nonce : Nat) : Encodable.Statement (.getMeasurements index signed nonce) := encodable_of_none rfl
theorem Encodable.keyExchange (id : Nat) : Encodable.Statement (.keyExchange id) := encodable_of_none rfl
theorem Encodable.finish (id : Nat) : Encodable.Statement (.finish id) := encodable_of_none rfl
theorem Encodable.endSession (id : Nat) : Encodable.Statement (.endSession id) := encodable_of_none rfl
theorem Encodable.keyLoad (session die id material : Nat) (dflt : Bool) : Encodable.Statement (.keyLoad session die id material dflt) := encodable_of_none rfl
theorem Encodable.driverKeyRequest (die id : Nat) : Encodable.Statement (.driverKeyRequest die id) := encodable_of_none rfl
theorem Encodable.ideKmKeyProg (session stream set : Nat) : Encodable.Statement (.ideKmKeyProg session stream set) := encodable_of_none rfl
theorem Encodable.kSetGo (session stream set : Nat) : Encodable.Statement (.kSetGo session stream set) := encodable_of_none rfl
theorem Encodable.ideIntegrityFailure (stream : Nat) : Encodable.Statement (.ideIntegrityFailure stream) := encodable_of_none rfl
theorem Encodable.lockInterface (session die : Nat) : Encodable.Statement (.lockInterface session die) := encodable_of_none rfl
theorem Encodable.startInterface (session die : Nat) : Encodable.Statement (.startInterface session die) := encodable_of_none rfl
theorem Encodable.stopInterface (session die : Nat) : Encodable.Statement (.stopInterface session die) := encodable_of_none rfl
theorem Encodable.getInterfaceReport (session die : Nat) : Encodable.Statement (.getInterfaceReport session die) := encodable_of_none rfl
theorem Encodable.svnRaise : Encodable.Statement (.svnRaise) := encodable_of_none rfl
theorem Encodable.recoveryVerify (image : Nat) (passes : Bool) (svn : Nat) : Encodable.Statement (.recoveryVerify image passes svn) := encodable_of_none rfl
theorem Encodable.clockStep (mhz watts : Nat) : Encodable.Statement (.clockStep mhz watts) := encodable_of_none rfl
theorem Encodable.thermalTrip : Encodable.Statement (.thermalTrip) := encodable_of_none rfl
theorem Encodable.registerLineFill (band slice reg : Nat) : Encodable.Statement (.registerLineFill band slice reg) := encodable_of_none rfl
theorem Encodable.instructionCacheFill (ic pa key cmps : Nat) : Encodable.Statement (.instructionCacheFill ic pa key cmps) := encodable_of_none rfl

end Sys2Proof.Laws
end

