-- ==== Sys2Proof/Tests/Slice0.lean ====
section
/-! SUPPORT. Tests: words of the spec's encodings decode, ill-formed instructions are refused, single instructions give
the values the spec gives; and, for each statement with hypotheses, a state and operands that meet them. -/

open Sys2Proof Sys2Proof.Machine

namespace Sys2Proof.Tests

-- One proof at a time: a kernel evaluation in each of many threads would exhaust the memory.
set_option Elab.async false

/-! ### Decoding: words that the spec writes out, one family after another -/

/-- The word decodes on an engine, with all its registers, to the instruction. -/
def decodesTo (e : EngineKind) (w : W128) (i : Instr) : Bool := (decodeWord e (maxRegs e) w).toOption == some i

/-- R50: NOP, unguarded, with the marker; R36's worked example of ADD, with guard and marker; MOV with imm32. -/
theorem test_decode_integer : decodesTo .v 0x3804 (.nop ⟨true, 7, false, 0, 0, 0, 0, 0, 0⟩) = true ∧
    decodesTo .v 0x00000000E182D00C (.add ⟨true, 2, true, 5, 6, 7, 0, 0, 0⟩) = true ∧
    decodesTo .v 0x12345678000000000004B8D9 (.li ⟨false, 7, false, 9, 0, 0, 0, 0, 0⟩ 0x12345678) = true := by decide +kernel

/-- Chapter 5: the packed multiply-add of its worked example; an SHFL.up from the opcode map (OP 0x50, SUB 1). -/
theorem test_decode_float_crosslane :
    decodesTo .v 0x088200D182C53998 (.ffma ⟨false, 7, false, 10, 11, 12, 13, 0, 0x0882⟩) = true ∧
    decodesTo .v (0x80000000000 + 0xE0000000 + 0x1800000 + 0x28000 + 0x3800 + 0x280)
      (.shfl ⟨false, 7, false, 5, 6, 7, 0, 1, 0⟩) = true := by decide +kernel

/-- Chapters 4 and 7: JOIN of the worked example; a guarded YIELD; BRK. -/
theorem test_decode_control : decodesTo .v 0x000000480000000000003B29 (.join ⟨false, 7, false, 0, 0, 0, 0, 0, 0⟩ 0x48) = true ∧
    decodesTo .v 0x1340 (.yield ⟨false, 2, false, 0, 0, 0, 0, 0, 0⟩) = true ∧
    decodesTo .g 0x3B78 (.brk ⟨false, 7, false, 0, 0, 0, 0, 0, 0⟩) = true := by decide +kernel

/-- Chapter 6: the load and the store of its worked example. -/
theorem test_decode_memory :
    decodesTo .v 0x000000100B00200001043C01 (.ld96 ⟨false, 7, false, 8, 4, 0, 0, 4, 0x0B00⟩ 0x10) = true ∧
    decodesTo .v 0x1200109001003C08 (.st ⟨false, 7, false, 0, 4, 0, 9, 2, 0x1200⟩) = true := by decide +kernel

/-- Chapters 8 and 9: CSM.OPEN and CPY of the worked examples; a GLD from the opcode map (OP 0xA0). -/
theorem test_decode_casement_copy :
    decodesTo .v 0x00000020010020040000080001003C82 (.csmOpen ⟨false, 7, false, 0, 4, 0, 0, 1, 0⟩ ⟨0, 0, 0x2001002⟩) = true ∧
    decodesTo .v 0x000000000000001700000080C10A3CC2 (.cpy ⟨false, 7, false, 20, 4, 6, 8, 0, 0⟩ ⟨1, 0, 0⟩) = true ∧
    decodesTo .g (0x1800000 + 0x28000 + 0x3800 + 0x500) (.gld ⟨false, 7, false, 5, 6, 0, 0, 0, 0⟩) = true := by decide +kernel

/-- Chapter 10: TFA of the worked example, MMAZ, MMA and ACC.RD. -/
theorem test_decode_matrix :
    decodesTo .m 0x00000000001400060000000141803D42 (.tfa ⟨false, 7, false, 0, 6, 10, 0, 0, 0⟩ ⟨0, 0, 0x140⟩) = true ∧
    decodesTo .m 0x403D58 (.mmaz ⟨false, 7, false, 0, 1, 0, 0, 0, 0⟩) = true ∧
    decodesTo .m 0x1020403D50 (.mma ⟨false, 7, false, 0, 1, 1, 1, 0, 0⟩) = true ∧
    decodesTo .v 0x014A3DC8 (.accRd ⟨false, 7, false, 20, 5, 0, 0, 0, 0⟩) = true := by decide +kernel

/-- Chapters 11 and 12: CST, CHJOIN and CHDRAIN; RALLOC, RALLOC.try, RCOMMIT, RGET and RDONE. -/
theorem test_decode_channel_stage :
    decodesTo .v 0x0000000000B00201000010D001003E12 (.cst ⟨false, 7, false, 0, 4, 0, 13, 2, 0⟩ ⟨0, 2, 0xB00⟩) = true ∧
    decodesTo .v 0x413E40 (.chjoin ⟨false, 7, false, 2, 1, 0, 0, 0, 0⟩) = true ∧
    decodesTo .v 0x803E48 (.chdrain ⟨false, 7, false, 0, 2, 0, 0, 0, 0⟩) = true ∧
    decodesTo .v 0x101853E80 (.ralloc ⟨false, 7, false, 10, 6, 8, 0, 0, 0⟩) = true ∧
    decodesTo .v 0x831054B3E80 (.rallocTry ⟨false, 7, false, 22, 21, 8, 3, 1, 0⟩) = true ∧
    decodesTo .v 0x102803E88 (.rcommit ⟨false, 7, false, 0, 10, 8, 0, 0, 0⟩) = true ∧
    decodesTo .v 0x63E98 (.rget ⟨false, 7, false, 12, 0, 0, 0, 0, 0⟩) = true ∧
    decodesTo .v 0x3EA0 (.rdone ⟨false, 7, false, 0, 0, 0, 0, 0, 0⟩) = true := by decide +kernel

/-- Chapter 7: SRD and RFT; a row with its bits as the opcode table numbers them. -/
theorem test_decode_system : decodesTo .v 0x800013F00 (.srd ⟨false, 7, false, 2, 0, 0x40, 0, 0, 0⟩) = true ∧
    decodesTo .v 0x3F10 (.rft ⟨false, 7, false, 0, 0, 0, 0, 0, 0⟩) = true ∧
    decodeTableWord 64 0x3F10 = some (.rft ⟨false, 7, false, 0, 0, 0, 0, 0, 0⟩) := by decide +kernel

/-! ### WellFormed: an ill-formed term for each check, refused -/

/-- The first failing check of a word on an engine. -/
def refusedAs (e : EngineKind) (w : W128) (r : DecErr) : Bool := decide (checkWord e (maxRegs e) w = some r)

/-- R48, in order: length code 3; a reserved opcode (0x7F); an opcode of another engine; a length the opcode lacks, a wrong
descriptor kind; an unassigned variant; a nonzero unused field, and the reserved HINT; an odd pair, a register beyond the
engine's; scope 7; a type code; a special register number. -/
theorem test_refused : refusedAs .v 3 .length = true ∧ refusedAs .v (0x7F * 8) .opcode = true ∧
    refusedAs .m (0x80 * 8) .engine = true ∧ refusedAs .v (0x60 * 8) .form = true ∧
    refusedAs .v (4 * 2 ^ 64 + 0x98 * 8 + 2) .form = true ∧ refusedAs .v (2 ^ 43) .variant = true ∧
    refusedAs .v (2 ^ 15) .reservedBits = true ∧ refusedAs .v (3 * 2 ^ 62 + 0x80 * 8) .reservedBits = true ∧
    refusedAs .v (2 ^ 22 + 0x80 * 8) .register = true ∧ refusedAs .m (32 * 2 ^ 15 + 0x01 * 8) .register = true ∧
    refusedAs .v (7 * 2 ^ 56 + 2 ^ 59 + 0x80 * 8) .scope = true ∧ refusedAs .v (3 * 2 ^ 48 + 0x30 * 8) .format = true ∧
    refusedAs .v (0x7F * 2 ^ 29 + 0xE0 * 8) .specialRegister = true := by decide +kernel

/-- Terms with such parts are not well-formed on the engine; the same without the fault is. -/
theorem test_illFormed :
    let z : Fields := ⟨false, 7, false, 0, 0, 0, 0, 0, 0⟩
    Instr.wfOn .m 32 (.ld z) = false ∧ Instr.wfOn .v 128 (.add { z with sub := 3 }) = false ∧
    Instr.wfOn .v 128 (.nop { z with d := 1 }) = false ∧ Instr.wfOn .v 128 (.ld { z with a := 1 }) = false ∧
    Instr.wfOn .v 16 (.add { z with d := 16 }) = false ∧ Instr.wfOn .v 128 (.ld { z with md := 0x0F00 }) = false ∧
    Instr.wfOn .v 128 (.fadd { z with md := 3 }) = false ∧ Instr.wfOn .v 128 (.srd { z with b := 0x7F }) = false ∧
    Instr.wfOn .v 128 (.gath z ⟨0, 0, 0x41⟩) = false ∧ Instr.wfOn .v 16 (.add { z with d := 15 }) = true := by decide +kernel

end Sys2Proof.Tests

/-! ### States the hypotheses of the statements are met in -/

namespace Sys2Proof.Tests

-- One proof at a time: a kernel evaluation in each of many threads would exhaust the memory.
set_option Elab.async false

/-- Field words of an instruction whose guard is p7, always true. -/
def fz : Fields := ⟨false, 7, false, 0, 0, 0, 0, 0, 0⟩

/-- One fibre, 0, of workgroup 0 of gang 0 on core 0, whose pages 0 to 0xFFFF are the vault's first. -/
def one : State := State.reset.withFetchWord 64 0

/-- The same with two lanes in the batch. -/
def two : State := (one.updBand 0 fun b => { b with batches := [⟨1, 3, 0, 0⟩] }).setFib 1
  { Fibre.reset with status := .ready }

/-- The same fibre in its handler; and with a handler it is not in. -/
def inHnd : State := one.updFib 0 fun f => { f with handler := true, status := .handler, tpc := 0x40 }
def hnd : State := one.updWg 0 fun w => { w with ctrl := 0x20 }

/-- The matrix sequencer of quad 0, and context 0 of copy engine 0, in focus. -/
def mat0 : State := { one with focus := .mat 0 }
def cop0 : State := { one with focus := .cop 0 }

/-! ### Witnesses: chapters 4, 5, 7 -/

/-- FloatCompareCases: −0 and +0 are both not NaN, at the last condition; a NaN. -/
theorem witness_FloatCompareCases : (7 : Nat) < 8 ∧ decF32 0x80000000 ≠ .nan ∧ decF32 0 ≠ .nan ∧
    decF32 0x7FC00000 = .nan ∧ 0x80000000#32 &&& 0x7FFFFFFF#32 = 0 := by decide +kernel

/-- Conversions (QBLK), CrossLane, ControlTransfer, JoinMask, WaitArrives, YieldYoungest: a band in focus, with the first
and the last variant of VOTE, SCAN and MATCH. -/
theorem witness_CrossLane : two.focus = .band 0 ∧ two.active fz = [.fib 0, .fib 1] ∧ { fz with sub := 0 }.sub = 0 ∧
    { fz with sub := 1 }.sub = 1 ∧ { fz with sub := 2 }.sub = 2 ∧ { fz with sub := 3 }.sub = 3 := by decide +kernel

/-- ControlTransfer: a taken transfer (the displacement is 64) and one to the next instruction. -/
theorem witness_ControlTransfer : (∃ x ∈ one.active fz, one.pcOf x + 64 ≠ seqPc (one.pcOf x) 1) ∧
    ∀ x ∈ one.active fz, one.pcOf x + 12 = seqPc (one.pcOf x) 1 := by decide +kernel

/-- CheckRejoin: lane 31, the last, is the only member and has arrived; a second member has not. -/
theorem witness_CheckRejoin :
    (let s := one.updBand 0 fun b => { b with jmask := [(7, 0x80000000#32)], jarr := [(7, 0x80000000#32)] }
     (s.band 0).jr 7 ≠ 0 ∧ (s.band 0).j 7 &&& ~~~ (s.band 0).jr 7 = 0) ∧
    (let s := one.updBand 0 fun b => { b with jmask := [(7, 0x80000001#32)], jarr := [(7, 0x80000000#32)] }
     ¬((s.band 0).jr 7 ≠ 0 ∧ (s.band 0).j 7 &&& ~~~ (s.band 0).jr 7 = 0)) := by decide +kernel

/-- ExitEnds: a fibre without a record; the two sequencers. -/
theorem witness_ExitEnds : one.focus = .band 0 ∧ (endRecords (one.active fz) one).isSome = true ∧
    mat0.focus = .mat 0 ∧ mat0.active fz = [.mat 0] ∧ cop0.focus = .cop 0 ∧ cop0.active fz = [.cop 0] ∧
    (cop0.gang (cop0.wg (cop0.cop 0).wg).gang).suspended = false ∧
    (let s := cop0.updGang 0 fun g => { g with suspended := true }
     s.focus = .cop 0 ∧ s.active fz = [.cop 0] ∧ (s.gang (s.wg (s.cop 0).wg).gang).suspended = true) := by decide +kernel

/-- FibreCreation: the creator's band has 31 free lanes; and none is free where every lane is Ready. -/
theorem witness_FibreCreation : one.focus = .band (bandOf 0) ∧ one.active fz = [.fib 0] ∧ freeLane one 0 = some 1 ∧
    freeLane ((List.range 32).foldl (fun s k => s.setFib k { Fibre.reset with status := .ready }) one) 0 = none := by
  decide +kernel

/-- BarrierArrives; BarrierCompletes at .wave scope (key 0) and at .quad scope (key 2), with the one fibre arrived. -/
theorem witness_Barriers : one.focus = .band 0 ∧ allPerformed one (one.active fz) = true ∧
    closerReady one (one.active fz) = true ∧ ∀ key ∈ [0, 2],
      let s := one.updFib 0 fun f => { f with status := .waiting, waitOn := .barrier key }
      let ks := s.participants key
      ks = [0] ∧ (∀ k ∈ ks, (s.fib k).waitOn = .barrier key) ∧ allResident s ks = true ∧ s.peersIn key = true ∧ s.csmClean ∧
      ((if 2 ≤ key % 8 then forAll drainRelease (coresOf s ks) s else some s).bind
        (acquireWgs (key % 8) (wgsOf ks))).isSome = true := by decide +kernel

/-- BarrierTimesOut: a count at its limit, of a barrier and of a rendezvous. -/
theorem witness_BarrierTimesOut :
    (let s := { (one.updFib 0 fun f => { f with status := .waiting, waitOn := .barrier 0 }).updShare 0
        (fun h => { h with bartimeout := 100 }) with bars := [(0, ⟨[], 100, []⟩)] }
     s.arrivedBar 0 = [0] ∧ (s.share (s.wg (wgOf 0)).share).bartimeout ≠ 0 ∧
       min (s.share (s.wg (wgOf 0)).share).bartimeout (2 ^ 48) ≤ (s.bar 0).count) ∧
    (let s := (one.updShare 0 fun h => { h with bartimeout := 100 }).setRdv 0 15 ⟨true, [], [], 100⟩
     (s.share (s.wg 0).share).bartimeout ≠ 0 ∧ min (s.share (s.wg 0).share).bartimeout (2 ^ 48) ≤ (s.rdv 0 15).count) := by
  decide +kernel

/-- ForkStarts: the quad's sequencer is free, and a context of the role's engine. -/
theorem witness_ForkStarts : let s := { one with mseqs := [], cops := [] }
    s.active fz = [.fib 0] ∧ (drainRelease s (s.fibCore 0)).isSome = true ∧ (s.mseq (s.wgQuad (wgOf 0))).st = .free ∧
    freeCtx s (roleEngine s (.fib 0) 0) = some 0 := by decide +kernel

/-- TrapBreak: a handler that the fibre is not in, no debugger; and a sequencer. -/
theorem witness_TrapBreak : ((∃ b, hnd.focus = .band b) ∧ ∀ x ∈ hnd.active fz, (hnd.fib x.key).pend = [] ∧
    (hnd.fib x.key).handler = false ∧ hnd.hasHandler x.key = true) ∧ (hnd.wg 0).ctrl.getLsbD 2 = false ∧
    mat0.threads = [.mat 0] ∧ mat0.active fz = [.mat 0] ∧ mat0.dbgOn (.mat 0) = false ∧
    (let s := mat0.updWg 0 fun w => { w with ctrl := 4 }
     s.threads = [.mat 0] ∧ s.active fz = [.mat 0] ∧ s.dbgOn (.mat 0) = true ∧ (s.seq (.mat 0)).passBrk = false ∧
     ((s.updSeq (.mat 0) fun m => { m with passBrk := true }).seq (.mat 0)).passBrk = true) :=
  ⟨⟨⟨0, rfl⟩, by decide +kernel⟩, by decide +kernel⟩

/-- TakingTrap: a PageFault; without a handler, the share having no trap; with one. -/
theorem witness_TakingTrap : (precise 5 0 0x1000 0).code = 5 ∧ (precise 0x10 0 0 0).code ≠ 5 ∧
    one.hasHandler 0 = false ∧ Map.has one.shares 0 = true ∧ (one.share 0).trap = none ∧ (hnd.fib 0).handler = false ∧
    hnd.hasHandler 0 = true := by decide +kernel

/-- ReadSpecial: below, at and above the handler's registers; %time; on a sequencer. Its trap: as TrapBreak's witness. -/
theorem witness_ReadSpecial : (∀ n ∈ [0x10, 0x1F, 0x27, 0x5F], n ≠ 0x11 ∧ ¬(0x20 ≤ n ∧ n ≤ 0x26)) ∧
    (∀ n ∈ [0x20, 0x26], n ≠ 0x11 ∧ 0x20 ≤ n ∧ n ≤ 0x26) ∧ inHnd.active fz = [.fib 0] ∧ (inHnd.fib 0).handler = true ∧
    (mat0.threads = [.mat 0] ∧ mat0.active fz = [.mat 0]) ∧ cop0.threads = [.cop 0] ∧ cop0.active fz = [.cop 0] := by
  decide +kernel

/-- WriteSpecial: in the handler, lane 0 has not arrived at the selected mask. Its traps: as TrapBreak's witness. -/
theorem witness_WriteSpecial : inHnd.focus = .band 0 ∧ inHnd.active fz = [.fib 0] ∧ (inHnd.fib 0).handler = true ∧
    ((inHnd.band 0).jr ((inHnd.fib 0).jsel.toNat % 8)).getLsbD (laneOf 0) = false ∧ (0x20 : Nat) ≠ 0x28 := by decide +kernel

/-- RendezvousArrives: of a fibre, of a matrix and of a copy program. -/
theorem witness_RendezvousArrives : one.focus = .band 0 ∧ one.active fz = [.fib 0] ∧
    allPerformed one (one.active fz) = true ∧ closerReady one (one.active fz) = true ∧
    (drainRelease one (one.fibCore 0)).isSome = true ∧ mat0.focus = .mat 0 ∧ mat0.active fz = [.mat 0] ∧
    (mat0.mat 0).queue = [] ∧ cop0.focus = .cop 0 ∧ cop0.active fz = [.cop 0] ∧
    (Map.getD cop0.ctxs 0 Ctx.reset).ops = [] := by decide +kernel

/-- RendezvousCompletes: fibre 0, the matrix program and context 0 have arrived at rendezvous 15. -/
theorem witness_RendezvousCompletes :
    let s := ((one.updFib 0 fun f => { f with status := .waiting, waitOn := .rdv 15 }).updWg 0 fun w =>
      { w with forkM := true, forkC := [0] }).setRdv 0 15 ⟨true, [0], [], 0⟩
    (s.gang (s.wg 0).gang).suspended = false ∧ (s.gang (s.wg 0).gang).halted = false ∧ s.rdvAny 0 15 = true ∧
    s.rdvParties 0 15 = [0] ∧ (s.fib 0).waitOn = .rdv 15 ∧ (s.wg 0).forkM = true ∧ (s.rdv 0 15).mat = true ∧
    (∀ c ∈ (s.wg 0).forkC, c ∈ (s.rdv 0 15).cops) ∧ (fenceAcquire s 0 3).isSome = true ∧ s.csmClean := by decide +kernel

/-- ResultsAndTraps: a ready result; a late fault; a due trap, first among causes of equal rank too. -/
theorem witness_ResultsAndTraps :
    let p : Pend := ⟨9, [3], [5], [], [], true⟩
    let c := precise 4 4 0 0
    findPend (one.updFib 0 fun f => { f with pend := [p] }) (thrOf 0 0) 9 = some p ∧
    (let s := one.updFib 0 fun f => { f with pend := [p], latent := [(9, c)] }
     (s.fib 0).latent = [(9, c)] ∧ (s.fib 0).status ≠ .exited) ∧
    (let s := one.updFib 0 fun f => { f with due := [c] }
     (s.gang (s.gangOf 0)).suspended = false ∧ firstCause (s.fib 0).due = some c ∧ (s.fib 0).pend = []) ∧
    firstCause [c, c] = some c := by decide +kernel

/-- BandTimers: each count at its limit. -/
theorem witness_BandTimers :
    (64 ≤ ((one.updBand 0 fun b => { b with cand := 64 }).band 0).cand) ∧
    (let s := (one.updBand 0 fun b => { b with fair := 4096 }).updWg 0 fun w => { w with ctrl := 1 }
     (s.wg (0 / 32)).ctrl.getLsbD 0 = true ∧ 4096 ≤ (s.band 0).fair ∧ (s.gang (s.wg (0 / 32)).gang).suspended = false ∧
       (s.gang (s.wg (0 / 32)).gang).halted = false) ∧
    (let s := (two.updBand 0 fun b => { b with batches := [⟨1, 1, 0, 0⟩, ⟨2, 2, 1, 50⟩] }).updShare 0 fun h =>
       { h with watchdog := 50 }
     starved s 0 = some ⟨2, 2, 1, 50⟩ ∧ gangRuns s 0 = true) ∧
    (let s := (one.updBand 0 fun b => { b with jarr := [(7, 1)], jmask := [(7, 3)], jcount := [(7, 50)] }).updShare 0 fun h =>
       { h with watchdog := 50 }
     starved s 0 = none ∧ gangRuns s 0 = true ∧ watchdogOf s 0 ≠ 0 ∧ (s.band 0).jr 7 ≠ 0 ∧
       watchdogOf s 0 ≤ Map.getD (s.band 0).jcount 7 0) := by decide +kernel

/-- PageFaultService: a fibre parked on page 0x1000 with a handler; and a page table entry whose home takes the write. -/
theorem witness_PageFaultService :
    let s := hnd.updFib 0 fun f => { f with status := .parked, parkVa := 0x1008 }
    (s.fe 0).recovering = false ∧ programBase ≠ 0 ∧ homeReady s (programBase / 64) .write = true ∧
    (homePut (homeUse s (programBase / 64)) agentFe (programBase / 8 * 8) 8 1 0 0).isSome = true ∧
    parkedOn s 0 0 0x1000 12 = [0] ∧ heldOn s 0 0 0x1000 12 = [] ∧
    heldOn (s.updGang (s.gangOf 0) fun g => { g with suspended := true }) 0 0 0x1000 12 = [0] ∧ (s.fib 0).pend = [] ∧ (s.fib 0).due = [] ∧ (s.fib 0).handler = false ∧
    s.hasHandler 0 = true := by decide +kernel

/-- RaceInstructions: no lane; a lane whose address translates to a local page, a range that ends with the page. -/
theorem witness_RaceInstructions : allPerformed one (one.active fz) = true ∧ one.active { fz with pg := 0 } = [] ∧
    (let f : Fields := { fz with b := 1 }
     let s := one.wx (.fib 0) 1 0x10000
     s.active f = [.fib 0] ∧ allPerformed s [.fib 0] = true ∧ 0 < (srcB f s (.fib 0)).toNat ∧
     (s.trFib 0 (memVa f 0 s (.fib 0)) .write).2.toOption = some (programLeaf, programBase) ∧
     (srcB f s (.fib 0)).toNat ≤ 2 ^ programLeaf.lg - programBase % 2 ^ programLeaf.lg) ∧
    (one.trFib 0 (memVa fz 0 one (.fib 0)) .read).2.toOption = some (programLeaf, programBase) ∧
    isLocal ((one.trFib 0 (memVa fz 0 one (.fib 0)) .read).1.fibDie 0) programBase = true := by decide +kernel

/-- TlbInvalidation: with privilege, before and after the fibre's invalidation; its trap, without. -/
theorem witness_TlbInvalidation : let s := one.updWg 0 fun w => { w with ctrl := 2 }
    s.active fz = [.fib 0] ∧ s.privOf (.fib 0) = true ∧ (s.fib 0).latent = [] ∧ (∀ j ∈ s.invs, j.fib ≠ some 0) ∧
    (let t := { s with invs := [⟨some 0, 0, some 0, none, false, false, true⟩] }
     (∃ j ∈ t.invs, j.fib = some 0) ∧ ∀ j ∈ t.invs, j.fib = some 0 → j.done = true) ∧ hnd.privOf (.fib 0) = false := by
  decide +kernel

/-- InvalidationCompletes: of the whole die, and of the package with its write-backs. -/
theorem witness_InvalidationCompletes : ∀ i ∈ [(⟨none, 0, none, none, false, false, false⟩ : Inv), ⟨none, 15, none, none, true, true, false⟩],
    let s := { one with invs := [i] }
    s.invs[0]? = some i ∧ i.done = false ∧ invQuiet s i = true ∧ (invDrain s i (leavesHit s i)).isSome = true ∧
    (i.drain = false ∨ s.csmClean) := by decide +kernel

/-- Debugger: the band on core 0, slot 0, halted and not; a halted machine; a BRK under a debugger. -/
theorem witness_Debugger :
    dbgBand one 0 0 = some 0 ∧ (one.gang 0).halted = false ∧
    (let s := one.updGang 0 fun g => { g with halted := true }
     dbgBand s 0 0 = some 0 ∧ (s.gang 0).halted = true ∧ (s.fib (0 * 32 + bitsN 0 23 19)).status = .ready ∧
     s.agenda = [] ∧ s.host.phase ≠ 3 ∧ (s.gang s.focusGang).stepFib = none ∧ (s.gang s.focusGang).halted = true) ∧
    (let s := one.updGang 0 fun g => { g with suspended := true }
     (s.gang s.focusGang).suspended = true ∧ s.focus = .band 0) ∧
    (let s := one.updWg 0 fun w => { w with ctrl := 4 }
     s.threads = [.fib 0] ∧ s.active fz = [.fib 0] ∧ s.dbgOn (.fib 0) = true ∧ (s.fib 0).passBrk = false ∧
     ((s.updFib 0 fun f => { f with passBrk := true }).fib 0).passBrk = true) := by decide +kernel
/-! ### Single instructions: values that the spec works out -/

/-- What a next state shows. -/
def after {α : Type} (o : Host.Outcome State Fault Refusal) (g : State → α) : Option α :=
  match o with
  | .next s => some (g s)
  | _ => none

/-- Chapter 5's packed multiply-add, saturating and not. -/
theorem test_ffma : let s := ((one.wx (.fib 0) 11 0x40403F80).wx (.fib 0) 12 0x7F7F3F00).wx (.fib 0) 13 0x3F80
    let f : Fields := { fz with d := 10, a := 11, b := 12, c := 13, md := 0x0882 }
    after (exec (.ffma f) s) (·.rx (.fib 0) 10) = some 0xFF7F3F00#32 ∧
    after (exec (.ffma { f with md := 0x0802 }) s) (·.rx (.fib 0) 10) = some 0xFF803F00#32 := by decide +kernel

/-- Chapter 5's compare and address. -/
theorem test_cmp_lea : let s := (((one.wx (.fib 0) 4 0xFFFFFFF0).wx (.fib 0) 7 1).wx (.fib 0) 8 0xFFFFFFFE)
    after (exec (.cmp96 { fz with d := 1, a := 4, sub := 2 } 0xFFFFFFFB) s) (·.rp (.fib 0) 1) = some true ∧
    after (exec (.cmp96 { fz with d := 1, a := 4, sub := 6 } 0xFFFFFFFB) s) (·.rp (.fib 0) 1) = some true ∧
    after (exec (.lea96 { fz with d := 4, a := 6, b := 8, c := 3 } 16) s) (·.rxp (.fib 0) 4) = some 0x100000000#64 := by
  decide +kernel

/-- R66 and chapter 3's D8 codes. -/
theorem test_d8 : let enc (x : Nat) : Nat := (encD8 (decF32 x) .rne).1
    encF32 (decD8 0x9A) .rne false = 0xC4098000 ∧
    enc 0x40FCCCCD = 0x71 ∧ enc 0x411E6666 = 0x7F ∧ enc 0x411EE000 = 0x30 ∧ enc 0xD42EA000 = 0x83 := by decide +kernel

/-- Chapter 5's QBLK: the worked block, its codes and its scale byte in lanes 0 to 5. -/
theorem test_qblk : let z := one.updBand 0 (fun b => { b with batches := [⟨1, 0xFFFFFFFF, 0, 0⟩] })
    let s := (List.range 32).foldl (fun s k => s.setFib k { Fibre.reset with status := .ready }) z
    let v := [(0, 0x41400000), (1, 0x3F800000), (2, 0xC0400000), (3, 0x3E4CCCCD), (4, 0x40A00000)]
    let t := v.foldl (fun s p => s.wx (.fib p.1) 5 (BitVec.ofNat 32 p.2)) s
    after (exec (.qblk { fz with d := 6, a := 5, md := 0x18 }) t) (fun u =>
      (List.range 6).map fun k => ((u.fib k).pend.map (·.vals)).flatten) =
      some [[0x10007], [0x10001], [0x1000B], [0x10000], [0x10004], [0x10000]] := by decide +kernel

/-- Chapter 6's ATOM.inc.wrap of three lanes on one counter. -/
theorem test_atom_inc : let s := State.updBand (memWrite one (programBase / 64 + 1) 0 0 4) 0 (fun b => { b with batches := [⟨1, 0x284, 0, 0⟩] })
    let t := [2, 7, 9].foldl (fun s k => ((s.setFib k { Fibre.reset with status := .ready }).wx (.fib k) 4 0x40).wx (.fib k) 6 5) s
    after (exec (.atom { fz with d := 5, a := 4, c := 6, sub := 9 }) t) (fun u =>
      ([2, 7, 9].map (fun k => ((u.fib k).pend.map (·.vals)).flatten),
        (homeRead u (programBase / 64 + 1) 0 0).map (fun x => x.2.toNat % 2 ^ 32))) = some ([[4], [5], [0]], some 1) := by
  decide +kernel

/-- R193, R198: TRAP saves the next instruction's address and RFT returns to it in user mode. -/
theorem test_trap_rft : after (exec (.trap96 fz 0x42) hnd) (fun u =>
      ((u.fib 0).tpc, (u.fib 0).tinfo, (u.fib 0).tcause, (u.fib 0).handler)) = some (12, 0x42, 0x10, true) ∧
    after (exec (.rft fz) inHnd) (fun u => ((u.fib 0).pc, (u.fib 0).handler)) = some (0x40, false) := by decide +kernel

/-- R157: a signed byte load's address and a misaligned load's trap (R199). -/
theorem test_misaligned : after (exec (.ld96 { fz with d := 8, sub := 4 } 2) hnd) (fun u =>
    ((u.fib 0).tcause, (u.fib 0).taddr, (u.fib 0).tpc)) = some (4, 2, 0) := by decide +kernel
/-! ### Witnesses: chapter 6 -/

/-- Line 0 of the vault, held whole by the L1 of core 0. -/
def heldLine : L1Line := ⟨0x0403020100, BitVec.allOnes 64, 0, 0, 0, none, false, 0, 0, 0, 0⟩
def held : State := one.updCore 0 fun c => { c with l1 := [(programBase / 64, heldLine)] }

/-- LoadHits: the widest load (16 bytes) of the line's last 16 bytes. -/
theorem witness_LoadHits : let f : Fields := { fz with sub := 6 }
    held.active f = [.fib 0] ∧ f.sub.toNat ≤ 6 ∧ (pairA f held (.fib 0) + (48#32).signExtend 64).toNat % ldSize f.sub.toNat = 0 ∧
    let r := held.trFib 0 (pairA f held (.fib 0) + (48#32).signExtend 64) .read
    r.2.toOption = some (programLeaf, programBase + 48) ∧ (programBase + 48) % 16 = 0 ∧
    isLocal (r.1.fibDie 0) (programBase + 48) = true ∧ isDev (programBase + 48) = false ∧ flagACQ f = false ∧
    checkedPa r.1 (.fib 0) (programBase + 48) = false ∧
    l1Hit r.1 (r.1.fibCore 0) (programBase + 48) (ldSize f.sub.toNat) programLeaf.key = true := by decide +kernel

/-- StoreBytes: the widest store, at the line's last 16 bytes, which the L1 holds under the page's key. -/
theorem witness_StoreBytes : let f : Fields := { fz with sub := 4 }
    held.active f = [.fib 0] ∧ f.sub.toNat ≤ 4 ∧ (pairA f held (.fib 0) + (48#32).signExtend 64).toNat % stSize f.sub.toNat = 0 ∧
    let r := held.trFib 0 (pairA f held (.fib 0) + (48#32).signExtend 64) .write
    r.2.toOption = some (programLeaf, programBase + 48) ∧ (programBase + 48) % 16 = 0 ∧
    isLocal (r.1.fibDie 0) (programBase + 48) = true ∧ isDev (programBase + 48) = false ∧ flagREL f = false ∧
    checkedPa r.1 (.fib 0) (programBase + 48) = false ∧ homeReady r.1 ((programBase + 48) / 64) .write = true ∧
    hostBiased r.1 ((programBase + 48) / 64) = false ∧
    ∀ x ∈ Map.get (r.1.core (r.1.fibCore 0)).l1 ((programBase + 48) / 64), x.key = programLeaf.key := by decide +kernel

/-- AtomicCompletes: on a word, on a pair, and with ACQ at scope .core. -/
theorem witness_AtomicCompletes : ∀ f ∈ [fz, { fz with md := 0x2000 }, { fz with md := 0x0900 }],
    one.active f = [.fib 0] ∧ (one.fib 0).latent = [] ∧ flagREL f = false ∧ (flagACQ f = false ∨ scopeFld f < 2) ∧
    let n := if flagW64 f then 8 else 4
    let va := pairA f one (.fib 0) + (0#32).signExtend 64
    va.toNat % n = 0 ∧ let r := one.trFib 0 va .write
    r.2.toOption = some (programLeaf, programBase) ∧ isLocal (r.1.fibDie 0) programBase = true ∧ isDev programBase = false ∧
    checkedPa r.1 (.fib 0) programBase = false ∧ homeOpen r.1 (r.1.fibCore 0) (programBase / 64) .atomic = true ∧
    ∀ g ∈ [fun x => some (atomOp f.sub.toNat n x 1), fun x => if x = 1 then some 2 else none],
      ((coreAtomic r.1 (l1AccOf r.1 (.fib 0) programLeaf va) programBase n false g).bind (·.2)).isSome = true := by
  decide +kernel

/-- AtomicValues: the last operation. -/
theorem witness_AtomicValues : (10 : Nat) ≤ 10 := by decide

/-- PrivateAccess: the last bytes of a private block of 16 bytes, of every load and store width, with a line that the core's
L1 holds and without; one byte past it. -/
theorem witness_PrivateAccess : ∀ s0 ∈ [one, held],
    let s := (s0.updShare 0 fun h => { h with psize := 16 }).updWg 0 fun w => { w with priv := BitVec.ofNat 64 programBase }
    s.active fz = [.fib 0] ∧ (s.wg (wgOf 0)).priv.toNat % 4 = 0 ∧ (s.wg (wgOf 0)).nbands ≠ 0 ∧ ∀ n ∈ [1, 2, 4, 8, 16],
      (16 - n) % n = 0 ∧ 16 - n + n ≤ (s.share (s.wg (wgOf 0)).share).psize ∧ privReady s true 0 (16 - n) n = true ∧
      privReady s false 0 (16 - n) n = true ∧
      (∀ p ∈ privParts (16 - n) n, hostBiased s (privAddr s 0 p.1 / 64) = false ∧
        ∀ x ∈ Map.get (s.core (s.fibCore 0)).l1 (privAddr s 0 p.1 / 64), x.key = (s.wg (wgOf 0)).kid) ∧
      16 % n = 0 ∧ (s.share (s.wg (wgOf 0)).share).psize < 16 + n := by decide +kernel

/-- PrivateAccess: private bytes that the L1 holds. -/
theorem witness_PrivateAccess_held : let s := (held.updShare 0 fun h => { h with psize := 4 }).updWg 0 fun w =>
      { w with priv := BitVec.ofNat 64 programBase }
    ∀ n ∈ [1, 2, 4], ∀ p ∈ privParts (4 - n) n, l1Hit s (s.fibCore 0) (privAddr s 0 p.1) p.2 (s.wg (wgOf 0)).kid = true := by
  decide +kernel

/-- MemoryLanes: two lanes on one word: a load, a store, an atomic run to their end; with acquire and release at .gpu
scope. -/
theorem witness_MemoryLanes : let f : Fields := { fz with sub := 4, md := 0x1B00 }
    let act := two.active f
    let va (x : Thr) : W64 := pairA f two x + (0#32).signExtend 64
    closerReady two act = true ∧
    (match trLanes .read 4 va act two with
      | (s1, some trs) => match runLanes (ldLane ⟨4, 4, false, true, scopeFld f⟩) (fun x => x.1)
          (trs.map fun x => (x.1, va x.1, x.2)) s1 with
        | some (s2, _, _) => (endAcquire s2 true act).isSome
        | none => false
      | _ => false) = true ∧
    (match trLanes .write 4 va act two with
      | (s1, some trs) => match releaseFirst s1 true (scopeFld f) act with
        | (s2, true) => (runLanes (stLane 4 true (scopeFld f) 0 two) (fun x => x.1) (trs.map fun x => (x.1, va x.1, x.2))
            s2).isSome &&
          [AtomKind.atom, .cas, .red].all fun k => match runLanes (atomLane ⟨k, 0, 4, 4, 5, 6, decide (k ≠ .red), scopeFld f⟩ two)
              (fun x => x.1) (trs.map fun x => (x.1, va x.1, x.2)) s2 with
            | some (s3, _, _) => (endAcquire s3 (decide (k ≠ .red)) act).isSome
            | none => false
        | _ => false
      | _ => false) = true := by decide +kernel

/-- FenceCachePrefetch: a fence of each sub-operation at its widest scope, the ranges of CACHE, and the walks of PREF. -/
theorem witness_FenceCachePrefetch : one.active fz = [.fib 0] ∧ allPerformed one [.fib 0] = true ∧
    closerReady one [.fib 0] = true ∧ (∀ sub ∈ [0, 1, 2, 3], (fenceOp one 0 0 sub 4).2 = true) ∧
    (prefWalks (memVa fz 0 one) (one.active fz) one).2 = true ∧ (∀ x ∈ one.active { fz with pg := 0 }, prefOdd (memVa fz 0 one x) = true) ∧
    ∀ sub ∈ [0, 1, 2], (runLanes (fun s' x => (cachePages x sub true ((srcB fz one x).toNat / 4096 + 2)
      (srcB fz one x).toNat (memVa fz 0 one x) s').map fun p => (p.1, p.2, none)) id (one.active fz) one).isSome = true := by
  decide +kernel

/-- CoherenceEvents, in order: a message to take up, of a page in host bias too, for a first and a fifth source; write-backs;
drains; clean sectors; a request at and far past the pointer; prefetches asked for; an evicted line, dirty too; the retirement
of a slice of an idle die, with and without a line. -/
theorem witness_CoherenceEvents : let ln := programBase / 64
    (∀ upd, let m : OwnMsg := ⟨7, ln, 3, upd⟩
      let s := one.updMem fun x => { x with msgs := [m] }
      let h := (s.updMem fun x => { x with bias := [(pageOf ln, 1)] }).setHome ln { HomeLine.reset with snoop := .answered true }
      s.mem.msgs.find? (fun x => decide (x.agent = 7 ∧ x.line = ln ∧ x.upd = upd)) = some m ∧ homeTurn s 7 ln = true ∧
      Map.getD s.mem.bias (pageOf ln) 0 < 2 ∧ Map.getD h.mem.bias (pageOf ln) 0 < 2 ∧ hostBiased s ln = false ∧
      hostBiased h ln = true ∧ homeReady h ln .write = true ∧ Map.wf h.mem.home = true ∧ homeTurn h 7 ln = true ∧
      (s.home ln).sources.length < 4 ∧
      (addSource (s.setHome ln { HomeLine.reset with sources := [(1, 0), (2, 0), (3, 0), (4, 0)] }) ln 7 3).isSome = true) ∧
    (2559 < 2560 ∧ homeTurn one 2559 ln = true ∧ (∀ x ∈ Map.get (held.core 0).l1 ln, x.priv = false) ∧ (2560 : Nat) ≤ 2560 ∧
     one.csmClean) ∧
    (let p := Map.getD one.mem.ptrs (sliceKey one ln) 0
     ((p + 0) % 43 ∈ [0, 42]) ∧ (p + 42) % 43 ∈ [42] ∧ ∀ j, j < 42 → (p + j) % 43 ∉ [42]) ∧
    (let s := one.updCore 0 fun k => { k with pref := [(ln, 0, 0)] }
     (s.core 0).pref.find? (fun p => p.1 = ln) = some (ln, 0, 0) ∧ homeReady s ln .read = true ∧ hostBiased s ln = false) ∧
    (let s := one.setHome ln { HomeLine.reset with l2 := some ⟨5, true, none, [], 0, 0, []⟩ }
     Map.wf s.mem.home = true ∧ (s.home ln).pins = [] ∧ (s.home ln).sources = [] ∧ ∃ x ∈ (s.home ln).l2, x.dirty = true) ∧
    (let s := one.updMem fun m => { m with prefL2 := [(ln, 0, 0)] }
     s.mem.prefL2.find? (fun p => p.1 = ln) = some (ln, 0, 0) ∧ homeReady s ln .read = true) ∧
    (let s := { State.reset with mem := { State.reset.mem with
       units := [(unitSlice 3 39, { Unit'.reset with retired := true })] } }
     dieIdle s 3 = true ∧ leavingSlices s 3 = [3 * 40 + 39] ∧ ∀ u ∈ [s, s.setHome ln HomeLine.reset],
     (u.mem.home.filter fun p => decide (lineDie p.1 = 3) && (leavingSlices u 3).contains (sliceKey u p.1)).map (·.1) = []) := by
  decide +kernel

/-- CoherenceEvents: a background drain whose turn it is; a line without requests that met; a dirty line that can be read, and
one that cannot. -/
theorem witness_CoherenceEvents_more : coreTurn held 0 (drainList held 0 (held.core 0).ep []) = true ∧
    Map.has one.mem.retry (programBase / 64) = false ∧ rotIndex agentHost = 42 ∧
    (let x : L2Line := ⟨5, true, none, [], 0, 0, []⟩
     x.bad = [] ∧ x.dirty = true ∧ one.l2Read (programBase / 64) { x with bad := [0, 1, 2] } = none) := by decide +kernel
/-! ### Witnesses: chapters 8 to 10 -/

/-- Gang 0 with slot 15 open over its first four sectors, sector 3 absent but for its translation. -/
def sectorOf (v : BitVec 16) (refill : Option (List Notice)) : Sector :=
  { Sector.reset with valid := v, tr := some programLeaf, refill := refill, ln := programBase / 64 }
def slotState (mode : Nat) (v : BitVec 16) (refill : Option (List Notice)) : State :=
  one.updCsm 0 fun c => { c with slots := [(15, ⟨0, 4, 0, mode, 1, 0, [(0, sectorOf v refill)]⟩)] }

/-- LocalStoreAccess: the last bytes of the store, of every width. -/
theorem witness_LocalStoreAccess : one.memWf ∧ one.active fz = [.fib 0] ∧ (one.fib 0).latent = [] ∧
    flagACQ fz = false ∧ flagREL fz = false ∧ ∀ n ∈ [1, 2, 4, 8, 16],
      let c := one.csm (one.gangOf 0)
      let va := 65536 - n
      va % n = 0 ∧ va + n ≤ c.lsize ∧ slotAt c va = none ∧ csmEcc one (one.gangOf 0) va n = (one, true) ∧
      Map.get c.bad (va / 16) = none := by decide +kernel

/-- CasementLanes: two lanes on a word of a slot that is there, which run to their end with acquire and release at .gpu
scope; and one that is missing. -/
theorem witness_CasementLanes :
    let st (v : BitVec 16) : State := { slotState 1 v none with bands := two.bands, fibres := two.fibres }
    (anyFill (csmChecks ⟨4, false, true, true⟩ (memOff fz 0 (st 0)) ((st 0).active fz) (st 0)).2 = true) ∧
    (let s := st (BitVec.allOnes 16)
     let act := s.active fz
     let off := memOff fz 0 s
     closerReady s act = true ∧
     (let x := csmChecks ⟨4, false, true, true⟩ off act s
      anyFill x.2 = false ∧ (match runLanes (ldlLane 4 4 false true 3 off) (fun x => x.1) x.2 x.1 with
        | some (s2, _, _) => (csmEndAcq s2 0 3 x.2).isSome
        | none => false) = true) ∧
     (let x := csmChecks ⟨4, true, true, true⟩ off act s
      anyFill x.2 = false ∧ (match releaseFirst x.1 true 3 act with
        | (s2, true) => (runLanes (stlLane 4 4 s off) (fun x => x.1) x.2 s2).isSome &&
          (match runLanes (atomlLane fz 4 s off) (fun x => x.1) x.2 s2 with
            | some (s3, _, _) => (afterAcquire s3 0).isSome
            | none => false)
        | _ => false) = true)) := by decide +kernel

/-- CasementSlots: a slot that can be opened over the whole store, one already open, one past the store's end; a selection
of an open slot, of all slots, and of one that is closed; a push of a halo slot and of one that is none; a flush with nothing
dirty. -/
theorem witness_CasementSlots : let s := slotState 2 (BitVec.allOnes 16) none
    hnd.active fz = [.fib 0] ∧ openFault (one.csm 0) 15 ⟨0, 1024, 0, 1, 0, 0, []⟩ = none ∧
    openFault (s.csm 0) 15 ⟨0, 1024, 0, 1, 0, 0, []⟩ = some 2 ∧ openFault (one.csm 0) 0 ⟨0, 1025, 0, 1, 0, 0, []⟩ = some 3 ∧
    (selected s 0 15).toOption = some [15] ∧ (selected s 0 16).toOption = some [15] ∧ (selected s 0 14).toOption = none ∧
    pushDone (pushSlots s 0 [15]) 0 = true ∧ (∃ y ∈ Map.get (s.csm 0).slots 15, y.mode = 2) ∧
    (∃ y ∈ Map.get ((slotState 1 0 none).csm 0).slots 15, y.mode ≠ 2) ∧ 15 / 16 % 2 = 0 ∧ 16 / 16 % 2 = 1 ∧
    csmTurn (pushSlots s 0 [15]) 0 = true ∧
    (flushFirst 0 (slotSectors (pushSlots s 0 [15]) 0 [15]) (pushSlots s 0 [15])).any (fun v =>
      (flushSectors 0 (slotSectors (pushSlots s 0 [15]) 0 [15]) v).2.toOption = some ()) = true := by decide +kernel

/-- CasementEvents: a fill that is answered; pushes that match a slot and none; drains. -/
theorem witness_CasementEvents :
    (let s := slotState 1 0 (some [])
     (s.sector 0 15 0).refill = some [] ∧ (sectorTr s 0 15 0 .read).2.toOption = some (programLeaf, programBase) ∧
     let s1 := (sectorTr s 0 15 0 .read).1
     homeReady s1 (programBase / 64) .read = true ∧
     (match homeRead (homeUse s1 (programBase / 64)) (programBase / 64) 0 0 with
       | some (s2, _) => (sectorEcc s2 0 15 0).2
       | none => false) = true) ∧
    one.csmClean ∧
    (let m : PushMsg := ⟨0, 0, 15, 1, true, 0, [(15, 7)], [(0, 9)]⟩
     let put (s : State) : State := s.updCsm 0 fun c => { c with out := [m] }
     ((put one).csm 0).out = [m] ∧ pushTarget ((put one).updCsm 0 fun c => { c with out := [] }) m = none ∧
     pushTarget ((put (slotState 2 0 none)).updCsm 0 fun c => { c with out := [] }) m = some (0, 0)) ∧
    csmTurn one 0 = true ∧ (csmDrain one 0 (one.csm 0).ce none).isSome = true := by decide +kernel

/-- CopyCommands: no active fibre; room in the queue, with seven live batches and with eight; a batch that is open and none. -/
theorem witness_CopyCommands : one.active fz = [.fib 0] ∧ one.active { fz with pg := 0 } = [] ∧
    (copyq one (roleEngine one (.fib 0) 0)).length + (one.active fz).length ≤ 64 ∧
    (let s := { one with copyqs := [(0, List.replicate 63 ⟨9, ⟨.plain, 0, 0, 64, 0, 0, 0, 0, 0, 0, false, 0, false⟩, .batch 0 1⟩)] }
     (copyq s 0).length + (s.active fz).length ≤ 64) ∧
    (∀ n ∈ [7, 8], let s := one.updFib 0 fun f => { f with batches := (List.range n).map fun i => newBatch i 9 false }
      s.drainsNow (s.fibCore 0) = true ∧ (s.fib 0).openBatch 3 = none ∧ (s.fib 0).limited 3 = decide (n = 8)) ∧
    (let s := one.updFib 0 fun f => { f with batches := [newBatch 4 3 false] }
     ∃ b ∈ (s.fib 0).openBatch 3, b.id = 4) := by decide +kernel

/-- CopyPrograms: a guard that is false; a GLD at a page's first word, of the engine's die, at a misaligned address, at a page
that is not mapped, and where the line is lost. -/
theorem witness_CopyPrograms : cop0.focus = .cop 0 ∧ cop0.active fz = [.cop 0] ∧ cop0.active { fz with pg := 0 } = [] ∧
    (pairA fz cop0 (.cop 0) + (0#32).signExtend 64).toNat % 4 = 0 ∧ (pairA fz cop0 (.cop 0) + (2#32).signExtend 64).toNat % 4 ≠ 0 ∧
    (gTr cop0 0 (cop0.privOf (.cop 0)) 0 0x20000 (cop0.pcOf (.cop 0)) .read).2.toOption = none ∧
    let r := gTr cop0 0 (cop0.privOf (.cop 0)) 0 0 (cop0.pcOf (.cop 0)) .read
    r.2.toOption = some (programLeaf, programBase) ∧ homeReady r.1 (programBase / 64) .read = true ∧
    (homeGet (homeUse r.1 (programBase / 64)) programBase 4 0 0).isSome = true := by decide +kernel

/-- Words of the program's page. -/
def put64 (s : State) (l : List (Nat × Nat)) : State := s.updMem fun m =>
  { m with cells := m.cells ++ l.map fun p => (programBase + p.1, BitVec.ofNat 8 p.2) }

/-- A transfer of 64 bytes inside the program's page. -/
def copy64 : Xfer := ⟨.plain, 0x80, 0x40, 64, 0, 0, 0, 0, 0, 0, false, 0, false⟩

/-- What a step of a transfer comes to: moved on, over, or waiting. -/
def kindOf (r : State × MoveRes) : Nat := match r.2 with
  | .more _ => 0
  | .done _ => 1
  | .wait _ => 2

/-- CopyPerforms: a queued command and a posted move whose next line moves; a signal; a chunk of one that is read and
written; an index at its bound; a batch with nothing left, and a Limit one; sources that have waited 4,096 cycles, of a
context (the last) and of the queue, and none. -/
theorem witness_CopyPerforms :
    (let cmd : CopyCmd := ⟨5, copy64, .batch 0 1⟩
     let s := { one with copyqs := [(0, [cmd])] }
     (copyq s 0).find? (fun y => y.id = 5) = some cmd ∧ isMove s 5 = true ∧ nextSource s 0 = some 8 ∧ kindOf (moveNext s 0 5 cmd.x) ≠ 2) ∧
    (let s := setCtx one 7 { Ctx.reset with ops := [.xfer 5 copy64] }
     (ctxOf s 7).ops.find? (fun o => o.id = 5) = some (.xfer 5 copy64) ∧ nextSource s (7 / 8) = some (7 % 8) ∧
     kindOf (moveNext s (7 / 8) 5 copy64) ≠ 2) ∧
    (let s := setCtx one 0 { Ctx.reset with ops := [.sig 5 0x40 1 0 false 0] }
     (ctxOf s 0).ops = [.sig 5 0x40 1 0 false 0] ∧ nextSource s (0 / 8) = some (0 % 8) ∧ let r := gTr s 0 false (0 / 8) 0x40 0 .write
     r.2.toOption = some (programLeaf, programBase + 0x40) ∧ homeOpen r.1 agentCopy ((programBase + 0x40) / 64) .write = true ∧
     (homePut (homeUse r.1 ((programBase + 0x40) / 64)) agentCopy (programBase + 0x40) 4 1 0 0).isSome = true) ∧
    (let m := Moving.start
     copy64.kind = .plain ∧ m.old = [] ∧
     (match copyRead one 0 copy64 (0x40 + BitVec.ofNat 64 m.ofs) (chunk 0x40 0x80 (64 - m.ofs)) with
       | .ok (s1, v) => (copyWrite s1 0 copy64 (0x80 + BitVec.ofNat 64 m.ofs) 64 v).toOption.isSome
       | _ => false) = true) ∧
    (let x : Xfer := { copy64 with kind := .gather, bound := 5, index := 0x40 }
     let s := put64 one [(0x40, 5)]
     Moving.start.ix = none ∧ x.bound ≠ 0 ∧ x.bound ≤ 5 ∧ (match copyRead s 0 x (x.index + BitVec.ofNat 64 (4 * 0)) 4 with
       | .ok (_, ix) => decide (ix = 5)
       | _ => false) = true) ∧
    (∀ limit, let b : Batch' := { newBatch 4 3 limit with sealed := true, pend := 9 }
     let s := one.updFib 0 fun f => { f with batches := [b], pend := [⟨9, [3], [0], [], [], false⟩] }
     (s.fib 0).batches.find? (fun y => decide (y.id = 4) && y.sealed && (y.limit || decide (y.left = 0))) = some b ∧
     (match afterAcquire s (wgOf 0) with
       | some s1 => decide (findPend s1 (.fib 0) 9 = some ⟨9, [3], [0], [], [], false⟩)
       | none => false) = true) ∧
    (let s := { setCtx one 7 { Ctx.reset with ops := [.xfer 5 copy64] } with ready := [(7, 4096)] }
     7 < 9 ∧ sourceReady s 0 7 = true ∧ sourceAged s 0 7 = true ∧ (∀ j, j < 7 → sourceAged s 0 j = false) ∧
     (ctxOf s (0 * 8 + 7)).ops.find? (opReady s (0 * 8 + 7)) = some (.xfer 5 copy64)) ∧
    (let s := { one with copyqs := [(0, [⟨5, copy64, .batch 0 1⟩])], ready := [(8, 4096)] }
     sourceReady s 0 8 = true ∧ sourceAged s 0 8 = true ∧ (∀ j, j < 8 → sourceAged s 0 j = false) ∧
     (copyq s 0).find? (fun y => canMove s 0 y.id y.x) = some ⟨5, copy64, .batch 0 1⟩) := by decide +kernel

/-- A matrix sequencer whose window is the gang's 128 rows, and its engine with a queue. -/
def tile (k : Nat) (keep : Bool) : TSlot := { TSlot.reset with full := true, k := k, keep := keep }
def matQ (q : List MatOp) (slots : Map TSlot) : State :=
  { (mat0.updGang 0 fun g => { g with arows := 128, wins := [(0, 128), (0, 0), (0, 0), (0, 0)] }) with
    mats := [(0, { Mat.reset with queue := q, slots := slots })] }

/-- MatrixIssue: row 0 and 128 rows of the window, slots full and empty; a row that is no multiple of 128; a queue that is
empty, and one of 15 operations. -/
theorem witness_MatrixIssue : let s := matQ [] [(0, tile 32 false), (4, tile 32 false)]
    s.active fz = [.mat 0] ∧ matFull s 0 = false ∧ windowOf s (s.mseq 0).wg = (0, 128) ∧ (srcA fz s (.mat 0)).toNat % 128 = 0 ∧
    0 + 128 ≤ 128 ∧ emptyAtIssue s 0 0 = false ∧ emptyAtIssue s 0 4 = false ∧ emptyAtIssue s 0 3 = true ∧
    (let u := s.wx (.mat 0) 1 127
     (srcA { fz with a := 1 } u (.mat 0)).toNat % 128 ≠ 0) ∧ (s.mat 0).queue = [] ∧
    (let u := matQ (List.replicate 15 (.trel 0)) []
     matFull u 0 = false ∧ (u.mat 0).queue ≠ []) ∧ matFull (matQ (List.replicate 16 (.trel 0)) []) 0 = true ∧
    (let u := s.wx (.mat 0) 1 128
     (srcA { fz with a := 1 } u (.mat 0)).toNat = 128 ∧ 128 % 128 = 0 ∧ (windowOf u (u.mseq 0).wg).2 ≤ 128) := by decide +kernel

/-- MatrixPerforms: an operation of each kind at the head; tiles of one shape and of two; a fetch whose lines are read;
one that has waited for pins up to the limit. -/
theorem witness_MatrixPerforms :
    (let s := matQ [.mma 0 false 0 0 4] [(0, tile 32 true), (4, tile 64 false)]
     (s.mat 0).queue = [.mma 0 false 0 0 4] ∧ matRuns s 0 = true ∧ (tileSlot s 0 0).full = true ∧ (tileSlot s 0 4).full = true ∧
     (tileSlot s 0 0).k ≠ (tileSlot s 0 4).k ∧
     let t := matQ [.mma 0 false 0 0 4] [(0, tile 32 true), (4, tile 32 false)]
     (tileSlot t 0 0).k = (tileSlot t 0 4).k) ∧
    (let s := matQ [.mma 0 false 0 0 4] [(0, tile 32 true)]
     (tileSlot s 0 0).full = true ∧ (tileSlot s 0 4).full = false ∧ (tileSlot (matQ [] []) 0 0).full = false) ∧
    matRuns (matQ [.azero 0 128] []) 0 = true ∧ matRuns (matQ [.ascale 0 1] []) 0 = true ∧ matRuns (matQ [.trel 7] []) 0 = true ∧
    (let s := matQ [.fetch 0 0 0 8 1 false 14 true] []
     matRuns s 0 = true ∧ (0 : Nat) % 8 = 0 ∧ 8 % 8 = 0 ∧ (4 : Nat) % 8 ≠ 0 ∧
     (match readTLine s 0 0 with
       | (s1, .ok x0) => decide (x0.tag = none ∧ 32 * 1 * fmtBits 14 / 8 ≤ 8 ∧
           (tileLines 0 8 (32 * 1 * fmtBits 14 / 8)).length ≤ 256) &&
         (match fetchLines 0 0 0 8 14 none (tileLines 0 8 (32 * 1 * fmtBits 14 / 8)) s1 with
           | (_, .done) => true
           | _ => false)
       | _ => false) = true) ∧
    (let s := (matQ [.fetch 0 0 0 64 1 false 7 true] []).updShare 0 fun h => { h with watchdog := 100 }
     let t := s.updMat 0 fun m => { m with pinWait := 100 }
     (t.share (t.wg (t.mseq 0).wg).share).watchdog ≠ 0 ∧
     min (t.share (t.wg (t.mseq 0).wg).share).watchdog (2 ^ 48) ≤ (t.mat 0).pinWait) := by decide +kernel

/-- AccumulatorAccess: a window of all the gang's rows; the last 16 bytes of its last row. -/
theorem witness_AccumulatorAccess : let s := { matQ [] [] with focus := .band 0 }
    let f : Fields := { fz with a := 1 }
    let u := s.wx (.fib 0) 1 (BitVec.ofNat 32 (127 * 512 + 496))
    s.active fz = [.fib 0] ∧ 0 = leaderOf s (s.gangOf 0) ∧ (s.gang (s.gangOf 0)).arows ≠ 0 ∧
    (let t := (hnd.updBand 0 fun b => { b with batches := [⟨1, 2, 0, 0⟩] }).setFib 1 { Fibre.reset with status := .ready }
     t.active fz = [.fib 1] ∧ 1 ≠ leaderOf t (t.gangOf 1) ∧ (t.fib 1).pend = [] ∧ (t.fib 1).handler = false ∧ t.hasHandler 1 = true) ∧
    (srcA fz s (.fib 0)).toNat < (s.gang (s.gangOf 0)).wgs.length ∧
    (let v := 0x00800000#32
     v.toNat / 4096 % 16 = 0 ∧ v.toNat / 2 ^ 28 = 0 ∧ v.toNat % 4096 ≤ v.toNat / 2 ^ 16 % 4096 ∧
     v.toNat / 2 ^ 16 % 4096 ≤ (s.gang (s.gangOf 0)).arows ∧ v.toNat % 128 = 0 ∧ v.toNat / 2 ^ 16 % 128 = 0) ∧
    u.memWf ∧ u.active f = [.fib 0] ∧ (srcA f u (.fib 0) + 0).toNat % 16 = 0 ∧
    (windowOf u (wgOf 0)).1 ≤ (srcA f u (.fib 0) + 0).toNat / 512 ∧
    (srcA f u (.fib 0) + 0).toNat / 512 < (windowOf u (wgOf 0)).2 := by decide +kernel
/-! ### Witnesses: chapter 11 -/

def key0 : StreamKey := ⟨0, 0, 1, 0⟩
/-- A store packet to the vault's first line, of sequence number n. -/
def pkt (n prev : Nat) (first : Bool) : Packet :=
  ⟨key0, n, prev, first, 0, 2, false, programBase, 0, 0, 0, 0xF, 7, [], [], 0, 0, 0, false, [], [], 0, false, 0, 0, none⟩
def opened : Chan := { Chan.reset with opened := true }
/-- Channel 1 of workgroup 0. -/
def chan1 (x : Chan) : State := { one.setChan 1 x with etlb := Map.put one.etlb (tlbChan 0) [programLeaf] }

/-- ChannelMemory, ChannelCopies: a refusing channel and a handler; an open channel, two lanes that run to their end; a
copy of the last line of a page, and one of length 0; a copy's sequence numbers. -/
theorem witness_ChannelMemory : let s := { chan1 opened with bands := two.bands, fibres := two.fibres }
    let act := s.active fz
    let va (x : Thr) : W64 := pairA fz s x
    closerReady s act = true ∧ (s.chan (chanKey (wgOf 0) 1)).refuses = false ∧
    (chan1 Chan.reset).active fz = [.fib 0] ∧ ((chan1 Chan.reset).chan 1).refuses = true ∧ (chan1 Chan.reset).focus = .band 0 ∧
    (((chan1 Chan.reset).updWg 0 fun w => { w with ctrl := 0x20 }).hasHandler 0 = true) ∧
    (∀ p ∈ [(0, true, true, []), (1, false, true, [4]), (2, true, false, [4]), (3, true, false, [])],
      (match trLanes (if p.2.1 then .write else .read) 4 va act s with
        | (s1, some trs) => match releaseFirst s1 true 3 act with
          | (s2, true) => (runLanes (chLane ⟨1, p.1, 4, p.2.1, p.2.2.1, p.2.2.2, true⟩ fun _ => (0, 0, 0)) (fun x => x.1)
              (trs.map fun x => (x.1, va x.1, x.2)) s2).isSome
          | _ => false
        | _ => false) = true) ∧
    (let s := chan1 opened
     let n := 4
     s.active fz = [.fib 0] ∧ s.active { fz with pg := 0 } = [] ∧ flagREL fz = false ∧ (va (.fib 0)).toNat % n = 0 ∧
     (∀ acc ∈ [Acc.read, .write], (s.trFib 0 (va (.fib 0)) acc).2.toOption = some (programLeaf, programBase)) ∧
     isDev programBase = false ∧ (doorDrain s (s.fibCore 0) programBase).isSome = true) ∧
    (match drainRelease s (s.fibCore 0) with
      | some s1 => (runLanes (copyLane { fz with c := 1 } 1 0 none (s.wx (.fib 0) 1 64)) id act s1).isSome
      | none => false) = true ∧ (∀ x ∈ act, srcC fz s x = 0) ∧
    (let s := (chan1 opened).wx (.fib 0) 1 64
     let g : Fields := { fz with c := 1 }
     let tr (acc : Acc) := (translate s (.eng (tlbChan 0)) 0 (s.asidOf (.fib 0)) (s.privOf (.fib 0)) 0 acc).2.toOption
     s.active g = [.fib 0] ∧ srcC g s (.fib 0) ≠ 0 ∧ tr .write = some (programLeaf, programBase) ∧
     tr .read = some (programLeaf, programBase) ∧ (memDie programBase).isSome = true ∧ (s.chan 1).refuses = false ∧
     (s.chan 1).resetting = false ∧ homePlace s programBase = diePlace s 0 ∧ ¬(2 ^ 24 < (srcC g s (.fib 0)).toNat) ∧
     2 ^ 24 < (srcC g (s.wx (.fib 0) 1 0x1000001) (.fib 0)).toNat) ∧
    (let j : CopyJob := ⟨9, 1, 0, 1, 0, 0, 0x80, 128, 0, false, false, 0, 0, 0, false, [], 0, false, []⟩
     let u := chan1 { opened with queue := [.copy 1 j [0] 2] }
     (u.chan 1).queue = [.copy 1 j [0] 2] ∧ (ensureDests 1 [0] u).2 = true) := by decide +kernel

/-- ChannelOrder: a packet at the head with its destination's entry, one before the limit of outstanding packets; a
destination without an entry, seven being taken; a reset and a close of an idle channel. -/
theorem witness_ChannelOrder :
    (let e : DestEnt := ⟨0, 4, false, 0, 0, false⟩
     let s := chan1 { opened with queue := [.pkt 1 (pkt 0 0 false) []], outst := 65534, dests := [e] }
     (s.chan 1).queue = [.pkt 1 (pkt 0 0 false) []] ∧ (s.chan 1).outst < 65535 ∧ (s.chan 1).dest (pkt 0 0 false).dst = some e ∧
     e.rel = false) ∧
    (let s := chan1 { opened with dests := (List.range 7).map fun i => ⟨i + 1, 0, true, 0, 0, false⟩ }
     (s.chan 1).dest 0 = none ∧ (s.chan 1).dests.length < 8) ∧
    ∀ it ∈ [ChItem.reset 1, .close 1], let s := chan1 { opened with queue := [it] }
      (s.chan 1).queue = [it] ∧ chanIdle s 1 = true := by decide +kernel

/-- ChannelManagement: channel 0 and channel 1, closed, open, broken and being reset; draining with and without an
error, and not yet. -/
theorem witness_ChannelManagement : let broken : Chan := { opened with broken := true }
    one.active fz = [.fib 0] ∧ closerReady one [.fib 0] = true ∧ (chan1 Chan.reset).chan 1 = Chan.reset ∧
    Chan.reset.closing = false ∧ Chan.reset.opened = false ∧ opened.opened = true ∧ opened.closing = false ∧
    opened.broken = false ∧ broken.broken = true ∧ broken.resetting = false ∧
    { broken with queue := [.reset 1] }.resetting = true ∧ { opened with queue := [.close 1] }.closing = true ∧
    opened.refuses = false ∧ broken.refuses = true ∧ Chan.reset.refuses = true ∧
    chanIdle (chan1 opened) 1 = true ∧ opened.queue = [] ∧ opened.ecode = 0 ∧ { broken with ecode := 4 }.ecode ≠ 0 ∧
    chanIdle (chan1 { opened with outst := 1 }) 1 = false ∧ hnd.hasHandler 0 = true := by decide +kernel

/-- A message at die 0, from die 0. -/
def msgAt (m : Msg) (s : State) : State := s.updFab fun f => { f with net := [(9, ⟨0, 0, m, some []⟩)] }
def eng0 (e : ChEng) (s : State) : State := s.setEng 0 e

/-- ChannelArrivals: the first packet of a stream; one in order, at the wrap of the number; a duplicate; one out of order,
with room in the Sash for one more and with none; one of a stream that a reset lost; a NACK; a packet whose NACK came 256
cycles ago. -/
theorem witness_ChannelArrivals :
    (let s := msgAt (.req (pkt 1 0 true)) one
     arrived s 9 = some ⟨0, 0, .req (pkt 1 0 true), some []⟩ ∧ (s.eng 0).stream key0 = none ∧
     (deliver ((takeMsg s 9).updEng 0 fun e => dropStale e key0) 0 (pkt 1 0 true)).isSome = true) ∧
    (let s := eng0 { ChEng.reset with streams := [⟨key0, 2 ^ 24 - 1⟩] } (msgAt (.req (pkt 0 (2 ^ 24 - 1) false)) one)
     (s.eng 0).stream key0 = some (2 ^ 24 - 1) ∧ (pkt 0 (2 ^ 24 - 1) false).prev = 2 ^ 24 - 1 ∧
     (deliver (takeMsg s 9) 0 (pkt 0 (2 ^ 24 - 1) false)).isSome = true) ∧
    (let s := eng0 { ChEng.reset with streams := [⟨key0, 5⟩] } (msgAt (.req (pkt 5 4 false)) one)
     (s.eng 0).stream key0 = some 5 ∧ (pkt 5 4 false).prev ≠ 5 ∧ (seqOlder 5 5 = true ∨ (5 : Nat) = 5)) ∧
    (∀ n ∈ [4095, 4096], let q : Packet := { pkt 9 8 false with key := ⟨0, 1, 1, 0⟩ }
      let s := eng0 { ChEng.reset with streams := [⟨key0, 5⟩], sash := List.replicate n q } (msgAt (.req (pkt 7 6 false)) one)
      (s.eng 0).sash.length = n ∧ (s.eng 0).stream key0 = some 5 ∧ (pkt 7 6 false).first = false ∧ (pkt 7 6 false).prev ≠ 5 ∧
      seqOlder 7 5 = false ∧ (7 : Nat) ≠ 5 ∧ q.key ≠ key0) ∧
    (let s := eng0 { ChEng.reset with lost := [key0] } (msgAt (.req (pkt 1 0 false)) one)
     (s.eng 0).stream key0 = none ∧ (pkt 1 0 false).first = false ∧ key0 ∈ (s.eng 0).lost ∧
     ((eng0 ChEng.reset s).eng 0).lost = [] ∧ pkt 1 0 false ∉ (s.eng 0).sash) ∧
    arrived (msgAt (.nack key0 3) one) 9 = some ⟨0, 0, .nack key0 3, some []⟩ ∧
    (let x : Sent := ⟨pkt 3 2 false, 1, 0, 1, [], some 0, []⟩
     let s := { eng0 { ChEng.reset with sent := [x] } one with cycle := 256 }
     (s.eng 0).sent.find? (fun y => decide (y.p.key.handle = 1 ∧ y.p.seq = 3) && s.passed 256 y.nackAt) = some x) := by
  decide +kernel

/-- ChannelAnswers: an acknowledgement of a packet and of none; completion without an error and with one; a release of
a stream that ends there and of none; its answer; a peer to resynchronise with, and the messages of it; a peer without
a path for 2^24 cycles. -/
theorem witness_ChannelAnswers : let x : Sent := ⟨pkt 3 2 false, 1, 0, 1, [], none, []⟩
    let s := eng0 { ChEng.reset with sent := [x], streams := [⟨key0, 3⟩], resync := [0], noPath := [(0, 0)] }
      { chan1 { opened with outst := 1, rels := [(key0, 0)], dests := [⟨0, 3, false, 0, 0, true⟩] } with cycle := 2 ^ 24 }
    (arrived (msgAt (.ack key0 3 0 .bare 0 []) s) 9).isSome = true ∧
    ((msgAt (.ack key0 3 0 .bare 0 []) s).eng 0).sent.find? (fun y => decide (y.p.key = key0 ∧ y.p.seq = 3)) = some x ∧
    (∀ err ∈ [0, 4], (complete (takeMsg (msgAt (.ack key0 3 err .bare 0 []) s) 9) 0 x err 0 []).isSome = true) ∧
    (∀ y ∈ (s.eng 0).sent, y.p.key = key0 → y.p.seq ≠ 4) ∧ x.ret = [] ∧ x.p.pkop ≠ 7 ∧ Map.has s.chans x.chan = true ∧
    (arrived (msgAt (.release key0 3) s) 9).isSome = true ∧ (s.eng 0).stream key0 = some 3 ∧ (one.eng 0).stream key0 = none ∧
    (arrived (msgAt (.releaseAck key0) s) 9).isSome = true ∧ (s.chans.find? fun c => c.2.rels.contains (key0, 0)).isSome = true ∧
    0 ∈ (s.eng 0).resync ∧ (arrived (msgAt (.resync [key0]) s) 9).isSome = true ∧
    (arrived (msgAt (.resyncAns [(key0, some 3)]) s) 9).isSome = true ∧
    (∀ y ∈ (s.eng 0).sent, goesTo y.p 0 = true ∧ y.ret = []) ∧
    (resyncAll 0 0 [(key0, some 3)] ((s.eng 0).sent.filter fun y => goesTo y.p 0)
      (takeMsg (msgAt (.resyncAns [(key0, some 3)]) s) 9)).isSome = true ∧
    (∃ c ∈ Map.get (s.eng 0).noPath 0, c + 2 ^ 24 ≤ s.cycle) ∧ (∀ y ∈ (s.eng 0).sent, y.p.dst = 0 ∧ y.p.scope < 2) ∧
    (completeAll 0 4 ((s.eng 0).sent.filter fun y => y.p.dst = 0) s).isSome = true := by decide +kernel

/-- ChannelCopyLines: the last line of a copy that has stopped, and of ones that are sent and that meet an error; one whose
ends overlap, with a line to read and with all read; a chain's
acknowledgement; a target without a path for 2^24 cycles; a remote fetch from another package, from a die that serves it,
does not hold the address, refuses it, and must ask the host, and one whose path is lost; an answer, asked for and not. -/
theorem witness_ChannelCopyLines :
    (let r : Nat × List ChainEnt := (4, [])
     let j : CopyJob := ⟨9, 1, 0, 1, 0, 0x40, 0x80, 128, 0, false, false, 0, 0, 0, false, [r, (5, [])], 0, true, [(pkt 3 2 false, [])]⟩
     j.whole = true ∧ j.stop = 0 ∧ j.resv[j.formed.length]? = some (5, []) ∧
     ¬({ j with resv := [r] }.formed.length < { j with resv := [r] }.resv.length) ∧ j.formed = (pkt 3 2 false, []) :: []) ∧
    (∀ stop ∈ [0, 2], let j : CopyJob := ⟨9, 1, 0, 1, 0, 0, 0x80, 64, 0, false, false, 0, 0, 0, false, [(4, [])], stop, false, []⟩
      let s := eng0 { ChEng.reset with jobs := [j] } (chan1 { opened with outst := 65534 })
      (s.eng 0).jobs.find? (fun y => y.id = j.id) = some j ∧ j.resv = [(4, [])] ∧ (s.chan j.chan).outst < 65535 ∧
      (jobLine s j 0 4 []).2.toOption.isSome = true ∧
      (match (jobLine s { j with dst := 0x10000 } 0 4 []).2 with
        | .error code => decide (code ≠ 0)
        | .ok _ => false) = true) ∧
    arrived (msgAt (.hopAck key0 3 0) one) 9 = some ⟨0, 0, .hopAck key0 3 0, some []⟩ ∧
    (let s := { eng0 { ChEng.reset with kept := [(pkt 3 2 false, 0, some 0)] } one with cycle := 2 ^ 24 }
     (s.eng 0).kept.find? (fun y => decide (y.1.key.handle = 1 ∧ y.1.seq = 3) && s.passed (2 ^ 24) y.2.2) =
       some (pkt 3 2 false, 0, some 0)) ∧
    (let far : NetMsg := ⟨0, 16, .fetch 0 0 0 0 0, none⟩
     let s := { (one.updFab fun f => { f with net := [(9, far)] }) with cycle := 2 ^ 24 }
     let lost := eng0 { ChEng.reset with noPath := [(16, 0)] } s
     Map.get s.fab.net 9 = some far ∧ (16 : Nat) / 16 ≠ s.fab.pkgid ∧ choosePath s 0 16 = none ∧ pathLost s 0 16 = false ∧
     pathLost lost 0 16 = true ∧ (0 : Nat) / 16 = s.fab.pkgid) ∧
    (let s := msgAt (.fetch 160 programBase 0 0 programBase) one
     (0 : Nat) / 16 = s.fab.pkgid ∧ (Map.get s.fab.net 9).any (fun m => m.path.isSome) = true ∧
     homeRefuses s 0 0 programBase 0 = false ∧ homeRefuses s 0 0 0x1000000000 0 = true ∧
     homeRefuses (s.setLd 0 { Ld.reset with tdi := .locked }) 0 1 programBase 0 = true ∧ homeReady s (programBase / 64) .read = true ∧
     homeReady (s.updMem fun m => { m with bias := [(pageOf (programBase / 64), 1)] }) (programBase / 64) .read = false ∧
     (homeRead (homeUse (takeMsg s 9) (programBase / 64)) (programBase / 64) 0 0).isSome = true) ∧
    (let s := (msgAt (.block 0 programBase 0 7) one).updFab fun f => { f with fetches := [(0, programBase / 32)] }
     arrived s 9 = some ⟨0, 0, .block 0 programBase 0 7, some []⟩ ∧ (0, programBase / 32) ∈ s.fab.fetches ∧ icDie 0 = 0 % 16) := by
  decide +kernel

/-! ### Witnesses: chapter 14 -/

/-- Circuits: an entry of each state; one set up for 20 µs and one for less; nothing on the circuit in flight; a packet kept
that went over the circuit. -/
theorem witness_Circuits : let c (st : Nat) : Circ := ⟨BitVec.ofNat 64 (st * 2 ^ 45), 0⟩
    (∀ st ∈ [0, 1, 2, 3, 4], (c st).st = st) ∧ (255 : Nat) < 256 ∧
    (let s := { one.setCirc 255 (c 1) with timeNs := 20000 }
     (s.circ 255).st = 1 ∧ (s.circ 255).since + 20000 ≤ s.timeNs.toNat) ∧
    (let s := { one.setCirc 255 (c 1) with timeNs := 19999 }
     (s.circ 255).st = 1 ∧ s.timeNs.toNat < (s.circ 255).since + 20000) ∧ (∀ p ∈ one.fab.net, usesCirc p.2 255 = false) ∧
    (let x : Sent := ⟨pkt 3 2 false, 1, 0, 1, [], none, [255]⟩
     let s := (eng0 { ChEng.reset with sent := [x] } one).setCirc 255 (c 2)
     (s.circ 255).st = 2 ∧ s.fab.pkgid < 4096 ∧ x ∈ (s.eng 0).sent ∧ x.path.contains 255 = true) := by decide +kernel

/-- A port with packets received, of a package with RC_SPILL on. -/
def port5 (p : Port) : State := (one.updPort 5 fun _ => p).updFab fun f => { f with rcSpill := 1 }
def upPort : Port := { Port.reset with stat := 0x0004200100000000#64 }

/-- ReliableConnections: a packet in order, at the wrap of its number, with the last room for its peer; the one 256 beyond it;
one of a later incarnation and of an older one; a reserved one; one for another package; an acknowledgement, of this
connection and of another; arrivals at a failed connection over a port of its route and of none; a packet sent 10 µs ago; a
connection 2^24 cycles without one. -/
theorem witness_ReliableConnections :
    (let w : WirePkt := ⟨0, 2, 16, 0, .req (pkt 1 0 true)⟩
     let s := ((port5 { upPort with rxq := [w] }).updRc 16 fun r => { r with cum := 2 ^ 32, conn := 2 }).updFab fun f =>
       { f with rcSram := (List.range 1023).map (· + 100) }
     (s.port 5).rxq = [w] ∧ (w.dst < 65536 ∧ w.dst / 16 = s.fab.pkgid ∧ rcOpen s w.src = true) ∧ s.fab.rcSram.length < 1024 ∧
     (s.rc 16).failed = false ∧ w.conn = (s.rc 16).conn ∧ w.rcseq = (s.rc 16).cum % 2 ^ 32 ∧ (s.rc 16).beyond = [] ∧
     (∀ pkg ∈ [0, 1], ∀ off ∈ [0], decodePa programBase ≠ .peer pkg off) ∧
     (s.rc 16).conn < { w with conn := 3 }.conn ∧ { w with conn := 1 }.conn < (s.rc 16).conn ∧
     256 ≤ (256 + 2 ^ 32 - (s.rc 16).cum % 2 ^ 32) % 2 ^ 32) ∧
    (let w : WirePkt := ⟨0, 0, 16, 16, .reserved⟩
     ((port5 { upPort with rxq := [w] }).port 5).rxq = [w] ∧ w.dst / 16 ≠ one.fab.pkgid) ∧
    (let w : WirePkt := ⟨0, 0, 16, 0, .rcAck 1 []⟩
     let s := port5 { upPort with rxq := [w] }
     (s.port 5).rxq = [w] ∧ w.conn = (s.rc 16).conn ∧ (s.rc 16).failed = false ∧ { w with conn := 1 }.conn ≠ (s.rc 16).conn) ∧
    (let w : WirePkt := ⟨0, 0, 16, 0, .rcAck 1 []⟩
     let s := (port5 { upPort with rxq := [w] }).updRc 16 fun r => { r with failed := true }
     let t := s.updFab fun f => { f with routes := [(1, 0x100000020#64)] }
     (t.rc 16).failed = true ∧ w.conn = (t.rc 16).conn ∧ (Map.getD t.fab.routes (routeIndex w.src) 0).getLsbD 32 = true ∧
     (Map.getD t.fab.routes (routeIndex w.src) 0).getLsbD 5 = true ∧ (t.port 5).up = true ∧
     (Map.getD s.fab.routes (routeIndex w.src) 0).getLsbD 32 = false ∧ 5 ∈ routePorts t 16 ∧ routePorts s 16 = [] ∧
     4 ∉ routePorts t 16) ∧
    (let w : WirePkt := ⟨4, 0, 0, 16, .req (pkt 1 0 true)⟩
     let s := { (port5 upPort).updRc 16 fun r => { r with unack := [(w, 0)] } with timeNs := 10000, cycle := 2 ^ 24 }
     let t := s.updFab fun f => { f with routes := [(routeIndex 16, 0x100000020#64)] }
     (Map.getD t.fab.rcs 1 Rc.reset).unack.find? (fun x => x.1.rcseq = 4) = some (w, 0) ∧ 0 + 10000 ≤ t.timeNs.toNat ∧
     5 ∈ routePorts t 16 ∧ (Map.getD t.fab.rcs 1 Rc.reset).unack ≠ [] ∧ (Map.getD t.fab.rcs 1 Rc.reset).failed = false ∧
     (Map.getD t.fab.rcs 1 Rc.reset).lastAck + 2 ^ 24 ≤ t.cycle ∧ w.src < 65536 ∧ w.src / 16 = t.fab.pkgid) := by decide +kernel

/-- Flits: an up port with a flit to resend, with control, with packets, idle; one before its counter's limit and at it,
with the other slot loaded and not; a flit in order, a key switch, one that fails once and twice; acknowledgements with
and without a slot to release; a port whose next key has been missing for 2^20 cycles. -/
theorem witness_Flits : let fl (n k : Nat) : Flit := ⟨n, 0, k, 1, [], [], 0⟩
    let s := port5 upPort
    (s.port 5).up = true ∧ ((port5 { upPort with resend := [fl 0 0] }).port 5).resend = [fl 0 0] ∧ nextOut s 5 = none ∧
    upPort.resend = [] ∧ upPort.unack.length < 1024 ∧ upPort.ctr + 1 < upPort.limit ∧ upPort.ctl = [] ∧ upPort.txq = [] ∧
    { upPort with ctl := [(true, 0)] }.ctl ≠ [] ∧ { upPort with txq := [⟨0, 0, 16, 0, .reserved⟩] }.txq ≠ [] ∧
    (let p : Port := { upPort with ctr := upPort.limit - 1 }
     p.ctr + 1 = p.limit ∧ p.relSlot = none ∧ p.txvalid (1 - p.txslot) = false ∧
     (p.setTx (1 - p.txslot) 1).txvalid (1 - p.txslot) = true ∧ (p.setTx (1 - p.txslot) 1).ctr + 1 = (p.setTx 1 1).limit) ∧
    (upPort.rxSeq = 0 ∧ upPort.rxvalid 0 = false ∧ (upPort.setRx 0 1).rxvalid 0 = true ∧ 1 % 2 ≠ upPort.rxslot ∧
      upPort.failed = false ∧ { upPort with failed := true }.failed = true) ∧
    (let w : WirePkt := ⟨4, 0, 0, 16, .req (pkt 1 0 true)⟩
     let p : Port := { upPort with failed := true, unack := [⟨0, 0, 0, 1, [w], [], 0⟩] }
     w ∈ p.carried ∧ w.src < 65536 ∧ w.src / 16 = one.fab.pkgid) ∧
    (let p : Port := { upPort with unack := [fl 0 0, fl 1 1], relSlot := some 0 }
     p.unack.findIdx? (fun x => x.lseq = 0) = some 0 ∧ (∀ x ∈ p.unack.drop 1, x.kslot ≠ 0) ∧
     (∃ x ∈ p.unack.drop 1, x.kslot = 1)) ∧
    (let t := { port5 { upPort with starve := some 0 } with cycle := 2 ^ 20 }
     (t.port 5).starve = some 0 ∧ 0 + 2 ^ 20 ≤ t.cycle) := by decide +kernel

/-- PortsAndTime: a trained port that is down, one that is up, the last port; a failed connection whose route uses it; a slot
that is loaded and one that is not; a time source and the parent port. -/
theorem witness_PortsAndTime : let p : Port := ((({ Port.reset with stat := setField Port.reset.stat 39 39 1 }).setTx 0 1).setRx 0 1)
    (31 : Nat) < 32 ∧ p.en = true ∧ p.up = false ∧ p.txvalid 0 = true ∧ p.rxvalid 0 = true ∧ upPort.up = true ∧ (1 : Nat) < 2 ∧
    (upPort.txvalid 1 = false ∧ upPort.rxvalid 1 = false ∧ p.txvalid 0 = true) ∧
    (let s := (one.updRc 16 fun r => { r with failed := true }).updFab fun f => { f with routes := [(1, 0x100000020#64)] }
     Map.wf s.fab.rcs = true ∧ (Map.getD s.fab.rcs 1 Rc.reset).failed = true ∧ (Map.getD s.fab.routes 1 0).getLsbD 32 = true ∧
     (Map.getD s.fab.routes 1 0).getLsbD 5 = true) ∧
    ({ port5 upPort with host := { HostSt.reset with phase := 1 } } : State).host.phase = 1 ∧
    (let s := (port5 upPort).updFab fun f => { f with timeCtl := 0x52 }
     (s.fab.timeCtl.extractLsb' 0 2).toNat = 2 ∧ (s.fab.timeCtl.extractLsb' 4 5).toNat = 5 ∧ (s.port 5).up = true) := by
  decide +kernel
/-! ### Witnesses: chapter 13 -/

/-- The front end of die 0 Ready, its TLB over the program's page. -/
def front : State := { one.setFe 0 { Fe.reset with st := 1, en0 := 0xFF } with etlb := Map.put one.etlb (tlbFe 0) [programLeaf] }

/-- Words as bytes, the zero ones left out: a kernel descriptor at 0x1000 and a die group of this die at 0x800: one workgroup of one fibre. -/
def descWords : List (Nat × Nat) := [(0x1000, 0x70000000001), (0x1010, 8), (0x1020, 1 + 2 ^ 32), (0x1028, 1 + 2 ^ 38),
  (0x1030, 1 + 2 ^ 11 + 2 ^ 22 + 31 * 2 ^ 38)]
def packetWords : List Nat := [0x401, 0x1000, 0, 0, 1 + 2 ^ 32, 1 + 2 ^ 38, 1 + 2 ^ 11 + 2 ^ 22, 2 ^ 32, 0x800, 0, 77]
def launchBytes : List (Nat × Nat) :=
  [(0x7F3, 240), (0x801, 16), (0x1000, 1), (0x1005, 7), (0x1010, 8), (0x1020, 1), (0x1024, 1), (0x1028, 1),
   (0x102C, 64), (0x1030, 1), (0x1031, 8), (0x1032, 64), (0x1034, 192), (0x1035, 7)]
def packetBytes : List (Nat × Nat) :=
  [(0x0, 1), (0x1, 4), (0x9, 16), (0x20, 1), (0x24, 1), (0x28, 1), (0x2C, 64), (0x30, 1), (0x31, 8), (0x32, 64),
   (0x3C, 1), (0x41, 8), (0x50, 77)]
def withLaunch (s : State) : State := put64 s launchBytes
def packet : List W64 := (packetWords ++ List.replicate 21 0).map (BitVec.ofNat 64)

/-- Queue 63 of die 0, enabled and Idle, with the given bytes of packets from its slot 0 on. -/
def queue63 (slots : Nat) (l : List (Nat × Nat)) : State := (put64 front l).setQueue 63
  { Queue.reset with base := BitVec.ofNat 64 programBase, ctl := 0x20000041, widx := BitVec.ofNat 32 slots }
def isPkt (r : State × Pkt) (ty : Nat) (order : Bool) : Bool :=
  match r with
  | (_, .pkt t o _) => decide (t = ty) && decide (o = order)
  | _ => false

def isBegun (b : Begun) : Bool := match b with
  | .begun _ _ => true
  | _ => false
def isRefused (b : Begun) : Bool := match b with
  | .refused _ => true
  | _ => false

/-- QueuePackets: each type of packet at the head, in order too; a launch that begins and one that is refused; a packet
whose type is one beyond the last; a packet that cannot be read; a WAITVALUE that waits. -/
theorem witness_QueuePackets :
    isPkt (nextPacket (queue63 1 [(0x1, 1)]) 63) 0 false = true ∧ isPkt (nextPacket (queue63 1 [(0x1, 17)]) 63) 0 true = true ∧
    queueBusy (queue63 1 [(0x1, 17)]) 63 = false ∧
    (let s := withLaunch (queue63 4 packetBytes)
     isPkt (nextPacket s 63) 1 false = true ∧
     (match nextPacket s 63 with
       | (s1, .pkt _ _ ws) => isBegun (beginLaunch s1 0 ⟨.queue 63, 0, false, 0⟩ ws) &&
           isRefused (beginLaunch s1 0 ⟨.queue 63, 0, false, 0⟩ (ws.set 8 0x7F0))
       | _ => false) = true) ∧
    (let s := queue63 1 [(0x0, 2), (0x1, 1), (0x8, 64), (0x18, 4)]
     isPkt (nextPacket s 63) 2 false = true ∧ feRuns s 0 = true ∧ (s.queue 63).body = [] ∧
     (bodyWord ([0x102, 0x40, 0, 4].map (BitVec.ofNat 64)) 3).toNat ≤ 4) ∧
    (let s := queue63 1 [(0x0, 3), (0x1, 1), (0x8, 64), (0x10, 5), (0x18, 1)]
     isPkt (nextPacket s 63) 3 false = true ∧
     (signalNow s (qCtx s 63) ([0x103, 0x40, 5, 1].map (BitVec.ofNat 64))).2.toOption = some () ∧
     (signalNow s (qCtx s 63) ([0x103, 0x40, 5, 2].map (BitVec.ofNat 64))).2.toOption = none) ∧
    (let s := queue63 1 [(0x0, 4), (0x1, 1)]
     isPkt (nextPacket s 63) 4 false = true ∧ ((31 : Nat) / 1024 = 0 ∧ 31 / 32 % 8 = 0) ∧ ¬((32 : Nat) / 1024 = 0 ∧ 32 / 32 % 8 = 0)) ∧
    (let s := queue63 1 [(0x0, 5), (0x1, 1)]
     (match nextPacket s 63 with
       | (_, .bad e) => decide (e = 3)
       | _ => false) = true ∧ qEn (s.queue 63).ctl = true ∧ (s.queue 63).disabling = false ∧ qState (s.queue 63).ctl = 1 ∧
     (s.queue 63).widx ≠ (s.queue 63).ridx ∧ (s.queue 63).cur = none ∧
     ((readSlots 0 (s.queue 63) 1 (s.queue 63).ridx s).2.toOption.map fun a => (a.getD 0 0).toNat) = some 0x105) ∧
    (let b := [0x102, 0x40, 0, 0].map (BitVec.ofNat 64)
     let s := front.setQueue 63 { Queue.reset with body := b }
     let c : FeCtx := ⟨63 / 64, (s.queue 63).bodyAsid, (s.queue 63).bodyPriv⟩
     (s.queue 63).body ≠ [] ∧ (condNow s c b).2.toOption = some true ∧
     (condNow s c ([0x102, 0x40, 1, 0].map (BitVec.ofNat 64))).2.toOption = some false ∧ bodyWord b 4 = 0 ∧
     (match (condNow s c ([0x102, 0x41, 1, 0].map (BitVec.ofNat 64))).2 with
       | .error (.err _) => true
       | _ => false) = true) := by
  decide +kernel

/-- A launch of one gang as share 16 of die 0, that has come as far as `phase`. -/
def launch1 (phase : Phase) : Launch :=
  { Launch.new ⟨.queue 63, 0, false, 0⟩ packet with
    desc := (List.range 224).map fun i => BitVec.ofNat 64 (((descWords.find? fun p => p.1 = 0x1000 + 8 * i).map (·.2)).getD 0)
    group := [(0, 0)], phase := phase, formats := true }
def launched (l : Launch) : State := (withLaunch front).setLaunch 16 l |>.setShare 16 { Share.reset with launch := 1, quads := [0] }

/-- LaunchAdmission: format regions with none asked for; dispatch at START itself, before it, and after a reservation;
each message; one that has had no path for 2^24 cycles. -/
theorem witness_LaunchAdmission :
    (let l := { launch1 .waiting with formats := false }
     let s := launched l
     s.launch 16 = some l ∧ feRuns s (16 % 16) = true ∧ l.fmts.length ≤ (freeRegions s 0).length ∧
     (lThen (takeRegions l 16 0 ((freeRegions s 0).zip l.fmts) s) fun s1 _ =>
        lateChecks l 16 0 (s1.share 16).dieIndex (s1.updLaunch 16 fun x => { x with formats := true })).2.toOption = some () ∧
     (let t := s.updShare 16 fun h => { h with quads := [] }
      match lThen (takeRegions l 16 0 ((freeRegions t 0).zip l.fmts) t) fun s1 _ =>
        lateChecks l 16 0 (s1.share 16).dieIndex (s1.updLaunch 16 fun x => { x with formats := true }) with
      | (s1, .error (.refuse st rs dt)) => (refuseShare s1 16 st rs dt).isSome
      | _ => false) = true) ∧
    (let l := launch1 .waiting
     let s := launched l
     s.launch 16 = some l ∧ l.formats = true ∧ l.start ≤ s.timeNs ∧ l.coop = 0 ∧
     { launch1 .waiting with words := packet.set 5 (BitVec.ofNat 64 (1 + 3 * 2 ^ 35 + 2 ^ 38)) }.coop = 3 ∧
     s.timeNs < { launch1 .waiting with words := packet.set 3 1 }.start) ∧
    (∀ kind ∈ [0, 1, 2, 3], let l := launch1 .whole
      let s := msgAt (.coord ⟨kind, 77, 0⟩) (launched l)
      (coordMsg s 9 kind).map (fun p => (p.1, p.2.1)) = some (⟨kind, 77, 0⟩, 16) ∧ l.phase = .whole ∧
      (abandonAll (takeMsg s 9) 16 l).isSome = true ∧ (abandonShare (takeMsg s 9) 16).isSome = true) ∧
    (let l := launch1 .whole
     let s := (eng0 { ChEng.reset with noPath := [(17, 0)] } (launched l)).updFab fun f =>
       { f with net := [(9, ⟨0, 17, .coord ⟨1, 77, 0⟩, none⟩)] }
     let t := { s with cycle := 2 ^ 24 }
     (0 : Nat) / 16 = t.fab.pkgid ∧ choosePath t 0 17 = none ∧ Map.get (t.eng (0 % 16)).noPath 17 = some 0 ∧
     0 + 2 ^ 24 ≤ t.cycle ∧ (0 : Nat) < 65536 ∧ (shareById t (0 % 16) 77).map (·.1) = some 16 ∧ (abandonAll (takeMsg t 9) 16 l).isSome = true) := by
  decide +kernel

/-- GangPlacements: a root gang, and a formed group of node 0 with a record, each with addresses that may be used. -/
theorem witness_GangPlacements :
    (let s := launched (launch1 .begun)
     (match pickWork s 0 with
       | some (k, l, .gang g, p, _, _) => decide (k = 16 ∧ g = 0) && keyLoaded s 0 0 &&
         (forAll coreFenceAcquire (p.wgs.map fun c => p.quad * 4 + c.1) s).isSome &&
         addressesOk s p.quad (s.share k).psize l.xregs [] ((l.gangWgs g).map fun _ => bandsFor l.wgSize)
           [programBase + 0x100000] [hbmBase 0] &&
         (startGang s k l p (BitVec.ofNat 64 g) [programBase + 0x100000] [hbmBase 0] 0 ((l.gangWgs g).map (rootWg l))).isSome
       | _ => false) = true) ∧
    (let q : Proofer := { Proofer.reset with nodes := [⟨1, 0, 1, false, 16, 32⟩], base := 0x4000, size := 0x1000,
                                             slots := [⟨0x4000, 0, 0, .grouped 5, 1⟩], groups := [⟨5, 0, [0x4000]⟩] }
     let s := (launched (launch1 .begun)).setStage 16 q
     (match pickWork s 0 with
       | some (k, l, .group id, p, _, _) => decide (k = 16 ∧ id = 5) &&
         (forAll coreFenceAcquire (p.wgs.map fun c => p.quad * 4 + c.1) s).isSome &&
         (match (s.stage k).groups.find? fun y => y.id = id with
           | some x => addressesOk s p.quad (s.share k).psize l.xregs [] [bandsFor ((s.stage k).groupSize x.node)]
               [programBase + 0x100000] [hbmBase 0] &&
             (startGang s k l p (BitVec.allOnes 64) [programBase + 0x100000] [hbmBase 0] 0 [nodeWg (s.stage k) x]).isSome
           | none => false)
       | _ => false) = true) := by decide +kernel

/-- ShareEnds: with its one gang placed and gone, with a trap, ended without one, and killed; the LAUNCH_ID of an ending trap; the
largest values of the fields. -/
theorem witness_ShareEnds :
    (let l := { launch1 .begun with next := 1 }
     let s := launched l
     s.launch 16 = some l ∧ feRuns s (16 % 16) = true ∧ (s.share 16).trap = none ∧ gangsOf s 16 = [] ∧
     l.shareGangs (s.share 16).dieIndex l.group.length ≤ l.next ∧ stageDone s 16 = true ∧
     (finishShare s 16 none 1 0 0).isSome = true) ∧
    (let l := { launch1 .ended with status := 5, reason := 1 }
     let s := launched l
     l.phase = .ended ∧ (finishShare s 16 none l.status l.reason l.detail).isSome = true ∧
     (launch1 .killed).phase = .killed ∧
     ((discardShare s 16 .kill).bind fun u => finishShare u 16 none l.status l.reason l.detail).isSome = true) ∧
    (let tr : TrapEnd := ⟨0, 16, 39, 3, 31, false, 0, 0, 0⟩
     let s := (launched (launch1 .begun)).updShare 16 fun h => { h with trap := some tr }
     (s.share 16).trap = some tr ∧
     ((discardShare s 16 .kill).bind fun u => finishShare u 16 (some tr) 2 0 0).isSome = true ∧ tr.quad < 64) ∧
    (let s := msgAt (.coord ⟨4, 77, 0⟩) (launched (launch1 .begun))
     (coordMsg s 9 4).isSome = true ∧ ((discardShare (takeMsg s 9) 16 .kill).bind fun u => finishShare u 16 none 6 0 0).isSome = true) ∧
    (255 : Nat) < 256 ∧ (15 : Nat) < 16 := by decide +kernel

/-- Graph 31 of die 0, running at a node of the given words. -/
def graph31 (l : List Nat) (w : NodeWait) : State := withLaunch (front.setGraph 31
  { Graph.reset with ctl := 5, nodes := [l.map (BitVec.ofNat 64)], wait := w })

/-- GraphNodes: a node of each type, whose END bit is set, before and after what it waits for; one beyond the last type. -/
theorem witness_GraphNodes : feRuns front 0 = true ∧
    (let s := graph31 [0x8008] .none
     grRun (s.graph 31).ctl = true ∧ (s.graph 31).wait = .none ∧ (s.graph 31).malformed (s.graph 31).cur = true) ∧
    (∀ ty ∈ [1, 2, 3, 4, 5, 6, 7], let s := graph31 [0x8000 + ty] .none
      (s.graph 31).bad = [] ∧ (s.graph 31).malformed (s.graph 31).cur = false ∧ nodeType (s.graph 31).cur = ty) ∧
    (let bad (l : List Nat) : Graph := { (graph31 [0x8004] .none).graph 31 with bad := [(15, l)] }
     15 / 16 = (bad [0]).node ∧ 2 ≤ [0, 17].length ∧ [17].length < 2 ∧ nodeType (bad [17]).cur = 4 ∧ (bad [0, 17]).lost = true ∧
     (bad [17]).lost = false) ∧
    (let s := graph31 ((0x8001 : Nat) :: packetWords.drop 1) .none
     isBegun (beginLaunch s 0 ⟨.graph 31, 0, false, 0⟩ (s.graph 31).cur) = true) ∧
    (let s := graph31 [0x808001] (.launch 32)
     (s.graph 31).wait = .launch 32 ∧ nodeWaitDone (s.graph 31).cur = true ∧ (s.launch 32).isNone = true ∧
     nodeWaitDone [0x8001#64] = false ∧ dispatched s 32 = true) ∧
    (let s := graph31 [0x8002, 0x80, 0x40, 64] .none
     (copyq s (0 * 4 + (bodyWord (s.graph 31).cur 3).toNat / 2 ^ 32)).length < 64 ∧
     let t := { graph31 [0x8002] (.copy 5) with nodeDone := [(31, 0)] }
     (t.graph 31).wait = .copy 5 ∧ t.nodeDone.find? (fun d => d.1 = 31) = some (31, 0)) ∧
    (let c : FeCtx := ⟨0, 0, false⟩
     (condNow front c [3, 0x40, 0, 0]).2.toOption = some true ∧ (condNow front c [3, 0x40, 1, 0]).2.toOption = some false ∧
     (signalNow front c [6, 0x40, 5, 0]).2.toOption = some () ∧ (armNow front 0 [7, 31]).isSome = true) ∧
    (let s := { graph31 [0x8003, 0x40, 0, 0, 100] (.value 0) with timeNs := 100 }
     (s.graph 31).wait = .value 0 ∧ bodyWord (s.graph 31).cur 4 ≠ 0 ∧ 0 + (bodyWord (s.graph 31).cur 4).toNat ≤ s.timeNs.toNat) ∧
    grLatch Graph.reset.ctl = false ∧ (255 : Nat) < 256 := by decide +kernel

/-- FrontEndPair: the last die, Ready, before any mismatch, long after one, and 10 s after one, unbound, and bound with a page in
host bias. -/
theorem witness_FrontEndPair : let s := State.reset.setFe 15 { Fe.reset with st := 1, mismatch := some 5 }
    (15 : Nat) < 16 ∧ (s.fe 15).st = 1 ∧ (s.fe 15).mismatch = some 5 ∧
    5 + 10000000000 < { s with timeNs := 10000000006 }.timeNs.toNat ∧
    { s with timeNs := 10000000005 }.timeNs.toNat ≤ 5 + 10000000000 ∧
    (s.ld 15).flip = none ∧ (s.ld 15).ending = none ∧ (s.ld 15).port = none ∧ s.hostPages 15 = [] ∧
    (let t := (s.setLd 15 { Ld.reset with port := some 1 }).updMem fun m => { m with bias := [(diePage 15 0, 1)] }
     (t.ld 15).port ≠ none ∧ t.hostPages 15 ≠ [] ∧ (t.ld 15).flip = none ∧ (t.ld 15).ending = none) := by decide +kernel
/-! ### Witnesses: chapter 12 -/

/-- A pool of two nodes of one-record groups, the second recursive to depth 63, with one shared slot; the same with every
slot taken. -/
def pool : Proofer := { Proofer.reset with
  nodes := [⟨1, 0, 1, false, 16, 1⟩, ⟨1, 0, 63, true, 16, 1⟩], base := 0x4000, size := 0x30 }
def fullPool : Proofer := { pool with
  slots := [⟨0x4000, 0, 0, .reserved 0, 1⟩, ⟨0x4010, 1, 0, .reserved 0, 1⟩, ⟨0x4020, 0, 0, .reserved 0, 1⟩] }
def staged (p : Proofer) : State := { hnd with stages := [(0, p)] }

/-- A grant that fits, wherever it is put. -/
theorem grant_fits : (recGrant (freed (staged pool) 0) 0 0 [(0, 0, 1, 0)]).isSome = true := by
  have e : freed (staged pool) 0 = staged pool := rfl
  rw [e]
  have h : ∀ pick, (pool.fitShared 16 pick).isSome = true := by
    intro pick
    simp only [Proofer.fitShared]
    split
    · rfl
    · decide
  obtain ⟨a, ha⟩ := Option.isSome_iff_exists.1 (h (recPick (staged pool) 0))
  have hp : (staged pool).stage 0 = pool := by decide
  have hr : 1 * pool.recBytes 0 = 16 := by decide
  simp [recGrant, hp, Proofer.grant, Proofer.place, hr, ha]

/-- None fits in a full pool. -/
theorem grant_none : recGrant (freed (staged fullPool) 0) 0 0 [(0, 0, 1, 0)] = none := by
  have e : freed (staged fullPool) 0 = staged fullPool := rfl
  rw [e]
  have h : ∀ pick, fullPool.fitShared 16 pick = none := by
    intro pick
    have e : fullPool.shared = 0x4020 ∧ fullPool.base + fullPool.size = 0x4030 := by decide
    simp only [Proofer.fitShared, e.1, e.2]
    have m : pick % ((0x4030 - 0x4020) / 16 + 1) = 0 ∨ pick % ((0x4030 - 0x4020) / 16 + 1) = 1 := by omega
    obtain m | m := m <;> rw [m] <;> decide
  have g : ∀ pick, fullPool.fitFloor 0 1 pick = none := by
    intro pick
    have e : fullPool.groupSize 0 + 1 - 1 = 1 := by decide
    simp only [Proofer.fitFloor, e, Nat.mod_one]
    decide
  have hp : (staged fullPool).stage 0 = fullPool := by decide
  have hr : 1 * fullPool.recBytes 0 = 16 := by decide
  simp [recGrant, hp, Proofer.grant, Proofer.place, hr, h, g]

/-- RecordAllocation: one record of the first node where it fits and where it does not; no record; the node after the
last and one record too many; depth 64; a request granted, waiting and expired. -/
theorem witness_RecordAllocation : (staged pool).active fz = [.fib 0] ∧ (1 ≠ 0 ∧ 0 < pool.nodes.length ∧ 1 ≤ pool.groupSize 0 ∧
      (pool.node 0).recur = false) ∧ (∀ r ∈ pool.reqs, r.isOf (bandOf 0) [.fib 0] = false) ∧
    (staged pool).hasHandler 0 = true ∧ pool.nodes.length ≤ 2 ∧ pool.groupSize 0 < 2 ∧
    (let s := (staged pool).updFib 0 fun f => { f with depth := 63 }
     (pool.node 1).recur = true ∧ (pool.node 1).maxDepth < (s.fib 0).depth + 1) ∧
    ∀ g ∈ [none, some [(0, 0x4000)]], ∀ ex ∈ [false, true],
      let r : RecReq := ⟨0, 0, [(0, 0, 1, 0)], 9, g, ex⟩
      { pool with reqs := [r] }.reqs.find? (fun r => r.isOf (bandOf 0) [.fib 0]) = some r := by decide +kernel

/-- Proofers: a placed run; a Reserved slot to commit; a group of the last record; a first request that fits and one that
has waited its bound; a node whose timer has run. -/
theorem witness_Proofers :
    fullPool.slots.find? (fun y => y.addr = 0x4020) = some ⟨0x4020, 0, 0, .reserved 0, 1⟩ ∧
    (let r : RecReq := ⟨0, 0, [(0, 0, 1, 0)], 9, none, false⟩
     let s := staged { pool with reqs := [r] }
     (s.stage 0).reqs = [r] ∧ r.granted = none ∧ r.expired = false ∧ Map.has s.stages 0 = true) ∧
    (let q : Proofer := { pool with slots := [⟨0x4020, 0, 0, .committed 5, 1⟩], queues := [(0, [0x4020])] }
     let q2 : Proofer := { q with nodes := [⟨1, 0, 1, false, 16, 2⟩] }
     let s := { staged q2 with cycle := 6 }
     Map.getD ((s.formGroups 0).stage 0).queues 0 [] = [0x4020] ∧ commitTime ((s.formGroups 0).stage 0) 0x4020 = some 5 ∧
     (((s.formGroups 0).stage 0).node 0).timer ≤ s.cycle - 5) := by decide +kernel

/-- The same request is granted. -/
theorem witness_Proofers_grant : let r : RecReq := ⟨0, 0, [(0, 0, 1, 0)], 9, none, false⟩
    (recGrant (staged { pool with reqs := [r] }) 0 r.wg r.lanes).isSome = true := by
  have h : ∀ q : Proofer, q.nodes = pool.nodes → q.base = pool.base → q.size = pool.size → q.slots = [] →
      ∀ pick, (q.fitShared 16 pick).isSome = true := by
    intro q h1 h2 h3 h4 pick
    have e : q.shared = 0x4020 ∧ q.base + q.size = 0x4030 := by
      simp only [Proofer.shared, Proofer.floorBase, h1, h2, h3]; decide
    simp only [Proofer.fitShared, e.1, e.2]
    split
    · rfl
    · simp [h4, Proofer.isFree]
  intro r
  obtain ⟨a, ha⟩ := Option.isSome_iff_exists.1
    (h { pool with reqs := [r] } rfl rfl rfl rfl (recPick (staged { pool with reqs := [r] }) 0))
  have hp : (staged { pool with reqs := [r] }).stage 0 = { pool with reqs := [r] } := by decide
  have hr : 1 * ({ pool with reqs := [r] } : Proofer).recBytes 0 = 16 := by decide
  simp only [recGrant, hp, Proofer.grant, Proofer.place, r]
  simp only [r] at hr ha
  simp [hr, ha]

/-- RecordInstructions: with nothing pending, of a fibre that holds a record. -/
theorem witness_RecordInstructions : let s := one.updFib 0 fun f => { f with record := some ⟨0, 0, 0, 0, 1⟩ }
    s.active fz = [.fib 0] ∧ (drainRelease s (s.fibCore 0)).isSome = true ∧ (afterAcquire s (wgOf 0)).isSome = true ∧
    s.csmClean ∧ fibPerformed s 0 = true ∧ (endRecord s 0).isSome = true ∧ (s.fib 0).record ≠ none ∧ (one.fib 0).record = none := by
  decide +kernel

/-! ### Witnesses: chapter 15 -/

/-- The package up, die 15 bound to host port 1 with its memory at line 0 of the host's, with the last line of that in each
bias. -/
def hosted (bias : Nat) : State := { (State.reset.updHost fun h => { h with phase := 1 }).setLd 15
    { Ld.reset with port := some 1, hdm := some 0 } with
  mem := { MemSt.reset with bias := if bias = 0 then [] else [(pageOf (hbmBase 15 / 64 + 2 ^ 30 - 1), bias)] } }
def lastLine : Nat := hbmBase 15 / 64 + (2 ^ 30 - 1)

/-- A source number of host port 1; a line with bytes held at a pin, and one whose drain leaves some; one whose scale bytes
lie in a host-biased page. -/
theorem witness_HostMemory : (15 : Nat) < 16 ∧ (hosted 0).host.phase = 1 ∧ (∃ src ∈ [1, 2, 3, 4], memReaches (hosted 0) src 15 = true) ∧
    memReaches (hosted 0) 0 15 = false ∧ ((hosted 0).ld 15).hdm = some 0 ∧ 0 ≤ 2 ^ 30 - 1 ∧ 2 ^ 30 - 1 < 0 + 2 ^ 30 ∧
    (hbmBase 15 / 64 + (2 ^ 30 - 1 - 0) = lastLine) ∧ homeTurn (hosted 0) agentHost lastLine = true ∧
    homeTurn ((hosted 0).updMem fun m => { m with retry := [(lastLine, (0, [42]))] }) agentHost lastLine = false ∧
    pinFree ((hosted 0).setHome lastLine { HomeLine.reset with pins := [(0, 0)], held := [⟨0, 1, 0, 0, 0⟩] }) lastLine = false ∧
    (let s := ((hosted 0).setHome lastLine { HomeLine.reset with pins := [(0, 0)], sources := [(2400, 0)] }).updCore 2400 fun c =>
       { c with l1 := [(lastLine, { heldLine with dirty := 1 })] }
     homeTurn s agentHost lastLine = true ∧ pinFree s lastLine = true ∧ scaleReady s lastLine = true ∧
     (drainSources s lastLine none).any (fun t => !pinFree t lastLine) = true) ∧
    (let s := (hosted 0).updMem fun m => { m with
       frr := [(240, ⟨0x80001000, BitVec.ofNat 64 (64 * lastLine), BitVec.ofNat 64 (64 * lastLine + 64), BitVec.ofNat 64 (hbmBase 15), none⟩)]
       bias := [(pageOf (hbmBase 15 / 64), 1)] }
     scaleReady s lastLine = false ∧ Map.getD s.mem.bias (pageOf lastLine) 0 ≤ 1 ∧ homeTurn s agentHost lastLine = true ∧
     pinFree s lastLine = true) ∧
    inBiasTable (hosted 0) 15 (64 * lastLine) = false ∧
    inBiasTable ((hosted 0).updMem fun m => { m with biasReg := [(15, BitVec.ofNat 64 ((hbmBase 16 - 2 ^ 21) + 1))] }) 15
      (64 * lastLine) = true ∧
    keyLoaded (hosted 0) 15 0 = true ∧ keyLoaded (hosted 0) 15 63 = false ∧
    (∀ b ∈ [0, 1, 2, 3], Map.getD (hosted b).mem.bias (pageOf lastLine) 0 = b) ∧ flushDue (hosted 2) lastLine = false ∧
    flushDue ((hosted 2).updCore 0 fun c => { c with l1 := [(lastLine, { heldLine with dirty := 1 })] }) lastLine = true ∧
    (∀ b ∈ [0, 1, 2], (drainSources (hosted b) lastLine none).isSome = true ∧ pinFree (hosted b) lastLine = true ∧
      scaleReady (hosted b) lastLine = true ∧
      (homeRead (homeServed (hosted b) agentHost lastLine) lastLine 0 0).isSome = true ∧ (homeWrite (hosted b) agentHost lastLine 1 5 0 0).isSome = true) := by
  decide +kernel

/-- BiasFlips: tracking off; on, unbound; bound, with the page in the other bias and in the same; a flip of each
direction that can end; one with a line that has not been answered for 2^24 cycles, and a die reset that waits for one. -/
theorem witness_BiasFlips :
    let page := diePage 15 (2 ^ 24 - 1)
    let s := (hosted 0).updMem fun m => { m with biasReg := [(15, 1)] }
    let cmd (s : State) (v : Nat) : State := s.updLd 15 fun l => { l with biasCmd := BitVec.ofNat 64 v }
    biasOn (hosted 0) 15 = false ∧ biasOn s 15 = true ∧ ((s.setLd 15 Ld.reset).ld 15).port = none ∧ (s.ld 15).port ≠ none ∧
    (∀ b ∈ [false, true], let v := (2 ^ 24 - 1) + if b then 2 ^ 40 else 0
      ((cmd s v).ld 15).biasCmd.getLsbD 40 = b ∧ (b = decide (Map.getD (cmd s v).mem.bias page 0 = 1)) = (b = false)) ∧
    (let f : Flip := ⟨page, true, 0, [], 0⟩
     let t := s.updLd 15 fun l => { l with flip := some f }
     (t.ld 15).flip = some f ∧ ((drainSources t (64 * page) none).isSome = true)) ∧
    (let t := s.updLd 15 fun l => { l with asked := [(64 * page, 5)] }
     lineDie (64 * page) = 15 ∧ (t.ld 15).flip = none ∧ Map.get (t.ld 15).asked (64 * page) = some 5 ∧
     5 + 2 ^ 24 ≤ { t with cycle := 2 ^ 24 + 5 }.cycle) ∧
    ((s.setHome (64 * page) { HomeLine.reset with snoop := .sent true }).home (64 * page)).snoop = .sent true ∧
    (let f : Flip := ⟨page, false, 0, [64 * page], 0⟩
     let t := { s.updLd 15 (fun l => { l with flip := some f }) with cycle := 2 ^ 24 }
     let e : Ending := { lines := [64 * page], since := 0, after := .plain }
     let u := { s.updLd 15 (fun l => { l with ending := some e }) with cycle := 2 ^ 24 }
     (u.ld 15).ending = some e ∧ (u.ld 15).flip = none ∧ 64 * page ∈ e.lines ∧ e.since + 2 ^ 24 ≤ u.cycle ∧
     f.lines ≠ [] ∧ (t.ld (lineDie (64 * page))).flip = some f ∧ 64 * page ∈ f.lines ∧ f.since + 2 ^ 24 ≤ t.cycle) := by
  decide +kernel

/-- BiasFlips: a page with nothing cached of it is flushed at once, and nothing of it is pinned. -/
theorem witness_BiasFlips_end : (flushPage (hosted 0) 15 (diePage 15 (2 ^ 24 - 1))).any (fun s =>
    (pageLines (diePage 15 (2 ^ 24 - 1))).all fun n => (s.home n).pins.isEmpty && (s.home n).held.isEmpty) = true := by
  decide +kernel

/-- BringUpAndResets, ResetsClockPower: the package up, in recovery and powered off; a locked interface; the last host
port; a link key in use; a minimum version met, equal and not; the clock's last step 10 µs ago and less, and the highest step by
power and by heat; a die with no page in host bias and with one. -/
theorem witness_BringUpAndResets : let s := hosted 0
    (15 : Nat) < 16 ∧ s.host.phase = 1 ∧ (s.ld 15).port ≠ none ∧ (s.ld 14).port = none ∧ (1 : Nat) < 2 ∧
    ((s.updLd 15 fun l => { l with tdi := .locked }).ld 15).tdi = .locked ∧
    (let h := State.reset.host
     (h.image.2.1 = true ∧ h.minSvn ≤ h.image.2.2) ∧ ¬ ((0, false, 0) : Nat × Bool × Nat).2.1 = true) ∧
    ({ State.reset with host := { HostSt.reset with phase := 2, minSvn := 4 } }.host.minSvn ≤ 4) ∧ (3 : Nat) < 4 ∧
    (let t := s.updHost fun h => { h with image := (1, true, 5) }
     t.host.minSvn < t.host.image.2.2) ∧
    (streamOk 48 = true ∧ Map.has ({ Spdm.reset with inUse := [(48, 0)] } : Spdm).inUse 48 = true) ∧
    (let t := { s.updHost fun h => { h with stepNs := some 5 } with timeNs := 10005 }
     stepSoon t = false ∧ stepSoon { t with timeNs := 10004 } = true ∧ topStep t.host = 1200 ∧
     topStep { t.host with power := List.replicate 24 6000 ++ [6001] } = 1175 ∧ topStep { t.host with thermal := 599 } = 600) ∧
    ((s.ld 15).flip = none ∧ (s.ld 15).ending = none ∧ s.hostPages 15 = [] ∧ (hosted 1).hostPages 15 ≠ [] ∧
     ((hosted 1).ld 15).flip = none ∧ ((hosted 1).ld 15).ending = none) ∧
    (let t := { s with agenda := [.event .coldReset] }
     t.agenda = .event .coldReset :: [] ∧ s.agenda = []) ∧
    { HostSt.reset with phase := 3 }.phase = 3 := by decide +kernel

/-- SecurityProcessor: the last stream, and the second key set; an interface in each state, and its own session. -/
theorem witness_SecurityProcessor : (hosted 0).host.phase = 1 ∧ (15 : Nat) < 16 ∧ streamOk 48 = true ∧ (1 : Nat) ≤ 1 ∧
    (let s := { (hosted 0).setLd 15 { Ld.reset with tdi := .locked, session := some 7 } with
       spdm := { Spdm.reset with stage := 3, sessions := [(7, true), (8, false)] } }
     ¬(s.spdm.stage < 3) ∧ (7, true) ∈ s.spdm.sessions ∧ (8, false) ∈ s.spdm.sessions ∧ (s.ld 15).tdi = .locked ∧
     (s.ld 15).session = some 7) := by decide +kernel

/-! ### Witnesses: registers, gangs, caches -/

/-- A write to a register of die 0 by its firmware, of n bytes at an offset. -/
def writes (s : State) (off n : Nat) (v : W64) (r : RegName) : Bool :=
  decide (s.mayWrite 0 0 off n ∧ regName 0 off = r) && (writeReg s 0 r off n v).isSome

/-- QueueAndGraphWrites, clause by clause: the first or the last register of each kind; a queue that is Disabled, Idle and in
Error, busy and not, with a launch; sizes and indices at their bounds; a graph in each state. -/
theorem witness_QueueAndGraphWrites :
    ([0, 1, 0x18000000, 0x18000001, 0x8000000, 0x10000000].all fun v => writes front 0xFC8 4 v (.q 63 1)) = true ∧
    covers 0xFC8 4 31 0 = true ∧ covers 0xFC8 8 31 0 = true ∧ writes front 0xFD0 4 1 (.q 63 2) = true ∧
    covers 0xFD0 4 31 0 = true ∧ covers 0xFD4 4 31 0 = false ∧ writes front 0x1007D0 8 1 (.gr 31 2) = true ∧
    (writes front 0x1007C8 4 1 (.gr 31 1) = true ∧ covers 0x1007C8 4 0 0 = true ∧ grRes (front.graph (0 * 32 + 31)).ctl = false) ∧
    (writes front 0x200000 4 4 (.fe 0) = true ∧ covers 0x200000 4 2 2 = true) ∧
    writes front 0x200018 8 1 (.fe 3) = true ∧ writes front 0x200020 8 1 (.fe 4) = true ∧
    ([0, 0x80000000].all fun v => writes front 0x4001E0 4 v (.frr 15 0)) = true ∧ covers 0x4001E0 4 31 31 = true ∧
    (4 ≤ (4 : Nat) ∧ (20 : Nat) ≤ 20 ∧ (3 : Nat) < 4 ∧ (20 : Nat) < 21) ∧
    (let s := queue63 1 []
     let c := (s.queue 63).ctl
     qState (front.queue 63).ctl = 0 ∧ qEn c = true ∧ qState c = 1 ∧ queueBusy s 63 = false ∧ qSize c = 4 ∧
     (16 - (s.queue 63).ridx).toNat ≤ 2 ^ qSize c ∧ 2 ^ qSize c < (17 - (s.queue 63).ridx).toNat ∧
     2 ^ 31 ≤ ((0 : W32) - (s.queue 63).widx).toNat) ∧
    (let s := (queue63 1 []).setLaunch 16 (Launch.new ⟨.queue 63, 0, false, 0⟩ [])
     queueBusy s 63 = true ∧ s.launch 16 = some (Launch.new ⟨.queue 63, 0, false, 0⟩ []) ∧ shareDieOf 16 = 63 / 64) ∧
    (let g (v : Nat) : Graph := { Graph.reset with ctl := BitVec.ofNat 64 v }
     (grRes (g 0).ctl = false) ∧ (grRes (g 1).ctl = true ∧ grArmed (g 1).ctl = false) ∧
     (grRes (g 3).ctl = true ∧ grArmed (g 3).ctl = true ∧ grRun (g 3).ctl = false) ∧
     (grArmed (g 7).ctl = true ∧ grRun (g 7).ctl = true ∧ grLatch (g 7).ctl = false) ∧
     (grArmed (g 15).ctl = true ∧ grRun (g 15).ctl = true ∧ grLatch (g 15).ctl = true)) := by decide +kernel

/-- RegisterWrites, clause by clause: the first or the last register of each kind; an invalidation in progress; tracking off,
on with a page in host bias and with none; a Free circuit; a port that is enabled; the power limit, by a host; a frozen
register of a locked interface. -/
theorem witness_RegisterWrites :
    ([0, 0x4000, 0x8000].all fun v => writes front 0x600024 4 v (.tu 4)) = true ∧ covers 0x600024 4 63 32 = true ∧
    tuBusy one 0 = false ∧ tuBusy { one with invs := [⟨none, 0, none, none, false, false, false⟩] } 0 = true ∧
    ([0, 1].all fun v => writes front 0x700000 4 v (.bias 0)) = true ∧ covers 0x700000 4 0 0 = true ∧
    (let s := one.updMem fun m => { m with biasReg := [(0, 1)] }
     biasOn one 0 = false ∧ biasOn s 0 = true ∧ anyHostPage s 0 = false ∧
     anyHostPage (s.updMem fun m => { m with bias := [(diePage 0 0, 1)] }) 0 = true) ∧
    ([0x10000000000, 0].all fun v => writes front 0x700008 8 v (.bias 1)) = true ∧ covers 0x700008 8 63 32 = true ∧
    writes front 0x700010 8 3 (.bias 2) = true ∧
    ([0x800, 0x1000].all fun v => writes front 0x8007FC 4 v (.circ 255)) = true ∧ covers 0x8007FC 4 44 43 = true ∧
    ([0, 0x80].all fun v => writes front 0x8027C4 4 v (.rp 31)) = true ∧ covers 0x8027C4 4 39 39 = true ∧
    ([1, 2, 4].all fun v => writes front 0x500000 4 v .dbg) = true ∧ covers 0x500000 4 2 0 = true ∧ dbgBusy front 0 = false ∧
    (let s := front.setLd 0 { Ld.reset with port := some 0 }
     s.mayWrite 1 0 0xB00000 8 ∧ regName 0 0xB00000 = .pwrLimit ∧ covers 0xB00000 8 15 0 = true) ∧
    (let s := one.setLd 0 { Ld.reset with tdi := .locked }
     (s.ld 0).tdi = .locked ∧ frozenReg (.tu 0) = true ∧
     frozenVals { s with tus := [(0, { Tu.reset with astab := 0x1000 })] } 0 ≠ frozenVals s 0 ∧
     (one.ld 0).tdi = .unlocked ∧ frozenReg (.tu 4) = false) := by decide +kernel

/-- GangLife: a workgroup with no live fibre, alone in its gang and beside another, with a stream open and with none; a gang
whose launch is not cooperative; one to resume on another quad of its die. -/
theorem witness_GangLife :
    let s := ((launched (launch1 .begun)).updFib 0 fun f => { f with status := .exited }).updGang 0 fun g => { g with share := 16 }
    let idle := { s with mseqs := [], cops := [] }
    Map.has idle.wgs 0 = true ∧ idle.liveFibs 0 = [] ∧ (idle.gang (idle.wg 0).gang).suspended = false ∧ (idle.wg 0).nbands ≠ 0 ∧
    wgQuiet idle 0 = true ∧ openStreams idle 0 = false ∧
    openStreams (idle.setChan 1 { opened with dests := [⟨0, 3, false, 0, 0, false⟩] }) 0 = true ∧
    (∀ v ∈ (idle.gang (idle.wg 0).gang).wgs, v = 0) ∧ gangMat idle 0 = false ∧ gangCops idle 0 = [] ∧
    (retireGang ((freeRuns idle 0).updLaunch 0 fun l => { l with cherr := l.cherr + wgErrs idle 0 }) 0).isSome = true ∧
    (let t := (idle.updGang 0 fun g => { g with wgs := [0, 1] }).setWg 1 { Wg.reset with nbands := 1 }
     ∃ v ∈ (t.gang (t.wg 0).gang).wgs, v ≠ 0 ∧ (t.wg v).nbands ≠ 0) ∧
    (let l := launch1 .begun
     s.launch (s.gang 0).share = some l ∧ l.coop = 0 ∧ (s.gang 0).suspended = false ∧ Map.has s.gangs 0 = true ∧
     feRuns s ((s.gang 0).quad / 40) = true) ∧
    (let l := { launch1 .begun with prio := 3 }
     let t := (s.setLaunch 32 l).setShare 32 { Share.reset with launch := 2 }
     urgent t 0 = true ∧ ((t.gangs.filter (preemptable t 0)).map (·.1)).foldl max 0 = 0) ∧
    (let t := ((launched (launch1 .begun)).updShare 16 fun h => { h with quads := [0, 1] }).updGang 0 fun g =>
       { g with share := 16, suspended := true }
     (t.gang 0).suspended = true ∧ Map.has t.shares ((t.gang 0).share / 16 * 16 + 1 / 40) = true ∧
     (t.share 16).trap = none ∧ 1 % 40 ∈ (t.share 16).quads ∧ 1 / 40 = (t.gang 0).quad / 40 ∧ 1 ≠ (t.gang 0).quad ∧
     addressesOk t 1 (t.share 16).psize (t.wg 0).xregs (liveWgs t 0) ((liveWgs t 0).map fun w => (t.wg w).nbands)
       [quadVault 1 + 0x100000] ((liveWgs t 0).map fun w => (t.wg w).priv.toNat) = true ∧
     t.csmClean ∧ (∀ w ∈ liveWgs t 0, (t.wg w).core / 160 = 1 / 40) ∧ (t.gang 0).saved = none ∧
     ((resumePlace t 0 1).any fun p => (resumeAt t 0 p [quadVault 1 + 0x100000]
       ((liveWgs t 0).map fun w => (t.wg w).priv.toNat)).isSome) = true) := by decide +kernel

/-- Gang 0 suspended, its launch with shares on dies 0 and 1; and what comes with a gang from another package. -/
def away0 : State :=
  let s := ((launched (launch1 .begun)).updShare 16 fun h => { h with quads := [0, 1] }).updGang 0 fun g =>
    { g with share := 16, suspended := true }
  ((({ (s.updWg 0 fun w => { w with image := BitVec.ofNat 64 (quadVault 0 + 0x100000), share := 16 }) with
    mseqs := [], cops := [] } : State).setShare 17 { Share.reset with launch := 1, quads := [0] }).setFe 1 { Fe.reset with st := 1 })
def image8 : GangImage :=
  { gang := { Gang.reset with share := 16, suspended := true, wgs := [8] }, csm := Casement.reset,
    wgs := [(8, { Wg.reset with gang := 7, share := 16, nbands := 1 })], bands := [(256, Band.reset)],
    fibres := [(8192, Fibre.reset)], chans := [], cops := [], lines := [], bars := [(65, ⟨[], 5, []⟩)] }

/-- GangLife: resumption on the same quad and on another die, with no stream open and with one; a gang that leaves for another
package, and one that comes. -/
theorem witness_GangLife_moves : let s := away0
    let open' := s.setChan 1 { opened with dests := [⟨0, 3, false, 0, 0, false⟩] }
    Map.has s.gangs 0 = true ∧ (s.gang 0).suspended = true ∧ liveWgs s 0 = [0] ∧ feRuns s 0 = true ∧ feRuns s 1 = true ∧
    Map.has s.shares 16 = true ∧ Map.has s.shares 17 = true ∧ (s.share 17).trap = none ∧ 40 % 40 ∈ (s.share 17).quads ∧
    openStreams s 0 = false ∧ mayLeaveDie s 0 = true ∧ openStreams open' 0 = true ∧
    addressesOk s 0 (s.share 16).psize (s.wg 0).xregs [0] [1] [(s.wg 0).image.toNat] [(s.wg 0).priv.toNat] = true ∧
    ((resumePlace s 0 0).any fun p => (resumeAt s 0 p [(s.wg 0).image.toNat] [(s.wg 0).priv.toNat]).isSome) = true ∧
    (s.wg 0).core / 160 = 0 / 40 ∧ (s.gang 0).saved = none ∧ s.csmClean ∧
    addressesOk s 40 (s.share 17).psize (s.wg 0).xregs [0] [1] [quadVault 40 + 0x100000] [hbmBase 1] = true ∧
    ((resumePlace s 0 40).any fun p => (resumeAt s 0 p [quadVault 40 + 0x100000] [hbmBase 1]).isSome) = true ∧
    { s with agenda := [.gangLeaves 0] }.agenda = .gangLeaves 0 :: [] ∧ s.host.phase ≠ 3 ∧
    imageFits s 7 image8 = true ∧ image8.cops = [] ∧ image8.lines = [] := by decide +kernel

/-- CacheFills: a canonical address and one that is not; the last register and slice of a band, whose line is read and is
not; a block that is read and one whose line is lost. -/
theorem witness_CacheFills : canonical (0x0000FFFFFFFFFFFF : W64) = true ∧ canonical (0x8000000000000000 : W64) = false ∧
    (let s := (one.updWg 0 fun w => { w with image := BitVec.ofNat 64 (programBase + 0x100000) }).setOut (regKey 0 3 127)
     let pa := regLineAddr (s.wg 0) 0 3 127
     0 % 32 < (s.wg 0).nbands ∧ 3 < 4 ∧ 127 ≠ 0 ∧ 127 < (s.wg 0).xregs ∧ (s.gang (s.wg 0).gang).suspended = false ∧
     (s.band 0).isOut (regKey 0 3 127) = true ∧ (s.core (s.band 0).core).rlines = [] ∧
     ((homeGet (s.clearOut (regKey 0 3 127)) pa 32 0 0).any fun p => decide (p.1.fibres = s.fibres)) = true ∧
     homeGet ((s.clearOut (regKey 0 3 127)).updMem fun m => { m with bad := [(pa / 64, [0, 1, 2])] }) pa 32 0 0 = none) ∧
    isLocal (icDie 160) programBase = false ∧
    homeReady (one.updMem fun m => { m with bias := [(pageOf (programBase / 64), 1)] }) (programBase / 64) .read = false ∧ isLocal 0 programBase = true ∧
    heldBlock one 159 programBase = none ∧ homeReady one (programBase / 64) .read = true ∧
    (homeRead (homeUse one (programBase / 64)) (programBase / 64) 0 0).isSome = true ∧
    homeRead (one.updMem fun m => { m with bad := [(programBase / 64, [0, 1, 2])] }) (programBase / 64) 0 0 = none := by
  decide +kernel

/-- StepRuns and IssueTraps: one step of an instruction; a word that does not decode; one that breaks the run rule. -/
theorem witness_Step : let s := State.reset.withFetchWord 64 0x0000000800013F00
    let u := (takeDue s).pickBatch
    s.agenda = [] ∧ s.host.phase ≠ 3 ∧ s.mayIssue = true ∧ preceded s = false ∧ stepGone (takeDue s) = false ∧ u.headThr = some (.fib 0) ∧
    (u.pcOf (.fib 0)).toNat % 4 = 0 ∧
    (match fetchBlock u (.fib 0) (u.pcOf (.fib 0)) with
      | (s1, .block v) =>
        let w : W128 := (v >>> (8 * ((u.pcOf (.fib 0)).toNat % 32))).setWidth 128
        let p := partsOfWord w
        let ws := if s1.atSwitch p then 0 else s1.wset
        let s2 := bringParts (s1.setRun (nextWset ws p) false) p
        decide ((u.pcOf (.fib 0)).toNat % 32 + instrBytes (lenCode w) ≤ 32 ∧ s1.threads ≠ [] ∧ s2.threads ≠ []) &&
        (decodeWord s1.focus.kind s1.regLimit w).toOption.isSome && (runChecks s1 (.fib 0) p).isNone &&
        (s1.threads.all fun x => !stalled s1 p x) && decide (hazard ws p = none) &&
        ((s1.active p.f).all fun x => !acqOpen s1 p x && (markCause s2 p x).isNone) &&
        (closerThreads s1 p).all fun x => !closerWaits s1 p x
      | _ => false) = true := by decide +kernel

/-- IssueTraps: length code 3; opcode 0xFF; a read of a register that the run has written; a fetch that faults; a role that is
not bound; a register that is pending. -/
theorem witness_IssueTraps : lenCode 3 = 3 ∧
    (let s := one.updFib 0 fun f => { f with pc := 0x20000 }
     (match (fetchBlock s (.fib 0) 0x20000).2 with
       | .fault _ => true
       | _ => false) = true) ∧
    (let p := partsOfWord (encode (.cpy fz ⟨0, 0, 0⟩) |>.getD 0)
     runChecks one (.fib 0) p = some 0x0B) ∧
    (let s := one.updFib 0 fun f => { f with pend := [⟨9, [4], [0], [], [], false⟩] }
     stalled s (partsOfWord (encode (.add { fz with a := 4 }) |>.getD 0)) (.fib 0) = true) ∧ lenCode 0x7F8 ≠ 3 ∧ (decodeWord .v 128 0x7F8).toOption = none ∧
    (let s := State.reset.withFetchWord 64 0x0000000800013F00
     (s.updFib 0 fun f => { f with pc := 2 }).pcOf (.fib 0) = 2 ∧ (2 : Nat) % 4 ≠ 0) ∧
    (28 : Nat) % 32 + instrBytes 0 > 32 ∧ (hazard (BitVec.allOnes 128) (partsOfWord 0x0000000800013F00)).isSome = true := by
  decide +kernel

/-- StepKeepsMemory, MemoryBytes, HardWiredRegisters: a canonical state that steps; memory with a byte; the last numbers. -/
theorem witness_StepKeepsMemory : let s := State.reset.withFetchWord 64 0x0000000800013F00
    s.memWf ∧ (match step s with
      | .next _ => true
      | _ => false) = true ∧ Memory.wf [(5, 1)] = true ∧ (31 : Nat) ≠ 0 ∧ (31 : Nat) < 32 ∧ (31 : Nat) ≠ 7 := by decide +kernel

/-- DecodeOfEncode, EncodeOfDecode: the last registers of a well-formed instruction, on its engine. -/
theorem witness_DecodeOfEncode : let i : Instr := .add { fz with d := 127, a := 127, b := 127 }
    i.wfOn .v 128 = true ∧ (encode i).isSome = true ∧
    ((encode i).bind fun w => (decodeWord .v 128 w).toOption) = some i := by decide +kernel

end Sys2Proof.Tests
end

/-! ## Memory by bytes (R4, R155) -/

section
namespace Sys2Proof.Machine

/-- A run of bytes reads back as the low bytes of the number that was written there (R4, R155). -/
theorem readCells_writeCells_self (m : List Host.Cell) (w : Memory.wf m = true) (a v n : Nat) :
    readCells (writeCells m a v n) a n = v % 256 ^ n := by
  induction n generalizing m a v with
  | zero => simp [readCells, Nat.mod_one]
  | succ n ih =>
    have first : readCell (writeCells m a v (n + 1)) a = BitVec.ofNat 8 v := by
      rw [readCell_writeCells m w, if_pos (by omega)]; simp
    have rest : readCells (writeCells m a v (n + 1)) (a + 1) n = v / 256 % 256 ^ n :=
      ih _ (Memory.wf_writeCell w a _) _ _
    rw [readCells, first, rest, BitVec.toNat_ofNat, Nat.pow_succ' (m := 256)]
    exact Nat.mod_mul.symm

/-- Settles O60, from the laws of single cells and of runs of cells. -/
theorem memoryBytes : Obligations.MemoryBytes := by
  unfold Obligations.MemoryBytes
  intro m a b n v x w
  have pow (k : Nat) : 2 ^ (8 * k) = 256 ^ k := Nat.pow_mul 2 8 k
  refine ⟨Memory.wf_writeCell w a x, readCell_writeCell m w a b x, Memory.wf_writeCells w a v n, fun c => ?_, ?_⟩
  · rw [pow, readCell_writeCells m w]
  · rw [pow, readCells_writeCells_self m w]

end Sys2Proof.Machine
end

/-! ## What drains, discards and the ends of shares leave alone -/

section
namespace Sys2Proof.Machine

/-! A die reset ends launches, drains caches and writes records before it clears the die. None of this touches the logical
devices (R393, R406), and an interrupt that has been raised stays raised. -/

/-- `t` has the logical devices of `s`, and every interrupt raised in `s`. -/
structure Kept (s t : State) : Prop where
  lds : t.lds = s.lds
  irqs : s.irqs <+: t.irqs

section
variable {α β : Type} {s t u : State}

theorem Kept.refl (s : State) : Kept s s := ⟨rfl, List.prefix_rfl⟩

theorem Kept.trans (h : Kept s t) (k : Kept t u) : Kept s u := ⟨k.lds.trans h.lds, h.irqs.trans k.irqs⟩

/-- An update that writes neither the devices nor the interrupts. -/
theorem Kept.same (h : Kept s t) (l : u.lds = t.lds) (i : u.irqs = t.irqs) : Kept s u :=
  h.trans ⟨l, i ▸ List.prefix_rfl⟩

theorem Kept.ld (h : Kept s t) (d : Nat) : t.ld d = s.ld d := by unfold State.ld; rw [h.lds]

theorem Kept.foldl {f : State → α → State} (hf : ∀ {u} x, Kept s u → Kept s (f u x)) (h : Kept s t) (l : List α) :
    Kept s (l.foldl f t) := List.foldlRecOn l f h fun _ hu x _ => hf x hu

/-- The same of a fold that carries a value beside the state. -/
theorem Kept.foldl_fst {f : State × β → α → State × β} (hf : ∀ {r} x, Kept s r.1 → Kept s (f r x).1)
    {r : State × β} (h : Kept s r.1) (l : List α) : Kept s (l.foldl f r).1 :=
  List.foldlRecOn (motive := fun r => Kept s r.1) l f h fun _ hu x _ => hf x hu

theorem Kept.forAll {f : State → Nat → Option State} (hf : ∀ {u v} x, Kept s u → f u x = some v → Kept s v)
    {l : List Nat} (h : Kept s t) (e : forAll f l t = some u) : Kept s u := by
  induction l generalizing t with
  | nil => cases e; exact h
  | cons x l ih =>
    unfold Machine.forAll at e
    split at e
    · exact ih (hf x h ‹_›) e
    · cases e

theorem Kept.ite {c : Prop} [Decidable c] (h : Kept s t) (k : Kept s u) : Kept s (if c then t else u) := by
  split <;> assumption

/-- A result, or the state as it was. -/
theorem Kept.getD {o : Option State} (ho : ∀ u, o = some u → Kept s u) (h : Kept s t) : Kept s (o.getD t) := by
  cases o with
  | none => exact h
  | some u => exact ho u rfl

/-! #### Stores of the state -/

theorem Kept.updMem (h : Kept s t) (g : MemSt → MemSt) : Kept s (t.updMem g) := h.same rfl rfl
theorem Kept.setHome (h : Kept s t) (ln : Nat) (x : HomeLine) : Kept s (t.setHome ln x) := h.updMem _
theorem Kept.setBad (h : Kept s t) (ln : Nat) (bad : List Nat) : Kept s (t.setBad ln bad) := h.updMem _
theorem Kept.updCore (h : Kept s t) (c : Nat) (g : Core → Core) : Kept s (t.updCore c g) := h.same rfl rfl
theorem Kept.updFib (h : Kept s t) (k : Nat) (g : Fibre → Fibre) : Kept s (t.updFib k g) := h.same rfl rfl
theorem Kept.updBand (h : Kept s t) (k : Nat) (g : Band → Band) : Kept s (t.updBand k g) := h.same rfl rfl
theorem Kept.updGang (h : Kept s t) (k : Nat) (g : Gang → Gang) : Kept s (t.updGang k g) := h.same rfl rfl
theorem Kept.updLaunch (h : Kept s t) (k : Nat) (g : Launch → Launch) : Kept s (t.updLaunch k g) := h.same rfl rfl
theorem Kept.setCop (h : Kept s t) (c : Nat) (x : Seq) : Kept s (t.setCop c x) := h.same rfl rfl
theorem Kept.updFe (h : Kept s t) (d : Nat) (g : Fe → Fe) : Kept s (t.updFe d g) := h.same rfl rfl
theorem Kept.updCsm (h : Kept s t) (g : Nat) (f : Casement → Casement) : Kept s (t.updCsm g f) := h.same rfl rfl
theorem Kept.setSector (h : Kept s t) (g sl k : Nat) (x : Sector) : Kept s (t.setSector g sl k x) := h.updCsm _ _
theorem Kept.irq (h : Kept s t) (die vec : Nat) : Kept s (t.irq die vec) := h.trans ⟨rfl, List.prefix_append _ _⟩
theorem Kept.updStage (h : Kept s t) (k : Nat) (g : Proofer → Proofer) : Kept s (t.updStage k g) := by
  unfold State.updStage
  exact .ite (h.same rfl rfl) h

/-! #### Error correction and memory reads (R32, R80) -/

/-- A correction may retire a unit, which raises vector 0 (R32). -/
theorem Kept.corrected (h : Kept s t) (u bank : Nat) : Kept s (t.corrected u bank) := by
  have raised : Kept s (t.irq (u / 256) 0) := h.irq _ _
  unfold State.corrected
  exact .ite (.ite (raised.same rfl rfl) (raised.same rfl rfl)) (h.updMem _)

theorem Kept.eccRead (h : Kept s t) {n : Nat} {bad : List Nat} (e : t.eccRead n bad = some u) : Kept s u := by
  unfold State.eccRead at e
  split at e
  · split at e <;> cases e; exact h
  · split at e <;> cases e
    · exact h
    · exact h.corrected _ _

theorem Kept.eccWords (h : Kept s t) {n : Nat} {bad l : List Nat} (e : t.eccWords n bad l = some u) : Kept s u := by
  induction l generalizing t with
  | nil => cases e; exact h
  | cons cw l ih =>
    obtain ⟨v, hv, e⟩ := Option.bind_eq_some_iff.1 e
    exact ih (h.eccRead hv) e

theorem Kept.sideRead (h : Kept s t) {ln : Nat} (e : sideRead t ln = some u) : Kept s u := by
  unfold Machine.sideRead at e
  split at e
  · cases e; exact h
  · obtain ⟨v, hv, rfl⟩ := Option.map_eq_some_iff.1 e
    split
    · exact h.eccWords hv
    · exact (h.eccWords hv).setBad _ _

theorem Kept.memRead (h : Kept s t) {ln key : Nat} {p : State × Line} (e : memRead t ln key = some p) : Kept s p.1 := by
  unfold Machine.memRead at e
  split at e
  · cases e
  · next e1 =>
    obtain ⟨v, hv, e1⟩ := Option.bind_eq_some_iff.1 e1
    split at e <;> cases e
    exact ((h.sideRead hv).eccWords e1).setBad _ _

theorem Kept.l2Read (h : Kept s t) {ln : Nat} {x : L2Line} (e : t.l2Read ln x = some u) : Kept s u := by
  obtain ⟨v, hv, rfl⟩ := Option.map_eq_some_iff.1 e
  split
  · exact h.eccWords hv
  · exact (h.eccWords hv).setHome _ _

theorem Kept.homeByte (h : Kept s t) {pa key : Nat} {p : State × Nat} (e : homeByte t pa key = some p) : Kept s p.1 := by
  unfold Machine.homeByte at e
  dsimp only at e
  split at e
  · obtain ⟨v, hv, rfl⟩ := Option.map_eq_some_iff.1 e; exact h.l2Read hv
  · obtain ⟨v, hv, rfl⟩ := Option.map_eq_some_iff.1 e; exact h.memRead hv

theorem Kept.scaleBytes (h : Kept s t) {r : Frr} {bb key : Nat} {l : List Nat} {p : State × List (Nat × Nat)}
    (e : scaleBytes r bb key l t = some p) : Kept s p.1 := by
  induction l generalizing t p with
  | nil => cases e; exact h
  | cons j l ih =>
    obtain ⟨b, hb, e⟩ := Option.bind_eq_some_iff.1 e
    obtain ⟨q, hq, rfl⟩ := Option.map_eq_some_iff.1 e
    exact ih (p := q) (h.homeByte hb) hq

theorem Kept.fillLine (h : Kept s t) {ln key cmps : Nat} {p : State × L2Line} (e : fillLine t ln key cmps = some p) :
    Kept s p.1 := by
  unfold Machine.fillLine at e
  dsimp only at e
  split at e
  · obtain ⟨q, hq, rfl⟩ := Option.map_eq_some_iff.1 e; exact h.memRead hq
  · split at e
    · split at e
      · cases e
      · next hb =>
        have k := h.scaleBytes hb
        split at e
        · cases e; exact k
        · obtain ⟨q, hq, rfl⟩ := Option.map_eq_some_iff.1 e; exact k.memRead hq
    · obtain ⟨q, hq, rfl⟩ := Option.map_eq_some_iff.1 e; exact h.memRead hq

theorem Kept.memWrite (h : Kept s t) (ln key cmps : Nat) (l : Line) : Kept s (memWrite t ln key cmps l) := h.same rfl rfl

/-! #### The home (R31, R226, R271) -/

theorem Kept.cleanL2 (h : Kept s t) (ln : Nat) : Kept s (t.cleanL2 ln) := by
  unfold State.cleanL2
  split
  · exact h
  · split
    · split
      · exact ((h.l2Read ‹_›).memWrite _ _ _ _).setHome _ _
      · exact h
    · exact h

theorem Kept.dropL2 (h : Kept s t) (ln : Nat) : Kept s (t.dropL2 ln) := by
  unfold State.dropL2
  dsimp only
  split
  · split
    · exact h.cleanL2 _
    · exact (h.cleanL2 _).setHome _ _
  · exact h.cleanL2 _

theorem Kept.homeLine (h : Kept s t) {ln key cmps : Nat} {p : State × L2Line} (e : t.homeLine ln key cmps = some p) :
    Kept s p.1 := by
  have fill {v : State} (hv : Kept s v)
      (e : (Machine.fillLine v ln key cmps).map
        (fun p => (p.1.setHome ln { p.1.home ln with l2 := some p.2 }, p.2)) = some p) : Kept s p.1 := by
    obtain ⟨q, hq, rfl⟩ := Option.map_eq_some_iff.1 e
    exact (hv.fillLine hq).setHome _ _
  unfold State.homeLine at e
  dsimp only at e
  split at e
  · split at e
    · obtain ⟨v, hv, rfl⟩ := Option.map_eq_some_iff.1 e; exact h.l2Read hv
    · split at e
      · cases e
      · split at e
        · exact fill (h.dropL2 _) e
        · exact (h.cleanL2 _).fillLine e
  · exact fill h e

theorem Kept.homeRead (h : Kept s t) {ln key cmps : Nat} {p : State × Line} (e : homeRead t ln key cmps = some p) :
    Kept s p.1 := by
  obtain ⟨q, hq, rfl⟩ := Option.map_eq_some_iff.1 e; exact h.homeLine hq

theorem Kept.homeGet (h : Kept s t) {pa n key cmps : Nat} {p : State × Nat} (e : homeGet t pa n key cmps = some p) :
    Kept s p.1 := by
  obtain ⟨q, hq, rfl⟩ := Option.map_eq_some_iff.1 e; exact h.homeRead hq

theorem Kept.modified (h : Kept s t) (agent ln : Nat) (w : BitVec 16) : Kept s (t.modified agent ln w) := by
  unfold State.modified notices
  exact ((h.updMem _).setHome _ _).updMem _

theorem Kept.applyWrite (h : Kept s t) {ln : Nat} {w : HeldWr} (e : applyWrite t ln w = some u) : Kept s u := by
  obtain ⟨v, hv, rfl⟩ := Option.map_eq_some_iff.1 e
  obtain ⟨q, hq, rfl⟩ := Option.map_eq_some_iff.1 hv
  refine Kept.modified ?_ _ _ _
  split
  · exact (h.homeLine hq).setHome _ _
  · exact h.homeLine hq

theorem Kept.homeServed (h : Kept s t) (agent ln : Nat) : Kept s (homeServed t agent ln) := by
  unfold Machine.homeServed
  split
  · split
    · exact h.updMem _
    · exact h
  · exact h

theorem Kept.homeWrite (h : Kept s t) {agent ln key cmps : Nat} {m : ByteMask} {d : Line}
    (e : homeWrite t agent ln m d key cmps = some u) : Kept s u := by
  unfold Machine.homeWrite at e
  split at e
  · cases e; exact h
  · dsimp only at e
    split at e
    · exact (h.homeServed _ _).applyWrite e
    · cases e; exact (h.homeServed _ _).setHome _ _

theorem Kept.homePut (h : Kept s t) {agent pa n v key cmps : Nat} (e : homePut t agent pa n v key cmps = some u) :
    Kept s u := h.homeWrite e

theorem Kept.applyHeld (h : Kept s t) (ln : Nat) (ws : List HeldWr) : Kept s (applyHeld t ln ws) := by
  induction ws generalizing t with
  | nil => exact h
  | cons w ws ih => exact ih (Kept.getD (fun _ e => h.applyWrite e) h)

theorem Kept.unpin (h : Kept s t) (ln : Nat) (p : Nat × Nat) : Kept s (t.unpin ln p) := by
  unfold State.unpin
  exact .ite ((h.setHome _ _).applyHeld _ _) (h.setHome _ _)

/-! #### Cores, translation and casements (R163 to R169, R226 to R230) -/

theorem Kept.dropSource (h : Kept s t) (ln agent w : Nat) : Kept s (dropSource t ln agent w) := h.setHome _ _

theorem Kept.reportLate (h : Kept s t) (k : Nat) (c : Cause) : Kept s (reportLate t k c) := by
  unfold Machine.reportLate
  exact .ite h (h.updFib _ _)

theorem Kept.coreWb (h : Kept s t) (c ln : Nat) : Kept s (coreWb t c ln) := by
  unfold Machine.coreWb
  split
  · exact h
  · split
    · exact h
    · split
      · exact ((h.homeWrite ‹_›).updCore _ _).dropSource _ _ _
      · exact (h.updCore _ _).reportLate _ _

theorem Kept.coreWbs (h : Kept s t) (c : Nat) (l : List Nat) : Kept s (coreWbs t c l) :=
  h.foldl (fun _ k => k.coreWb _ _) _

theorem Kept.coreDrainAll (h : Kept s t) (c : Nat) : Kept s (coreDrainAll t c) := h.coreWbs _ _

theorem Kept.lineUse (h : Kept s t) (ln : Nat) : Kept s (lineUse t ln) := by
  unfold Machine.lineUse; split
  · exact h.setHome _ _
  · exact h

theorem Kept.homeUse (h : Kept s t) (ln : Nat) : Kept s (homeUse t ln) := (h.lineUse _).foldl (fun _ k => k.lineUse _) _

theorem Kept.lineAsk (h : Kept s t) (ln : Nat) (w : Want) : Kept s (lineAsk t ln w) := by
  unfold Machine.lineAsk
  exact .ite (h.setHome _ _) h

theorem Kept.homeAsk (h : Kept s t) (ln : Nat) (w : Want) : Kept s (homeAsk t ln w) :=
  (h.lineAsk _ _).foldl (fun _ k => k.lineAsk _ _) _

theorem Kept.readEntry (h : Kept s t) {die asid lvl pfx a : Nat} {r : Except TErr Nat}
    (e : readEntry t die asid lvl pfx a = (u, r)) : Kept s u := by
  unfold Machine.readEntry at e
  split at e
  · cases e; exact h
  · split at e
    · split at e <;> cases e
      · next hg => exact (h.homeUse _).homeGet hg
      · exact h
    · cases e; exact h.homeAsk _ _

theorem Kept.keepWalk (h : Kept s t) (die asid lvl pfx ent : Nat) : Kept s (keepWalk t die asid lvl pfx ent) := by
  unfold Machine.keepWalk
  exact .ite h (h.same rfl rfl)

theorem Kept.walkLevels (h : Kept s t) {die asid va : Nat} {ls : List Nat} {a : Nat} {r : Except TErr Leaf}
    (e : walkLevels die asid va ls t a = (u, r)) : Kept s u := by
  induction ls generalizing t a with
  | nil => cases e; exact h
  | cons lvl ls ih =>
    unfold Machine.walkLevels at e
    dsimp only at e
    split at e
    · next hr => cases e; exact h.readEntry hr
    · next hr =>
      have k := h.readEntry hr
      split at e
      · cases e; exact k
      · split at e
        · split at e <;> cases e <;> exact k
        · split at e
          · cases e; exact k
          · exact ih (k.keepWalk _ _ _ _ _) e

theorem Kept.walk (h : Kept s t) {die asid va : Nat} {r : Except TErr Leaf} (e : walk t die asid va = (u, r)) :
    Kept s u := by
  unfold Machine.walk at e
  dsimp only at e
  split at e
  · cases e; exact h
  · split at e
    · next hr => cases e; exact h.readEntry hr
    · next hr =>
      have k := h.readEntry hr
      split at e
      · cases e; exact k
      · exact (k.keepWalk _ _ _ _ _).walkLevels e

theorem Kept.keepLeaf (h : Kept s t) (c : Client) (l : Leaf) : Kept s (keepLeaf t c l) := by
  cases c with
  | lane | core | eng => exact h.same rfl rfl
  | bare => exact h

theorem Kept.translate (h : Kept s t) {c : Client} {die asid : Nat} {priv : Bool} {va : W64} {acc : Acc}
    {r : Except TErr (Leaf × Nat)} (e : translate t c die asid priv va acc = (u, r)) : Kept s u := by
  unfold Machine.translate at e
  dsimp only at e
  split at e
  · cases e; exact h
  · have found {v : State} {r : Except TErr Leaf} (e : (match cachedLeaf t c asid va.toNat priv acc with
        | some l => (t, Except.ok l)
        | none => Machine.walk t die asid va.toNat) = (v, r)) : Kept s v := by
      split at e
      · cases e; exact h
      · exact h.walk e
    split at e
    · next hl => cases e; exact found hl
    · next hl =>
      have k := (found hl).keepLeaf
      split at e
      · cases e; exact k _ _
      · split at e <;> cases e <;> exact k _ _

theorem Kept.csmEcc (h : Kept s t) (g o n : Nat) : Kept s (csmEcc t g o n).1 := by
  unfold Machine.csmEcc
  refine Kept.foldl_fst (fun cw k => ?_) h _
  split
  · exact k
  · split
    · next e => dsimp only; exact (k.eccRead e).updCsm g _
    · exact k

theorem Kept.sectorEcc (h : Kept s t) (g sl k : Nat) : Kept s (sectorEcc t g sl k).1 := by
  unfold Machine.sectorEcc
  split
  · exact h.csmEcc _ _ _
  · exact h

theorem Kept.readFresh (h : Kept s t) (g sl lo n : Nat) : Kept s (readFresh t g sl lo n) :=
  h.foldl (fun _ k => .ite k (k.sectorEcc _ _ _)) _

theorem Kept.pushSlot (h : Kept s t) (g sl : Nat) : Kept s (pushSlot t g sl) := by
  unfold Machine.pushSlot
  split
  · exact h
  · exact .ite h (((h.readFresh _ _ _ _).readFresh _ _ _ _).updCsm _ _)

theorem Kept.pushSlots (h : Kept s t) (g : Nat) (l : List Nat) : Kept s (pushSlots t g l) :=
  h.foldl (fun _ k => k.pushSlot _ _) _

theorem Kept.sectorTr (h : Kept s t) {g sl k : Nat} {acc : Acc} {r : Except TErr (Leaf × Nat)}
    (e : sectorTr t g sl k acc = (u, r)) : Kept s u := by
  unfold Machine.sectorTr at e
  dsimp only at e
  split at e
  · split at e <;> cases e <;> exact h
  · split at e
    · next ht => cases e; exact h.translate ht
    · next ht =>
      have k := h.translate ht
      split at e
      · cases e; exact k
      · split at e <;> cases e
        · exact k.setSector _ _ _ _
        · exact k

theorem Kept.csmWb (h : Kept s t) {g sl k : Nat} {r : WbRes} (e : csmWb t g sl k = (u, r)) : Kept s u := by
  unfold Machine.csmWb at e
  dsimp only at e
  split at e
  · cases e; exact h
  · split at e
    · next ht => split at e <;> cases e <;> exact h.sectorTr ht
    · next ht => cases e; exact h.sectorTr ht
    · next ht => cases e; exact h.sectorTr ht
    · next ht => cases e; exact h.sectorTr ht
    · next ht =>
      have k := h.sectorTr ht
      split at e
      · cases e; exact k.homeAsk _ _
      · split at e
        · cases e; exact k
        · split at e
          · cases e; exact k
          · next hw =>
            cases e
            have w := (((k.sectorEcc _ _ _).homeUse _).homeWrite hw).setSector
            exact .ite (w _ _ _ _) ((w _ _ _ _).dropSource _ _ _)

theorem Kept.csmFailed (h : Kept s t) (g sl k code : Nat) (pfu : Bool) : Kept s (csmFailed t g sl k code pfu) := by
  unfold Machine.csmFailed
  exact .ite ((h.reportLate _ _).setSector _ _ _ _) (h.setSector _ _ _ _)

theorem Kept.csmWbList (h : Kept s t) {g : Nat} {l : List (Nat × Nat)} (e : csmWbList g l t = some u) : Kept s u := by
  induction l generalizing t with
  | nil => cases e; exact h
  | cons d l ih =>
    unfold Machine.csmWbList at e
    split at e
    · cases e
    · next hw => exact ih (h.csmWb hw) e
    · next hw => exact ih ((h.csmWb hw).csmFailed _ _ _ _ _) e

theorem Kept.csmDrain (h : Kept s t) {g n : Nat} {line : Option Nat} (e : csmDrain t g n line = some u) : Kept s u :=
  h.csmWbList e

theorem Kept.drainAgent (h : Kept s t) {a n ln : Nat} (e : drainAgent t a n ln = some u) : Kept s u := by
  unfold Machine.drainAgent drainCore drainCsm coreDrainLines at e
  split at e
  · exact (h.coreWbs _ _).forAll (fun _ k => k.csmDrain) e
  · exact h.forAll (fun _ k => k.csmDrain) e

theorem Kept.drainSources (h : Kept s t) {ln : Nat} {but : Option Nat} (e : drainSources t ln but = some u) : Kept s u := by
  unfold Machine.drainSources at e
  generalize (t.home ln).sources.filter _ = l at e
  induction l generalizing t with
  | nil => cases e; exact h
  | cons p l ih =>
    unfold drainPairs at e
    split at e
    · next hd => exact ih (h.drainAgent hd) e
    · cases e

theorem Kept.evictL2 (h : Kept s t) {ln : Nat} (e : evictL2 t ln = some u) : Kept s u := by
  unfold Machine.evictL2 at e
  split at e
  · obtain ⟨v, hv, rfl⟩ := Option.map_eq_some_iff.1 e
    exact (h.drainSources hv).dropL2 _
  · cases e

theorem Kept.flushRange (h : Kept s t) {lo hi : Nat} (e : flushRange t lo hi = some u) : Kept s u :=
  h.forAll (fun _ k => k.evictL2) e

/-! #### A gang that is killed, or whose die is reset (R350, R351, R415) -/

theorem Kept.suspendCsm (h : Kept s t) {g : Nat} {how : Leave} {l : List (Nat × Nat)} {r : State × Option W64}
    (e : suspendCsm g how l t = some r) : Kept s r.1 := by
  induction l generalizing t r with
  | nil => cases e; exact h
  | cons d l ih =>
    unfold Machine.suspendCsm at e
    split at e
    · next hw => exact ih (h.csmWb hw) e
    · next hw =>
      split at e
      · exact ih (h.csmWb hw) e
      · cases e
    · next hw => exact ih ((h.csmWb hw).csmFailed _ _ _ _ _) e
    · next hw =>
      obtain ⟨q, hq, rfl⟩ := Option.map_eq_some_iff.1 e
      exact ih (r := q) (h.csmWb hw) hq

theorem Kept.csmAsks (h : Kept s t) (g : Nat) : Kept s (csmAsks t g) := by
  refine h.foldl (fun d k => ?_) _
  split
  · next hw => exact k.csmWb hw
  · exact k

theorem Kept.clearSharers (h : Kept s t) (g sl : Nat) : Kept s (clearSharers t g sl) := by
  unfold Machine.clearSharers
  split
  · exact h
  · exact h.foldl (fun _ k => .ite (k.setHome _ _) k) _

theorem Kept.clearCsm (h : Kept s t) (g : Nat) : Kept s (clearCsm t g) :=
  (h.foldl (fun _ k => (k.clearSharers _ _).updCsm _ _) _).updCsm _ _

theorem Kept.leaveSlot (h : Kept s t) (b : Nat) : Kept s (leaveSlot t b) := by
  unfold Machine.leaveSlot
  exact .ite h (h.updMem _)

theorem Kept.saveRegs (h : Kept s t) (band : Nat) : Kept s (saveRegs t band) :=
  h.foldl (fun _ k => (Kept.getD (fun _ e => k.homePut e) k).updBand _ _) _

theorem Kept.writeImage (h : Kept s t) (w : Nat) : Kept s (writeImage t w) :=
  h.foldl (fun _ k => .getD (fun _ e => k.homeWrite e) k) _

/-- A gang that is not merely suspended: its program is not saved. -/
theorem Kept.suspendGang (h : Kept s t) {g : Nat} {how : Leave} (hh : how ≠ .suspend) :
    Kept s (suspendGang t g how).1 := by
  unfold Machine.suspendGang
  extract_lets kill s1 x
  have hk : kill = true := decide_eq_true hh
  have k1 : Kept s s1 := .ite (h.pushSlots _ _) h
  clear_value kill s1
  subst hk
  split
  · exact k1
  · split
    · exact k1
    · next e =>
      cases e
      split
      · exact k1.csmAsks g
      · next hc =>
        extract_lets s4 s5 s6 s7 s8
        have k4 : Kept s s4 := by
          dsimp only [s4]
          split <;> exact k1.suspendCsm hc
        have k5 : Kept s s5 := (k4.clearCsm g).foldl (fun _ k => k.coreDrainAll _) _
        have k7 : Kept s s7 := (k5.foldl (fun b k => .leaveSlot (k.updBand b _) b) _).updGang g _
        have k8 : Kept s s8 := k7.foldl (fun _ k => k.saveRegs _) _
        clear_value s8
        exact k8.foldl (fun _ k => .ite k (k.writeImage _)) _

theorem Kept.emptySlot (h : Kept s t) (q slot : Nat) : Kept s (t.emptySlot q slot) :=
  (h.foldl (fun _ k => k.unpin _ _) _).same rfl rfl

theorem Kept.settleCop (h : Kept s t) (c : Nat) : Kept s (t.settleCop c) := by
  unfold State.settleCop
  exact .ite (h.same rfl rfl) h

theorem Kept.killPrograms (h : Kept s t) (g : Nat) : Kept s (killPrograms t g) := by
  unfold Machine.killPrograms
  extract_lets q a a' s1 s2
  have emptied : Kept s a := h.foldl (fun i k => k.emptySlot q i) _
  clear_value a
  have k1 : Kept s s1 := .ite (emptied.same rfl rfl) h
  have k2 : Kept s s2 := by
    dsimp only [s2]
    split
    · exact k1.foldl (fun _ k => k.foldl (fun _ k => k.unpin _ _) _) _
    · exact k1
  exact k2.foldl (fun c k => .settleCop (k.setCop c _) c) _

theorem Kept.grantWaiting (h : Kept s t) (k : Nat) (l : List RecReq) : Kept s (grantWaiting k l t) := by
  induction l generalizing t with
  | nil => exact h
  | cons r l ih =>
    unfold Machine.grantWaiting
    split
    · exact ih h
    · split
      · exact ih h
      · next hg =>
        obtain ⟨q, -, he⟩ := Option.map_eq_some_iff.1 hg
        cases he
        refine ih (.updStage ?_ _ _)
        exact (h.updStage k fun _ => q.1).same rfl rfl

theorem Kept.freeRecords (h : Kept s t) (w : Nat) : Kept s (freeRecords t w) := (h.updStage _ _).grantWaiting _ _

theorem Kept.dropRegs (h : Kept s t) (band slice : Nat) : Kept s (dropRegs t band slice) := by
  unfold Machine.dropRegs
  exact (h.updCore _ _).updBand _ _

theorem Kept.dropPrivLines (h : Kept s t) (w : Nat) : Kept s (dropPrivLines t w) := by
  unfold Machine.dropPrivLines
  exact h.updCore _ _

theorem Kept.dropWg (h : Kept s t) (w : Nat) : Kept s (dropWg t w) := by
  unfold Machine.dropWg
  extract_lets s1 s2
  have k1 : Kept s s1 := h.foldl (fun _ k => k.leaveSlot _) _
  have k2 : Kept s s2 := (k1.dropPrivLines w).foldl (fun _ k => k.dropRegs _ _) _
  exact k2.same rfl rfl

theorem Kept.discarded (h : Kept s t) (g : Nat) : Kept s (discarded t g) := by
  unfold Machine.discarded
  extract_lets x k s2 errs s3 s4 s5
  have k3 : Kept s s3 := ((h.killPrograms g).foldl (fun w k => k.freeRecords w) _).updLaunch _ _
  have k5 : Kept s s5 := (k3.foldl (fun w k => k.dropWg w) _).updStage _ _
  exact k5.same rfl rfl

theorem Kept.discardShare (h : Kept s t) {k : Nat} {how : Leave} (hh : how ≠ .suspend)
    (e : discardShare t k how = some u) : Kept s u := by
  refine h.forAll (fun {v w} g hv hw => ?_) e
  have gone : Kept s (if (v.gang g).suspended then (v, true) else Machine.suspendGang v g how).1 := by
    split
    · exact hv
    · exact hv.suspendGang hh
  obtain ⟨-, hw⟩ := Option.ite_none_right_eq_some.1 hw
  cases hw
  exact gone.discarded g

theorem Kept.abandonLaunch (h : Kept s t) (k : Nat) : Kept s (abandonLaunch true t k) := by
  have ended : Kept s ((t.updLaunch k fun l => { l with phase := .killed, silent := true, resv := [] }).updStage k
      fun p => { p with groups := [], queues := [], slots := p.slots.filter fun r => match r.st with
        | .committed _ => false
        | .grouped _ => false
        | _ => true }) := (h.updLaunch _ _).updStage _ _
  exact .getD (fun _ e => ended.discardShare (by decide) e) ended

/-! #### The end of a share (R348) -/

theorem Kept.freeRegionsOf (h : Kept s t) {die : Nat} {l : List (Nat × Nat × Nat)} (e : freeRegionsOf die l t = some u) :
    Kept s u := by
  induction l generalizing t with
  | nil => cases e; exact h
  | cons r l ih =>
    obtain ⟨v, hv, e⟩ := Option.bind_eq_some_iff.1 e
    exact ih (Kept.flushRange (h.updMem _) hv) e

theorem Kept.settleSrc (h : Kept s t) (src : LaunchSrc) (k : Nat) (refused : Bool) : Kept s (settleSrc t src k refused) := by
  cases src with
  | queue q =>
    unfold Machine.settleSrc settleQueue
    exact .ite (.ite h (h.same rfl rfl)) (.ite (h.same rfl rfl) h)
  | graph g => exact .ite (h.same rfl rfl) h

theorem Kept.feTr (h : Kept s t) {c : FeCtx} {va : W64} {acc : Acc} {r : Except FeErr (Leaf × Nat)}
    (e : feTr t c va acc = (u, r)) : Kept s u := by
  unfold Machine.feTr at e
  split at e <;> next ht => cases e; exact h.translate ht

theorem Kept.fePutPa (h : Kept s t) {pa n v key cmps : Nat} {r : Except FeErr Unit}
    (e : fePutPa t pa n v key cmps = (u, r)) : Kept s u := by
  unfold Machine.fePutPa at e
  split at e
  · cases e; exact h
  · split at e <;> cases e
    · next hp => exact (h.homeUse _).homePut hp
    · exact h

theorem Kept.feWrite (h : Kept s t) {c : FeCtx} {fuel : Nat} {va : W64} {n v : Nat} {r : Except FeErr Unit}
    (e : feWrite c fuel va n v t = (u, r)) : Kept s u := by
  induction fuel generalizing t va n v with
  | zero => cases e; exact h
  | succ fuel ih =>
    unfold Machine.feWrite at e
    dsimp only at e
    split at e
    · cases e; exact h
    · split at e
      · next ht => cases e; exact h.feTr ht
      · next ht =>
        split at e
        · next hp => cases e; exact (h.feTr ht).fePutPa hp
        · next hp => exact ih ((h.feTr ht).fePutPa hp) e

theorem Kept.feRecord (h : Kept s t) {c : FeCtx} {va : W64} {w : List W64} (e : feRecord t c va w = some u) : Kept s u := by
  unfold Machine.feRecord at e
  dsimp only at e
  split at e
  · cases e
  · cases e; exact h.irq _ _
  · next h1 =>
    split at e
    · cases e
    · cases e; exact h.irq _ _
    · next h2 => cases e; exact (h.feWrite h1).feWrite h2

theorem Kept.putRecord (h : Kept s t) {l : Launch} {die st rs dt : Nat} {tr : Option TrapEnd}
    (e : putRecord t l die tr st rs dt = some u) : Kept s u := by
  unfold Machine.putRecord at e
  split at e
  · cases e; exact h
  · split at e
    · cases e; exact h.irq _ _
    · exact h.feRecord e

theorem Kept.finishShare (h : Kept s t) {k st rs dt : Nat} {tr : Option TrapEnd}
    (e : finishShare t k tr st rs dt = some u) : Kept s u := by
  unfold Machine.finishShare at e
  split at e
  · cases e; exact h
  · dsimp only at e
    split at e
    · cases e
    · next hf =>
      obtain ⟨v, hv, rfl⟩ := Option.map_eq_some_iff.1 e
      have kv := (Kept.freeRegionsOf (h.foldl (fun _ k => k.coreDrainAll _) _) hf).putRecord hv
      have gone {rest : Map Share} : Kept s { v with
          launches := Map.del v.launches k, shares := rest, stages := Map.del v.stages k } := kv.same rfl rfl
      exact ((Kept.ite (gone.updMem _) gone).updFe _ _).settleSrc _ _ _

theorem Kept.killDie (h : Kept s t) (die : Nat) : Kept s (killDie t die) := by
  refine h.foldl (fun {u} k hu => ?_) _
  have ended := hu.abandonLaunch k
  have gone : Kept s ((Machine.discardShare (Machine.abandonLaunch true u k) k .reset).getD
    (Machine.abandonLaunch true u k)) := .getD (fun _ e => ended.discardShare (by decide) e) ended
  exact .getD (fun _ e => gone.finishShare e) (gone.same rfl rfl)

/-! #### A die reset (R415) -/

theorem Kept.flushHomes (h : Kept s t) (die : Nat) : Kept s (flushHomes t die) := by
  unfold Machine.flushHomes
  exact .updMem (h.foldl (fun _ k => k.dropL2 _) _) _

theorem Kept.zeroDie (h : Kept s t) (die : Nat) : Kept s (zeroDie t die) := h.same rfl rfl

theorem Kept.clearUnits (h : Kept s t) (die : Nat) : Kept s (clearUnits t die) := h.same rfl rfl

end

end Sys2Proof.Machine
end

/-! ## Die resets (R401, R404, R406, R415) -/

section
namespace Sys2Proof.Machine

section
variable {s t u : State} {die : Nat}

/-! ### Messages

What a reset answers to packets and to fetch requests changes nothing but messages on their way, the engines that keep
copies of them, and instruction caches (R309, R415, R419). -/

/-- `t` differs from `s` in messages, channel engines and instruction caches alone. -/
def MessagesOnly (s t : State) : Prop :=
  ∃ n f e i b, t = { s with nextId := n, fab := f, engs := e, icache := i, fetchBad := b }

theorem MessagesOnly.refl (s : State) : MessagesOnly s s := ⟨_, _, _, _, _, rfl⟩

theorem MessagesOnly.netSend (h : MessagesOnly s t) (src dst : Nat) (m : Msg) : MessagesOnly s (netSend t src dst m) := by
  obtain ⟨n, f, e, i, b, rfl⟩ := h; exact ⟨_, _, _, _, _, rfl⟩

theorem MessagesOnly.updEng (h : MessagesOnly s t) (d : Nat) (g : ChEng → ChEng) : MessagesOnly s (t.updEng d g) := by
  obtain ⟨n, f, e, i, b, rfl⟩ := h; exact ⟨_, _, _, _, _, rfl⟩

theorem MessagesOnly.takeMsg (h : MessagesOnly s t) (n : Nat) : MessagesOnly s (takeMsg t n) := by
  obtain ⟨n, f, e, i, b, rfl⟩ := h; exact ⟨_, _, _, _, _, rfl⟩

theorem MessagesOnly.fetchCame (h : MessagesOnly s t) (ic pa code : Nat) (v : BitVec 256) :
    MessagesOnly s (fetchCame t ic pa code v) := by
  obtain ⟨n, f, e, i, b, rfl⟩ := h
  unfold Machine.fetchCame
  split <;> exact ⟨_, _, _, _, _, rfl⟩

theorem MessagesOnly.foldl {α : Type} {f : State → α → State}
    (hf : ∀ {u} x, MessagesOnly s u → MessagesOnly s (f u x)) (h : MessagesOnly s t) (l : List α) :
    MessagesOnly s (l.foldl f t) := List.foldlRecOn l f h fun _ hu x _ => hf x hu

theorem MessagesOnly.sendAck (h : MessagesOnly s t) (d : Nat) (p : Packet) (x : Deliv) : MessagesOnly s (sendAck t d p x) :=
  h.netSend _ _ _

theorem MessagesOnly.sendHop (h : MessagesOnly s t) (d : Nat) (p : Packet) (i err : Nat) :
    MessagesOnly s (sendHop t d p i err) := by
  unfold Machine.sendHop
  split
  · exact h.sendAck _ _ _
  · exact (h.updEng _ _).netSend _ _ _

theorem MessagesOnly.goneAck (h : MessagesOnly s t) (d : Nat) (p : Packet) : MessagesOnly s (goneAck d t p) := by
  unfold Machine.goneAck chainForward
  dsimp only
  split
  · refine .sendHop ?_ _ _ _ _
    split
    · exact h
    · exact h.netSend _ _ _
  · exact h.sendAck _ _ _

theorem MessagesOnly.fetchAnswer (h : MessagesOnly s t) (src dst ic pa code : Nat) (v : BitVec 256) :
    MessagesOnly s (fetchAnswer t src dst ic pa code v) := by
  unfold Machine.fetchAnswer
  split
  · exact h.fetchCame _ _ _ _
  · exact h.netSend _ _ _

theorem MessagesOnly.bounce (h : MessagesOnly s t) (d : Nat) (p : Nat × NetMsg) : MessagesOnly s (bounce d t p) := by
  unfold Machine.bounce
  dsimp only
  split
  · split
    · exact (h.takeMsg _).goneAck _ _
    · exact h
  · split
    · exact h.takeMsg _
    · split
      · exact (h.takeMsg _).fetchAnswer _ _ _ _ _ _
      · exact h
  · exact h

/-! ### A die reset (R415) -/

theorem Map.get_filter_of_false {α : Type} {m : Map α} {q : Nat × α → Bool} {k : Nat} (h : ∀ v, q (k, v) = false) :
    Map.get (m.filter q) k = none := by
  induction m with
  | nil => rfl
  | cons p m ih =>
    obtain ⟨j, v⟩ := p
    rw [List.filter_cons]
    split
    · next hq =>
      have ne : j ≠ k := by rintro rfl; simp [h] at hq
      rw [Map.get, if_neg ne]; exact ih
    · exact ih

theorem Map.getD_filter_of_false {α : Type} {m : Map α} {q : Nat × α → Bool} {k : Nat} (d : α)
    (h : ∀ v, q (k, v) = false) : Map.getD (m.filter q) k d = d := by
  unfold Map.getD; rw [Map.get_filter_of_false h]; rfl

theorem State.dieIsReset.congr (h : t.dieIsReset die) (hq : u.queues = t.queues) (hg : u.graphs = t.graphs)
    (hm : u.mem = t.mem) (hf : (u.ld die).flip = (t.ld die).flip) (he : (u.ld die).ending = (t.ld die).ending)
    (hk : (u.ld die).hostKey = (t.ld die).hostKey) : u.dieIsReset die := by
  unfold State.dieIsReset State.queue State.graph keyLoaded at *
  rw [hq, hg, hm, hf, he, hk]
  exact h

/-- A logical device after a reset of its die: no flip, no earlier reset, key 0, no snoop of a device request. -/
def Ld.cleared (l : Ld) : Ld := { l with flip := none, ending := none, hostKey := 0, asked := [] }

/-- What of a die reset comes before its messages are answered: launches end, caches are written back and units cleared. -/
def emptiedDie (s : State) (die : Nat) : State :=
  clearUnits (zeroDie (flushHomes ((dieCores s die).foldl coreDrainAll (killDie s die)) die) die) die

theorem emptiedDie_kept (s : State) (die : Nat) : Kept s (emptiedDie s die) :=
  ((((Kept.refl s).killDie die).foldl (fun c k => k.coreDrainAll c) _).flushHomes die).zeroDie die |>.clearUnits die

/-- A die reset is the emptying, answers to messages, a cleared device, and a new front end. -/
theorem dieReset_eq (s : State) (die : Nat) : ∃ t, MessagesOnly (emptiedDie s die) t ∧
    dieReset s die = resetFe (t.setLd die (t.ld die).cleared) die :=
  ⟨_, .foldl (fun _ k => k.goneAck _ _) (.foldl (fun _ k => k.bounce _ _) (.updEng (.refl _) _ _) _) _, rfl⟩

theorem dieReset_ld (s : State) (die : Nat) : (dieReset s die).ld die = (s.ld die).cleared := by
  obtain ⟨t, ⟨n, f, e, i, b, ht⟩, h⟩ := dieReset_eq s die
  have same : t.ld die = s.ld die := by rw [ht]; exact (emptiedDie_kept s die).ld die
  rw [h, ← same]
  exact State.ld_setLd_self _ _ _

theorem dieReset_irqs (s : State) (die : Nat) : s.irqs <+: (dieReset s die).irqs := by
  obtain ⟨t, ⟨n, f, e, i, b, ht⟩, h⟩ := dieReset_eq s die
  have same : t.irqs = (emptiedDie s die).irqs := by rw [ht]
  rw [h]
  exact same ▸ (emptiedDie_kept s die).irqs

theorem dieReset_fe_st (s : State) (die : Nat) :
    ((dieReset s die).fe die).st = if usableQuads (dieReset s die) die = [] then 2 else 1 := by
  obtain ⟨t, -, h⟩ := dieReset_eq s die
  rw [h]
  unfold resetFe
  rw [State.fe_setFe_self]
  simp only [List.isEmpty_iff]
  rfl

theorem dieReset_dieIsReset (s : State) (die : Nat) : (dieReset s die).dieIsReset die := by
  have ld := dieReset_ld s die
  obtain ⟨t, ⟨n, f, e, i, b, ht⟩, h⟩ := dieReset_eq s die
  have queues : (dieReset s die).queues = (emptiedDie s die).queues := by rw [h, ht]; rfl
  have graphs : (dieReset s die).graphs = (emptiedDie s die).graphs := by rw [h, ht]; rfl
  have mem : (dieReset s die).mem = (emptiedDie s die).mem := by rw [h, ht]; rfl
  refine ⟨fun q hq => ?_, fun g hg => ?_, fun k hk k0 => ?_, by rw [ld]; rfl, by rw [ld]; rfl, by rw [ld]; rfl⟩
  · unfold State.queue; rw [queues]
    exact Map.getD_filter_of_false _ fun _ => by simp; omega
  · unfold State.graph; rw [graphs]
    exact Map.getD_filter_of_false _ fun _ => by simp; omega
  · have unloaded : Map.get (emptiedDie s die).mem.slots (die * 64 + k) = none :=
      Map.get_filter_of_false fun _ => by simp; omega
    simp [keyLoaded, Map.has, mem, unloaded, k0]

end

section
variable {s t u : State} {die : Nat}

/-! ### The reset and what follows it (R406, R415) -/

/-- Every page of a die in device bias. -/
def allDevice (s : State) (die : Nat) : State :=
  s.setMem { s.mem with bias := s.mem.bias.filter fun p => decide (p.1 / 2 ^ 24 ≠ die) }

/-- A die reset once every page of the die is in device bias. -/
def deviceReset (s : State) (die : Nat) : State := dieReset (allDevice s die) die

theorem deviceReset_ld (s : State) (die : Nat) : (deviceReset s die).ld die = (s.ld die).cleared :=
  dieReset_ld (allDevice s die) die

theorem deviceReset_irqs (s : State) (die : Nat) : s.irqs <+: (deviceReset s die).irqs := dieReset_irqs (allDevice s die) die

theorem deviceReset_fe_st (s : State) (die : Nat) :
    ((deviceReset s die).fe die).st = if usableQuads (deviceReset s die) die = [] then 2 else 1 :=
  dieReset_fe_st (allDevice s die) die

theorem deviceReset_dieIsReset (s : State) (die : Nat) : (deviceReset s die).dieIsReset die := dieReset_dieIsReset _ die

/-- What the cause of a reset adds to it. -/
def followReset (t : State) (die : Nat) : After → State
  | .plain => t
  | .failed => t.setFe die { Fe.reset with st := 2 }
  | .stop => (t.updLd die fun l => { l with tdi := .unlocked, session := none }).answer .stopped

theorem followReset_irqs (t : State) (die : Nat) (after : After) : (followReset t die after).irqs = t.irqs := by
  cases after <;> rfl

theorem followReset_ld_of_ne_stop (t : State) (die : Nat) {after : After} (h : after ≠ .stop) :
    (followReset t die after).ld die = t.ld die := by
  cases after with
  | plain | failed => rfl
  | stop => exact absurd rfl h

theorem followReset_stop_ld (t : State) (die : Nat) :
    (followReset t die .stop).ld die = { t.ld die with tdi := .unlocked, session := none } := State.ld_setLd_self _ _ _

theorem followReset_dieIsReset (h : t.dieIsReset die) (after : After) : (followReset t die after).dieIsReset die := by
  cases after with
  | plain => exact h
  | failed => exact h.congr rfl rfl rfl rfl rfl rfl
  | stop => refine h.congr rfl rfl rfl ?_ ?_ ?_ <;> rw [followReset_stop_ld]

/-- A die reset with what its cause adds, before the check of the registers that a locked interface freezes (R406). -/
def afterReset (s : State) (die : Nat) (after : After) : State := followReset (deviceReset s die) die after

theorem afterReset_irqs (s : State) (die : Nat) (after : After) : s.irqs <+: (afterReset s die after).irqs := by
  unfold afterReset
  rw [followReset_irqs]
  exact deviceReset_irqs s die

theorem afterReset_dieIsReset (s : State) (die : Nat) (after : After) : (afterReset s die after).dieIsReset die :=
  followReset_dieIsReset (deviceReset_dieIsReset s die) after

theorem afterReset_ld_of_ne_stop (s : State) (die : Nat) {after : After} (h : after ≠ .stop) :
    (afterReset s die after).ld die = (s.ld die).cleared :=
  (followReset_ld_of_ne_stop _ _ h).trans (deviceReset_ld s die)

theorem afterReset_stop_ld (s : State) (die : Nat) : (afterReset s die .stop).ld die =
    { (s.ld die).cleared with tdi := .unlocked, session := none } := by
  unfold afterReset
  rw [followReset_stop_ld, deviceReset_ld]

theorem toError_ld (s : State) (die : Nat) : (toError s die).ld die = { s.ld die with tdi := .error } :=
  State.ld_setLd_self _ _ _

theorem toError_irqs (s : State) (die : Nat) : (toError s die).irqs = s.irqs ++ [(die, 2)] := rfl

theorem toError_fe (s : State) (die d : Nat) : (toError s die).fe d = s.fe d := rfl

theorem toError_usableQuads (s : State) (die d : Nat) : usableQuads (toError s die) d = usableQuads s d := rfl

theorem toError_dieIsReset (h : t.dieIsReset die) : (toError t die).dieIsReset die := by
  refine h.congr rfl rfl rfl ?_ ?_ ?_ <;> rw [toError_ld]

/-- A reset ends as it is, or with the error of an interface that it finds locked. -/
theorem endReset_cases (s : State) (die : Nat) (after : After) : endReset s die after = afterReset s die after ∨
    tdiLocked (afterReset s die after) die = true ∧ endReset s die after = toError (afterReset s die after) die := by
  have eq : endReset s die after = if tdiLocked (afterReset s die after) die &&
      decide (frozenVals (afterReset s die after) die ≠ frozenVals s die) then toError (afterReset s die after) die
    else afterReset s die after := rfl
  rw [eq]
  split
  · next h =>
    rw [Bool.and_eq_true] at h
    exact .inr ⟨h.1, rfl⟩
  · exact .inl rfl

theorem endReset_ld_of_ne_stop (s : State) (die : Nat) {after : After} (h : after ≠ .stop) :
    (endReset s die after).ld die = (s.ld die).cleared ∨
    (endReset s die after).ld die = { (s.ld die).cleared with tdi := .error } := by
  have ld := afterReset_ld_of_ne_stop s die h
  rcases endReset_cases s die after with e | ⟨-, e⟩
  · left; rw [e, ld]
  · right; rw [e, toError_ld, ld]

theorem endReset_stop (s : State) (die : Nat) : endReset s die .stop = afterReset s die .stop := by
  rcases endReset_cases s die .stop with e | ⟨h, -⟩
  · exact e
  · unfold tdiLocked at h
    rw [afterReset_stop_ld] at h
    simp at h

theorem endReset_irqs (s : State) (die : Nat) (after : After) : s.irqs <+: (endReset s die after).irqs := by
  have raised := afterReset_irqs s die after
  rcases endReset_cases s die after with e | ⟨-, e⟩ <;> rw [e]
  · exact raised
  · exact raised.trans (List.prefix_append _ _)

theorem endReset_dieIsReset (s : State) (die : Nat) (after : After) : (endReset s die after).dieIsReset die := by
  have done := afterReset_dieIsReset s die after
  rcases endReset_cases s die after with e | ⟨-, e⟩ <;> rw [e]
  · exact done
  · exact toError_dieIsReset done

/-- A reset leaves a die bound as it was. -/
theorem endReset_port (s : State) (die : Nat) (after : After) : ((endReset s die after).ld die).port = (s.ld die).port := by
  by_cases h : after = .stop
  · subst h; rw [endReset_stop, afterReset_stop_ld]; rfl
  · rcases endReset_ld_of_ne_stop s die h with e | e <;> rw [e] <;> rfl

/-- An interface in ERROR stays so until it is stopped (R406). -/
theorem endReset_tdi_error {after : After} (h : after ≠ .stop) (e : (s.ld die).tdi = .error) :
    ((endReset s die after).ld die).tdi = .error := by
  rcases endReset_ld_of_ne_stop s die h with l | l <;> rw [l]
  exact e

theorem endReset_plain_fe_st (s : State) (die : Nat) : ((endReset s die .plain).fe die).st =
    if usableQuads (endReset s die .plain) die = [] then 2 else 1 := by
  have st : ((afterReset s die .plain).fe die).st = if usableQuads (afterReset s die .plain) die = [] then 2 else 1 :=
    deviceReset_fe_st s die
  rcases endReset_cases s die .plain with e | ⟨-, e⟩ <;> rw [e]
  · exact st
  · rw [toError_fe, toError_usableQuads]; exact st

theorem endReset_failed_fe_st (s : State) (die : Nat) : ((endReset s die .failed).fe die).st = 2 := by
  have st : ((afterReset s die .failed).fe die).st = 2 := congrArg Fe.st (State.fe_setFe_self (deviceReset s die) die _)
  rcases endReset_cases s die .failed with e | ⟨-, e⟩ <;> rw [e]
  · exact st
  · rw [toError_fe]; exact st

theorem endReset_stop_ld (s : State) (die : Nat) : (endReset s die .stop).ld die =
    { (s.ld die).cleared with tdi := .unlocked, session := none } := by
  rw [endReset_stop, afterReset_stop_ld]

theorem followReset_stop_answers (t : State) (die : Nat) : .stopped ∈ (followReset t die .stop).host.answers :=
  List.mem_append_right _ (List.mem_singleton.2 rfl)

theorem endReset_stop_answers (s : State) (die : Nat) : .stopped ∈ (endReset s die .stop).host.answers := by
  rw [endReset_stop]
  exact followReset_stop_answers _ die

/-! ### Host-biased pages, and the wait for their host (R401, R404, R415) -/

/-- No bias flip is in progress on a die, and no reset waits. -/
def Ld.idle (l : Ld) : Prop := l.flip = none ∧ l.ending = none

theorem endReset_idle (s : State) (die : Nat) (after : After) : ((endReset s die after).ld die).idle := by
  obtain ⟨-, -, -, hf, he, -⟩ := endReset_dieIsReset s die after
  exact ⟨hf, he⟩

theorem flipsDone_of_idle (h : (s.ld die).idle) : flipsDone s die = s := by
  unfold flipsDone
  simp only [h.1, h.2]

/-- A flip that ends leaves its die bound as it was, and any reset waiting. -/
theorem flipDone_frame (s : State) (die page status : Nat) : let t := flipDone (setBias s page 0) die status
    (t.ld die).flip = none ∧ (t.ld die).ending = (s.ld die).ending ∧ (t.ld die).port = (s.ld die).port := by
  have ld : (flipDone (setBias s page 0) die status).ld die = { s.ld die with
    flip := none, biasCmd := setField (setField (s.ld die).biasCmd 63 63 0) 55 48 status } := State.ld_setLd_self _ _ _
  intro t
  rw [show t.ld die = _ from ld]
  exact ⟨rfl, rfl, rfl⟩

/-- What is in progress on a die ends, and the die stays bound as it was. -/
theorem flipsDone_frame (s : State) (die : Nat) :
    ((flipsDone s die).ld die).idle ∧ ((flipsDone s die).ld die).port = (s.ld die).port := by
  have ended {t : State} (hf : (t.ld die).flip = none) (hp : (t.ld die).port = (s.ld die).port) {v : State}
      (hv : (match (t.ld die).ending with
        | some e => endReset t die e.after
        | none => t) = v) : (v.ld die).idle ∧ (v.ld die).port = (s.ld die).port := by
    subst hv
    split
    · exact ⟨endReset_idle _ _ _, (endReset_port _ _ _).trans hp⟩
    · next he => exact ⟨⟨hf, he⟩, hp⟩
  unfold flipsDone
  dsimp only
  cases hf : (s.ld die).flip with
  | none => exact ended hf rfl rfl
  | some f =>
    obtain ⟨h1, -, h3⟩ := flipDone_frame s die f.page 0
    exact ended h1 h3 rfl

/-- The reset of a bound die with host-biased pages waits: their lines are snooped. -/
def awaitReset (s : State) (die : Nat) (after : After) : State :=
  ((s.hostPages die).foldl (fun u p => setBias u p 3) s).updLd die fun l =>
    { l with ending := some { lines := (s.hostPages die).flatMap pageLines, since := s.cycle, after := after } }

theorem resetDie_of_idle (h : (s.ld die).idle) (after : After) : resetDie s die after =
    if (s.ld die).port = none ∨ s.hostPages die = [] then endReset s die after else awaitReset s die after := by
  unfold resetDie
  rw [flipsDone_of_idle h]
  simp only [Bool.or_eq_true, Option.isNone_iff_eq_none, List.isEmpty_iff]
  rfl

theorem foldl_setBias_kept (s : State) (pages : List Nat) : Kept s (pages.foldl (fun u p => setBias u p 3) s) :=
  (Kept.refl s).foldl (fun _ k => k.updMem _) _

theorem awaitReset_ld (s : State) (die : Nat) (after : After) : (awaitReset s die after).ld die = { s.ld die with
    ending := some { lines := (s.hostPages die).flatMap pageLines, since := s.cycle, after := after } } := by
  refine (State.ld_setLd_self _ _ _).trans ?_
  rw [(foldl_setBias_kept s _).ld]

theorem awaitReset_irqs (s : State) (die : Nat) (after : After) : s.irqs <+: (awaitReset s die after).irqs :=
  (foldl_setBias_kept s _).irqs

theorem get_bias_foldl_setBias (s : State) (pages : List Nat) (p : Nat) :
    Map.get (pages.foldl (fun u p => setBias u p 3) s).mem.bias p =
      if p ∈ pages then some 3 else Map.get s.mem.bias p := by
  induction pages generalizing s with
  | nil => rfl
  | cons q pages ih =>
    have put : Map.get (setBias s q 3).mem.bias p = if p = q then some 3 else Map.get s.mem.bias p := Map.get_put _ _ _ _
    rw [List.foldl_cons, ih, put]
    by_cases hp : p ∈ pages <;> by_cases hq : p = q <;> simp [hp, hq]

theorem mem_pageLines (n page : Nat) : n ∈ pageLines page ↔ n / 64 = page := by
  unfold pageLines
  rw [List.mem_map]
  constructor
  · rintro ⟨i, hi, rfl⟩
    have := List.mem_range.1 hi
    omega
  · rintro rfl
    exact ⟨n % 64, List.mem_range.2 (by omega), by omega⟩

/-- A reset that may wait keeps the binding, an interface in ERROR and every interrupt. -/
theorem resetDie_plain_of_idle (h : (s.ld die).idle) : let t := resetDie s die .plain
    (t.ld die).port = (s.ld die).port ∧ ((s.ld die).tdi = .error → (t.ld die).tdi = .error) ∧ s.irqs <+: t.irqs := by
  intro t
  rw [show t = _ from resetDie_of_idle h _]
  split
  · exact ⟨endReset_port _ _ _, endReset_tdi_error (by decide), endReset_irqs _ _ _⟩
  · rw [awaitReset_ld]
    exact ⟨rfl, id, awaitReset_irqs _ _ _⟩

/-- A TDISP error is reported, and resets the die (R406). -/
theorem tdiError_frame (s : State) (die : Nat) : let t := tdiError s die
    (t.ld die).tdi = .error ∧ (t.ld die).port = (s.ld die).port ∧ (die, 2) ∈ t.irqs := by
  obtain ⟨⟨hf, he⟩, hp⟩ := flipsDone_frame s die
  have ld := toError_ld (flipsDone s die) die
  have idle : ((toError (flipsDone s die) die).ld die).idle := by rw [ld]; exact ⟨hf, he⟩
  obtain ⟨port, tdi, irqs⟩ := resetDie_plain_of_idle idle
  refine ⟨tdi (by rw [ld]), ?_, irqs.subset ?_⟩
  · rw [ld] at port; exact port.trans hp
  · rw [toError_irqs]; exact List.mem_append_right _ (List.mem_singleton.2 rfl)

/-- The reset of an unbound die waits for nothing. -/
theorem resetDie_unbound (h : (s.ld die).port = none) (after : After) : (resetDie s die after).dieIsReset die ∧
    ((resetDie s die after).ld die).port = none := by
  obtain ⟨idle, port⟩ := flipsDone_frame s die
  have now : resetDie s die after = endReset (flipsDone s die) die after := by
    unfold resetDie
    dsimp only
    rw [port, h]; rfl
  rw [now]
  exact ⟨endReset_dieIsReset _ _ _, (endReset_port _ _ _).trans (port.trans h)⟩

theorem tdiError_unbound (h : (s.ld die).port = none) : (tdiError s die).dieIsReset die := by
  refine (resetDie_unbound ?_ _).1
  rw [toError_ld]
  exact (flipsDone_frame s die).2.trans h

end

end Sys2Proof.Machine
end

/-! ## Bring-up, binding and link resets (R393, R406, R412 to R415) -/

section
namespace Sys2Proof.Machine

/-! ### What the events do, one equation each -/

theorem exec_dieReset (s : State) (die : Nat) : exec (.dieReset die) s = execDieReset die s := rfl
theorem exec_flr (s : State) (die : Nat) : exec (.flr die) s = execFlr die s := rfl
theorem exec_bind (s : State) (die port : Nat) : exec (.bind die port) s = execBind die port s := rfl
theorem exec_unbind (s : State) (die : Nat) : exec (.unbind die) s = execUnbind die s := rfl
theorem exec_linkHotReset (s : State) (port : Nat) : exec (.linkHotReset port) s = execLinkHotReset port s := rfl
theorem exec_coldReset (s : State) : exec .coldReset s = .next (coldReset s) := rfl
theorem exec_recoveryVerify (s : State) (image svn : Nat) (passes : Bool) :
    exec (.recoveryVerify image passes svn) s = execRecoveryVerify image passes svn s := rfl
theorem exec_svnRaise (s : State) : exec .svnRaise s = execSvnRaise s := rfl
theorem exec_ideIntegrityFailure (s : State) (n : Nat) : exec (.ideIntegrityFailure n) s = execIdeIntegrityFailure n s := rfl
theorem exec_clockStep (s : State) (mhz watts : Nat) : exec (.clockStep mhz watts) s = execClockStep mhz watts s := rfl
theorem exec_thermalTrip (s : State) : exec .thermalTrip s = .next (s.updHost fun h => { h with phase := 3 }) := rfl

section
variable {s : State} {die : Nat}

theorem tdiLocked_iff : tdiLocked s die = true ↔ (s.ld die).tdi = .locked ∨ (s.ld die).tdi = .run := by
  simp [tdiLocked]

/-! ### Binding (R393) -/

theorem rebind_of_locked (h : tdiLocked s die = true) (port : Option Nat) :
    rebind s die port = tdiError (s.updLd die fun l => { l with port := port }) die := by
  unfold rebind; exact if_pos h

theorem rebind_of_not_locked (h : tdiLocked s die = false) (port : Option Nat) :
    rebind s die port = s.setLd die { s.ld die with port := port } := by
  unfold rebind; rw [h]; rfl

theorem rebind_port (s : State) (die : Nat) (port : Option Nat) : ((rebind s die port).ld die).port = port := by
  have ld : ((s.updLd die fun l => { l with port := port }).ld die).port = port :=
    congrArg Ld.port (State.ld_setLd_self _ _ _)
  cases h : tdiLocked s die with
  | false => rw [rebind_of_not_locked h]; exact ld
  | true =>
    obtain ⟨-, hp, -⟩ := tdiError_frame (s.updLd die fun l => { l with port := port }) die
    rw [rebind_of_locked h]; exact hp.trans ld

theorem rebind_tdi_error (h : tdiLocked s die = true) (port : Option Nat) : ((rebind s die port).ld die).tdi = .error := by
  rw [rebind_of_locked h]
  exact (tdiError_frame _ die).1

/-- Unbinding acts as a die reset, and leaves the die unbound. -/
theorem unbind_resets (s : State) (die : Nat) :
    let t := if tdiLocked s die then rebind s die none else resetDie (rebind s die none) die .plain
    (t.ld die).port = none ∧ t.dieIsReset die := by
  have port := rebind_port s die none
  cases h : tdiLocked s die with
  | false =>
    obtain ⟨done, p⟩ := resetDie_unbound port .plain
    exact ⟨p, done⟩
  | true =>
    refine ⟨port, ?_⟩
    rw [if_pos rfl, rebind_of_locked h]
    exact tdiError_unbound (congrArg Ld.port (State.ld_setLd_self _ _ _))

/-! ### Link and cold resets (R413 to R415) -/

theorem settleReset_eq (s : State) (die : Nat) : settleReset s die = match (s.ld die).ending with
    | some e => if e.lines = [] then endReset s die e.after else s
    | none => s := by
  unfold settleReset
  cases (s.ld die).ending with
  | none => rfl
  | some e => simp only [List.isEmpty_iff]

theorem Map.get_map_const {α : Type} {l : List Nat} {k : Nat} (v : α) (h : k ∈ l) :
    Map.get (l.map fun d => (d, v)) k = some v := by
  induction l with
  | nil => cases h
  | cons j l ih =>
    rw [List.map_cons, Map.get]
    split
    · rfl
    · next ne => exact ih (List.mem_of_ne_of_mem (Ne.symm ne) h)

theorem coldReset_of_passes (h : s.host.image.2.1 = true ∧ s.host.minSvn ≤ s.host.image.2.2) :
    (coldReset s).host.phase = 1 ∧ ∀ d, d < 16 → ((coldReset s).fe d).st = 1 := by
  have ok : (s.host.image.2.1 && decide (s.host.minSvn ≤ s.host.image.2.2)) = true := by simpa using h
  unfold coldReset
  simp only [ok, if_true]
  refine ⟨trivial, fun d hd => ?_⟩
  unfold State.fe Map.getD
  dsimp only
  rw [Map.get_map_const _ (List.mem_range.2 hd)]; rfl

theorem coldReset_of_fails (h : ¬(s.host.image.2.1 = true ∧ s.host.minSvn ≤ s.host.image.2.2)) :
    (coldReset s).host.phase = 2 ∧ ∀ d, ((coldReset s).fe d).st = 0 := by
  have bad : (s.host.image.2.1 && decide (s.host.minSvn ≤ s.host.image.2.2)) = false := by
    rw [← Bool.not_eq_true]; simpa using h
  unfold coldReset
  simp only [bad, Bool.false_eq_true, if_false]
  exact ⟨trivial, fun _ => rfl⟩

theorem coldReset_keeps (s : State) : (coldReset s).mem = State.reset.mem ∧ (coldReset s).fibres = State.reset.fibres ∧
    (coldReset s).queues = [] ∧ (coldReset s).host.image = s.host.image ∧ (coldReset s).host.minSvn = s.host.minSvn :=
  ⟨rfl, rfl, rfl, rfl, rfl⟩

/-- A hot reset of a link answers every snoop of the devices on it, and brings it back (R415). -/
def hotReset (s : State) (port : Nat) : State :=
  let done (l : Ld) : Ld := { l with flip := l.flip.map fun f => { f with lines := [] }
                                     ending := l.ending.map fun f => { f with lines := [] } }
  { s with
    lds := Map.mapVals (fun l => if l.port = some port then done l else l) s.lds
    spdm := { s.spdm with down := s.spdm.down.filter (· ≠ port) } }

theorem exec_linkHotReset_of_lt {port : Nat} (h : port < 2) (s : State) :
    exec (.linkHotReset port) s = .next ((List.range 16).foldl settleReset (hotReset s port)) := by
  rw [exec_linkHotReset, execLinkHotReset, if_neg (by omega)]; rfl

theorem hotReset_answers {port : Nat} {p : Nat × Ld} (hp : p ∈ (hotReset s port).lds) (on : p.2.port = some port) :
    (∀ f, p.2.flip = some f → f.lines = []) ∧ ∀ e, p.2.ending = some e → e.lines = [] := by
  obtain ⟨⟨d, l⟩, -, rfl⟩ := List.mem_map.1 hp
  dsimp only at on ⊢
  split at on
  · next h =>
    rw [if_pos h]
    constructor
    · rintro f hf
      obtain ⟨g, -, rfl⟩ := Option.map_eq_some_iff.1 hf
      rfl
    · rintro e he
      obtain ⟨g, -, rfl⟩ := Option.map_eq_some_iff.1 he
      rfl
  · next h => exact absurd on h

/-! ### The wait of a reset for its host -/

theorem awaitReset_ending (s : State) (die : Nat) (after : After) :
    ∃ e, ((awaitReset s die after).ld die).ending = some e ∧ e.after = after ∧ e.since = s.cycle ∧
      ∀ n, n ∈ e.lines ↔ n / 64 ∈ s.hostPages die := by
  rw [awaitReset_ld]
  refine ⟨_, rfl, rfl, rfl, fun n => ?_⟩
  simp only [List.mem_flatMap, mem_pageLines]
  exact ⟨fun ⟨page, hp, e⟩ => e ▸ hp, fun hp => ⟨_, hp, rfl⟩⟩

theorem awaitReset_bias (s : State) (die : Nat) (after : After) {p : Nat} (h : p ∈ s.hostPages die) :
    Map.get (awaitReset s die after).mem.bias p = some 3 :=
  (get_bias_foldl_setBias s (s.hostPages die) p).trans (if_pos h)

/-- While a reset waits, the die's front end starts nothing. -/
theorem feRuns_awaitReset (s : State) (die : Nat) (after : After) : feRuns (awaitReset s die after) die = false := by
  unfold feRuns
  rw [awaitReset_ld]
  simp

end

section
variable {s : State} {die : Nat} (hd : die < 16) (hp : s.host.phase = 1)
include hd hp

theorem exec_dieReset_of_up : exec (.dieReset die) s = .next (resetDie s die .plain) := by
  rw [exec_dieReset, execDieReset, if_neg (by omega), if_neg (by omega)]

theorem exec_flr_of_up : exec (.flr die) s = .next (tdiError s die) := by
  rw [exec_flr, execFlr, if_neg (by omega), if_neg (by omega)]

theorem exec_bind_of_up {port : Nat} (h2 : port < 2) (free : (s.ld die).port = none) :
    exec (.bind die port) s = .next (rebind s die (some port)) := by
  rw [exec_bind, execBind, if_neg (by omega), if_neg (by simp [hp, free])]

theorem exec_unbind_of_up (bound : (s.ld die).port ≠ none) : exec (.unbind die) s =
    .next (if tdiLocked s die then rebind s die none else resetDie (rebind s die none) die .plain) := by
  rw [exec_unbind, execUnbind, if_neg (by omega), if_neg (by simp [hp, bound])]

end

theorem exec_recoveryVerify_of_refused {s : State} {image svn : Nat} {passes : Bool}
    (h : passes = false ∨ svn < s.host.minSvn) : exec (.recoveryVerify image passes svn) s = .next s := by
  rw [exec_recoveryVerify]
  refine if_neg ?_
  rintro ⟨-, pass, new⟩
  rcases h with rfl | old
  · cases pass
  · omega

/-! ### Bring-up and resets: the statement's parts -/

/-- R393, R406, R412 to R415. -/
theorem bringUpAndResets : Claims.BringUpAndResets := by
  unfold Claims.BringUpAndResets
  refine ⟨fun die port s hd hp => ?_, fun port s hp => ?_, fun s => ?_, fun s image svn passes =>
    ⟨fun h2 pass new => ?_, exec_recoveryVerify_of_refused, fun h1 h2 => ?_⟩⟩
  · intro locked
    obtain ⟨error, -, raised⟩ := tdiError_frame s die
    refine ⟨⟨exec_dieReset_of_up hd hp, fun hf he after => ⟨fun h => ?_, fun h1 h2 => ?_⟩, endReset_dieIsReset s die,
      endReset_plain_fe_st s die, endReset_failed_fe_st s die, ?_⟩, ⟨exec_flr_of_up hd hp, error, raised⟩,
      fun h2 free => ?_, fun bound => ?_⟩
    · rw [resetDie_of_idle ⟨hf, he⟩, if_pos h]
    · rw [resetDie_of_idle ⟨hf, he⟩, if_neg (not_or.2 ⟨h1, h2⟩)]
      exact ⟨awaitReset_ending s die after, fun p => awaitReset_bias s die after, feRuns_awaitReset s die after⟩
    · have ld := endReset_stop_ld s die
      exact ⟨congrArg Ld.tdi ld, congrArg Ld.session ld, endReset_stop_answers s die⟩
    · exact ⟨_, exec_bind_of_up hd hp h2 free, rebind_port s die _, fun l => rebind_tdi_error (tdiLocked_iff.2 l) _,
        fun l => rebind_of_not_locked (Bool.eq_false_iff.2 fun k => l (tdiLocked_iff.1 k)) _⟩
    · obtain ⟨port, queues, -⟩ := unbind_resets s die
      exact ⟨_, exec_unbind_of_up hd hp bound, port, queues⟩
  · exact ⟨hotReset s port, exec_linkHotReset_of_lt hp s, rfl, fun _ hl on => hotReset_answers hl on, settleReset_eq⟩
  · intro h ok
    obtain ⟨mem, fibres, queues, image, svn⟩ := coldReset_keeps s
    refine ⟨coldReset s, exec_coldReset s, mem, fibres, queues, image, svn, coldReset_of_passes, fun no => ?_⟩
    obtain ⟨phase, st⟩ := coldReset_of_fails no
    exact ⟨phase, st⟩
  · rw [exec_recoveryVerify, execRecoveryVerify, if_pos ⟨h2, pass, new⟩, exec_coldReset]
  · rw [exec_svnRaise, execSvnRaise, if_pos ⟨h1, h2⟩]

end Sys2Proof.Machine
end

/-! ## Link, clock and power (R3, R410, R416, R417) -/

section
namespace Sys2Proof.Machine

/-! ### The clock (R3, R417) -/

/-- A step of 25 MHz between 600 and 1,200 that the thermal limits allow and whose power is within the limit. -/
def HostSt.fits (h : HostSt) (m : Nat) : Prop :=
  m % 25 = 0 ∧ 600 ≤ m ∧ m ≤ 1200 ∧ m ≤ h.thermal ∧ h.power.getD ((m - 600) / 25) 0 ≤ h.limit

/-- The highest of these steps, or 600 where there is none. -/
def HostSt.highest (h : HostSt) (m : Nat) : Prop :=
  (h.fits m ∧ ∀ n, h.fits n → n ≤ m) ∨ ((∀ n, ¬h.fits n) ∧ m = 600)

/-- The step was changed less than 10 µs ago. -/
def State.soon (s : State) : Prop := ∃ n, s.host.stepNs = some n ∧ s.timeNs.toNat < n + 10000

/-- The steps of the clock, the highest first. -/
def clockSteps : List Nat := (List.range 25).map fun i => 1200 - 25 * i

theorem mem_clockSteps (m : Nat) : m ∈ clockSteps ↔ m % 25 = 0 ∧ 600 ≤ m ∧ m ≤ 1200 := by
  unfold clockSteps
  simp only [List.mem_map, List.mem_range]
  constructor
  · rintro ⟨i, hi, rfl⟩; omega
  · intro h; exact ⟨(1200 - m) / 25, by omega, by omega⟩

theorem clockSteps_falling : clockSteps.Pairwise (· > ·) := by decide

/-- In a falling list, the first element with a property is the greatest with it. -/
theorem le_of_find?_falling {l : List Nat} (hl : l.Pairwise (· > ·)) {p : Nat → Bool} {m : Nat} (h : l.find? p = some m)
    {n : Nat} (hn : n ∈ l) (pn : p n = true) : n ≤ m := by
  obtain ⟨-, xs, ys, rfl, before⟩ := List.find?_eq_some_iff_append.1 h
  rcases List.mem_append.1 hn with hx | hy
  · exact absurd pn (by simpa using before n hx)
  · rcases List.mem_cons.1 hy with rfl | hy
    · exact Nat.le_refl _
    · exact Nat.le_of_lt ((List.pairwise_cons.1 (List.pairwise_append.1 hl).2.1).1 n hy)

theorem topStep_highest (h : HostSt) : h.highest (topStep h) := by
  let ok : Nat → Bool := fun m => decide (m ≤ h.thermal) && decide (h.power.getD ((m - 600) / 25) 0 ≤ h.limit)
  have fits (m : Nat) : h.fits m ↔ m ∈ clockSteps ∧ ok m = true := by
    simp [HostSt.fits, mem_clockSteps, ok, and_assoc]
  have eq : topStep h = (clockSteps.find? ok).getD 600 := rfl
  cases hf : clockSteps.find? ok with
  | some m =>
    rw [eq, hf]
    refine .inl ⟨(fits m).2 ⟨List.mem_of_find?_eq_some hf, List.find?_some hf⟩, fun n hn => ?_⟩
    exact le_of_find?_falling clockSteps_falling hf ((fits n).1 hn).1 ((fits n).1 hn).2
  | none =>
    rw [eq, hf]
    refine .inr ⟨fun n hn => ?_, rfl⟩
    exact List.find?_eq_none.1 hf n ((fits n).1 hn).1 ((fits n).1 hn).2

theorem HostSt.highest_unique {h : HostSt} {m n : Nat} (hm : h.highest m) (hn : h.highest n) : m = n := by
  rcases hm with ⟨fm, um⟩ | ⟨nm, rfl⟩ <;> rcases hn with ⟨fn, un⟩ | ⟨nn, rfl⟩
  · exact Nat.le_antisymm (un m fm) (um n fn)
  · exact absurd fm (nn m)
  · exact absurd fn (nm n)
  · rfl

theorem HostSt.highest_iff (h : HostSt) (m : Nat) : h.highest m ↔ m = topStep h :=
  ⟨fun hm => h.highest_unique hm (topStep_highest h), fun e => e ▸ topStep_highest h⟩

theorem stepSoon_iff (s : State) : stepSoon s = true ↔ s.soon := by
  unfold stepSoon State.soon
  cases s.host.stepNs with
  | none => simp
  | some n => simp

/-- CLOCK_STEP does nothing where the step is not the highest, or is a change that comes too soon. -/
theorem clockStep_refused_iff (s : State) (mhz : Nat) :
    (decide (mhz ≠ topStep s.host) || (stepSoon s && decide (mhz ≠ s.host.mhz))) = true ↔
      ¬(mhz = topStep s.host ∧ (¬s.soon ∨ mhz = s.host.mhz)) := by
  rw [← stepSoon_iff, Bool.or_eq_true, Bool.and_eq_true, decide_eq_true_eq, decide_eq_true_eq, Classical.not_and_iff_not_or_not,
    not_or, Classical.not_not]

theorem exec_clockStep_of_allowed {s : State} {mhz : Nat} (watts : Nat)
    (h : mhz = topStep s.host ∧ (¬s.soon ∨ mhz = s.host.mhz)) :
    exec (.clockStep mhz watts) s = .next (s.updHost fun h => { h with
      mhz := mhz, watts := watts % 65536, stepNs := if mhz = h.mhz then h.stepNs else some s.timeNs.toNat }) := by
  rw [exec_clockStep]
  exact if_neg fun k => (clockStep_refused_iff s mhz).1 (by simpa using k) h

theorem exec_clockStep_of_not_allowed {s : State} {mhz : Nat} (watts : Nat)
    (h : ¬(mhz = topStep s.host ∧ (¬s.soon ∨ mhz = s.host.mhz))) : exec (.clockStep mhz watts) s = .next s := by
  rw [exec_clockStep]
  exact if_pos (by simpa using (clockStep_refused_iff s mhz).2 h)

theorem holdStep_of_soon {s : State} (h : s.soon) : holdStep s = s := if_pos ((stepSoon_iff s).2 h)

theorem holdStep_mhz {s : State} (h : ¬s.soon) : (holdStep s).host.mhz = topStep s.host := by
  rw [holdStep, if_neg (fun k => h ((stepSoon_iff s).1 k))]; rfl

theorem tick_holdStep (cycles ns : Nat) (s : State) : ∃ u, tick cycles ns s = holdStep u := ⟨_, rfl⟩

/-! ### Power (R417) -/

theorem poweredTurn_iff (t : Turn) : poweredTurn t = true ↔ t = .event .coldReset := by
  constructor
  · unfold poweredTurn
    split
    · exact fun _ => rfl
    · exact fun h => absurd h Bool.false_ne_true
  · rintro rfl; rfl

/-- A package that is powered off faults at every step but a cold reset. -/
theorem step_of_poweredOff {s : State} (off : s.host.phase = 3) (h : ∀ rest, s.agenda ≠ .event .coldReset :: rest) :
    step s = .fault .poweredOff := by
  unfold step nextStep
  split
  · exact if_pos off
  · next t rest ha =>
    refine if_pos ⟨off, Bool.eq_false_iff.2 fun on => ?_⟩
    rw [(poweredTurn_iff t).1 on] at ha
    exact h rest ha

theorem step_coldReset {s : State} {rest : List Turn} (h : s.agenda = .event .coldReset :: rest) :
    step s = .next (endTurn (coldReset { s with agenda := rest })) := by
  unfold step nextStep
  rw [h]
  exact if_neg (fun k => Bool.false_ne_true k.2.symm)

/-- R3, R410, R416, R417. -/
theorem linkClockPower : Claims.LinkClockPower := by
  unfold Claims.LinkClockPower
  refine ⟨fun stream s ok used => ?_, fun mhz watts s => ?_, exec_thermalTrip,
    fun s off => ⟨step_of_poweredOff off, fun rest h => ?_⟩⟩
  · rw [exec_ideIntegrityFailure, execIdeIntegrityFailure, if_neg (by simp [ok, used])]
  · refine ⟨fun top h => exec_clockStep_of_allowed watts ⟨(s.host.highest_iff mhz).1 top, h⟩,
      fun h => exec_clockStep_of_not_allowed watts fun k => h ⟨(s.host.highest_iff mhz).2 k.1, k.2⟩,
      fun late => ?_, holdStep_of_soon, fun cycles ns => tick_holdStep cycles ns s⟩
    exact (s.host.highest_iff _).2 (holdStep_mhz late)
  · exact ⟨_, exec_coldReset _, step_coldReset h⟩

/-- Settles O51: bring-up, binding and resets, and then link, clock and power. -/
theorem resetsClockPower : Obligations.ResetsClockPower := ⟨bringUpAndResets, linkClockPower⟩

end Sys2Proof.Machine
end

/-! ## Conversions and packing (R139 to R145) -/

section
namespace Sys2Proof.Machine

/-! ### What one thread takes from an encoding (R41, R74) -/

/-- A fibre whose register d takes a value; register 0 takes none. -/
def Fibre.takeX (d : Nat) (v : W32) (F : Fibre) : Fibre := if d = 0 then F else F.putX d v

def Seq.takeX (d : Nat) (v : W32) (M : Seq) : Seq := if d = 0 then M else M.putX d v

/-- A fibre whose conversion flag is set where an encoding says so. -/
def Fibre.takeCvf (b : Bool) (F : Fibre) : Fibre := if b then { F with pw := setBit32 F.pw 31 true } else F

theorem Fibre.takeX_kept (d : Nat) (v : W32) (F : Fibre) : (F.takeX d v).kept = F.kept := by
  unfold Fibre.takeX; split <;> rfl

theorem Seq.takeX_kept (d : Nat) (v : W32) (M : Seq) : (M.takeX d v).kept = M.kept := by
  unfold Seq.takeX; split <;> rfl

theorem Fibre.takeCvf_kept (b : Bool) (F : Fibre) : (F.takeCvf b).kept = F.kept := by
  cases b <;> rfl

/-- The registers that `wrX` names, in the terms of the record of one thread. -/
theorem wrX_eq (f : Fields) (v : Thr → W32) (x : Thr) :
    wrX f v x = if f.d.toNat = 0 then [] else [(f.d.toNat, v x)] := by
  simp only [wrX, d_zero_iff]

theorem Rec.Did.takeCvf (F : Fibre) (b : Bool) (n : Nat) :
    Rec.Did F.rec' (F.takeCvf b).rec' n 0 true [] (if b then [(31, true)] else []) [] := by
  cases b with
  | false => exact Rec.Did.refl _ _ _
  | true =>
    refine Rec.Did.pw (fun m hm => ?_) rfl
    show (setBit32 F.pw 31 true).getLsbD m = _
    rw [setBit32_getLsbD _ _ _ _ hm, if_pos rfl, lookup_one]
    split <;> rfl

/-! ### The model's writes as changes of the thread's record

A write to register 0, and a flag that is not set, leave the state itself, not the state with the same record put back.
The two become equal once the thread's record is changed again, as it is when the thread moves on. -/

theorem State.onThr_wx (s : State) (t : Thr) (d : Nat) (w : W32) (u : Fibre → Fibre) (v : Seq → Seq) :
    (s.wx t d w).onThr t u v = s.onThr t (u ∘ Fibre.takeX d w) (v ∘ Seq.takeX d w) := by
  rw [State.wx_eq]
  by_cases h : d = 0
  · have hF : Fibre.takeX d w = id := funext fun F => if_pos h
    have hM : Seq.takeX d w = id := funext fun M => if_pos h
    rw [if_pos h, hF, hM, Function.comp_id, Function.comp_id]
  · have hF : Fibre.takeX d w = fun F => F.putX d w := funext fun F => if_neg h
    have hM : Seq.takeX d w = fun M => M.putX d w := funext fun M => if_neg h
    rw [if_neg h, State.onThr_onThr, hF, hM]

theorem State.setCvf_eq (s : State) (k : Nat) : s.setCvf (.fib k) = s.onThr (.fib k) (Fibre.takeCvf true) id := rfl

theorem State.onThr_flagCvf (s : State) (t : Thr) (b : Bool) (u : Fibre → Fibre) (v : Seq → Seq) :
    (s.flagCvf t b).onThr t u v = s.onThr t (u ∘ Fibre.takeCvf b) v := by
  cases b with
  | false => cases t <;> rfl
  | true =>
    cases t with
    | fib k =>
      show (s.setCvf (.fib k)).onThr _ u v = _
      rw [State.setCvf_eq, State.onThr_onThr]
      rfl
    | mat q => rfl
    | cop c => rfl

/-- A thread that takes the result of an encoding and moves on. -/
theorem State.adv_flagCvf_wx (s : State) (t : Thr) (d len : Nat) (w : W32) (b : Bool) :
    ((s.wx t d w).flagCvf t b).adv t len =
      (s.putThr t (fun _ => Fibre.takeCvf b ∘ Fibre.takeX d w) (fun _ => Seq.takeX d w) 0).adv t len := by
  rw [← onThr_putThr, State.adv_eq, State.adv_eq, State.onThr_flagCvf, State.onThr_wx, State.onThr_onThr]
  rfl

/-- Two ways to change a thread that agree once it has moved on make the same instruction. -/
theorem State.alu_congr (s : State) (f : Fields) (len : Nat) {g g' : Thr → State → State}
    (h : ∀ s' t, (g t s').adv t len = (g' t s').adv t len) : s.alu f len g = s.alu f len g' := by
  have hfun : (fun s' t => (g t s').adv t len) = fun s' t => (g' t s').adv t len :=
    funext fun s' => funext fun t => h s' t
  unfold State.alu
  rw [hfun]

/-! ### Instructions that encode -/

/-- An instruction whose execution is `aluEnc`: register D and CVF take what the encoding gives. -/
theorem givesEnc_of_exec {i : Instr} {s : State} {f : Fields} {v : Thr → W32 × Bool} (h : exec i s = s.aluEnc f v) :
    i.givesEnc s f v := by
  unfold Instr.givesEnc
  rw [h, State.aluEnc, State.alu_congr s f 0 fun s' t => State.adv_flagCvf_wx s' t f.d.toNat 0 (v t).1 (v t).2]
  refine State.alu_ran s f 0 _ (fun x _ => Fibre.takeCvf (v x).2 ∘ Fibre.takeX f.d.toNat (v x).1)
    (fun x _ => Seq.takeX f.d.toNat (v x).1) (fun _ => 0) _ _ wrNone (fun _ _ => rfl) (fun k n F => ⟨?_, ?_⟩)
    (fun x n M hx => ⟨?_, Seq.takeX_kept ..⟩)
  · rw [wrX_eq]
    exact (Rec.Did.regOf F _ _ n).addPw (Rec.Did.takeCvf _ _ n)
  · exact (Fibre.takeCvf_kept ..).trans (Fibre.takeX_kept ..)
  · rw [wrX_eq]
    cases x with
    | fib k => exact absurd hx Bool.noConfusion
    | mat q => exact Rec.Did.regOfS M _ _ n
    | cop c => exact Rec.Did.regOfS M _ _ n

theorem exec_cvt (f : Fields) (s : State) :
    exec (.cvt f) s = s.aluEnc f fun x => encWord (cvtElem f (srcA f s x)) := rfl
theorem exec_f2i (f : Fields) (s : State) :
    exec (.f2i f) s = s.aluEnc f fun x => encWord (f2iElem f (srcA f s x)) := rfl
theorem exec_i2f (f : Fields) (s : State) :
    exec (.i2f f) s = s.aluEnc f fun x => encWord (i2fElem f (srcA f s x)) := rfl
theorem exec_pack (f : Fields) (s : State) :
    exec (.pack f) s = s.aluEnc f fun x => packElem f (srcA f s x) (srcB f s x) (srcC f s x) := rfl

/-! ### UNPK (R143) -/

theorem givesX_of_exec {i : Instr} {s : State} {f : Fields} {len : Nat} {v : Thr → W32} (h : exec i s = s.aluX f len v) :
    i.givesX s f len v := by
  unfold Instr.givesX
  rw [h]
  exact State.aluX_ran s f len v

theorem exec_unpk (f : Fields) (s : State) :
    exec (.unpk f) s = s.aluX f 0 fun x => unpkPlain f (srcA f s x) (srcB f s x) := rfl
theorem exec_unpkScaled (f : Fields) (s : State) :
    exec (.unpkScaled f) s = s.aluX f 0 fun x => unpkScaled f (srcA f s x) (srcB f s x) (srcC f s x) := rfl

/-! ### QBLK (R144, R46) -/

/-- What QBLK leaves on its way to a lane: its element for register d, and CVF where the encoding sets it. Nothing is on
its way where neither is written; the result's number is given when it is put in a thread's record. -/
def qblkPend (d : Nat) (r : W32 × Bool) : Option Pend :=
  if d = 0 ∧ r.2 = false then none
  else some ⟨0, if d = 0 then [] else [d], if d = 0 then [] else [r.1], if r.2 then [31] else [],
    if r.2 then [true] else [], true⟩

theorem qblkPend_what (d : Nat) (r : W32 × Bool) : (qblkPend d r).toList.map Pend.what =
    if d = 0 ∧ r.2 = false then []
    else [(if d = 0 then [] else [(d, r.1)], if r.2 then [(31, true)] else [], true)] := by
  obtain ⟨w, b⟩ := r
  by_cases h : d = 0 <;> cases b <;> simp [qblkPend, Pend.what, h]

/-- The element and its flag make one pending result of a lane. -/
theorem State.pend_qblk (s : State) (k d : Nat) (r : W32 × Bool) :
    s.pend (.fib k) [d] [r.1] (if r.2 then [31] else []) [true] true =
      match qblkPend d r with
      | none => s
      | some p => { s.setFib k { s.fib k with pend := (s.fib k).pend ++ [{ p with id := s.nextId }] } with
          nextId := s.nextId + 1 } := by
  obtain ⟨w, b⟩ := r
  by_cases h : d = 0 <;> cases b <;> simp [State.pend, State.pendFib, State.updFib, qblkPend, h]

theorem exec_qblk (f : Fields) (s : State) : exec (.qblk f) s = s.alu f 0 fun x s' =>
    s'.pend x [f.d.toNat] [(qblkLane f s (s.active f) x).1] (if (qblkLane f s (s.active f) x).2 then [31] else [])
      [true] true := rfl

/-- The instruction completes with each active lane's element and flag on their way together. -/
theorem qblk_ran (f : Fields) (s : State) {b : Nat} (hb : s.focus = .band b) :
    ∃ t, exec (.qblk f) s = .next t ∧ s.Ran t f 0 wrNone wrNone fun x =>
      (qblkPend f.d.toNat (qblkLane f s (s.active f) x)).toList.map Pend.what := by
  rw [exec_qblk]
  exact State.alu_pend s f 0 _ (fun x => qblkPend f.d.toNat (qblkLane f s (s.active f) x)) hb fun k s' _ =>
    State.pend_qblk s' k f.d.toNat _

/-- Settles O5: the encoding instructions by what `aluEnc` does, UNPK by what `aluX` does, and QBLK by its pending
result. -/
theorem conversions : Obligations.Conversions := by
  unfold Obligations.Conversions
  intro f s
  refine ⟨givesEnc_of_exec (exec_cvt f s), givesEnc_of_exec (exec_f2i f s), givesEnc_of_exec (exec_i2f f s),
    givesEnc_of_exec (exec_pack f s), givesX_of_exec (exec_unpk f s), givesX_of_exec (exec_unpkScaled f s), fun b hb => ?_⟩
  have h := qblk_ran f s hb
  simp only [qblkPend_what, d_zero_iff] at h
  exact h

end Sys2Proof.Machine
end

/-! ## 32-bit arithmetic and division (R122, R123) -/

section
namespace Sys2Proof.Machine

/-! ### Words as numbers modulo their width (R51) -/

theorem ofInt_toNat {w : Nat} (a : BitVec w) : BitVec.ofInt w a.toNat = a := by
  rw [BitVec.ofInt_natCast, BitVec.ofNat_toNat, BitVec.setWidth_eq]

theorem ofInt_sub {w : Nat} (x y : Int) : BitVec.ofInt w (x - y) = BitVec.ofInt w x - BitVec.ofInt w y := by
  rw [Int.sub_eq_add_neg, BitVec.ofInt_add, BitVec.ofInt_neg, BitVec.sub_eq_add_neg]

theorem ofInt_sub_toNat {w : Nat} (a b : BitVec w) : BitVec.ofInt w (a.toNat - b.toNat) = a - b := by
  rw [ofInt_sub, ofInt_toNat, ofInt_toNat]

theorem ofNat_add_toNat {w : Nat} (a b : BitVec w) : BitVec.ofNat w (a.toNat + b.toNat) = a + b := by
  simp [BitVec.ofNat_add]

theorem ofNat_mul_toNat {w : Nat} (a b : BitVec w) : BitVec.ofNat w (a.toNat * b.toNat) = a * b := by
  simp [BitVec.ofNat_mul]

/-! ### The computations of R122 -/

theorem clampInt_eq_clampTo {lo hi : Int} (h : lo ≤ hi) (v : Int) : clampInt lo hi v = clampTo lo hi v := by
  unfold clampInt clampTo
  omega

theorem satS_eq (v : Int) : satS v = BitVec.ofInt 32 (clampTo (-2147483648) 2147483647 v) :=
  congrArg (BitVec.ofInt 32) (clampInt_eq_clampTo (by decide) v)

theorem satU_eq (v : Int) : satU v = BitVec.ofInt 32 (clampTo 0 4294967295 v) :=
  congrArg (BitVec.ofInt 32) (clampInt_eq_clampTo (by decide) v)

theorem addW_eq (sub : Nat) (a b : W32) : addW sub a b = specAdd sub a b :=
  match sub with
  | 0 => (ofNat_add_toNat a b).symm
  | 1 => satS_eq _
  | _ + 2 => satU_eq _

theorem subW_eq (sub : Nat) (a b : W32) : subW sub a b = specSub sub a b :=
  match sub with
  | 0 => (ofInt_sub_toNat a b).symm
  | 1 => satS_eq _
  | _ + 2 => satU_eq _

/-- The high word of a product is its floor division by 2^32. -/
theorem mulhW_eq (sub : Nat) (a b : W32) : mulhW sub a b = specMulh sub a b := by
  have floor (p : Int) : p.fdiv (2 ^ 32) = p / 4294967296 := Int.fdiv_eq_ediv_of_nonneg p (by decide)
  unfold mulhW
  dsimp only
  rw [floor]
  match sub with
  | 0 => rfl
  | 1 => exact BitVec.ofInt_natCast 32 _
  | _ + 2 => rfl

theorem mul_add_eq {w : Nat} (a b c : BitVec w) : a * b + c = BitVec.ofNat w (a.toNat * b.toNat + c.toNat) := by
  simp [BitVec.ofNat_add, BitVec.ofNat_mul]

theorem madwW_eq (sub : Nat) (a b : W32) (c : W64) : madwW sub a b c = specMadw sub a b c :=
  match sub with
  | 0 => by
    show BitVec.ofInt 64 a.toInt * BitVec.ofInt 64 b.toInt + c = BitVec.ofInt 64 (a.toInt * b.toInt + c.toNat)
    rw [BitVec.ofInt_add, BitVec.ofInt_mul, ofInt_toNat]
  | _ + 1 => by
    show BitVec.setWidth 64 a * BitVec.setWidth 64 b + c = BitVec.ofNat 64 (a.toNat * b.toNat + c.toNat)
    simp [BitVec.ofNat_add, BitVec.ofNat_mul]

/-- Where an order has `a` and `b` both ways, they are one word, and either may be taken as the lesser. -/
theorem minW_eq (sub : Nat) (a b : W32) : minW sub a b = specMin sub a b :=
  match sub with
  | 0 => by
    show (if a.slt b then a else b) = if a.toInt ≤ b.toInt then a else b
    simp only [BitVec.slt_eq_decide, decide_eq_true_eq]
    split <;> split
    · rfl
    · omega
    · exact BitVec.eq_of_toInt_eq (by omega)
    · rfl
  | _ + 1 => by
    show (if a.ult b then a else b) = if a.toNat ≤ b.toNat then a else b
    simp only [BitVec.ult_eq_decide, decide_eq_true_eq]
    split <;> split
    · rfl
    · omega
    · exact BitVec.eq_of_toNat_eq (by omega)
    · rfl

theorem maxW_eq (sub : Nat) (a b : W32) : maxW sub a b = specMax sub a b :=
  match sub with
  | 0 => by
    show (if b.slt a then a else b) = if a.toInt ≤ b.toInt then b else a
    simp only [BitVec.slt_eq_decide, decide_eq_true_eq, ← Int.not_le, ite_not]
  | _ + 1 => by
    show (if b.ult a then a else b) = if a.toNat ≤ b.toNat then b else a
    simp only [BitVec.ult_eq_decide, decide_eq_true_eq, ← Nat.not_le, ite_not]

theorem absW_eq (a : W32) : absW a = BitVec.ofNat 32 a.toInt.natAbs := by
  unfold absW
  rw [← BitVec.ofInt_natCast]
  have sign : a.getLsbD 31 = decide (a.toInt < 0) := (BitVec.msb_eq_getLsbD_last a).symm.trans BitVec.msb_eq_toInt
  simp only [sign, decide_eq_true_eq]
  split
  · next neg =>
    rw [Int.ofNat_natAbs_of_nonpos (Int.le_of_lt neg), BitVec.ofInt_neg, BitVec.ofInt_toInt]
  · next pos =>
    rw [Int.natAbs_of_nonneg (Int.not_lt.1 pos), BitVec.ofInt_toInt]

/-! ### The table of R123 -/

theorem divW_eq (sub : Nat) (a b : W32) : divW sub a b = specDiv sub a b := by
  unfold divW specDiv
  split
  · rfl
  · match sub with
    | 0 => rfl
    | _ + 1 => exact BitVec.udiv_def

theorem remW_eq (sub : Nat) (a b : W32) : remW sub a b = specRem sub a b := by
  unfold remW specRem
  split
  · rfl
  · match sub with
    | 0 => exact congrArg (BitVec.ofInt 32) (Int.tmod_def _ _)
    | _ + 1 => exact BitVec.umod_def

/-! ### Instructions whose execution writes or sends a value of the rules -/

section
variable {i : Instr} {s : State} {f : Fields} {len : Nat}

theorem givesXP_of_exec {v : Thr → W64} (h : exec i s = s.aluXP f len v) : i.givesXP s f len v := by
  unfold Instr.givesXP
  rw [h]
  exact State.aluXP_ran s f len v

theorem givesP_of_exec {v : Thr → Bool} (h : exec i s = s.aluP f len v) : i.givesP s f len v := by
  unfold Instr.givesP
  rw [h]
  exact State.aluP_ran s f len v

theorem sendsX_of_exec {v : Thr → W32} (h : exec i s = s.varX f len v) : i.sendsX s f len v := by
  unfold Instr.sendsX
  rw [h]
  exact State.varX_ran s f len v

/-! The same where the model computes a value `w` that is the rule's value `v`. -/

theorem givesX_of_eq {w v : Thr → W32} (h : exec i s = s.aluX f len w) (e : ∀ x, w x = v x) : i.givesX s f len v :=
  givesX_of_exec (h.trans (congrArg _ (funext e)))

theorem givesXP_of_eq {w v : Thr → W64} (h : exec i s = s.aluXP f len w) (e : ∀ x, w x = v x) :
    i.givesXP s f len v := givesXP_of_exec (h.trans (congrArg _ (funext e)))

theorem givesP_of_eq {w v : Thr → Bool} (h : exec i s = s.aluP f len w) (e : ∀ x, w x = v x) : i.givesP s f len v :=
  givesP_of_exec (h.trans (congrArg _ (funext e)))

theorem sendsX_of_eq {w v : Thr → W32} (h : exec i s = s.varX f len w) (e : ∀ x, w x = v x) : i.sendsX s f len v :=
  sendsX_of_exec (h.trans (congrArg _ (funext e)))

end

/-- R122, each instruction by its computation. -/
theorem integerArithmetic : Claims.IntegerArithmetic := by
  unfold Claims.IntegerArithmetic
  intro f imm s
  refine ⟨givesX_of_eq rfl fun _ => addW_eq _ _ _, givesX_of_eq rfl fun _ => addW_eq _ _ _,
    givesX_of_eq rfl fun _ => subW_eq _ _ _, givesX_of_eq rfl fun _ => subW_eq _ _ _,
    givesX_of_eq rfl fun _ => (ofNat_mul_toNat _ _).symm, givesX_of_eq rfl fun _ => (ofNat_mul_toNat _ _).symm,
    givesX_of_eq rfl fun _ => mulhW_eq _ _ _, givesX_of_eq rfl fun _ => mulhW_eq _ _ _,
    givesX_of_eq rfl fun _ => mul_add_eq _ _ _, givesX_of_eq rfl fun _ => mul_add_eq _ _ _,
    givesXP_of_eq rfl fun _ => madwW_eq _ _ _ _, givesXP_of_eq rfl fun _ => madwW_eq _ _ _ _,
    givesX_of_eq rfl fun _ => minW_eq _ _ _, givesX_of_eq rfl fun _ => minW_eq _ _ _,
    givesX_of_eq rfl fun _ => maxW_eq _ _ _, givesX_of_eq rfl fun _ => maxW_eq _ _ _,
    givesX_of_eq rfl fun _ => absW_eq _⟩

/-- R123, each instruction by its computation. -/
theorem divideRemainder : Claims.DivideRemainder := by
  unfold Claims.DivideRemainder
  intro f imm s
  exact ⟨sendsX_of_eq rfl fun _ => divW_eq _ _ _, sendsX_of_eq rfl fun _ => divW_eq _ _ _,
    sendsX_of_eq rfl fun _ => remW_eq _ _ _, sendsX_of_eq rfl fun _ => remW_eq _ _ _⟩

/-- Settles O1: arithmetic, and then division. -/
theorem integerAndDivision : Obligations.IntegerAndDivision := ⟨integerArithmetic, divideRemainder⟩

end Sys2Proof.Machine
end

/-! ## Logic, shifts, fields, comparison and selection (R124, R125) -/

section
namespace Sys2Proof.Machine

/-! ### Shifts and rotates of R124 -/

theorem shiftLeft_eq_ofNat {w : Nat} (a : BitVec w) (n : Nat) : a <<< n = BitVec.ofNat w (a.toNat * 2 ^ n) :=
  BitVec.eq_of_toNat_eq (by rw [BitVec.toNat_shiftLeft, BitVec.toNat_ofNat, Nat.shiftLeft_eq])

theorem shiftRight_eq_ofNat {w : Nat} (a : BitVec w) (n : Nat) : a >>> n = BitVec.ofNat w (a.toNat / 2 ^ n) := by
  rw [← Nat.shiftRight_eq_div_pow, ← BitVec.toNat_ushiftRight, BitVec.ofNat_toNat, BitVec.setWidth_eq]

theorem shlW_eq {w : Nat} (a : BitVec w) (n : Nat) : shlW a n = specShl a n := by
  unfold shlW specShl
  rw [shiftLeft_eq_ofNat]

theorem shrW_eq {w : Nat} (a : BitVec w) (n : Nat) : shrW a n = specShr a n := by
  unfold shrW specShr
  rw [shiftRight_eq_ofNat]

/-- A shift by the whole width leaves the sign in every bit. -/
theorem sshiftRight_width {w : Nat} (a : BitVec w) :
    a.sshiftRight w = if a.toInt < 0 then BitVec.allOnes w else 0 := by
  have sign : a.msb = decide (a.toInt < 0) := BitVec.msb_eq_toInt
  split
  · next neg =>
    rw [BitVec.sshiftRight_eq_of_msb_true (by simp [sign, neg]), BitVec.ushiftRight_eq_zero (Nat.le_refl w)]
    exact BitVec.not_zero
  · next pos =>
    rw [BitVec.sshiftRight_eq_of_msb_false (by simpa [sign] using pos)]
    exact BitVec.ushiftRight_eq_zero (Nat.le_refl w)

theorem sarW_eq {w : Nat} (a : BitVec w) (n : Nat) : sarW a n = specSar a n := by
  unfold sarW specSar
  split
  · rw [BitVec.sshiftRight_eq, Int.shiftRight_eq_div_pow]
    rfl
  · exact sshiftRight_width a

/-- The two parts of a rotated word share no bit. -/
theorem shiftLeft_and_shiftRight (a : W32) {i j : Nat} (h : 32 ≤ i + j) : (a <<< i) &&& (a >>> j) = 0#32 := by
  ext m hm
  simp only [BitVec.getElem_and, BitVec.getElem_shiftLeft, BitVec.getElem_ushiftRight, BitVec.getElem_zero]
  by_cases low : m < i
  · simp [low]
  · rw [BitVec.getLsbD_of_ge a (j + m) (by omega), Bool.and_false]

theorem shiftLeft_or_shiftRight (a : W32) {i j : Nat} (h : 32 ≤ i + j) :
    (a <<< i) ||| (a >>> j) = BitVec.ofNat 32 (a.toNat * 2 ^ i + a.toNat / 2 ^ j) := by
  rw [← BitVec.add_eq_or_of_and_eq_zero _ _ (shiftLeft_and_shiftRight a h), BitVec.ofNat_add, shiftLeft_eq_ofNat,
    shiftRight_eq_ofNat]

theorem rotW_eq (sub : Nat) (a : W32) (n : Nat) : rotW sub a n = specRot sub a n :=
  match sub with
  | 0 => by
    show a.rotateLeft (n % 32) = BitVec.ofNat 32 (a.toNat * 2 ^ (n % 32) + a.toNat / 2 ^ (32 - n % 32))
    rw [BitVec.rotateLeft_def, Nat.mod_mod, shiftLeft_or_shiftRight a (by omega)]
  | _ + 1 => by
    show a.rotateRight (n % 32) = BitVec.ofNat 32 (a.toNat / 2 ^ (n % 32) + a.toNat * 2 ^ (32 - n % 32))
    rw [BitVec.rotateRight_def, Nat.mod_mod, BitVec.or_comm, shiftLeft_or_shiftRight a (by omega), Nat.add_comm]

/-! ### Counts and the reversal -/

theorem clzW_eq (a : W32) : clzW a = specClz a := by
  unfold clzW specClz bitLen
  by_cases h : a = 0
  · subst h; rfl
  · have pos : a.toNat ≠ 0 := fun e => h (BitVec.eq_of_toNat_eq e)
    rw [if_neg h, if_neg pos]
    congr 1
    omega

theorem popcW_eq (a : W32) : popcW a = specPopc a :=
  congrArg (BitVec.ofNat 32) List.countP_eq_length_filter.symm

theorem foldl_or_getLsbD (l : List Nat) (m : W32) {i : Nat} (hi : i < 32) :
    (l.foldl (fun m i => m ||| (1#32 <<< i)) m).getLsbD i = (m.getLsbD i || decide (i ∈ l)) := by
  induction l generalizing m with
  | nil => simp
  | cons j l ih =>
    rw [List.foldl_cons, ih]
    have bit : (m ||| 1#32 <<< j).getLsbD i = if i = j then true else m.getLsbD i := setBit32_getLsbD m j i true hi
    rw [bit]
    by_cases h : i = j <;> simp [h]

/-- A mask has the bits that the list names. -/
theorem bitMask_getLsbD (l : List Nat) {i : Nat} (hi : i < 32) : (bitMask l).getLsbD i = decide (i ∈ l) := by
  unfold bitMask
  rw [foldl_or_getLsbD l 0 hi]
  simp

theorem brevW_eq (a : W32) : brevW a = specBrev a := by
  refine BitVec.eq_of_getLsbD_eq fun i hi => ?_
  unfold brevW specBrev
  rw [bitMask_getLsbD _ hi, BitVec.getLsbD_reverse, BitVec.getMsbD]
  simp [hi]

/-! ### Bit fields -/

/-- The low n bits of a number, read as signed. -/
theorem sext_eq (v : Nat) {n : Nat} (hn : n ≠ 0) :
    sext v n = if 2 ^ n ≤ 2 * (v % 2 ^ n) then ((v % 2 ^ n : Nat) : Int) - 2 ^ n else (v % 2 ^ n : Nat) := by
  have pow : 2 ^ (n - 1) * 2 = 2 ^ n := Nat.two_pow_pred_mul_two (Nat.pos_of_ne_zero hn)
  unfold sext
  by_cases h : v % 2 ^ n < 2 ^ (n - 1)
  · rw [if_pos h, if_neg (by omega)]
  · rw [if_neg h, if_pos (by omega)]
    push_cast
    rfl

theorem bfxW_eq (sub : Nat) (a b : W32) : bfxW sub a b = specBfx sub a b := by
  have len : fieldLen b = specWidth b := rfl
  have pos : fieldPos b = specPos b := rfl
  unfold bfxW specBfx
  rw [len, pos]
  dsimp only
  by_cases h : specWidth b = 0
  · rw [if_pos h, h]
    cases sub <;> simp [Nat.mod_one]
  · have bits : bitsN a.toNat (specPos b + specWidth b - 1) (specPos b) =
        a.toNat / 2 ^ specPos b % 2 ^ specWidth b := by
      unfold bitsN
      congr 2
      omega
    rw [if_neg h, bits]
    match sub with
    | 0 => exact congrArg (BitVec.ofInt 32) (by rw [sext_eq _ h, Nat.mod_mod])
    | _ + 1 => rfl

/-- A number is its bits above a field, the field, and its bits below. -/
theorem split_at_field (c p w : Nat) :
    c = c / 2 ^ (p + w) * 2 ^ (p + w) + c / 2 ^ p % 2 ^ w * 2 ^ p + c % 2 ^ p := by
  have low := Nat.div_add_mod' c (2 ^ p)
  have high := Nat.div_add_mod' (c / 2 ^ p) (2 ^ w)
  calc c = (c / 2 ^ p / 2 ^ w * 2 ^ w + c / 2 ^ p % 2 ^ w) * 2 ^ p + c % 2 ^ p := by rw [high, low]
    _ = _ := by rw [Nat.div_div_eq_div_mul, ← Nat.pow_add, Nat.add_mul, Nat.mul_assoc, ← Nat.pow_add, Nat.add_comm w p]

theorem setBitsN_eq (c p w x : Nat) :
    setBitsN c p w x = c / 2 ^ (p + w) * 2 ^ (p + w) + x % 2 ^ w * 2 ^ p + c % 2 ^ p := by
  have parts := split_at_field c p w
  unfold setBitsN
  omega

theorem bfiW_eq (a b c : W32) : bfiW a b c = specBfi a b c :=
  congrArg (BitVec.ofNat 32) (setBitsN_eq c.toNat (specPos b) (specWidth b) a.toNat)

/-! ### The conditions of R125 -/

theorem intCond_eq (n : Nat) {w : Nat} (a b : BitVec w) : intCond n a b = specCond n a b :=
  match n with
  | 0 => by simp only [intCond, specCond, BitVec.toNat_inj]
  | 1 => by simp only [intCond, specCond, ne_eq, BitVec.toNat_inj]
  | 2 => BitVec.slt_eq_decide
  | 3 => BitVec.sle_eq_decide
  | 4 => BitVec.slt_eq_decide
  | 5 => BitVec.sle_eq_decide
  | 6 => BitVec.ult_eq_decide
  | 7 => BitVec.ule_eq_decide
  | 8 => BitVec.ult_eq_decide
  | _ + 9 => BitVec.ule_eq_decide

/-- R124, each instruction by its computation. -/
theorem logicShiftField : Claims.LogicShiftField := by
  unfold Claims.LogicShiftField
  intro f imm s
  exact ⟨givesX_of_exec rfl, givesX_of_exec rfl, givesX_of_exec rfl, givesX_of_exec rfl, givesX_of_exec rfl,
    givesX_of_exec rfl, givesX_of_exec rfl, givesX_of_exec rfl,
    givesX_of_eq rfl fun _ => shlW_eq _ _, givesX_of_eq rfl fun _ => shlW_eq _ _,
    givesX_of_eq rfl fun _ => shrW_eq _ _, givesX_of_eq rfl fun _ => shrW_eq _ _,
    givesX_of_eq rfl fun _ => sarW_eq _ _, givesX_of_eq rfl fun _ => sarW_eq _ _,
    givesX_of_eq rfl fun _ => rotW_eq _ _ _, givesX_of_eq rfl fun _ => rotW_eq _ _ _,
    givesX_of_eq rfl fun _ => clzW_eq _, givesX_of_eq rfl fun _ => popcW_eq _, givesX_of_eq rfl fun _ => brevW_eq _,
    givesX_of_eq rfl fun _ => bfxW_eq _ _ _, givesX_of_eq rfl fun _ => bfxW_eq _ _ _,
    givesX_of_eq rfl fun _ => bfiW_eq _ _ _, givesX_of_eq rfl fun _ => bfiW_eq _ _ _⟩

/-- R125: the conditions, and values that the rule itself writes down. -/
theorem compareSelectMove : Claims.CompareSelectMove := by
  unfold Claims.CompareSelectMove
  intro f imm s
  exact ⟨givesP_of_eq rfl fun _ => intCond_eq _ _ _, givesP_of_eq rfl fun _ => intCond_eq _ _ _,
    givesX_of_exec rfl, givesX_of_exec rfl, givesX_of_exec rfl, givesX_of_exec rfl⟩

/-- Settles O2: logic, shifts and fields, and then comparison and selection. -/
theorem logicShiftsAndSelection : Obligations.LogicShiftsAndSelection := ⟨logicShiftField, compareSelectMove⟩

end Sys2Proof.Machine
end

/-! ## 64-bit pairs and predicates (R126, R127) -/

section
namespace Sys2Proof.Machine

/-! ### The computations of R126 -/

theorem add_imm64_eq (p : W64) (imm : W32) : p + imm64 imm = BitVec.ofInt 64 (p.toNat + imm.toInt) := by
  rw [BitVec.ofInt_add, ofInt_toNat]
  rfl

theorem sub_imm64_eq (p : W64) (imm : W32) : p - imm64 imm = BitVec.ofInt 64 (p.toNat - imm.toInt) := by
  rw [ofInt_sub, ofInt_toNat]
  rfl

theorem sh64W_eq (sub : Nat) (p : W64) (n : Nat) : sh64W sub p n = specSh64 sub p n :=
  match sub with
  | 0 => shlW_eq p n
  | 1 => shrW_eq p n
  | _ + 2 => sarW_eq p n

/-- A shift left of a signed number, at the number's width or beyond. -/
theorem ofInt_shiftLeft {w : Nat} (v : Int) (n : Nat) : BitVec.ofInt w v <<< n = BitVec.ofInt w (v * 2 ^ n) := by
  have cast : ((2 ^ n : Nat) : Int) = 2 ^ n := Int.natCast_pow 2 n
  have pow : BitVec.twoPow w n = BitVec.ofInt w (2 ^ n) := by
    rw [← cast, BitVec.ofInt_natCast]
    exact BitVec.eq_of_toNat_eq ((BitVec.toNat_twoPow w n).trans (BitVec.toNat_ofNat _ _).symm)
  rw [BitVec.shiftLeft_eq_mul_twoPow, BitVec.ofInt_mul, pow]

theorem leaW_eq (p : W64) (x : W32) (sh : Nat) (disp : W32) : leaW p x sh disp = specLea p x sh disp := by
  unfold leaW specLea
  rw [BitVec.ofInt_add, BitVec.ofInt_add, ofInt_toNat, ← ofInt_shiftLeft]
  rfl

/-- R126, each instruction by its computation. -/
theorem wideArithmetic : Claims.WideArithmetic := by
  unfold Claims.WideArithmetic
  intro f imm s
  exact ⟨givesXP_of_eq rfl fun _ => (ofNat_add_toNat _ _).symm, givesXP_of_eq rfl fun _ => add_imm64_eq _ _,
    givesXP_of_eq rfl fun _ => (ofInt_sub_toNat _ _).symm, givesXP_of_eq rfl fun _ => sub_imm64_eq _ _,
    givesXP_of_eq rfl fun _ => sh64W_eq _ _ _, givesXP_of_eq rfl fun _ => sh64W_eq _ _ _,
    givesP_of_eq rfl fun _ => intCond_eq _ _ _, givesP_of_eq rfl fun _ => intCond_eq _ _ _,
    givesXP_of_eq rfl fun _ => leaW_eq _ _ _ _, givesXP_of_eq rfl fun _ => leaW_eq _ _ _ _⟩

/-! ### PLOG and PMOV (R127, R84) -/

/-- PLOG's operations, as R127 numbers them. -/
theorem plogW_eq (sub : Nat) (a b : Bool) : plogW sub a b = match sub with
    | 0 => a && b
    | 1 => a || b
    | 2 => xor a b
    | 3 => a && !b
    | 4 => !a
    | 5 => true
    | _ => false := by
  unfold plogW
  cases a <;> cases b <;> rfl

/-- PMOV.rd reads p7 as 1, and bit 31 as 0 on a sequencer. -/
theorem pmovWord_eq (s : State) (x : Thr) : pmovWord s x = match x with
    | .fib _ => s.predWord x ||| 0x80#32
    | _ => (s.predWord x ||| 0x80#32) &&& 0x7FFFFFFF#32 := by
  cases x <;> rfl

/-- What PMOV.wr makes of each predicate: p7 stays 1, p0 to p6 and a fibre's CVF come from the source, and no other bit
is kept. -/
def pmovBit (x : Thr) (v : W32) (n : Nat) : Bool :=
  if n = 7 then true
  else if n < 7 then v.getLsbD n
  else match x with
    | .fib _ => decide (n = 31) && v.getLsbD 31
    | _ => false

/-- The predicate word that PMOV.wr writes. -/
def pmovNew (x : Thr) (v : W32) : W32 :=
  match x with
  | .fib _ => (v &&& 0x8000007F#32) ||| 0x80#32
  | _ => (v &&& 0x7F#32) ||| 0x80#32

theorem pmovNew_getLsbD (x : Thr) (v : W32) {n : Nat} (hn : n < 32) : (pmovNew x v).getLsbD n = pmovBit x v n := by
  have cvf : ∀ n < 32, (0x8000007F#32).getLsbD n = decide (n < 7 ∨ n = 31) := by decide
  have low : ∀ n < 32, (0x7F#32).getLsbD n = decide (n < 7) := by decide
  have p7 : ∀ n < 32, (0x80#32).getLsbD n = decide (n = 7) := by decide
  have fibre : ((v &&& 0x8000007F#32) ||| 0x80#32).getLsbD n =
      if n = 7 then true else if n < 7 then v.getLsbD n else decide (n = 31) && v.getLsbD 31 := by
    rw [BitVec.getLsbD_or, BitVec.getLsbD_and, cvf n hn, p7 n hn]
    by_cases h7 : n = 7
    · simp [h7]
    · by_cases h31 : n = 31 <;> simp [h7, h31, Bool.and_comm]
  have seq : ((v &&& 0x7F#32) ||| 0x80#32).getLsbD n =
      if n = 7 then true else if n < 7 then v.getLsbD n else false := by
    rw [BitVec.getLsbD_or, BitVec.getLsbD_and, low n hn, p7 n hn]
    by_cases h7 : n = 7 <;> simp [h7, Bool.and_comm]
  cases x with
  | fib k => exact fibre
  | mat q => exact seq
  | cop c => exact seq

theorem lookup_map_pair {α : Type} (g : Nat → α) {l : List Nat} {m : Nat} (h : m ∈ l) :
    (l.map fun i => (i, g i)).lookup m = some (g m) := by
  induction l with
  | nil => cases h
  | cons j l ih =>
    rw [List.map_cons, List.lookup_cons]
    by_cases e : m = j
    · simp [e]
    · simp only [beq_eq_false_iff_ne.2 e]
      exact ih (List.mem_of_ne_of_mem e h)

theorem pmovTo_eq (s : State) (x : Thr) (v : W32) :
    pmovTo s x v = s.onThr x (fun F => { F with pw := pmovNew x v }) (fun M => { M with pw := pmovNew x v }) := by
  cases x <;> rfl

/-- R127: what the predicate word gives and takes. -/
theorem predicateInstructions : Claims.PredicateInstructions := by
  unfold Claims.PredicateInstructions
  intro f s
  refine ⟨givesP_of_eq rfl fun _ => plogW_eq _ _ _, givesX_of_eq rfl fun x => pmovWord_eq s x, ?_⟩
  refine State.alu_pw s f 0 _ (fun x _ => pmovNew x (srcA f s x)) _ (fun s' x => pmovTo_eq s' x _) fun x p m hm => ?_
  rw [pmovNew_getLsbD x _ hm]
  exact (congrArg (Option.getD · _) (lookup_map_pair (pmovBit x (srcA f s x)) (List.mem_range.2 hm))).symm

/-- Settles O3: pairs, and then predicates. -/
theorem wideAndPredicates : Obligations.WideAndPredicates := ⟨wideArithmetic, predicateInstructions⟩

end Sys2Proof.Machine
end

/-! ## Floating point (R131 to R138) -/

section
namespace Sys2Proof.Machine

/-! ### The order of values (R133) -/

theorem cmpDy_swap (m : Nat) (e : Int) (m' : Nat) (e' : Int) : cmpDy m' e' m e = (cmpDy m e m' e').swap := by
  have least : (if e' ≤ e then e' else e) = if e ≤ e' then e else e' := by omega
  unfold cmpDy
  rw [least]
  exact (Nat.compare_swap _ _).symm

/-- The order of two finite values, the other way round. -/
theorem FVal.cmp_fin_swap (n n' : Bool) (m m' : Nat) (e e' : Int) (st st' : Bool) :
    (FVal.fin n' m' e' st').cmp (.fin n m e st) = ((FVal.fin n m e st).cmp (.fin n' m' e' st')).swap := by
  unfold FVal.cmp
  dsimp only
  by_cases h : m = 0
  · by_cases h' : m' = 0
    · simp [h, h']
    · cases n' <;> simp [h, h']
  · by_cases h' : m' = 0
    · cases n <;> simp [h, h']
    · cases n <;> cases n' <;> simp [h, h', ← cmpDy_swap]

theorem FVal.cmp_swap {u v : FVal} (hu : u ≠ .nan) (hv : v ≠ .nan) : v.cmp u = (u.cmp v).swap := by
  cases u with
  | nan => exact absurd rfl hu
  | inf n =>
    cases v with
    | nan => exact absurd rfl hv
    | inf k => cases n <;> cases k <;> rfl
    | fin k m e st => cases n <;> rfl
  | fin n m e st =>
    cases v with
    | nan => exact absurd rfl hv
    | inf k => cases k <;> rfl
    | fin k m' e' st' => exact FVal.cmp_fin_swap ..

/-- FCMP on operands that are numbers, by their order. -/
theorem floatCond_of_ne_nan (n : Nat) {u v : FVal} (hu : u ≠ .nan) (hv : v ≠ .nan) : floatCond n u v = match n with
    | 0 => decide (u.cmp v = .eq)
    | 1 => decide (u.cmp v ≠ .eq)
    | 2 => decide (u.cmp v = .lt)
    | 3 => decide (u.cmp v ≠ .gt)
    | 4 => decide (u.cmp v = .gt)
    | 5 => decide (u.cmp v ≠ .lt)
    | 6 => false
    | _ => true :=
  if_neg (by simp [hu, hv])

/-- A word whose bits are 0, the sign apart, is a zero of F32. -/
theorem decF32_zero {a : W32} (h : a &&& 0x7FFFFFFF#32 = 0) : ∃ neg, decF32 a.toNat = .fin neg 0 (-149) false := by
  have low : a.toNat % 2 ^ 31 = 0 := by
    have e := congrArg BitVec.toNat h
    rw [BitVec.toNat_and] at e
    exact (Nat.and_two_pow_sub_one_eq_mod a.toNat 31).symm.trans e
  have zeros : a.toNat = 0 ∨ a.toNat = 2 ^ 31 := by have := a.isLt; omega
  rcases zeros with e | e <;> rw [e]
  · exact ⟨false, rfl⟩
  · exact ⟨true, rfl⟩

/-- R133, by the order of the operands' values. -/
theorem floatCompareCases : Claims.FloatCompareCases := by
  unfold Claims.FloatCompareCases
  intro n a b _
  refine ⟨fun h => if_pos h, fun hu hv => ?_, fun ha hb => ?_⟩
  · simp only [floatCond_of_ne_nan _ hu hv, floatCond_of_ne_nan _ hv hu, FVal.cmp_swap hu hv]
    cases (decF32 a.toNat).cmp (decF32 b.toNat) <;> decide
  · obtain ⟨k, ea⟩ := decF32_zero ha
    obtain ⟨l, eb⟩ := decF32_zero hb
    rw [ea, eb]
    rfl

/-- R131, R132, R134, R135, R138: the values are the model's own element functions. -/
theorem floatArithmetic : Claims.FloatArithmetic := by
  unfold Claims.FloatArithmetic
  intro f imm s
  exact ⟨givesX_of_exec rfl, givesX_of_exec rfl, givesX_of_exec rfl, givesX_of_exec rfl, givesX_of_exec rfl,
    givesX_of_exec rfl, givesX_of_exec rfl, givesX_of_exec rfl, givesX_of_exec rfl, givesX_of_exec rfl,
    givesX_of_exec rfl, givesX_of_exec rfl, givesP_of_exec rfl, givesP_of_exec rfl, givesX_of_exec rfl,
    givesX_of_exec rfl, givesX_of_exec rfl, givesX_of_exec rfl⟩

/-- R136: every transcendental is `transX` of its function. -/
theorem transcendentals : Claims.Transcendentals := by
  unfold Claims.Transcendentals
  intro f s
  have sends (i : Instr) (fn : TFun) (h : exec i s = transX f s fn) :
      i.sendsX s f 0 fun x => mapElems (typeOf f) (transOp fn f) (srcA f s x) 0 0 := sendsX_of_exec h
  exact ⟨sends _ .rcp rfl, sends _ .rsq rfl, sends _ .sqrt rfl, sends _ .exp2 rfl, sends _ .log2 rfl, sends _ .sin rfl,
    sends _ .cos rfl, sends _ .tanh rfl⟩

/-- Settles O4: the values, the comparisons and the transcendentals. -/
theorem floatingPoint : Obligations.FloatingPoint := ⟨floatArithmetic, floatCompareCases, transcendentals⟩

end Sys2Proof.Machine
end

/-! ## Cross-lane instructions (R147 to R151) -/

section
namespace Sys2Proof.Machine

section
variable {i : Instr} {s : State} {f : Fields} {len : Nat}

theorem sendsP_of_exec {v : Thr → Bool} {b : Nat} (hb : s.focus = .band b) (h : exec i s = s.varP f len v) :
    i.sendsP s f len v := by
  unfold Instr.sendsP
  rw [h]
  exact State.varP_ran s f len v hb

/-! ### VOTE (R148) -/

theorem exec_vote_ballot (h : f.sub = 2) : exec (.vote f) s =
    s.varX f 0 fun _ => laneMask ((s.active f).filter fun x => s.rp x f.a.toNat) := if_pos h

theorem exec_vote_pred (h : f.sub ≠ 2) : exec (.vote f) s = s.varP f 0 fun _ =>
    if f.sub = 0 then (s.active f).all fun x => s.rp x f.a.toNat
    else if f.sub = 1 then (s.active f).any fun x => s.rp x f.a.toNat
    else (s.active f).all (fun x => s.rp x f.a.toNat) || (s.active f).all fun x => !s.rp x f.a.toNat := if_neg h

theorem exec_vote_all (h : f.sub = 0) : exec (.vote f) s =
    s.varP f 0 fun _ => (s.active f).all fun x => s.rp x f.a.toNat := by
  rw [exec_vote_pred (by rw [h]; decide), h]
  rfl

theorem exec_vote_any (h : f.sub = 1) : exec (.vote f) s =
    s.varP f 0 fun _ => (s.active f).any fun x => s.rp x f.a.toNat := by
  rw [exec_vote_pred (by rw [h]; decide), h]
  rfl

theorem exec_vote_uni (h : f.sub = 3) : exec (.vote f) s = s.varP f 0 fun _ =>
    (s.active f).all (fun x => s.rp x f.a.toNat) || (s.active f).all fun x => !s.rp x f.a.toNat := by
  rw [exec_vote_pred (by rw [h]; decide), h]
  rfl

/-! ### SCAN (R150) -/

theorem exec_scan : exec (.scan f) s = s.varX f 0 fun x => reduxAll (f.md.toNat / 0x800) (rmOf (rndOf f)) (satOf f)
    (((s.active f).filter fun u => u.lane < x.lane || (f.sub = 0 && u.lane = x.lane)).map (srcA f s)) := rfl

/-- The lanes of an inclusive scan: those up to the lane itself. -/
theorem scan_inclusive (h : f.sub = 0) (u x : Thr) :
    (decide (u.lane < x.lane) || (decide (f.sub = 0) && decide (u.lane = x.lane))) = decide (u.lane ≤ x.lane) := by
  simp [h, Nat.le_iff_lt_or_eq]

theorem scan_exclusive (h : f.sub = 1) (u x : Thr) :
    (decide (u.lane < x.lane) || (decide (f.sub = 0) && decide (u.lane = x.lane))) = decide (u.lane < x.lane) := by
  simp [h]

/-! ### MATCH (R151) -/

theorem exec_match : exec (.matchLanes f) s = s.varX f 0 fun x =>
    if f.sub = 0 then laneMask ((s.active f).filter fun u => srcA f s u = srcA f s x)
    else if ((s.active f).filter fun u => srcA f s u = srcA f s x).length = (s.active f).length
      then laneMask (s.active f) else 0 := rfl

/-- As many lanes agree as there are where they all do. -/
theorem length_peers_iff (x : Thr) : ((s.active f).filter fun u => srcA f s u = srcA f s x).length = (s.active f).length ↔
    ∀ u ∈ s.active f, srcA f s u = srcA f s x := by
  simp [List.length_filter_eq_length_iff]

end

/-- Settles O6: SHFL and REDUX by the model's own values, VOTE, SCAN and MATCH by their variants. -/
theorem crossLane : Obligations.CrossLane := by
  unfold Obligations.CrossLane
  intro f imm s b hb
  refine ⟨sendsX_of_exec rfl, sendsX_of_exec rfl, fun h => sendsX_of_exec (exec_vote_ballot h),
    fun h => sendsP_of_exec hb (exec_vote_all h), fun h => sendsP_of_exec hb (exec_vote_any h),
    fun h => sendsP_of_exec hb (exec_vote_uni h), sendsX_of_exec rfl,
    fun h => sendsX_of_eq exec_scan fun x => ?_, fun h => sendsX_of_eq exec_scan fun x => ?_,
    fun h => sendsX_of_eq exec_match fun x => if_pos h, fun h => sendsX_of_eq exec_match fun x => ?_⟩
  · simp only [scan_inclusive h]
  · simp only [scan_exclusive h]
  · rw [if_neg (by rw [h]; decide)]
    simp only [length_peers_iff]

end Sys2Proof.Machine
end
